-- ==== Sys2Proof/Word.lean ====
section
/-! DEFINITION. The word types of the Velnen DZ-160 (R4) and nothing else. -/

namespace Sys2Proof

/-- A byte (R4). -/
abbrev Byte := BitVec 8
/-- A half, 16 bits (R4). -/
abbrev W16 := BitVec 16
/-- A word, 32 bits (R4): an instruction word, a vector lane, an accumulator element. -/
abbrev W32 := BitVec 32
/-- A double, 64 bits (R4): a scalar register, a system register. -/
abbrev W64 := BitVec 64

end Sys2Proof
end

