-- ==== Sys2Proof/Machine/Packets.lean ====
section
/-! DEFINITION. What the outside world hands the package as one datum: a stream frame (R313), a Selvedge flit (R316), the
contents of the firmware flash (R319), a TDISP request (R305), what a host's TLP addresses (R304) and whose keys are renewed (R317, R320). -/

namespace Sys2Proof

/-- A UDP datagram that reaches a stream port (R312, R313): its destination port and its payload, the 32-byte header first. -/
structure Frame where
  udp   : W16
  bytes : List Byte
  deriving DecidableEq, Repr

/-- A Selvedge flit whose FEC and tag have passed (R316, R317). `unit`, `chan` and `part` are the subfields of SRC. -/
structure Flit where
  type    : BitVec 4
  vc      : BitVec 2
  dpkg    : Byte
  spkg    : Byte
  hops    : Byte
  unit    : Byte
  chan    : BitVec 2
  part    : BitVec 6
  xid     : W32
  lseq    : W16
  param   : W32
  payload : List Byte
  deriving DecidableEq, Repr

/-- What the flash holds when the boot ROM reads it (R319): whether each signature and security-version check passes, the
digest of each image, and the configuration the firmware applies. -/
structure BootImage where
  loaderOk     : Bool
  firmwareOk   : Bool
  tablesOk     : Bool
  configOk     : Bool
  digests      : List (BitVec 384)
  pkgNo        : Byte
  /-- Route table (R315): entry `p` is the port and the hop count of fabric package `p`. -/
  routes       : List (Nat × Nat)
  /-- The core current limit in A, the hotspot limit in °C and the floor cap in W (R270, R273). -/
  currentLimit : Nat
  thermalLimit : Nat
  floorCap     : Nat
  deriving DecidableEq, Repr

/-- The TDISP requests that move a TDI (R305). -/
inductive TdispRequest where
  /-- Lock the configuration: the TDI enters CONFIG_LOCKED. -/
  | lock
  /-- Start: a CONFIG_LOCKED TDI enters RUN. -/
  | start
  deriving DecidableEq, Repr

/-- What a TLP of the host addresses (R304): function `f`, and whether it carries the IDE stream of that function's VF (R305). -/
structure Tlp where
  f   : Nat
  ide : Bool
  deriving DecidableEq, Repr

/-- A host's read: of the function's BAR 2, or, with `page`, of its BAR 0 (R304, R308, R311). -/
structure ReadTlp extends Tlp where
  page : Bool
  deriving DecidableEq, Repr

/-- Whose keys `KEY_UPDATE` renews: a Selvedge port's (R317), or those of session `sid` of function `f`'s responder (R320). -/
inductive KeySession where
  | port (p : Nat)
  | spdm (f sid : Nat)
  deriving DecidableEq, Repr

/-- A source's sample: its number and its instant in whole nanoseconds (R314). -/
structure SampleTime where
  n  : Nat
  ts : Nat
  deriving DecidableEq, Repr

end Sys2Proof
end

