-- ==== Sys2Proof/Syntax.lean ====
section
/-! DEFINITION. The syntax: one constructor per row of the spec's opcode table, in the table's order; but the rows that the machine
itself never has to build, and those without operands, stand last, since Lean's runtime builds no constructor with arguments beyond
the 245th. Rows that are instruction words have the encoding's fields for operands; the others are the part's own steps and the
outside world's acts (spec/95_what_each_step_holds.md: each row is whole and indivisible). In an event `u` is a package unit number
(R3), `wk` a walker number (R8), `ch` a channel, `r` a region, `k` a cast-on, `n` a node or number, `j` a job, `f` a function (0 to
63 the VFs, 64 the PF), `d` a die, `p` a port, `b` a barrier instance. -/

namespace Sys2Proof

/-- The instructions and events of the DZ-160. -/
inductive Instr where
  /-- `NOP` (R54). Each named walker spends one issue cycle and changes nothing but its word index. -/
  | nop (w : BitVec 4)
  /-- `ADD` (R83). Register sum modulo 2^64. -/
  | add (w : BitVec 4) (d : BitVec 5) (a : BitVec 5) (b : BitVec 5)
  /-- `SUB` (R83). Register difference modulo 2^64. -/
  | sub (w : BitVec 4) (d : BitVec 5) (a : BitVec 5) (b : BitVec 5)
  /-- `AND` (R83). Bitwise AND of two registers. -/
  | and (w : BitVec 4) (d : BitVec 5) (a : BitVec 5) (b : BitVec 5)
  /-- `OR` (R83). Bitwise OR of two registers. -/
  | or (w : BitVec 4) (d : BitVec 5) (a : BitVec 5) (b : BitVec 5)
  /-- `XOR` (R83). Bitwise XOR of two registers. -/
  | xor (w : BitVec 4) (d : BitVec 5) (a : BitVec 5) (b : BitVec 5)
  /-- `ANDN` (R83). a AND NOT b. -/
  | andn (w : BitVec 4) (d : BitVec 5) (a : BitVec 5) (b : BitVec 5)
  /-- `ORN` (R83). a OR NOT b. -/
  | orn (w : BitVec 4) (d : BitVec 5) (a : BitVec 5) (b : BitVec 5)
  /-- `SLL` (R83). Shift left logical by b[5:0]. -/
  | sll (w : BitVec 4) (d : BitVec 5) (a : BitVec 5) (b : BitVec 5)
  /-- `SRL` (R83). Shift right logical by b[5:0]. -/
  | srl (w : BitVec 4) (d : BitVec 5) (a : BitVec 5) (b : BitVec 5)
  /-- `SRA` (R83). Shift right arithmetic by b[5:0]. -/
  | sra (w : BitVec 4) (d : BitVec 5) (a : BitVec 5) (b : BitVec 5)
  /-- `ROL` (R83). Rotate left by b[5:0]. -/
  | rol (w : BitVec 4) (d : BitVec 5) (a : BitVec 5) (b : BitVec 5)
  /-- `MUL` (R83). Low 64 bits of the product, latency 3. -/
  | mul (w : BitVec 4) (d : BitVec 5) (a : BitVec 5) (b : BitVec 5)
  /-- `MULH` (R83). High 64 bits of the signed product. -/
  | mulh (w : BitVec 4) (d : BitVec 5) (a : BitVec 5) (b : BitVec 5)
  /-- `MULHU` (R83). High 64 bits of the unsigned product. -/
  | mulhu (w : BitVec 4) (d : BitVec 5) (a : BitVec 5) (b : BitVec 5)
  /-- `DIVU` (R83). Unsigned quotient; division by zero gives all ones. -/
  | divu (w : BitVec 4) (d : BitVec 5) (a : BitVec 5) (b : BitVec 5)
  /-- `REMU` (R83). Unsigned remainder; division by zero gives a. -/
  | remu (w : BitVec 4) (d : BitVec 5) (a : BitVec 5) (b : BitVec 5)
  /-- `MIN` (R83). Signed minimum. -/
  | min (w : BitVec 4) (d : BitVec 5) (a : BitVec 5) (b : BitVec 5)
  /-- `MAX` (R83). Signed maximum. -/
  | max (w : BitVec 4) (d : BitVec 5) (a : BitVec 5) (b : BitVec 5)
  /-- `MINU` (R83). Unsigned minimum. -/
  | minu (w : BitVec 4) (d : BitVec 5) (a : BitVec 5) (b : BitVec 5)
  /-- `MAXU` (R83). Unsigned maximum. -/
  | maxu (w : BitVec 4) (d : BitVec 5) (a : BitVec 5) (b : BitVec 5)
  /-- `CLZ` (R83). Count of leading zero bits of a. -/
  | clz (w : BitVec 4) (d : BitVec 5) (a : BitVec 5)
  /-- `POPC` (R83). Count of one bits of a. -/
  | popc (w : BitVec 4) (d : BitVec 5) (a : BitVec 5)
  /-- `ADDI` (R85). Adds a sign-extended 12-bit immediate. -/
  | addi (w : BitVec 4) (d : BitVec 5) (a : BitVec 5) (im : BitVec 12)
  /-- `ANDI` (R85). ANDs a zero-extended 12-bit immediate. -/
  | andi (w : BitVec 4) (d : BitVec 5) (a : BitVec 5) (im : BitVec 12)
  /-- `ORI` (R85). ORs a zero-extended 12-bit immediate. -/
  | ori (w : BitVec 4) (d : BitVec 5) (a : BitVec 5) (im : BitVec 12)
  /-- `XORI` (R85). XORs a zero-extended 12-bit immediate. -/
  | xori (w : BitVec 4) (d : BitVec 5) (a : BitVec 5) (im : BitVec 12)
  /-- `SLLI` (R85). Shift left logical by an immediate. -/
  | slli (w : BitVec 4) (d : BitVec 5) (a : BitVec 5) (st : BitVec 6)
  /-- `SRLI` (R85). Shift right logical by an immediate. -/
  | srli (w : BitVec 4) (d : BitVec 5) (a : BitVec 5) (st : BitVec 6)
  /-- `SRAI` (R85). Shift right arithmetic by an immediate. -/
  | srai (w : BitVec 4) (d : BitVec 5) (a : BitVec 5) (st : BitVec 6)
  /-- `LI` (R85). Loads a sign-extended 17-bit immediate. -/
  | li (w : BitVec 4) (d : BitVec 5) (im : BitVec 17)
  /-- `LUI` (R85). Loads a 17-bit immediate into bits [31:15]. -/
  | lui (w : BitVec 4) (d : BitVec 5) (im : BitVec 17)
  /-- `LI_LIT` (R86). Loads a value from one or two trailing literal words, passed with the word. -/
  | liLit (w : BitVec 4) (d : BitVec 5) (two : BitVec 1) (l0 : BitVec 32) (l1 : BitVec 32)
  /-- `LD_B` (R87). Loads a sign-extended byte from the unit store. -/
  | ldB (w : BitVec 4) (d : BitVec 5) (a : BitVec 5) (o : BitVec 9)
  /-- `LD_BU` (R87). Loads a zero-extended byte from the unit store. -/
  | ldBu (w : BitVec 4) (d : BitVec 5) (a : BitVec 5) (o : BitVec 9)
  /-- `LD_H` (R87). Loads a sign-extended half. -/
  | ldH (w : BitVec 4) (d : BitVec 5) (a : BitVec 5) (o : BitVec 9)
  /-- `LD_HU` (R87). Loads a zero-extended half. -/
  | ldHu (w : BitVec 4) (d : BitVec 5) (a : BitVec 5) (o : BitVec 9)
  /-- `LD_W` (R87). Loads a sign-extended word. -/
  | ldW (w : BitVec 4) (d : BitVec 5) (a : BitVec 5) (o : BitVec 9)
  /-- `LD_WU` (R87). Loads a zero-extended word. -/
  | ldWu (w : BitVec 4) (d : BitVec 5) (a : BitVec 5) (o : BitVec 9)
  /-- `LD_D` (R87). Loads a double. -/
  | ldD (w : BitVec 4) (d : BitVec 5) (a : BitVec 5) (o : BitVec 9)
  /-- `ST_B` (R87). Stores a byte to the unit store. -/
  | stB (w : BitVec 4) (d : BitVec 5) (a : BitVec 5) (o : BitVec 9)
  /-- `ST_H` (R87). Stores a half to the unit store. -/
  | stH (w : BitVec 4) (d : BitVec 5) (a : BitVec 5) (o : BitVec 9)
  /-- `ST_W` (R87). Stores a word to the unit store. -/
  | stW (w : BitVec 4) (d : BitVec 5) (a : BitVec 5) (o : BitVec 9)
  /-- `ST_D` (R87). Stores a double to the unit store. -/
  | stD (w : BitVec 4) (d : BitVec 5) (a : BitVec 5) (o : BitVec 9)
  /-- `CMP_EQ` (R92). Writes a steer entry with C = (a = b). -/
  | cmpEq (w : BitVec 4) (d : BitVec 5) (a : BitVec 5) (b : BitVec 5)
  /-- `CMP_NE` (R92). Writes a steer entry with C = (a != b). -/
  | cmpNe (w : BitVec 4) (d : BitVec 5) (a : BitVec 5) (b : BitVec 5)
  /-- `CMP_LT` (R92). Writes a steer entry with C = signed a < b. -/
  | cmpLt (w : BitVec 4) (d : BitVec 5) (a : BitVec 5) (b : BitVec 5)
  /-- `CMP_GE` (R92). Writes a steer entry with C = signed a >= b. -/
  | cmpGe (w : BitVec 4) (d : BitVec 5) (a : BitVec 5) (b : BitVec 5)
  /-- `CMP_LTU` (R92). Writes a steer entry with C = unsigned a < b. -/
  | cmpLtu (w : BitVec 4) (d : BitVec 5) (a : BitVec 5) (b : BitVec 5)
  /-- `CMP_GEU` (R92). Writes a steer entry with C = unsigned a >= b. -/
  | cmpGeu (w : BitVec 4) (d : BitVec 5) (a : BitVec 5) (b : BitVec 5)
  /-- `CMPI_EQ` (R92). Compare with immediate, equal. -/
  | cmpiEq (w : BitVec 4) (d : BitVec 5) (a : BitVec 5) (im : BitVec 9)
  /-- `CMPI_NE` (R92). Compare with immediate, not equal. -/
  | cmpiNe (w : BitVec 4) (d : BitVec 5) (a : BitVec 5) (im : BitVec 9)
  /-- `CMPI_LT` (R92). Compare with immediate, signed less than. -/
  | cmpiLt (w : BitVec 4) (d : BitVec 5) (a : BitVec 5) (im : BitVec 9)
  /-- `CMPI_GE` (R92). Compare with immediate, signed greater or equal. -/
  | cmpiGe (w : BitVec 4) (d : BitVec 5) (a : BitVec 5) (im : BitVec 9)
  /-- `CMPI_LTU` (R92). Compare with immediate, unsigned less than. -/
  | cmpiLtu (w : BitVec 4) (d : BitVec 5) (a : BitVec 5) (im : BitVec 9)
  /-- `CMPI_GEU` (R92). Compare with immediate, unsigned greater or equal. -/
  | cmpiGeu (w : BitVec 4) (d : BitVec 5) (a : BitVec 5) (im : BitVec 9)
  /-- `ST_AND` (R93). Writes a steer entry whose C is the AND of two steer sources. -/
  | stAnd (w : BitVec 4) (d : BitVec 5) (a : BitVec 5) (b : BitVec 5)
  /-- `ST_OR` (R93). Writes a steer entry whose C is the OR of two steer sources. -/
  | stOr (w : BitVec 4) (d : BitVec 5) (a : BitVec 5) (b : BitVec 5)
  /-- `ST_NOT` (R93). Writes a steer entry whose C is the inverse of a steer source. -/
  | stNot (w : BitVec 4) (d : BitVec 5) (a : BitVec 5)
  /-- `MVST` (R94). Writes a steer entry with C and T from a register. -/
  | mvst (w : BitVec 4) (d : BitVec 5) (a : BitVec 5)
  /-- `MVFST` (R94). Copies a steer source image into a register. -/
  | mvfst (w : BitVec 4) (d : BitVec 5) (a : BitVec 5)
  /-- `SEL` (R95). Selects one of two registers by a steer C. -/
  | sel (w : BitVec 4) (d : BitVec 5) (a : BitVec 5) (b : BitVec 5) (st : BitVec 4)
  /-- `PREP` (R96). Writes a steer T with a relative target and starts fetching there. -/
  | prep (w : BitVec 4) (st : BitVec 4) (o : BitVec 18)
  /-- `BR` (R97). Branches to a relative target when steer C = 1. -/
  | br (w : BitVec 4) (st : BitVec 4) (o : BitVec 18)
  /-- `BR_T` (R97). Branches to the steer T when C = 1. -/
  | brT (w : BitVec 4) (st : BitVec 4)
  /-- `BRN` (R97). Branches to a relative target when steer C = 0. -/
  | brn (w : BitVec 4) (st : BitVec 4) (o : BitVec 18)
  /-- `BRN_T` (R97). Branches to the steer T when C = 0. -/
  | brnT (w : BitVec 4) (st : BitVec 4)
  /-- `J` (R98). Jumps to a relative target. -/
  | j (w : BitVec 4) (o : BitVec 18)
  /-- `J_T` (R98). Jumps to the T of a steer register. -/
  | jT (w : BitVec 4) (st : BitVec 4)
  /-- `CALL` (R102). Calls a relative target, advancing the window and spilling when eight frames are resident. -/
  | call (w : BitVec 4) (o : BitVec 18)
  /-- `CALL_T` (R102). Calls the T of a steer register. -/
  | callT (w : BitVec 4) (st : BitVec 4)
  /-- `JR` (R99). Jumps to the word index in a register. -/
  | jr (w : BitVec 4) (a : BitVec 5)
  /-- `CALLR` (R102). Calls the word index in a register. -/
  | callr (w : BitVec 4) (a : BitVec 5)
  /-- `RET` (R103). Returns from the current frame, refilling from the spill area when needed. -/
  | ret (w : BitVec 4)
  /-- `PCLR` (R126). Clears the walker's poison summary. -/
  | pclr (w : BitVec 4)
  /-- `LOOP` (R107). Starts a modulo-scheduled loop level in the walker's sequencer. -/
  | loop (w : BitVec 4) (st : BitVec 4) (a : BitVec 5) (im : BitVec 8) (g : BitVec 3)
  /-- `LBRK` (R113). Ends the inner loop level early when steer C = 1. -/
  | lbrk (w : BitVec 4) (st : BitVec 4)
  /-- `WAITS` (R115). Waits until a sample boundary has passed. -/
  | waits (w : BitVec 4)
  /-- `WAITC` (R115). Waits until RCC reaches a register value. -/
  | waitc (w : BitVec 4) (a : BitVec 5)
  /-- `WAITX` (R116). Waits until a channel watermark reaches the walker's command count less k. -/
  | waitx (w : BitVec 4) (c : BitVec 2) (k : BitVec 8)
  /-- `WSYNC` (R117). Waits until every walker of the set has arrived at this position of the walk. -/
  | wsync (w : BitVec 4) (st : BitVec 4)
  /-- `PHASE` (R118). Takes a phase boundary at a scope, holding the walkers until it completes. -/
  | phase (w : BitVec 4) (st : BitVec 4)
  /-- `BAR` (R121). Arrives at a barrier instance of a scope. -/
  | bar (w : BitVec 4) (st : BitVec 4) (im : BitVec 8)
  /-- `SENDC` (R123). Sends a register value to a unit of the cluster, arriving 12 cycles later. -/
  | sendc (w : BitVec 4) (u : BitVec 3) (a : BitVec 5)
  /-- `RECVC` (R124). Stands until a message from the named unit is matched into a register. -/
  | recvc (w : BitVec 4) (d : BitVec 5) (u : BitVec 3)
  /-- `CHECK` (R125). Transfers to a relative target when the poison summary is set. -/
  | check (w : BitVec 4) (o : BitVec 18)
  /-- `VADD` (R130). Lane-wise add. -/
  | vadd (d : BitVec 6) (a : BitVec 6) (b : BitVec 6) (k : BitVec 1) (t : BitVec 3)
  /-- `VSUB` (R130). Lane-wise subtract. -/
  | vsub (d : BitVec 6) (a : BitVec 6) (b : BitVec 6) (k : BitVec 1) (t : BitVec 3)
  /-- `VMUL` (R130). Lane-wise multiply. -/
  | vmul (d : BitVec 6) (a : BitVec 6) (b : BitVec 6) (k : BitVec 1) (t : BitVec 3)
  /-- `VFMA` (R131). Fused a × b + d, one rounding. -/
  | vfma (d : BitVec 6) (a : BitVec 6) (b : BitVec 6) (k : BitVec 1) (t : BitVec 3)
  /-- `VFMS` (R131). Fused a × b − d, one rounding. -/
  | vfms (d : BitVec 6) (a : BitVec 6) (b : BitVec 6) (k : BitVec 1) (t : BitVec 3)
  /-- `VFNMA` (R131). Fused −(a × b) + d, one rounding. -/
  | vfnma (d : BitVec 6) (a : BitVec 6) (b : BitVec 6) (k : BitVec 1) (t : BitVec 3)
  /-- `VMIN` (R133). Lane-wise minimum. -/
  | vmin (d : BitVec 6) (a : BitVec 6) (b : BitVec 6) (k : BitVec 1) (t : BitVec 3)
  /-- `VMAX` (R133). Lane-wise maximum. -/
  | vmax (d : BitVec 6) (a : BitVec 6) (b : BitVec 6) (k : BitVec 1) (t : BitVec 3)
  /-- `VABS` (R134). Lane-wise absolute value. -/
  | vabs (d : BitVec 6) (a : BitVec 6) (k : BitVec 1) (t : BitVec 3)
  /-- `VNEG` (R134). Lane-wise negation. -/
  | vneg (d : BitVec 6) (a : BitVec 6) (k : BitVec 1) (t : BitVec 3)
  /-- `VCMP_EQ` (R135). Lane-wise equal compare to all-ones or zero. -/
  | vcmpEq (d : BitVec 6) (a : BitVec 6) (b : BitVec 6) (k : BitVec 1) (t : BitVec 3)
  /-- `VCMP_NE` (R135). Lane-wise not-equal compare. -/
  | vcmpNe (d : BitVec 6) (a : BitVec 6) (b : BitVec 6) (k : BitVec 1) (t : BitVec 3)
  /-- `VCMP_LT` (R135). Lane-wise less-than compare. -/
  | vcmpLt (d : BitVec 6) (a : BitVec 6) (b : BitVec 6) (k : BitVec 1) (t : BitVec 3)
  /-- `VCMP_LE` (R135). Lane-wise less-or-equal compare. -/
  | vcmpLe (d : BitVec 6) (a : BitVec 6) (b : BitVec 6) (k : BitVec 1) (t : BitVec 3)
  /-- `VAND` (R138). Lane-wise bitwise AND. -/
  | vand (d : BitVec 6) (a : BitVec 6) (b : BitVec 6) (k : BitVec 1)
  /-- `VOR` (R138). Lane-wise bitwise OR. -/
  | vor (d : BitVec 6) (a : BitVec 6) (b : BitVec 6) (k : BitVec 1)
  /-- `VXOR` (R138). Lane-wise bitwise XOR. -/
  | vxor (d : BitVec 6) (a : BitVec 6) (b : BitVec 6) (k : BitVec 1)
  /-- `VNOT` (R138). Lane-wise bitwise NOT. -/
  | vnot (d : BitVec 6) (a : BitVec 6) (k : BitVec 1)
  /-- `VSHL` (R138). Lane-wise shift left. -/
  | vshl (d : BitVec 6) (a : BitVec 6) (b : BitVec 6) (k : BitVec 1)
  /-- `VSHR` (R138). Lane-wise logical shift right. -/
  | vshr (d : BitVec 6) (a : BitVec 6) (b : BitVec 6) (k : BitVec 1)
  /-- `VSRA` (R138). Lane-wise arithmetic shift right. -/
  | vsra (d : BitVec 6) (a : BitVec 6) (b : BitVec 6) (k : BitVec 1)
  /-- `VCVT` (R141). Converts each active lane between two formats. -/
  | vcvt (d : BitVec 6) (a : BitVec 6) (c : BitVec 6) (k : BitVec 1) (x : BitVec 1) (r : BitVec 2)
  /-- `VSEL` (R139). Selects each lane from va or vb by the top mask entry. -/
  | vsel (d : BitVec 6) (a : BitVec 6) (b : BitVec 6)
  /-- `VPERM` (R139). Permutes lanes of va by indices in vb. -/
  | vperm (d : BitVec 6) (a : BitVec 6) (b : BitVec 6) (k : BitVec 1)
  /-- `VRCPE` (R80). Reciprocal estimate from the table. -/
  | vrcpe (d : BitVec 6) (a : BitVec 6) (k : BitVec 1)
  /-- `VRSQE` (R81). Reciprocal square-root estimate from the table. -/
  | vrsqe (d : BitVec 6) (a : BitVec 6) (k : BitVec 1)
  /-- `VRCP` (R143). Correctly rounded reciprocal. -/
  | vrcp (d : BitVec 6) (a : BitVec 6) (k : BitVec 1)
  /-- `VRSQ` (R143). Correctly rounded reciprocal square root. -/
  | vrsq (d : BitVec 6) (a : BitVec 6) (k : BitVec 1)
  /-- `VSQRT` (R143). Correctly rounded square root. -/
  | vsqrt (d : BitVec 6) (a : BitVec 6) (k : BitVec 1)
  /-- `VDIV` (R143). Correctly rounded division. -/
  | vdiv (d : BitVec 6) (a : BitVec 6) (b : BitVec 6) (k : BitVec 1)
  /-- `VEXP2` (R143). Correctly rounded 2^x. -/
  | vexp2 (d : BitVec 6) (a : BitVec 6) (k : BitVec 1)
  /-- `VLOG2` (R143). Correctly rounded log2. -/
  | vlog2 (d : BitVec 6) (a : BitVec 6) (k : BitVec 1)
  /-- `VSINPI` (R143). Correctly rounded sin(πx). -/
  | vsinpi (d : BitVec 6) (a : BitVec 6) (k : BitVec 1)
  /-- `VTANH` (R143). Correctly rounded tanh. -/
  | vtanh (d : BitVec 6) (a : BitVec 6) (k : BitVec 1)
  /-- `VBCAST` (R139). Broadcasts a scalar register into active lanes. -/
  | vbcast (d : BitVec 6) (a : BitVec 5) (k : BitVec 1)
  /-- `VRED_ADD` (R144). Sums active lanes over the fixed tree into every lane. -/
  | vredAdd (d : BitVec 6) (a : BitVec 6) (k : BitVec 1) (t : BitVec 3)
  /-- `VRED_MAX` (R144). Maximum of active lanes over the fixed tree. -/
  | vredMax (d : BitVec 6) (a : BitVec 6) (k : BitVec 1) (t : BitVec 3)
  /-- `VMOV` (R139). Copies lanes unchanged. -/
  | vmov (d : BitVec 6) (a : BitVec 6) (k : BitVec 1)
  /-- `VMOVX_IN` (R140). Pops a queue entry from sw into active lanes. -/
  | vmovxIn (d : BitVec 6) (k : BitVec 1)
  /-- `VMOVX_OUT` (R140). Pushes the lowest active lane onto the queue to sw. -/
  | vmovxOut (a : BitVec 6) (k : BitVec 1)
  /-- `VQL8` (R150). Quantises 32 groups of eight lanes to L8 codes. -/
  | vql8 (d : BitVec 6) (a : BitVec 6) (b : BitVec 6) (k : BitVec 1)
  /-- `VDL8` (R151). Decodes L8 codes with scales into lanes. -/
  | vdl8 (d : BitVec 6) (a : BitVec 6) (b : BitVec 6) (k : BitVec 1)
  /-- `VLD` (R145). Loads lanes from the unit store by the addressing kind. -/
  | vld (d : BitVec 6) (a : BitVec 5) (b : BitVec 6) (k : BitVec 1) (t : BitVec 3)
  /-- `VST` (R145). Stores lanes to the unit store by the addressing kind. -/
  | vst (d : BitVec 6) (a : BitVec 5) (b : BitVec 6) (k : BitVec 1) (t : BitVec 3)
  /-- `VLDK` (R148). Loads consecutive words into constant-bank entries. -/
  | vldk (d : BitVec 6) (a : BitVec 5) (c : BitVec 6)
  /-- `VFMAK` (R131). Fused d × a + constant entry. -/
  | vfmak (d : BitVec 6) (a : BitVec 6) (n : BitVec 6) (k : BitVec 1)
  /-- `VFMAL` (R132). One or two fused steps with constants from trailing literal words. -/
  | vfmal (d : BitVec 6) (a : BitVec 6) (two : BitVec 1) (k : BitVec 1) (l0 : BitVec 32) (l1 : BitVec 32)
  /-- `VPUSH` (R136). Pushes a mask entry ANDed with the old top. -/
  | vpush (a : BitVec 6)
  /-- `VSKIP` (R137). Skips forward when the top mask entry is all zero. -/
  | vskip (o : BitVec 18)
  /-- `VMOVI` (R149). Writes a truncated FP32 immediate to active lanes. -/
  | vmovi (d : BitVec 6) (im : BitVec 20)
  /-- `VADDI` (R149). Adds a truncated FP32 immediate. -/
  | vaddi (d : BitVec 6) (im : BitVec 20)
  /-- `VMULI` (R149). Multiplies by a truncated FP32 immediate. -/
  | vmuli (d : BitVec 6) (im : BitVec 20)
  /-- `VMAXI` (R149). Maximum with a truncated FP32 immediate. -/
  | vmaxi (d : BitVec 6) (im : BitVec 20)
  /-- `MSET_FMT` (R156). Writes FMT of the shadow configuration set. -/
  | msetFmt (g : BitVec 2) (b : BitVec 4) (a : BitVec 4)
  /-- `MSET_SHAPE` (R156). Writes SHAPE of the shadow set. -/
  | msetShape (n : BitVec 6) (m : BitVec 6)
  /-- `MSET_SCALE` (R156). Writes SCALE of the shadow set from a register. -/
  | msetScale (a : BitVec 5)
  /-- `MSET_ZP` (R156). Writes ZP of the shadow set from a register. -/
  | msetZp (a : BitVec 5)
  /-- `MSET_SPARSE` (R156). Writes SPARSE of the shadow set. -/
  | msetSparse (st : BitVec 1)
  /-- `MMA` (R159). Latches the shadow set and runs n dense k-steps into a window. -/
  | mma (c : BitVec 4) (n : BitVec 12) (q : BitVec 1) (l : BitVec 1) (st : BitVec 4)
  /-- `MMA_S` (R161). Multiply with 16-of-32 sparse A. -/
  | mmaS (c : BitVec 4) (n : BitVec 12) (q : BitVec 1) (l : BitVec 1) (st : BitVec 4)
  /-- `MMA_Q` (R162). Multiply of grouped integer operands. -/
  | mmaQ (c : BitVec 4) (n : BitVec 12) (q : BitVec 1) (l : BitVec 1) (st : BitVec 4)
  /-- `MMA_L8` (R163). Multiply with L8 B decoded through the coset port. -/
  | mmaL8 (c : BitVec 4) (n : BitVec 12) (q : BitVec 1) (l : BitVec 1) (st : BitVec 4)
  /-- `MMA_PAIR` (R164). Cluster-pair multiply summing both partners' terms. -/
  | mmaPair (c : BitVec 4) (n : BitVec 12) (q : BitVec 1) (l : BitVec 1) (st : BitVec 4)
  /-- `MCLR` (R166). Clears an accumulator window. -/
  | mclr (c : BitVec 4)
  /-- `MACC_LD` (R166). Loads a window from the unit store row by row. -/
  | maccLd (c : BitVec 4) (a : BitVec 5)
  /-- `MACC_ST` (R166). Stores a window to the unit store row by row. -/
  | maccSt (c : BitVec 4) (a : BitVec 5)
  /-- `MACC_CVT` (R167). Converts a window with a scale into 16 vector registers. -/
  | maccCvt (c : BitVec 4) (a : BitVec 5) (v : BitVec 6) (t : BitVec 4) (st : BitVec 1) (r : BitVec 2)
  /-- `MPROG` (R169). Reads MPC into a register. -/
  | mprog (d : BitVec 5)
  /-- `CMOV` (R187). Moves a two-dimensional block between any levels. -/
  | cmov (h : BitVec 2) (d : BitVec 5) (a : BitVec 5) (b : BitVec 5) (q : BitVec 1) (l : BitVec 1) (st : BitVec 4)
  /-- `CFILL_A` (R189). Fills ska entries from a source. -/
  | cfillA (h : BitVec 2) (f : BitVec 1) (a : BitVec 5) (b : BitVec 5) (q : BitVec 1) (l : BitVec 1) (st : BitVec 4)
  /-- `CFILL_B` (R189). Fills skb entries from a source. -/
  | cfillB (h : BitVec 2) (f : BitVec 1) (a : BitVec 5) (b : BitVec 5) (q : BitVec 1) (l : BitVec 1) (st : BitVec 4)
  /-- `CBFX` (R191). Sets a channel's bit-field extraction pattern. -/
  | cbfx (h : BitVec 2) (a : BitVec 5)
  /-- `CGAT` (R193). Gathers elements by an index list. -/
  | cgat (h : BitVec 2) (d : BitVec 5) (a : BitVec 5) (b : BitVec 5) (q : BitVec 1) (l : BitVec 1) (st : BitVec 4)
  /-- `CSCT` (R193). Scatters elements by an index list. -/
  | csct (h : BitVec 2) (d : BitVec 5) (a : BitVec 5) (b : BitVec 5) (q : BitVec 1) (l : BitVec 1) (st : BitVec 4)
  /-- `CATOM_ADD` (R194). Memory-side 64-bit atomic add returning the old value. -/
  | catomAdd (h : BitVec 2) (d : BitVec 5) (a : BitVec 5) (b : BitVec 5) (q : BitVec 1) (l : BitVec 1) (st : BitVec 4)
  /-- `CATOM_MIN` (R194). Memory-side signed atomic minimum. -/
  | catomMin (h : BitVec 2) (d : BitVec 5) (a : BitVec 5) (b : BitVec 5) (q : BitVec 1) (l : BitVec 1) (st : BitVec 4)
  /-- `CATOM_MAX` (R194). Memory-side signed atomic maximum. -/
  | catomMax (h : BitVec 2) (d : BitVec 5) (a : BitVec 5) (b : BitVec 5) (q : BitVec 1) (l : BitVec 1) (st : BitVec 4)
  /-- `CATOM_XCHG` (R194). Memory-side atomic exchange. -/
  | catomXchg (h : BitVec 2) (d : BitVec 5) (a : BitVec 5) (b : BitVec 5) (q : BitVec 1) (l : BitVec 1) (st : BitVec 4)
  /-- `CATOM_CAS` (R194). Memory-side atomic compare and swap. -/
  | catomCas (h : BitVec 2) (d : BitVec 5) (a : BitVec 5) (b : BitVec 5) (q : BitVec 1) (l : BitVec 1) (st : BitVec 4)
  /-- `CATOM_FADD` (R194). Memory-side 32-bit floating-point atomic add. -/
  | catomFadd (h : BitVec 2) (d : BitVec 5) (a : BitVec 5) (b : BitVec 5) (q : BitVec 1) (l : BitVec 1) (st : BitVec 4)
  /-- `CINV` (R196). Removes overlapping entries from the unit's translation cache. -/
  | cinv (a : BitVec 5) (b : BitVec 5)
  /-- `CMARK` (R197). Takes a transfer ID and traces a value when earlier commands complete. -/
  | cmark (h : BitVec 2) (a : BitVec 5)
  /-- `CXRD` (R199). Delivers the next output sample of a crossing with a status beat. -/
  | cxrd (h : BitVec 2) (d : BitVec 5) (x : BitVec 4)
  /-- `CXWR` (R198). Appends one producer sample to a crossing. -/
  | cxwr (h : BitVec 2) (d : BitVec 5) (x : BitVec 4)
  /-- `TRAP` (R208). Transfers to the trap handler or stops the unit with TRAP. -/
  | trap (c : BitVec 13)
  /-- `CSRR` (R206). Reads a system register into a register. -/
  | csrr (d : BitVec 5) (r : BitVec 13)
  /-- `CSRW` (R206). Writes a register value into a system register. -/
  | csrw (a : BitVec 5) (r : BitVec 13)
  /-- `CLKDIV` (R210). Sets the issue-cycle divisor of an engine walker. -/
  | clkdiv (e : BitVec 2) (v : BitVec 4)
  /-- `HINT` (R211). Names the program phase for boost decisions. -/
  | hint (k : BitVec 2)
  /-- `BKPT` (R212). Stops the unit with BKPT. -/
  | bkpt (c : BitVec 13)
  /-- `TRIG` (R213). Arms a debug trigger from a descriptor. -/
  | trig (a : BitVec 5) (n : BitVec 4)
  /-- `CTXS` (R220). Freezes the unit and saves its context record. -/
  | ctxs (a : BitVec 5)
  /-- `CTXL` (R221). Freezes the unit and loads a context record. -/
  | ctxl (a : BitVec 5)
  /-- `RESULT_LAND` (R24). An in-flight result reaches its landing cycle and is written to its destination. -/
  | resultLand (u : Nat)
  /-- `LOOP_PASS_START` (R109). The sequencer begins a pass, writes the pass number and serves a pending drain. -/
  | loopPassStart (u : Nat) (wk : Nat)
  /-- `PHASE_COMPLETE` (R118). A phase boundary completes after its covered writes and Lsc. -/
  | phaseComplete (u : Nat) (wk : Nat)
  /-- `BARRIER_COMPLETE` (R122). A barrier instance completes at Tb. -/
  | barrierComplete (b : Nat)
  /-- `BARRIER_RELEASE` (R122). A participant is released at Tb + BAROFF. -/
  | barrierRelease (u : Nat)
  /-- `MESSAGE_ARRIVAL` (R124). A cluster message arrives and is matched to a standing recvc or raises TIMING. -/
  | messageArrival (u : Nat)
  /-- `K_STEP_START` (R159). A k-step starts once its skein entries are available and consumes them. -/
  | kStepStart (u : Nat)
  /-- `K_STEP_END` (R159). A k-step ends and MPC advances. -/
  | kStepEnd (u : Nat)
  /-- `K_STEP_LAND` (R159). A k-step's sums are added into the window. -/
  | kStepLand (u : Nat)
  /-- `TRANSLATION_STEP` (R182). The translation step of an off-core command ends and faults or releases its beats. -/
  | translationStep (u : Nat) (ch : Nat)
  /-- `TABLE_WALK_COMPLETE` (R242). A table reader walk ends and fills a translation-cache entry. -/
  | tableWalkComplete (c : Nat)
  /-- `COPY_BEAT_ISSUE` (R179). A channel issues the beats of its oldest command that fit the path budgets. -/
  | copyBeatIssue (u : Nat) (ch : Nat)
  /-- `COPY_READ_DATA_READY` (R180). A beat's read data becomes ready. -/
  | copyReadDataReady (u : Nat)
  /-- `COPY_WRITE_PERFORM` (R180). A beat's write is performed at its destination. -/
  | copyWritePerform (u : Nat)
  /-- `OFFCORE_WRITE_COMPLETE` (R180). An off-core write beat completes at D + Lo. -/
  | offcoreWriteComplete (u : Nat)
  /-- `ATOMIC_PERFORM` (R195). An atomic is performed at the location's atomic unit. -/
  | atomicPerform (u : Nat)
  /-- `ATOMIC_RESULT_LAND` (R195). An atomic's old value lands in its register. -/
  | atomicResultLand (u : Nat)
  /-- `COPY_COMMAND_COMPLETE` (R184). A command reaches its completion cycle and the watermark may rise. -/
  | copyCommandComplete (u : Nat)
  /-- `CROSSING_SAMPLE_ENTER` (R198). A producer sample enters the crossing history in order. -/
  | crossingSampleEnter (d : Nat) (x : Nat)
  /-- `LATE_DATA_POISON` (R27). At the promised cycle of unarrived data the destination is poisoned or the write suppressed. -/
  | lateDataPoison (u : Nat)
  /-- `LATE_DATA_ARRIVAL` (R27). Late data arrives, is discarded and counted in LATE. -/
  | lateDataArrival (u : Nat)
  /-- `RESIDENT_REWALK` (R243). A removed resident entry is walked again and becomes ready after Tw. -/
  | residentRewalk (u : Nat)
  /-- `CTXS_COMPLETE` (R220). Block 0 of a software save completes and the unit restarts. -/
  | ctxsComplete (u : Nat)
  /-- `CTXL_COMPLETE` (R221). The last block of a load is ready; state is replaced and the unit restarts. -/
  | ctxlComplete (u : Nat)
  /-- `BIND_OFF` (R217). The halt release completes and the unit binds off, releasing its crossings. -/
  | bindOff (u : Nat)
  /-- `COMPOSITE_RECORD_WRITE` (R277). After engine results are made the unit writes its composite record and applies its fault policy. -/
  | compositeRecordWrite (u : Nat)
  /-- `ACTION_RESUME` (R280). A write of ACTION 1 resumes a stopped unit. -/
  | actionResume (u : Nat)
  /-- `ACTION_ABORT` (R280). A write of ACTION 2 discards pending work and binds the unit off. -/
  | actionAbort (u : Nat)
  /-- `PREEMPTION_REQUEST` (R284). A pre-emption request reaches every unit of a kernel and stays pending. -/
  | preemptionRequest (k : Nat)
  /-- `PREEMPTION_STOP` (R284). The unit stops at its pre-emption point after its walkers drain. -/
  | preemptionStop (u : Nat)
  /-- `PREEMPTION_SAVE` (R286). A KIND 1 context is written to the alternate save area and commits with block 0. -/
  | preemptionSave (u : Nat)
  /-- `CONTEXT_RESTORE` (R285). A pre-empted kernel resumes from its newest committed records. -/
  | contextRestore (k : Nat)
  /-- `HALT_WAVE_ARRIVAL` (R289). The halt wave halts a region at the end of its first cycle past T0 + B_R. -/
  | haltWaveArrival (r : Nat)
  /-- `RESUME_AT_TR` (R295). At TR every region restarts, advancing RSC of live regions. -/
  | resumeAtTr (j : Nat)
  /-- `TRIGGER_WINDOW_OPEN` (R214). A trigger window opens when START holds, stopping the unit under ACT 1. -/
  | triggerWindowOpen (u : Nat) (n : Nat)
  /-- `TRIGGER_WINDOW_CLOSE` (R214). A trigger window closes when STOP holds and writes its trace record. -/
  | triggerWindowClose (u : Nat) (n : Nat)
  /-- `WATCH_REPORT` (R298). A memory-side watch report arrives and opens the window at the armed unit. -/
  | watchReport (u : Nat) (n : Nat)
  /-- `ARM` (R253). A write of 1 to the arm word checks the RCB tree and starts every region in ACQUIRE or refuses. -/
  | arm (j : Nat)
  /-- `JOB_RETIRE` (R253). When every pattern has ended the job releases at job scope and writes 3 to the arm word. -/
  | jobRetire (j : Nat)
  /-- `WATCHED_WORD_WRITE` (R262). A write to a watched word makes the scheduler re-read it and re-evaluate its node. -/
  | watchedWordWrite (d : Nat) (a : Nat)
  /-- `KERNEL_CAST_ON` (R264). A ready KERNEL node is granted units, enters ranges, loads text and arms its crossings. -/
  | kernelCastOn (k : Nat)
  /-- `KERNEL_START` (R264). Every unit of a cast-on issues word 0 at the first sample boundary after loading. -/
  | kernelStart (k : Nat)
  /-- `NODE_RETIRE` (R264). A KERNEL node retires after its last bind-off and makes its successors ready. -/
  | nodeRetire (k : Nat)
  /-- `COND` (R263). A COND node chooses a successor by its word. -/
  | cond (n : Nat)
  /-- `LOOP_NODE` (R263). A LOOP node counts iterations and chooses a successor. -/
  | loopNode (n : Nat)
  /-- `SWITCH` (R263). A SWITCH node chooses a successor from its table. -/
  | switch (n : Nat)
  /-- `JOIN` (R263). A JOIN node counts an arrival and releases successors at JCOUNT. -/
  | join (n : Nat)
  /-- `WATCH_NODE` (R263). A WATCH node waits until its word differs from VALUE. -/
  | watchNode (n : Nat)
  /-- `SOURCE_SAMPLE` (R257). A source sample arrives and is judged on time and good. -/
  | sourceSample (k : Nat) (n : Nat)
  /-- `SAMPLE_MISSED` (R257). Half a period passes without the expected sample. -/
  | sampleMissed (r : Nat)
  /-- `GAUGE_LOCK` (R257). After 64 on-time samples the region locks or is refused. -/
  | gaugeLock (r : Nat)
  /-- `GAUGE_CLAMP` (R257). After 1,024 drifting samples the clock is clamped. -/
  | gaugeClamp (r : Nat)
  /-- `GAUGE_UNCLAMP` (R257). After 1,024 good-rate samples the region returns to LOCKED and slews. -/
  | gaugeUnclamp (r : Nat)
  /-- `HOLDOVER_ENTRY` (R257). MISS consecutive missed samples put the region in holdover. -/
  | holdoverEntry (r : Nat)
  /-- `HOLDOVER_RELOCK` (R257). Eight good samples in holdover return the region to LOCKED. -/
  | holdoverRelock (r : Nat)
  /-- `SAMPLE_BOUNDARY` (R23). RCC reaches a multiple of P and RSC advances by Q. -/
  | sampleBoundary (r : Nat)
  /-- `HOLDOVER_EXPIRY` (R258). HOLD samples of holdover pass and a freeze request reaches every walker. -/
  | holdoverExpiry (r : Nat)
  /-- `REGION_FREEZE` (R258). The cycle after the last unit stops, the region freezes. -/
  | regionFreeze (r : Nat)
  /-- `THAW` (R259). The region thaws at an aligned source sample and RSC may jump. -/
  | thaw (r : Nat)
  /-- `WATCHDOG` (R269). WDOG boundaries without waits fire the watchdog and freeze the region. -/
  | watchdog (u : Nat)
  /-- `SHED_SAVE` (R271). When the shed region is frozen its units are saved as KIND 1 and released. -/
  | shedSave (r : Nat)
  /-- `SHED_CLEAR` (R271). Writing 0 to SHED requests re-admission. -/
  | shedClear (r : Nat)
  /-- `REGION_READMIT` (R271). A shed region is re-admitted when its reservation can be met. -/
  | regionReadmit (r : Nat)
  /-- `REGION_CYCLE` (R23). The region clock advances one region cycle: RCC increments, walkers pass words, and the head counters count the cycle's class. -/
  | regionCycle (r : Nat)
  /-- `COMPOSITE_RECORD_COMPLETE` (R277). Block 0 of the composite record completes, the record is complete and its ACTION word becomes a watched word. -/
  | compositeRecordComplete (u : Nat)
  /-- `VINV` (R136). Inverts the top mask entry within its parent. -/
  | vinv
  /-- `VPOP` (R136). Pops the top mask entry. -/
  | vpop
  /-- `MWAIT` (R170). Waits until every earlier matrix word has landed and every release completed. -/
  | mwait
  /-- `ERET` (R209). Returns from the trap handler to EPC. -/
  | eret
  /-- `YIELD` (R215). Offers a pre-emption stop point. -/
  | yield
  /-- `HALT` (R217). Waits for quiescence and releases at pattern scope before bind-off. -/
  | halt
  /-- `JOB_STEP` (R294). A step command runs the focus region for one region cycle. -/
  | jobStep (j : Nat)
  /-- `JOB_RESUME` (R295). A resume command names TR, or is refused when TR is too early. -/
  | jobResume (j : Nat)
  /-- `POWER_CONTROL_INTERVAL` (R270). The package controller adjusts synthetic generators or sheds a region. -/
  | powerControlInterval (ma : Nat) (mc : Nat) (mw : Nat)
  /-- `CAP_LEASE_EXPIRY` (R273). A cap lease expires and the floor cap applies. -/
  | capLeaseExpiry
  /-- `CAPMSG` (R273). A rack cap message is accepted or ignored by its SEQ. -/
  | capmsg (q : BitVec 32) (p : BitVec 32) (l : BitVec 32)
  /-- `PATROL_SCRUB_ERROR` (R237). Patrol scrub finds an uncorrectable error and logs it. -/
  | patrolScrubError (d : Nat) (a : Nat)
  /-- `JREG_REGISTER` (R309). A nonzero write to JREG starts registration of a job. -/
  | jregRegister (f : Nat) (j : Nat) (v : BitVec 64)
  /-- `JOB_REGISTRATION` (R309). Within 10 µs the root RCB is read and JSLOT becomes 1 or 2. -/
  | jobRegistration (f : Nat) (j : Nat)
  /-- `JREG_FREE` (R309). A write of 0 to JREG frees the slot when allowed. -/
  | jregFree (f : Nat) (j : Nat)
  /-- `ILEN` (R310). A write to ILEN starts a host invalidation of a range. -/
  | ilen (f : Nat) (v : BitVec 64)
  /-- `INVALIDATION_DONE` (R310). The invalidation ends and DONE is set. -/
  | invalidationDone (f : Nat)
  /-- `PTROOT` (R307). A write to PTROOT sets the partition's page-table root when allowed. -/
  | ptroot (f : Nat) (v : BitVec 64)
  /-- `CHECKPOINT_SAVE` (R321). CKCMD 1 saves all device memory to the host buffer or is refused. -/
  | checkpointSave
  /-- `CHECKPOINT_RESTORE` (R321). CKCMD 2 restores all device memory or is refused. -/
  | checkpointRestore
  /-- `CHECKPOINT_DONE` (R321). A checkpoint transfer ends and DONE is set. -/
  | checkpointDone
  /-- `REGISTER_WRITE` (R308). A host write to a register without behaviour of its own. -/
  | registerWrite (q : Tlp) (o : Nat) (v : BitVec 64)
  /-- `BAR2_WRITE` (R304). A BAR 2 write is translated and performed or dropped. -/
  | bar2Write (q : Tlp) (a : Nat) (bs : List Byte)
  /-- `BAR2_READ` (R304). A BAR 2 read is translated and completed or aborted. -/
  | bar2Read (q : ReadTlp) (a : Nat) (n : Nat)
  /-- `TDI_EXIT` (R305). The TDI leaves RUN or CONFIG_LOCKED, ending the partition's jobs and zeroing its key. -/
  | tdiExit (f : Nat)
  /-- `SAMPLES_FRAME` (R313). A TYPE 0 frame is checked and its samples written to ring slots. -/
  | samplesFrame (p : Nat) (fr : Frame)
  /-- `KEEP_ALIVE_RX` (R314). A TYPE 1 frame arrives and keeps LINK set. -/
  | keepAliveRx (p : Nat) (fr : Frame)
  /-- `CREDIT_RX` (R313). A TYPE 2 credit frame is received. -/
  | creditRx (p : Nat) (fr : Frame)
  /-- `END_OF_STREAM_RX` (R313). A TYPE 3 end-of-stream frame is received. -/
  | endOfStreamRx (p : Nat) (fr : Frame)
  /-- `KEEP_ALIVE_TX` (R314). Every 10 ms the port sends a keep-alive frame. -/
  | keepAliveTx (f : Nat) (k : Nat)
  /-- `CREDIT_TX` (R314). Every 1 ms the port sends a credit frame. -/
  | creditTx (f : Nat) (k : Nat)
  /-- `LINK_TIMEOUT` (R314). LINK clears after 50 ms without a keep-alive. -/
  | linkTimeout (f : Nat) (k : Nat)
  /-- `TRANSMIT` (R314). At sample s + TXDELAY the port sends a transmit-ring slot. -/
  | transmit (f : Nat) (k : Nat) (n : SampleTime)
  /-- `PTP_MESSAGE` (R314). An IEEE 1588 message disciplines the reference timebase. -/
  | ptpMessage (g : Int)
  /-- `HOST_CADENCE_SAMPLE` (R314). A host cadence produces sample n at its computed instant. -/
  | hostCadenceSample (f : Nat) (k : Nat) (n : Nat)
  /-- `LINK_TRAINING` (R315). A Selvedge port trains at 8 or 4 lanes and sets up its session. -/
  | linkTraining (p : Nat) (n : Nat)
  /-- `READ_REQUEST` (R316). A read request flit is received. -/
  | readRequest (p : Nat) (fl : Flit)
  /-- `WRITE` (R316). A write flit is received. -/
  | write (p : Nat) (fl : Flit)
  /-- `ATOMIC` (R316). An atomic flit is received. -/
  | atomic (p : Nat) (fl : Flit)
  /-- `READ_RESPONSE` (R316). A read response flit is received. -/
  | readResponse (p : Nat) (fl : Flit)
  /-- `ATOMIC_RESPONSE` (R316). An atomic response flit is received. -/
  | atomicResponse (p : Nat) (fl : Flit)
  /-- `GAUGE` (R318). A gauge flit delivers a distributed sample, or counts as missed when late. -/
  | gauge (p : Nat) (fl : Flit)
  /-- `HALT_WAVE` (R289). A halt-wave flit carries a halt to another package. -/
  | haltWave (p : Nat) (fl : Flit)
  /-- `RESUME` (R295). A resume flit carries a resume time to another package. -/
  | resume (p : Nat) (fl : Flit)
  /-- `STEP` (R294). A step flit carries a single-step to another package. -/
  | step (p : Nat) (fl : Flit)
  /-- `WATCH_REPORT_FLIT` (R298). A watch report flit carries a memory-side match to the armed package. -/
  | watchReportFlit (p : Nat) (fl : Flit)
  /-- `TIME` (R318). A time flit disciplines the reference timebase. -/
  | time (p : Nat) (fl : Flit)
  /-- `FLIT_FAILURE` (R317). A flit failing FEC or tag is discarded and replayed. -/
  | flitFailure (p : Nat)
  /-- `PORT_DOWN` (R317). After 16 consecutive failures the port goes down and routes are recomputed. -/
  | portDown (p : Nat)
  /-- `KEY_UPDATE` (R320). SPDM KEY_UPDATE renews a session's keys. -/
  | keyUpdate (e : KeySession)
  /-- `BOOT` (R319). Boot verifies and loads loader, firmware, tables and configuration. -/
  | boot (im : BootImage)
  /-- `GET_VERSION` (R320). SPDM GET_VERSION request. -/
  | getVersion (f : Nat)
  /-- `GET_CAPABILITIES` (R320). SPDM GET_CAPABILITIES request. -/
  | getCapabilities (f : Nat)
  /-- `NEGOTIATE_ALGORITHMS` (R320). SPDM NEGOTIATE_ALGORITHMS request. -/
  | negotiateAlgorithms (f : Nat) (al : Nat)
  /-- `GET_DIGESTS` (R320). SPDM GET_DIGESTS request. -/
  | getDigests (f : Nat)
  /-- `GET_CERTIFICATE` (R320). SPDM GET_CERTIFICATE request. -/
  | getCertificate (f : Nat) (sl : Nat)
  /-- `CHALLENGE` (R320). SPDM CHALLENGE request. -/
  | challenge (f : Nat) (no : BitVec 256)
  /-- `GET_MEASUREMENTS` (R320). SPDM GET_MEASUREMENTS request returning measurements 1–5. -/
  | getMeasurements (f : Nat) (ix : Nat)
  /-- `KEY_EXCHANGE` (R320). SPDM KEY_EXCHANGE request. -/
  | keyExchange (f : Nat) (sid : Nat) (psk : Bool)
  /-- `FINISH` (R320). SPDM FINISH request. -/
  | finish (f : Nat) (sid : Nat)
  /-- `END_SESSION` (R320). SPDM END_SESSION request. -/
  | endSession (f : Nat) (sid : Nat)
  /-- `SET_KEY` (R305). Places a partition's key in its key slots while the TDI is CONFIG_LOCKED. -/
  | setKey (f : Nat) (part : Nat) (key : BitVec 512)
  /-- `TDISP_MESSAGE` (R305). A TDISP request assigns a VF to a confidential virtual machine, moving its TDI into CONFIG_LOCKED or RUN. -/
  | tdispMessage (f : Nat) (rq : TdispRequest)
  deriving DecidableEq, Repr

end Sys2Proof
end

