-- ==== Sys2Proof/WellFormed.lean ====
section
/-! DEFINITION. The limits that R39, R44-R53, R106, R152, R174, R202 and R225 set on the fields of a word beyond its opcode, and on the
names of an event. A word that breaks one raises `ILLEGAL` in the walker that executes it (R55). What depends on the walker (its own
port, R12), on the shadow set (R158) or on the mask stack (R136) is checked where the word issues. -/

namespace Sys2Proof

/-- A 5-bit steer destination: `st0`-`st11` (R39). -/
def steerDst (d : BitVec 5) : Bool := decide (d.toNat < 12)
/-- A 5-bit steer source: `st0`-`st11`, or `sp0`-`sp7` as 16-23 (R39). -/
def steerSrc (a : BitVec 5) : Bool := decide (a.toNat < 12) || (decide (16 ≤ a.toNat) && decide (a.toNat < 24))
/-- A 4-bit steer field: `st0`-`st11` (R39). -/
def steer4 (s : BitVec 4) : Bool := decide (s.toNat < 12)
/-- The trip-count register of `loop`: `x1`-`x11` or `x16`-`x31` (R106). -/
def loopReg (a : BitVec 5) : Bool := decide (1 ≤ a.toNat) && (decide (a.toNat < 12) || decide (16 ≤ a.toNat))
/-- A scope: 12-15 are reserved (R30). -/
def scopeOk (s : BitVec 4) : Bool := decide (s.toNat < 12)
/-- The ordering fields: a scope of 0-11, and 0 where neither acq nor rel is set (R48). -/
def ordering (q l : BitVec 1) (s : BitVec 4) : Bool := scopeOk s && (s == 0 || q == 1 || l == 1)
/-- A vector type selector `.f32`, `.s32` or `.u32` (R47, R129). -/
def vtype (t : BitVec 3) : Bool := decide (t.toNat < 3)
/-- A `vcvt` code: source and destination differ, and `.sat` stands only with an E4M3 or E5M2 destination (R141). -/
def vcvtOk (c : BitVec 6) (x : BitVec 1) : Bool :=
  c.extractLsb' 3 3 != c.extractLsb' 0 3 && (x == 0 || c.extractLsb' 0 3 == 3 || c.extractLsb' 0 3 == 4)
/-- A `vld` or `vst` kind and its vb field (R145, R152). -/
def vkind (t : BitVec 3) (b : BitVec 6) : Bool :=
  decide (t.toNat < 6) && (if t == 1 then decide (b.toNat < 32) else t == 2 || b == 0)
/-- A format code whose element carries a group scale: INT8 grouped, INT4 grouped or L8 (R60). -/
def grouped (f : Nat) : Bool := f == 9 || f == 10 || f == 11
/-- The format pairs that some multiply form accepts (R158). -/
def fmtPair (a b : Nat) : Bool :=
  ((a == 4 || a == 5) && (b == 4 || b == 5 || b == 11)) ||
    (a == b && (a == 2 || a == 3 || a == 6 || a == 7 || a == 9 || a == 10))
/-- The system-register addresses that R203 and R204 list; 0x400-0x4FF are the counters (R302). -/
def csrListed (r : Nat) : Bool :=
  decide (r < 0x40 ∧ (r % 16 < 10 ∨ r = 10 ∨ r = 11)) || decide (0x100 ≤ r ∧ r ≤ 0x111) || decide (0x120 ≤ r ∧ r < 0x130) ||
    decide (0x200 ≤ r ∧ r < 0x204) || decide (0x300 ≤ r ∧ r < 0x310) || decide (0x400 ≤ r ∧ r < 0x500)

/-- An instruction keeps the limits of its fields; an event names things that exist. -/
def wellFormed : Instr → Bool
  | .nop _ => true
  | .add _ _ _ _ => true
  | .sub _ _ _ _ => true
  | .and _ _ _ _ => true
  | .or _ _ _ _ => true
  | .xor _ _ _ _ => true
  | .andn _ _ _ _ => true
  | .orn _ _ _ _ => true
  | .sll _ _ _ _ => true
  | .srl _ _ _ _ => true
  | .sra _ _ _ _ => true
  | .rol _ _ _ _ => true
  | .mul _ _ _ _ => true
  | .mulh _ _ _ _ => true
  | .mulhu _ _ _ _ => true
  | .divu _ _ _ _ => true
  | .remu _ _ _ _ => true
  | .min _ _ _ _ => true
  | .max _ _ _ _ => true
  | .minu _ _ _ _ => true
  | .maxu _ _ _ _ => true
  | .clz _ _ _ => true
  | .popc _ _ _ => true
  | .addi _ _ _ _ => true
  | .andi _ _ _ _ => true
  | .ori _ _ _ _ => true
  | .xori _ _ _ _ => true
  | .slli _ _ _ _ => true
  | .srli _ _ _ _ => true
  | .srai _ _ _ _ => true
  | .li _ _ _ => true
  | .lui _ _ _ => true
  | .liLit _ _ two _ l1 => two != 0 || l1 == 0
  | .ldB _ _ _ _ => true
  | .ldBu _ _ _ _ => true
  | .ldH _ _ _ _ => true
  | .ldHu _ _ _ _ => true
  | .ldW _ _ _ _ => true
  | .ldWu _ _ _ _ => true
  | .ldD _ _ _ _ => true
  | .stB _ _ _ _ => true
  | .stH _ _ _ _ => true
  | .stW _ _ _ _ => true
  | .stD _ _ _ _ => true
  | .cmpEq _ d _ _ => steerDst d
  | .cmpNe _ d _ _ => steerDst d
  | .cmpLt _ d _ _ => steerDst d
  | .cmpGe _ d _ _ => steerDst d
  | .cmpLtu _ d _ _ => steerDst d
  | .cmpGeu _ d _ _ => steerDst d
  | .cmpiEq _ d _ _ => steerDst d
  | .cmpiNe _ d _ _ => steerDst d
  | .cmpiLt _ d _ _ => steerDst d
  | .cmpiGe _ d _ _ => steerDst d
  | .cmpiLtu _ d _ _ => steerDst d
  | .cmpiGeu _ d _ _ => steerDst d
  | .stAnd _ d a b => steerDst d && steerSrc a && steerSrc b
  | .stOr _ d a b => steerDst d && steerSrc a && steerSrc b
  | .stNot _ d a => steerDst d && steerSrc a
  | .mvst _ d _ => steerDst d
  | .mvfst _ _ a => steerSrc a
  | .sel _ _ _ _ st => steer4 st
  | .prep _ st _ => steer4 st
  | .br _ st o => steer4 st && o != 0
  | .brT _ st => steer4 st
  | .brn _ st o => steer4 st && o != 0
  | .brnT _ st => steer4 st
  | .j _ o => o != 0
  | .jT _ st => steer4 st
  | .call _ o => o != 0
  | .callT _ st => steer4 st
  | .jr _ _ => true
  | .callr _ _ => true
  | .ret _ => true
  | .pclr _ => true
  | .loop _ st a im _ => steer4 st && loopReg a && im != 0
  | .lbrk _ st => steer4 st
  | .waits _ => true
  | .waitc _ _ => true
  | .waitx _ _ _ => true
  | .wsync _ st => st != 0
  | .phase _ st => scopeOk st
  | .bar _ st _ => scopeOk st && st != 0
  | .sendc _ _ _ => true
  | .recvc _ _ _ => true
  | .check _ o => o != 0
  | .vadd _ _ _ _ t => vtype t
  | .vsub _ _ _ _ t => vtype t
  | .vmul _ _ _ _ t => vtype t
  | .vfma _ _ _ _ t => vtype t
  | .vfms _ _ _ _ t => vtype t
  | .vfnma _ _ _ _ t => vtype t
  | .vmin _ _ _ _ t => vtype t
  | .vmax _ _ _ _ t => vtype t
  | .vabs _ _ _ t => decide (t.toNat < 2)
  | .vneg _ _ _ t => decide (t.toNat < 2)
  | .vcmpEq _ _ _ _ t => vtype t
  | .vcmpNe _ _ _ _ t => vtype t
  | .vcmpLt _ _ _ _ t => vtype t
  | .vcmpLe _ _ _ _ t => vtype t
  | .vand _ _ _ _ => true
  | .vor _ _ _ _ => true
  | .vxor _ _ _ _ => true
  | .vnot _ _ _ => true
  | .vshl _ _ _ _ => true
  | .vshr _ _ _ _ => true
  | .vsra _ _ _ _ => true
  | .vcvt _ _ c _ x _ => vcvtOk c x
  | .vsel _ _ _ => true
  | .vperm _ _ _ _ => true
  | .vrcpe _ _ _ => true
  | .vrsqe _ _ _ => true
  | .vrcp _ _ _ => true
  | .vrsq _ _ _ => true
  | .vsqrt _ _ _ => true
  | .vdiv _ _ _ _ => true
  | .vexp2 _ _ _ => true
  | .vlog2 _ _ _ => true
  | .vsinpi _ _ _ => true
  | .vtanh _ _ _ => true
  | .vbcast _ _ _ => true
  | .vredAdd _ _ _ t => vtype t
  | .vredMax _ _ _ t => vtype t
  | .vmov _ _ _ => true
  | .vmovxIn _ _ => true
  | .vmovxOut _ _ => true
  | .vql8 _ _ _ _ => true
  | .vdl8 _ _ _ _ => true
  | .vld _ _ b _ t => vkind t b
  | .vst _ _ b _ t => vkind t b
  | .vldk d _ c => decide (d.toNat + (c.toNat + 1) ≤ 64)
  | .vfmak _ _ _ _ => true
  | .vfmal _ _ two _ _ l1 => two != 0 || l1 == 0
  | .vpush _ => true
  | .vinv => true
  | .vpop => true
  | .vskip o => o != 0
  | .vmovi _ _ => true
  | .vaddi _ _ => true
  | .vmuli _ _ => true
  | .vmaxi _ _ => true
  | .msetFmt g b a => fmtPair a.toNat b.toNat && (g == 0 || grouped a.toNat || grouped b.toNat) && g != 3
  | .msetShape _ _ => true
  | .msetScale _ => true
  | .msetZp _ => true
  | .msetSparse _ => true
  | .mma _ n q l st => n != 0 && ordering q l st
  | .mmaS _ n q l st => n != 0 && ordering q l st
  | .mmaQ _ n q l st => n != 0 && ordering q l st
  | .mmaL8 _ n q l st => n != 0 && ordering q l st
  | .mmaPair _ n q l st => n != 0 && ordering q l st
  | .mclr _ => true
  | .maccLd _ _ => true
  | .maccSt _ _ => true
  | .maccCvt _ _ v t st _ => decide (t.toNat ≤ 10) && (st == 0 || t == 3 || t == 4) && decide (v.toNat + 15 ≤ 63)
  | .mprog _ => true
  | .mwait => true
  | .cmov _ _ _ _ q l st => ordering q l st
  | .cfillA _ _ _ _ q l st => ordering q l st
  | .cfillB _ _ _ _ q l st => ordering q l st
  | .cbfx _ _ => true
  | .cgat _ _ _ _ q l st => ordering q l st
  | .csct _ _ _ _ q l st => ordering q l st
  | .catomAdd _ _ _ _ q l st => ordering q l st
  | .catomMin _ _ _ _ q l st => ordering q l st
  | .catomMax _ _ _ _ q l st => ordering q l st
  | .catomXchg _ _ _ _ q l st => ordering q l st
  | .catomCas _ _ _ _ q l st => ordering q l st
  | .catomFadd _ _ _ _ q l st => ordering q l st
  | .cinv _ _ => true
  | .cmark _ _ => true
  | .cxrd _ _ _ => true
  | .cxwr _ _ _ => true
  | .trap _ => true
  | .eret => true
  | .csrr _ r => csrListed r.toNat
  | .csrw _ r => csrListed r.toNat
  | .clkdiv e _ => e != 3
  | .hint k => k != 3
  | .bkpt _ => true
  | .trig _ _ => true
  | .yield => true
  | .halt => true
  | .ctxs _ => true
  | .ctxl _ => true
  | .resultLand u => decide (u < 160)
  | .loopPassStart u wk => decide (u < 160) && decide (wk < 4)
  | .phaseComplete u wk => decide (u < 160) && decide (wk < 4)
  | .barrierComplete _ => true
  | .barrierRelease u => decide (u < 160)
  | .messageArrival u => decide (u < 160)
  | .kStepStart u => decide (u < 160)
  | .kStepEnd u => decide (u < 160)
  | .kStepLand u => decide (u < 160)
  | .translationStep u ch => decide (u < 160) && decide (ch < 4)
  | .tableWalkComplete c => decide (c < 20)
  | .copyBeatIssue u ch => decide (u < 160) && decide (ch < 4)
  | .copyReadDataReady u => decide (u < 160)
  | .copyWritePerform u => decide (u < 160)
  | .offcoreWriteComplete u => decide (u < 160)
  | .atomicPerform u => decide (u < 160)
  | .atomicResultLand u => decide (u < 160)
  | .copyCommandComplete u => decide (u < 160)
  | .crossingSampleEnter d x => decide (d < 2) && decide (x < 16)
  | .lateDataPoison u => decide (u < 160)
  | .lateDataArrival u => decide (u < 160)
  | .residentRewalk u => decide (u < 160)
  | .ctxsComplete u => decide (u < 160)
  | .ctxlComplete u => decide (u < 160)
  | .bindOff u => decide (u < 160)
  | .compositeRecordWrite u => decide (u < 160)
  | .actionResume u => decide (u < 160)
  | .actionAbort u => decide (u < 160)
  | .preemptionRequest _ => true
  | .preemptionStop u => decide (u < 160)
  | .preemptionSave u => decide (u < 160)
  | .contextRestore _ => true
  | .haltWaveArrival _ => true
  | .jobStep _ => true
  | .jobResume _ => true
  | .resumeAtTr _ => true
  | .triggerWindowOpen u n => decide (u < 160) && decide (n < 16)
  | .triggerWindowClose u n => decide (u < 160) && decide (n < 16)
  | .watchReport u _ => decide (u < 160)
  | .arm _ => true
  | .jobRetire _ => true
  | .watchedWordWrite d _ => decide (d < 2)
  | .kernelCastOn _ => true
  | .kernelStart _ => true
  | .nodeRetire _ => true
  | .cond _ => true
  | .loopNode _ => true
  | .switch _ => true
  | .join _ => true
  | .watchNode _ => true
  | .sourceSample _ _ => true
  | .sampleMissed _ => true
  | .gaugeLock _ => true
  | .gaugeClamp _ => true
  | .gaugeUnclamp _ => true
  | .holdoverEntry _ => true
  | .holdoverRelock _ => true
  | .sampleBoundary _ => true
  | .holdoverExpiry _ => true
  | .regionFreeze _ => true
  | .thaw _ => true
  | .watchdog u => decide (u < 160)
  | .powerControlInterval _ _ _ => true
  | .shedSave _ => true
  | .shedClear _ => true
  | .regionReadmit _ => true
  | .capLeaseExpiry => true
  | .capmsg _ _ _ => true
  | .patrolScrubError d _ => decide (d < 2)
  | .jregRegister f _ _ => decide (f ≤ 64)
  | .jobRegistration f _ => decide (f ≤ 64)
  | .jregFree f _ => decide (f ≤ 64)
  | .ilen f _ => decide (f ≤ 64)
  | .invalidationDone f => decide (f ≤ 64)
  | .ptroot f _ => decide (f ≤ 64)
  | .checkpointSave => true
  | .checkpointRestore => true
  | .checkpointDone => true
  | .registerWrite q _ _ => decide (q.f ≤ 64)
  | .bar2Write q _ _ => decide (q.f ≤ 64)
  | .bar2Read q _ _ => decide (q.f ≤ 64)
  | .tdiExit f => decide (f ≤ 64)
  | .samplesFrame _ _ => true
  | .keepAliveRx _ _ => true
  | .creditRx _ _ => true
  | .endOfStreamRx _ _ => true
  | .keepAliveTx f _ => decide (f ≤ 64)
  | .creditTx f _ => decide (f ≤ 64)
  | .linkTimeout f _ => decide (f ≤ 64)
  | .transmit f _ _ => decide (f ≤ 64)
  | .ptpMessage _ => true
  | .hostCadenceSample f _ _ => decide (f ≤ 64)
  | .linkTraining _ _ => true
  | .readRequest _ _ => true
  | .write _ _ => true
  | .atomic _ _ => true
  | .readResponse _ _ => true
  | .atomicResponse _ _ => true
  | .gauge _ _ => true
  | .haltWave _ _ => true
  | .resume _ _ => true
  | .step _ _ => true
  | .watchReportFlit _ _ => true
  | .time _ _ => true
  | .flitFailure _ => true
  | .portDown _ => true
  | .keyUpdate _ => true
  | .boot _ => true
  | .getVersion f => decide (f ≤ 64)
  | .getCapabilities f => decide (f ≤ 64)
  | .negotiateAlgorithms f _ => decide (f ≤ 64)
  | .getDigests f => decide (f ≤ 64)
  | .getCertificate f _ => decide (f ≤ 64)
  | .challenge f _ => decide (f ≤ 64)
  | .getMeasurements f _ => decide (f ≤ 64)
  | .keyExchange f _ _ => decide (f ≤ 64)
  | .finish f _ => decide (f ≤ 64)
  | .endSession f _ => decide (f ≤ 64)
  | .setKey f _ _ => decide (f ≤ 64) || (decide (128 ≤ f) && decide (f < 136))
  | .regionCycle _ => true
  | .compositeRecordComplete u => decide (u < 160)
  | .tdispMessage f _ => decide (f ≤ 64)

end Sys2Proof
end

