-- ==== Sys2Proof/Decode.lean ====
section
/-! DEFINITION. The decoder, total on any words and rejecting by name, and after it the encoder, both written from the opcode maps of
R43-R53. A field that the tables give no meaning must be zero (R44, R50-R53); a field whose value lies outside its limits still
decodes, and `wellFormed` refuses it (R55). The opcode a word spells depends on its own bits alone (R41). -/

namespace Sys2Proof

/-- Why a word is no instruction (R55). -/
inductive DecodeError where
  /-- The opcode is a dash of R43, R49, R51, R52 or R53. -/
  | reservedOpcode (opcode : Nat)
  /-- The control-subset major opcode exists and its sub-field value is reserved (R44-R46). -/
  | reservedField (major : Nat)
  /-- A field that this instruction does not use is not zero. -/
  | unusedField (mnemonic : String)
  deriving DecidableEq, Repr

/-- Bits `[lo+n-1 : lo]` of a word. -/
def fld (w lo n : Nat) : Nat := w / 2 ^ lo % 2 ^ n

/-- The same bits as an `n`-bit vector. -/
def bv (n w lo : Nat) : BitVec n := BitVec.ofNat n (w / 2 ^ lo)

/-- The second literal word, where the count says there is one (R40). -/
def lit1 (two l1 : Nat) : BitVec 32 := if two = 1 then BitVec.ofNat 32 l1 else 0

/-- The words of one space: control-subset words (R43-R46). -/
def decodeControl (w l0 l1 : Nat) : Except DecodeError Instr :=
  match fld w 22 5 with
  | 0 => if fld w 0 22 = 0 then .ok (.nop (bv 4 w 27)) else .error (.unusedField "NOP")
  | 1 =>
    match fld w 0 7 with
    | 0 => .ok (.add (bv 4 w 27) (bv 5 w 17) (bv 5 w 12) (bv 5 w 7))
    | 1 => .ok (.sub (bv 4 w 27) (bv 5 w 17) (bv 5 w 12) (bv 5 w 7))
    | 2 => .ok (.and (bv 4 w 27) (bv 5 w 17) (bv 5 w 12) (bv 5 w 7))
    | 3 => .ok (.or (bv 4 w 27) (bv 5 w 17) (bv 5 w 12) (bv 5 w 7))
    | 4 => .ok (.xor (bv 4 w 27) (bv 5 w 17) (bv 5 w 12) (bv 5 w 7))
    | 5 => .ok (.andn (bv 4 w 27) (bv 5 w 17) (bv 5 w 12) (bv 5 w 7))
    | 6 => .ok (.orn (bv 4 w 27) (bv 5 w 17) (bv 5 w 12) (bv 5 w 7))
    | 7 => .ok (.sll (bv 4 w 27) (bv 5 w 17) (bv 5 w 12) (bv 5 w 7))
    | 8 => .ok (.srl (bv 4 w 27) (bv 5 w 17) (bv 5 w 12) (bv 5 w 7))
    | 9 => .ok (.sra (bv 4 w 27) (bv 5 w 17) (bv 5 w 12) (bv 5 w 7))
    | 10 => .ok (.rol (bv 4 w 27) (bv 5 w 17) (bv 5 w 12) (bv 5 w 7))
    | 11 => .ok (.mul (bv 4 w 27) (bv 5 w 17) (bv 5 w 12) (bv 5 w 7))
    | 12 => .ok (.mulh (bv 4 w 27) (bv 5 w 17) (bv 5 w 12) (bv 5 w 7))
    | 13 => .ok (.mulhu (bv 4 w 27) (bv 5 w 17) (bv 5 w 12) (bv 5 w 7))
    | 14 => .ok (.divu (bv 4 w 27) (bv 5 w 17) (bv 5 w 12) (bv 5 w 7))
    | 15 => .ok (.remu (bv 4 w 27) (bv 5 w 17) (bv 5 w 12) (bv 5 w 7))
    | 16 => .ok (.min (bv 4 w 27) (bv 5 w 17) (bv 5 w 12) (bv 5 w 7))
    | 17 => .ok (.max (bv 4 w 27) (bv 5 w 17) (bv 5 w 12) (bv 5 w 7))
    | 18 => .ok (.minu (bv 4 w 27) (bv 5 w 17) (bv 5 w 12) (bv 5 w 7))
    | 19 => .ok (.maxu (bv 4 w 27) (bv 5 w 17) (bv 5 w 12) (bv 5 w 7))
    | 20 => if fld w 7 5 = 0 then .ok (.clz (bv 4 w 27) (bv 5 w 17) (bv 5 w 12)) else .error (.unusedField "CLZ")
    | 21 => if fld w 7 5 = 0 then .ok (.popc (bv 4 w 27) (bv 5 w 17) (bv 5 w 12)) else .error (.unusedField "POPC")
    | _ => .error (.reservedField 1)
  | 2 => .ok (.addi (bv 4 w 27) (bv 5 w 17) (bv 5 w 12) (bv 12 w 0))
  | 3 => .ok (.andi (bv 4 w 27) (bv 5 w 17) (bv 5 w 12) (bv 12 w 0))
  | 4 => .ok (.ori (bv 4 w 27) (bv 5 w 17) (bv 5 w 12) (bv 12 w 0))
  | 5 => .ok (.xori (bv 4 w 27) (bv 5 w 17) (bv 5 w 12) (bv 12 w 0))
  | 6 =>
    match fld w 6 6 with
    | 0 => .ok (.slli (bv 4 w 27) (bv 5 w 17) (bv 5 w 12) (bv 6 w 0))
    | 1 => .ok (.srli (bv 4 w 27) (bv 5 w 17) (bv 5 w 12) (bv 6 w 0))
    | 2 => .ok (.srai (bv 4 w 27) (bv 5 w 17) (bv 5 w 12) (bv 6 w 0))
    | _ => .error (.reservedField 6)
  | 7 => .ok (.li (bv 4 w 27) (bv 5 w 17) (bv 17 w 0))
  | 8 => .ok (.lui (bv 4 w 27) (bv 5 w 17) (bv 17 w 0))
  | 9 => if fld w 1 16 = 0 then .ok (.liLit (bv 4 w 27) (bv 5 w 17) (bv 1 w 0) (BitVec.ofNat 32 l0) (lit1 (fld w 0 1) l1)) else .error (.unusedField "LI_LIT")
  | 10 =>
    match fld w 9 3 with
    | 0 => .ok (.ldB (bv 4 w 27) (bv 5 w 17) (bv 5 w 12) (bv 9 w 0))
    | 1 => .ok (.ldBu (bv 4 w 27) (bv 5 w 17) (bv 5 w 12) (bv 9 w 0))
    | 2 => .ok (.ldH (bv 4 w 27) (bv 5 w 17) (bv 5 w 12) (bv 9 w 0))
    | 3 => .ok (.ldHu (bv 4 w 27) (bv 5 w 17) (bv 5 w 12) (bv 9 w 0))
    | 4 => .ok (.ldW (bv 4 w 27) (bv 5 w 17) (bv 5 w 12) (bv 9 w 0))
    | 5 => .ok (.ldWu (bv 4 w 27) (bv 5 w 17) (bv 5 w 12) (bv 9 w 0))
    | 6 => .ok (.ldD (bv 4 w 27) (bv 5 w 17) (bv 5 w 12) (bv 9 w 0))
    | _ => .error (.reservedField 10)
  | 11 =>
    match fld w 9 3 with
    | 0 => .ok (.stB (bv 4 w 27) (bv 5 w 17) (bv 5 w 12) (bv 9 w 0))
    | 2 => .ok (.stH (bv 4 w 27) (bv 5 w 17) (bv 5 w 12) (bv 9 w 0))
    | 4 => .ok (.stW (bv 4 w 27) (bv 5 w 17) (bv 5 w 12) (bv 9 w 0))
    | 6 => .ok (.stD (bv 4 w 27) (bv 5 w 17) (bv 5 w 12) (bv 9 w 0))
    | _ => .error (.reservedField 11)
  | 12 =>
    match fld w 0 7 with
    | 0 => .ok (.cmpEq (bv 4 w 27) (bv 5 w 17) (bv 5 w 12) (bv 5 w 7))
    | 1 => .ok (.cmpNe (bv 4 w 27) (bv 5 w 17) (bv 5 w 12) (bv 5 w 7))
    | 2 => .ok (.cmpLt (bv 4 w 27) (bv 5 w 17) (bv 5 w 12) (bv 5 w 7))
    | 3 => .ok (.cmpGe (bv 4 w 27) (bv 5 w 17) (bv 5 w 12) (bv 5 w 7))
    | 4 => .ok (.cmpLtu (bv 4 w 27) (bv 5 w 17) (bv 5 w 12) (bv 5 w 7))
    | 5 => .ok (.cmpGeu (bv 4 w 27) (bv 5 w 17) (bv 5 w 12) (bv 5 w 7))
    | _ => .error (.reservedField 12)
  | 13 =>
    match fld w 9 3 with
    | 0 => .ok (.cmpiEq (bv 4 w 27) (bv 5 w 17) (bv 5 w 12) (bv 9 w 0))
    | 1 => .ok (.cmpiNe (bv 4 w 27) (bv 5 w 17) (bv 5 w 12) (bv 9 w 0))
    | 2 => .ok (.cmpiLt (bv 4 w 27) (bv 5 w 17) (bv 5 w 12) (bv 9 w 0))
    | 3 => .ok (.cmpiGe (bv 4 w 27) (bv 5 w 17) (bv 5 w 12) (bv 9 w 0))
    | 4 => .ok (.cmpiLtu (bv 4 w 27) (bv 5 w 17) (bv 5 w 12) (bv 9 w 0))
    | 5 => .ok (.cmpiGeu (bv 4 w 27) (bv 5 w 17) (bv 5 w 12) (bv 9 w 0))
    | _ => .error (.reservedField 13)
  | 14 =>
    match fld w 0 7 with
    | 0 => .ok (.stAnd (bv 4 w 27) (bv 5 w 17) (bv 5 w 12) (bv 5 w 7))
    | 1 => .ok (.stOr (bv 4 w 27) (bv 5 w 17) (bv 5 w 12) (bv 5 w 7))
    | 2 => if fld w 7 5 = 0 then .ok (.stNot (bv 4 w 27) (bv 5 w 17) (bv 5 w 12)) else .error (.unusedField "ST_NOT")
    | 3 => if fld w 7 5 = 0 then .ok (.mvst (bv 4 w 27) (bv 5 w 17) (bv 5 w 12)) else .error (.unusedField "MVST")
    | 4 => if fld w 7 5 = 0 then .ok (.mvfst (bv 4 w 27) (bv 5 w 17) (bv 5 w 12)) else .error (.unusedField "MVFST")
    | _ => .error (.reservedField 14)
  | 15 => if fld w 4 3 = 0 then .ok (.sel (bv 4 w 27) (bv 5 w 17) (bv 5 w 12) (bv 5 w 7) (bv 4 w 0)) else .error (.unusedField "SEL")
  | 16 => .ok (.prep (bv 4 w 27) (bv 4 w 18) (bv 18 w 0))
  | 17 => if fld w 0 18 = 0 then .ok (.brT (bv 4 w 27) (bv 4 w 18)) else .ok (.br (bv 4 w 27) (bv 4 w 18) (bv 18 w 0))
  | 18 => if fld w 0 18 = 0 then .ok (.brnT (bv 4 w 27) (bv 4 w 18)) else .ok (.brn (bv 4 w 27) (bv 4 w 18) (bv 18 w 0))
  | 19 => if fld w 0 18 = 0 then .ok (.jT (bv 4 w 27) (bv 4 w 18)) else if fld w 18 4 = 0 then .ok (.j (bv 4 w 27) (bv 18 w 0)) else .error (.unusedField "J")
  | 20 => if fld w 0 18 = 0 then .ok (.callT (bv 4 w 27) (bv 4 w 18)) else if fld w 18 4 = 0 then .ok (.call (bv 4 w 27) (bv 18 w 0)) else .error (.unusedField "CALL")
  | 21 =>
    match fld w 0 7 with
    | 0 => if fld w 7 5 = 0 ∧ fld w 17 5 = 0 then .ok (.jr (bv 4 w 27) (bv 5 w 12)) else .error (.unusedField "JR")
    | 1 => if fld w 7 5 = 0 ∧ fld w 17 5 = 0 then .ok (.callr (bv 4 w 27) (bv 5 w 12)) else .error (.unusedField "CALLR")
    | 2 => if fld w 7 15 = 0 then .ok (.ret (bv 4 w 27)) else .error (.unusedField "RET")
    | 3 => if fld w 7 15 = 0 then .ok (.pclr (bv 4 w 27)) else .error (.unusedField "PCLR")
    | _ => .error (.reservedField 21)
  | 22 => if fld w 0 2 = 0 then .ok (.loop (bv 4 w 27) (bv 4 w 18) (bv 5 w 13) (bv 8 w 5) (bv 3 w 2)) else .error (.unusedField "LOOP")
  | 23 => if fld w 0 18 = 0 then .ok (.lbrk (bv 4 w 27) (bv 4 w 18)) else .error (.unusedField "LBRK")
  | 24 =>
    match fld w 10 2 with
    | 0 => if fld w 0 10 = 0 ∧ fld w 12 10 = 0 then .ok (.waits (bv 4 w 27)) else .error (.unusedField "WAITS")
    | 1 => if fld w 0 10 = 0 ∧ fld w 17 5 = 0 then .ok (.waitc (bv 4 w 27) (bv 5 w 12)) else .error (.unusedField "WAITC")
    | 2 => if fld w 12 10 = 0 then .ok (.waitx (bv 4 w 27) (bv 2 w 8) (bv 8 w 0)) else .error (.unusedField "WAITX")
    | 3 => if fld w 4 6 = 0 ∧ fld w 12 10 = 0 then .ok (.wsync (bv 4 w 27) (bv 4 w 0)) else .error (.unusedField "WSYNC")
    | _ => .error (.reservedField 24)
  | 25 => if fld w 4 18 = 0 then .ok (.phase (bv 4 w 27) (bv 4 w 0)) else .error (.unusedField "PHASE")
  | 26 => if fld w 12 10 = 0 then .ok (.bar (bv 4 w 27) (bv 4 w 8) (bv 8 w 0)) else .error (.unusedField "BAR")
  | 27 =>
    match fld w 0 7 with
    | 0 => if fld w 7 5 = 0 ∧ fld w 20 2 = 0 then .ok (.sendc (bv 4 w 27) (bv 3 w 17) (bv 5 w 12)) else .error (.unusedField "SENDC")
    | 1 => if fld w 7 5 = 0 ∧ fld w 15 2 = 0 then .ok (.recvc (bv 4 w 27) (bv 5 w 17) (bv 3 w 12)) else .error (.unusedField "RECVC")
    | _ => .error (.reservedField 27)
  | 28 => if fld w 18 4 = 0 then .ok (.check (bv 4 w 27) (bv 18 w 0)) else .error (.unusedField "CHECK")
  | k => .error (.reservedOpcode k)

/-- The words of one space: vector words of format VR (R49, R50). -/
def decodeVector (w l0 l1 : Nat) : Except DecodeError Instr :=
  match fld w 22 6 with
  | 0 => .ok (.vadd (bv 6 w 16) (bv 6 w 10) (bv 6 w 4) (bv 1 w 3) (bv 3 w 0))
  | 1 => .ok (.vsub (bv 6 w 16) (bv 6 w 10) (bv 6 w 4) (bv 1 w 3) (bv 3 w 0))
  | 2 => .ok (.vmul (bv 6 w 16) (bv 6 w 10) (bv 6 w 4) (bv 1 w 3) (bv 3 w 0))
  | 3 => .ok (.vfma (bv 6 w 16) (bv 6 w 10) (bv 6 w 4) (bv 1 w 3) (bv 3 w 0))
  | 4 => .ok (.vfms (bv 6 w 16) (bv 6 w 10) (bv 6 w 4) (bv 1 w 3) (bv 3 w 0))
  | 5 => .ok (.vfnma (bv 6 w 16) (bv 6 w 10) (bv 6 w 4) (bv 1 w 3) (bv 3 w 0))
  | 6 => .ok (.vmin (bv 6 w 16) (bv 6 w 10) (bv 6 w 4) (bv 1 w 3) (bv 3 w 0))
  | 7 => .ok (.vmax (bv 6 w 16) (bv 6 w 10) (bv 6 w 4) (bv 1 w 3) (bv 3 w 0))
  | 8 => if fld w 4 6 = 0 then .ok (.vabs (bv 6 w 16) (bv 6 w 10) (bv 1 w 3) (bv 3 w 0)) else .error (.unusedField "VABS")
  | 9 => if fld w 4 6 = 0 then .ok (.vneg (bv 6 w 16) (bv 6 w 10) (bv 1 w 3) (bv 3 w 0)) else .error (.unusedField "VNEG")
  | 10 => .ok (.vcmpEq (bv 6 w 16) (bv 6 w 10) (bv 6 w 4) (bv 1 w 3) (bv 3 w 0))
  | 11 => .ok (.vcmpNe (bv 6 w 16) (bv 6 w 10) (bv 6 w 4) (bv 1 w 3) (bv 3 w 0))
  | 12 => .ok (.vcmpLt (bv 6 w 16) (bv 6 w 10) (bv 6 w 4) (bv 1 w 3) (bv 3 w 0))
  | 13 => .ok (.vcmpLe (bv 6 w 16) (bv 6 w 10) (bv 6 w 4) (bv 1 w 3) (bv 3 w 0))
  | 14 => if fld w 0 3 = 0 then .ok (.vand (bv 6 w 16) (bv 6 w 10) (bv 6 w 4) (bv 1 w 3)) else .error (.unusedField "VAND")
  | 15 => if fld w 0 3 = 0 then .ok (.vor (bv 6 w 16) (bv 6 w 10) (bv 6 w 4) (bv 1 w 3)) else .error (.unusedField "VOR")
  | 16 => if fld w 0 3 = 0 then .ok (.vxor (bv 6 w 16) (bv 6 w 10) (bv 6 w 4) (bv 1 w 3)) else .error (.unusedField "VXOR")
  | 17 => if fld w 0 3 = 0 ∧ fld w 4 6 = 0 then .ok (.vnot (bv 6 w 16) (bv 6 w 10) (bv 1 w 3)) else .error (.unusedField "VNOT")
  | 18 => if fld w 0 3 = 0 then .ok (.vshl (bv 6 w 16) (bv 6 w 10) (bv 6 w 4) (bv 1 w 3)) else .error (.unusedField "VSHL")
  | 19 => if fld w 0 3 = 0 then .ok (.vshr (bv 6 w 16) (bv 6 w 10) (bv 6 w 4) (bv 1 w 3)) else .error (.unusedField "VSHR")
  | 20 => if fld w 0 3 = 0 then .ok (.vsra (bv 6 w 16) (bv 6 w 10) (bv 6 w 4) (bv 1 w 3)) else .error (.unusedField "VSRA")
  | 21 => .ok (.vcvt (bv 6 w 16) (bv 6 w 10) (bv 6 w 4) (bv 1 w 3) (bv 1 w 2) (bv 2 w 0))
  | 22 => if fld w 0 4 = 0 then .ok (.vsel (bv 6 w 16) (bv 6 w 10) (bv 6 w 4)) else .error (.unusedField "VSEL")
  | 23 => if fld w 0 3 = 0 then .ok (.vperm (bv 6 w 16) (bv 6 w 10) (bv 6 w 4) (bv 1 w 3)) else .error (.unusedField "VPERM")
  | 24 => if fld w 0 3 = 0 ∧ fld w 4 6 = 0 then .ok (.vrcpe (bv 6 w 16) (bv 6 w 10) (bv 1 w 3)) else .error (.unusedField "VRCPE")
  | 25 => if fld w 0 3 = 0 ∧ fld w 4 6 = 0 then .ok (.vrsqe (bv 6 w 16) (bv 6 w 10) (bv 1 w 3)) else .error (.unusedField "VRSQE")
  | 26 => if fld w 0 3 = 0 ∧ fld w 4 6 = 0 then .ok (.vrcp (bv 6 w 16) (bv 6 w 10) (bv 1 w 3)) else .error (.unusedField "VRCP")
  | 27 => if fld w 0 3 = 0 ∧ fld w 4 6 = 0 then .ok (.vrsq (bv 6 w 16) (bv 6 w 10) (bv 1 w 3)) else .error (.unusedField "VRSQ")
  | 28 => if fld w 0 3 = 0 ∧ fld w 4 6 = 0 then .ok (.vsqrt (bv 6 w 16) (bv 6 w 10) (bv 1 w 3)) else .error (.unusedField "VSQRT")
  | 29 => if fld w 0 3 = 0 then .ok (.vdiv (bv 6 w 16) (bv 6 w 10) (bv 6 w 4) (bv 1 w 3)) else .error (.unusedField "VDIV")
  | 30 => if fld w 0 3 = 0 ∧ fld w 4 6 = 0 then .ok (.vexp2 (bv 6 w 16) (bv 6 w 10) (bv 1 w 3)) else .error (.unusedField "VEXP2")
  | 31 => if fld w 0 3 = 0 ∧ fld w 4 6 = 0 then .ok (.vlog2 (bv 6 w 16) (bv 6 w 10) (bv 1 w 3)) else .error (.unusedField "VLOG2")
  | 32 => if fld w 0 3 = 0 ∧ fld w 4 6 = 0 then .ok (.vsinpi (bv 6 w 16) (bv 6 w 10) (bv 1 w 3)) else .error (.unusedField "VSINPI")
  | 33 => if fld w 0 3 = 0 ∧ fld w 4 6 = 0 then .ok (.vtanh (bv 6 w 16) (bv 6 w 10) (bv 1 w 3)) else .error (.unusedField "VTANH")
  | 34 => if fld w 0 3 = 0 ∧ fld w 4 6 = 0 ∧ fld w 15 1 = 0 then .ok (.vbcast (bv 6 w 16) (bv 5 w 10) (bv 1 w 3)) else .error (.unusedField "VBCAST")
  | 35 => if fld w 4 6 = 0 then .ok (.vredAdd (bv 6 w 16) (bv 6 w 10) (bv 1 w 3) (bv 3 w 0)) else .error (.unusedField "VRED_ADD")
  | 36 => if fld w 4 6 = 0 then .ok (.vredMax (bv 6 w 16) (bv 6 w 10) (bv 1 w 3) (bv 3 w 0)) else .error (.unusedField "VRED_MAX")
  | 37 => if fld w 0 3 = 0 ∧ fld w 4 6 = 0 then .ok (.vmov (bv 6 w 16) (bv 6 w 10) (bv 1 w 3)) else .error (.unusedField "VMOV")
  | 38 => if fld w 0 1 = 0 then if fld w 1 2 = 0 ∧ fld w 4 12 = 0 then .ok (.vmovxIn (bv 6 w 16) (bv 1 w 3)) else .error (.unusedField "VMOVX_IN") else if fld w 1 2 = 0 ∧ fld w 4 6 = 0 ∧ fld w 16 6 = 0 then .ok (.vmovxOut (bv 6 w 10) (bv 1 w 3)) else .error (.unusedField "VMOVX_OUT")
  | 39 => if fld w 0 3 = 0 then .ok (.vql8 (bv 6 w 16) (bv 6 w 10) (bv 6 w 4) (bv 1 w 3)) else .error (.unusedField "VQL8")
  | 40 => if fld w 0 3 = 0 then .ok (.vdl8 (bv 6 w 16) (bv 6 w 10) (bv 6 w 4) (bv 1 w 3)) else .error (.unusedField "VDL8")
  | 41 => if fld w 15 1 = 0 then .ok (.vld (bv 6 w 16) (bv 5 w 10) (bv 6 w 4) (bv 1 w 3) (bv 3 w 0)) else .error (.unusedField "VLD")
  | 42 => if fld w 15 1 = 0 then .ok (.vst (bv 6 w 16) (bv 5 w 10) (bv 6 w 4) (bv 1 w 3) (bv 3 w 0)) else .error (.unusedField "VST")
  | 43 => if fld w 0 4 = 0 ∧ fld w 15 1 = 0 then .ok (.vldk (bv 6 w 16) (bv 5 w 10) (bv 6 w 4)) else .error (.unusedField "VLDK")
  | 44 => if fld w 0 3 = 0 then .ok (.vfmak (bv 6 w 16) (bv 6 w 10) (bv 6 w 4) (bv 1 w 3)) else .error (.unusedField "VFMAK")
  | 45 => if fld w 0 3 = 0 ∧ fld w 5 5 = 0 then .ok (.vfmal (bv 6 w 16) (bv 6 w 10) (bv 1 w 4) (bv 1 w 3) (BitVec.ofNat 32 l0) (lit1 (fld w 4 1) l1)) else .error (.unusedField "VFMAL")
  | 46 => if fld w 0 10 = 0 ∧ fld w 16 6 = 0 then .ok (.vpush (bv 6 w 10)) else .error (.unusedField "VPUSH")
  | 47 => if fld w 0 22 = 0 then .ok (.vinv) else .error (.unusedField "VINV")
  | 48 => if fld w 0 22 = 0 then .ok (.vpop) else .error (.unusedField "VPOP")
  | 49 => if fld w 0 4 = 0 then .ok (.vskip (bv 18 w 4)) else .error (.unusedField "VSKIP")
  | k => .error (.reservedOpcode k)

/-- The words of one space: vector words of format VF (R47, R49). -/
def decodeVectorImm (w : Nat) : Except DecodeError Instr :=
  match fld w 26 2 with
  | 0 => .ok (.vmovi (bv 6 w 20) (bv 20 w 0))
  | 1 => .ok (.vaddi (bv 6 w 20) (bv 20 w 0))
  | 2 => .ok (.vmuli (bv 6 w 20) (bv 20 w 0))
  | _ => .ok (.vmaxi (bv 6 w 20) (bv 20 w 0))

/-- The words of one space: matrix words (R51). -/
def decodeMatrix (w : Nat) : Except DecodeError Instr :=
  match fld w 23 6 with
  | 0 => if fld w 10 13 = 0 then .ok (.msetFmt (bv 2 w 8) (bv 4 w 4) (bv 4 w 0)) else .error (.unusedField "MSET_FMT")
  | 1 => if fld w 12 11 = 0 then .ok (.msetShape (bv 6 w 6) (bv 6 w 0)) else .error (.unusedField "MSET_SHAPE")
  | 2 => if fld w 0 13 = 0 ∧ fld w 18 5 = 0 then .ok (.msetScale (bv 5 w 13)) else .error (.unusedField "MSET_SCALE")
  | 3 => if fld w 0 13 = 0 ∧ fld w 18 5 = 0 then .ok (.msetZp (bv 5 w 13)) else .error (.unusedField "MSET_ZP")
  | 4 => if fld w 1 22 = 0 then .ok (.msetSparse (bv 1 w 0)) else .error (.unusedField "MSET_SPARSE")
  | 8 => if fld w 0 1 = 0 then .ok (.mma (bv 4 w 19) (bv 12 w 7) (bv 1 w 6) (bv 1 w 5) (bv 4 w 1)) else .error (.unusedField "MMA")
  | 9 => if fld w 0 1 = 0 then .ok (.mmaS (bv 4 w 19) (bv 12 w 7) (bv 1 w 6) (bv 1 w 5) (bv 4 w 1)) else .error (.unusedField "MMA_S")
  | 10 => if fld w 0 1 = 0 then .ok (.mmaQ (bv 4 w 19) (bv 12 w 7) (bv 1 w 6) (bv 1 w 5) (bv 4 w 1)) else .error (.unusedField "MMA_Q")
  | 11 => if fld w 0 1 = 0 then .ok (.mmaL8 (bv 4 w 19) (bv 12 w 7) (bv 1 w 6) (bv 1 w 5) (bv 4 w 1)) else .error (.unusedField "MMA_L8")
  | 12 => if fld w 0 1 = 0 then .ok (.mmaPair (bv 4 w 19) (bv 12 w 7) (bv 1 w 6) (bv 1 w 5) (bv 4 w 1)) else .error (.unusedField "MMA_PAIR")
  | 16 => if fld w 0 19 = 0 then .ok (.mclr (bv 4 w 19)) else .error (.unusedField "MCLR")
  | 17 => if fld w 0 14 = 0 then .ok (.maccLd (bv 4 w 19) (bv 5 w 14)) else .error (.unusedField "MACC_LD")
  | 18 => if fld w 0 14 = 0 then .ok (.maccSt (bv 4 w 19) (bv 5 w 14)) else .error (.unusedField "MACC_ST")
  | 19 => if fld w 0 1 = 0 then .ok (.maccCvt (bv 4 w 19) (bv 5 w 14) (bv 6 w 8) (bv 4 w 4) (bv 1 w 3) (bv 2 w 1)) else .error (.unusedField "MACC_CVT")
  | 24 => if fld w 0 18 = 0 then .ok (.mprog (bv 5 w 18)) else .error (.unusedField "MPROG")
  | 25 => if fld w 0 23 = 0 then .ok (.mwait) else .error (.unusedField "MWAIT")
  | k => .error (.reservedOpcode k)

/-- The words of one space: copy words (R52). -/
def decodeCopy (w : Nat) : Except DecodeError Instr :=
  match fld w 23 6 with
  | 0 => .ok (.cmov (bv 2 w 21) (bv 5 w 16) (bv 5 w 11) (bv 5 w 6) (bv 1 w 5) (bv 1 w 4) (bv 4 w 0))
  | 1 => if fld w 17 4 = 0 then .ok (.cfillA (bv 2 w 21) (bv 1 w 16) (bv 5 w 11) (bv 5 w 6) (bv 1 w 5) (bv 1 w 4) (bv 4 w 0)) else .error (.unusedField "CFILL_A")
  | 2 => if fld w 17 4 = 0 then .ok (.cfillB (bv 2 w 21) (bv 1 w 16) (bv 5 w 11) (bv 5 w 6) (bv 1 w 5) (bv 1 w 4) (bv 4 w 0)) else .error (.unusedField "CFILL_B")
  | 3 => if fld w 0 11 = 0 ∧ fld w 16 5 = 0 then .ok (.cbfx (bv 2 w 21) (bv 5 w 11)) else .error (.unusedField "CBFX")
  | 4 => .ok (.cgat (bv 2 w 21) (bv 5 w 16) (bv 5 w 11) (bv 5 w 6) (bv 1 w 5) (bv 1 w 4) (bv 4 w 0))
  | 5 => .ok (.csct (bv 2 w 21) (bv 5 w 16) (bv 5 w 11) (bv 5 w 6) (bv 1 w 5) (bv 1 w 4) (bv 4 w 0))
  | 8 => .ok (.catomAdd (bv 2 w 21) (bv 5 w 16) (bv 5 w 11) (bv 5 w 6) (bv 1 w 5) (bv 1 w 4) (bv 4 w 0))
  | 9 => .ok (.catomMin (bv 2 w 21) (bv 5 w 16) (bv 5 w 11) (bv 5 w 6) (bv 1 w 5) (bv 1 w 4) (bv 4 w 0))
  | 10 => .ok (.catomMax (bv 2 w 21) (bv 5 w 16) (bv 5 w 11) (bv 5 w 6) (bv 1 w 5) (bv 1 w 4) (bv 4 w 0))
  | 11 => .ok (.catomXchg (bv 2 w 21) (bv 5 w 16) (bv 5 w 11) (bv 5 w 6) (bv 1 w 5) (bv 1 w 4) (bv 4 w 0))
  | 12 => .ok (.catomCas (bv 2 w 21) (bv 5 w 16) (bv 5 w 11) (bv 5 w 6) (bv 1 w 5) (bv 1 w 4) (bv 4 w 0))
  | 13 => .ok (.catomFadd (bv 2 w 21) (bv 5 w 16) (bv 5 w 11) (bv 5 w 6) (bv 1 w 5) (bv 1 w 4) (bv 4 w 0))
  | 16 => if fld w 0 6 = 0 ∧ fld w 16 7 = 0 then .ok (.cinv (bv 5 w 11) (bv 5 w 6)) else .error (.unusedField "CINV")
  | 17 => if fld w 0 11 = 0 ∧ fld w 16 5 = 0 then .ok (.cmark (bv 2 w 21) (bv 5 w 11)) else .error (.unusedField "CMARK")
  | 24 => if fld w 0 6 = 0 ∧ fld w 10 6 = 0 then .ok (.cxrd (bv 2 w 21) (bv 5 w 16) (bv 4 w 6)) else .error (.unusedField "CXRD")
  | 25 => if fld w 0 6 = 0 ∧ fld w 10 6 = 0 then .ok (.cxwr (bv 2 w 21) (bv 5 w 16) (bv 4 w 6)) else .error (.unusedField "CXWR")
  | k => .error (.reservedOpcode k)

/-- The words of one space: system words (R53). -/
def decodeSystem (w : Nat) : Except DecodeError Instr :=
  match fld w 23 6 with
  | 0 => if fld w 13 10 = 0 then .ok (.trap (bv 13 w 0)) else .error (.unusedField "TRAP")
  | 1 => if fld w 0 23 = 0 then .ok (.eret) else .error (.unusedField "ERET")
  | 2 => if fld w 13 5 = 0 then .ok (.csrr (bv 5 w 18) (bv 13 w 0)) else .error (.unusedField "CSRR")
  | 3 => if fld w 18 5 = 0 then .ok (.csrw (bv 5 w 13) (bv 13 w 0)) else .error (.unusedField "CSRW")
  | 4 => if fld w 4 7 = 0 ∧ fld w 13 10 = 0 then .ok (.clkdiv (bv 2 w 11) (bv 4 w 0)) else .error (.unusedField "CLKDIV")
  | 5 => if fld w 2 21 = 0 then .ok (.hint (bv 2 w 0)) else .error (.unusedField "HINT")
  | 6 => if fld w 13 10 = 0 then .ok (.bkpt (bv 13 w 0)) else .error (.unusedField "BKPT")
  | 7 => if fld w 4 9 = 0 ∧ fld w 18 5 = 0 then .ok (.trig (bv 5 w 13) (bv 4 w 0)) else .error (.unusedField "TRIG")
  | 8 => if fld w 0 23 = 0 then .ok (.yield) else .error (.unusedField "YIELD")
  | 9 => if fld w 0 23 = 0 then .ok (.halt) else .error (.unusedField "HALT")
  | 10 => if fld w 0 13 = 0 ∧ fld w 18 5 = 0 then .ok (.ctxs (bv 5 w 13)) else .error (.unusedField "CTXS")
  | 11 => if fld w 0 13 = 0 ∧ fld w 18 5 = 0 then .ok (.ctxl (bv 5 w 13)) else .error (.unusedField "CTXL")
  | k => .error (.reservedOpcode k)

/-- The instruction that word `w` spells, `l0` and `l1` the words after it (R33). Bit 31 clear is the control subset whatever W. -/
def decodeNat (w l0 l1 : Nat) : Except DecodeError Instr :=
  if fld w 31 1 = 0 then decodeControl w l0 l1
  else
    match fld w 29 2 with
    | 0 => decodeMatrix w
    | 1 => if fld w 28 1 = 0 then decodeVector w l0 l1 else decodeVectorImm w
    | 2 => decodeCopy w
    | _ => decodeSystem w

/-- How many literal words follow `w` (R40, R41): from the carrying word's own bits alone, whatever W and the reserved bits. -/
def literalCount (w : Nat) : Nat :=
  if fld w 31 1 = 0 ∧ fld w 22 5 = 9 then 1 + fld w 0 1
  else if fld w 28 4 = 10 ∧ fld w 22 6 = 45 then 1 + fld w 4 1
  else 0

/-- Walker `k` (0 `sw`, 1 `mw`, 2 `vw`, 3 `cw`) executes the word, R33-R35. -/
def executes (w k : Nat) : Bool :=
  if fld w 31 1 = 0 then fld w (27 + k) 1 == 1
  else
    match fld w 29 2 with
    | 0 => k == 1
    | 1 => k == 2
    | 2 => k == 3
    | _ => k == 0

/-- The steer register for which the word counts as a steer-writing word (R14): W is not 0000, the major opcode is 12, 13 or 16, or
14 with funct7 0-3, and the steer destination field is 0-11. No other field is examined. -/
def steerWriteReg (w : Nat) : Option Nat :=
  if fld w 31 1 = 0 ∧ fld w 27 4 ≠ 0 then
    if fld w 22 5 = 16 then (if fld w 18 4 < 12 then some (fld w 18 4) else none)
    else if fld w 22 5 = 12 ∨ fld w 22 5 = 13 ∨ (fld w 22 5 = 14 ∧ fld w 0 7 < 4) then
      (if fld w 17 5 < 12 then some (fld w 17 5) else none)
    else none
  else none

/-- The channel on which the word is a copy command (R116, R175): a copy-space word of op6 0-2, 4, 5, 8-13, 17, 24 or 25: those that take a transfer ID (R178). -/
def copyCommandChannel (w : Nat) : Option Nat :=
  let op := fld w 23 6
  if fld w 29 3 = 6 ∧ ((op < 6 ∧ op ≠ 3) ∨ (8 ≤ op ∧ op < 14) ∨ op = 17 ∨ op = 24 ∨ op = 25) then some (fld w 21 2) else none

/-- Decode a list of words: the instruction and the words after it (log 93, DEDUCED). -/
def decode : List W32 → Option (Except DecodeError Instr × List W32)
  | [] => none
  | w :: ws => some (decodeNat w.toNat (ws.getD 0 0).toNat (ws.getD 1 0).toNat, ws.drop (literalCount w.toNat))

/-- The instruction whose bits are `w`, numbered as the opcode table numbers them: bit 0 is the least significant bit of the first
word, and the literal words follow. Bits above `nbits` are zero. -/
def decodeTableWord (nbits w : Nat) : Option Instr :=
  let v := w % 2 ^ nbits
  match decodeNat (fld v 0 32) (fld v 32 32) (fld v 64 32) with
  | .ok i => some i
  | .error _ => none

/-- The four bytes of a word as a text image holds it, little-endian (R33). -/
def wordBytes (w : W32) : List Byte := [w.extractLsb' 0 8, w.extractLsb' 8 8, w.extractLsb' 16 8, w.extractLsb' 24 8]

/-- Fields `(value, low bit)` put into a word whose fixed bits are `m`. -/
def putFields (m : Nat) : List (Nat × Nat) → Nat
  | [] => m
  | (v, lo) :: fs => v * 2 ^ lo + putFields m fs

/-- The words that spell an instruction, its literal words after it (R38-R53): empty for an event, which has no encoding. -/
def encodeNat : Instr → List Nat
  | .nop w => [putFields 0x00000000 [(w.toNat, 27)]]
  | .add w d a b => [putFields 0x00400000 [(w.toNat, 27), (d.toNat, 17), (a.toNat, 12), (b.toNat, 7)]]
  | .sub w d a b => [putFields 0x00400001 [(w.toNat, 27), (d.toNat, 17), (a.toNat, 12), (b.toNat, 7)]]
  | .and w d a b => [putFields 0x00400002 [(w.toNat, 27), (d.toNat, 17), (a.toNat, 12), (b.toNat, 7)]]
  | .or w d a b => [putFields 0x00400003 [(w.toNat, 27), (d.toNat, 17), (a.toNat, 12), (b.toNat, 7)]]
  | .xor w d a b => [putFields 0x00400004 [(w.toNat, 27), (d.toNat, 17), (a.toNat, 12), (b.toNat, 7)]]
  | .andn w d a b => [putFields 0x00400005 [(w.toNat, 27), (d.toNat, 17), (a.toNat, 12), (b.toNat, 7)]]
  | .orn w d a b => [putFields 0x00400006 [(w.toNat, 27), (d.toNat, 17), (a.toNat, 12), (b.toNat, 7)]]
  | .sll w d a b => [putFields 0x00400007 [(w.toNat, 27), (d.toNat, 17), (a.toNat, 12), (b.toNat, 7)]]
  | .srl w d a b => [putFields 0x00400008 [(w.toNat, 27), (d.toNat, 17), (a.toNat, 12), (b.toNat, 7)]]
  | .sra w d a b => [putFields 0x00400009 [(w.toNat, 27), (d.toNat, 17), (a.toNat, 12), (b.toNat, 7)]]
  | .rol w d a b => [putFields 0x0040000A [(w.toNat, 27), (d.toNat, 17), (a.toNat, 12), (b.toNat, 7)]]
  | .mul w d a b => [putFields 0x0040000B [(w.toNat, 27), (d.toNat, 17), (a.toNat, 12), (b.toNat, 7)]]
  | .mulh w d a b => [putFields 0x0040000C [(w.toNat, 27), (d.toNat, 17), (a.toNat, 12), (b.toNat, 7)]]
  | .mulhu w d a b => [putFields 0x0040000D [(w.toNat, 27), (d.toNat, 17), (a.toNat, 12), (b.toNat, 7)]]
  | .divu w d a b => [putFields 0x0040000E [(w.toNat, 27), (d.toNat, 17), (a.toNat, 12), (b.toNat, 7)]]
  | .remu w d a b => [putFields 0x0040000F [(w.toNat, 27), (d.toNat, 17), (a.toNat, 12), (b.toNat, 7)]]
  | .min w d a b => [putFields 0x00400010 [(w.toNat, 27), (d.toNat, 17), (a.toNat, 12), (b.toNat, 7)]]
  | .max w d a b => [putFields 0x00400011 [(w.toNat, 27), (d.toNat, 17), (a.toNat, 12), (b.toNat, 7)]]
  | .minu w d a b => [putFields 0x00400012 [(w.toNat, 27), (d.toNat, 17), (a.toNat, 12), (b.toNat, 7)]]
  | .maxu w d a b => [putFields 0x00400013 [(w.toNat, 27), (d.toNat, 17), (a.toNat, 12), (b.toNat, 7)]]
  | .clz w d a => [putFields 0x00400014 [(w.toNat, 27), (d.toNat, 17), (a.toNat, 12)]]
  | .popc w d a => [putFields 0x00400015 [(w.toNat, 27), (d.toNat, 17), (a.toNat, 12)]]
  | .addi w d a im => [putFields 0x00800000 [(w.toNat, 27), (d.toNat, 17), (a.toNat, 12), (im.toNat, 0)]]
  | .andi w d a im => [putFields 0x00C00000 [(w.toNat, 27), (d.toNat, 17), (a.toNat, 12), (im.toNat, 0)]]
  | .ori w d a im => [putFields 0x01000000 [(w.toNat, 27), (d.toNat, 17), (a.toNat, 12), (im.toNat, 0)]]
  | .xori w d a im => [putFields 0x01400000 [(w.toNat, 27), (d.toNat, 17), (a.toNat, 12), (im.toNat, 0)]]
  | .slli w d a st => [putFields 0x01800000 [(w.toNat, 27), (d.toNat, 17), (a.toNat, 12), (st.toNat, 0)]]
  | .srli w d a st => [putFields 0x01800040 [(w.toNat, 27), (d.toNat, 17), (a.toNat, 12), (st.toNat, 0)]]
  | .srai w d a st => [putFields 0x01800080 [(w.toNat, 27), (d.toNat, 17), (a.toNat, 12), (st.toNat, 0)]]
  | .li w d im => [putFields 0x01C00000 [(w.toNat, 27), (d.toNat, 17), (im.toNat, 0)]]
  | .lui w d im => [putFields 0x02000000 [(w.toNat, 27), (d.toNat, 17), (im.toNat, 0)]]
  | .liLit w d two l0 l1 => if two = 0 then [putFields 0x02400000 [(w.toNat, 27), (d.toNat, 17), (two.toNat, 0)], l0.toNat] else [putFields 0x02400000 [(w.toNat, 27), (d.toNat, 17), (two.toNat, 0)], l0.toNat, l1.toNat]
  | .ldB w d a o => [putFields 0x02800000 [(w.toNat, 27), (d.toNat, 17), (a.toNat, 12), (o.toNat, 0)]]
  | .ldBu w d a o => [putFields 0x02800200 [(w.toNat, 27), (d.toNat, 17), (a.toNat, 12), (o.toNat, 0)]]
  | .ldH w d a o => [putFields 0x02800400 [(w.toNat, 27), (d.toNat, 17), (a.toNat, 12), (o.toNat, 0)]]
  | .ldHu w d a o => [putFields 0x02800600 [(w.toNat, 27), (d.toNat, 17), (a.toNat, 12), (o.toNat, 0)]]
  | .ldW w d a o => [putFields 0x02800800 [(w.toNat, 27), (d.toNat, 17), (a.toNat, 12), (o.toNat, 0)]]
  | .ldWu w d a o => [putFields 0x02800A00 [(w.toNat, 27), (d.toNat, 17), (a.toNat, 12), (o.toNat, 0)]]
  | .ldD w d a o => [putFields 0x02800C00 [(w.toNat, 27), (d.toNat, 17), (a.toNat, 12), (o.toNat, 0)]]
  | .stB w d a o => [putFields 0x02C00000 [(w.toNat, 27), (d.toNat, 17), (a.toNat, 12), (o.toNat, 0)]]
  | .stH w d a o => [putFields 0x02C00400 [(w.toNat, 27), (d.toNat, 17), (a.toNat, 12), (o.toNat, 0)]]
  | .stW w d a o => [putFields 0x02C00800 [(w.toNat, 27), (d.toNat, 17), (a.toNat, 12), (o.toNat, 0)]]
  | .stD w d a o => [putFields 0x02C00C00 [(w.toNat, 27), (d.toNat, 17), (a.toNat, 12), (o.toNat, 0)]]
  | .cmpEq w d a b => [putFields 0x03000000 [(w.toNat, 27), (d.toNat, 17), (a.toNat, 12), (b.toNat, 7)]]
  | .cmpNe w d a b => [putFields 0x03000001 [(w.toNat, 27), (d.toNat, 17), (a.toNat, 12), (b.toNat, 7)]]
  | .cmpLt w d a b => [putFields 0x03000002 [(w.toNat, 27), (d.toNat, 17), (a.toNat, 12), (b.toNat, 7)]]
  | .cmpGe w d a b => [putFields 0x03000003 [(w.toNat, 27), (d.toNat, 17), (a.toNat, 12), (b.toNat, 7)]]
  | .cmpLtu w d a b => [putFields 0x03000004 [(w.toNat, 27), (d.toNat, 17), (a.toNat, 12), (b.toNat, 7)]]
  | .cmpGeu w d a b => [putFields 0x03000005 [(w.toNat, 27), (d.toNat, 17), (a.toNat, 12), (b.toNat, 7)]]
  | .cmpiEq w d a im => [putFields 0x03400000 [(w.toNat, 27), (d.toNat, 17), (a.toNat, 12), (im.toNat, 0)]]
  | .cmpiNe w d a im => [putFields 0x03400200 [(w.toNat, 27), (d.toNat, 17), (a.toNat, 12), (im.toNat, 0)]]
  | .cmpiLt w d a im => [putFields 0x03400400 [(w.toNat, 27), (d.toNat, 17), (a.toNat, 12), (im.toNat, 0)]]
  | .cmpiGe w d a im => [putFields 0x03400600 [(w.toNat, 27), (d.toNat, 17), (a.toNat, 12), (im.toNat, 0)]]
  | .cmpiLtu w d a im => [putFields 0x03400800 [(w.toNat, 27), (d.toNat, 17), (a.toNat, 12), (im.toNat, 0)]]
  | .cmpiGeu w d a im => [putFields 0x03400A00 [(w.toNat, 27), (d.toNat, 17), (a.toNat, 12), (im.toNat, 0)]]
  | .stAnd w d a b => [putFields 0x03800000 [(w.toNat, 27), (d.toNat, 17), (a.toNat, 12), (b.toNat, 7)]]
  | .stOr w d a b => [putFields 0x03800001 [(w.toNat, 27), (d.toNat, 17), (a.toNat, 12), (b.toNat, 7)]]
  | .stNot w d a => [putFields 0x03800002 [(w.toNat, 27), (d.toNat, 17), (a.toNat, 12)]]
  | .mvst w d a => [putFields 0x03800003 [(w.toNat, 27), (d.toNat, 17), (a.toNat, 12)]]
  | .mvfst w d a => [putFields 0x03800004 [(w.toNat, 27), (d.toNat, 17), (a.toNat, 12)]]
  | .sel w d a b st => [putFields 0x03C00000 [(w.toNat, 27), (d.toNat, 17), (a.toNat, 12), (b.toNat, 7), (st.toNat, 0)]]
  | .prep w st o => [putFields 0x04000000 [(w.toNat, 27), (st.toNat, 18), (o.toNat, 0)]]
  | .br w st o => [putFields 0x04400000 [(w.toNat, 27), (st.toNat, 18), (o.toNat, 0)]]
  | .brT w st => [putFields 0x04400000 [(w.toNat, 27), (st.toNat, 18)]]
  | .brn w st o => [putFields 0x04800000 [(w.toNat, 27), (st.toNat, 18), (o.toNat, 0)]]
  | .brnT w st => [putFields 0x04800000 [(w.toNat, 27), (st.toNat, 18)]]
  | .j w o => [putFields 0x04C00000 [(w.toNat, 27), (o.toNat, 0)]]
  | .jT w st => [putFields 0x04C00000 [(w.toNat, 27), (st.toNat, 18)]]
  | .call w o => [putFields 0x05000000 [(w.toNat, 27), (o.toNat, 0)]]
  | .callT w st => [putFields 0x05000000 [(w.toNat, 27), (st.toNat, 18)]]
  | .jr w a => [putFields 0x05400000 [(w.toNat, 27), (a.toNat, 12)]]
  | .callr w a => [putFields 0x05400001 [(w.toNat, 27), (a.toNat, 12)]]
  | .ret w => [putFields 0x05400002 [(w.toNat, 27)]]
  | .pclr w => [putFields 0x05400003 [(w.toNat, 27)]]
  | .loop w st a im g => [putFields 0x05800000 [(w.toNat, 27), (st.toNat, 18), (a.toNat, 13), (im.toNat, 5), (g.toNat, 2)]]
  | .lbrk w st => [putFields 0x05C00000 [(w.toNat, 27), (st.toNat, 18)]]
  | .waits w => [putFields 0x06000000 [(w.toNat, 27)]]
  | .waitc w a => [putFields 0x06000400 [(w.toNat, 27), (a.toNat, 12)]]
  | .waitx w c k => [putFields 0x06000800 [(w.toNat, 27), (c.toNat, 8), (k.toNat, 0)]]
  | .wsync w st => [putFields 0x06000C00 [(w.toNat, 27), (st.toNat, 0)]]
  | .phase w st => [putFields 0x06400000 [(w.toNat, 27), (st.toNat, 0)]]
  | .bar w st im => [putFields 0x06800000 [(w.toNat, 27), (st.toNat, 8), (im.toNat, 0)]]
  | .sendc w u a => [putFields 0x06C00000 [(w.toNat, 27), (u.toNat, 17), (a.toNat, 12)]]
  | .recvc w d u => [putFields 0x06C00001 [(w.toNat, 27), (d.toNat, 17), (u.toNat, 12)]]
  | .check w o => [putFields 0x07000000 [(w.toNat, 27), (o.toNat, 0)]]
  | .vadd d a b k t => [putFields 0xA0000000 [(d.toNat, 16), (a.toNat, 10), (b.toNat, 4), (k.toNat, 3), (t.toNat, 0)]]
  | .vsub d a b k t => [putFields 0xA0400000 [(d.toNat, 16), (a.toNat, 10), (b.toNat, 4), (k.toNat, 3), (t.toNat, 0)]]
  | .vmul d a b k t => [putFields 0xA0800000 [(d.toNat, 16), (a.toNat, 10), (b.toNat, 4), (k.toNat, 3), (t.toNat, 0)]]
  | .vfma d a b k t => [putFields 0xA0C00000 [(d.toNat, 16), (a.toNat, 10), (b.toNat, 4), (k.toNat, 3), (t.toNat, 0)]]
  | .vfms d a b k t => [putFields 0xA1000000 [(d.toNat, 16), (a.toNat, 10), (b.toNat, 4), (k.toNat, 3), (t.toNat, 0)]]
  | .vfnma d a b k t => [putFields 0xA1400000 [(d.toNat, 16), (a.toNat, 10), (b.toNat, 4), (k.toNat, 3), (t.toNat, 0)]]
  | .vmin d a b k t => [putFields 0xA1800000 [(d.toNat, 16), (a.toNat, 10), (b.toNat, 4), (k.toNat, 3), (t.toNat, 0)]]
  | .vmax d a b k t => [putFields 0xA1C00000 [(d.toNat, 16), (a.toNat, 10), (b.toNat, 4), (k.toNat, 3), (t.toNat, 0)]]
  | .vabs d a k t => [putFields 0xA2000000 [(d.toNat, 16), (a.toNat, 10), (k.toNat, 3), (t.toNat, 0)]]
  | .vneg d a k t => [putFields 0xA2400000 [(d.toNat, 16), (a.toNat, 10), (k.toNat, 3), (t.toNat, 0)]]
  | .vcmpEq d a b k t => [putFields 0xA2800000 [(d.toNat, 16), (a.toNat, 10), (b.toNat, 4), (k.toNat, 3), (t.toNat, 0)]]
  | .vcmpNe d a b k t => [putFields 0xA2C00000 [(d.toNat, 16), (a.toNat, 10), (b.toNat, 4), (k.toNat, 3), (t.toNat, 0)]]
  | .vcmpLt d a b k t => [putFields 0xA3000000 [(d.toNat, 16), (a.toNat, 10), (b.toNat, 4), (k.toNat, 3), (t.toNat, 0)]]
  | .vcmpLe d a b k t => [putFields 0xA3400000 [(d.toNat, 16), (a.toNat, 10), (b.toNat, 4), (k.toNat, 3), (t.toNat, 0)]]
  | .vand d a b k => [putFields 0xA3800000 [(d.toNat, 16), (a.toNat, 10), (b.toNat, 4), (k.toNat, 3)]]
  | .vor d a b k => [putFields 0xA3C00000 [(d.toNat, 16), (a.toNat, 10), (b.toNat, 4), (k.toNat, 3)]]
  | .vxor d a b k => [putFields 0xA4000000 [(d.toNat, 16), (a.toNat, 10), (b.toNat, 4), (k.toNat, 3)]]
  | .vnot d a k => [putFields 0xA4400000 [(d.toNat, 16), (a.toNat, 10), (k.toNat, 3)]]
  | .vshl d a b k => [putFields 0xA4800000 [(d.toNat, 16), (a.toNat, 10), (b.toNat, 4), (k.toNat, 3)]]
  | .vshr d a b k => [putFields 0xA4C00000 [(d.toNat, 16), (a.toNat, 10), (b.toNat, 4), (k.toNat, 3)]]
  | .vsra d a b k => [putFields 0xA5000000 [(d.toNat, 16), (a.toNat, 10), (b.toNat, 4), (k.toNat, 3)]]
  | .vcvt d a c k x r => [putFields 0xA5400000 [(d.toNat, 16), (a.toNat, 10), (c.toNat, 4), (k.toNat, 3), (x.toNat, 2), (r.toNat, 0)]]
  | .vsel d a b => [putFields 0xA5800000 [(d.toNat, 16), (a.toNat, 10), (b.toNat, 4)]]
  | .vperm d a b k => [putFields 0xA5C00000 [(d.toNat, 16), (a.toNat, 10), (b.toNat, 4), (k.toNat, 3)]]
  | .vrcpe d a k => [putFields 0xA6000000 [(d.toNat, 16), (a.toNat, 10), (k.toNat, 3)]]
  | .vrsqe d a k => [putFields 0xA6400000 [(d.toNat, 16), (a.toNat, 10), (k.toNat, 3)]]
  | .vrcp d a k => [putFields 0xA6800000 [(d.toNat, 16), (a.toNat, 10), (k.toNat, 3)]]
  | .vrsq d a k => [putFields 0xA6C00000 [(d.toNat, 16), (a.toNat, 10), (k.toNat, 3)]]
  | .vsqrt d a k => [putFields 0xA7000000 [(d.toNat, 16), (a.toNat, 10), (k.toNat, 3)]]
  | .vdiv d a b k => [putFields 0xA7400000 [(d.toNat, 16), (a.toNat, 10), (b.toNat, 4), (k.toNat, 3)]]
  | .vexp2 d a k => [putFields 0xA7800000 [(d.toNat, 16), (a.toNat, 10), (k.toNat, 3)]]
  | .vlog2 d a k => [putFields 0xA7C00000 [(d.toNat, 16), (a.toNat, 10), (k.toNat, 3)]]
  | .vsinpi d a k => [putFields 0xA8000000 [(d.toNat, 16), (a.toNat, 10), (k.toNat, 3)]]
  | .vtanh d a k => [putFields 0xA8400000 [(d.toNat, 16), (a.toNat, 10), (k.toNat, 3)]]
  | .vbcast d a k => [putFields 0xA8800000 [(d.toNat, 16), (a.toNat, 10), (k.toNat, 3)]]
  | .vredAdd d a k t => [putFields 0xA8C00000 [(d.toNat, 16), (a.toNat, 10), (k.toNat, 3), (t.toNat, 0)]]
  | .vredMax d a k t => [putFields 0xA9000000 [(d.toNat, 16), (a.toNat, 10), (k.toNat, 3), (t.toNat, 0)]]
  | .vmov d a k => [putFields 0xA9400000 [(d.toNat, 16), (a.toNat, 10), (k.toNat, 3)]]
  | .vmovxIn d k => [putFields 0xA9800000 [(d.toNat, 16), (k.toNat, 3)]]
  | .vmovxOut a k => [putFields 0xA9800001 [(a.toNat, 10), (k.toNat, 3)]]
  | .vql8 d a b k => [putFields 0xA9C00000 [(d.toNat, 16), (a.toNat, 10), (b.toNat, 4), (k.toNat, 3)]]
  | .vdl8 d a b k => [putFields 0xAA000000 [(d.toNat, 16), (a.toNat, 10), (b.toNat, 4), (k.toNat, 3)]]
  | .vld d a b k t => [putFields 0xAA400000 [(d.toNat, 16), (a.toNat, 10), (b.toNat, 4), (k.toNat, 3), (t.toNat, 0)]]
  | .vst d a b k t => [putFields 0xAA800000 [(d.toNat, 16), (a.toNat, 10), (b.toNat, 4), (k.toNat, 3), (t.toNat, 0)]]
  | .vldk d a c => [putFields 0xAAC00000 [(d.toNat, 16), (a.toNat, 10), (c.toNat, 4)]]
  | .vfmak d a n k => [putFields 0xAB000000 [(d.toNat, 16), (a.toNat, 10), (n.toNat, 4), (k.toNat, 3)]]
  | .vfmal d a two k l0 l1 => if two = 0 then [putFields 0xAB400000 [(d.toNat, 16), (a.toNat, 10), (two.toNat, 4), (k.toNat, 3)], l0.toNat] else [putFields 0xAB400000 [(d.toNat, 16), (a.toNat, 10), (two.toNat, 4), (k.toNat, 3)], l0.toNat, l1.toNat]
  | .vpush a => [putFields 0xAB800000 [(a.toNat, 10)]]
  | .vinv => [putFields 0xABC00000 []]
  | .vpop => [putFields 0xAC000000 []]
  | .vskip o => [putFields 0xAC400000 [(o.toNat, 4)]]
  | .vmovi d im => [putFields 0xB0000000 [(d.toNat, 20), (im.toNat, 0)]]
  | .vaddi d im => [putFields 0xB4000000 [(d.toNat, 20), (im.toNat, 0)]]
  | .vmuli d im => [putFields 0xB8000000 [(d.toNat, 20), (im.toNat, 0)]]
  | .vmaxi d im => [putFields 0xBC000000 [(d.toNat, 20), (im.toNat, 0)]]
  | .msetFmt g b a => [putFields 0x80000000 [(g.toNat, 8), (b.toNat, 4), (a.toNat, 0)]]
  | .msetShape n m => [putFields 0x80800000 [(n.toNat, 6), (m.toNat, 0)]]
  | .msetScale a => [putFields 0x81000000 [(a.toNat, 13)]]
  | .msetZp a => [putFields 0x81800000 [(a.toNat, 13)]]
  | .msetSparse st => [putFields 0x82000000 [(st.toNat, 0)]]
  | .mma c n q l st => [putFields 0x84000000 [(c.toNat, 19), (n.toNat, 7), (q.toNat, 6), (l.toNat, 5), (st.toNat, 1)]]
  | .mmaS c n q l st => [putFields 0x84800000 [(c.toNat, 19), (n.toNat, 7), (q.toNat, 6), (l.toNat, 5), (st.toNat, 1)]]
  | .mmaQ c n q l st => [putFields 0x85000000 [(c.toNat, 19), (n.toNat, 7), (q.toNat, 6), (l.toNat, 5), (st.toNat, 1)]]
  | .mmaL8 c n q l st => [putFields 0x85800000 [(c.toNat, 19), (n.toNat, 7), (q.toNat, 6), (l.toNat, 5), (st.toNat, 1)]]
  | .mmaPair c n q l st => [putFields 0x86000000 [(c.toNat, 19), (n.toNat, 7), (q.toNat, 6), (l.toNat, 5), (st.toNat, 1)]]
  | .mclr c => [putFields 0x88000000 [(c.toNat, 19)]]
  | .maccLd c a => [putFields 0x88800000 [(c.toNat, 19), (a.toNat, 14)]]
  | .maccSt c a => [putFields 0x89000000 [(c.toNat, 19), (a.toNat, 14)]]
  | .maccCvt c a v t st r => [putFields 0x89800000 [(c.toNat, 19), (a.toNat, 14), (v.toNat, 8), (t.toNat, 4), (st.toNat, 3), (r.toNat, 1)]]
  | .mprog d => [putFields 0x8C000000 [(d.toNat, 18)]]
  | .mwait => [putFields 0x8C800000 []]
  | .cmov h d a b q l st => [putFields 0xC0000000 [(h.toNat, 21), (d.toNat, 16), (a.toNat, 11), (b.toNat, 6), (q.toNat, 5), (l.toNat, 4), (st.toNat, 0)]]
  | .cfillA h f a b q l st => [putFields 0xC0800000 [(h.toNat, 21), (f.toNat, 16), (a.toNat, 11), (b.toNat, 6), (q.toNat, 5), (l.toNat, 4), (st.toNat, 0)]]
  | .cfillB h f a b q l st => [putFields 0xC1000000 [(h.toNat, 21), (f.toNat, 16), (a.toNat, 11), (b.toNat, 6), (q.toNat, 5), (l.toNat, 4), (st.toNat, 0)]]
  | .cbfx h a => [putFields 0xC1800000 [(h.toNat, 21), (a.toNat, 11)]]
  | .cgat h d a b q l st => [putFields 0xC2000000 [(h.toNat, 21), (d.toNat, 16), (a.toNat, 11), (b.toNat, 6), (q.toNat, 5), (l.toNat, 4), (st.toNat, 0)]]
  | .csct h d a b q l st => [putFields 0xC2800000 [(h.toNat, 21), (d.toNat, 16), (a.toNat, 11), (b.toNat, 6), (q.toNat, 5), (l.toNat, 4), (st.toNat, 0)]]
  | .catomAdd h d a b q l st => [putFields 0xC4000000 [(h.toNat, 21), (d.toNat, 16), (a.toNat, 11), (b.toNat, 6), (q.toNat, 5), (l.toNat, 4), (st.toNat, 0)]]
  | .catomMin h d a b q l st => [putFields 0xC4800000 [(h.toNat, 21), (d.toNat, 16), (a.toNat, 11), (b.toNat, 6), (q.toNat, 5), (l.toNat, 4), (st.toNat, 0)]]
  | .catomMax h d a b q l st => [putFields 0xC5000000 [(h.toNat, 21), (d.toNat, 16), (a.toNat, 11), (b.toNat, 6), (q.toNat, 5), (l.toNat, 4), (st.toNat, 0)]]
  | .catomXchg h d a b q l st => [putFields 0xC5800000 [(h.toNat, 21), (d.toNat, 16), (a.toNat, 11), (b.toNat, 6), (q.toNat, 5), (l.toNat, 4), (st.toNat, 0)]]
  | .catomCas h d a b q l st => [putFields 0xC6000000 [(h.toNat, 21), (d.toNat, 16), (a.toNat, 11), (b.toNat, 6), (q.toNat, 5), (l.toNat, 4), (st.toNat, 0)]]
  | .catomFadd h d a b q l st => [putFields 0xC6800000 [(h.toNat, 21), (d.toNat, 16), (a.toNat, 11), (b.toNat, 6), (q.toNat, 5), (l.toNat, 4), (st.toNat, 0)]]
  | .cinv a b => [putFields 0xC8000000 [(a.toNat, 11), (b.toNat, 6)]]
  | .cmark h a => [putFields 0xC8800000 [(h.toNat, 21), (a.toNat, 11)]]
  | .cxrd h d x => [putFields 0xCC000000 [(h.toNat, 21), (d.toNat, 16), (x.toNat, 6)]]
  | .cxwr h d x => [putFields 0xCC800000 [(h.toNat, 21), (d.toNat, 16), (x.toNat, 6)]]
  | .trap c => [putFields 0xE0000000 [(c.toNat, 0)]]
  | .eret => [putFields 0xE0800000 []]
  | .csrr d r => [putFields 0xE1000000 [(d.toNat, 18), (r.toNat, 0)]]
  | .csrw a r => [putFields 0xE1800000 [(a.toNat, 13), (r.toNat, 0)]]
  | .clkdiv e v => [putFields 0xE2000000 [(e.toNat, 11), (v.toNat, 0)]]
  | .hint k => [putFields 0xE2800000 [(k.toNat, 0)]]
  | .bkpt c => [putFields 0xE3000000 [(c.toNat, 0)]]
  | .trig a n => [putFields 0xE3800000 [(a.toNat, 13), (n.toNat, 0)]]
  | .yield => [putFields 0xE4000000 []]
  | .halt => [putFields 0xE4800000 []]
  | .ctxs a => [putFields 0xE5000000 [(a.toNat, 13)]]
  | .ctxl a => [putFields 0xE5800000 [(a.toNat, 13)]]
  | .resultLand _ => []
  | .loopPassStart _ _ => []
  | .phaseComplete _ _ => []
  | .barrierComplete _ => []
  | .barrierRelease _ => []
  | .messageArrival _ => []
  | .kStepStart _ => []
  | .kStepEnd _ => []
  | .kStepLand _ => []
  | .translationStep _ _ => []
  | .tableWalkComplete _ => []
  | .copyBeatIssue _ _ => []
  | .copyReadDataReady _ => []
  | .copyWritePerform _ => []
  | .offcoreWriteComplete _ => []
  | .atomicPerform _ => []
  | .atomicResultLand _ => []
  | .copyCommandComplete _ => []
  | .crossingSampleEnter _ _ => []
  | .lateDataPoison _ => []
  | .lateDataArrival _ => []
  | .residentRewalk _ => []
  | .ctxsComplete _ => []
  | .ctxlComplete _ => []
  | .bindOff _ => []
  | .compositeRecordWrite _ => []
  | .actionResume _ => []
  | .actionAbort _ => []
  | .preemptionRequest _ => []
  | .preemptionStop _ => []
  | .preemptionSave _ => []
  | .contextRestore _ => []
  | .haltWaveArrival _ => []
  | .jobStep _ => []
  | .jobResume _ => []
  | .resumeAtTr _ => []
  | .triggerWindowOpen _ _ => []
  | .triggerWindowClose _ _ => []
  | .watchReport _ _ => []
  | .arm _ => []
  | .jobRetire _ => []
  | .watchedWordWrite _ _ => []
  | .kernelCastOn _ => []
  | .kernelStart _ => []
  | .nodeRetire _ => []
  | .cond _ => []
  | .loopNode _ => []
  | .switch _ => []
  | .join _ => []
  | .watchNode _ => []
  | .sourceSample _ _ => []
  | .sampleMissed _ => []
  | .gaugeLock _ => []
  | .gaugeClamp _ => []
  | .gaugeUnclamp _ => []
  | .holdoverEntry _ => []
  | .holdoverRelock _ => []
  | .sampleBoundary _ => []
  | .holdoverExpiry _ => []
  | .regionFreeze _ => []
  | .thaw _ => []
  | .watchdog _ => []
  | .powerControlInterval _ _ _ => []
  | .shedSave _ => []
  | .shedClear _ => []
  | .regionReadmit _ => []
  | .capLeaseExpiry => []
  | .capmsg _ _ _ => []
  | .patrolScrubError _ _ => []
  | .jregRegister _ _ _ => []
  | .jobRegistration _ _ => []
  | .jregFree _ _ => []
  | .ilen _ _ => []
  | .invalidationDone _ => []
  | .ptroot _ _ => []
  | .checkpointSave => []
  | .checkpointRestore => []
  | .checkpointDone => []
  | .registerWrite _ _ _ => []
  | .bar2Write _ _ _ => []
  | .bar2Read _ _ _ => []
  | .tdiExit _ => []
  | .samplesFrame _ _ => []
  | .keepAliveRx _ _ => []
  | .creditRx _ _ => []
  | .endOfStreamRx _ _ => []
  | .keepAliveTx _ _ => []
  | .creditTx _ _ => []
  | .linkTimeout _ _ => []
  | .transmit _ _ _ => []
  | .ptpMessage _ => []
  | .hostCadenceSample _ _ _ => []
  | .linkTraining _ _ => []
  | .readRequest _ _ => []
  | .write _ _ => []
  | .atomic _ _ => []
  | .readResponse _ _ => []
  | .atomicResponse _ _ => []
  | .gauge _ _ => []
  | .haltWave _ _ => []
  | .resume _ _ => []
  | .step _ _ => []
  | .watchReportFlit _ _ => []
  | .time _ _ => []
  | .flitFailure _ => []
  | .portDown _ => []
  | .keyUpdate _ => []
  | .boot _ => []
  | .getVersion _ => []
  | .getCapabilities _ => []
  | .negotiateAlgorithms _ _ => []
  | .getDigests _ => []
  | .getCertificate _ _ => []
  | .challenge _ _ => []
  | .getMeasurements _ _ => []
  | .keyExchange _ _ _ => []
  | .finish _ _ => []
  | .endSession _ _ => []
  | .setKey _ _ _ => []
  | .regionCycle _ => []
  | .compositeRecordComplete _ => []
  | .tdispMessage _ _ => []

/-- The words of an instruction. -/
def encode (i : Instr) : List W32 := (encodeNat i).map (BitVec.ofNat 32)

end Sys2Proof
end

