-- ==== Sys2Proof/Config.lean ====
section
/-! DEFINITION. The figures the manual fixes for the part, and the FREE VALUES: opaque constants with no body, so that nothing in
Lean can evaluate one. A step applies a free value to the plain counter `State.free` (or to the operands named here). -/

namespace Sys2Proof.Config

/-- Free choice number `n` (log 3, DESIGN CHOICE): the model reduces it modulo the number of outcomes that the manual allows. -/
opaque choice : Nat → Nat
/-- Whether an off-core beat that the manual does not promise in time is late (R233, R236; log 4). -/
opaque congested : Nat → Bool
/-- Whether the writer of write `n` of another package belongs to the region, pattern or job (scope 4, 7 or 8) of region `r` (R30, R316; log 103,
DEDUCED), of the scope, `n` and `r`. -/
opaque kin : Nat → Nat → Nat → Bool
/-- A value that the manual leaves undefined or does not state (log 5, DESIGN CHOICE). -/
opaque freeWord : Nat → BitVec 64
/-- What a byte deciphers to under a key that is not the one of its block (R245; log 5, DESIGN CHOICE): of the block's plain bytes, the key that they
were enciphered under, the key of the read, and the address of the byte, whose block is the tweak. -/
opaque noise : List (BitVec 8) → Option (BitVec 512) → Option (BitVec 512) → Nat → BitVec 8
/-- How many corrected errors a die has found since its count was last read (R234, R237, R302; log 84, DESIGN CHOICE). -/
opaque corrected : Nat → Nat
/-- Idle flits that a port direction has carried before its next flit, of the port, its keys' number and the count so far (R317; log 95, DEDUCED). -/
opaque idleFlits : Nat → Nat → Nat → Nat
/-- Signature, digest and key-exchange values of SPDM responses, which the manual does not give (R320; log 6). -/
opaque spdmBytes : Nat → List Byte

/-- What PTM adds to a host time to give the reference timebase, ns (R314; log 44). -/
opaque ptmOffset : Nat

/-- Units of a package (R3). -/
def nUnits : Nat := 160
/-- Unit store bytes (R228). -/
def unitStoreBytes : Nat := 0x400000
/-- Cluster store bytes (R228). -/
def clusterStoreBytes : Nat := 0x1000000
/-- Die store bytes (R228). -/
def dieStoreBytes : Nat := 0x6000000
/-- Device memory bytes of one die, 192 GiB (R235). -/
def dieMemoryBytes : Nat := 0x3000000000
/-- Words of an instruction store (R33). -/
def istoreWords : Nat := 65536
/-- Size of a context record (R218). -/
def ctxBytes : Nat := 0x500000
/-- 64-byte blocks of a context record (R218). -/
def ctxBlocks : Nat := 81920
/-- MAGIC of a context record (R221). -/
def ctxMagic : Nat := 0x0D160C7C
/-- MAGIC of a composite record (R278). -/
def recMagic : Nat := 0x0D160C7E
/-- Declared latency of the unit's own die's device memory, ns (R27). -/
def nsOwnDie : Nat := 900
/-- Declared latency of the other die's device memory or die store, ns (R27). -/
def nsOtherDie : Nat := 1100
/-- Declared latency of another package at `h` hops, ns (R27). -/
def nsRemote (h : Nat) : Nat := 1600 + 500 * h
/-- Declared latency of host memory, ns (R27). -/
def nsHost : Nat := 4000
/-- Lx, the translation step, ns (R182). -/
def nsTranslate : Nat := 100
/-- Requests ahead of which a memory channel still promises the declared latency (R236). -/
def channelQueue : Nat := 128
/-- Beats ahead of which the die-to-die link still promises the declared latency (R233). -/
def linkQueue : Nat := 2500

end Sys2Proof.Config
end

