-- ==== Sys2Proof/Machine/Memory.lean ====
section
/-! DEFINITION. Byte memories: a list of (address, byte) pairs in one canonical form, an unlisted address reading as zero; and stores
that keep, after their settled bytes, the recent writes in the order in which they were performed (R89, R180, R181, R248). -/

namespace Sys2Proof.Machine

/-- A byte memory: addresses strictly rising, no listed byte equal to 0, which is what an unlisted address reads as (log 2, DESIGN CHOICE). -/
abbrev Mem := List Host.Cell

/-- The canonical form: addresses strictly rise and no entry holds 0. -/
def Mem.wf : Mem → Bool
  | [] => true
  | [(_, b)] => b != 0
  | (a, b) :: (a', b') :: m => b != 0 && decide (a < a') && Mem.wf ((a', b') :: m)

/-- The byte at an address. -/
def Mem.read : Mem → Nat → Byte
  | [], _ => 0
  | (a, b) :: m, x => if x < a then 0 else if x = a then b else Mem.read m x

/-- Write one byte, keeping the canonical form: writing 0 removes the entry. -/
def Mem.write : Mem → Nat → Byte → Mem
  | [], x, v => if v = 0 then [] else [(x, v)]
  | (a, b) :: m, x, v =>
    if x < a then (if v = 0 then (a, b) :: m else (x, v) :: (a, b) :: m)
    else if x = a then (if v = 0 then m else (x, v) :: m)
    else (a, b) :: Mem.write m x v

/-- Write the bytes `bs` at `x` and upward. -/
def Mem.writes : Mem → Nat → List Byte → Mem
  | m, _, [] => m
  | m, x, b :: bs => Mem.writes (m.write x b) (x + 1) bs

/-- The `n` bytes at `x` and upward. -/
def Mem.bytes (m : Mem) (x n : Nat) : List Byte := (List.range n).map fun k => m.read (x + k)

/-- Little-endian value of a list of bytes (R4). -/
def leNat : List Byte → Nat
  | [] => 0
  | b :: bs => b.toNat + 256 * leNat bs

/-- The `n` little-endian bytes of a value. -/
def leBytes : Nat → Nat → List Byte
  | 0, _ => []
  | n + 1, v => BitVec.ofNat 8 v :: leBytes n (v / 256)

/-- The little-endian value of the `n` bytes at `x`. -/
def Mem.nat (m : Mem) (x n : Nat) : Nat := leNat (m.bytes x n)

/-- One byte of a write: its address, its value and the bits it writes (a packed-nibble store writes four, R146). -/
structure WCell where
  addr : Nat
  val  : Byte
  mask : Byte
  deriving DecidableEq, Repr

/-- An agent as scopes see it (R30): package unit number (200 the host, 201 a system core, 202 a unit of another package, 203 a crossing, 204 a
stream port), region, pattern, job, partition and, of a unit, the cast-on that it runs with its placement index; `outside` in the fields that it
does not have (log 99, DEDUCED). A crossing's last two fields are the cast-ons of its producer and its consumer; the last of a unit of another
package is the number of its write. -/
structure Agent where
  unit    : Nat
  region  : Nat
  pattern : Nat
  job     : Nat
  part    : Nat
  cast    : Nat
  place   : Nat
  deriving DecidableEq, Repr

/-- No region, pattern or job. -/
def outside : Nat := 0xFFFFFFFF

/-- The same unit of one cast-on, wherever it runs: a unit keeps its writes as its own over a restore (R184, R286; log 99, DEDUCED). -/
def Agent.same (a b : Agent) : Bool := a.cast == b.cast && a.place == b.place && decide (a.unit < 160) && decide (b.unit < 160)

/-- A release that covers a write (R120): its scope, the time of its completion in ns (numerator and denominator), the agent that released,
the barrier instance whose completion it is (R122; 0 where it is none), its place in the order in which writes are performed (`WriteRec.id`), and
its place in the order of boundaries between regions (R247). -/
structure Release where
  scope : Nat
  num   : Nat
  den   : Nat
  who   : Agent
  bar   : Nat
  n     : Nat
  place : Nat
  deriving DecidableEq, Repr

/-- A snapshot of a unit (R120): the scope of its last boundary or acquire, its completion time, the barrier instance that it belongs to (0 none),
and its place in the order of boundaries between regions (R247; log 103, DEDUCED). Writes numbered below `base` are in it by the arm of the job
(R254), and `held` are those in it by an earlier acquire, a host write before it or a node's read (R120, R262, R306, R331). -/
structure Snapshot where
  scope : Nat
  num   : Nat
  den   : Nat
  bar   : Nat
  place : Nat
  base  : Nat
  held  : List Nat
  deriving DecidableEq, Repr

/-- The snapshot of an agent that has acquired nothing. -/
def Snapshot.zero : Snapshot := ⟨0, 0, 1, 0, 0, 0, []⟩

/-- The unit of another package that made write `a.place` is a unit of `b`'s region, pattern or job, which no flit says (R316): free for each write
and scope, within one partition (log 103, DEDUCED). -/
def Agent.kin (s : Nat) (a b : Agent) : Bool :=
  a.unit == 202 && decide (b.unit < 160) && a.part == b.part && Config.kin s a.place b.region

/-- Scope `s` of one of the two agents contains the other (R30). -/
def Agent.within (s : Nat) (a b : Agent) : Bool :=
  let core := decide (a.unit < 160) && decide (b.unit < 160)
  match s with
  | 0 | 1 => a.unit == b.unit && core
  | 2 => a.unit / 8 == b.unit / 8 && core
  | 3 => a.unit / 16 == b.unit / 16 && core
  | 4 => (a.region == b.region && a.region != outside) || Agent.kin s a b
  | 5 => a.unit / 80 == b.unit / 80 && core
  | 6 => core
  | 7 => (a.pattern == b.pattern && a.pattern != outside) || Agent.kin s a b
  | 8 => (a.job == b.job && a.job != outside) || Agent.kin s a b
  | 9 => a.part == b.part && decide (a.unit < 203) && decide (b.unit < 203)
  | 10 => decide (a.unit < 202) && decide (b.unit < 202)
  | _ => true

/-- A write that has been performed on a store. `at_` is the writer's region cycle at whose end the write was performed, `done` the cycle
in which it completes (R184), and of a stream port's write the two are the instant in ns, numerator and denominator (R313); `cls` is 0 for walker stores, 1 for copy beats and 2 for atomics; `key` orders writes of one cycle and class
(R90, R181). -/
structure WriteRec where
  id     : Nat
  who    : Agent
  at_    : Nat
  done   : Nat
  cls    : Nat
  key    : Nat
  /-- The copy command that wrote it: channel and transfer ID, where there is one. -/
  cmd    : Option (Nat × Nat)
  cells  : List WCell
  rels   : List Release
  /-- What the writer had acquired when its beat issued (R120, R331). -/
  snap   : Snapshot
  deriving DecidableEq, Repr

/-- A store: its settled bytes and the writes since, oldest first. -/
structure Store where
  base : Mem
  log  : List WriteRec
  deriving DecidableEq, Repr

/-- Apply one byte of a write. -/
def Mem.put (m : Mem) (c : WCell) : Mem := m.write c.addr ((m.read c.addr &&& ~~~c.mask) ||| (c.val &&& c.mask))

/-- Apply a whole write. -/
def Mem.apply (m : Mem) (w : WriteRec) : Mem := w.cells.foldl Mem.put m

/-- The byte that a write leaves where `b` stood at `a`. -/
def WriteRec.over (w : WriteRec) (a : Nat) (b : Byte) : Byte :=
  w.cells.foldl (fun b c => if c.addr = a then (b &&& ~~~c.mask) ||| (c.val &&& c.mask) else b) b

/-- The byte at `a` as the writes that `sees` accepts leave it. -/
def Store.readBy (s : Store) (sees : WriteRec → Bool) (a : Nat) : Byte :=
  s.log.foldl (fun b w => if sees w then w.over a b else b) (s.base.read a)

/-- The byte at `a` with every performed write. -/
def Store.read (s : Store) (a : Nat) : Byte := s.readBy (fun _ => true) a

/-- The `n` bytes at `a` with every performed write. -/
def Store.bytes (s : Store) (a n : Nat) : List Byte := (List.range n).map fun k => s.read (a + k)

/-- The order of the writes of one store: the cycle, then the class, then the key (R90, R181). -/
def WriteRec.before (v w : WriteRec) : Bool :=
  v.at_ < w.at_ || (v.at_ == w.at_ && (v.cls < w.cls || (v.cls == w.cls && v.key ≤ w.key)))

/-- Insert a write into a log behind the writes ordered before it; writes of other regions keep their place. -/
def insertWrite (w : WriteRec) : List WriteRec → List WriteRec
  | [] => [w]
  | v :: vs => if v.who.region != w.who.region || v.before w then v :: insertWrite w vs else w :: v :: vs

/-- Perform a write on a scratchpad. -/
def Store.perform (s : Store) (w : WriteRec) : Store := { s with log := insertWrite w s.log }

/-- A write `v` comes behind the write that the agent `who` makes by a beat of place `key`, at the byte `a`, for being made by a later beat of the
same unit (R248). -/
def WriteRec.behind (v : WriteRec) (who : Agent) (key a : Nat) : Bool := v.who.same who && decide (key < v.key) && v.cells.any fun c => c.addr == a

/-- Insert a write into the coherence order of its bytes: each before the writes that the same unit's later beats have already made of it, the
others at the end (R248). -/
def insertCoherent (w : WriteRec) : List WriteRec → List WriteRec
  | [] => [w]
  | v :: vs =>
    let early := fun (c : WCell) => v.behind w.who w.key c.addr
    if w.cells.all early then w :: v :: vs
    else if w.cells.any early then
      { w with cells := w.cells.filter early } :: v :: insertCoherent { w with cells := w.cells.filter fun c => !early c } vs
    else v :: insertCoherent w vs

/-- Perform a write off-core: at the end of the coherence order, each unit's writes in the order in which their beats issued (R248). -/
def Store.append (s : Store) (w : WriteRec) : Store := { s with log := insertCoherent w s.log }

/-- The byte at `a` as an atomic of the agent `who` by a beat of place `key` finds it: after every write that comes before its own in the coherence
order (R195, R248). -/
def Store.readBefore (s : Store) (who : Agent) (key a : Nat) : Byte :=
  (s.log.takeWhile fun v => !v.behind who key a).foldl (fun b w => w.over a b) (s.base.read a)

/-- Settle the oldest writes for as long as `old` holds of them: no reader can tell them from the settled bytes any more. -/
def settle (old : WriteRec → Bool) : Mem → List WriteRec → Store
  | m, [] => ⟨m, []⟩
  | m, w :: ws => if old w then settle old (m.apply w) ws else ⟨m, w :: ws⟩

/-- Settle a store. -/
def Store.settle (s : Store) (old : WriteRec → Bool) : Store := Sys2Proof.Machine.settle old s.base s.log

/-- A store whose bytes are all zero. -/
def Store.zero : Store := ⟨[], []⟩

/-- A whole-byte write cell. -/
def cell (a : Nat) (b : Byte) : WCell := ⟨a, b, 0xFF⟩

/-- The cells of the bytes `bs` at `a` and upward. -/
def cellsAt : Nat → List Byte → List WCell
  | _, [] => []
  | a, b :: bs => cell a b :: cellsAt (a + 1) bs

end Sys2Proof.Machine
end

