-- ==== Sys2Proof/Machine/Unit.lean ====
section
/-! DEFINITION. The state of one unit (R8-R22, R31): its four walkers, the steer registers and queues they share, its engines and the
results and beats they have in flight. Cycles are region cycles (`RCC`) unless a field says otherwise; `ic` counts a walker's own issue
cycles. -/

namespace Sys2Proof.Machine

/-- A 64-bit value with its poison bit (R20). -/
structure Val where
  bits   : W64
  poison : Bool
  deriving DecidableEq, Repr

/-- The zero value with poison clear. -/
def Val.zero : Val := ⟨0, false⟩

/-- Faults of a unit, codes 1 to 14 of `CAUSE`.CODE (R205, R275). -/
inductive Cause where
  | illegal | access | xlate | formatGranule | scheduleMiss | slip | timing | returnUnderflow | memUe | watch | bkpt | trap
  | preempt | watchdog
  deriving DecidableEq, Repr

/-- The precision class of a fault (R275): precise, imprecise, unit. -/
inductive FaultClass where
  | p | i | u
  deriving DecidableEq, Repr

/-- One part of the pass tag of a steer entry (R111): the loop level of the writer that holds the word, its pass, and whether the
level is still active in the writer. -/
structure TagPart where
  loopWord : Nat
  pass     : Nat
  isOpen   : Bool
  deriving DecidableEq, Repr

/-- An entry of a steer register's history (R13, R14, R91, R111). `tAt` is the issue cycle of the `prep` or `mvst` that set T
(R100). -/
structure SteerEntry where
  seq  : Nat
  word : Nat
  c    : Bool
  t    : Nat
  tv   : Bool
  pc   : Bool
  pt   : Bool
  tAt  : Option Nat
  wk   : Nat
  tag  : List TagPart
  deriving DecidableEq, Repr

/-- A steer register: the history, highest sequence number first (at most 4), and the number of writes so far (R14). -/
structure Steer where
  hist  : List SteerEntry
  count : Nat
  deriving DecidableEq, Repr

/-- What a walker keeps for each steer register (R14, R112): the steer-writing words passed, modulo 2^16, the word index of the
latest, whether there was one since cast-on, and the passes of the walker's levels when it last passed that word. -/
structure SteerCount where
  n      : Nat
  word   : Nat
  any    : Bool
  passes : List (Nat × Nat)
  deriving DecidableEq, Repr

/-- What a steer-writing word writes (R91-R96): a field left `none` is copied at landing. `squashed` is the copy of R111. -/
structure SteerWrite where
  reg      : Nat
  word     : Nat
  wk       : Nat
  c        : Option (Bool × Bool)
  t        : Option (Nat × Bool)
  issued   : Nat
  tag      : List TagPart
  /-- The sequence number that an earlier pass gave this body word (R111). -/
  seq      : Option Nat
  inBody   : Bool
  squashed : Bool
  deriving DecidableEq, Repr

/-- A loop level of a modulo sequencer (R16, R107-R114). `word` is the index of the `loop` word; `pass` the pass it runs or is about to
start; `first` the pass in which body words count (R111); `drain` the pass pd of R114, when a request drains the level. -/
structure Level where
  word    : Nat
  trip    : Nat
  stages  : Nat
  ii      : Nat
  len     : Nat
  last    : Nat
  from_   : Nat
  reg     : Nat
  pass    : Nat
  started : Bool
  /-- Issue cycle (of the walker) in which the current pass began. -/
  began   : Nat
  /-- The issue cycle after the last word of the pass issued or was squashed. -/
  after   : Nat
  first   : Nat
  drain   : Option Nat
  deriving DecidableEq, Repr

/-- What a walker has done in the current region cycle: still walking, having passed `n` words, or finished, with the class that
`HEADwk` counts and the flag it waits on (R36, R299, R300); class 4 for a cycle that its unit does not run, which counts nothing. -/
inductive Slot where
  | walking (n : Nat)
  | done (cls : Nat) (flag : Option Nat)
  deriving DecidableEq, Repr

/-- A place in the walk of a walker for `wsync` (R117): the word index, the words passed before it, the cycle in which it was passed, and
the passes of its levels. -/
structure Place where
  word   : Nat
  count  : Nat
  cycle  : Nat
  passes : List (Nat × Nat)
  deriving DecidableEq, Repr

/-- A skein entry (R17, R153): data and side records as bytes at 128 r + b and 64 r + b, SV and poison. `order` is the order of its
slot's reservation (R190), `landed` whether it has landed, `cmd` the fill (channel and transfer ID) and entry it belongs to, and `refill`
marks an entry of a fill that a restore runs again (R200). -/
structure SkEntry where
  data   : Mem
  side   : Mem
  sv     : Bool
  poison : Bool
  landed : Bool
  order  : Nat
  chan   : Nat
  tid    : Nat
  entry  : Nat
  refill : Bool
  deriving DecidableEq, Repr

/-- A configuration set of the matrix engine (R155). -/
structure Cfg where
  fmt     : W32
  shape   : W32
  scale   : W32
  zp      : W32
  sparse  : Bool
  scalePs : Bool
  zpPs    : Bool
  deriving DecidableEq, Repr

/-- The configuration at cast-on (R31, R155). -/
def Cfg.reset : Cfg := ⟨0x044, 0xFFF, 0x3C003C00, 0, false, false, false⟩

/-- The fields of a configuration set that an `mset` word writes (R156). -/
inductive CfgField where
  | fmt | shape | scale | zp | sparse
  deriving DecidableEq, Repr

/-- The commands that a release covers (R118, R122, R168, R185): those below a transfer ID on each channel; `last` is the latest
completion of a covered write among the beats issued so far. -/
structure Cover where
  ids  : List Nat
  last : Nat
  deriving DecidableEq, Repr

/-- A running or stopped matrix multiply (R159): `op` is its op6, `next` the next k-step to start, `startAt` the earliest start of
that k-step, `waited` whether that k-step has been found without its entries, `d` the divisor it keeps (R160). -/
structure Mult where
  op      : Nat
  acc     : Nat
  n       : Nat
  d       : Nat
  acq     : Bool
  rel     : Bool
  scope   : Nat
  cfg     : Cfg
  next    : Nat
  startAt : Nat
  resumed : Bool
  seq     : Nat
  /-- The earliest start was missed: the k-step starts when its entries are available (R159). -/
  waiting : Bool
  /-- End of the last k-step that started, the region cycle after it. -/
  freeAt  : Nat
  /-- `.rel` (R168): the landing of the last k-step, the transfer IDs that the release covers, and its completion, once known. -/
  relBase : Option Nat
  cover   : Cover
  relAt   : Option Nat
  deriving DecidableEq, Repr

/-- A k-step that has started (R159): what it consumed, and when it ends and lands. -/
structure KStep where
  op      : Nat
  acc     : Nat
  j       : Nat
  d       : Nat
  cfg     : Cfg
  a       : List SkEntry
  b       : List SkEntry
  /-- The partner's entries, for `mma.pair` (R164). -/
  pa      : List SkEntry
  pb      : List SkEntry
  start   : Nat
  endAt   : Nat
  landAt  : Nat
  seq     : Nat
  ended   : Bool
  /-- The k-step that matched the partner's, or that is checked against it at s + 16 d (R165). -/
  paired  : Bool
  deriving DecidableEq, Repr

/-- An accumulator window: 4,096 elements, row-major (R17, R166). -/
structure Acc where
  el     : List W32
  poison : Bool
  deriving DecidableEq, Repr

/-- A vector register (R18). -/
structure VReg where
  lanes  : List W32
  poison : Bool
  deriving DecidableEq, Repr

/-- What lands at the end of a cycle. -/
inductive Eff where
  /-- A scalar register, by physical number: 0-15, then 16 + 16 k + j - 16 for register j of window k (R11). -/
  | x (wk phys : Nat) (v : Val)
  /-- The same by an agent other than the walker's pipeline (R26). -/
  | ext (wk phys : Nat) (v : Val)
  /-- A queue entry; `ext` an external write. -/
  | push (q : Nat) (v : Val) (ext : Bool)
  | steer (w : SteerWrite)
  /-- A scalar load issued in `cut`: `push` names the queue it lands in, else the register (R87, R89). -/
  | load (wk phys : Nat) (push : Option Nat) (addr size : Nat) (signed : Bool) (cut : Nat)
  /-- Lanes of a vector register; the poison of R128 is settled at landing. -/
  | lanes (reg : Nat) (ls : List (Nat × W32)) (poison all : Bool) (flags : W64) (ext : Bool)
  /-- A vector load: lane, address and the cut of its beat; `width` 4, 2, 1, or 0 and 8 for the low and high nibble (R145-R147). -/
  | vload (reg : Nat) (ls : List (Nat × Nat × Nat × Nat)) (all : Bool)
  /-- Constant entries (R148). -/
  | kload (f count addr cut : Nat)
  | kset (f count : Nat) (poison : Bool)
  /-- A walker's store (R89): the cells, the walker, its program order. -/
  | store (wk key : Nat) (cells : List WCell)
  /-- Flags raised in a walker's `FLAGS` (R21, R126). -/
  | flags (wk : Nat) (f : W64)
  /-- `pclr` (R126). -/
  | pclr (wk : Nat)
  /-- `csrw` (R206): the register's address and its new value. -/
  | csr (reg : Nat) (v : W64)
  | cfg (f : CfgField) (v : W32) (poison : Bool)
  /-- `active := shadow; MPC := 0` (R159), the shadow set being the one that the multiply latched at its issue (R155). -/
  | latch (c : Cfg)
  | mclr (acc : Nat)
  /-- `macc.ld` (R166): the address and the cycle and divisor of the issue; poisoned. -/
  | accLoad (acc addr t d : Nat) (poison : Bool)
  /-- `n` bytes of the unit store that a word has read as a walker load of its cycle, and that may be in error (R193, R213, R234). -/
  | probe (addr n : Nat)
  /-- A refill of a window (R103): address and cut. -/
  | refill (wk win addr cut : Nat)
  /-- An acquire completes: the unit's snapshot (R120, R168, R185). -/
  | acquire (scope : Nat)
  /-- `TSTAT` and `EPC` of a `trap` or `eret` (R208, R209). -/
  | trapIn (epc code : Nat)
  | trapOut
  /-- Walker `wk`'s level of loop word `loop` has ended: its part of the tags closes (R111). -/
  | close (wk loop : Nat)
  deriving DecidableEq, Repr

/-- A result in flight: `due` is the cycle at whose end it lands, `rank` and `seq` its place among the results of that cycle. -/
structure Pend where
  due  : Nat
  rank : Nat
  seq  : Nat
  eff  : Eff
  deriving DecidableEq, Repr

/-- A walker (R8-R16, R21, R22, R101). -/
structure Walker where
  /-- `x0`-`x15`, then the 8 windows of 16 registers (R10, R11). -/
  x        : List Val
  wp       : Nat
  res      : Nat
  ras      : List Nat
  spilln   : W64
  spillb   : W64
  spilll   : W64
  inner    : Option Level
  outer    : Option Level
  flags    : W64
  epc      : W64
  /-- NEXT: the word index at which the walker stands. -/
  idx      : Nat
  /-- WCNT: the words passed since cast-on (R9, R111). -/
  count    : Nat
  steers   : List SteerCount
  /-- K of R116 for each channel. -/
  copies   : List Nat
  inflight : List Pend
  slot     : Slot
  /-- Issue cycles of the walker since cast-on, counting the current one. -/
  ic       : Nat
  /-- The first of its issue cycles in which the walker may consider its word (R100). -/
  ready    : Nat
  /-- The cycle since which the walker stands at its word. -/
  since    : Option Nat
  /-- Cycle until which a `phase` it issued holds it, once known (R118). -/
  held     : Bool
  /-- The `recvc` it stands at has been matched (R124). -/
  matched  : Bool
  /-- The walker has stopped for a drain, a pre-emption or a freeze request (R258, R274, R284). -/
  stopped  : Bool
  /-- It issued `waits` since the last sample boundary (R269). -/
  beat     : Bool
  /-- Sequence numbers of steer-writing body words: register, word, number (R111). -/
  bodySeq  : List (Nat × Nat × Nat)
  /-- Counts n held by steer-writing body words: register, word, count (R111). -/
  bodyN    : List (Nat × Nat × Nat)
  /-- The word indices of the latest counted words, newest first (R117). -/
  trail    : List Nat
  /-- The `wsync` words it went past (R117). -/
  synced   : List Place
  /-- External writes that landed in the last cycles (R26, R110): 256 n + register for one that landed at the end of cycle n. -/
  extLast  : List Nat
  /-- `HEADw0`-`HEADw3` (R204, R299). -/
  head     : List W64
  /-- `WCNT` at the end of the previous cycle (R206). -/
  was      : Nat
  deriving DecidableEq, Repr

/-- Where bytes lie: the unit's own store, a cluster store (0-19), a die store, the package's device memory, another package's, host memory, or, for
a late beat of a command whose translation was not ready, nowhere, since no page maps them (R182). -/
inductive Space where
  | unit
  | cluster (c : Nat)
  | die (d : Nat)
  | dram
  | remote (pkg : Nat)
  | host
  | nowhere
  deriving DecidableEq, Repr

/-- A write that struck a watched range (R296-R298, R330): the time (ns, numerator and denominator) from which it can open the window, its
class, the walker, or the channel, transfer ID and beat, the lowest matching byte of the 16, its origin, and whether an atomic made it. -/
structure Hit where
  num    : Nat
  den    : Nat
  cls    : FaultClass
  chan   : Nat
  tid    : Nat
  beat   : Nat
  i      : Nat
  origin : W32
  atom   : Bool
  deriving DecidableEq, Repr

/-- A trigger (R213, R214). -/
structure Trigger where
  armed   : Bool
  isOpen  : Bool
  fired   : Bool
  start   : W64
  stop    : W64
  addr    : W64
  mode    : W64
  /-- The first armed cycle. -/
  from_   : Nat
  openAt  : Nat
  /-- A watched device range is still being translated (R213): the cycle of the step. -/
  xlAt    : Option Nat
  /-- The watched range: its space and address there. -/
  pa      : Option (Space × Nat)
  /-- The fault that the translation step will raise (R213). -/
  xlFault : Option Cause
  /-- START and STOP hold in the current cycle (R213, R214). -/
  seenS   : Bool
  seenP   : Bool
  /-- The cycle in which a KIND 2 or 5 opening stops the unit (R214). -/
  stopDue : Option Nat
  /-- Matches that have not yet been served, held ones among them (R330). -/
  struck  : List Hit
  /-- The number of its arming, by which a match tells the arming that it was made under from a later one (R330). -/
  serial  : Nat
  deriving DecidableEq, Repr

/-- An entry of the trace buffer (R301). -/
structure Trace where
  kind  : Nat
  num   : Nat
  tid   : Nat
  val   : W64
  opened : Nat
  closed : Nat
  deriving DecidableEq, Repr

/-- What a node's reads of watched or tested words have acquired for its successors (R262): the host's writes numbered below `host`; for each unit
that wrote such a word the releases that come before its write, and what it had itself acquired by then (R331); and a place behind all of these in
the order of boundaries between regions (R247). -/
structure Acq where
  host  : Nat
  fixed : List (Nat × Nat)
  snaps : List (Agent × Snapshot)
  place : Nat
  deriving DecidableEq, Repr

/-- The kinds of copy command (R186-R199). -/
inductive CopyOp where
  | cmov | cfillA | cfillB | cgat | csct | catom (op : Nat) | cmark | cxrd | cxwr
  deriving DecidableEq, Repr

/-- A translated page of a command (R182, R238): the base and size of the page's virtual range, its target space (0 this package's device
memory, 1 another package's, 2 host memory), physical base, package, format, group length, planes and rights. -/
structure Page where
  va    : Nat
  size  : Nat
  space : Nat
  pa    : Nat
  pkg   : Nat
  part  : Nat
  fmt   : Nat
  group : Nat
  spo   : Nat
  zpo   : Nat
  r     : Bool
  w     : Bool
  at_   : Bool
  deriving DecidableEq, Repr

/-- `n` bytes at an address of a space, under the key of partition `part` (R245). -/
structure Piece where
  space : Space
  addr  : Nat
  n     : Nat
  part  : Nat
  deriving DecidableEq, Repr

/-- What a beat writes. -/
inductive Sink where
  | mem (p : Piece)
  /-- A skein entry by its reservation order: `b` for `skb`, `side` for the side part, the first byte. -/
  | skein (b : Bool) (order : Nat) (side : Bool) (at_ : Nat)
  | atomic (p : Piece)
  /-- A producer sample of crossing `x`, from byte `at_` on (R198). -/
  | sample (x n at_ : Nat)
  deriving DecidableEq, Repr

/-- How the bytes that a beat reads become the bytes that it writes. -/
inductive Shaping where
  | raw
  /-- Bit fields (R192): pattern, first element, elements, stream byte at which the read begins, bytes that carry data. -/
  | bits (pattern : W64) (first count start valid : Nat)
  /-- A side record from planes (R241): groups; the scales come first, then the zero points. -/
  | planes (groups : Nat)
  /-- Bytes `at_` and on of the command's output (R199). -/
  | output (at_ : Nat)
  deriving DecidableEq, Repr

/-- A beat as it is laid out before it issues: what it reads and writes, its bytes, and the path slots it takes (0 unit store, 1 skein,
2 cluster, 3 die, 4 off-core) (R179). -/
structure Plan where
  reads  : List Piece
  sink   : Sink
  shape  : Shaping
  n      : Nat
  slots  : List Nat
  deriving DecidableEq, Repr

/-- A copy command (R177-R200). -/
structure Cmd where
  op      : CopyOp
  chan    : Nat
  tid     : Nat
  word    : W32
  t       : Nat
  d       : W64
  a       : W64
  b       : W64
  acq     : Bool
  rel     : Bool
  scope   : Nat
  /-- Moves nothing (R176, R195, R199). -/
  poison  : Bool
  /-- The latched pattern of a `.bf` fill (R191). -/
  pattern : Option W64
  /-- The index list of `cgat` and `csct`, read at issue (R193). -/
  index   : List Nat
  /-- The crossing, the sample number and the sample size of `cxrd` and `cxwr`, and the output bytes with the status beat. -/
  cross   : Nat
  sample  : Nat
  z       : Nat
  out     : List Byte
  sampled : Bool
  /-- The destination of a `catom`: a physical register, or a queue. -/
  dest    : Option (Sum Nat Nat)
  /-- The first cycle in which a beat may issue, after translation and acquire (R182, R185). -/
  from_   : Nat
  /-- The cycle of the translation step, while it is to come (R182), the pages, and the fault that it raises, with the address. -/
  xlAt    : Option Nat
  pages   : List Page
  xlFault : Option (Cause × Nat)
  /-- The translation was not ready: every beat is late (R182). -/
  late    : Bool
  /-- Beats in all, and the next beat to issue. -/
  beats   : Nat
  next    : Nat
  /-- Reservation order of the entry being filled (R190), and entries consumed by k-steps (R200). -/
  slot    : Option Nat
  eaten   : Nat
  /-- The latest cycle in which a beat issued so far is done, and the latest in which a covered write of it is (R184). -/
  doneAt  : Nat
  wDone   : Nat
  /-- `.rel`: what its release covers (R185). -/
  cover   : Option Cover
  /-- `.acq`: the snapshot of its acquire, once that has completed (R185). -/
  snap    : Option Snapshot
  /-- Completion cycle, once it is known, and whether it has completed. -/
  compAt  : Option Nat
  complete : Bool
  restored : Bool
  deriving DecidableEq, Repr

/-- A beat that has issued (R179, R180): in cycle `u`; its data is ready at the end of `readAt`; its write is performed, or issued
off-core, at the end of `writeAt`, performed there at the end of `performAt`, and done at the end of `doneAt`. -/
structure Beat where
  chan   : Nat
  tid    : Nat
  k      : Nat
  u      : Nat
  plan   : Plan
  readAt : Nat
  late   : Bool
  got    : Bool
  data   : List Byte
  writeAt : Nat
  performAt : Nat
  performed : Bool
  doneAt : Nat
  /-- The place of the beat among all beats issued. -/
  order  : Nat
  /-- Flags of `catom.fadd`, raised at the landing (R195). -/
  flags  : Nat
  /-- What another package has answered: address and bytes (R316). -/
  resp   : List (Nat × List Byte)
  /-- A late beat's data comes in this cycle and is discarded (R183). -/
  lateAt : Option Nat
  /-- The read found an uncorrectable error (R234, R237). -/
  ue     : Bool
  /-- The snapshot in which an off-core read beat issued (R247). -/
  snap   : Snapshot
  /-- The watchpoints that the beat matched at issue: unit, trigger and the arming's number (R297). -/
  watch  : List (Nat × Nat × Nat)
  deriving DecidableEq, Repr

/-- A watchpoint's hold of a channel (R297): the command whose beat matched, the beats that it may still issue, the cycle in which it may,
and the watchpoints that hold the channel until their unit resumes (unit, trigger, arming). -/
structure Hold where
  tid    : Nat
  left   : Nat
  cyc    : Nat
  owners : List (Nat × Nat × Nat)
  deriving DecidableEq, Repr

/-- A channel of the copy engine (R19, R177). -/
structure Chan where
  tid     : Nat
  wm      : Nat
  pattern : W64
  cmds    : List Cmd
  /-- The cycle in which the last beat of the previous command issued. -/
  lastBeat : Nat
  hold    : Option Hold
  deriving DecidableEq, Repr

/-- A bank cycle that an access has reserved (R229-R232): port 0 read, 1 write; `block` none where the port is held whole. -/
structure BankUse where
  cycle : Nat
  port  : Nat
  bank  : Nat
  block : Option Nat
  deriving DecidableEq, Repr

/-- A `phase` word that the unit's walkers issue (R118): the word, its scope, the walkers it names, those that have issued it, the cycle
b of the boundary once the last has, what its release covers,
the walkers still held, and whether the boundary has completed. -/
structure PhaseState where
  word   : Nat
  scope  : Nat
  need   : List Nat
  got    : List Nat
  at_    : Option Nat
  cover  : Cover
  held   : List Nat
  done   : Bool
  deriving DecidableEq, Repr

/-- An arrival of the unit at a barrier (R121, R122): the word, id, scope, instance number, the arrival cycle, what it covers as for a
`phase`, the walkers named that have not issued, Tb once the instance has completed, and whether the unit is released. -/
structure Arrival where
  word     : Nat
  id       : Nat
  scope    : Nat
  inst     : Nat
  at_      : Nat
  cover    : Cover
  ws       : List Nat
  tb       : Option Nat
  released : Bool
  deriving DecidableEq, Repr

/-- A cluster message on its way (R123): its sending walker, receiving unit of the cluster, value and arrival cycle. -/
structure Msg where
  wk     : Nat
  dst    : Nat
  v      : Val
  arrive : Nat
  deriving DecidableEq, Repr

/-- What the four walkers of a unit are doing. -/
inductive Run where
  /-- No kernel is cast on. -/
  | off
  /-- Cast on, its first word not yet issued: `at` the region cycle of the start. -/
  | cast
  | running
  /-- A fault, `bkpt` or trigger stop (R274). -/
  | stopped
  /-- A `ctxs` or `ctxl` (R219). -/
  | frozen
  /-- A pre-emption, shed or freeze stop; the context may be being saved (R284). -/
  | preempted
  deriving DecidableEq, Repr

/-- What a stopped unit's composite record says of the stop (R274-R278). -/
structure Stop where
  /-- The unit stopped on a cause of its own, not with its pair partner (R282, R293). -/
  own    : Bool := true
  cycle   : Nat
  cls     : FaultClass
  eng     : Nat
  chan    : Nat
  trigger : Nat
  tid     : Nat
  beat    : Nat
  addr    : W64
  origin  : W32
  jobNs   : Nat
  wrote   : Bool
  /-- Reference time (ns) at which block 0 of the record completes, once writing. -/
  recNs   : Option (Nat × Nat)
  complete : Bool
  /-- The record, until all of it is written, and its blocks 1-255 that are not written yet (R277). -/
  image   : Mem
  blocks  : List Nat
  /-- `RSC`, whether the matrix engine was busy, and the entries of `ska` and `skb`, at the stop (R278). -/
  rsc     : Nat
  busy    : Bool
  nA      : Nat
  nB      : Nat
  /-- The ACTION taken and the time of its write. -/
  action  : Option (Nat × Nat × Nat)
  deriving DecidableEq, Repr

/-- A save or load of the whole context (R218-R221, R286): a `ctxs` or `ctxl` issued in cycle `t`, or a pre-emption save begun in it. The beat of
block k from 1 on issues in cycle `first` + (k - 1) × the divisor of `cw`, and is complete `lo` cycles later. -/
structure Ctx where
  load    : Bool
  t       : Nat
  va      : Nat
  /-- The cycle of the translation step, while it is to come, and the fault that it raises. -/
  xlAt    : Option Nat
  xlFault : Option Cause
  pages   : List Page
  /-- A load: the cycle in which the header is checked, while it is to come. -/
  checkAt : Option Nat
  /-- The cycle in which the unit restarts, or is released. -/
  endAt   : Nat
  first   : Nat
  lo      : Nat
  /-- The free value from which the cycles are drawn in which the blocks of a save are performed (R184). -/
  seed    : Nat
  /-- The record: of a load what has been read, with the blocks that were late or in error (R221), and what another package has answered, by PA. -/
  image   : Mem
  bad     : List Nat
  resp    : List (Nat × List Byte)
  /-- A write of the save met an uncorrectable error. -/
  ue      : Bool
  deriving DecidableEq, Repr

/-- The declared latencies of a unit, converted at cast-on (R6, R27, R119, R180, R182). -/
structure Lat where
  lsc   : List Nat
  sc    : Nat
  sc2   : Nat
  sp    : Nat
  sp2   : Nat
  sd    : Nat
  sd2   : Nat
  lx    : Nat
  ownDie : Nat
  otherDie : Nat
  host  : Nat
  /-- `(package, hops)`'s latency. -/
  remote : List (Nat × Nat)
  deriving DecidableEq, Repr

/-- A cached translation (R242-R244): the page, whether it is resident, and the cycle from which it is ready. -/
structure CacheEntry where
  page     : Page
  resident : Bool
  ready    : Nat
  order    : Nat
  deriving DecidableEq, Repr

/-- One unit. -/
structure Unit where
  run     : Run
  region  : Nat
  kernel  : Nat
  place   : Nat
  part    : Nat
  walkers : List Walker
  steers  : List Steer
  /-- Queue from walker a to walker b at 4 a + b: entries, oldest first, and results in flight toward it (R12). -/
  queues  : List (List Val × Nat)
  istore  : List W32
  store   : Store
  /-- Words of the unit store that hold an uncorrectable error (R234), which comes from outside the machine (log 115, DESIGN CHOICE). -/
  badWords : List Nat
  cause   : W64
  slipw   : W64
  ftv     : W64
  /-- Divisors of `sw` (always 1), `mw`, `vw` and `cw` (R9, R210); the new value governs from the next cycle. -/
  div     : List Nat
  divNext : List Nat
  mpc     : Nat
  baroff  : Nat
  late    : W64
  ctxn    : W64
  tvec    : W64
  tstat   : W64
  flagCnt : List W64
  /-- Matrix engine. -/
  acc     : List Acc
  ska     : List SkEntry
  skb     : List SkEntry
  active  : Cfg
  shadow  : Cfg
  mult    : Option Mult
  ksteps  : List KStep
  /-- The cycle from which the matrix engine takes a held word (R160). -/
  mfree   : Nat
  /-- Everything `mwait` waits for has landed before this cycle (R170). -/
  mland   : Nat
  /-- Vector engine. -/
  v       : List VReg
  k       : List (W32 × Bool)
  masks   : List (List Bool)
  vfree   : Nat
  /-- Copy engine. -/
  chans   : List Chan
  beats   : List Beat
  banks   : List BankUse
  cache   : List CacheEntry
  /-- Results of the engines and side effects in flight, which take no entry of R25. -/
  pend    : List Pend
  seq     : Nat
  phases  : List PhaseState
  bars    : List Arrival
  /-- Arrivals so far at each barrier id (R121). -/
  barCnt  : List (Nat × Nat)
  outbox  : List Msg
  snap    : Snapshot
  /-- The off-core writes that a read of the unit has returned (R248). -/
  seen    : List Nat
  trigs   : List Trigger
  /-- `TRIGS0`-`TRIGS15` at the end of the previous cycle (R206). -/
  trigs0  : List W64
  trace   : List Trace
  traceN  : Nat
  lat     : Lat
  stop    : Option Stop
  ctx     : Option Ctx
  /-- A pre-emption request reached the unit in this cycle (R215, R284). -/
  request : Option Nat
  /-- The cycle from which its walkers drain and stop, for a pre-emption or a freeze request (R114, R258, R284). -/
  p0      : Option Nat
  /-- A `yield` took the pre-emption stop at the end of this cycle (R215). -/
  yieldAt : Option Nat
  /-- `halt` has issued: the bind-off cycle (R217). -/
  haltAt  : Option Nat
  started : Bool
  /-- The cycle of its first word, the watchdog's count m and whether it has fired (R269). -/
  word0   : Option Nat
  wdog    : Nat
  fired   : Bool
  /-- A save met an uncorrectable error and is being redone (R287). -/
  redo    : Bool
  /-- Sequence number of the last pre-emption save (R286), and `RCC` and `RSC` at the cut of the pre-emption stop (R222, R274). -/
  saveSeq : Nat
  cut     : Nat × Nat
  deriving DecidableEq, Repr

end Sys2Proof.Machine
end

