-- ==== Sys2Proof/Machine/Package.lean ====
section
/-! DEFINITION. The state of a package above the unit: regions and their gauges, jobs and kernels, the pattern scheduler, crossings,
power, the host's control pages, streams, Selvedge ports and boot (R23, R250-R273, R293, R304-R321). Times are fractions of a
nanosecond of the reference timebase (R288). -/

namespace Sys2Proof.Machine

/-- A non-negative fraction; `den` is never 0. -/
structure Frac where
  num : Nat
  den : Nat
  deriving DecidableEq, Repr

/-- States of a gauge lock, codes 0-7 (R257). -/
inductive Gauge where
  | off | acquire | locked | clamped | holdover | draining | frozen | refused
  deriving DecidableEq, Repr

/-- The effective fields of one RCB of an armed job (R250, R251), its address, parent and region included. -/
structure Rcb where
  job     : Nat
  va      : Nat
  parent  : Nat
  /-- The RCB that is its region: itself where GV = 1. -/
  region  : Nat
  gv      : Bool
  pattern : Nat
  mem     : Nat
  energy  : Nat
  units   : Nat
  prio    : Nat
  strict  : Bool
  admitted   : Bool
  part    : Nat
  policy  : Nat
  boost   : Nat
  miss    : Nat
  hold    : Nat
  spacing : Nat
  course  : List Nat
  handler : Nat
  save0   : Nat
  save1   : Nat
  wdog    : Nat
  crec    : Nat
  homePkg : Nat
  homeDie : Nat
  p       : Nat
  q       : Nat
  src     : Nat
  synA    : Nat
  synB    : Nat
  deriving DecidableEq, Repr

/-- Why a region stands still (R257-R259, R269, R281, R289, R294). -/
inductive Still where
  /-- It does not: its clock runs. -/
  | no
  /-- FROZEN, after a drain. -/
  | drained
  /-- FROZEN by a fault policy or the watchdog. -/
  | policy
  /-- Shed by the package controller (R271). -/
  | shed
  /-- Not locked. -/
  | idle
  deriving DecidableEq, Repr

/-- A region (R23, R255-R259, R346). Its cycle `n` begins at `anchor + (n - anchorCyc) * period`. -/
structure Region where
  job       : Nat
  rcb       : Nat
  gauge     : Gauge
  still     : Still
  /-- A halt wave or a single step: the region is halted (R289, R294). -/
  halted    : Bool
  rcc       : Nat
  rsc       : Nat
  p         : Nat
  q         : Nat
  src       : Nat
  strict    : Bool
  /-- f0 and the clock of R6, GHz. -/
  f0        : Frac
  conv      : Frac
  anchor    : Frac
  anchorCyc : Nat
  /-- The length of a region cycle in ns. -/
  period    : Frac
  /-- No region cycle has begun since lock. -/
  fresh     : Bool
  /-- Samples of the source: number and instant of the latest, the count since lock, and runs of on-time, missed, drifting and steady
  samples (R257). -/
  srcN      : Nat
  /-- The instants of source samples, newest first: number counted from lock, instant (R256, R260). -/
  stamps    : List (Nat × Frac)
  lastInst  : Frac
  /-- The period estimate that instants follow, and the period last measured (R256, R257). -/
  srcPeriod : Frac
  measured  : Frac
  onTime    : Nat
  missed    : Nat
  drift     : Nat
  steady    : Nat
  good      : Nat
  /-- Source sample number and instant that lock counted as sample 0. -/
  base      : Nat
  baseInst  : Frac
  /-- `RSC` at holdover entry. -/
  holdRsc   : Nat
  /-- The freeze request's boundary cycle (R258). -/
  freezeAt  : Option Nat
  /-- Freeze without drain in this cycle (R269, R281). -/
  stopAt    : Option Nat
  /-- The instant at or after which the region's cycle ends in which it halts (R289); and one above the cycle that a step runs (R294), 0
  while there is none. -/
  haltAt    : Option Frac
  steps     : Nat
  /-- A slew runs (R346). -/
  slew      : Bool
  /-- Thaw: the instant of its boundary and the `RSC` there (R257, R259). -/
  thawAt    : Option (Frac × Nat)
  /-- A resume action was written: the earliest instant of the thaw's boundary (R257). -/
  thawFrom  : Option Frac
  /-- STATUS bits DISC, SHED, OVER, REFUSED, WDF, PERR (R252) and RSCD. DISC stays set (log 65, DEDUCED). -/
  disc      : Bool
  shed      : Bool
  overB     : Bool
  refusedB  : Bool
  wdf       : Bool
  perr      : Bool
  rscd      : Int
  overRun   : Nat
  /-- The source's latest sample when the region halted, and the jump of `RSC` due at the first boundary after a resume (R295). -/
  haltN     : Nat
  jump      : Option Nat
  /-- It drains, or stands frozen, to be shed (R271). -/
  shedding  : Bool
  /-- Order of arming, for R271. -/
  armed     : Nat
  /-- The region cycle of this cycle has begun and is not finished. -/
  openCyc   : Bool
  /-- Cast-ons reserved for an admitted region (R266): unit numbers. -/
  reserved  : List Nat
  /-- It is homed on another package, whose scheduler runs its pattern and writes its STATUS (R250, R253). -/
  far       : Bool
  /-- The model's own: the instant of its latest boundaries, their place in the order of boundaries between regions, and the region cycle in which
  that was drawn (R247; log 103, DEDUCED). -/
  placed    : Frac × Nat × Nat
  deriving DecidableEq, Repr

/-- The fate of a cast-on (R264). -/
inductive KState where
  /-- The node is ready and waits for its units (R266). -/
  | ready
  /-- Its units are granted and loaded; word 0 issues at the next boundary. -/
  | loaded
  | running
  /-- Every unit has bound off; the retire's release is completing. -/
  | retiring
  | retired
  /-- Pre-empted, with its contexts saved (R266, R285). -/
  | preempted
  deriving DecidableEq, Repr

/-- A cast-on of a KERNEL node (R263, R264). -/
structure Kernel where
  node   : Nat
  rcb    : Nat
  region : Nat
  job    : Nat
  part   : Nat
  die    : Nat
  shape  : Nat
  /-- UNITS of the node. -/
  n      : Nat
  state  : KState
  /-- When the node became ready. -/
  order  : Nat
  next0  : Nat
  next1  : Nat
  textVa : Nat
  textW  : Nat
  spillb : Nat
  spill  : Nat
  rangesVa : Nat
  /-- Package unit numbers in placement order, the place being the index. -/
  units  : List Nat
  /-- Units that have not bound off. -/
  live   : List Nat
  /-- Pages of its resident ranges, and of those it marks locked. -/
  resident : List Page
  lockedP  : List Page
  startAt : Option Nat
  /-- `RSC` at its first word. -/
  startRsc : Nat
  /-- Completion of the release of its retire (reference time). -/
  relAt  : Option Frac
  castOrder : Nat
  /-- What its node has acquired (R262), and of each saved place of a pre-empted cast-on what its unit's snapshot and reads held (R285). -/
  acq    : Acq
  parked : List (Nat × Snapshot × List Nat)
  deriving DecidableEq, Repr

/-- The state of one pattern node (R263). -/
inductive NState where
  /-- Made ready, to be evaluated. -/
  | ready
  /-- A WATCH that waits, with its watched word in the table. -/
  | waiting
  /-- It waits for a free entry of the watched-word table (R262). -/
  | tableFull
  /-- A KERNEL node whose cast-on runs. -/
  | cast
  deriving DecidableEq, Repr

/-- An active node. `order` is the order in which it became ready, or began to wait. -/
structure Node where
  addr   : Nat
  region : Nat
  state  : NState
  order  : Nat
  /-- Times it was made ready again while active (R263). -/
  queued : Nat
  /-- What it has acquired for its successors (R262), and what the runs that are queued will have. -/
  acq    : Acq
  queuedAcq : Acq
  deriving DecidableEq, Repr

/-- What a watched word stands for (R252, R253, R262, R280). -/
inductive Watched where
  | arm (job : Nat)
  | node (addr region : Nat)
  /-- STATUS of an RCB. -/
  | status (rcb : Nat)
  /-- STATUS of the root of a job whose arm was refused (R253). -/
  | refused (job : Nat)
  | action (unit : Nat)
  deriving DecidableEq, Repr

/-- A job slot of a VF (R293, R308, R309), numbered 16 f + j. -/
structure Job where
  jreg    : W64
  jslot   : Nat
  /-- A registration is in progress. -/
  pending : Bool
  armed   : Bool
  armPa   : Nat
  rootPa  : Nat
  /-- XTAB and XCNT as the arm read them (R250, R261). -/
  xtab    : Nat
  xcnt    : Nat
  jstate  : Nat
  stops   : Nat
  jcause  : W64
  jorig   : W64
  jtstop  : W64
  jtres   : W64
  jfocus  : W64
  jdrop   : Nat
  /-- The first stop's time and origin (package, unit), by which R283 orders causes. -/
  first   : Option (Frac × Nat × Nat)
  resumeAt : Option Frac
  /-- The number after that of the write of 1 to its arm word (R254); 0 while there is none. -/
  armId   : Nat
  deriving DecidableEq, Repr

/-- A BAR 2 access (R304). -/
inductive HostReq where
  | write (a : Nat) (bs : List Byte)
  | read (a n : Nat)
  deriving DecidableEq, Repr

/-- A VF (R304, R307-R310, R312, R314). -/
structure Vf where
  iva     : W64
  ilen    : W64
  istDone : Bool
  istLock : Bool
  istBusy : Bool
  ptroot  : W64
  perr    : W64
  streams : List (List W64)
  cadence : List (List W64)
  /-- TDI state: 0 unlocked, 1 locked, 2 run. -/
  tdi     : Nat
  /-- The partition's key slot (R245). -/
  key     : Option (BitVec 512)
  /-- When the posted writes at other packages are performed, and the accesses that come behind them (R306; log 130, DEDUCED). -/
  posted  : Frac
  waiting : List HostReq
  deriving DecidableEq, Repr

/-- A VF at reset (R308). -/
def Vf.zero : Vf :=
  { iva := 0, ilen := 0, istDone := false, istLock := false, istBusy := false, ptroot := 0, perr := 0, streams := List.replicate 8 [0, 0, 0, 0, 0]
    cadence := List.replicate 8 [0, 0, 0], tdi := 0, key := none, posted := ⟨0, 1⟩, waiting := [] }

/-- A job slot at reset (R308). -/
def Job.zero : Job :=
  { jreg := 0, jslot := 0, pending := false, armed := false, armPa := 0, rootPa := 0, xtab := 0, xcnt := 0, jstate := 0, stops := 0, jcause := 0
    jorig := 0, jtstop := 0, jtres := 0, jfocus := 0, jdrop := 0, first := none, resumeAt := none, armId := 0 }

/-- A stream source's port state (R313, R314). -/
structure Source where
  high    : Option Nat
  link    : Bool
  drops   : Nat
  lastTs  : Nat
  period  : Nat
  /-- Arrival of the last keep-alive frame. -/
  kaAt    : Frac
  /-- CREDIT as the halt of a job froze it (R314). -/
  credit  : Option Nat
  /-- The latest source samples at whose instants slots have been sent (R314). -/
  sent    : List Nat
  deriving DecidableEq, Repr

/-- A synthetic generator (R255, R272) (log 56, DEDUCED). -/
structure Gen where
  inUse  : Bool
  a      : Nat
  b      : Nat
  s      : Nat
  smax   : Nat
  boost  : Nat
  /-- A unit on it hinted `memory` or `waiting` in the interval (R270). -/
  hinted : Bool
  /-- Instant of sample 0 at the current rate, and its number. -/
  base   : Frac
  baseN  : Nat
  deriving DecidableEq, Repr

/-- A producer sample of a crossing (R198, R260): data, poison mark, and the end of the cycle in which it entered the history. -/
structure XSample where
  n      : Nat
  bytes  : List Byte
  poison : Bool
  at_    : Frac
  deriving DecidableEq, Repr

/-- A dovetail crossing (R260, R261). -/
structure Crossing where
  armed   : Bool
  desc    : Nat
  part    : Nat
  prodK   : Nat
  consK   : Nat
  prod    : Nat
  cons    : Nat
  z       : Nat
  efmt    : Nat
  replay  : Bool
  tlen    : Nat
  trace   : Nat
  w       : List W16
  hist    : List XSample
  sp0     : Nat
  sc0     : Nat
  /-- `cxwr` and `cxrd` commands issued, and samples entered. -/
  wrN     : Nat
  rdN     : Nat
  entered : Nat
  drops   : Nat
  repeats : Nat
  lastOut : Option (List Byte × Int × Nat)
  disc    : Bool
  /-- Samples whose data is in and that wait for their turn: number, cycle, bytes, poison. -/
  inbox   : List (Nat × Nat × List Byte × Bool)
  /-- What it holds of a command whose unit was pre-empted (R200): channel, transfer ID, bytes, sampled or marked. -/
  parts   : List (Nat × Nat × List Byte × Bool)
  deriving DecidableEq, Repr

/-- Unit `u` of kernel `k` is the producer, or the consumer, of a crossing. -/
def Crossing.from_ (x : Crossing) (k u : Nat) : Bool := x.prodK == k && x.prod == u
def Crossing.to_ (x : Crossing) (k u : Nat) : Bool := x.consK == k && x.cons == u

/-- A walk of a cluster's table reader (R242, R243): the unit it serves, the page range, whether the entry is resident, and the cycles
of its start and end in the unit's region (log 24, DEDUCED). -/
structure Walk where
  unit     : Nat
  va       : Nat
  resident : Bool
  asked    : Nat
  start    : Option Nat
  ends     : Nat
  deriving DecidableEq, Repr

/-- A Selvedge port (R315-R317): lanes 8, 4 or 0; sequence numbers, flit counts and salts of each direction; consecutive failures. -/
structure Port where
  lanes   : Nat
  txSeq   : Nat
  rxSeq   : Nat
  txCount : Nat
  rxCount : Nat
  fails   : Nat
  keys    : Nat
  discards : Nat
  txSalt  : W32
  rxSalt  : W32
  deriving DecidableEq, Repr

/-- An SPDM connection of a function's DOE responder (R320): how far negotiation has come and the sessions. -/
structure Spdm where
  stage    : Nat
  sessions : List (Nat × Bool × Nat)
  deriving DecidableEq, Repr

/-- Boot (R319): the last step that completed, whether a check failed, and measurements 1 to 4. -/
structure Boot where
  step     : Nat
  failed   : Bool
  measured : List (BitVec 384)
  pkgNo    : Nat
  routes   : List (Nat × Nat)
  curLimit : Nat
  thermal  : Nat
  floorCap : Nat
  deriving DecidableEq, Repr

/-- The package controller (R270, R273). -/
structure Power where
  /-- The last accepted SEQ, the cap and the time its lease ends. -/
  seq     : Option W32
  cap     : Nat
  leaseTo : Option Frac
  applied : Nat
  /-- When the next control interval begins (R270): none before boot. -/
  next    : Option Frac
  deriving DecidableEq, Repr

/-- A step of the package's own to come at its time: a row of the table, or one of the ports' and control pages' rows, which are named
here because Lean's runtime cannot build their constructors. -/
inductive Due where
  | event (i : Instr)
  /-- `JOB_REGISTRATION` of job slot `j` of VF `f`. -/
  | registration (f j : Nat)
  /-- `INVALIDATION_DONE` of VF `f`. -/
  | invalidated (f : Nat)
  /-- `KEEP_ALIVE_TX`, `CREDIT_TX` and `LINK_TIMEOUT` of stream source `k` of VF `f`. -/
  | keepAlive (f k : Nat)
  | credit (f k : Nat)
  | silence (f k : Nat)
  /-- `TRANSMIT` of source sample `n`. -/
  | transmit (f k n ts : Nat)
  /-- `HOST_CADENCE_SAMPLE` `n` of cadence `k`. -/
  | cadence (f k n : Nat)
  /-- `PORT_DOWN` of port `p`. -/
  | down (p : Nat)
  /-- The lease of the applying cap ends (`CAP_LEASE_EXPIRY`). -/
  | lease
  /-- `CHECKPOINT_DONE`. -/
  | checkpoint
  /-- A stream port's write of bytes at a device virtual address of partition `f` is performed (R313). -/
  | deliver (f va : Nat) (bs : List Byte)
  /-- The write beat of block `k` of the composite record of unit `u` issues (R277). -/
  | send (u k : Nat)
  /-- The write of block `k` of the composite record of unit `u` is performed (R277). -/
  | block (u k : Nat)
  /-- The BAR 2 accesses of VF `f` that wait go on (R306). -/
  | host (f : Nat)
  /-- This package's time is told to the others (R318). -/
  | tellTime
  /-- `POWER_CONTROL_INTERVAL`, with what the controller measures. -/
  | interval (ma mc mw : Nat)
  deriving DecidableEq, Repr

/-- A checkpoint image (R321): device memory, the keys of its blocks, and whether its other blocks decipher to noise; not `whole` where the
buffer has been written into since (log 86, DEDUCED). -/
structure Image where
  whole  : Bool
  dram   : Store
  sealed : List (Nat × Nat × Option (BitVec 512))
  noise  : Bool
  deriving DecidableEq, Repr

/-- What leaves the package. -/
inductive Out where
  | flit (port : Nat) (f : Flit)
  | frame (port : Nat) (udp : W16) (bytes : List Byte)
  /-- Completion of a host read: function, address, data, or a Completer Abort. -/
  | completion (f addr : Nat) (bytes : List Byte) (abort : Bool)
  /-- An SPDM response: function, code, bytes. -/
  | spdm (f code : Nat) (bytes : List Byte)
  /-- A partition's key for the key slot of package `pkg`, in the fabric session of the port to it (R317, R320). -/
  | key (pkg part : Nat) (key : BitVec 512)
  deriving DecidableEq, Repr

end Sys2Proof.Machine
end

