-- ==== Sys2Proof/Machine/State.lean ====
section
/-! DEFINITION. The state of the machine: one DZ-160 package and what it holds, with `State.reset`, the package before boot (R319). -/

namespace Sys2Proof.Machine

/-- The machine's own faults. The device's faults (R205) are no such thing: they are next states. -/
inductive Fault where
  /-- Raised by no instruction: the model has no case in which the part itself stops for good. Safe. -/
  | none
  deriving DecidableEq, Repr

/-- Refusals. -/
inductive Refusal where
  /-- Raised by an arm of `exec` whose instruction has no meaning yet. Safe. -/
  | notModelled (mnemonic : String)
  deriving DecidableEq, Repr

/-- One package (log 8, DESIGN CHOICE). -/
structure State where
  /-- The unit and walker whose word the next word step takes. -/
  focus    : Nat × Nat
  /-- The model's own bookkeeping of the region cycle in progress: its region, how far the cycle has come, and the walkers (unit, walker)
  whose words are still to be taken. -/
  turn     : Nat
  stage    : Nat
  agenda   : List (Nat × Nat)
  /-- Counter of the free values (log 3, DESIGN CHOICE). -/
  free     : Nat
  /-- The reference timebase, ns. -/
  time     : Frac
  /-- Units with a kernel cast on, by package unit number, rising. -/
  units    : List (Nat × Unit)
  regions  : List Region
  kernels  : List Kernel
  nodes    : List Node
  rcbs     : List Rcb
  /-- JOIN counts (R263): node, arrivals, what they have acquired; and the LOOP nodes whose ITER the scheduler has written since the arm. -/
  joins    : List (Nat × Nat × Acq)
  loops    : List Nat
  order    : Nat
  jobs     : List (Nat × Job)
  vfs      : List (Nat × Vf)
  /-- Watched words: die, physical address, what it stands for (R262). -/
  watched  : List (Nat × Watched)
  /-- Cluster stores 0-19 and die stores 0-1 (R228): by number, an absent one all zero; and the partition that last used it (R246). -/
  clusters : List (Nat × Store × Nat)
  dies     : List (Nat × Store × Nat)
  /-- Device memory by PA, and host memory by bus address. -/
  dram     : Store
  host     : Store
  /-- The key under which each 64-byte block was last written: block, partition, key number (R245). -/
  sealed   : List (Nat × Nat × Option (BitVec 512))
  /-- Words that hold an uncorrectable error: (store, address) with 0 cluster, 1 die, 2 device memory (R234, R237). -/
  bad      : List (Nat × Nat)
  /-- The queues of the 1,024 memory channels, and in 1,024 + d that of the link's direction out of die d: when each will have served what
  stands in it (R233, R236). -/
  queues   : List (Nat × Frac)
  nextId   : Nat
  /-- The model's own: in the order of boundaries between regions, the place of the latest snapshot under which something was read, behind which
  every later boundary falls, and the last place in use (R247; log 103, DEDUCED). -/
  pin      : Nat
  top      : Nat
  /-- Locked translations of each die: the page, its holders (R244). -/
  locks    : List (Nat × Page × List Nat)
  walks    : List (Nat × Walk)
  crossings : List (Nat × Crossing)
  gens     : List (Nat × Gen)
  power    : Power
  sources  : List (Nat × Source)
  /-- Source samples to come: source, number, instant (R256, R318). -/
  samples  : List (Nat × Nat × Frac)
  /-- Distributed gauges (32-63) whose source is a synthetic generator (R295). -/
  elastic  : List Nat
  srcown   : List Nat
  /-- Operator grants: partition, MEMBASE0, MEMSIZE0, MEMBASE1, MEMSIZE1 (R311). -/
  grants   : List (Nat × W64 × W64 × W64 × W64)
  /-- Error counters of the dies; the corrected errors are counted when the count is read (R302; log 84, DESIGN CHOICE). -/
  cec      : List W64
  uec      : List W64
  ckbuf    : W64
  ckBusy   : Bool
  ckDone   : Bool
  ckRefused : Bool
  ckRestore : Bool
  /-- Checkpoint images in host memory, by buffer (R321). -/
  images   : List (Nat × Image)
  /-- Blocks that `sealed` does not list decipher to noise: memory was restored from bytes that no save wrote. -/
  scrambled : Bool
  /-- Host reads that wait for another package: request number, function, address, bytes. -/
  hostReads : List (Nat × Nat × Nat × Nat)
  ports    : List Port
  /-- Flits that wait for the ports: port, flit (R316). -/
  txq      : List (Nat × Flit)
  spdm     : List (Nat × Spdm)
  boot     : Boot
  /-- Events to come at their times: the outside world's, and the package's own steps. -/
  inputs   : List (Frac × Instr)
  timers   : List (Frac × Due)
  out      : List Out
  deriving DecidableEq, Repr

/-- The package before boot: nothing cast on, no job, memory with nothing listed (R31, R308, R311, R319). A program comes to run only
through BOOT, a job's registration and arm, and a cast-on (log 1, DEDUCED; log 7, DESIGN CHOICE). -/
def State.reset : State :=
  { focus := (0, 0), turn := 0, stage := 0, agenda := [], free := 0, time := ⟨0, 1⟩, units := [], regions := [], kernels := [], nodes := [], rcbs := [], joins := [], loops := [], order := 0
    jobs := [], vfs := [], watched := [], clusters := [], dies := [], dram := Store.zero, host := Store.zero, sealed := [], bad := []
    queues := [], nextId := 0, pin := 0, top := 0, locks := [], walks := [], crossings := [], gens := [], power := ⟨none, 0, none, 1600, none⟩, sources := [], samples := [], elastic := []
    srcown := [0, 0, 0, 0, 0, 0, 0, 0], grants := [], cec := [0, 0], uec := [0, 0], ckbuf := 0, ckBusy := false, ckDone := false
    ckRefused := false, ckRestore := false, images := [], scrambled := false, hostReads := [], ports := List.replicate 8 ⟨0, 0, 0, 0, 0, 0, 0, 0, 0, 0⟩, txq := [], spdm := []
    boot := ⟨0, false, [], 0, [], 0, 0, 0⟩, inputs := [], timers := [], out := [] }

end Sys2Proof.Machine
end

