-- ==== Sys2Proof/Machine/UnitOps.lean ====
section
/-! DEFINITION. Named operations over the parts of a unit: sparse tables, registers, queues, steer entries, what is in flight. -/

namespace Sys2Proof.Machine

/-- The entry of key `k` in a table. -/
def find {α : Type} : List (Nat × α) → Nat → Option α
  | [], _ => none
  | (j, v) :: t, k => if j = k then some v else find t k

/-- Set the entry of key `k`, keys rising. -/
def put {α : Type} : List (Nat × α) → Nat → α → List (Nat × α)
  | [], k, v => [(k, v)]
  | (j, w) :: t, k, v => if k < j then (k, v) :: (j, w) :: t else if k = j then (k, v) :: t else (j, w) :: put t k v

/-- Remove the entry of key `k`. -/
def drop {α : Type} (t : List (Nat × α)) (k : Nat) : List (Nat × α) := t.filter fun e => e.1 != k

/-- Change element `k` of a list. -/
def modify {α : Type} (l : List α) (k : Nat) (f : α → α) : List α :=
  match l, k with
  | [], _ => []
  | a :: t, 0 => f a :: t
  | a :: t, k + 1 => a :: modify t k f

/-- A walker at word 0 of a fresh cast-on (R31), its spill area given (R264). -/
def Walker.fresh (spillb spilll : W64) : Walker :=
  { x := List.replicate 144 Val.zero, wp := 0, res := 1, ras := [0, 0, 0, 0, 0, 0, 0, 0], spilln := 0, spillb, spilll
    inner := none, outer := none, flags := 0, epc := 0, idx := 0, count := 0, steers := List.replicate 12 ⟨0, 0, false, []⟩
    copies := [0, 0, 0, 0], inflight := [], slot := .done 4 none, ic := 0, ready := 0, since := none, held := false, matched := false
    stopped := false, beat := false, bodySeq := [], bodyN := [], trail := [], synced := [], extLast := [], head := [0, 0, 0, 0], was := 0 }

/-- The walker that stands where a unit lists none. -/
def Walker.zero : Walker := Walker.fresh 0 0

/-- Walker `k` of a unit. -/
def Unit.wk (un : Unit) (k : Nat) : Walker := un.walkers.getD k Walker.zero

/-- Change walker `k`. -/
def Unit.setWk (un : Unit) (k : Nat) (f : Walker → Walker) : Unit := { un with walkers := modify un.walkers k f }

/-- Package unit number, die, cluster (0-19 over both dies) and unit within the cluster (R3). -/
def dieOf (u : Nat) : Nat := u / 80
/-- The cluster of a unit, 0-19 over both dies. -/
def clusterOf (u : Nat) : Nat := u / 8
/-- The unit number within its cluster. -/
def inCluster (u : Nat) : Nat := u % 8
/-- The other cluster of a cluster pair (R3): numbers 2i and 2i + 1 of one die. -/
def pairCluster (c : Nat) : Nat := if c % 2 = 0 then c + 1 else c - 1
/-- The pair partner of a unit (R164). -/
def partner (u : Nat) : Nat := 8 * pairCluster (clusterOf u) + inCluster u

/-- The stage of a region cycle in which what raises a fault in it does so (Cycle). -/
def stageFault : Nat := 18

/-! ### Registers (R10, R11) -/

/-- Physical number of register field `f` under window pointer `wp`. -/
def physReg (wp f : Nat) : Nat := if f < 16 then f else 16 + 16 * wp + (f - 16)

/-- Field `f` names a queue port (R12). -/
def isPort (f : Nat) : Bool := decide (12 ≤ f) && decide (f < 16)

/-- The value of register field `f`, not a port: `x0` reads as zero. -/
def Walker.reg (w : Walker) (f : Nat) : Val := if f = 0 then Val.zero else w.x.getD (physReg w.wp f) Val.zero

/-- Write physical register `p`: writes to `x0` are discarded. -/
def Walker.setReg (w : Walker) (p : Nat) (v : Val) : Walker := if p = 0 then w else { w with x := w.x.set p v }

/-! ### Queues (R12) -/

/-- The queue that walker `k` reads through port field `f`. -/
def inQueue (k f : Nat) : Nat := 4 * (f - 12) + k
/-- The queue that walker `k` writes through port field `f`. -/
def outQueue (k f : Nat) : Nat := 4 * k + (f - 12)
/-- Queue number `q`. -/
def Unit.queue (un : Unit) (q : Nat) : List Val × Nat := un.queues.getD q ([], 0)
/-- A queue is full when its entries and the results in flight toward it number 8. -/
def Unit.qFull (un : Unit) (q : Nat) : Bool := decide (8 ≤ (un.queue q).1.length + (un.queue q).2)
/-- Queue `q` holds 8 entries. -/
def Unit.qOver (un : Unit) (q : Nat) : Bool := decide (8 ≤ (un.queue q).1.length)
/-- Count one more result in flight toward queue `q`. -/
def Unit.qReserve (un : Unit) (q : Nat) : Unit := { un with queues := modify un.queues q fun e => (e.1, e.2 + 1) }
/-- Take the oldest entry of queue `q`. -/
def Unit.qPop (un : Unit) (q : Nat) : Unit := { un with queues := modify un.queues q fun e => (e.1.drop 1, e.2) }
/-- A result reaches queue `q`. -/
def Unit.qPush (un : Unit) (q : Nat) (v : Val) : Unit := { un with queues := modify un.queues q fun e => (e.1 ++ [v], e.2 - 1) }

/-! ### Steer registers (R13-R15, R91, R111, R112) -/

/-- The reset image of a steer register as an entry. -/
def SteerEntry.reset : SteerEntry :=
  { seq := 0, word := 0, c := false, t := 0, tv := false, pc := false, pt := false, tAt := none, wk := 0, tag := [] }

/-- The 64-bit image of an entry (R13). -/
def SteerEntry.image (e : SteerEntry) : W64 :=
  BitVec.ofNat 64 ((if e.tv then 2 ^ 31 else 0) + (if e.c then 2 ^ 16 else 0) + e.t % 65536)

/-- Sequence number `s` lies below `n` as a serial number (R15). -/
def seqBelow (s n : Nat) : Bool :=
  let d := (n + 65536 - s % 65536) % 65536
  decide (1 ≤ d) && decide (d ≤ 32767)

/-- What a steer read finds (R15). -/
inductive SteerRead where
  | entry (e : SteerEntry)
  | notLanded
  | slip
  deriving DecidableEq, Repr

/-- The active levels of a walker, outer first. -/
def Walker.levels (w : Walker) : List Level := w.outer.toList ++ w.inner.toList

/-- A level's body holds word `i` (R107). -/
def Level.holds (l : Level) (i : Nat) : Bool := decide (l.word < i) && decide (i ≤ l.last)

/-- The passes of the levels whose bodies hold word `i`, as (loop word, pass), outer first. -/
def Walker.passes (w : Walker) (i : Nat) : List (Nat × Nat) := (w.levels.filter (·.holds i)).map fun l => (l.word, l.pass)

/-- The parts of an entry's tag, outer first (R112); the first result other than "next part" decides. -/
def tagCheck (w : Walker) (seen : List (Nat × Nat)) (e : SteerEntry) : List TagPart → SteerRead
  | [] => .entry e
  | t :: ts =>
    if w.levels.any fun l => l.word == t.loopWord then
      let q := (find seen t.loopWord).getD 0
      if t.isOpen then
        if t.pass = q then tagCheck w seen e ts else if t.pass < q then .notLanded else .slip
      else .slip
    else if t.isOpen then .notLanded else tagCheck w seen e ts

/-- The steer read of R15 and R112. -/
def Unit.steerRead (un : Unit) (k reg : Nat) : SteerRead :=
  let w := un.wk k
  let c := w.steers.getD reg ⟨0, 0, false, []⟩
  let h := (un.steers.getD reg ⟨[], 0⟩).hist
  if !c.any then .entry SteerEntry.reset
  else
    match h.find? fun e => e.seq == c.n with
    | some e => if e.word = c.word then tagCheck w c.passes e e.tag else .slip
    | none => if h.all fun e => seqBelow e.seq c.n then .notLanded else .slip

/-- Insert an entry into a history, highest sequence number first, in place of one of the same number; 4 stay (R14, R111). -/
def insertEntry (e : SteerEntry) : List SteerEntry → List SteerEntry
  | [] => [e]
  | x :: xs => if x.seq = e.seq then e :: xs else if seqBelow x.seq e.seq then e :: x :: xs else x :: insertEntry e xs

/-- Land a steer write (R14, R91, R111): its sequence number, the fields copied from the history, its place in it. -/
def Steer.land (st : Steer) (w : SteerWrite) : Steer × Nat :=
  let seq := w.seq.getD ((st.count + 1) % 65536)
  let count := if w.seq.isSome then st.count else seq
  let src := (if w.squashed then st.hist.find? fun e => seqBelow e.seq seq else st.hist.head?).getD SteerEntry.reset
  let e : SteerEntry :=
    { seq, word := w.word, wk := w.wk, tag := w.tag
      c := (w.c.map (·.1)).getD src.c, pc := (w.c.map (·.2)).getD src.pc
      t := (w.t.map (·.1)).getD src.t, tv := w.t.isSome || src.tv, pt := (w.t.map (·.2)).getD src.pt
      tAt := if w.t.isSome then some w.issued else src.tAt }
  ({ hist := (insertEntry e st.hist).take 4, count }, seq)

/-- Close the tag parts that walker `k`'s level of loop word `l` left open (R111) (log 36, DEDUCED). -/
def closeTags (k l : Nat) (st : Steer) : Steer :=
  { st with hist := st.hist.map fun e =>
      if e.wk = k then { e with tag := e.tag.map fun t => if t.loopWord = l then { t with isOpen := false } else t } else e }

/-- Keep a number for a body word. -/
def keepNum (l : List (Nat × Nat × Nat)) (reg word n : Nat) : List (Nat × Nat × Nat) :=
  (reg, word, n) :: l.filter fun e => !(e.1 == reg && e.2.1 == word)

/-! ### In flight (R24-R26) -/

/-- Enter a result into walker `k`'s in-flight list. -/
def Unit.enter (un : Unit) (k due : Nat) (eff : Eff) : Unit :=
  { un.setWk k fun w => { w with inflight := w.inflight ++ [⟨due, 1, un.seq, eff⟩] } with seq := un.seq + 1 }

/-- Enter an effect that takes no entry of R25. -/
def Unit.later (un : Unit) (due rank : Nat) (eff : Eff) : Unit :=
  { un with pend := un.pend ++ [⟨due, rank, un.seq, eff⟩], seq := un.seq + 1 }

/-- Raise flags of walker `k` at the end of cycle `due` (R126): after every write of that cycle. -/
def Unit.raise (un : Unit) (k due : Nat) (f : W64) : Unit := if f = 0 then un else un.later due 4 (.flags k f)

/-- `FLAGS`.PS (R21). -/
def flagPS : W64 := 0x8000

/-- The result of a control word for register field `d`, landing after `lat` cycles from `now` (R24, R84). -/
def Unit.landReg (un : Unit) (k d now lat : Nat) (v : Val) : Unit :=
  if isPort d then (un.qReserve (outQueue k d)).enter k (now + lat - 1) (.push (outQueue k d) v false)
  else un.enter k (now + lat - 1) (.x k (physReg (un.wk k).wp d) v)

/-- An engine's result in a scalar register of walker `k`, at the end of cycle `due`: an external write (R26). -/
def Unit.landExt (un : Unit) (k d due : Nat) (v : Val) : Unit :=
  if isPort d then (un.qReserve (outQueue k d)).later due 1 (.push (outQueue k d) v true)
  else un.later due 2 (.ext k (physReg (un.wk k).wp d) v)

/-- The writes that a release taken in cycle `now` covers (R118): those of the commands issued so far on every channel. -/
def Unit.coverNow (un : Unit) (now : Nat) : Cover :=
  ⟨un.chans.map (·.tid), un.chans.foldl (fun m c => c.cmds.foldl (fun m x => max m x.wDone) m) now⟩

/-! ### Issue cycles and regions -/

/-- The divisor of walker `k`'s issue cycles (R9): always 1 for `sw`. -/
def Unit.divisor (un : Unit) (k : Nat) : Nat := if k = 0 then 1 else max 1 (un.div.getD k 1)

/-- Cycle `c` is an issue cycle under divisor `d`. -/
def isIssue (d c : Nat) : Bool := c % d == 0

/-- The first issue cycle at or after `c` under divisor `d`. -/
def nextIssue (d c : Nat) : Nat := if c % d = 0 then c else c + (d - c % d)

/-- Lsc of a scope (R119). -/
def Unit.lsc (un : Unit) (scope : Nat) : Nat := max 1 (un.lat.lsc.getD scope 1)

/-- The unit of that package unit number, where one is cast on. -/
def State.unit? (s : State) (u : Nat) : Option Unit := find s.units u

/-- Replace a unit. -/
def State.setUnit (s : State) (u : Nat) (un : Unit) : State := { s with units := put s.units u un }

/-- Change a unit, where there is one. -/
def State.modUnit (s : State) (u : Nat) (f : Unit → Unit) : State :=
  match s.unit? u with
  | some un => s.setUnit u (f un)
  | none => s

/-- The region that a unit lies in where the state lists none. -/
def Region.zero : Region :=
  { job := 0, rcb := 0, gauge := .off, still := .idle, halted := false, rcc := 0, rsc := 0, p := 1, q := 1, src := 0, strict := false
    f0 := ⟨1, 1⟩, conv := ⟨1, 1⟩, anchor := ⟨0, 1⟩, anchorCyc := 0, period := ⟨1, 1⟩, fresh := true, srcN := 0, stamps := [], lastInst := ⟨0, 1⟩
    srcPeriod := ⟨1, 1⟩, measured := ⟨1, 1⟩, onTime := 0, missed := 0, drift := 0, steady := 0, good := 0, base := 0, baseInst := ⟨0, 1⟩, holdRsc := 0
    freezeAt := none, stopAt := none, haltAt := none, steps := 0, slew := false, thawAt := none, thawFrom := none, disc := false
    shed := false, overB := false, refusedB := false, wdf := false, perr := false, rscd := 0, overRun := 0, haltN := 0, jump := none, shedding := false, armed := 0
    openCyc := false, reserved := [], far := false, placed := (⟨0, 1⟩, 0, 0) }

/-- Region number `r`. -/
def State.region (s : State) (r : Nat) : Region := s.regions.getD r Region.zero

/-- Change region `r`. -/
def State.setRegion (s : State) (r : Nat) (f : Region → Region) : State := { s with regions := modify s.regions r f }

/-- `RCC` of a unit's region. -/
def State.now (s : State) (un : Unit) : Nat := (s.region un.region).rcc

end Sys2Proof.Machine
end

