-- ==== Sys2Proof/Machine/Time.lean ====
section
/-! DEFINITION. Time: fractions of a nanosecond, the instants of region cycles (R256, R288) and the conversion of R6. -/

namespace Sys2Proof.Machine

/-- Whole nanoseconds. -/
def Frac.ofNat (n : Nat) : Frac := ⟨n, 1⟩
/-- Reduce to lowest terms, so that equal times are equal data. -/
def Frac.norm (a : Frac) : Frac := let g := Nat.gcd a.num a.den; if g = 0 then ⟨0, 1⟩ else ⟨a.num / g, a.den / g⟩
/-- Sum. -/
def Frac.add (a b : Frac) : Frac := Frac.norm ⟨a.num * b.den + b.num * a.den, a.den * b.den⟩
/-- Difference, 0 where it would be negative. -/
def Frac.sub (a b : Frac) : Frac := Frac.norm ⟨a.num * b.den - b.num * a.den, a.den * b.den⟩
/-- Product. -/
def Frac.mul (a b : Frac) : Frac := Frac.norm ⟨a.num * b.num, a.den * b.den⟩
/-- Quotient, 0 for a zero divisor. -/
def Frac.div (a b : Frac) : Frac := Frac.norm ⟨a.num * b.den, a.den * b.num⟩
/-- Order. -/
def Frac.le (a b : Frac) : Bool := decide (a.num * b.den ≤ b.num * a.den)
/-- Strict order. -/
def Frac.lt (a b : Frac) : Bool := decide (a.num * b.den < b.num * a.den)
/-- The later of two times. -/
def Frac.max (a b : Frac) : Frac := if a.le b then b else a
/-- The absolute difference. -/
def Frac.dist (a b : Frac) : Frac := if a.le b then b.sub a else a.sub b
/-- Whole part (R288). -/
def Frac.floor (a : Frac) : Nat := a.num / a.den
/-- Rounded up. -/
def Frac.ceil (a : Frac) : Nat := (a.num + a.den - 1) / a.den
/-- A whole multiple. -/
def Frac.scale (a : Frac) (k : Nat) : Frac := Frac.norm ⟨a.num * k, a.den⟩

/-- R6: `ns` nanoseconds as region cycles at `ghz`, rounded up. -/
def toRc (ghz : Frac) (ns : Nat) : Nat := (ghz.scale ns).ceil

/-- The instant at which cycle `n` of the region begins. -/
def Region.cycleTime (r : Region) (n : Nat) : Frac := r.anchor.add (r.period.scale (n - r.anchorCyc))

end Sys2Proof.Machine
end

