-- ==== Sys2Proof/Machine/Ops.lean ====
section
/-! DEFINITION. Named operations over the machine: reads of the unit store, TAKING A FAULT (R274-R276, R281-R283) and the halt wave's
start (R289), and the return to running (R279, R280). -/

namespace Sys2Proof.Machine

/-- A walker load issued in cycle `v` sees the walker stores performed at the end of `v - 1` or earlier and the copy writes performed at
the end of `v` or earlier (R89, R180) (log 16, DEDUCED). -/
def seesLoad (v : Nat) (w : WriteRec) : Bool := if w.cls = 0 then decide (w.at_ + 1 ≤ v) else decide (w.at_ ≤ v)

/-- A copy beat issued in cycle `u` sees the writes performed at the end of `u - 2` or earlier (R180). -/
def seesCopy (u : Nat) (w : WriteRec) : Bool := decide (w.at_ + 2 ≤ u)

/-- `n` bytes of the unit store as a walker load issued in cycle `v` reads them. -/
def Unit.loadBytes (un : Unit) (v a n : Nat) : List Byte := (List.range n).map fun k => un.store.readBy (seesLoad v) (a + k)

/-- The 64-bit words of the unit store that `n` bytes at `a` touch hold an uncorrectable error (R234). -/
def Unit.badAt (un : Unit) (a n : Nat) : Bool := un.badWords.any fun w => decide (w * 8 < a + n) && decide (a < w * 8 + 8)

/-- Sign- or zero-extended value of loaded bytes (R87). -/
def extend (signed : Bool) (bs : List Byte) : W64 :=
  let v := BitVec.ofNat (8 * bs.length) (leNat bs)
  if signed then v.signExtend 64 else v.zeroExtend 64

/-- The code of a cause (R205). -/
def Cause.code : Cause → Nat
  | .illegal => 1 | .access => 2 | .xlate => 3 | .formatGranule => 4 | .scheduleMiss => 5 | .slip => 6 | .timing => 7
  | .returnUnderflow => 8 | .memUe => 9 | .watch => 10 | .bkpt => 11 | .trap => 12 | .preempt => 13 | .watchdog => 14

/-- The image of `CAUSE` (R205). -/
def causeImage (c : Cause) (wk wset info : Nat) : W64 :=
  BitVec.ofNat 64 (c.code + wk % 4 * 2 ^ 16 + wset % 16 * 2 ^ 20 + info % 65536 * 2 ^ 32)

/-- What the composite record says of a fault beyond `CAUSE` (R278). -/
structure Detail where
  eng     : Nat
  chan    : Nat
  trigger : Nat
  tid     : Nat
  beat    : Nat
  addr    : W64
  origin  : W32
  deriving DecidableEq, Repr

/-- A fault raised by a walker's word. -/
def Detail.walker : Detail := ⟨0, 0, 0, 0, 0, 0, 0⟩

/-- A control-subset result, which a stop freezes with its walker (R274, R279); engine results go on landing (R172). -/
def Eff.isControl : Eff → Bool
  | .x .. | .push .. | .steer .. | .load .. => true
  | _ => false

/-- A load in flight as the value it has read (R88). -/
def Unit.resolve (un : Unit) : Eff → Eff
  | .load wk phys q addr size signed cut =>
    let v : Val := ⟨extend signed (un.loadBytes cut addr size), un.badAt addr size⟩
    match q with
    | some q => .push q v false
    | none => .x wk phys v
  | e => e

/-- The issue cycles under divisor `d` in the cycles from `a` to `b` inclusive. -/
def issuesIn (d a b : Nat) : Nat := if b < a then 0 else b / d + 1 - (a + d - 1) / d

/-- Freeze a walker's control results at a stop in cycle `c`: each keeps REM, the walker's issue cycles that still read the old value
(R223, R279). -/
def Unit.freezeWalker (un : Unit) (k c : Nat) : Unit :=
  let d := un.divisor k
  un.setWk k fun w => { w with inflight := w.inflight.map fun p =>
    if p.eff.isControl then { p with eff := un.resolve p.eff, due := issuesIn d c p.due } else p }

/-- A walker's level named by a tag part is still active and running (R111). -/
def Unit.tagOpen (un : Unit) (wk loopWord : Nat) : Bool := let w := un.wk wk; !w.stopped && w.levels.any fun l => l.word == loopWord

/-- Land a steer write (R14, R91, R111). -/
def Unit.landSteer (un : Unit) (w : SteerWrite) : Unit :=
  let w := { w with tag := w.tag.map fun t => { t with isOpen := t.isOpen && un.tagOpen w.wk t.loopWord } }
  let (st, seq) := (un.steers.getD w.reg ⟨[], 0⟩).land w
  let un := { un with steers := un.steers.set w.reg st }
  if w.inBody && w.seq.isNone then un.setWk w.wk fun k => { k with bodySeq := keepNum k.bodySeq w.reg w.word seq } else un

/-- Restore a window's frame from the spill area (R103). -/
def Unit.landRefill (un : Unit) (wk win addr cut : Nat) : Unit :=
  let bs := un.loadBytes cut addr 256
  let ps := leNat ((bs.drop 136).take 2)
  un.setWk wk fun w =>
    let x := (List.range 16).foldl (fun x j =>
      x.set (16 + 16 * win + j) (⟨BitVec.ofNat 64 (leNat ((bs.drop (8 * j)).take 8)), ps.testBit j || un.badAt (addr + 8 * j) 8⟩ : Val)) w.x
    { w with x, ras := w.ras.set win (leNat ((bs.drop 128).take 8)) }

/-- Land the refills in flight (R104): the restored registers are in the record of a stop, as they are at the target's first issue. -/
def Unit.landRefills (un : Unit) : Unit :=
  un.pend.foldl (fun un p => match p.eff with
    | .refill wk win a cut => { un.landRefill wk win a cut with pend := un.pend.filter fun q => q.seq != p.seq }
    | _ => un) un

/-- Freeze the four walkers at a stop in cycle `c`; `own` where a word of `sw` has issued in it, whose issue cycle is over. -/
def Unit.freeze (un : Unit) (c : Nat) (own : Bool) : Unit :=
  (List.range 4).foldl (fun un k => un.freezeWalker k (if own && k == 0 then c + 1 else c)) un

/-- Land a frozen result of walker `k`. -/
def Unit.landFrozen (un : Unit) (p : Pend) : Unit :=
  match p.eff with
  | .x wk q v => un.setWk wk fun w => w.setReg q v
  | .push q v _ => un.qPush q v
  | .steer w => un.landSteer w
  | _ => un

/-- Give a frozen result the cycle before the walker's next issue cycle after REM of them (R279); one that no issue cycle of the walker still
precedes lands before its first word, but a message that waits for room in its queue (R12, R124). `r` is the cycle of the restart. -/
def Unit.thawWalker (un : Unit) (k r : Nat) : Unit :=
  let d := un.divisor k
  let w := un.wk k
  let kept : Pend → Bool := fun p => match p.eff with | .push q _ ext => ext && un.qOver q | _ => false
  let first : Pend → Bool := fun p => p.eff.isControl && p.due == 0 && nextIssue d r == r && !kept p
  let back := (w.inflight.filter fun p => !first p).map fun p => if p.eff.isControl then { p with due := nextIssue d r + p.due * d - 1 } else p
  (w.inflight.filter first).foldl Unit.landFrozen (un.setWk k fun w => { w with inflight := back })

/-- The walkers run again from cycle `r`. -/
def Unit.thaw (un : Unit) (r : Nat) : Unit := (List.range 4).foldl (fun un k => un.thawWalker k r) un

/-- Stop one unit with a fault in the current cycle (R274-R276). A precise fault of the stop's own cycle adds its walker to WSET
(R56), and takes the place of an imprecise one; a later fault is not recorded. -/
def State.stopOne (s : State) (u : Nat) (c : Cause) (cls : FaultClass) (wk info : Nat) (d : Detail) (own : Bool := true) : State :=
  match s.unit? u with
  | none => s
  | some un =>
    let now := s.now un
    let wset := if cls = .u then 0 else 2 ^ wk
    let img := causeImage c (if cls = .u then 0 else wk) wset info
    let stop : Stop :=
      { own, cycle := now, cls, eng := d.eng, chan := d.chan, trigger := d.trigger, tid := d.tid, beat := d.beat, addr := d.addr
        origin := d.origin, jobNs := ((s.region un.region).cycleTime now).floor, wrote := false, recNs := none, complete := false
        image := [], blocks := [], rsc := (s.region un.region).rsc % 2 ^ 64, busy := un.mult.isSome || decide (now < un.mfree)
        nA := un.ska.length, nB := un.skb.length, action := none }
    match un.stop with
    | some st =>
      if st.cycle = now ∧ un.run = .stopped then
        if cls = .p ∧ st.cls = .p then
          s.setUnit u { un with cause := un.cause ||| BitVec.ofNat 64 (wset * 2 ^ 20) }
        else if cls = .p ∨ (cls = .u ∧ st.cls = .i) then s.setUnit u { un with cause := img, stop := some stop }
        else s
      else s
    | none =>
      if un.run = .running ∨ un.run = .frozen then
        let un := if un.run = .frozen then un else un.freeze now (c == .bkpt && cls == .p)
        s.setUnit u { un with
          run := .stopped, cause := img, stop := some stop, ctx := none, yieldAt := none
          walkers := un.walkers.map fun w => { w with epc := BitVec.ofNat 64 w.idx } }
      else s

/-- The RCB of a unit's kernel. -/
def State.rcbOf (s : State) (un : Unit) : Option Rcb := s.rcbs[(s.kernels[un.kernel]?.map (·.rcb)).getD 0]?

/-- The unit's kernel was cast on with SHAPE 2, so that pair partners form one fault domain (R282). -/
def State.isPaired (s : State) (un : Unit) : Bool := (s.kernels[un.kernel]?.map (·.shape == 2)).getD false

/-- Hops to a package (R315) (log 68, DEDUCED). -/
def State.hopsTo (s : State) (pkg : Nat) : Nat := if pkg = s.boot.pkgNo then 0 else (s.boot.routes.getD pkg (0, 0)).2

/-- The largest number of hops to a member package of a region, or of a job where `whole` (R119, R289). -/
def State.memberHops (s : State) (region : Nat) (whole : Bool) : Nat :=
  let r := s.region region
  (s.rcbs.filter fun b => b.job == r.job && (whole || b.region == r.rcb)).foldl (fun m b => max m (s.hopsTo b.homePkg)) 0

/-- A flit is to leave on a port. -/
def State.send (s : State) (port : Nat) (f : Flit) : State := { s with txq := s.txq ++ [(port, f)] }

/-- The flit count of a port after one more flit, and whether the firmware renews the keys first, before the count reaches 2^32 (R317): idle flits
have gone before it. -/
def nextCount (p keys count : Nat) : Nat × Bool :=
  let c := count + Config.idleFlits p keys count + 1
  if c < 2 ^ 32 then (c, false) else (1, true)

/-- A flit leaves on port `p` (R316, R317): its link sequence number, and the counts. -/
def State.emit (s : State) (p : Nat) (f : Flit) : State :=
  let seq := ((s.ports[p]?).map (·.txSeq)).getD 0
  { s with
    out := s.out ++ [.flit p { f with lseq := BitVec.ofNat 16 seq }]
    ports := modify s.ports p fun (x : Port) =>
      let (c, renew) := nextCount (2 * p) x.keys x.txCount
      { x with txSeq := (x.txSeq + 1) % 65536, txCount := c, rxCount := if renew then 0 else x.rxCount, keys := if renew then x.keys + 1 else x.keys } }

/-- The flits that wait leave: those of the control channel first, then responses, then requests (R316; log 95, DEDUCED). -/
def State.serve (s : State) : State :=
  let of := fun (vc : BitVec 2) => s.txq.filter fun e => e.2.vc == vc
  (of 0 ++ of 2 ++ of 1 ++ of 3).foldl (fun s e => s.emit e.1 e.2) { s with txq := [] }

/-- A control flit to package `pkg` (R316); the layout of its payload is the model's (log 41, DESIGN CHOICE; log 95, DEDUCED). -/
def State.tell (s : State) (type pkg param unit : Nat) (payload : List Byte) : State :=
  let route := s.boot.routes.getD pkg (0, 0)
  let f : Flit :=
    { type := BitVec.ofNat 4 type, vc := 0, dpkg := BitVec.ofNat 8 pkg, spkg := BitVec.ofNat 8 s.boot.pkgNo, hops := BitVec.ofNat 8 route.2
      unit := BitVec.ofNat 8 unit, chan := 0, part := 0, xid := 0, lseq := 0, param := BitVec.ofNat 32 param
      payload := payload ++ List.replicate (96 - payload.length) 0 }
  s.send route.1 f

/-- The other packages of a job. -/
def State.jobPackages (s : State) (job : Nat) : List Nat :=
  (s.rcbs.filter (·.job == job)).foldl (fun (l : List Nat) b => if b.homePkg = s.boot.pkgNo ∨ l.contains b.homePkg then l else l ++ [b.homePkg]) []

/-- Tell every other package of a job (R289, R294, R295). -/
def State.tellJob (s : State) (type job unit : Nat) (payload : List Byte) : State :=
  (s.jobPackages job).foldl (fun s p => s.tell type p job unit payload) s

/-- Start a halt wave of a job at `t0` from unit `u` of package `pkg` (R283, R289): the first cause, and the instant by which each region of
the job halts, `lag` being H of each region that the wave names. -/
def State.startWave (s : State) (job pkg u : Nat) (t0 : Frac) (cause : W64) (lag : Nat → Option Nat) : State :=
  match find s.jobs job with
  | none => s
  | some j =>
    let newer : Bool :=
      match j.first with
      | none => true
      | some (t, pkg', u') => t0.lt t || (t0.le t && (decide (pkg < pkg') || (pkg == pkg' && decide (u ≤ u'))))
    let j := { j with jstate := if j.jstate = 0 then 1 else j.jstate }
    let j := if newer then
      { j with first := some (t0, pkg, u), jcause := cause, jtstop := BitVec.ofNat 64 t0.floor, jorig := BitVec.ofNat 64 (pkg * 256 + u) } else j
    let s := { s with jobs := put s.jobs job j }
    { s with regions := s.regions.zipIdx.map fun e =>
        let r := e.1
        match lag e.2 with
        | some h =>
          if r.job = job ∧ !r.halted then
            let lim := t0.add (Frac.ofNat (150 + 450 * h))
            { r with haltAt := some (match r.haltAt with | some l => if l.le lim then l else lim | none => lim) }
          else r
        | none => r }

/-- The halt wave that unit `u` of this package starts at `t0` (R289): H of a region counts from this package, and a flit for each region of
the job tells it to the other packages (log 41, DESIGN CHOICE). -/
def State.sendWave (s : State) (job u : Nat) (t0 : Frac) (cause : W64) : State :=
  let here := s.startWave job s.boot.pkgNo u t0 cause fun i => some (s.memberHops i false)
  (s.regions.zipIdx.filter fun e => e.1.job == job).foldl (fun here e =>
    here.tellJob 7 job u (leBytes 8 t0.num ++ leBytes 8 t0.den ++ leBytes 8 cause.toNat ++
      leBytes 8 (((s.rcbs[e.1.rcb]?).map (·.va)).getD 0) ++ leBytes 8 (s.memberHops e.2 false))) here

/-- The instant at which the unit's current region cycle begins. -/
def State.cycleStart (s : State) (un : Unit) : Frac := (s.region un.region).cycleTime (s.now un)

/-- Who else stops once unit `u` has stopped on cause `c` in this cycle: the job's halt wave, or its region in the next cycle (R281). -/
def State.spread (s : State) (u : Nat) (c : Cause) : State :=
  match s.unit? u with
  | none => s
  | some un =>
    let policy : Nat := ((s.rcbOf un).map (·.policy)).getD 0
    let job := (s.region un.region).job
    -- where this stop has sent the wave already, the first cause follows what has taken its cause's place
    let sent : Bool := ((find s.jobs job).bind (·.first)) == some (s.cycleStart un, s.boot.pkgNo, u)
    let s := if c = .watch ∨ c = .bkpt ∨ policy = 2 ∨ sent then s.sendWave job u (s.cycleStart un) un.cause else s
    if c ≠ .watch ∧ c ≠ .bkpt ∧ policy = 1 then
      s.setRegion un.region fun r => { r with stopAt := match r.stopAt with | some x => some x | none => some (r.rcc + 1) }
    else s

/-- A precise fault takes the place of the stop with its pair partner that the unit has made in this cycle (R274, R282). -/
def Unit.ownsStop (un : Unit) (now : Nat) (cls : FaultClass) : Bool := cls == .p && un.stop.any fun st => !st.own && st.cycle == now

/-- STOPS of the job counts a unit that stops on a cause of its own of class `cls` (R293): a running one, or one that its pair partner has stopped in this
cycle and whose own precise fault takes the place of that cause (R274). -/
def State.countStop (s : State) (un : Unit) (cls : FaultClass) : State :=
  let job := (s.region un.region).job
  match find s.jobs job with
  | some j => if un.run = .running ∨ un.run = .frozen ∨ un.ownsStop (s.now un) cls then { s with jobs := put s.jobs job { j with stops := min 255 (j.stops + 1) } } else s
  | none => s

/-- The pair partner of unit `u` stops with it, with `TIMING` (R282). -/
def State.stopPartner (s : State) (u : Nat) : State := s.stopOne (partner u) .timing .u 0 (u % 256) Detail.walker false

/-- TAKE A FAULT: `CAUSE` records it, every walker's `EPC` takes the word at which it stands, the unit stops in the current cycle
(R274-R276), and its pair partner with it (R282); then the policy of its RCB applies (R281) (log 21, DEDUCED). -/
def State.takeFault (s : State) (u : Nat) (c : Cause) (cls : FaultClass) (wk info : Nat) (d : Detail) : State :=
  match s.unit? u with
  | none => s
  | some un =>
    if un.run = .stopped ∧ (un.stop.map (·.cycle)) ≠ some (s.now un) then s
    else
      let s := s.countStop un cls
      let s := s.stopOne u c cls wk info d
      let s := if s.isPaired un then s.stopPartner u else s
      s.spread u c

end Sys2Proof.Machine
end

