-- ==== Sys2Proof/Machine/Walk.lean ====
section
/-! DEFINITION. How a walker takes one word (R9, R33-R37, R55, R56, R107-R112, R216): it passes a word that it does not execute, squashes
one whose stage is not live, and otherwise waits, faults or issues. Every word's meaning is a body given to `runWord`. -/

namespace Sys2Proof.Machine

/-- What the walk reads of a word besides its meaning. -/
structure WordInfo where
  /-- The walkers that execute it (R33, R34). -/
  who   : Nat → Bool
  /-- The word and its literal words (R41). -/
  words : Nat
  /-- The steer register for which it is a steer-writing word (R14). -/
  steer : Option Nat
  /-- The channel on which it is a copy command (R116, R178). -/
  chan  : Option Nat
  /-- Engine cycles for which it occupies the vector and the matrix engine (R127, R171); `held` where the matrix engine holds it
  (R160). -/
  vocc  : Nat
  mocc  : Nat
  held  : Bool
  /-- It is a `wsync` (R117). -/
  sync  : Bool
  /-- Its body is consulted even while its engine is occupied, and answers so itself (R232). -/
  early : Bool
  /-- A vector word that waits for its engine although it would hold it for no cycle: one that spells no instruction (R127). -/
  vheld : Bool
  /-- The first cycle in which the matrix engine is free again after a multiply, from the cycle in which the word issues or is squashed
  (R108, R160, R171). -/
  mult  : Option (Unit → Nat → Nat)

/-- A control-subset word of walker mask `w` (R34). -/
def ctl (w : BitVec 4) : WordInfo := ⟨fun k => w.toNat.testBit k, 1, none, none, 0, 0, false, false, false, false, none⟩
/-- A control-subset word that writes steer register `d` (R14); the destination lies in 0-11. -/
def ctlSteer (w : BitVec 4) (d : Nat) : WordInfo :=
  { ctl w with steer := if w = 0 then none else if d < 12 then some d else none }
/-- A vector word of occupancy `o` (R127). -/
def vecWord (o : Nat) : WordInfo := ⟨fun k => k == 2, 1, none, none, o, 0, false, false, false, false, none⟩
/-- A matrix word of occupancy `o` (R171). -/
def matWord (o : Nat) (held : Bool) : WordInfo := ⟨fun k => k == 1, 1, none, none, 0, o, held, false, false, false, none⟩
/-- A copy word; `ch` where it takes a transfer ID (R177). -/
def cpyWord (ch : Option Nat) : WordInfo := ⟨fun k => k == 3, 1, none, ch, 0, 0, false, false, false, false, none⟩
/-- A system word (R203). -/
def sysWord : WordInfo := ⟨fun k => k == 0, 1, none, none, 0, 0, false, false, false, false, none⟩

/-- Where a walker goes after a word that issues. -/
inductive Next where
  /-- To the next word, in its next issue cycle. -/
  | seq
  /-- To `target`, considered in its `after`-th issue cycle from now (R100). -/
  | jump (target after : Nat)
  /-- To `target`, the words between counting as passed; copy commands among them count where `copies` (R109, R137). -/
  | skip (target after : Nat) (copies : Bool)
  /-- To `target`, both loop levels abandoned (R125). -/
  | abandon (target after : Nat)

/-- What a word does in the cycle in which its walker stands at it. -/
inductive Act where
  /-- It waits in both modes; the class and flag that R299 counts. -/
  | wait (cls : Nat) (flag : Option Nat)
  /-- It waits in both modes, and its standing there changes the state (R121, R232). -/
  | stand (s : State) (cls : Nat) (flag : Option Nat)
  /-- It cannot issue for want of flag `flag`: a wait in lenient mode, `SCHEDULE-MISS` in strict mode (R28). -/
  | miss (flag : Nat)
  /-- It raises a precise fault (R55, R275). -/
  | fault (c : Cause) (info : Nat)
  /-- Its engine raises an imprecise fault (R275). -/
  | engine (c : Cause) (d : Detail)
  /-- It issues. -/
  | go (s : State) (n : Next)

/-- The passes a level runs end with this one (R108, R114): the trip count, cut by a drain. -/
def Level.limit (l : Level) : Nat := match l.drain with | some p => min l.trip p | none => l.trip

/-- Pass `p` is one that the level runs (R108). -/
def Level.runs (l : Level) (p : Nat) : Bool := decide (l.from_ < l.limit) && decide (p + 2 ≤ l.limit + l.stages)

/-- The stage of body word `i` (R107). -/
def Level.stage (l : Level) (i : Nat) : Nat := (i - l.word - 1) / (max 1 (l.len / max 1 l.stages))

/-- Stage `st` is live in the level's current pass (R108). -/
def Level.live (l : Level) (st : Nat) : Bool := decide (l.from_ + st ≤ l.pass) && decide (l.pass < l.limit + st)

/-- Word `i` is in no body whose stage is not live. -/
def Walker.liveAt (w : Walker) (i : Nat) : Bool :=
  match w.inner with
  | some l => !(l.holds i) || l.live (l.stage i)
  | none => true

/-- Word `i` counts for R9 and R14 when the walker passes it now (R111). -/
def Walker.countsAt (w : Walker) (i : Nat) : Bool := w.levels.all fun l => !(l.holds i) || l.pass == l.first

/-- A number kept for a body word. -/
def bodyNum (l : List (Nat × Nat × Nat)) (reg word : Nat) : Option Nat :=
  (l.find? fun e => e.1 == reg && e.2.1 == word).map (·.2.2)

/-- A drained level as it stands at its `loop` word, to resume from pass `pd` (R114). One that drains at its first pass has run none, so that
its body words count in that pass when it resumes (R108, R111). -/
def Level.drained (l : Level) (pd : Nat) : Level := { l with from_ := pd, pass := pd, started := false, drain := none }

/-- Walker `k` resumes its drained level `l` from pass F (R111, R114): the tags of what it wrote in the level, and in the levels around it, open
again, as of the pass before F, and so do the passes that the walker itself held there (log 105, DEDUCED). -/
def Unit.reopen (un : Unit) (k : Nat) (l : Level) : Unit :=
  let w := un.wk k
  let cap := fun (q : Nat) => min q (l.pass - 1)
  let part := fun (t : TagPart) =>
    if t.loopWord = l.word then { t with isOpen := true, pass := cap t.pass }
    else if w.levels.any (·.word == t.loopWord) then { t with isOpen := true }
    else t
  let entry := fun (r : Nat) (h : SteerEntry) =>
    if h.wk == k && bodyNum w.bodySeq r h.word == some h.seq then { h with tag := h.tag.map part } else h
  let un := { un with steers := un.steers.zipIdx.map fun (e : Steer × Nat) => { e.1 with hist := e.1.hist.map (entry e.2) } }
  let count := fun (c : SteerCount) => { c with passes := c.passes.map fun (p : Nat × Nat) => if p.1 = l.word then (p.1, cap p.2) else p }
  un.setWk k fun w => { w with steers := w.steers.map count }

/-- The steer counts after passing a steer-writing word `i` (R14, R111). -/
def Walker.countSteer (w : Walker) (i : Nat) : Option Nat → Walker
  | none => w
  | some r =>
    let old := w.steers.getD r ⟨0, 0, false, []⟩
    let n := if w.countsAt i then (old.n + 1) % 65536 else (bodyNum w.bodyN r i).getD old.n
    { w with
      steers := w.steers.set r ⟨n, i, true, w.passes i⟩
      bodyN := if (w.passes i).isEmpty then w.bodyN else keepNum w.bodyN r i n }

/-- Count the copy command of a word (R116). -/
def Walker.countCopy (w : Walker) (i : Nat) : Option Nat → Walker
  | none => w
  | some c => if w.liveAt i then { w with copies := modify w.copies c (· + 1) } else w

/-- Pass or issue the word at `i` with its literal words: the counts and the place (R9, R14, R111, R116, R117). -/
def Walker.cross (w : Walker) (now i : Nat) (f : WordInfo) : Walker :=
  let seen := if f.sync then ⟨i, w.count, now, w.passes i⟩ :: w.synced else w.synced
  let counts := w.countsAt i
  let w := (w.countSteer i f.steer).countCopy i f.chan
  { w with
    synced := seen.take 4096
    count := if counts then w.count + f.words else w.count
    trail := if counts then (((List.range f.words).reverse.map (i + ·)) ++ w.trail).take 5400 else w.trail
    idx := i + f.words }

/-- At the end of a body: the next pass, or the end of the level (R109, R110, R114). The loop words of the levels that end are
returned, for their tags (R111). -/
def Walker.wrap1 (w : Walker) : Walker × List Nat :=
  match w.inner with
  | none => (w, [])
  | some l =>
    if l.started ∧ l.last < w.idx then
      let start := max (l.began + l.ii) l.after
      if l.runs (l.pass + 1) then
        ({ w with inner := some { l with pass := l.pass + 1, started := false }, idx := l.word + 1, ready := max w.ready start }, [])
      else
        match l.drain with
        | some pd =>
          if pd < l.trip then
            ({ w with inner := some (l.drained pd), idx := l.word, stopped := true },
              [l.word])
          else
            ({ w with inner := w.outer, outer := none, idx := l.last + 1, stopped := true, ready := max w.ready start }, [l.word])
        | none =>
          ({ w with
             inner := w.outer.map fun o => { o with after := max o.after start }
             outer := none, idx := l.last + 1, ready := max w.ready start }, [l.word])
    else (w, [])

/-- A walker after its word, both levels considered. -/
def Walker.wrap (w : Walker) : Walker × List Nat :=
  let (w1, c1) := w.wrap1
  if c1.isEmpty || w1.stopped then (w1, c1) else
  let (w2, c2) := w1.wrap1
  (if w2.inner.isNone then { w2 with bodySeq := [], bodyN := [] } else w2, c1 ++ c2)

/-- The tags of walker `k`'s levels of the loop words `cs` close at the end of cycle `now`, after the steer writes that land there (R111). -/
def Unit.closeLevels (un : Unit) (now k : Nat) (cs : List Nat) : Unit := cs.foldl (fun un c => un.later now 3 (.close k c)) un

/-- Settle a walker's loop levels after a change of place, and close the tags of levels that end (R111). -/
def Unit.wrapWalker (un : Unit) (now k : Nat) : Unit :=
  let (w, cs) := (un.wk k).wrap
  (un.setWk k fun _ => w).closeLevels now k cs

/-- Walker `k` resumes behind the body of a level that ended as it stopped: the outer level, if its body ends there too, begins its next pass or
ends (R110, R114). -/
def Unit.goOn (un : Unit) (k : Nat) : Unit :=
  let (w, cs) := (un.wk k).wrap
  { un.setWk k fun _ => w with steers := cs.foldl (fun st c => st.map (closeTags k c)) un.steers }

/-- Count the words from `i` up to `target` as passed without running them (R109, R137). -/
def Walker.skipTo (store : List W32) (now : Nat) (copies : Bool) (target : Nat) : Nat → Nat → Walker → Walker
  | 0, _, w => w
  | fuel + 1, i, w =>
    if target ≤ i then w
    else
      let raw := (store.getD i 0).toNat
      let f : WordInfo :=
        { who := fun _ => false, words := 1 + literalCount raw, steer := steerWriteReg raw
          chan := if copies then copyCommandChannel raw else none, vocc := 0, mocc := 0, held := false, early := false
          sync := fld raw 31 1 == 0 && fld raw 22 5 == 24 && fld raw 10 2 == 3, vheld := false, mult := none }
      Walker.skipTo store now copies target fuel (i + f.words) (w.cross now i f)

/-- The walker's slot of this cycle ends. -/
def State.close (s : State) (u k cls : Nat) (flag : Option Nat) : State :=
  s.modUnit u fun un => un.setWk k fun w => { w with slot := .done cls flag }

/-- The least word count among a unit's walkers as walker `k` sees it: those before it with the words that they have passed in this cycle,
those behind it as they stood at the end of the previous one (R9) (log 9, DEDUCED). -/
def Unit.slowest (un : Unit) (k : Nat) : Nat :=
  un.walkers.zipIdx.foldl (fun m e => min m (if e.2 ≤ k then e.1.count else e.1.was)) (un.wk k).count

/-- `n` more counted words would take walker `k` past the slip window (R9). -/
def Unit.slips (un : Unit) (k n : Nat) : Bool := decide (un.slowest k + un.slipw.toNat < (un.wk k).count + n)

/-- `sw` stands in this cycle at a `halt`, `ctxs` or `ctxl` word, so that the other walkers hold (R216). -/
def Unit.quietWord (un : Unit) : Bool :=
  let w := un.wk 0
  let raw := (un.istore.getD w.idx 0).toNat
  let quiet : Bool := decide (fld raw 29 3 = 7) && (decide (fld raw 23 6 = 9) || decide (fld raw 23 6 = 10) || decide (fld raw 23 6 = 11))
  match w.slot with
  | .walking n => decide (n < 8) && decide (w.ready ≤ w.ic) && !w.held && !w.stopped && quiet &&
      (match w.inner with | some l => l.started && (!(l.holds w.idx) || l.live (l.stage w.idx)) | none => true)
  | .done _ f => f == some 0x32 || (quiet && w.since.isSome && !w.stopped)

/-- Note an event that START or STOP of a trigger names (R213, R214): KIND 2 the issue or squash of a word, KIND 5 the raise of a flag. -/
def Trigger.note (g : Trigger) (now kind k x : Nat) : Trigger :=
  let is := fun (c : W64) => decide (c.toNat % 16 = kind) && decide (c.toNat / 16 % 4 = k) &&
    (if kind = 2 then decide (c.toNat / 2 ^ 16 % 2 ^ 16 = x) else decide (c.toNat / 256 % 32 = x))
  if g.armed && decide (g.from_ ≤ now) then { g with seenS := g.seenS || is g.start, seenP := g.seenP || is g.stop } else g

/-- A word that has issued: its place, the walker's next issue cycle, its slot (R36, R100, R109). -/
def Unit.retire (un0 : Unit) (now k i : Nat) (f : WordInfo) (n : Next) : Unit :=
  let un := un0.setWk k fun w =>
    let w := w.cross now i f
    let w := { w with
      since := none, matched := false, slot := .done 0 none, ready := w.ic + 1
      inner := w.inner.map fun l => if l.holds i then { l with after := w.ic + 1 } else l
      outer := w.outer.map fun l => if l.holds i then { l with after := w.ic + 1 } else l }
    match n with
    | .seq => w
    | .jump t a => { w with idx := t, ready := w.ic + a }
    | .skip t a c => { Walker.skipTo un0.istore now c t 65536 w.idx w with idx := t, ready := w.ic + a }
    | .abandon t a => { w with idx := t, ready := w.ic + a, inner := none, outer := none, bodySeq := [], bodyN := [] }
  let gone : List Nat := match n with | .abandon .. => (un0.wk k).levels.map fun l => l.word | _ => []
  ({ un with trigs := un.trigs.map fun (g : Trigger) => g.note now 2 k i }.closeLevels now k gone).wrapWalker now k

/-- The steer entry that a squashed steer-writing word writes (R111). -/
def Unit.squashSteer (un : Unit) (k i now : Nat) (f : WordInfo) : Unit :=
  match f.steer with
  | some r =>
    if (List.range k).any f.who then un
    else
      let w := un.wk k
      un.later now 1 (.steer
        { reg := r, word := i, wk := k, c := none, t := none, issued := now, seq := bodyNum w.bodySeq r i, inBody := true, squashed := true
          tag := (w.passes i).map fun p => ⟨p.1, p.2, true⟩ })
  | none => un

/-- Hold an engine for the occupancy of a word issued or squashed in `now` (R108, R127, R171). -/
def Unit.occupy (un : Unit) (now : Nat) (f : WordInfo) : Unit :=
  { un with
    vfree := if f.vocc = 0 then un.vfree else now + f.vocc * un.divisor 2
    mfree := if f.mocc = 0 then un.mfree else now + f.mocc * un.divisor 1 }

/-- A squashed multiply holds the matrix engine as the live word would have (R108, R160, R171). -/
def Unit.holdDead (un : Unit) (now : Nat) (f : WordInfo) : Unit :=
  match f.mult with
  | some c => { un with mfree := c un now }
  | none => un

/-- The engine that the word needs is occupied (R127, R160). -/
def Unit.busy (un : Unit) (now : Nat) (f : WordInfo) : Bool :=
  ((f.vheld || decide (0 < f.vocc)) && decide (now < un.vfree)) || (f.held && (decide (now < un.mfree) || un.mult.isSome))

/-- What an entry of `ska` lacks of what the next k-step takes (R154). -/
def lacks (l : List SkEntry) (n : Nat) : Bool := decide (l.length < n) || !(l.take n).all (·.landed)

/-- The class and the flag of a walker at a word that an occupied engine holds (R299, R300): a multiply that waits for an entry of a skein
queue gives that queue's flag (log 107, DEDUCED). -/
def Unit.heldClass (un : Unit) (f : WordInfo) : Nat × Option Nat :=
  match un.mult with
  | some m =>
    if !(f.held && m.waiting) then (2, none)
    else if lacks un.ska 1 then (1, some 0x28)
    else if lacks un.skb (if m.op = 9 then 2 else 1) then (1, some 0x29)
    else (2, none)
  | none => (2, none)

/-- A stop point has come: from it every walker drains its inner level or stops before its next word (R258, R284). -/
def Unit.draining (un : Unit) (now : Nat) : Bool := match un.p0 with | some c => decide (c ≤ now) | none => false

/-- `SCHEDULE-MISS` in strict mode, a wait in lenient mode (R28). -/
def State.missed (s : State) (un : Unit) (u k flag : Nat) : State :=
  if (s.region un.region).strict then s.takeFault u .scheduleMiss .p k 0 Detail.walker else s.close u k 1 (some flag)

/-- One word taken by the walker in focus: passed, squashed, waited at, faulted or issued. A walker whose index has gone past 65,535 by a
word or by a word and its literals raises `ILLEGAL` at that index, 65,536 to 65,538, and literals past the store read as 0 (R37; log 11,
DEDUCED). -/
def runWord (f : WordInfo) (body : State → Nat → Nat → Act) (s : State) : State :=
  let u := s.focus.1
  let k := s.focus.2
  match s.unit? u with
  | none => s
  | some un =>
    let w := un.wk k
    let now := s.now un
    match w.slot with
    | .done .. => s
    | .walking n =>
      if w.stopped then s.close u k 3 none
      else if un.draining now && w.inner.isNone then (s.setUnit u (un.setWk k fun w => { w with stopped := true })).close u k 3 none
      else if w.held then s.close u k 1 (some 0x33)
      else if w.ic < w.ready then s.close u k 3 none
      else if un.haltAt.isSome || (k != 0 && un.quietWord) then s.close u k 3 none
      else if 65536 ≤ w.idx then s.takeFault u .illegal .p k 0 Detail.walker
      else if 8 < n + f.words then s.close u k 3 none
      else if w.countsAt w.idx ∧ un.slips k f.words then s.missed un u k 0x2F
      else if !f.who k then
        s.setUnit u ((un.setWk k fun w => { w.cross now w.idx f with slot := .walking (n + f.words), since := none }).wrapWalker now k)
      else
        let s := s.setUnit u (un.setWk k fun w => { w with since := some (w.since.getD now) })
        if un.busy now f && !(f.early && w.liveAt w.idx) then s.close u k (un.heldClass f).1 (un.heldClass f).2
        else if !w.liveAt w.idx then
          s.modUnit u fun un => (((un.holdDead now f).squashSteer k w.idx now f).occupy now f).retire now k w.idx f .seq
        else
          match body s u k with
          | .wait cls flag => s.close u k cls flag
          | .stand s' cls flag => s'.close u k cls flag
          | .miss flag => s.missed un u k flag
          | .fault c info => s.takeFault u c .p k info Detail.walker
          | .engine c d => s.takeFault u c .i k 0 d
          | .go s' n => s'.modUnit u fun un => (un.occupy now f).retire now k w.idx f n

/-- What the walk reads of a word that spells no instruction. Its walker waits for the engine of its space: every vector-space word for the
vector engine (R127, R152), and the matrix words of a held op6 for the matrix engine (R160, R171). It holds none, since a live one would have
no occupancy (R108; log 11, DEDUCED). -/
def undecodedInfo (raw : Nat) : WordInfo :=
  let op := fld raw 23 6
  { who := executes raw, words := 1 + literalCount raw, steer := steerWriteReg raw, chan := copyCommandChannel raw, vocc := 0, mocc := 0
    held := decide (fld raw 29 3 = 4) && ((decide (8 ≤ op) && decide (op < 13)) || (decide (16 ≤ op) && decide (op < 20)))
    early := false, sync := fld raw 31 1 == 0 && fld raw 22 5 == 24 && fld raw 10 2 == 3, vheld := decide (fld raw 29 3 = 5), mult := none }

/-- A word that spells no instruction: passed by the walkers it does not name, `ILLEGAL` in those it does once its engine is free (R55,
R127, R152; log 11, DEDUCED). -/
def undecoded (raw : Nat) (s : State) : State := runWord (undecodedInfo raw) (fun _ _ _ => .fault .illegal 0) s

end Sys2Proof.Machine
end

