-- ==== Sys2Proof/Machine/Flags.lean ====
section
/-! DEFINITION. The bits of `FLAGS` (R21) and the free values. -/

namespace Sys2Proof.Machine

/-- Invalid operation. -/
def flagNV : Nat := 1
/-- Divide by zero. -/
def flagDZ : Nat := 2
/-- Overflow. -/
def flagOF : Nat := 4
/-- Underflow. -/
def flagUF : Nat := 8
/-- Inexact. -/
def flagNX : Nat := 16
/-- `vql8` clamped a point outside the codebook. -/
def flagL8OV : Nat := 32
/-- An invalid L8 code was decoded. -/
def flagL8INV : Nat := 64
/-- A conversion saturated. -/
def flagSAT : Nat := 128

/-- Union of two sets of flags. -/
def orFlags (a b : Nat) : Nat := (BitVec.ofNat 16 a ||| BitVec.ofNat 16 b).toNat

/-- A set of flags as a `FLAGS` image. -/
def flagBits (f : Nat) : W64 := BitVec.ofNat 64 f

/-- The next free value (log 5, DESIGN CHOICE), and the state after taking it. -/
def State.fresh (s : State) : W64 × State := (Config.freeWord s.free, { s with free := s.free + 1 })

/-- The next free choice among `n` outcomes (log 3, DESIGN CHOICE). -/
def State.choose (s : State) (n : Nat) : Nat × State := (Config.choice s.free % max 1 n, { s with free := s.free + 1 })

end Sys2Proof.Machine
end

