-- ==== Sys2Proof/Machine/Operands.lean ====
section
/-! DEFINITION. Operand forms: register and port sources and destinations (R10-R12, R82, R105), steer sources (R15, R91), bank ports of the
unit store (R229-R232), and the bodies that most control words share. -/

namespace Sys2Proof.Machine

/-- What a meaning answers. -/
abbrev Result := Host.Outcome State Fault Refusal

/-- A field of `fs` names walker `k`'s own port: `ILLEGAL` (R12). -/
def ownPort (k : Nat) (fs : List Nat) : Bool := fs.any fun f => isPort f && f - 12 == k

/-- Read register fields in order, popping ports (R12, R82); the flag number of the queue that has no readable entry otherwise (log 15, DEDUCED). -/
def fetch (k : Nat) : Unit → List Nat → Except Nat (List Val × Unit)
  | un, [] => .ok ([], un)
  | un, f :: fs =>
    if isPort f then
      match (un.queue (inQueue k f)).1 with
      | [] => .error (inQueue k f)
      | v :: _ =>
        match fetch k (un.qPop (inQueue k f)) fs with
        | .ok (vs, un') => .ok (v :: vs, un')
        | .error q => .error q
    else
      match fetch k un fs with
      | .ok (vs, un') => .ok ((un.wk k).reg f :: vs, un')
      | .error q => .error q

/-- Destination field `d` has room: it is no full queue's port. -/
def Unit.room (un : Unit) (k d : Nat) : Bool := !(isPort d && un.qFull (outQueue k d))

/-- The in-flight list of walker `k` is full (R25). -/
def Unit.full (un : Unit) (k : Nat) : Bool := decide (32 ≤ (un.wk k).inflight.length)

/-- The OR of the poison bits of values consumed (R20, R32). -/
def poisonOf (vs : List Val) : Bool := vs.any (·.poison)

/-- Operand `n` of a list of values. -/
def arg (vs : List Val) (n : Nat) : Val := vs.getD n Val.zero

/-- A word that reads register fields `srcs` and lands `f` of them in register field `d` after `lat` cycles (R82-R85). -/
def regBody (ok : Bool) (lat d : Nat) (srcs : List Nat) (f : List Val → Val) (s : State) (u k : Nat) : Act :=
  match s.unit? u with
  | none => .wait 3 none
  | some un =>
    if !ok || ownPort k (d :: srcs) then .fault .illegal 0
    else if un.full k then .miss 0x30
    else
      match fetch k un srcs with
      | .error q => .miss q
      | .ok (vs, un') =>
        if !un'.room k d then .miss (outQueue k d)
        else .go (s.setUnit u (un'.landReg k d (s.now un) lat (f vs))) .seq

/-- A value of one operand. -/
def un1 (f : W64 → W64) (vs : List Val) : Val := ⟨f (arg vs 0).bits, (arg vs 0).poison⟩
/-- A value of two operands. -/
def bin2 (f : W64 → W64 → W64) (vs : List Val) : Val :=
  ⟨f (arg vs 0).bits (arg vs 1).bits, (arg vs 0).poison || (arg vs 1).poison⟩

/-! ### Steer -/

/-- The walker is the lowest-numbered one that the word names, whose value enters the history (R14). -/
def lowest (who : Nat → Bool) (k : Nat) : Bool := !((List.range k).any who)

/-- The steer write of a word that walker `k` issues at index `i` in cycle `now`: C with its poison, T with its poison (R91). -/
def Unit.writeSteer (un : Unit) (k i now reg : Nat) (c : Option (Bool × Bool)) (t : Option (Nat × Bool)) : Unit :=
  let w := un.wk k
  un.enter k now (.steer
    { reg, word := i, wk := k, c, t, issued := now, seq := bodyNum w.bodySeq reg i, inBody := !(w.passes i).isEmpty, squashed := false
      tag := (w.passes i).map fun p => ⟨p.1, p.2, true⟩ })

/-- A 5-bit steer source (R39): a stage predicate of the walker's inner level, or a steer register. -/
def Unit.steerSource (un : Unit) (k f : Nat) : SteerRead :=
  if 16 ≤ f then
    let live := match (un.wk k).inner with
      | some l => l.started && decide (f - 16 < l.stages) && l.live (f - 16)
      | none => false
    .entry { SteerEntry.reset with c := live }
  else un.steerRead k f

/-- Read a steer source or stop as R15 says. -/
def Unit.withSteer (un : Unit) (k f : Nat) (g : SteerEntry → Act) : Act :=
  match un.steerSource k f with
  | .entry e => g e
  | .notLanded => .miss (0x10 + f)
  | .slip => .fault .slip 0

/-! ### Bank ports (R229-R232) -/

/-- The 64-byte blocks that `n` bytes at `a` touch. -/
def blocksOf (a n : Nat) : List Nat := if n = 0 then [] else (List.range ((a + n - 1) / 64 - a / 64 + 1)).map (a / 64 + ·)

/-- Port `p` of the block's bank is free for it in cycle `c`. -/
def Unit.bankFree (un : Unit) (c p b : Nat) : Bool :=
  un.banks.all fun r => !(r.cycle == c && r.port == p && r.bank == b % 32) || r.block == some b

/-- Every access of the list (cycle, port, block) can be reserved together: against what is held and against one another. -/
def Unit.banksFree (un : Unit) (l : List (Nat × Nat × Nat)) : Bool :=
  (l.all fun a => un.bankFree a.1 a.2.1 a.2.2)

/-- Reserve bank cycles. -/
def Unit.reserve (un : Unit) (l : List (Nat × Nat × Nat)) : Unit :=
  { un with banks := un.banks ++ l.map fun a => ⟨a.1, a.2.1, a.2.2 % 32, some a.2.2⟩ }

end Sys2Proof.Machine
end

