-- ==== Sys2Proof/Machine/SteerWords.lean ====
section
/-! DEFINITION. Compares, steer logic, steer moves, `sel` and `prep` (R91-R96). -/

namespace Sys2Proof.Machine

/-- The body of a word that writes a new entry of steer register `d` from values `vs` (R91); a walker that is not the lowest-numbered
one named writes none (R14) (log 14, DEDUCED). -/
def steerBody (who : Nat → Bool) (ok : Bool) (d : Nat) (srcs : List Nat)
    (f : List Val → Option (Bool × Bool) × Option (Nat × Bool)) (s : State) (u k : Nat) : Act :=
  match s.unit? u with
  | none => .wait 3 none
  | some un =>
    if !ok || ownPort k srcs then .fault .illegal 0
    else if un.full k then .miss 0x30
    else
      match fetch k un srcs with
      | .error q => .miss q
      | .ok (vs, un') =>
        let r := f vs
        let i := (un.wk k).idx
        .go (s.setUnit u (if lowest who k then un'.writeSteer k i (s.now un) d r.1 r.2 else un')) .seq

/-- The C of a compare (R92): T, TV and PT are copied at landing. -/
def cmpC (f : W64 → W64 → Bool) (vs : List Val) : Option (Bool × Bool) × Option (Nat × Bool) :=
  (some (f (arg vs 0).bits (arg vs 1).bits, poisonOf vs), none)

/-- A compare of two registers. -/
def cmpOp (w : BitVec 4) (d a b : BitVec 5) (ok : Bool) (f : W64 → W64 → Bool) (s : State) : Result :=
  .next (runWord (ctlSteer w d.toNat) (steerBody (ctl w).who ok d.toNat [a.toNat, b.toNat] (cmpC f)) s)

/-- A compare of a register and a sign-extended 9-bit immediate. -/
def cmpiOp (w : BitVec 4) (d a : BitVec 5) (im : BitVec 9) (ok : Bool) (f : W64 → W64 → Bool) (s : State) : Result :=
  .next (runWord (ctlSteer w d.toNat)
    (steerBody (ctl w).who ok d.toNat [a.toNat] fun vs => cmpC f (vs ++ [⟨im.signExtend 64, false⟩])) s)

/-- `cmp.eq`. C is a = b (R92). -/
def execCmpEq (w : BitVec 4) (d a b : BitVec 5) (s : State) : Result := cmpOp w d a b (wellFormed (.cmpEq w d a b)) (· == ·) s
/-- `cmpi.eq`. C is a = b, b the immediate (R92). -/
def execCmpiEq (w : BitVec 4) (d a : BitVec 5) (im : BitVec 9) (s : State) : Result :=
  cmpiOp w d a im (wellFormed (.cmpiEq w d a im)) (· == ·) s

/-- `cmp.ne`. C is a ≠ b (R92). -/
def execCmpNe (w : BitVec 4) (d a b : BitVec 5) (s : State) : Result := cmpOp w d a b (wellFormed (.cmpNe w d a b)) (· != ·) s
/-- `cmpi.ne`. C is a ≠ b, b the immediate (R92). -/
def execCmpiNe (w : BitVec 4) (d a : BitVec 5) (im : BitVec 9) (s : State) : Result :=
  cmpiOp w d a im (wellFormed (.cmpiNe w d a im)) (· != ·) s

/-- `cmp.lt`. C is a < b signed (R92). -/
def execCmpLt (w : BitVec 4) (d a b : BitVec 5) (s : State) : Result := cmpOp w d a b (wellFormed (.cmpLt w d a b)) BitVec.slt s
/-- `cmpi.lt`. C is a < b signed, b the immediate (R92). -/
def execCmpiLt (w : BitVec 4) (d a : BitVec 5) (im : BitVec 9) (s : State) : Result :=
  cmpiOp w d a im (wellFormed (.cmpiLt w d a im)) BitVec.slt s

/-- `cmp.ge`. C is a ≥ b signed (R92). -/
def execCmpGe (w : BitVec 4) (d a b : BitVec 5) (s : State) : Result := cmpOp w d a b (wellFormed (.cmpGe w d a b)) (fun x y => !x.slt y) s
/-- `cmpi.ge`. C is a ≥ b signed, b the immediate (R92). -/
def execCmpiGe (w : BitVec 4) (d a : BitVec 5) (im : BitVec 9) (s : State) : Result :=
  cmpiOp w d a im (wellFormed (.cmpiGe w d a im)) (fun x y => !x.slt y) s

/-- `cmp.ltu`. C is a < b unsigned (R92). -/
def execCmpLtu (w : BitVec 4) (d a b : BitVec 5) (s : State) : Result := cmpOp w d a b (wellFormed (.cmpLtu w d a b)) BitVec.ult s
/-- `cmpi.ltu`. C is a < b unsigned, b the immediate (R92). -/
def execCmpiLtu (w : BitVec 4) (d a : BitVec 5) (im : BitVec 9) (s : State) : Result :=
  cmpiOp w d a im (wellFormed (.cmpiLtu w d a im)) BitVec.ult s

/-- `cmp.geu`. C is a ≥ b unsigned (R92). -/
def execCmpGeu (w : BitVec 4) (d a b : BitVec 5) (s : State) : Result := cmpOp w d a b (wellFormed (.cmpGeu w d a b)) (fun x y => !x.ult y) s
/-- `cmpi.geu`. C is a ≥ b unsigned, b the immediate (R92). -/
def execCmpiGeu (w : BitVec 4) (d a : BitVec 5) (im : BitVec 9) (s : State) : Result :=
  cmpiOp w d a im (wellFormed (.cmpiGeu w d a im)) (fun x y => !x.ult y) s

/-- The body of a steer-logic word (R93): its sources are read a before b. -/
def logicBody (who : Nat → Bool) (ok : Bool) (d : Nat) (srcs : List Nat) (f : List SteerEntry → Bool) (s : State) (u k : Nat) : Act :=
  match s.unit? u with
  | none => .wait 3 none
  | some un =>
    if !ok then .fault .illegal 0
    else if un.full k then .miss 0x30
    else
      un.withSteer k (srcs.getD 0 0) fun a => un.withSteer k (srcs.getD (srcs.length - 1) 0) fun b =>
        let es := if srcs.length = 1 then [a] else [a, b]
        .go (s.setUnit u (if lowest who k then
          un.writeSteer k (un.wk k).idx (s.now un) d (some (f es, es.any (·.pc))) none else un)) .seq

/-- `st.and` (R93). -/
def execStAnd (w : BitVec 4) (d a b : BitVec 5) (s : State) : Result :=
  .next (runWord (ctlSteer w d.toNat)
    (logicBody (ctl w).who (wellFormed (.stAnd w d a b)) d.toNat [a.toNat, b.toNat] fun es => es.all (·.c)) s)

/-- `st.or` (R93). -/
def execStOr (w : BitVec 4) (d a b : BitVec 5) (s : State) : Result :=
  .next (runWord (ctlSteer w d.toNat)
    (logicBody (ctl w).who (wellFormed (.stOr w d a b)) d.toNat [a.toNat, b.toNat] fun es => es.any (·.c)) s)

/-- `st.not` (R93). -/
def execStNot (w : BitVec 4) (d a : BitVec 5) (s : State) : Result :=
  .next (runWord (ctlSteer w d.toNat)
    (logicBody (ctl w).who (wellFormed (.stNot w d a)) d.toNat [a.toNat] fun es => !es.any (·.c)) s)

/-- `mvst` (R94): C is bit 16, T bits [15:0], TV is set, and both take the register's poison. -/
def execMvst (w : BitVec 4) (d a : BitVec 5) (s : State) : Result :=
  .next (runWord (ctlSteer w d.toNat) (steerBody (ctl w).who (wellFormed (.mvst w d a)) d.toNat [a.toNat] fun vs =>
    (some ((arg vs 0).bits.getLsbD 16, (arg vs 0).poison),
     some (((arg vs 0).bits.extractLsb' 0 16).toNat, (arg vs 0).poison))) s)

/-- `mvfst` (R94): the image of a steer source, poison PC OR PT. -/
def execMvfst (w : BitVec 4) (d a : BitVec 5) (s : State) : Result :=
  .next (runWord (ctl w) (fun s u k =>
    match s.unit? u with
    | none => .wait 3 none
    | some un =>
      if !wellFormed (.mvfst w d a) || ownPort k [d.toNat] then .fault .illegal 0
      else if un.full k then .miss 0x30
      else un.withSteer k a.toNat fun e =>
        if !un.room k d.toNat then .miss (outQueue k d.toNat)
        else .go (s.setUnit u (un.landReg k d.toNat (s.now un) 1 ⟨e.image, e.pc || e.pt⟩)) .seq) s)

/-- `sel` (R95): both sources are read whichever is chosen; the poison is PC OR that of the value chosen. -/
def execSel (w : BitVec 4) (d a b : BitVec 5) (st : BitVec 4) (s : State) : Result :=
  .next (runWord (ctl w) (fun s u k =>
    match s.unit? u with
    | none => .wait 3 none
    | some un =>
      if !wellFormed (.sel w d a b st) || ownPort k [d.toNat, a.toNat, b.toNat] then .fault .illegal 0
      else if un.full k then .miss 0x30
      else
        match fetch k un [a.toNat, b.toNat] with
        | .error q => .miss q
        | .ok (vs, un') => un.withSteer k st.toNat fun e =>
          let v := if e.c then arg vs 0 else arg vs 1
          if !un'.room k d.toNat then .miss (outQueue k d.toNat)
          else .go (s.setUnit u (un'.landReg k d.toNat (s.now un) 1 ⟨v.bits, e.pc || v.poison⟩)) .seq) s)

/-- The target of a relative transfer (R96-R98): index + sext(offset), as an integer. -/
def relTarget (i : Nat) (o : BitVec 18) : Int := (i : Int) + o.toInt

/-- The target lies in the instruction store (R37). -/
def targetOk (t : Int) : Bool := decide (0 ≤ t) && decide (t < 65536)

/-- `prep` (R96): T and TV are new, C is copied at landing. -/
def execPrep (w : BitVec 4) (st : BitVec 4) (o : BitVec 18) (s : State) : Result :=
  .next (runWord (ctlSteer w st.toNat) (fun s u k =>
    match s.unit? u with
    | none => .wait 3 none
    | some un =>
      let t := relTarget (un.wk k).idx o
      if !wellFormed (.prep w st o) || !targetOk t then .fault .illegal 0
      else if un.full k then .miss 0x30
      else .go (s.setUnit u (if lowest (ctl w).who k then
        un.writeSteer k (un.wk k).idx (s.now un) st.toNat none (some (t.toNat, false)) else un)) .seq) s)

end Sys2Proof.Machine
end

