-- ==== Sys2Proof/Machine/Branch.lean ====
section
/-! DEFINITION. Branches, jumps, calls and returns (R97-R104), `check` and `pclr` (R125, R126). -/

namespace Sys2Proof.Machine

/-- A level is active in walker `k`, so that a taken transfer raises `ILLEGAL` (R110). -/
def Unit.inLoop (un : Unit) (k : Nat) : Bool := (un.wk k).inner.isSome

/-- Issue cycles until the target of a transfer through T is considered (R100): one where a `prep` or `mvst` set T at least 3 rc
before, else three. -/
def tDelay (e : SteerEntry) (now : Nat) : Nat :=
  match e.tAt with
  | some c => if c + 3 ≤ now then 1 else 3
  | none => 3

/-- The outcome of resolving a target. -/
inductive Target where
  /-- Transfer to a word, considered in the `after`-th issue cycle. -/
  | to (t after : Nat)
  /-- No transfer; PS is raised where `ps`. -/
  | stay (ps : Bool)
  | stop (c : Cause)

/-- A taken transfer to `t` (R37, R110). -/
def Unit.take (un : Unit) (k : Nat) (t : Int) (after : Nat) : Target :=
  if un.inLoop k || !targetOk t then .stop .illegal else .to t.toNat after

/-- A taken transfer through the T half of an entry (R97, R98). -/
def Unit.takeT (un : Unit) (k now : Nat) (e : SteerEntry) : Target :=
  if !e.tv then .stop .illegal else if e.pt then .stay true else un.take k e.t (tDelay e now)

/-- Continue as a target says. -/
def State.follow (s : State) (u k : Nat) (un : Unit) : Target → Act
  | .to t a => .go (s.setUnit u un) (.jump t a)
  | .stay ps => .go (s.setUnit u (if ps then un.raise k (s.now un) flagPS else un)) .seq
  | .stop c => .fault c 0

/-- A conditional branch (R97): taken when C equals `on`; a poisoned C is not taken and raises PS. -/
def brBody (ok on : Bool) (st : BitVec 4) (o : Option (BitVec 18)) (s : State) (u k : Nat) : Act :=
  match s.unit? u with
  | none => .wait 3 none
  | some un =>
    if !ok then .fault .illegal 0
    else un.withSteer k st.toNat fun e =>
      s.follow u k un
        (if e.pc then .stay true
         else if e.c = on then
           match o with
           | some o => un.take k (relTarget (un.wk k).idx o) 3
           | none => un.takeT k (s.now un) e
         else .stay false)

/-- `br` to a relative target (R97). -/
def execBr (w : BitVec 4) (st : BitVec 4) (o : BitVec 18) (s : State) : Result :=
  .next (runWord (ctl w) (brBody (wellFormed (.br w st o)) true st (some o)) s)
/-- `br` through the T half (R97). -/
def execBrT (w : BitVec 4) (st : BitVec 4) (s : State) : Result :=
  .next (runWord (ctl w) (brBody (wellFormed (.brT w st)) true st none) s)
/-- `brn` to a relative target (R97). -/
def execBrn (w : BitVec 4) (st : BitVec 4) (o : BitVec 18) (s : State) : Result :=
  .next (runWord (ctl w) (brBody (wellFormed (.brn w st o)) false st (some o)) s)
/-- `brn` through the T half (R97). -/
def execBrnT (w : BitVec 4) (st : BitVec 4) (s : State) : Result :=
  .next (runWord (ctl w) (brBody (wellFormed (.brnT w st)) false st none) s)

/-- `j` to a relative target (R98). -/
def execJ (w : BitVec 4) (o : BitVec 18) (s : State) : Result :=
  .next (runWord (ctl w) (fun s u k =>
    match s.unit? u with
    | none => .wait 3 none
    | some un => if !wellFormed (.j w o) then .fault .illegal 0 else s.follow u k un (un.take k (relTarget (un.wk k).idx o) 3)) s)

/-- `j` through the T half (R98): PC is not examined. -/
def execJT (w : BitVec 4) (st : BitVec 4) (s : State) : Result :=
  .next (runWord (ctl w) (fun s u k =>
    match s.unit? u with
    | none => .wait 3 none
    | some un =>
      if !wellFormed (.jT w st) then .fault .illegal 0
      else un.withSteer k st.toNat fun e => s.follow u k un (un.takeT k (s.now un) e)) s)

/-- The target of `jr` and `callr` (R99): a poisoned one is not taken. -/
def Unit.takeReg (un : Unit) (k : Nat) (v : Val) : Target :=
  if v.poison then .stay true else un.take k v.bits.toNat 3

/-- `jr` (R99). -/
def execJr (w : BitVec 4) (a : BitVec 5) (s : State) : Result :=
  .next (runWord (ctl w) (fun s u k =>
    match s.unit? u with
    | none => .wait 3 none
    | some un =>
      if ownPort k [a.toNat] then .fault .illegal 0
      else
        match fetch k un [a.toNat] with
        | .error q => .miss q
        | .ok (vs, un') => s.follow u k un' (un'.takeReg k (arg vs 0))) s)

/-! ### Frames (R11, R101-R104) -/

/-- The 256 bytes of the frame of window `o` (R11): registers, return index at 128, poison bits at 136, zeros. -/
def Walker.frame (w : Walker) (o : Nat) : List Byte :=
  let regs := (List.range 16).map fun j => w.x.getD (16 + 16 * o + j) Val.zero
  let ps := ((List.range 16).map fun j => if (regs.getD j Val.zero).poison then 2 ^ j else 0).sum
  regs.flatMap (fun v => leBytes 8 v.bits.toNat) ++ leBytes 8 (w.ras.getD o 0) ++ leBytes 2 ps ++ leBytes 118 0

/-- Perform a call to `t` (R102): with 8 frames resident, the oldest window is spilled first, as walker stores issued in this cycle
(R104), and the target comes 24 issue cycles later. -/
def State.call (s : State) (u k : Nat) (un : Unit) (t after : Nat) : Act :=
  let w := un.wk k
  let now := s.now un
  let push := fun (un : Unit) => un.setWk k fun w =>
    let wp := (w.wp + 1) % 8
    { w with wp, ras := w.ras.set wp (w.idx + 1), res := w.res + 1 }
  if w.res = 8 then
    let sa := w.spillb + 256 * w.spilln
    if w.spilll.toNat < sa.toNat + 256 ∨ Config.unitStoreBytes < sa.toNat + 256 then .fault .access 0
    else
      let use := (blocksOf sa.toNat 256).map fun b => (now + 1, 1, b)
      if !un.banksFree use then .wait 2 none
      else
        let cells := cellsAt sa.toNat (w.frame ((w.wp + 1) % 8))
        let un := ((un.reserve use).later (now + 1) 0 (.store k un.seq cells)).setWk k fun w => { w with spilln := w.spilln + 1, res := 7 }
        .go (s.setUnit u (push un)) (.jump t (after + 24))
  else .go (s.setUnit u (push un)) (.jump t after)

/-- A call whose target has been resolved. -/
def State.followCall (s : State) (u k : Nat) (un : Unit) : Target → Act
  | .to t a => s.call u k un t a
  | r => s.follow u k un r

/-- `call` to a relative target (R102). -/
def execCall (w : BitVec 4) (o : BitVec 18) (s : State) : Result :=
  .next (runWord (ctl w) (fun s u k =>
    match s.unit? u with
    | none => .wait 3 none
    | some un =>
      if !wellFormed (.call w o) then .fault .illegal 0 else s.followCall u k un (un.take k (relTarget (un.wk k).idx o) 3)) s)

/-- `call` through the T half (R102). -/
def execCallT (w : BitVec 4) (st : BitVec 4) (s : State) : Result :=
  .next (runWord (ctl w) (fun s u k =>
    match s.unit? u with
    | none => .wait 3 none
    | some un =>
      if !wellFormed (.callT w st) then .fault .illegal 0
      else un.withSteer k st.toNat fun e => s.followCall u k un (un.takeT k (s.now un) e)) s)

/-- `callr` (R102). -/
def execCallr (w : BitVec 4) (a : BitVec 5) (s : State) : Result :=
  .next (runWord (ctl w) (fun s u k =>
    match s.unit? u with
    | none => .wait 3 none
    | some un =>
      if ownPort k [a.toNat] then .fault .illegal 0
      else
        match fetch k un [a.toNat] with
        | .error q => .miss q
        | .ok (vs, un') => s.followCall u k un' (un'.takeReg k (arg vs 0))) s)

/-- `ret` (R103): with no resident frame left, the window is refilled as a walker load issued in this cycle (R104). In a loop level it is
`ILLEGAL` (R110) also at depth 0 (log 117, DEDUCED). -/
def execRet (w : BitVec 4) (s : State) : Result :=
  .next (runWord (ctl w) (fun s u k =>
    match s.unit? u with
    | none => .wait 3 none
    | some un =>
      let w := un.wk k
      let now := s.now un
      if un.inLoop k then .fault .illegal 0
      else if w.res = 1 ∧ w.spilln = 0 then .fault .returnUnderflow 0
      else
        let t := w.ras.getD w.wp 0
        let wp := (w.wp + 7) % 8
        if !targetOk t then .fault .illegal 0
        else if w.res = 1 then
          let n := w.spilln - 1
          let sa := (w.spillb + 256 * n).toNat
          let use := (blocksOf sa 256).map fun b => (now + 1, 0, b)
          if !un.banksFree use then .wait 2 none
          else
            let un := (un.setWk k fun w => { w with wp, res := 1, spilln := n }).reserve use
            .go (s.setUnit u (un.later (now + 3) 1 (.refill k wp sa now))) (.jump t 27)
        else .go (s.setUnit u (un.setWk k fun w => { w with wp, res := w.res - 1 })) (.jump t 3)) s)

/-- `check` (R125): taken when PS is set; it abandons every loop level. -/
def execCheck (w : BitVec 4) (o : BitVec 18) (s : State) : Result :=
  .next (runWord (ctl w) (fun s u k =>
    match s.unit? u with
    | none => .wait 3 none
    | some un =>
      if !wellFormed (.check w o) then .fault .illegal 0
      else if (un.wk k).flags.getLsbD 15 then
        let t := relTarget (un.wk k).idx o
        if targetOk t then .go s (.abandon t.toNat 3) else .fault .illegal 0
      else .go s .seq) s)

/-- `pclr` (R126): PS is clear from the end of the cycle, unless a raise takes effect in it. -/
def execPclr (w : BitVec 4) (s : State) : Result :=
  .next (runWord (ctl w) (fun s u k =>
    match s.unit? u with
    | none => .wait 3 none
    | some un => .go (s.setUnit u (un.later (s.now un) 3 (.pclr k))) .seq) s)

end Sys2Proof.Machine
end

