-- ==== Sys2Proof/Machine/LoopWait.lean ====
section
/-! DEFINITION. Loops, waits, phases, barriers and cluster messages (R106-R124). -/

namespace Sys2Proof.Machine

/-- `loop` (R106, R107). A trip count at or below the first pass runs no pass: the body counts as passed once (R109). The copy
words of such a body are not counted into K of R116 (log 12, DEDUCED). -/
def execLoop (w : BitVec 4) (st : BitVec 4) (a : BitVec 5) (im : BitVec 8) (g : BitVec 3) (s : State) : Result :=
  .next (runWord (ctl w) (fun s u k =>
    match s.unit? u with
    | none => .wait 3 none
    | some un =>
      if !wellFormed (.loop w st a im g) then .fault .illegal 0
      else un.withSteer k st.toNat fun e =>
        let w := un.wk k
        let i := w.idx
        let len := e.t - i
        let stages := g.toNat + 1
        let nested : Bool := match w.inner with | some l => l.stages != 1 || decide (l.last < e.t) | none => false
        let v := w.reg a.toNat
        if !e.tv || e.pt then .fault .illegal 0
        else if e.t ≤ i ∨ 4096 < len ∨ len % stages ≠ 0 then .fault .illegal 0
        else if w.outer.isSome ∨ nested then .fault .illegal 0
        else if !v.poison ∧ v.bits.toNat / 2 ^ 32 ≠ 0 then .fault .illegal 0
        else
          let trip := if v.poison then 0 else v.bits.toNat
          let un := if v.poison then un.raise k (s.now un) flagPS else un
          if trip = 0 then .go (s.setUnit u un) (.skip (e.t + 1) 1 false)
          else
            let l : Level :=
              { word := i, trip, stages, ii := im.toNat, len, last := e.t, from_ := 0, reg := physReg w.wp a.toNat, pass := 0
                started := false, began := w.ic, after := w.ic + 1, first := 0, drain := none }
            .go (s.setUnit u (un.setWk k fun w => { w with outer := w.inner, inner := some l })) .seq) s)

/-- `lbrk` (R113): its own iteration becomes the last one. -/
def execLbrk (w : BitVec 4) (st : BitVec 4) (s : State) : Result :=
  .next (runWord (ctl w) (fun s u k =>
    match s.unit? u with
    | none => .wait 3 none
    | some un =>
      if !wellFormed (.lbrk w st) then .fault .illegal 0
      else
        match (un.wk k).inner with
        | none => .fault .illegal 0
        | some l => un.withSteer k st.toNat fun e =>
          if e.pc then .go (s.setUnit u (un.raise k (s.now un) flagPS)) .seq
          else if e.c then
            let n := min l.trip (l.pass - l.stage (un.wk k).idx + 1)
            .go (s.setUnit u (un.setWk k fun w => { w with inner := some { l with trip := n } })) .seq
          else .go s .seq) s)

/-- Cycle in which walker `k` first stood at its word. -/
def Unit.standsFrom (un : Unit) (k now : Nat) : Nat := ((un.wk k).since).getD now

/-- `waits` (R115): a sample boundary lies in the cycles in which the walker has stood. It is the heartbeat of R269. -/
def execWaits (w : BitVec 4) (s : State) : Result :=
  .next (runWord (ctl w) (fun s u k =>
    match s.unit? u with
    | none => .wait 3 none
    | some un =>
      let r := s.region un.region
      if un.standsFrom k r.rcc ≤ r.rcc / max 1 r.p * max 1 r.p then
        .go (s.setUnit u (un.setWk k fun w => { w with beat := true })) .seq
      else .wait 1 (some 0x2C)) s)

/-- `waitc` (R115). -/
def execWaitc (w : BitVec 4) (a : BitVec 5) (s : State) : Result :=
  .next (runWord (ctl w) (fun s u k =>
    match s.unit? u with
    | none => .wait 3 none
    | some un =>
      if ownPort k [a.toNat] then .fault .illegal 0
      else
        match fetch k un [a.toNat] with
        | .error q => .wait 1 (some q)
        | .ok (vs, un') =>
          if poisonOf vs then .go (s.setUnit u (un'.raise k (s.now un) flagPS)) .seq
          else if (arg vs 0).bits.toNat ≤ s.now un then .go (s.setUnit u un') .seq
          else .wait 1 (some 0x2D)) s)

/-- K of R116: in `cw` the channel's next transfer ID, in another walker its own count. -/
def Unit.copyCount (un : Unit) (k c : Nat) : Nat :=
  if k = 3 then (un.chans.getD c ⟨0, 0, 0, [], 0, none⟩).tid else (un.wk k).copies.getD c 0

/-- The `waitx` condition (R115, R116): `WM` - K + k, modulo 2^32, lies in 0 to 2^31 - 1. -/
def waitxHolds (wm kk im : Nat) : Bool := decide ((wm + (2 ^ 32 - kk % 2 ^ 32) + im) % 2 ^ 32 < 2 ^ 31)

/-- `waitx` (R115). -/
def execWaitx (w : BitVec 4) (c : BitVec 2) (k' : BitVec 8) (s : State) : Result :=
  .next (runWord (ctl w) (fun s u k =>
    match s.unit? u with
    | none => .wait 3 none
    | some un =>
      if waitxHolds (un.chans.getD c.toNat ⟨0, 0, 0, [], 0, none⟩).wm (un.copyCount k c.toNat) k'.toNat then .go s .seq
      else .wait 1 (some (0x20 + c.toNat))) s)

/-- Walker `k` stands at its word in this cycle: it stood before, or its walk of the cycle has come to rest there (R121,
R124). With a divisor above 1 it comes to rest at the word after an issued one only in its next issue cycle (log 108, DEDUCED). -/
def Unit.stands (un : Unit) (k : Nat) : Bool :=
  let w := un.wk k
  !w.stopped && !w.held &&
    (w.since.isSome || (match w.slot with | .walking n => decide (n < 8) && decide (w.ready ≤ w.ic) | .done .. => false))

/-- How walker `j` of a `wsync` set stands to walker `k` at its word (R117): arrived, on another path, or not there yet. -/
inductive SyncView where
  | arrived | elsewhere | notYet
  deriving DecidableEq, Repr

/-- The passes of the levels that both walkers run agree (R117). -/
def samePasses (a b : List (Nat × Nat)) : Bool :=
  a.all fun p => match find b p.1 with | some q => q == p.2 | none => true

/-- R117, for walker `j` of the set, which the word names or not. A walker that the word does not name counts from the cycle after it passed
it; one that it names stands at the word in the cycle in which it issues it. The walker of the set that the word does not name has arrived by
whichever way it passed the word, as the programs of chapters 16 and 17 need (log 48, DEDUCED). So has one that went beyond the place
before its context was saved, since the record does not hold the words that it passed (R223; log 100, DEDUCED). -/
def Unit.syncView (un : Unit) (now k j : Nat) (named : Bool) : SyncView :=
  let w := un.wk k
  let v := un.wk j
  if j = k then .arrived
  else if v.idx = w.idx ∧ v.count = w.count ∧ un.stands j ∧ samePasses (w.passes w.idx) (v.passes v.idx) then .arrived
  else if v.synced.any fun p => p.word == w.idx && p.count == w.count && (named || decide (p.cycle < now)) && samePasses (w.passes w.idx) p.passes then .arrived
  else if v.synced.any fun p => p.word == w.idx && p.count == w.count && samePasses (w.passes w.idx) p.passes then .notYet
  else if w.count < v.count then
    match v.trail[v.count - w.count - 1]? with
    | some i =>
      if i = w.idx then .notYet
      else if !named && v.synced.any (fun p => p.word == w.idx) then
        if decide (w.count < v.was) && v.synced.any (fun p => p.word == w.idx && decide (p.cycle < now)) then .arrived else .notYet
      else .elsewhere
    | none => .arrived
  else .notYet

/-- `wsync` (R115, R117). -/
def execWsync (w : BitVec 4) (st : BitVec 4) (s : State) : Result :=
  .next (runWord { ctl w with sync := true } (fun s u k =>
    match s.unit? u with
    | none => .wait 3 none
    | some un =>
      if !wellFormed (.wsync w st) then .fault .illegal 0
      else
        let vs := ((List.range 4).filter fun j => st.toNat.testBit j).map fun j => un.syncView (s.now un) k j ((ctl w).who j)
        if vs.contains .elsewhere then .fault .slip 0
        else if vs.all fun v => v == .arrived then .go s .seq
        else .wait 1 (some 0x2B)) s)

/-- The walkers of a mask. -/
def maskWalkers (w : BitVec 4) : List Nat := (List.range 4).filter fun j => w.toNat.testBit j

/-- `phase` (R118): each named walker issues when it reaches the word and is held; the boundary is taken when the last has issued. -/
def execPhase (w : BitVec 4) (st : BitVec 4) (s : State) : Result :=
  .next (runWord (ctl w) (fun s u k =>
    match s.unit? u with
    | none => .wait 3 none
    | some un =>
      if !wellFormed (.phase w st) then .fault .illegal 0
      else
        let i := (un.wk k).idx
        let now := s.now un
        let mine := fun (p : PhaseState) => p.word == i && p.at_.isNone && p.need.contains k && !p.got.contains k
        let old := un.phases.find? mine
        let p : PhaseState := old.getD ⟨i, st.toNat, maskWalkers w, [], none, ⟨[], 0⟩, [], false⟩
        let got := p.got ++ [k]
        let last : Bool := p.need.all got.contains
        let p := { p with
          got, held := p.held ++ [k], at_ := if last then some now else none
          cover := if last then un.coverNow now else p.cover }
        let rest := un.phases.filter fun q => !mine q
        .go (s.setUnit u ({ un with phases := rest ++ [p] }.setWk k fun w => { w with held := true })) .seq) s)

/-- `bar` (R121, R122): the unit arrives when every named walker stands at the word anew, none of them still for an instance before; a named
walker issues once its unit is released. -/
def execBar (w : BitVec 4) (st : BitVec 4) (im : BitVec 8) (s : State) : Result :=
  .next (runWord (ctl w) (fun s u k =>
    match s.unit? u with
    | none => .wait 3 none
    | some un =>
      if !wellFormed (.bar w st im) then .fault .illegal 0
      else
        let i := (un.wk k).idx
        let now := s.now un
        let mine := fun (b : Arrival) => b.word == i && b.ws.contains k
        match un.bars.find? mine with
        | some b =>
          if b.released then
            let b' := { b with ws := b.ws.filter (· != k) }
            let rest := un.bars.filter fun q => !mine q
            .go (s.setUnit u { un with bars := if b'.ws.isEmpty then rest else rest ++ [b'] }) .seq
          else .wait 1 (some 0x2A)
        | none =>
          if (maskWalkers w).all fun j => (un.wk j).idx == i && un.stands j && !(un.bars.any fun b => b.word == i && b.ws.contains j) then
            let n := (find un.barCnt im.toNat).getD 0
            let b : Arrival := ⟨i, im.toNat, st.toNat, n, now, un.coverNow now, maskWalkers w, none, false⟩
            .stand (s.setUnit u { un with bars := un.bars ++ [b], barCnt := put un.barCnt im.toNat (n + 1) }) 1 (some 0x2A)
          else .wait 1 (some 0x2A)) s)

/-- `sendc` (R123): the value with its poison arrives 12 cycles later. -/
def execSendc (w : BitVec 4) (u' : BitVec 3) (a : BitVec 5) (s : State) : Result :=
  .next (runWord (ctl w) (fun s u k =>
    match s.unit? u with
    | none => .wait 3 none
    | some un =>
      if ownPort k [a.toNat] then .fault .illegal 0
      else
        match fetch k un [a.toNat] with
        | .error q => .miss q
        | .ok (vs, un') =>
          .go (s.setUnit u { un' with outbox := un'.outbox ++ [⟨k, 8 * clusterOf u + u'.toNat, arg vs 0, s.now un + 12⟩] }) .seq) s)

/-- Walker `k`'s message is one more than its destination queue has room for (R12). -/
def Unit.overflows (un : Unit) (k d : Nat) : Bool :=
  isPort d && decide (8 < (un.queue (outQueue k d)).1.length + (un.queue (outQueue k d)).2)

/-- `recvc` (R124): it issues once MESSAGE_ARRIVAL has matched it and its queue has room, for which it waits in both modes (R12, R28; log 13,
DEDUCED). -/
def execRecvc (w : BitVec 4) (d : BitVec 5) (_u' : BitVec 3) (s : State) : Result :=
  .next (runWord (ctl w) (fun s u k =>
    match s.unit? u with
    | none => .wait 3 none
    | some un =>
      if ownPort k [d.toNat] then .fault .illegal 0
      else if (un.wk k).matched then if un.overflows k d.toNat then .wait 1 (some (outQueue k d.toNat)) else .go s .seq
      else .wait 1 (some 0x2E)) s)

end Sys2Proof.Machine
end

