-- ==== Sys2Proof/Machine/Numbers.lean ====
section
/-! DEFINITION. Number formats and arithmetic (R60-R70): exact values as ±m × 2^e, one rounding, one encoding. -/

namespace Sys2Proof.Machine

/-- A decoded value (R61): NaN, infinity, or ±m × 2^e exactly. -/
inductive Num where
  | nan (signalling : Bool)
  | inf (neg : Bool)
  | fin (neg : Bool) (m : Nat) (e : Int)
  deriving DecidableEq, Repr

/-- A floating-point format (R61): exponent and fraction bits, bias; `e4m3` has no infinities and one NaN fraction. -/
structure Fmt where
  ebits : Nat
  fbits : Nat
  bias  : Nat
  e4m3  : Bool
  deriving DecidableEq, Repr

/-- FP32. -/
def f32 : Fmt := ⟨8, 23, 127, false⟩
/-- FP16. -/
def f16 : Fmt := ⟨5, 10, 15, false⟩
/-- BF16. -/
def bf16 : Fmt := ⟨8, 7, 127, false⟩
/-- E4M3. -/
def e4m3 : Fmt := ⟨4, 3, 7, true⟩
/-- E5M2. -/
def e5m2 : Fmt := ⟨5, 2, 15, false⟩

/-- A rounding mode (R48). -/
inductive Rnd where
  | rne | rz | ru | rd
  deriving DecidableEq, Repr

/-- The mode of an rnd field. -/
def Rnd.ofBits (r : BitVec 2) : Rnd := if r = 0 then .rne else if r = 1 then .rz else if r = 2 then .ru else .rd

/-- The exact value that bits spell (R61, R63). -/
def decodeNum (f : Fmt) (bits : Nat) : Num :=
  let neg := bits / 2 ^ (f.ebits + f.fbits) % 2 = 1
  let ex := bits / 2 ^ f.fbits % 2 ^ f.ebits
  let fr := bits % 2 ^ f.fbits
  let top := 2 ^ f.ebits - 1
  if f.e4m3 ∧ ex = top ∧ fr = 2 ^ f.fbits - 1 then .nan false
  else if !f.e4m3 ∧ ex = top then
    if fr = 0 then .inf neg else .nan (decide (fr < 2 ^ (f.fbits - 1)))
  else if ex = 0 then .fin neg fr (1 - (f.bias : Int) - f.fbits)
  else .fin neg (2 ^ f.fbits + fr) ((ex : Int) - f.bias - f.fbits)

/-- Sign bit of a format. -/
def signBit (f : Fmt) (neg : Bool) : Nat := if neg then 2 ^ (f.ebits + f.fbits) else 0
/-- The canonical NaN (R61, R63). -/
def canonicalNan (f : Fmt) : Nat :=
  if f.e4m3 then 0x7F else (2 ^ f.ebits - 1) * 2 ^ f.fbits + 2 ^ (f.fbits - 1)
/-- Infinity; E4M3 has none. -/
def infBits (f : Fmt) (neg : Bool) : Nat := signBit f neg + (2 ^ f.ebits - 1) * 2 ^ f.fbits
/-- The largest finite magnitude. -/
def maxBits (f : Fmt) (neg : Bool) : Nat :=
  signBit f neg + (if f.e4m3 then 0x7E else (2 ^ f.ebits - 2) * 2 ^ f.fbits + (2 ^ f.fbits - 1))

/-- Bits needed for `n`. -/
def bitLen (n : Nat) : Nat := if n = 0 then 0 else Nat.log2 n + 1

/-- 2^k for an integer exponent, 1 where it is negative. -/
def pow2 (k : Int) : Nat := 2 ^ k.toNat

/-- Round m × 2^e to a multiple of 2^q: the multiple and whether a nonzero part was discarded. -/
def roundQ (mode : Rnd) (neg : Bool) (m : Nat) (e q : Int) : Nat × Bool :=
  if q ≤ e then (m * pow2 (e - q), false)
  else
    let d := pow2 (q - e)
    let k := m / d
    let r := m % d
    let up : Bool :=
      match mode with
      | .rne => decide (d < 2 * r) || (decide (d = 2 * r) && decide (k % 2 = 1))
      | .rz => false
      | .ru => !neg && decide (0 < r)
      | .rd => neg && decide (0 < r)
    (if up then k + 1 else k, decide (0 < r))

/-- The overflow result of R68 without `.sat`. -/
def overflowBits (f : Fmt) (mode : Rnd) (neg : Bool) : Nat :=
  let away : Bool := match mode with | .rne => true | .rz => false | .ru => !neg | .rd => neg
  if away then (if f.e4m3 then 0x7F else infBits f neg) else maxBits f neg

/-- Round a nonzero ±m × 2^e into a format: bits and flags (R67, R68). -/
def roundFin (f : Fmt) (mode : Rnd) (sat neg : Bool) (m : Nat) (e : Int) : Nat × Nat :=
  let emin : Int := 1 - f.bias
  let top : Int := e + bitLen m - 1
  let q := max top emin - f.fbits
  let (k, nx) := roundQ mode neg m e q
  let tiny := decide (top < emin)
  let (k, q) := if k = 2 ^ (f.fbits + 1) then (2 ^ f.fbits, q + 1) else (k, q)
  let emax : Int := if f.e4m3 then 8 else f.bias
  let ovf := decide (2 ^ f.fbits ≤ k) && (decide (emax < q + f.fbits) || (f.e4m3 && decide (q + f.fbits = 8) && decide (k = 15)))
  if ovf then
    if sat then (maxBits f neg, flagSAT + flagNX) else (overflowBits f mode neg, flagOF + flagNX)
  else
    let fl := if nx then (if tiny then flagNX + flagUF else flagNX) else 0
    if k < 2 ^ f.fbits then (signBit f neg + k, fl)
    else (signBit f neg + (q + f.fbits + f.bias).toNat * 2 ^ f.fbits + (k - 2 ^ f.fbits), fl)

/-- `encode` after `round` (R32, R68): a value into a format. -/
def roundNum (f : Fmt) (mode : Rnd) (sat : Bool) : Num → Nat × Nat
  | .nan sg => (canonicalNan f, if sg then flagNV else 0)
  | .inf neg =>
    if sat then (maxBits f neg, flagSAT)
    else if f.e4m3 then (0x7F, flagNV) else (infBits f neg, 0)
  | .fin neg m e => if m = 0 then (signBit f neg, 0) else roundFin f mode sat neg m e

/-- `round_rne` to FP32. -/
def rne32 (n : Num) : Nat × Nat := roundNum f32 .rne false n

/-- A value as a signed integer at exponent `q`, which lies at or below its own. -/
def atExp (neg : Bool) (m : Nat) (e q : Int) : Int :=
  let v : Int := m * pow2 (e - q)
  if neg then -v else v

/-- A finite value from a signed integer; an exact zero takes the sign given. -/
def ofInt (v : Int) (e : Int) (zeroNeg : Bool) : Num := if v = 0 then .fin zeroNeg 0 0 else .fin (decide (v < 0)) v.natAbs e

/-- Exact sum and the flags of an invalid operation (R62, R63, R70). -/
def addNum : Num → Num → Num × Nat
  | .nan a, .nan b => (.nan false, if a || b then flagNV else 0)
  | .nan a, _ => (.nan false, if a then flagNV else 0)
  | _, .nan b => (.nan false, if b then flagNV else 0)
  | .inf a, .inf b => if a = b then (.inf a, 0) else (.nan false, flagNV)
  | .inf a, _ => (.inf a, 0)
  | _, .inf b => (.inf b, 0)
  | .fin a m e, .fin b n k =>
    let q := min e k
    (ofInt (atExp a m e q + atExp b n k q) q (a && b), 0)

/-- Negation. -/
def negNum : Num → Num
  | .nan s => .nan s
  | .inf n => .inf (!n)
  | .fin n m e => .fin (!n) m e

/-- A value is zero. -/
def Num.isZero : Num → Bool
  | .fin _ 0 _ => true
  | _ => false

/-- A value is a NaN, a signalling one. -/
def Num.isNan : Num → Bool
  | .nan _ => true
  | _ => false
/-- A signalling NaN. -/
def Num.isSnan : Num → Bool
  | .nan s => s
  | _ => false

/-- The sign of a value. -/
def Num.neg : Num → Bool
  | .nan _ => false
  | .inf n => n
  | .fin n _ _ => n

/-- Exact product and the flags of an invalid operation. -/
def mulNum (a b : Num) : Num × Nat :=
  match a, b with
  | .nan x, _ => (.nan false, if x || b.isSnan then flagNV else 0)
  | _, .nan y => (.nan false, if y then flagNV else 0)
  | .inf x, _ => if b.isZero then (.nan false, flagNV) else (.inf (x != b.neg), 0)
  | _, .inf y => if a.isZero then (.nan false, flagNV) else (.inf (a.neg != y), 0)
  | .fin x m e, .fin y n k => (.fin (x != y) (m * n) (e + k), 0)

/-- Fused a × b + c, one rounding to FP32 (R131): 0 × ∞ raises NV even beside a quiet NaN. -/
def fma32 (a b c : Num) : Nat × Nat :=
  let (p, f1) := mulNum a b
  let (r, f2) := addNum p c
  let (bits, f3) := rne32 r
  (bits, orFlags (orFlags f1 f2) f3)

/-- FP32 sum of two lanes. -/
def add32 (a b : Num) : Nat × Nat := let (r, f) := addNum a b; let (x, g) := rne32 r; (x, orFlags f g)
/-- FP32 product. -/
def mul32 (a b : Num) : Nat × Nat := let (r, f) := mulNum a b; let (x, g) := rne32 r; (x, orFlags f g)

/-- Exact comparison of finite or infinite values: the sign of a - b, with -0 equal to +0. -/
def cmpNum : Num → Num → Int
  | .inf a, .inf b => if a = b then 0 else if a then -1 else 1
  | .inf a, _ => if a then -1 else 1
  | _, .inf b => if b then 1 else -1
  | .fin a m e, .fin b n k => let q := min e k; (atExp a m e q - atExp b n k q).sign
  | _, _ => 0

/-- FP32 minimum (`isMax` false) or maximum of two lanes (R133): the operand's own bits. -/
def minMax32 (isMax : Bool) (a b : Nat) : Nat × Nat :=
  let x := decodeNum f32 a
  let y := decodeNum f32 b
  let fl := if x.isSnan || y.isSnan then flagNV else 0
  if x.isNan && y.isNan then (canonicalNan f32, fl)
  else if x.isNan then (b, fl)
  else if y.isNan then (a, fl)
  else
    let c := cmpNum x y
    let aLess := decide (c < 0) || (decide (c = 0) && x.neg && !y.neg)
    let bLess := decide (0 < c) || (decide (c = 0) && y.neg && !x.neg)
    if isMax then (if aLess then b else a, fl) else (if bLess then b else a, fl)

/-! ### Integer destinations (R64, R69) -/

/-- Two's complement value of the low `n` bits. -/
def signedOf (n v : Nat) : Int := (BitVec.ofNat n v).toInt

/-- Clamp to the signed range of `n` bits; where it clamps, SAT, and NX since the delivered value is not the exact one (R70). -/
def clampS (n : Nat) (v : Int) : Int × Nat :=
  let hi : Int := 2 ^ (n - 1) - 1
  let lo : Int := -(2 ^ (n - 1))
  if hi < v then (hi, flagSAT + flagNX) else if v < lo then (lo, flagSAT + flagNX) else (v, 0)

/-- A value into a signed integer of `n` bits (R69) (log 17, DEDUCED). -/
def toIntN (n : Nat) (mode : Rnd) : Num → Int × Nat
  | .nan _ => (0, flagNV)
  | .inf neg => ((if neg then -(2 ^ (n - 1)) else 2 ^ (n - 1) - 1 : Int), flagSAT)
  | .fin neg m e =>
    let (k, nx) := roundQ mode neg m e 0
    let (v, f) := clampS n (if neg then -(k : Int) else k)
    (v, orFlags f (if nx then flagNX else 0))

/-- An integer as an exact value. -/
def numOfInt (v : Int) : Num := ofInt v 0 false

/-- The formats of `vcvt` selectors 0-7 (R141): a floating-point format or the width of an integer. -/
inductive Sel where
  | fp (f : Fmt)
  | int (n : Nat)
  deriving DecidableEq, Repr

/-- Selector of a code. -/
def selOf (c : Nat) : Sel :=
  match c with
  | 0 => .fp f32 | 1 => .fp f16 | 2 => .fp bf16 | 3 => .fp e4m3 | 4 => .fp e5m2 | 5 => .int 8 | 6 => .int 4 | _ => .int 32

/-- Read a source lane (R142): the low bits of the format. -/
def readSel (s : Sel) (lane : W32) : Num :=
  match s with
  | .fp f => decodeNum f (lane.toNat % 2 ^ (1 + f.ebits + f.fbits))
  | .int n => numOfInt (signedOf n lane.toNat)

/-- Deliver into a destination lane (R142): floating point with the upper bits zero, integers sign-extended. -/
def writeSel (s : Sel) (mode : Rnd) (sat : Bool) (v : Num) : W32 × Nat :=
  match s with
  | .fp f => let (b, fl) := roundNum f mode sat v; (BitVec.ofNat 32 b, fl)
  | .int n => let (k, fl) := toIntN n mode v; (BitVec.ofInt 32 k, fl)

/-- One lane of a conversion (R67-R69, R141, R142). -/
def cvtLane (src dst : Nat) (mode : Rnd) (sat : Bool) (lane : W32) : W32 × Nat := writeSel (selOf dst) mode sat (readSel (selOf src) lane)

end Sys2Proof.Machine
end

