-- ==== Sys2Proof/Machine/L8.lean ====
section
/-! DEFINITION. The L8 lattice code (R71-R75). Coordinates are counted in halves, so that every point is a list of eight integers. -/

namespace Sys2Proof.Machine

/-- The sum of a list of integers. -/
def sumInt (l : List Int) : Int := l.foldl (· + ·) 0

/-- A base-3 digit or c field: 0, +1, -1 (R71), in halves. -/
def l8Digit (d : Nat) : Int := if d % 3 = 0 then 0 else if d % 3 = 1 then 2 else -2

/-- `l8_decode` (R72): the point in halves and whether the code is valid. -/
def l8Decode (w : Nat) : List Int × Bool :=
  let zero : List Int := List.replicate 8 0
  if w / 2 ^ 15 % 2 = 1 then
    let x : List Int := (List.range 7).map fun i =>
      let m : Int := if w / 2 ^ (2 * i) % 2 = 1 then 3 else 1
      if w / 2 ^ (2 * i + 1) % 2 = 1 then -m else m
    let m : Int := if w / 2 ^ 14 % 2 = 1 then 3 else 1
    (x ++ [if (sumInt x + m) % 4 = 0 then m else -m], true)
  else
    let p := w % 4096
    let c := w / 4096 % 4
    if 2187 ≤ p ∨ c = 3 then (zero, false)
    else
      let x : List Int := (List.range 7).map (fun i => l8Digit (p / 3 ^ i)) ++ [l8Digit c]
      if sumInt x % 4 ≠ 0 then (zero, false)
      else if w / 2 ^ 14 % 2 = 1 then (x.map (2 * ·), true) else (x, true)

/-- One coordinate to quantise: y × S in halves, where S is the scale as an integer, and whether it is live. -/
structure L8In where
  y    : Int
  live : Bool
  deriving DecidableEq, Repr

/-- `h` lies nearer than `g`, ties to the smaller magnitude and then to the positive one (R75). -/
def l8Nearer (s y h g : Int) : Bool :=
  let d := (y - s * h) * (y - s * h)
  let e := (y - s * g) * (y - s * g)
  decide (d < e) || (decide (d = e) && (decide (h.natAbs < g.natAbs) || (decide (h.natAbs = g.natAbs) && decide (0 < h))))

/-- The nearest member of a set. -/
def l8Best (s y : Int) : List Int → Int
  | [] => 0
  | h :: hs => hs.foldl (fun b g => if l8Nearer s y g b then g else b) h

/-- The members of a set that `round_to` and `fix` may choose for one coordinate: the whole set where it is bounded, else the nearest
ones; `odd` for the half-odd values. -/
def l8Near (s y : Int) (odd : Bool) : List Int :=
  let q := 2 * (y / (2 * s)) + (if odd then 1 else 0)
  [q - 4, q - 2, q, q + 2, q + 4]

/-- Squared distance of one coordinate, times S². -/
def l8Cost (s y h : Int) : Int := (y - s * h) * (y - s * h)

/-- `fix` over the live coordinates (R75): where the sum in halves is no multiple of `m`, the coordinate of least cost moves. -/
def l8Fix (s m : Int) (sets : List (List Int)) (ys : List L8In) (x : List Int) : List Int :=
  if sumInt x % m = 0 then x
  else
    let moves : List (Option (Int × Int)) := (List.range 8).map fun i =>
      let c := ys.getD i ⟨0, false⟩
      let h := x.getD i 0
      let g := l8Best s c.y ((sets.getD i []).filter (· != h))
      if c.live then some (g, l8Cost s c.y g - l8Cost s c.y h) else none
    let best : Option (Nat × Int × Int) := (List.range 8).foldl (fun b i =>
      match moves.getD i none, b with
      | none, _ => b
      | some (g, c), none => some (i, g, c)
      | some (g, c), some (_, _, c') => if c < c' then some (i, g, c) else b) none
    match best with
    | some (i, g, _) => x.set i g
    | none => x

/-- Distance over the live coordinates, times 4 S². -/
def l8Dist (s : Int) (ys : List L8In) (x : List Int) : Int :=
  sumInt ((ys.zip x).map fun p => if p.1.live then l8Cost s p.1.y p.2 else 0)

/-- Round the live coordinates into their sets; padding takes 0. -/
def l8Round (s : Int) (sets : List (List Int)) (ys : List L8In) : List Int :=
  (ys.zip sets).map fun p => if p.1.live then l8Best s p.1.y p.2 else 0

/-- Candidate A with padding (R75): padding coordinates take up the parity. -/
def l8Pad (ys : List L8In) (x : List Int) : List Int :=
  let live := fun i => (ys.getD i ⟨0, false⟩).live
  let x := (List.range 8).map fun i => if live i then x.getD i 0 else 1
  if sumInt x % 4 = 0 then x
  else if !live 7 then x.set 7 (-1)
  else
    match (List.range 7).find? fun i => !live i with
    | some i => x.set i (-1)
    | none => x

/-- A half-integer candidate. -/
def l8Half (s : Int) (sets : List (List Int)) (ys : List L8In) : List Int :=
  let x := l8Round s sets ys
  if ys.all (·.live) then l8Fix s 4 sets ys x else l8Pad ys x

/-- The digit of a coordinate: 0, +, - (R71). -/
def l8Code (h : Int) : Nat := if h = 0 then 0 else if 0 < h then 1 else 2

/-- The word of a half-integer point (R71). -/
def l8EncodeHalf (x : List Int) : Nat :=
  let h := fun i => x.getD i 0
  2 ^ 15 + (if (h 7).natAbs = 3 then 2 ^ 14 else 0)
    + ((List.range 7).map fun i => (if (h i).natAbs = 3 then 2 ^ (2 * i) else 0) + (if h i < 0 then 2 ^ (2 * i + 1) else 0)).sum

/-- The word of an integer point, or a doubled one (R71). -/
def l8EncodeInt (doubled : Bool) (x : List Int) : Nat :=
  let p := ((List.range 7).map fun i => l8Code (x.getD i 0) * 3 ^ i).sum + 4096 * l8Code (x.getD 7 0)
  if doubled ∧ p ≠ 0 then p + 2 ^ 14 else p

/-- The live coordinates of a point lie in the codebook (R75). -/
def l8InBook (half : Bool) (ys : List L8In) (x : List Int) : Bool :=
  let x := (ys.zip x).map fun p => if p.1.live then p.2 else (if half then 1 else 0)
  if half then x.all fun h => decide (h.natAbs ≤ 3)
  else (x.all fun h => decide (h.natAbs ≤ 2)) || ((x.all fun h => h == 0 || h == 4 || h == -4) && sumInt x % 8 == 0)

/-- `l8_nearest` and L8OV (R75), for a positive scale `s`: the word and whether the unclamped nearest point is no codebook point. -/
def l8Nearest (s : Int) (ys : List L8In) : Nat × Bool :=
  let sets (l : List Int) : List (List Int) := ys.map fun _ => l
  let a := l8Half s (sets [1, -1, 3, -3]) ys
  let b := l8Fix s 4 (sets [0, 2, -2]) ys (l8Round s (sets [0, 2, -2]) ys)
  let c := l8Fix s 8 (sets [0, 4, -4]) ys (l8Round s (sets [0, 4, -4]) ys)
  let da := l8Dist s ys a
  let db := l8Dist s ys b
  let dc := l8Dist s ys c
  let word := if da ≤ db ∧ da ≤ dc then l8EncodeHalf a else if db ≤ dc then l8EncodeInt false b else l8EncodeInt true c
  let odds := ys.map fun p => l8Near s p.y true
  let evens := ys.map fun p => l8Near s p.y false
  let ua := l8Half s odds ys
  let ub := l8Fix s 4 evens ys (l8Round s evens ys)
  let out := if l8Dist s ys ua ≤ l8Dist s ys ub then !l8InBook true ys ua else !l8InBook false ys ub
  (word, out)

/-- One group of `vql8`: eight FP32 operands, those that are live, the FP16 scale; the word and its flags (R75). -/
def l8Quantise (a : List W32) (live : List Bool) (scale : Nat) : Nat × Nat :=
  let xs := a.map fun v => decodeNum f32 v.toNat
  let anyNan := (xs.zip live).any fun p => p.2 && p.1.isNan
  match decodeNum f16 scale with
  | .fin sn n k =>
    if n = 0 ∨ anyNan then (0, flagNV)
    else
      let hadInf := (xs.zip live).any fun p => p.2 && (match p.1 with | .inf _ => true | _ => false)
      let q : Int := -160
      let s : Int := n * pow2 (k - q)
      let ys : List L8In := (xs.zip live).map fun p =>
        let v : Int := match p.1 with
          | .fin g m e => 2 * atExp g m e q
          | .inf g => (if g then -1 else 1) * (2 * ((2 ^ 24 - 1 : Int) * pow2 (104 - q)))
          | .nan _ => 0
        ⟨if sn then -v else v, p.2⟩
      let (w, ov) := l8Nearest s ys
      (w, if ov || hadInf then flagL8OV else 0)
  | _ => (0, flagNV)

end Sys2Proof.Machine
end

