-- ==== Sys2Proof/Machine/KSum.lean ====
section
/-! DEFINITION. The arithmetic of one k-step (R76-R78, R153, R159-R164): records of skein entries, their terms and the fixed summation. -/

namespace Sys2Proof.Machine

/-- `n` bytes of a memory from address `x` on, in one pass; no listed address lies below `x`. -/
def Mem.dense : Nat → Nat → Mem → List Byte
  | 0, _, _ => []
  | n + 1, x, [] => 0 :: Mem.dense n (x + 1) []
  | n + 1, x, (a, b) :: m => if a = x then b :: Mem.dense n (x + 1) m else 0 :: Mem.dense n (x + 1) ((a, b) :: m)

/-- A list cut into `n` pieces of `k`. -/
def pieces {α : Type} (k : Nat) : Nat → List α → List (List α)
  | 0, _ => []
  | n + 1, l => l.take k :: pieces k n (l.drop k)

/-- One data record with its side record (R153). -/
structure Rec where
  data : List Byte
  side : List Byte
  sv   : Bool
  deriving DecidableEq, Repr

/-- The 64 records of an entry. -/
def SkEntry.recs (e : SkEntry) : List Rec :=
  List.zipWith (fun d s => ⟨d, s, e.sv⟩) (pieces 128 64 (Mem.dense 8192 0 e.data)) (pieces 64 64 (Mem.dense 4096 0 e.side))

/-- Elements per k-step of a format (R153). -/
def kElems (fmt : Nat) : Nat := if fmt = 2 ∨ fmt = 3 then 64 else if fmt = 7 ∨ fmt = 10 then 256 else 128

/-- The formats whose sums are integers (R158). -/
def kInt (fmt : Nat) : Bool := fmt == 6 || fmt == 7

/-- Pairs of bytes as halves. -/
def halves : List Byte → List Nat
  | a :: b :: l => (a.toNat + 256 * b.toNat) :: halves l
  | _ => []

/-- The integer elements of a record. -/
def recInts (fmt : Nat) (r : Rec) : List Int :=
  if fmt = 7 ∨ fmt = 10 then r.data.flatMap fun b => [signedOf 4 b.toNat, signedOf 4 (b.toNat / 16)]
  else r.data.map fun b => b.toInt

/-- The floating-point elements of a record. -/
def recNums (fmt : Nat) (r : Rec) : List Num :=
  if fmt = 2 then (halves r.data).map (decodeNum f16)
  else if fmt = 3 then (halves r.data).map (decodeNum bf16)
  else if fmt = 4 then r.data.map fun b => decodeNum e4m3 b.toNat
  else r.data.map fun b => decodeNum e5m2 b.toNat

/-- The half at byte `x` of a side record. -/
def sideHalf (r : Rec) (x : Nat) : Nat := (r.side.getD x 0).toNat + 256 * (r.side.getD (x + 1) 0).toNat

/-- Scale of group `g` (R162, R163): from the side record, else the default. -/
def recScale (r : Rec) (dflt g : Nat) : Num := decodeNum f16 (if r.sv then sideHalf r (2 * g) else dflt)

/-- Zero point of group `g` (R162). -/
def recZero (r : Rec) (dflt g : Nat) : Int := if r.sv then (r.side.getD (16 + g) 0).toInt else signedOf 8 dflt

/-- Group length of a configuration (R155). -/
def Cfg.group (c : Cfg) : Nat := 32 * 2 ^ (c.fmt.toNat / 256 % 4)
/-- A format code. -/
def Cfg.fa (c : Cfg) : Nat := c.fmt.toNat % 16
/-- B format code. -/
def Cfg.fb (c : Cfg) : Nat := c.fmt.toNat / 16 % 16
/-- M (R155). -/
def Cfg.rows (c : Cfg) : Nat := c.shape.toNat % 64 + 1
/-- N (R155). -/
def Cfg.cols (c : Cfg) : Nat := c.shape.toNat / 64 % 64 + 1

/-- The L8 points of a record of column data: 16 codes (R153). -/
def recPoints (r : Rec) : List (List Int × Bool) := ((halves r.data).take 16).map l8Decode

/-- The decoded elements s × x of an L8 column (R163). -/
def recL8 (c : Cfg) (r : Rec) : List (Num × Nat) :=
  ((recPoints r).map (·.1)).flatten.zipIdx.map fun e =>
    mulNum (recScale r (c.scale.toNat / 65536) (e.2 / c.group)) (ofInt e.1 (-1) false)

/-- The logical positions of the stored elements of a sparse row; none where a bitmap does not hold 16 bits or SV is 0 (R161). -/
def recPlaces (e : Nat) (r : Rec) : Option (List Nat) :=
  let groups := (List.range (e / 16)).map fun g =>
    let m := leNat ((r.side.drop (4 * g)).take 4)
    (List.range 32).filterMap fun j => if m.testBit j then some (32 * g + j) else none
  if r.sv ∧ groups.all fun g => g.length == 16 then some groups.flatten else none

/-- An operand of the array: one row of A or one column of B, decoded for its form. -/
structure Vec where
  nums   : List (Num × Nat)
  ints   : List Int
  /-- Groups of a grouped form: scale, and q - z (R162). -/
  groups : List (Num × List Int)
  places : Option (List Nat)
  deriving DecidableEq, Repr

/-- Decode a record for form `op` (R158): `a` says whether it is an A row. -/
def Vec.ofRec (op : Nat) (c : Cfg) (a : Bool) (r : Rec) : Vec :=
  let fmt := if a then c.fa else c.fb
  if op = 10 then
    let g := c.group
    let ints := recInts fmt r
    let ds := if a then c.scale.toNat % 65536 else c.scale.toNat / 65536
    let dz := if a then c.zp.toNat % 256 else c.zp.toNat / 256 % 256
    let grp := (pieces g (kElems fmt / g) ints).zipIdx.map fun p => (recScale r ds p.2, p.1.map (· - recZero r dz p.2))
    ⟨[], [], grp, none⟩
  else if op = 11 ∧ !a then ⟨recL8 c r, [], [], none⟩
  else
    let places := if op = 9 ∧ a then recPlaces (kElems fmt) r else none
    if kInt fmt then ⟨[], recInts fmt r, [], places⟩ else ⟨(recNums fmt r).map fun n => (n, 0), [], [], places⟩

/-- A second B record appended to the first (R161). -/
def Vec.append (x y : Vec) : Vec := ⟨x.nums ++ y.nums, x.ints ++ y.ints, x.groups ++ y.groups, x.places⟩

/-- Product of two terms with the invalid operations of both. -/
def mulTerm (x y : Num × Nat) : Num × Nat := let (p, f) := mulNum x.1 y.1; (p, orFlags f (orFlags x.2 y.2))

/-- The elements of B at the logical positions of a row. -/
def pick {α : Type} (l : List α) (d : α) (ps : List Nat) : List α := ps.map fun p => l.getD p d

/-- Floating terms of one output element (R76, R78, R161-R163). -/
def terms (op : Nat) (x y : Vec) : List (Num × Nat) :=
  if op = 10 then
    List.zipWith (fun (p q : Num × List Int) =>
      mulTerm (ofInt (sumInt (List.zipWith (· * ·) p.2 q.2)) 0 false, 0) (mulNum p.1 q.1)) x.groups y.groups
  else if op = 9 then
    match x.places with
    | some ps => List.zipWith mulTerm x.nums (pick y.nums (.fin false 0 0, 0) ps)
    | none => []
  else List.zipWith mulTerm x.nums y.nums

/-- The exact integer sum of one output element (R77). -/
def intSum (op : Nat) (x y : Vec) : Int :=
  if op = 9 then
    match x.places with
    | some ps => sumInt (List.zipWith (· * ·) x.ints (pick y.ints 0 ps))
    | none => 0
  else sumInt (List.zipWith (· * ·) x.ints y.ints)

/-- floor(log2 |t|) of a nonzero finite term. -/
def topOf : Num → Option Int
  | .fin _ m e => if m = 0 then none else some (e + bitLen m - 1)
  | _ => none

/-- Truncate a finite term toward zero to a multiple of 2^q: the multiple, and whether a part was lost. -/
def truncTo (q : Int) : Num → Int × Bool
  | .fin n m e =>
    if q ≤ e then (atExp n m e q, false)
    else
      let d := pow2 (q - e)
      let k : Int := m / d
      (if n then -k else k, decide (m % d ≠ 0))
  | _ => (0, false)

/-- `ksum` (R76). -/
def ksum (ts : List (Num × Nat)) : Nat × Nat :=
  let anyNan := ts.any (·.1.isNan)
  let pos := ts.any fun t => t.1 == .inf false
  let neg := ts.any fun t => t.1 == .inf true
  let nv := ts.any fun t => t.2 != 0
  if anyNan || (pos && neg) then (canonicalNan f32, if nv || (pos && neg) then flagNV else 0)
  else if pos then (infBits f32 false, 0)
  else if neg then (infBits f32 true, 0)
  else
    match (ts.filterMap fun t => topOf t.1) with
    | [] => (0, 0)
    | t :: rest =>
      let q := rest.foldl max t - 48
      let us := ts.map fun t => truncTo q t.1
      let lost := us.any (·.2)
      let (b, f) := rne32 (ofInt (sumInt (us.map (·.1))) q false)
      (b, orFlags f (if lost then flagNX else 0))

/-- What one k-step adds, element by element: the operands of both partners, where the form is a pair's. -/
structure KOperands where
  rows : List Vec
  cols : List Vec
  prows : List Vec
  pcols : List Vec

/-- The operands of a k-step. -/
def KStep.operands (k : KStep) : KOperands :=
  let rows (es : List SkEntry) := (es.head?.map fun e => (e.recs).map (Vec.ofRec k.op k.cfg true)).getD []
  let cols (es : List SkEntry) :=
    match es with
    | [e] => e.recs.map (Vec.ofRec k.op k.cfg false)
    | e :: e' :: _ => List.zipWith Vec.append (e.recs.map (Vec.ofRec k.op k.cfg false)) (e'.recs.map (Vec.ofRec k.op k.cfg false))
    | [] => []
  ⟨rows k.a, cols k.b, rows k.pa, cols k.pb⟩

/-- The new value of an accumulator element and its flags (R65, R159). -/
def accAdd (op : Nat) (c : Cfg) (acc : W32) (x y : Vec) (px py : Option Vec) : W32 × Nat :=
  if kInt c.fa && op != 10 then
    let u := intSum op x y + (match px, py with | some a, some b => intSum op a b | _, _ => 0)
    let (v, f) := clampS 32 (acc.toInt + u)
    (BitVec.ofInt 32 v, f)
  else
    let ts := terms op x y ++ (match px, py with | some a, some b => terms op a b | _, _ => [])
    let (u, f) := ksum ts
    let (r, g) := add32 (decodeNum f32 acc.toNat) (decodeNum f32 u)
    (BitVec.ofNat 32 r, orFlags f g)

/-- Land a k-step in a window (R159): only the rows and columns of SHAPE are written; the flags of those elements, L8INV of every column
(R163). -/
def KStep.land (k : KStep) (w : Acc) : Acc × Nat :=
  let o := k.operands
  let out : List (W32 × Nat) := (pieces 64 64 w.el).zipIdx.flatMap fun row => row.1.zipIdx.map fun e =>
    if row.2 < k.cfg.rows ∧ e.2 < k.cfg.cols then
      accAdd k.op k.cfg e.1 (o.rows.getD row.2 ⟨[], [], [], none⟩) (o.cols.getD e.2 ⟨[], [], [], none⟩) o.prows[row.2]? o.pcols[e.2]?
    else (e.1, 0)
  let badL8 := k.op == 11 && (k.b.any fun e => e.recs.any fun r => (recPoints r).any fun p => !p.2)
  let badRow := k.op == 9 && (o.rows.any fun v => v.places.isNone)
  let p := (k.a ++ k.b ++ k.pa ++ k.pb).any (·.poison) || badRow || ((k.op == 10 || k.op == 11) && k.cfg.scalePs) || (k.op == 10 && k.cfg.zpPs)
  (⟨out.map (·.1), w.poison || p⟩, out.foldl (fun f e => orFlags f e.2) (if badL8 then flagL8INV else 0))

end Sys2Proof.Machine
end

