-- ==== Sys2Proof/Machine/Matrix.lean ====
section
/-! DEFINITION. The matrix engine's words (R153-R174). K-steps start, end and land by the events of Engines. -/

namespace Sys2Proof.Machine

/-- FMT pairs of `mma`, `mma.s` and `mma.pair` (R158). -/
def plainPair (fa fb : Nat) : Bool :=
  ((fa == 4 || fa == 5) && (fb == 4 || fb == 5)) || (fa == fb && (fa == 2 || fa == 3 || fa == 6 || fa == 7))

/-- Form `op` accepts the configuration (R158). -/
def Cfg.accepts (c : Cfg) (op : Nat) : Bool :=
  match op with
  | 8 | 12 => plainPair c.fa c.fb && !c.sparse
  | 9 => plainPair c.fa c.fb && c.sparse
  | 10 => c.fa == c.fb && (c.fa == 9 || c.fa == 10) && !c.sparse
  | _ => (c.fa == 4 || c.fa == 5) && c.fb == 11 && !c.sparse

/-- Entries of `skb` that a k-step of form `op` takes (R158). -/
def bEntries (op : Nat) : Nat := if op = 9 then 2 else 1

/-- The oldest entries that a k-step of form `op` takes have landed (R154, R190). -/
def Unit.available (un : Unit) (op : Nat) : Bool :=
  decide (1 ≤ un.ska.length) && decide (bEntries op ≤ un.skb.length) &&
    (un.ska.take 1).all (·.landed) && (un.skb.take (bEntries op)).all (·.landed)

/-- A needed entry is of a refill after a restore, whose timing follows the restart (R200): it waits in the skein, or its restored fill is
still to reserve it. -/
def Unit.refilling (un : Unit) (op : Nat) : Bool :=
  let late := fun (es : List SkEntry) (n : Nat) (fill : CopyOp) =>
    ((es.take n).any fun e => e.refill && !e.landed) ||
      (decide (es.length < n) && un.chans.any fun ch => ch.cmds.any fun x => x.restored && x.op == fill && decide (x.next < x.beats))
  late un.ska 1 .cfillA || late un.skb (bEntries op) .cfillB

/-- A multiply (R158, R159, R168): `active` is latched and `MPC` cleared at the end of t. In strict mode a first k-step that starts at t
without its entries is `SCHEDULE-MISS` there (log 19, DEDUCED), unless it waits for a refill (R200). -/
def mmaBody (op : Nat) (ok : Bool) (acc n : Nat) (acq rel : Bool) (scope : Nat) (s : State) (u _k : Nat) : Act :=
  match s.unit? u with
  | none => .wait 3 none
  | some un =>
    let now := s.now un
    let d := un.divisor 1
    if !ok || !un.shadow.accepts op then .fault .illegal 0
    else if (s.region un.region).strict && !acq && !un.available op && !un.refilling op && n != 0 then .engine .scheduleMiss ⟨1, 0, 0, 0, 0, 0, 0⟩
    else
      let done := now + un.lsc scope
      let m : Mult :=
        { op, acc, n, d, acq, rel, scope, cfg := un.shadow, next := 0, startAt := if acq then nextIssue d done else now
          resumed := false, seq := un.seq, waiting := false, freeAt := now, relBase := none, cover := ⟨[], 0⟩, relAt := none }
      let un := { un with mult := some m }.later now 1 (.latch un.shadow)
      .go (s.setUnit u (if acq then un.later (done - 1) 3 (.acquire scope) else un)) .seq

/-- The first cycle in which the matrix engine is free again after a multiply of `n` k-steps squashed in cycle `now` (R108, R160, R171): its
acquire and its k-steps, the entries there, and its release from the last landing on, whatever it would cover complete by then (R168; log 116,
DEDUCED). -/
def multFree (op n : Nat) (acq rel : Bool) (scope : Nat) (un : Unit) (now : Nat) : Nat :=
  let d := un.divisor 1
  let start := if acq then nextIssue d (now + un.lsc scope) else now
  let last := start + 32 * d * n
  if rel then (if n = 0 then start else last + (if op = 12 then 16 else 8) * d - 1) + un.lsc scope + 1 else last

/-- What the walk reads of a multiply word: it waits for the engine and, where it is squashed, holds it as the live word would (R108). -/
def mmaInfo (op : Nat) (ok : Bool) (n : Nat) (acq rel : Bool) (scope : Nat) : WordInfo :=
  { matWord 0 true with mult := if ok then some (multFree op n acq rel scope) else none }

/-- A multiply word. -/
def mmaOp (op : Nat) (ok : Bool) (c : BitVec 4) (n : BitVec 12) (q l : BitVec 1) (st : BitVec 4) (s : State) : Result :=
  .next (runWord (mmaInfo op ok n.toNat (q == 1) (l == 1) st.toNat) (mmaBody op ok c.toNat n.toNat (q == 1) (l == 1) st.toNat) s)

/-- `mma` (R159). -/
def execMma (c : BitVec 4) (n : BitVec 12) (q l : BitVec 1) (st : BitVec 4) (s : State) : Result :=
  mmaOp 8 (wellFormed (.mma c n q l st)) c n q l st s
/-- `mma.s` (R161). -/
def execMmaS (c : BitVec 4) (n : BitVec 12) (q l : BitVec 1) (st : BitVec 4) (s : State) : Result :=
  mmaOp 9 (wellFormed (.mmaS c n q l st)) c n q l st s
/-- `mma.q` (R162). -/
def execMmaQ (c : BitVec 4) (n : BitVec 12) (q l : BitVec 1) (st : BitVec 4) (s : State) : Result :=
  mmaOp 10 (wellFormed (.mmaQ c n q l st)) c n q l st s
/-- `mma.l8` (R163). -/
def execMmaL8 (c : BitVec 4) (n : BitVec 12) (q l : BitVec 1) (st : BitVec 4) (s : State) : Result :=
  mmaOp 11 (wellFormed (.mmaL8 c n q l st)) c n q l st s
/-- `mma.pair` (R164). -/
def execMmaPair (c : BitVec 4) (n : BitVec 12) (q l : BitVec 1) (st : BitVec 4) (s : State) : Result :=
  mmaOp 12 (wellFormed (.mmaPair c n q l st)) c n q l st s

/-- A write of a shadow field, landing at the end of t + d - 1 (R156). -/
def msetOp (ok : Bool) (f : CfgField) (v : W32) (s : State) : Result :=
  .next (runWord (matWord 0 false) (fun s u _ =>
    match s.unit? u with
    | none => .wait 3 none
    | some un =>
      if !ok then .fault .illegal 0
      else .go (s.setUnit u (un.later (s.now un + un.divisor 1 - 1) 1 (.cfg f v false))) .seq) s)

/-- A write of a shadow field from a register (R156). -/
def msetReg (ok : Bool) (f : CfgField) (a : BitVec 5) (g : W64 → W32) (s : State) : Result :=
  .next (runWord (matWord 0 false) (fun s u _ =>
    match s.unit? u with
    | none => .wait 3 none
    | some un =>
      if !ok || ownPort 1 [a.toNat] then .fault .illegal 0
      else
        match fetch 1 un [a.toNat] with
        | .error q => .miss q
        | .ok (vs, un') =>
          .go (s.setUnit u (un'.later (s.now un + un.divisor 1 - 1) 1 (.cfg f (g (arg vs 0).bits) (poisonOf vs)))) .seq) s)

/-- `mset.fmt` (R156). -/
def execMsetFmt (g : BitVec 2) (b a : BitVec 4) (s : State) : Result :=
  msetOp (wellFormed (.msetFmt g b a)) .fmt (BitVec.ofNat 32 (a.toNat + 16 * b.toNat + 256 * g.toNat)) s
/-- `mset.shape` (R156). -/
def execMsetShape (n m : BitVec 6) (s : State) : Result :=
  msetOp (wellFormed (.msetShape n m)) .shape (BitVec.ofNat 32 (m.toNat + 64 * n.toNat)) s
/-- `mset.scale` (R156). -/
def execMsetScale (a : BitVec 5) (s : State) : Result := msetReg (wellFormed (.msetScale a)) .scale a (·.setWidth 32) s
/-- `mset.zp` (R156). -/
def execMsetZp (a : BitVec 5) (s : State) : Result := msetReg (wellFormed (.msetZp a)) .zp a (fun v => v.setWidth 32 &&& 0xFFFF) s
/-- `mset.sparse` (R156). -/
def execMsetSparse (st : BitVec 1) (s : State) : Result := msetOp (wellFormed (.msetSparse st)) .sparse (st.setWidth 32) s

/-- The engine words before this cycle have landed only once `c` is reached (R170). -/
def Unit.landsBy (un : Unit) (c : Nat) : Unit := { un with mland := max un.mland c }

/-- `mclr` (R166). -/
def execMclr (c : BitVec 4) (s : State) : Result :=
  .next (runWord (matWord 1 true) (fun s u _ =>
    match s.unit? u with
    | none => .wait 3 none
    | some un =>
      let due := s.now un + un.divisor 1 - 1
      if !wellFormed (.mclr c) then .fault .illegal 0
      else .go (s.setUnit u ((un.later due 1 (.mclr c.toNat)).landsBy (due + 1))) .seq) s)

/-- A window's image lies in the unit store and is aligned (R166). -/
def accOk (a : Nat) : Bool := a % 256 == 0 && decide (a + 16384 ≤ Config.unitStoreBytes)

/-- The bank cycles of the 64 rows of a window's image (R230). -/
def rowUse (port t d a : Nat) : List (Nat × Nat × Nat) :=
  (List.range 64).flatMap fun b => (blocksOf (a + 256 * b) 256).map fun x => (t + b * d + 1, port, x)

/-- `macc.ld` (R166). -/
def execMaccLd (c : BitVec 4) (a : BitVec 5) (s : State) : Result :=
  .next (runWord (matWord 64 true) (fun s u _ =>
    match s.unit? u with
    | none => .wait 3 none
    | some un =>
      let t := s.now un
      let d := un.divisor 1
      let due := t + 68 * d - 1
      if !wellFormed (.maccLd c a) || ownPort 1 [a.toNat] then .fault .illegal 0
      else
        match fetch 1 un [a.toNat] with
        | .error q => .miss q
        | .ok (vs, un') =>
          let addr := (arg vs 0).bits.toNat
          if poisonOf vs then .go (s.setUnit u ((un'.later due 1 (.accLoad c.toNat addr t d true)).landsBy (due + 1))) .seq
          else if !accOk addr then .fault .access 0
          else if !un'.banksFree (rowUse 0 t d addr) then .wait 2 none
          else
            let un' := un'.reserve (rowUse 0 t d addr)
            .go (s.setUnit u ((un'.later due 1 (.accLoad c.toNat addr t d false)).landsBy (due + 1))) .seq) s)

/-- Window `c`. -/
def Unit.window (un : Unit) (c : Nat) : Acc := un.acc.getD c ⟨List.replicate 4096 0, false⟩

/-- `macc.st` (R166): row b is a store of walker 1 issued at t + b × d; a poisoned window or address writes nothing and raises PS, waiting for no bank
port and reserving none (log 10, DEDUCED), and holds `mwait` as long as one that writes (log 102, DEDUCED). -/
def execMaccSt (c : BitVec 4) (a : BitVec 5) (s : State) : Result :=
  .next (runWord (matWord 64 true) (fun s u _ =>
    match s.unit? u with
    | none => .wait 3 none
    | some un =>
      let t := s.now un
      let d := un.divisor 1
      if !wellFormed (.maccSt c a) || ownPort 1 [a.toNat] then .fault .illegal 0
      else
        match fetch 1 un [a.toNat] with
        | .error q => .miss q
        | .ok (vs, un') =>
          let addr := (arg vs 0).bits.toNat
          let w := un.window c.toNat
          if poisonOf vs then .go (s.setUnit u ((un'.raise 1 (t + 1) flagPS).landsBy (t + 63 * d + 2))) .seq
          else if !accOk addr then .fault .access 0
          else if w.poison then .go (s.setUnit u ((un'.raise 1 (t + 1) flagPS).landsBy (t + 63 * d + 2))) .seq
          else if !un'.banksFree (rowUse 1 t d addr) then .wait 2 none
          else
            let key := un'.seq
            let rows := (pieces 64 64 w.el).zipIdx
            let un' := rows.foldl (fun un r =>
              un.later (t + r.2 * d + 1) 0 (.store 1 key (cellsAt (addr + 256 * r.2) (r.1.flatMap fun e => leBytes 4 e.toNat))))
              (un'.reserve (rowUse 1 t d addr))
            .go (s.setUnit u (un'.landsBy (t + 63 * d + 2))) .seq) s)

/-- Destination selector of a `macc.cvt` code, and whether its source is INT32 (R167). -/
def cvtCode (t : Nat) : Nat × Bool :=
  match t with
  | 7 => (0, true) | 8 => (5, true) | 9 => (6, true) | 10 => (1, true) | t => (t, false)

/-- `macc.cvt` (R167): 16 vector registers, written externally to `vw`; flags in `mw`'s `FLAGS`. -/
def execMaccCvt (c : BitVec 4) (a : BitVec 5) (v : BitVec 6) (t : BitVec 4) (st : BitVec 1) (r : BitVec 2) (s : State) : Result :=
  .next (runWord (matWord 16 true) (fun s u _ =>
    match s.unit? u with
    | none => .wait 3 none
    | some un =>
      let due := s.now un + 20 * un.divisor 1 - 1
      if !wellFormed (.maccCvt c a v t st r) || ownPort 1 [a.toNat] then .fault .illegal 0
      else
        match fetch 1 un [a.toNat] with
        | .error q => .miss q
        | .ok (vs, un') =>
          let w := un.window c.toNat
          let (dst, int) := cvtCode t.toNat
          let scale := decodeNum f32 ((arg vs 0).bits.toNat % 2 ^ 32)
          let out : List (W32 × Nat) := w.el.map fun e =>
            let (p, f) := mulNum (if int then numOfInt e.toInt else decodeNum f32 e.toNat) scale
            let (x, g) := writeSel (selOf dst) (Rnd.ofBits r) (st == 1) p
            (x, orFlags f g)
          let un' := ((pieces 256 16 out).zipIdx).foldl (fun un p =>
            un.later due 2 (.lanes (v.toNat + p.2) (p.1.zipIdx.map fun e => (e.2, e.1.1)) (w.poison || poisonOf vs) true 0 true)) un'
          let fl := out.foldl (fun f e => orFlags f e.2) 0
          .go (s.setUnit u ((un'.raise 1 due (flagBits fl)).landsBy (due + 1))) .seq) s)

/-- `mprog` (R169). -/
def execMprog (d : BitVec 5) (s : State) : Result :=
  .next (runWord (matWord 0 false) (fun s u _ =>
    match s.unit? u with
    | none => .wait 3 none
    | some un =>
      if !wellFormed (.mprog d) || ownPort 1 [d.toNat] then .fault .illegal 0
      else if !un.room 1 d.toNat then .miss (outQueue 1 d.toNat)
      else .go (s.setUnit u (un.landExt 1 d.toNat (s.now un + un.divisor 1 - 1) ⟨BitVec.ofNat 64 un.mpc, false⟩)) .seq) s)

/-- `mwait` (R170): it waits in both modes. -/
def execMwait (s : State) : Result :=
  .next (runWord (matWord 0 false) (fun s u _ =>
    match s.unit? u with
    | none => .wait 3 none
    | some un =>
      if un.mult.isNone && un.ksteps.isEmpty && decide (un.mland ≤ s.now un) then .go s .seq else .wait 1 (some 0x31)) s)

end Sys2Proof.Machine
end

