-- ==== Sys2Proof/Machine/Paging.lean ====
section
/-! DEFINITION. Page tables, translation, the unit's translation cache, the lock table and the table reader (R238-R244). -/

namespace Sys2Proof.Machine

/-- Little-endian value of `n` bytes of device memory as they stand with every performed write. -/
def State.dramNat (s : State) (a n : Nat) : Nat := leNat (s.dram.bytes a n)

/-- A device physical address of a package lies in its memory (R235). -/
def paOk (pa n : Nat) : Bool := decide (pa < 2 ^ 39) && decide (pa % 2 ^ 38 + n ≤ Config.dieMemoryBytes)

/-- Bits [lo + n - 1 : lo] of a page-table entry. -/
def pteBits (e lo n : Nat) : Nat := e / 2 ^ lo % 2 ^ n

/-- Size of the page that a leaf maps at level 0, 1 or 2 (R238). -/
def pageSize (level : Nat) : Nat := 2 ^ (16 + 5 * min level 1 + 9 * (level - 1))

/-- The page-table index at a level (R238). -/
def ptIndex (level va : Nat) : Nat :=
  match level with
  | 0 => va / 2 ^ 16 % 32
  | n + 1 => va / 2 ^ (21 + 9 * n) % 512

/-- Elements per byte of a grouped format (R241). -/
def perByte (fmt : Nat) : Nat := if fmt = 9 then 1 else if fmt = 10 then 2 else 4

/-- The scale and zero-point planes lie wholly inside the page (R240, R241). -/
def planesOk (size fmt group spo zpo : Nat) : Bool :=
  if fmt < 9 then zpo == 0
  else
    let n := size * perByte fmt / group
    spo != 0 && decide (4096 * spo + 2 * n ≤ size) && (if fmt = 11 then zpo == 0 else zpo == 0 || decide (4096 * zpo + n ≤ size))

/-- The page of a leaf entry, or `none` for a failed translation (R239, R240). -/
def leafPage (pkgNo : Nat) (pkgOk : Nat → Bool) (level va e : Nat) : Option Page :=
  let size := pageSize level
  let pa := pteBits e 16 36 * 2 ^ 16
  let tgt := pteBits e 14 2
  let pkg := pteBits e 84 8
  let tgt := if tgt = 1 ∧ pkg = pkgNo then 0 else tgt
  let fmt := pteBits e 8 4
  let g := pteBits e 12 2
  let group := 32 * 2 ^ g
  let spo := pteBits e 92 18
  let zpo := pteBits e 110 18
  if tgt = 3 ∨ g = 3 ∨ 11 < fmt ∨ pteBits e 52 26 ≠ 0 ∨ pteBits e 5 3 ≠ 0 ∨ pa % size ≠ 0 then none
  else if tgt ≠ 2 ∧ !paOk pa size then none
  else if tgt = 1 ∧ !pkgOk pkg then none
  else if !planesOk size fmt group spo zpo then none
  else some
    { va := va / size * size, size, space := tgt, pa, pkg, part := pteBits e 78 6, fmt, group, spo, zpo
      r := e.testBit 2, w := e.testBit 3, at_ := e.testBit 4 }

/-- Walk the tables from `level` down (R238, R240): the addresses of the entries read, and the page or a failure (log 37, DEDUCED). -/
def walkTables (s : State) (va : Nat) : Nat → Nat → List Nat × Option Page
  | level, table =>
    let a := table + 16 * ptIndex level va
    let e := s.dramNat a 16
    let pkgOk : Nat → Bool := fun p => (s.boot.routes.getD p (0, 0)).2 != 0
    if !paOk a 16 || !e.testBit 0 then ([a], none)
    else if e.testBit 1 then
      if level = 3 then ([a], none) else ([a], leafPage s.boot.pkgNo pkgOk level va e)
    else
      match level with
      | 0 => ([a], none)
      | n + 1 =>
        if pteBits e 2 14 ≠ 0 ∨ pteBits e 52 76 ≠ 0 then ([a], none)
        else
          let (l, p) := walkTables s va n (pteBits e 16 36 * 2 ^ 16)
          (a :: l, p)

/-- The page that maps a device virtual address for a partition, by the tables as they stand (R238, R307). -/
def State.walk (s : State) (part va : Nat) : List Nat × Option Page :=
  match find s.vfs part with
  | some f => walkTables s va 3 f.ptroot.toNat
  | none => ([], none)

/-- The page covers an address. -/
def Page.covers (p : Page) (va : Nat) : Bool := decide (p.va ≤ va) && decide (va < p.va + p.size)

/-- A locked translation of the unit's die (R244). -/
def State.lockedPage (s : State) (u part va : Nat) : Option Page :=
  (s.locks.find? fun l => l.1 == dieOf u && l.2.1.covers va && l.2.1.part == part).map (·.2.1)

/-- An entry of the unit's translation cache that is ready in cycle `c` (R242, R243). -/
def Unit.cached (un : Unit) (va c : Nat) : Option CacheEntry := un.cache.find? fun e => e.page.covers va && decide (e.ready ≤ c)

/-- The time that a walk of these table reads takes, ns: each at the place where its table lies (R242, R243). -/
def walkNs (u : Nat) (reads : List Nat) : Nat :=
  (reads.map fun a => if a / 2 ^ 38 = dieOf u then Config.nsOwnDie else Config.nsOtherDie).sum

/-- The clock by which a region converts nanoseconds (R6). -/
def State.ghz (s : State) (un : Unit) : Frac := (s.region un.region).conv

/-- What a command's issue finds for one address (R182, R242): the page, or none for a failure, and whether it is ready at issue + Lx. -/
structure Found where
  page  : Option Page
  ready : Bool
  reads : List Nat

/-- Look up a device virtual address at a command's issue in cycle `t` (R242-R244): locked or cached, in a walk of its page that ends in
time, or a miss. -/
def State.look (s : State) (u : Nat) (un : Unit) (va t : Nat) : Found :=
  let by_ := t + un.lat.lx
  match s.lockedPage u un.part va with
  | some p => ⟨some p, true, []⟩
  | none =>
    match un.cached va by_ with
    | some e => ⟨some e.page, true, []⟩
    | none =>
      let (reads, p) := s.walk un.part va
      let serves := fun (a : Nat) => match p with | some g => g.covers a | none => decide (a ≤ va) && decide (va < a + 65536)
      let soon := s.walks.any fun w => w.2.unit == u && serves w.2.va && decide (w.2.ends + 1 ≤ by_)
      ⟨p, soon, reads⟩

/-- The memory channel of a block: die and channel (R235). -/
def memChannel (pa : Nat) : Nat := 512 * (pa / 2 ^ 38) + pa / 64 % 512

/-- A piece crosses the die-to-die link for unit `u`. -/
def Piece.crosses (q : Piece) (u : Nat) : Bool :=
  match q.space with
  | .dram => q.addr / 2 ^ 38 != dieOf u
  | .die d => d != dieOf u
  | _ => false

/-- Put a request in queue `k`, which serves one every `each` ns in arrival order, at time `t` (R233, R236): whether more than `limit` requests
stand ahead of it, so that its promise does not hold. -/
def State.queueUp (s : State) (k limit : Nat) (each t : Frac) : Bool × State :=
  let free := (find s.queues k).getD ⟨0, 1⟩
  let ahead := if free.le t then 0 else ((free.sub t).div each).ceil
  (decide (limit < ahead), { s with queues := put (s.queues.filter fun e => t.lt e.2) k ((free.max t).add each) })

/-- Put requests for `n` bytes at a physical address in the queues of their channels (R235, R236), a block each. -/
def State.queueBlocks (s : State) (pa n : Nat) (t : Frac) : Bool × State :=
  (List.range ((pa % 64 + n + 63) / 64)).foldl (fun acc i =>
    let (late, s) := acc.2.queueUp (memChannel (pa + 64 * i)) Config.channelQueue ⟨8, 3⟩ t
    (acc.1 || late, s)) (false, s)

/-- A request of no unit of the package goes through the memory channels as the units' do. -/
def State.enqueue (s : State) (pa n : Nat) : State := (s.queueBlocks pa n s.time).2

/-- The queues that a piece of a request of unit `u` enters at time `t`: those of its memory channels, and in its direction that of the die-to-die
link; whether its promise does not hold (R233, R236). -/
def State.queuePiece (s : State) (u : Nat) (q : Piece) (t : Frac) : Bool × State :=
  let (a, s) := if q.space = .dram then s.queueBlocks q.addr q.n t else (false, s)
  let (b, s) := if q.crosses u then s.queueUp (1024 + dieOf u) Config.linkQueue ⟨1, 50⟩ t else (false, s)
  (a || b, s)

/-- Send a walk of a 64 KiB range to the cluster's table reader in cycle `t` (R242): at most 64 walks run at a time, the rest in arrival
order; the start of a waiting walk is the end of the walk it waits for. Its reads take their places in the queues with the walk (R236; log 118, DEDUCED). -/
def State.sendWalk (s : State) (u : Nat) (un : Unit) (va t : Nat) (resident : Bool) (reads : List Nat) : State :=
  let c := clusterOf u
  let r := s.region un.region
  let mine := (s.walks.filter fun w => w.1 == c).map fun w =>
    match s.unit? w.2.unit with
    | some v => (s.region v.region).cycleTime (w.2.ends + 1)
    | none => s.time
  let sorted := mine.mergeSort fun a b => a.le b
  let start :=
    if mine.length < 64 then t
    else
      let at_ := sorted.getD (mine.length - 64) s.time
      max t (r.anchorCyc + ((at_.sub r.anchor).div r.period).ceil)
  let tw := toRc r.conv (walkNs u reads)
  let s := reads.foldl (fun s a => (s.queuePiece u ⟨.dram, a, 16, 64⟩ s.time).2) s
  { s with walks := s.walks ++ [(c, { unit := u, va := va / 65536 * 65536, resident, asked := t, start := some start, ends := start + tw })] }

/-- Enter a translation (R242): a filled entry replaces the oldest filled one where 512 entries stand, and is dropped where all are
resident, or where its own page is, since only `cinv` removes a resident entry. -/
def Unit.fillCache (un : Unit) (page : Page) (resident : Bool) (ready : Nat) : Unit :=
  let same := fun (e : CacheEntry) => e.page.va == page.va && e.page.size == page.size
  let rest := un.cache.filter fun e => !same e
  let e : CacheEntry := { page, resident, ready, order := un.seq }
  if !resident && un.cache.any (fun x => same x && x.resident) then un
  else if rest.length < 512 then { un with cache := rest ++ [e], seq := un.seq + 1 }
  else
    match rest.find? fun x => !x.resident with
    | some old => { un with cache := (rest.filter fun x => x.order != old.order) ++ [e], seq := un.seq + 1 }
    | none => un

/-- Remove the entries that overlap a range, in cycle `t` (R196, R243): a resident one is walked again. -/
def State.invalidate (s : State) (u va n t : Nat) : State :=
  match s.unit? u with
  | none => s
  | some un =>
    let hit := fun (e : CacheEntry) => decide (0 < n) && decide (e.page.va < va + n) && decide (va < e.page.va + e.page.size)
    let gone := un.cache.filter fun e => hit e && e.resident
    let un' := { un with cache := un.cache.filter fun e => !hit e }
    gone.foldl (fun s e => s.sendWalk u un' e.page.va t true (s.walk un'.part e.page.va).1) (s.setUnit u un')

/-- Declared latency of a piece of memory seen from unit `u`, region cycles (R27); that of host memory where no page says which memory it is (log 119,
DESIGN CHOICE). -/
def Unit.offLat (un : Unit) (u : Nat) : Space → Nat → Nat
  | .dram, a => if a / 2 ^ 38 = dieOf u then un.lat.ownDie else un.lat.otherDie
  | .die _, _ => un.lat.otherDie
  | .remote p, _ => (find un.lat.remote p).getD un.lat.otherDie
  | .host, _ | .nowhere, _ => un.lat.host
  | _, _ => 1

/-- A space is off-core for unit `u` (R175). -/
def isOff (u : Nat) : Space → Bool
  | .dram | .host | .nowhere => true
  | .remote _ => true
  | .die d => d != dieOf u
  | _ => false

/-- Path of a space for unit `u` (R175, R179). -/
def pathOf (u : Nat) (sp : Space) : Nat :=
  match sp with
  | .unit => 0
  | .cluster _ => 2
  | .die d => if d = dieOf u then 3 else 4
  | _ => 4

end Sys2Proof.Machine
end

