-- ==== Sys2Proof/Machine/CopyPlan.lean ====
section
/-! DEFINITION. Copy addresses, the checks of a copy word at issue, and the layout of its beats (R175, R176, R179, R186-R194, R198, R199,
R241). -/

namespace Sys2Proof.Machine

/-- What a copy address names (R175): a scratchpad space with its size, or a device virtual address. -/
inductive Place0 where
  | pad (space : Space) (limit off : Nat)
  | dva (va : Nat)
  deriving DecidableEq, Repr

/-- Read a copy address for unit `u` (R175); none where it raises `ACCESS`. -/
def copyPlace (u : Nat) (a : Nat) : Option Place0 :=
  if a / 2 ^ 63 % 2 = 1 then (if a / 2 ^ 48 % 2 ^ 15 = 0 then some (.dva (a % 2 ^ 48)) else none)
  else if a / 2 ^ 32 % 2 ^ 31 ≠ 0 then none
  else
    let off := a % 2 ^ 28
    match a / 2 ^ 28 % 16 with
    | 0 => some (.pad .unit Config.unitStoreBytes off)
    | 1 => some (.pad (.cluster (clusterOf u)) Config.clusterStoreBytes off)
    | 2 => some (.pad (.cluster (pairCluster (clusterOf u))) Config.clusterStoreBytes off)
    | 3 => some (.pad (.die (dieOf u)) Config.dieStoreBytes off)
    | 4 => some (.pad (.die (1 - dieOf u)) Config.dieStoreBytes off)
    | _ => none

/-- The level of an address, which every row keeps (R186). -/
def levelOf (a : Nat) : Nat := if a / 2 ^ 63 % 2 = 1 then 16 else a / 2 ^ 28 % 16

/-- `n` bytes at `a` are addressable (R176). -/
def rangeOk (u a n : Nat) : Bool :=
  match copyPlace u a with
  | some (.pad _ limit off) => n == 0 || decide (off + n ≤ limit)
  | some (.dva va) => n == 0 || decide (va + n ≤ 2 ^ 48)
  | none => false

/-- A value read as two's complement of 16 bits. -/
def signed16 (v : Nat) : Int := (BitVec.ofNat 16 v).toInt

/-- Address `a` plus 64 × stride × i, modulo 2^64 (R186). -/
def strideAddr (a : Nat) (stride : Int) (i : Nat) : Nat := (((a : Int) + 64 * stride * i) % (2 ^ 64 : Int)).toNat

/-! ### Operand values by kind of command -/

/-- DSTR of a `cmov` shape (R186). -/
def Cmd.dstr (c : Cmd) : Int := signed16 (c.b.toNat / 2 ^ 48)
/-- SSTR. -/
def Cmd.sstr (c : Cmd) : Int := signed16 (c.b.toNat / 2 ^ 32)
/-- ROWS of a `cmov`. -/
def Cmd.rows (c : Cmd) : Nat := c.b.toNat / 2 ^ 20 % 4096 + 1
/-- LEN of a `cmov`. -/
def Cmd.len (c : Cmd) : Nat := c.b.toNat % 2 ^ 20

/-- LEN of a fill geometry (R188). -/
def Cmd.gLen (c : Cmd) : Nat := c.b.toNat / 2 ^ 41 % 2 ^ 20
/-- ROWS of a geometry. -/
def Cmd.gRows (c : Cmd) : Nat := c.b.toNat / 2 ^ 35 % 64 + 1
/-- S of a geometry. -/
def Cmd.gS (c : Cmd) : Bool := c.b.toNat.testBit 34
/-- COUNT of a geometry. -/
def Cmd.gCount (c : Cmd) : Nat := c.b.toNat / 2 ^ 30 % 16 + 1
/-- ADV of a geometry. -/
def Cmd.gAdv (c : Cmd) : Nat := c.b.toNat / 2 ^ 20 % 1024
/-- STRIDE of a geometry. -/
def Cmd.gStride (c : Cmd) : Nat := c.b.toNat % 2 ^ 20

/-- Element size of a gather or scatter (R193). -/
def Cmd.elem (c : Cmd) : Nat := 4 * 2 ^ (c.b.toNat / 2 ^ 34 % 8)
/-- COUNT of a gather or scatter. -/
def Cmd.count (c : Cmd) : Nat := c.b.toNat / 2 ^ 22 % 4096 + 1
/-- IDX of a gather or scatter. -/
def Cmd.idx (c : Cmd) : Nat := c.b.toNat % 2 ^ 22

/-- A bit-field pattern obeys its limits (R191). -/
def patternOk (v : Nat) : Bool :=
  let sh := v / 2 ^ 21 % 256
  v / 2 ^ 29 == 0 && decide (v / 2 ^ 19 % 4 ≠ 3) && decide (sh ≤ 127) &&
    decide (sh + (v / 2 ^ 11 % 128 + 1) * (v / 2 ^ 7 % 16 + 1) ≤ v % 128 + 1)

/-- Bits of an output element of a pattern (R191). -/
def patOut (v : Nat) : Nat := 4 * 2 ^ (v / 2 ^ 19 % 4)

/-- First stream bit of output element `k` (R192). -/
def patBit (v k : Nat) : Nat :=
  let n := v / 2 ^ 11 % 128 + 1
  (v % 128 + 1) * (k / n) + v / 2 ^ 21 % 256 + (v / 2 ^ 7 % 16 + 1) * (k % n)

/-- The stream bytes [first, last] that output elements `k` to `k + m - 1` need. -/
def patSpan (v k m : Nat) : Nat × Nat :=
  let w := v / 2 ^ 7 % 16 + 1
  ((patBit v k) / 8, (patBit v (k + m - 1) + w - 1) / 8)

/-- The bytes of output elements `first` on, from stream bytes that begin at byte `start` (R192). -/
def patBytes (v first m start : Nat) (src : List Byte) : List Byte :=
  let stream := leNat src
  let w := v / 2 ^ 7 % 16 + 1
  let o := patOut v
  let sx := v.testBit 18
  let elems := (List.range m).map fun i =>
    let raw := stream / 2 ^ (patBit v (first + i) - 8 * start) % 2 ^ w
    let wide : Nat := if sx then ((BitVec.ofNat w raw).signExtend 16).toNat else raw
    wide % 2 ^ o
  leBytes (m * o / 8) (elems.foldr (fun e acc => e + acc * 2 ^ o) 0)

/-! ### Beats -/

/-- Split `n` bytes at virtual address `va` into pieces, one per 64 KiB range touched, each through its page. -/
def dvaPieces (pkgs : List Page) : Nat → Nat → Nat → List Piece
  | 0, _, _ => []
  | fuel + 1, va, n =>
    if n = 0 then []
    else
      let m := min n (65536 - va % 65536)
      let p : Piece :=
        match pkgs.find? (·.covers va) with
        | some g =>
          let sp : Space := if g.space = 0 then .dram else if g.space = 1 then .remote g.pkg else .host
          ⟨sp, g.pa + (va - g.va), m, if g.space = 2 then 64 else g.part⟩
        | none => ⟨.nowhere, 0, m, 64⟩
      p :: dvaPieces pkgs fuel (va + m) (n - m)

/-- The pieces of `n` bytes at a copy address. -/
def Cmd.pieces (c : Cmd) (u a n : Nat) : List Piece :=
  match copyPlace u a with
  | some (.pad sp _ off) => if n = 0 then [] else [⟨sp, off, n, 64⟩]
  | some (.dva va) => dvaPieces c.pages (n / 65536 + 2) va n
  | none => []

/-- The page that holds a device virtual address of a command. -/
def Cmd.pageAt (c : Cmd) (a : Nat) : Option Page := if a / 2 ^ 63 % 2 = 1 then c.pages.find? (·.covers (a % 2 ^ 48)) else none

/-- Bytes of row `i`'s beat `j` of a `cmov` (R187): offset in the row and count, one destination block each. -/
def rowBeat (dst len j : Nat) : Nat × Nat :=
  let head := min len (64 - dst % 64)
  if j = 0 then (0, head) else (head + 64 * (j - 1), min 64 (len - (head + 64 * (j - 1))))

/-- Beats of a row of `len` bytes at `dst`. -/
def rowBeats (dst len : Nat) : Nat := if len = 0 then 0 else (dst % 64 + len + 63) / 64

/-- The off-core page format that decides SV and the side records of an entry (R189). -/
def Cmd.sideFmt (c : Cmd) (a : Nat) : Option Page :=
  match c.pageAt a with
  | some p => if p.fmt = 9 ∨ p.fmt = 10 ∨ p.fmt = 11 then some p else none
  | none => none

/-- Entry `e` of a fill has side records (R189): those of the planes of an off-core page in decode mode, and those of a scratchpad source with
S; the other die's store (level 4), which is off-core (R175), has none. -/
def Cmd.hasSide (c : Cmd) (e : Nat) : Bool :=
  if c.a.toNat / 2 ^ 63 % 2 = 1 then c.pattern.isNone && (c.sideFmt (c.a.toNat + c.gAdv * e)).isSome
  else c.gS && decide (levelOf c.a.toNat < 4)

/-- Beats of entry `e`. -/
def Cmd.entryBeats (c : Cmd) (e : Nat) : Nat := if c.hasSide e then 192 else 128

/-- Beat `k` of a fill as (entry, beat within it). -/
def Cmd.fillBeat (c : Cmd) (k : Nat) : Nat × Nat :=
  (List.range 16).foldl (fun (p : Nat × Nat) e => if p.1 = e ∧ c.entryBeats e ≤ p.2 then (e + 1, p.2 - c.entryBeats e) else p) (0, k)

/-- First beat of entry `e`. -/
def Cmd.entryFirst (c : Cmd) (e : Nat) : Nat := ((List.range e).map c.entryBeats).sum

/-- Group slots of a record of a format (R153, R241). -/
def slotGroups (fmt g : Nat) : Nat := (if fmt = 10 then 256 else 128) / g

/-- Lay out beat `j` of entry `e` of a fill, for a reserved slot `ord` (R189, R192, R241). -/
def Cmd.fillPlan (c : Cmd) (u : Nat) (isB : Bool) (ord e j : Nat) : Plan :=
  let addr := c.a.toNat
  let path := match copyPlace u addr with | some (.pad sp _ _) => pathOf u sp | _ => 4
  if j < 128 then
    let r := j / 2
    let at_ := 128 * r + 64 * (j % 2)
    let sink : Sink := .skein isB ord false at_
    match c.pattern with
    | none =>
      let o := c.gAdv * e + 64 * (j % 2)
      let n := if c.gRows ≤ r then 0 else min 64 (c.gLen - o)
      ⟨c.pieces u (addr + c.gStride * r + o) n, sink, .raw, 64, if n = 0 then [1] else [1, path]⟩
    | some pat =>
      let out := 128 * e + 64 * (j % 2)
      let n := if c.gRows ≤ r then 0 else min 64 (c.gLen - out)
      if n = 0 then ⟨[], sink, .raw, 64, [1]⟩
      else
        let v := pat.toNat
        let first := out * 8 / patOut v
        let m := (n * 8 + patOut v - 1) / patOut v
        let (lo, hi) := patSpan v first m
        let k := hi - lo + 1
        ⟨c.pieces u (addr + c.gStride * r + lo) k, sink, .bits pat first m lo n, 64, 1 :: List.replicate ((k + 127) / 128) path⟩
  else
    let r := j - 128
    let sink : Sink := .skein isB ord true (64 * r)
    if c.gRows ≤ r then ⟨[], sink, .raw, 64, [1]⟩
    else if addr / 2 ^ 63 % 2 = 1 then
      let o := addr + c.gStride * r + c.gAdv * e
      match c.sideFmt o with
      | none => ⟨[], sink, .raw, 64, [1]⟩
      | some p =>
        let gp := (o % 2 ^ 48 - p.va) * perByte p.fmt / p.group
        let ng := slotGroups p.fmt p.group
        let base := 2 ^ 63 + p.va
        let scales := c.pieces u (base + 4096 * p.spo + 2 * gp) (2 * ng)
        let zeros := if p.fmt = 11 ∨ p.zpo = 0 then [] else c.pieces u (base + 4096 * p.zpo + gp) ng
        ⟨scales ++ zeros, sink, .planes ng, 64, [1, 4]⟩
    else ⟨c.pieces u (addr + 64 * c.gStride + 4096 * e + 64 * r) 64, sink, .raw, 64, [1, path]⟩

/-- Lay out beat `k` of a command (R179, R187, R189, R193, R195, R198, R199). -/
def Cmd.plan (c : Cmd) (u k : Nat) : Plan :=
  let path := fun a => match copyPlace u a with | some (.pad sp _ _) => pathOf u sp | _ => 4
  let toMem := fun (src dst n : Nat) =>
    let w := (c.pieces u dst n).headD ⟨.host, 0, n, 64⟩
    (⟨c.pieces u src n, .mem w, .raw, n, [path src, path dst]⟩ : Plan)
  match c.op with
  | .cmov =>
    let nb := max 1 (rowBeats c.d.toNat c.len)
    let i := k / nb
    let src := strideAddr c.a.toNat c.sstr i
    let dst := strideAddr c.d.toNat c.dstr i
    let (o, n) := rowBeat dst c.len (k % nb)
    toMem (src + o) (dst + o) n
  | .cfillA => let (e, j) := c.fillBeat k; c.fillPlan u false (c.slot.getD 0) e j
  | .cfillB => let (e, j) := c.fillBeat k; c.fillPlan u true (c.slot.getD 0) e j
  | .cgat => toMem (c.a.toNat + c.elem * c.index.getD k 0) (c.d.toNat + c.elem * k) c.elem
  | .csct => toMem (c.a.toNat + c.elem * k) (c.d.toNat + c.elem * c.index.getD k 0) c.elem
  | .catom op =>
    let n := if op = 13 then 4 else 8
    let p := (c.pieces u c.a.toNat n).headD ⟨.host, 0, n, 64⟩
    ⟨[], .atomic p, .raw, n, [path c.a.toNat]⟩
  | .cxwr =>
    let n := min 64 (c.z - 64 * k)
    ⟨[⟨.unit, c.d.toNat + 64 * k, n, 64⟩], .sample c.cross c.sample (64 * k), .raw, n, [0, 3]⟩
  | .cxrd =>
    let data := (c.z + 63) / 64
    if k < data then
      let n := min 64 (c.z - 64 * k)
      ⟨[], .mem ⟨.unit, c.d.toNat + 64 * k, n, 64⟩, .output (64 * k), n, [3, 0]⟩
    else ⟨[], .mem ⟨.unit, c.d.toNat + 64 * data, 64, 64⟩, .output (64 * data), 64, [3, 0]⟩
  | .cmark => ⟨[], .mem ⟨.unit, 0, 0, 64⟩, .raw, 0, []⟩

/-- The beats of a command in all. -/
def Cmd.total (c : Cmd) : Nat :=
  match c.op with
  | .cmov => c.rows * rowBeats c.d.toNat c.len
  | .cfillA | .cfillB => ((List.range c.gCount).map c.entryBeats).sum
  | .cgat | .csct => c.count
  | .catom _ => 1
  | .cmark => 0
  | .cxwr => (c.z + 63) / 64
  | .cxrd => (c.z + 63) / 64 + 1

/-! ### Checks at issue (R176) -/

/-- One range that a command touches: its address, its bytes, the rights it needs, and whether its ends are odd (R74). -/
structure Touch where
  addr  : Nat
  n     : Nat
  write : Bool
  atom  : Bool
  deriving DecidableEq, Repr

/-- The ranges that a command touches, in the order of its beats, a source before its destination (R240). The planes of a page are no range of the
command (log 120, DEDUCED). -/
def Cmd.touches (c : Cmd) : List Touch :=
  match c.op with
  | .cmov =>
    if c.len = 0 then [] else (List.range c.rows).flatMap fun i =>
      [⟨strideAddr c.a.toNat c.sstr i, c.len, false, false⟩, ⟨strideAddr c.d.toNat c.dstr i, c.len, true, false⟩]
  | .cfillA | .cfillB =>
    (List.range c.gCount).flatMap fun e =>
      let lo := if c.pattern.isNone then c.gAdv * e else 128 * e
      let n := min 128 (c.gLen - lo)
      let rows : List Touch := (List.range c.gRows).map fun r =>
        match c.pattern with
        -- the page that decides SV is touched even where the entry holds none of its bytes (R189; log 120, DEDUCED)
        | none => ⟨c.a.toNat + c.gStride * r + lo, if r = 0 ∧ c.a.toNat / 2 ^ 63 % 2 = 1 then max 1 n else n, false, false⟩
        | some v =>
          let m := (n * 8 + patOut v.toNat - 1) / patOut v.toNat
          let (b0, b1) := patSpan v.toNat (lo * 8 / patOut v.toNat) (max 1 m)
          ⟨c.a.toNat + c.gStride * r + b0, if n = 0 then 0 else b1 - b0 + 1, false, false⟩
      let sides : List Touch :=
        if c.a.toNat / 2 ^ 63 % 2 = 0 ∧ c.hasSide e then [⟨c.a.toNat + 64 * c.gStride + 4096 * e, 64 * c.gRows, false, false⟩] else []
      rows ++ sides
  | .cgat => c.index.zipIdx.flatMap fun p => [⟨c.a.toNat + c.elem * p.1, c.elem, false, false⟩, ⟨c.d.toNat + c.elem * p.2, c.elem, true, false⟩]
  | .csct => c.index.zipIdx.flatMap fun p => [⟨c.a.toNat + c.elem * p.2, c.elem, false, false⟩, ⟨c.d.toNat + c.elem * p.1, c.elem, true, false⟩]
  | .catom op => [⟨c.a.toNat, if op = 13 then 4 else 8, true, true⟩]
  | .cxwr => [⟨c.d.toNat, c.z, false, false⟩]
  | .cxrd => [⟨c.d.toNat, 64 * ((c.z + 63) / 64) + 64, true, false⟩]
  | .cmark => []

/-- The operand values obey their limits (R176, R186, R188, R191, R193, R194, R199). An element address of a gather or scatter whose sum
carries into bits [31:28] is at the level that the sum spells (log 113, DEDUCED). -/
def Cmd.valuesOk (c : Cmd) (u : Nat) : Bool :=
  let lim := c.touches.all fun t => rangeOk u t.addr t.n
  match c.op with
  | .cmov =>
    rangeOk u c.a.toNat 0 && rangeOk u c.d.toNat 0 && lim &&
      c.touches.all fun t => levelOf t.addr == levelOf (if t.write then c.d.toNat else c.a.toNat)
  | .cfillA | .cfillB =>
    rangeOk u c.a.toNat 0 && lim && c.b.toNat / 2 ^ 61 == 0 && c.a.toNat % 32 == 0 && c.gStride % 32 == 0 && c.gAdv % 32 == 0 &&
      (c.pattern.isNone || c.gAdv == 0) && (match c.pattern with | some v => patternOk v.toNat | none => true) &&
      c.touches.all fun t => levelOf t.addr == levelOf c.a.toNat
  | .cgat | .csct =>
    rangeOk u c.a.toNat 0 && rangeOk u c.d.toNat 0 && c.b.toNat / 2 ^ 37 == 0 && decide (c.b.toNat / 2 ^ 34 % 8 ≤ 4) && c.idx % 4 == 0 &&
      decide (c.idx + 4 * c.count ≤ Config.unitStoreBytes) && lim && c.a.toNat % c.elem == 0 && c.d.toNat % c.elem == 0
  | .catom op => rangeOk u c.a.toNat 0 && lim && levelOf c.a.toNat != 0 && c.a.toNat % (if op = 13 then 4 else 8) == 0
  | .cxwr | .cxrd => c.d.toNat % 64 == 0 && decide (c.d.toNat < Config.unitStoreBytes) && lim
  | .cmark => true

/-- The 64 KiB blocks of a touched device virtual range. -/
def Touch.blocks (t : Touch) : List Nat :=
  if t.addr / 2 ^ 63 % 2 = 0 ∨ t.n = 0 then []
  else
    let va := t.addr % 2 ^ 48
    (List.range ((va + t.n - 1) / 65536 - va / 65536 + 1)).map (va / 65536 + ·)

/-- Distinct blocks in order of first touch, cut off after 65. -/
def distinct65 (l : List Nat) : List Nat := (l.foldl (fun acc b => if 64 < acc.length || acc.contains b then acc else b :: acc) []).reverse

/-- The span of a command is at most 64 blocks on each side (R176). -/
def Cmd.spanOk (c : Cmd) : Bool :=
  let side := fun w => (distinct65 ((c.touches.filter fun t => t.write == w).flatMap Touch.blocks)).length
  decide (side false ≤ 64) && decide (side true ≤ 64)

/-- The command names a device virtual address (R182). -/
def Cmd.translates (c : Cmd) : Bool := c.touches.any fun t => t.addr / 2 ^ 63 % 2 == 1

/-- What the translation of a command finds: its pages, whether every one is ready, the first failing check with its address, and the
walks to send. -/
structure Xlate where
  pages : List Page
  ready : Bool
  fault : Option (Cause × Nat)
  walks : List (Nat × List Nat)

/-- Rights and write granule of one block of a touched range (R74, R240). -/
def pageFault (part : Nat) (t : Touch) (block : Nat) (p : Page) : Option Cause :=
  let va := t.addr % 2 ^ 48
  let lo := max va (65536 * block)
  let hi := min (va + t.n) (65536 * (block + 1))
  if p.part ≠ part then some .access
  else if t.atom ∧ !(p.r && p.w && p.at_) then some .access
  else if !t.atom ∧ (if t.write then !p.w else !p.r) then some .access
  else if t.write ∧ p.fmt = 11 ∧ ((lo = va ∧ va % 2 = 1) ∨ (hi = va + t.n ∧ (va + t.n) % 2 = 1)) then some .formatGranule
  else none

/-- The blocks of a `cmov` row in the order of the beats that first touch them, a source before its destination (R240). -/
def rowWork (src dst : Touch) : List (Touch × Nat) :=
  let head := min dst.n (64 - dst.addr % 64)
  let beat := fun (t : Touch) (b : Nat) => let o := 65536 * b - t.addr % 2 ^ 48; if o < head then 0 else (o - head) / 64 + 1
  let side := fun (t : Touch) (k : Nat) => t.blocks.map fun b => (2 * beat t b + k, t, b)
  (((side src 0) ++ side dst 1).mergeSort fun x y => decide (x.1 ≤ y.1)).map fun x => (x.2.1, x.2.2)

/-- The blocks that a command touches, in the order in which they are checked. -/
def Cmd.work (c : Cmd) : List (Touch × Nat) :=
  match c.op with
  | .cmov =>
    if c.len = 0 then [] else (List.range c.rows).flatMap fun i =>
      rowWork ⟨strideAddr c.a.toNat c.sstr i, c.len, false, false⟩ ⟨strideAddr c.d.toNat c.dstr i, c.len, true, false⟩
  | _ => c.touches.flatMap fun x => x.blocks.map fun b => (x, b)

/-- Translate a command's ranges at its issue (R182, R240, R242): blocks in beat order, `seen` those already checked on each side. -/
def State.translate (s : State) (u : Nat) (un : Unit) (t : Nat) (work : List (Touch × Nat)) : Xlate :=
  (work.foldl (fun (acc : Xlate × List (Nat × Bool)) (w : Touch × Nat) =>
    let odd := w.1.addr % 2 = 1 ∨ w.1.n % 2 = 1
    if acc.2.contains (w.2, w.1.write) ∧ !(w.1.write ∧ odd) then acc
    else
      let va := max (w.1.addr % 2 ^ 48) (65536 * w.2)
      let f := s.look u un va t
      let x := acc.1
      let walks := if f.ready || x.walks.any fun q => q.1 == w.2 then x.walks else x.walks ++ [(w.2, f.reads)]
      let pages := match f.page with | some p => if x.pages.contains p then x.pages else x.pages ++ [p] | none => x.pages
      let bad : Option Cause := match f.page with | some p => pageFault un.part w.1 w.2 p | none => some .xlate
      let fault := match x.fault, bad with | none, some c => some (c, 2 ^ 63 + va) | old, _ => old
      (⟨pages, x.ready && f.ready, fault, walks⟩, (w.2, w.1.write) :: acc.2)) (⟨[], true, none, []⟩, [])).1

/-- Every side record of a fill starts at a group (R241). -/
def Cmd.groupsOk (c : Cmd) : Bool :=
  match c.op with
  | .cfillA | .cfillB =>
    if c.a.toNat / 2 ^ 63 % 2 = 0 ∨ c.pattern.isSome then true
    else
      (List.range c.gCount).all fun e => !c.hasSide e || (List.range c.gRows).all fun r =>
        let o := c.a.toNat + c.gStride * r + c.gAdv * e
        match c.sideFmt o with
        | some p => (o % 2 ^ 48 - p.va) * perByte p.fmt % p.group == 0
        | none => true
  | _ => true

end Sys2Proof.Machine
end

