-- ==== Sys2Proof/Machine/Copy.lean ====
section
/-! DEFINITION. The copy engine's words (R175-R202). Beats issue, read, write and complete by the events of Beats. -/

namespace Sys2Proof.Machine

/-- Channel `c` of a unit. -/
def Unit.ch (un : Unit) (c : Nat) : Chan := un.chans.getD c ⟨0, 0, 0, [], 0, none⟩

/-- Change channel `c`. -/
def Unit.setCh (un : Unit) (c : Nat) (f : Chan → Chan) : Unit := { un with chans := modify un.chans c f }

/-- The channel holds 16 commands that are not complete (R177). -/
def Unit.chFull (un : Unit) (c : Nat) : Bool := decide (16 ≤ ((un.ch c).cmds.filter fun x => !x.complete).length)

/-- The first command of a channel with a beat to issue. -/
def Chan.current (ch : Chan) : Option Cmd := ch.cmds.find? fun x => !x.poison && (!x.complete || x.restored) && decide (x.next < x.beats)

/-- The flag of a wait at a full channel (R300): that of the skein queue where the channel's current command is a fill that waits for a slot of
it, else the channel's own (log 107, DEDUCED). -/
def Unit.fullFlag (un : Unit) (c : Nat) : Nat :=
  match (un.ch c).current with
  | some x =>
    if x.op = .cfillA ∧ (x.fillBeat x.next).2 = 0 ∧ 16 ≤ un.ska.length then 0x28
    else if x.op = .cfillB ∧ (x.fillBeat x.next).2 = 0 ∧ 16 ≤ un.skb.length then 0x29
    else 0x24 + c
  | none => 0x24 + c

/-- The word at which `cw` stands. -/
def Unit.cwWord (un : Unit) : W32 := un.istore.getD (un.wk 3).idx 0

/-- A command as its word issues in cycle `t`, with operand values d, a, b. -/
def newCmd (un : Unit) (op : CopyOp) (c t : Nat) (d a b : W64) : Cmd :=
  { op, chan := c, tid := (un.ch c).tid, word := un.cwWord, t, d, a, b, acq := false, rel := false, scope := 0, poison := false, pattern := none
    index := [], cross := 0, sample := 0, z := 0, out := [], sampled := false, dest := none, from_ := t, xlAt := none, pages := []
    xlFault := none, late := false, beats := 0, next := 0, slot := none, eaten := 0, doneAt := t, wDone := 0, cover := none, snap := none
    compAt := none, complete := false, restored := false }

/-- Enter a command in its channel: it takes the transfer ID (R177). -/
def Unit.addCmd (un : Unit) (x : Cmd) : Unit :=
  un.setCh x.chan fun ch => { ch with tid := (ch.tid + 1) % 2 ^ 32, cmds := ch.cmds ++ [x] }

/-- The ordering fields of a command (R185): the acquire's completion, and what the release covers. -/
def Cmd.ordered (x : Cmd) (un : Unit) (acq rel : Bool) (scope : Nat) : Cmd :=
  let lsc := max 1 (un.lat.lsc.getD scope 1)
  let done := x.t + lsc
  let cov := un.coverNow x.t
  { x with
    acq, rel, scope
    from_ := if acq then nextIssue (un.divisor 3) done else x.from_
    cover := if rel then some { cov with ids := cov.ids.set x.chan ((x.tid + 1) % 2 ^ 32) } else none }

/-- Raise the unit's snapshot at the acquire's completion (R120, R185). -/
def Unit.acquireAt (un : Unit) (x : Cmd) : Unit :=
  if x.acq then un.later (x.t + max 1 (un.lat.lsc.getD x.scope 1) - 1) 3 (.acquire x.scope) else un

/-- Give a command its translation (R182): pages, lateness, the walks of the pages that miss, and the fault to come, which only a translation
that is ready by then raises (log 22, DEDUCED). -/
def State.startXlate (s : State) (u : Nat) (un : Unit) (x : Cmd) : State × Cmd :=
  if x.translates then
    let q := s.translate u un x.t x.work
    let s := q.walks.foldl (fun s w => s.sendWalk u un (65536 * w.1) x.t false w.2) s
    (s, { x with
      xlAt := some (x.t + un.lat.lx), pages := q.pages, xlFault := if q.ready then q.fault else none, late := !q.ready
      from_ := max x.from_ (x.t + un.lat.lx) })
  else (s, x)

/-- Pages of a command as its checks at issue need them. -/
def State.withPages (s : State) (u : Nat) (un : Unit) (x : Cmd) : Cmd :=
  if x.translates then { x with pages := (s.translate u un x.t x.work).pages } else x

/-- The boundaries taken in a command's issue cycle cover it too, since it issued at or before them (R118, R122). -/
def Unit.joinCovers (un : Unit) (x : Cmd) : Unit :=
  let f := fun (cv : Cover) => { cv with ids := cv.ids.set x.chan ((x.tid + 1) % 2 ^ 32) }
  { un with
    phases := un.phases.map fun p => if p.at_ = some x.t then { p with cover := f p.cover } else p
    bars := un.bars.map fun b => if b.at_ = x.t then { b with cover := f b.cover } else b }

/-- A command with its checks made (R176): poison moves nothing, is complete in its issue cycle and raises PS at the end of t + 1. -/
def issueCmd (s : State) (u : Nat) (un : Unit) (x : Cmd) (acq rel : Bool) (scope : Nat) (poison : Bool) : Act :=
  if !x.valuesOk u || !x.spanOk || !(s.withPages u un x).groupsOk then .fault .access 0
  else if poison then
    .go (s.setUnit u ((un.addCmd { x with poison := true, compAt := some x.t }).raise 3 (x.t + 1) flagPS)) .seq
  else
    let x := x.ordered un acq rel scope
    let (s', x) := s.startXlate u un x
    let x := { x with beats := x.total }
    let x := if x.beats = 0 ∧ !x.rel then { x with compAt := some x.t } else x
    .go (s'.setUnit u (((un.acquireAt x).addCmd x).joinCovers x)) .seq

/-- A copy word that takes an ID: encoding, channel, operands popped in order, then `g` (R176, R177). -/
def copyBody (ok : Bool) (c : Nat) (srcs : List Nat) (g : State → Unit → List Val → Act) (s : State) (u _k : Nat) : Act :=
  match s.unit? u with
  | none => .wait 3 none
  | some un =>
    if !ok || ownPort 3 srcs then .fault .illegal 0
    else if un.chFull c then .miss (un.fullFlag c)
    else
      match fetch 3 un srcs with
      | .error q => .miss q
      | .ok (vs, un') => g s un' vs

/-- `cmov` (R186, R187). -/
def execCmov (h : BitVec 2) (d a b : BitVec 5) (q l : BitVec 1) (st : BitVec 4) (s : State) : Result :=
  .next (runWord (cpyWord (some h.toNat)) (fun s u k =>
    copyBody (wellFormed (.cmov h d a b q l st)) h.toNat [d.toNat, a.toNat, b.toNat] (fun s un vs =>
      issueCmd s u un (newCmd un .cmov h.toNat (s.now un) (arg vs 0).bits (arg vs 1).bits (arg vs 2).bits) (q == 1) (l == 1) st.toNat
        (poisonOf vs)) s u k) s)

/-- `cbfx` (R191): it takes no transfer ID. -/
def execCbfx (h : BitVec 2) (a : BitVec 5) (s : State) : Result :=
  .next (runWord (cpyWord none) (fun s u _ =>
    match s.unit? u with
    | none => .wait 3 none
    | some un =>
      if !wellFormed (.cbfx h a) || ownPort 3 [a.toNat] then .fault .illegal 0
      else
        match fetch 3 un [a.toNat] with
        | .error q => .miss q
        | .ok (vs, un') =>
          if !patternOk (arg vs 0).bits.toNat then .fault .access 0
          else if poisonOf vs then .go (s.setUnit u (un'.raise 3 (s.now un + 1) flagPS)) .seq
          else .go (s.setUnit u (un'.setCh h.toNat fun ch => { ch with pattern := (arg vs 0).bits })) .seq) s)

/-- The index list of a gather or scatter issued in `t`, as the unit store stands at the end of t - 2 (R193). -/
def Unit.indexList (un : Unit) (t a n : Nat) : List Nat :=
  (List.range n).map fun i => leNat ((List.range 4).map fun k => un.store.readBy (seesCopy t) (a + 4 * i + k))

/-- A gather or scatter (R193). An index list in error poisons the command, and raises `MEM-UE` in the cycle in which it would have been read
(R234; log 28, DEDUCED). -/
def gatherOp (op : CopyOp) (ok : Bool) (h : BitVec 2) (d a b : BitVec 5) (q l : BitVec 1) (st : BitVec 4) (s : State) : Result :=
  .next (runWord (cpyWord (some h.toNat)) (fun s u k =>
    copyBody ok h.toNat [d.toNat, a.toNat, b.toNat] (fun s un vs =>
      let x := newCmd un op h.toNat (s.now un) (arg vs 0).bits (arg vs 1).bits (arg vs 2).bits
      let bad := un.badAt x.idx (4 * x.count)
      let un := if bad && !poisonOf vs then un.later (x.t + 1) 1 (.probe x.idx (4 * x.count)) else un
      issueCmd s u un { x with index := un.indexList x.t x.idx x.count } (q == 1) (l == 1) st.toNat (poisonOf vs || bad)) s u k) s)

/-- `cgat` (R193). -/
def execCgat (h : BitVec 2) (d a b : BitVec 5) (q l : BitVec 1) (st : BitVec 4) (s : State) : Result :=
  gatherOp .cgat (wellFormed (.cgat h d a b q l st)) h d a b q l st s
/-- `csct` (R193). -/
def execCsct (h : BitVec 2) (d a b : BitVec 5) (q l : BitVec 1) (st : BitVec 4) (s : State) : Result :=
  gatherOp .csct (wellFormed (.csct h d a b q l st)) h d a b q l st s

/-- Read-data latency of an atomic's level for a poisoned `catom` (R180, R195): device virtual addresses take the own die's. -/
def Unit.atomLat (un : Unit) (a : Nat) : Nat :=
  match levelOf a with
  | 1 => un.lat.sc2 | 2 => un.lat.sp2 | 3 => un.lat.sd2 | 4 => un.lat.otherDie | _ => un.lat.ownDie

/-- A memory-side atomic (R194, R195): `cas` reads its result register as well. -/
def atomOp (op : Nat) (ok : Bool) (h : BitVec 2) (d a b : BitVec 5) (q l : BitVec 1) (st : BitVec 4) (s : State) : Result :=
  let srcs := if op = 12 then [d.toNat, a.toNat, b.toNat] else [a.toNat, b.toNat]
  .next (runWord (cpyWord (some h.toNat)) (fun s u k =>
    copyBody (ok && !ownPort 3 [d.toNat]) h.toNat srcs (fun s un vs =>
      let n := vs.length
      let x := newCmd un (.catom op) h.toNat (s.now un) (if op = 12 then (arg vs 0).bits else 0) (arg vs (n - 2)).bits (arg vs (n - 1)).bits
      if !un.room 3 d.toNat then .miss (outQueue 3 d.toNat)
      else if !x.valuesOk u || !x.spanOk then .fault .access 0
      else if poisonOf vs then
        let due := x.t + un.atomLat x.a.toNat - 1
        let (v, s') := s.fresh
        let un := (un.landExt 3 d.toNat due ⟨v, true⟩).raise 3 due flagPS
        .go (s'.setUnit u (un.addCmd { x with poison := true, compAt := some due })) .seq
      else
        let un := if isPort d.toNat then un.qReserve (outQueue 3 d.toNat) else un
        let dest := if isPort d.toNat then some (Sum.inr (outQueue 3 d.toNat)) else some (Sum.inl (physReg (un.wk 3).wp d.toNat))
        issueCmd s u un { x with dest } (q == 1) (l == 1) st.toNat false) s u k) s)

/-- `catom.add` (R194, R195). -/
def execCatomAdd (h : BitVec 2) (d a b : BitVec 5) (q l : BitVec 1) (st : BitVec 4) (s : State) : Result :=
  atomOp 8 (wellFormed (.catomAdd h d a b q l st)) h d a b q l st s
/-- `catom.min` (R194, R195). -/
def execCatomMin (h : BitVec 2) (d a b : BitVec 5) (q l : BitVec 1) (st : BitVec 4) (s : State) : Result :=
  atomOp 9 (wellFormed (.catomMin h d a b q l st)) h d a b q l st s
/-- `catom.max` (R194, R195). -/
def execCatomMax (h : BitVec 2) (d a b : BitVec 5) (q l : BitVec 1) (st : BitVec 4) (s : State) : Result :=
  atomOp 10 (wellFormed (.catomMax h d a b q l st)) h d a b q l st s
/-- `catom.xchg` (R194, R195). -/
def execCatomXchg (h : BitVec 2) (d a b : BitVec 5) (q l : BitVec 1) (st : BitVec 4) (s : State) : Result :=
  atomOp 11 (wellFormed (.catomXchg h d a b q l st)) h d a b q l st s
/-- `catom.cas` (R194, R195). -/
def execCatomCas (h : BitVec 2) (d a b : BitVec 5) (q l : BitVec 1) (st : BitVec 4) (s : State) : Result :=
  atomOp 12 (wellFormed (.catomCas h d a b q l st)) h d a b q l st s
/-- `catom.fadd` (R194, R195). -/
def execCatomFadd (h : BitVec 2) (d a b : BitVec 5) (q l : BitVec 1) (st : BitVec 4) (s : State) : Result :=
  atomOp 13 (wellFormed (.catomFadd h d a b q l st)) h d a b q l st s

/-- `cinv` (R196): it takes no transfer ID. -/
def execCinv (a b : BitVec 5) (s : State) : Result :=
  .next (runWord (cpyWord none) (fun s u _ =>
    match s.unit? u with
    | none => .wait 3 none
    | some un =>
      if !wellFormed (.cinv a b) || ownPort 3 [a.toNat, b.toNat] then .fault .illegal 0
      else
        match fetch 3 un [a.toNat, b.toNat] with
        | .error q => .miss q
        | .ok (vs, un') =>
          let va := (arg vs 0).bits.toNat
          if va / 2 ^ 48 ≠ 2 ^ 15 then .fault .access 0
          else if poisonOf vs then .go (s.setUnit u (un'.raise 3 (s.now un) flagPS)) .seq
          else .go ((s.setUnit u un').invalidate u (va % 2 ^ 48) (arg vs 1).bits.toNat (s.now un)) .seq) s)

/-- `cmark` (R197): its completion follows the earlier commands of its channel. -/
def execCmark (h : BitVec 2) (a : BitVec 5) (s : State) : Result :=
  .next (runWord (cpyWord (some h.toNat)) (fun s u k =>
    copyBody (wellFormed (.cmark h a)) h.toNat [a.toNat] (fun s un vs =>
      let x := newCmd un .cmark h.toNat (s.now un) 0 (arg vs 0).bits 0
      let un := if poisonOf vs then un.raise 3 (x.t + 1) flagPS else un
      .go (s.setUnit u (un.addCmd { x with poison := poisonOf vs })) .seq) s u k) s)

/-- The number of crossing `x` of the unit's die. -/
def crossNo (u : Nat) (x : BitVec 4) : Nat := 16 * dieOf u + x.toNat

/-- `cxrd` (R199). -/
def execCxrd (h : BitVec 2) (d : BitVec 5) (x : BitVec 4) (s : State) : Result :=
  .next (runWord (cpyWord (some h.toNat)) (fun s u k =>
    copyBody (wellFormed (.cxrd h d x)) h.toNat [d.toNat] (fun s un vs =>
      match find s.crossings (crossNo u x) with
      | none => .fault .access 0
      | some xr =>
        if !xr.armed || !xr.to_ un.kernel u then .fault .access 0
        else
          let cmd := { newCmd un .cxrd h.toNat (s.now un) (arg vs 0).bits 0 0 with cross := crossNo u x, sample := xr.rdN, z := xr.z }
          issueCmd { s with crossings := put s.crossings (crossNo u x) { xr with rdN := xr.rdN + 1 } } u un cmd false false 0 (poisonOf vs))
      s u k) s)

/-- `cxwr` (R198, R199): a poisoned one enters a marked sample of zeros. -/
def execCxwr (h : BitVec 2) (d : BitVec 5) (x : BitVec 4) (s : State) : Result :=
  .next (runWord (cpyWord (some h.toNat)) (fun s u k =>
    copyBody (wellFormed (.cxwr h d x)) h.toNat [d.toNat] (fun s un vs =>
      match find s.crossings (crossNo u x) with
      | none => .fault .access 0
      | some xr =>
        if !xr.armed || !xr.from_ un.kernel u then .fault .access 0
        else
          let t := s.now un
          let cmd := { newCmd un .cxwr h.toNat t (arg vs 0).bits 0 0 with cross := crossNo u x, sample := xr.wrN, z := xr.z }
          let xr' := { xr with wrN := xr.wrN + 1 }
          if !cmd.valuesOk u then .fault .access 0
          else if poisonOf vs then
            let xr' := { xr' with inbox := xr'.inbox ++ [(xr.wrN, t + 1 + un.lat.sd, List.replicate xr.z 0, true)] }
            .go ({ s with crossings := put s.crossings (crossNo u x) xr' }.setUnit u
              ((un.addCmd { cmd with poison := true }).raise 3 (t + 1) flagPS)) .seq
          else issueCmd { s with crossings := put s.crossings (crossNo u x) xr' } u un cmd false false 0 false) s u k) s)

end Sys2Proof.Machine
end

