-- ==== Sys2Proof/Machine/Crossing.lean ====
section
/-! DEFINITION. Dovetail crossings (R198, R199, R260, R261): the history, the position of an output, the weighted sum, the trace. -/

namespace Sys2Proof.Machine

/-- Stamp sample `p.1` at instant `p.2`, in a list of stamps, newest first. -/
def stamp (p : Nat × Frac) : List (Nat × Frac) → List (Nat × Frac)
  | [] => [p]
  | q :: qs => if q.1 < p.1 then p :: q :: qs else if q.1 = p.1 then p :: qs else q :: stamp p qs

/-- Of the stamps, newest first, the newest that `at_` accepts, with the one after it. -/
def bracket (at_ : Nat × Frac → Bool) : List (Nat × Frac) → Option (Nat × Frac) → Option ((Nat × Frac) × Option (Nat × Frac))
  | [], _ => none
  | p :: ps, newer => if at_ p then some (p, newer) else bracket at_ ps (some p)

/-- The sample period from one stamp to the next, or the period estimate after the newest (R256). -/
def Region.periodFrom (r : Region) (p : Nat × Frac) : Option (Nat × Frac) → Frac
  | some q => if p.1 < q.1 then (q.2.sub p.2).div (Frac.ofNat (q.1 - p.1)) else r.srcPeriod
  | none => r.srcPeriod

/-- The instant of source sample `n` of a region (R256): stamped, or extrapolated at the period estimate. -/
def Region.instOf (r : Region) (n : Int) : Frac :=
  match bracket (fun p => decide ((p.1 : Int) ≤ n)) r.stamps none with
  | some (p, q) => p.2.add ((r.periodFrom p q).scale (n - p.1).toNat)
  | none =>
    match r.stamps.getLast? with
    | some p => p.2.sub (r.srcPeriod.scale ((p.1 : Int) - n).toNat)
    | none => r.lastInst

/-- The source sample of a region whose interval holds instant `t` (R260): the newest sample at or before it. -/
def Region.sampleAt (r : Region) (t : Frac) : Int :=
  match bracket (fun p => p.2.le t) r.stamps none with
  | some (p, q) => (p.1 : Int) + ((t.sub p.2).div (r.periodFrom p q)).floor
  | none =>
    match r.stamps.getLast? with
    | some p => (p.1 : Int) - ((p.2.sub t).div r.srcPeriod).ceil
    | none => 0

/-- Position k and phase of output `n` in live mode (R260), relative to `sp0`, 16 fraction bits truncated. -/
def Crossing.position (x : Crossing) (prod cons : Region) (n : Nat) : Int × Nat :=
  let tc := cons.instOf (x.sc0 + n)
  let j := prod.sampleAt tc
  let a := prod.instOf j
  let b := prod.instOf (j + 1)
  let f := (((tc.sub a).scale 65536).div (b.sub a)).floor
  (j - x.sp0, min 65535 f / 1024)

/-- The producer sample of that number in the history: zero bytes where the index is negative. -/
def Crossing.sampleOf (x : Crossing) (k : Int) : List Byte × Bool :=
  match x.hist.find? fun e => (e.n : Int) == k with
  | some e => (e.bytes, e.poison)
  | none => (List.replicate x.z 0, false)

/-- Element `e` of a sample in a format of `w` bytes. -/
def elemOf (w e : Nat) (bs : List Byte) : Nat := leNat ((bs.drop (w * e)).take w)

/-- One output element (R260): eight taps, each one fused step rounded to FP32. -/
def tapSum (taps : List (Nat × Num)) : Nat :=
  taps.foldl (fun acc t => (fma32 (decodeNum f16 t.1) t.2 (decodeNum f32 acc)).1) 0

/-- The bytes of an output at position `k`, phase `phi`, and whether it read a marked sample. -/
def Crossing.mix (x : Crossing) (k : Int) (phi : Nat) : List Byte × Bool :=
  if x.efmt = 0 then x.sampleOf k
  else
    let w := if x.efmt = 1 then 4 else 2
    let fmt := if x.efmt = 1 then f32 else f16
    let rows := (List.range 8).map fun (j : Nat) => x.sampleOf (k + 1 - j)
    let out := (List.range (x.z / w)).flatMap fun e =>
      let acc := tapSum (rows.zipIdx.map fun r => ((x.w.getD (8 * phi + r.2) 0).toNat, decodeNum fmt (elemOf w e r.1.1)))
      leBytes w (if x.efmt = 1 then acc else (roundNum f16 .rne false (decodeNum f32 acc)).1)
    (out, rows.any (·.2))

/-- The newest producer sample in the history, -1 where it is empty. -/
def Crossing.newest (x : Crossing) : Int := x.hist.foldl (fun h e => max h (e.n : Int)) (-1)

/-- Output sample `n` (R260): the data and status bytes, and the crossing after it. `traced` is k, phase and STALE of the trace entry in
replay. -/
def Crossing.output (x : Crossing) (prod cons : Region) (n : Nat) (traced : Option (Int × Nat × Bool)) : List Byte × Crossing × Int × Nat × Nat :=
  let stale : Bool := match traced with | some t => t.2.2 | none => prod.gauge == .frozen
  let status := fun (st disc repl pois : Bool) => (if st then 1 else 0) + (if disc then 2 else 0) + (if repl then 4 else 0) + (if pois then 8 else 0)
  let beat := fun (s phi : Nat) => [BitVec.ofNat 8 s] ++ leBytes 7 0 ++ leBytes 8 n ++ [BitVec.ofNat 8 phi] ++ List.replicate 47 0
  let pad := fun (bs : List Byte) => bs ++ List.replicate ((64 - bs.length % 64) % 64) 0
  if stale then
    let (bs, k, phi) := x.lastOut.getD (List.replicate x.z 0, -1, 0)
    let st := status true x.disc false false
    (pad bs ++ beat st phi, { x with disc := false }, k, phi, st)
  else
    let (k, phi) : Int × Nat := match traced with | some t => (t.1, t.2.1) | none => x.position prod cons n
    let h := x.newest
    let (k', phi', rep, drp) : Int × Nat × Nat × Nat := if h < k + 1 then (h - 1, 0, 1, 0) else if k - 6 < h - 63 then (h - 57, 0, 0, 1) else (k, phi, 0, 0)
    let (bs, pois) := x.mix k' phi'
    let st := status false x.disc (decide (rep + drp ≠ 0)) pois
    (pad bs ++ beat st phi', { x with
      disc := false, repeats := x.repeats + rep, drops := x.drops + drp, lastOut := some (bs, k', phi') }, k', phi', st)

/-- The history as it stands at instant `t`: its newest 64 samples (R199, R260, R336). -/
def Crossing.histAt (x : Crossing) (t : Frac) : List XSample :=
  let l := x.hist.filter fun e => e.at_.le t
  l.drop (l.length - 64)

/-- A producer sample enters the history, which keeps the newest 64 (R260), and as many more as can have entered after an instant of sampling. -/
def Crossing.enter (x : Crossing) (e : XSample) : Crossing := { x with hist := (x.hist ++ [e]).drop (x.hist.length - 127), entered := x.entered + 1 }

end Sys2Proof.Machine
end

