-- ==== Sys2Proof/Machine/OffCore.lean ====
section
/-! DEFINITION. The stores beyond the unit store as beats read and write them: the cluster and die stores, device memory with its
encryption, host memory (R29, R30, R120, R180-R184, R245-R248). -/

namespace Sys2Proof.Machine

/-- A unit as scopes see it. A pattern is known by the RCB of its region (R250). -/
def State.agentOf (s : State) (u : Nat) (un : Unit) : Agent :=
  ⟨u, un.region, (s.region un.region).rcb, (s.region un.region).job, un.part, un.kernel, un.place⟩

/-- The host agents of a partition. -/
def hostAgent (part : Nat) : Agent := ⟨200, outside, outside, outside, part, outside, outside⟩
/-- A system core. -/
def coreAgent : Agent := ⟨201, outside, outside, outside, outside, outside, outside⟩
/-- A stream port, which is no agent of any scope (R30, R313). -/
def streamAgent : Agent := ⟨204, outside, outside, outside, outside, outside, outside⟩
/-- The unit of another package that makes write `n`, whose region and job no flit names (R316; log 103, DEDUCED). -/
def farAgent (part n : Nat) : Agent := ⟨202, outside, outside, outside, part, outside, n⟩
/-- A dovetail crossing between the cast-ons `prod` and `cons`, which writes its trace (R261). -/
def crossingAgent (part prod cons : Nat) : Agent := ⟨203, outside, outside, outside, part, prod, cons⟩

/-- The store of a space beyond the unit store. -/
def State.storeOf (s : State) : Space → Store
  | .cluster c => ((find s.clusters c).getD (Store.zero, 64)).1
  | .die d => ((find s.dies d).getD (Store.zero, 64)).1
  | .dram => s.dram
  | .host => s.host
  | _ => Store.zero

/-- Replace the store of a space. -/
def State.setStore (s : State) (sp : Space) (st : Store) : State :=
  match sp with
  | .cluster c => { s with clusters := put s.clusters c (st, ((find s.clusters c).getD (Store.zero, 64)).2) }
  | .die d => { s with dies := put s.dies d (st, ((find s.dies d).getD (Store.zero, 64)).2) }
  | .dram => { s with dram := st }
  | .host => { s with host := st }
  | _ => s

/-- The unit that an uncorrectable error is recorded for in a space: a 64-bit word of a scratchpad, a 64-byte block of device memory. -/
def badKey (sp : Space) (a : Nat) : Option (Nat × Nat) :=
  match sp with
  | .cluster c => some (0, 2 ^ 28 * c + a / 8 * 8)
  | .die d => some (1, 2 ^ 28 * d + a / 8 * 8)
  | .dram => some (2, a / 64 * 64)
  | _ => none

/-- Bytes of the range hold an uncorrectable error (R234, R237). -/
def State.badIn (s : State) (sp : Space) (a n : Nat) : Bool :=
  (List.range n).any fun i => match badKey sp (a + i) with | some k => s.bad.contains k | none => false

/-- A write over a word in error replaces the word and its code (R234). -/
def State.mend (s : State) (sp : Space) (a n : Nat) : State :=
  let ks := (List.range n).filterMap fun i => badKey sp (a + i)
  { s with bad := s.bad.filter fun k => !ks.contains k }

/-- `n` free bytes (log 5). -/
def State.noise (s : State) : Nat → List Byte × State
  | 0 => ([], s)
  | n + 1 =>
    let (v, s) := s.fresh
    let (bs, s) := s.noise n
    (v.setWidth 8 :: bs, s)

/-- The key that a partition's slot holds (R245). -/
def State.keyOf (s : State) (part : Nat) : Option (BitVec 512) := (find s.vfs part).bind (·.key)

/-- The key under which the block at a device physical address was last written is another one (R245); the empty slots of two partitions count
as two keys (log 5, DESIGN CHOICE). -/
def State.foreignKey (s : State) (pa part : Nat) : Bool :=
  match s.sealed.find? fun e => e.1 == pa / 64 with
  | some (_, p, k) => k != s.keyOf part || (k.isNone && p != part)
  | none => s.scrambled

/-- The noise to which the byte at a device physical address deciphers under another partition's key, the same at every read (R245). -/
def State.noiseAt (s : State) (part pa : Nat) : Byte :=
  Config.noise (s.dram.bytes (pa / 64 * 64) 64) ((s.sealed.find? fun e => e.1 == pa / 64).bind (·.2.2)) (s.keyOf part) pa

/-- The bytes at `a` as read through a partition's key: a block under another key deciphers to noise. -/
def State.decipher (s : State) (sp : Space) (part a : Nat) (bs : List Byte) : List Byte :=
  if sp = .dram ∧ part < 64 then bs.zipIdx.map fun e => if s.foreignKey (a + e.2) part then s.noiseAt part (a + e.2) else e.1
  else bs

/-- A write touches bytes of a range. -/
def WriteRec.touches (w : WriteRec) (a n : Nat) : Bool := w.cells.any fun c => decide (a ≤ c.addr) && decide (c.addr < a + n)

/-- The watched words that a write to device memory touches are to be re-read (R262), within 2 µs of the write (R267); an ACTION word at
once (R280). The write that turns the arm word of a job that is not armed to 1 is the one that the job's kernels come after (R254). -/
def State.watchWrite (s : State) (w : WriteRec) : State :=
  let t : Frac := if w.who.unit < 160 then (s.region w.who.region).cycleTime (w.at_ + 1) else s.time
  s.watched.foldl (fun s e =>
    if w.touches e.1 8 then
      let s : State := match e.2 with
        | .arm j =>
          let id := if leNat (s.decipher .dram (j / 16) e.1 (s.dram.bytes e.1 8)) = 1 then w.id + 1 else 0
          { s with jobs := s.jobs.map fun (x : Nat × Job) =>
            if x.1 == j && !x.2.armed && (x.2.armId == 0 || id == 0) then (j, { x.2 with armId := id }) else x }
        | _ => s
      let (d, s) : Nat × State := match e.2 with | .action _ => (0, s) | _ => s.choose 1001
      { s with timers := s.timers ++ [(t.add (Frac.ofNat d), .event (.watchedWordWrite (e.1 / 2 ^ 38) (e.1 % 2 ^ 38)))] }
    else s) s

/-- Host memory at an address holds a checkpoint image, which is enciphered (R321). -/
def State.inImage (s : State) (a : Nat) : Option Nat := (s.images.find? fun e => decide (e.1 ≤ a) && decide (a < e.1 + 2 * Config.dieMemoryBytes)).map (·.1)

/-- Perform a write of one block beyond the unit store: a scratchpad in the order of R181, other memory at the end of the coherence order
(R248); device memory under the key of the piece's partition, whose block keeps nothing readable of another key's bytes. -/
def State.performWrite (s : State) (pad : Bool) (p : Piece) (w : WriteRec) : State :=
  let pre : List WCell :=
    if p.space = .dram ∧ p.part < 64 ∧ s.foreignKey p.addr p.part then
      cellsAt (p.addr / 64 * 64) ((List.range 64).map fun i => s.noiseAt p.part (p.addr / 64 * 64 + i))
    else []
  let s := s.mend p.space p.addr p.n
  let w := { w with id := s.nextId, cells := pre ++ w.cells }
  let st := s.storeOf p.space
  let s := { s.setStore p.space (if pad then st.perform w else st.append w) with nextId := s.nextId + 1 }
  let s := if p.space = .dram then s.watchWrite w else s
  let s := match (if p.space = .host then s.inImage p.addr else none) with
    | some k => { s with images := s.images.map fun (e : Nat × Image) => if e.1 = k then (k, { e.2 with whole := false }) else e }
    | none => s
  if p.space = .dram ∧ p.part < 64 then
    { s with sealed := (p.addr / 64, p.part, s.keyOf p.part) :: s.sealed.filter fun e => e.1 != p.addr / 64 }
  else s

/-- What a reader sees of a performed write. -/
inductive Sees where
  | yes | no
  /-- Either (R248). -/
  | free
  deriving DecidableEq, Repr

/-- A release comes before a snapshot of reader `me` (R120, R247): both scopes hold both of them, and it completed earlier, releases of one
time going by unit number and a barrier's before every acquire of it (R122); between regions it has the earlier place in the one order of all
boundaries, those of one place going by region. -/
def Release.orders (r : Release) (me : Agent) (snap : Snapshot) : Bool :=
  Agent.within r.scope r.who me && Agent.within snap.scope r.who me &&
    (if r.who.region = me.region then
       Frac.lt ⟨r.num, r.den⟩ ⟨snap.num, snap.den⟩ ||
         (Frac.le ⟨r.num, r.den⟩ ⟨snap.num, snap.den⟩ &&
           (decide (r.who.unit ≤ me.unit) || (r.bar == snap.bar && r.bar != 0 && r.who.cast == me.cast)))
     else decide (r.place < snap.place) || (r.place == snap.place && decide (r.who.region < me.region)))

/-- A snapshot of reader `me` holds a write (R120, R254, R306). -/
def Snapshot.holds (snap : Snapshot) (me : Agent) (w : WriteRec) : Bool :=
  decide (w.id < snap.base) || snap.held.contains w.id || w.rels.any fun r => r.orders me snap

/-- Only the releases of its own kind let reader `me` see a write (R120): its writer lies in the snapshot's scope, and no release of it was
made at a scope that leaves the reader out, which orders nothing and forbids nothing (R30, R335). -/
def Snapshot.governs (snap : Snapshot) (me : Agent) (w : WriteRec) : Bool :=
  (decide (w.who.unit < 160) || w.who.unit == 202) && Agent.within snap.scope w.who me &&
    w.rels.all fun r => Agent.within r.scope r.who me && Agent.within snap.scope r.who me

/-- What a read beat issued in cycle `u`, at the instant `t`, by `me` sees of a write (R120, R183, R184, R248). `governed` holds where R120 decides
every write to one of its bytes. A read sees the stream ports' writes that were performed before it issued (R313). -/
def WriteRec.seenBy (w : WriteRec) (me : Agent) (u : Nat) (t : Frac) (cmd : Nat × Nat) (seen : List Nat) (snap : Snapshot) (governed : Bool) : Sees :=
  if w.who = streamAgent ∧ Frac.le ⟨w.at_, w.done⟩ t then .yes
  else if w.who.same me then
    if w.cmd = some cmd then .no else if w.done ≤ u ∨ seen.contains w.id then .yes else .free
  else if seen.contains w.id ∨ snap.holds me w then .yes
  else if governed then .no
  else .free

/-- The writes of a log that a beat's read of `n` bytes at `a` sees; `fixed` decides the writes of the reader's own region in a scratchpad
(R180). Writes seen are kept, so that no later read goes back behind them; the bytes of one write become visible together, so that one of them
that R120 governs decides for all (R248). -/
def State.visible (s : State) (me : Agent) (b : Beat) (fixed : WriteRec → Option Bool) (log : List WriteRec) (a n : Nat) (seen : List Nat) :
    List Nat × State :=
  let ws := log.filter fun w => w.touches a n
  let free := ws.filter fun w => !(w.who.same me || b.snap.holds me w || b.snap.governs me w)
  let governed := fun (w : WriteRec) => w.cells.any fun c => decide (a ≤ c.addr) && decide (c.addr < a + n) && !free.any fun v => v.touches c.addr 1
  let t := (s.region me.region).cycleTime b.u
  ws.foldl (fun (acc : List Nat × State) w =>
    match fixed w with
    | some y => (if y then w.id :: acc.1 else acc.1, acc.2)
    | none =>
      match w.seenBy me b.u t (b.chan, b.tid) seen b.snap (governed w) with
      | .yes => (w.id :: acc.1, acc.2)
      | .no => acc
      | .free => let (c, s') := acc.2.choose 2; (if c = 1 then w.id :: acc.1 else acc.1, s')) ([], s)

/-- S of the level of a scratchpad (R180). -/
def Unit.padS (un : Unit) (u : Nat) : Space → Nat
  | .cluster c => if c = clusterOf u then un.lat.sc else un.lat.sp
  | .die _ => un.lat.sd
  | _ => 1

/-- Read-data latency of a space (R180): data is ready at the end of u + latency - 1. -/
def Unit.readLat (un : Unit) (u : Nat) (sp : Space) (a : Nat) : Nat :=
  match sp with
  | .unit => 2
  | .cluster c => if c = clusterOf u then un.lat.sc2 else un.lat.sp2
  | .die d => if d = dieOf u then un.lat.sd2 else un.lat.otherDie
  | sp => un.offLat u sp a

/-- The bytes of one piece as a beat reads them, and the unit's reads recorded (R180, R245, R248). A piece of another package is what that
package has answered. -/
def State.readPiece (s : State) (u : Nat) (un : Unit) (b : Beat) (p : Piece) : List Byte × State :=
  match p.space with
  | .unit => ((List.range p.n).map fun i => un.store.readBy (seesCopy b.u) (p.addr + i), s)
  | .remote _ => (((find b.resp p.addr).getD []).take p.n, s)
  | sp =>
    let me := s.agentOf u un
    let st := s.storeOf sp
    let cut := b.u + un.padS u sp - 1
    let fixed := fun (w : WriteRec) => if !isOff u sp && w.who.region == me.region then some (decide (w.at_ ≤ cut)) else none
    -- the arm orders the writes at device memory alone (R254)
    let b := if sp = .dram then b else { b with snap := { b.snap with base := 0 } }
    let (ids, s) := s.visible me b fixed st.log p.addr p.n un.seen
    let bs := (List.range p.n).map fun i => st.readBy (fun w => ids.contains w.id) (p.addr + i)
    let fresh := (st.log.filter fun w => ids.contains w.id && (fixed w).isNone && !un.seen.contains w.id).map (·.id)
    let s := State.modUnit { s with pin := max s.pin b.snap.place } u fun un => { un with seen := fresh ++ un.seen }
    if sp = .host ∧ (s.inImage p.addr).isSome then s.noise p.n else (s.decipher sp p.part p.addr bs, s)

/-- Attach a release (R120); one that the same agent made earlier at the scope already orders whatever this one does. -/
def WriteRec.attach (w : WriteRec) (r : Release) : WriteRec :=
  if w.rels.any fun q => q.scope == r.scope && q.who == r.who then w else { w with rels := r :: w.rels }

/-- A release of agent `me` covers a write (R120): of its own the commands below the transfer IDs of `cover`. -/
def WriteRec.coveredBy (w : WriteRec) (me : Agent) (cover : Cover) : Bool :=
  match w.cmd with
  | some (c, t) => w.who.same me && seqCovers t (cover.ids.getD c 0)
  | none => false
where
  /-- Transfer ID `t` lies below `n`, modulo 2^32 (R116). -/
  seqCovers (t n : Nat) : Bool := let d := (n + 2 ^ 32 - t % 2 ^ 32) % 2 ^ 32; decide (1 ≤ d) && decide (d < 2 ^ 31)

/-- Change every performed write beyond the unit stores. -/
def State.mapWrites (s : State) (f : WriteRec → WriteRec) : State :=
  let g := fun (st : Store) => { st with log := st.log.map f }
  { s with
    dram := g s.dram, host := g s.host
    clusters := s.clusters.map fun e => (e.1, g e.2.1, e.2.2)
    dies := s.dies.map fun e => (e.1, g e.2.1, e.2.2) }

/-- The performed writes beyond the unit stores. -/
def State.writes (s : State) : List WriteRec :=
  s.dram.log ++ s.host.log ++ (s.clusters.flatMap fun e => e.2.1.log) ++ s.dies.flatMap fun e => e.2.1.log

/-- The place, in the one order of all boundaries between regions, of those of region `i` that complete at time `t` (R120, R247; log 103, DEDUCED):
one for all that one cycle of it completes, behind its earlier ones, `lo` and every snapshot under which something has been read, so that a snapshot
is stable; otherwise free. What of the region completed at `t` or later under an earlier draw takes the new place, nothing having been read. -/
def State.placeAt (s : State) (i : Nat) (t : Frac) (lo : Nat) : Nat × State :=
  let r := s.region i
  if r.placed.1 = t ∧ r.placed.2.2 = r.rcc ∧ lo ≤ r.placed.2.1 then (r.placed.2.1, s)
  else
    let low := max lo (max (s.pin + 1) r.placed.2.1)
    let (c, s) := s.choose (s.top + 65536 - low)
    let p := low + c
    let move := fun (x : Snapshot) => if t.le ⟨x.num, x.den⟩ then { x with place := p } else x
    let s := State.mapWrites { s with top := max s.top p } fun w =>
      { w with rels := w.rels.map fun (q : Release) => if q.who.region = i ∧ t.le ⟨q.num, q.den⟩ then { q with place := p } else q }
    let shift := fun (x : Cmd) => { x with snap := x.snap.map move }
    let go := fun (un : Unit) => { un with snap := move un.snap, chans := un.chans.map fun ch => { ch with cmds := ch.cmds.map shift } }
    let s : State := { s with units := s.units.map fun (e : Nat × Unit) => if e.2.region = i then (e.1, go e.2) else e }
    (p, s.setRegion i fun r => { r with placed := (t, p, r.rcc) })

/-- A write of another package's unit that arrives here (R316), with a release at `system` scope whose place is free (log 103, DEDUCED). -/
def State.farWrite (s : State) (part cls : Nat) (cells : List WCell) : WriteRec × State :=
  let who := farAgent part s.nextId
  let (p, s) := s.placeAt outside s.time 0
  (⟨0, who, 0, 0, cls, s.nextId, none, cells, [⟨11, s.time.num, s.time.den, who, 0, s.nextId, p⟩], Snapshot.zero⟩, s)

/-- A release of unit `u` at scope `scope`, complete at time `t` (R118, R120), of barrier instance `bar` (R122, 0 none). It passes on what the
unit's snapshot held, since orders compose (R331). -/
def State.publish (s : State) (u bar scope : Nat) (cover : Cover) (t : Frac) : State :=
  match s.unit? u with
  | none => s
  | some un =>
    let me := s.agentOf u un
    let (p, s) := s.placeAt un.region t 0
    let r : Release := ⟨scope, t.num, t.den, me, bar, s.nextId, p⟩
    s.mapWrites fun w => if w.coveredBy me cover || un.snap.holds me w then w.attach r else w

/-- A snapshot at scope `scope`, complete at time `t` in place `p`, that goes on holding what the earlier one held and the writes that `more` accepts. -/
def State.snapshot (s : State) (me : Agent) (old : Snapshot) (scope bar : Nat) (t : Frac) (p : Nat) (more : WriteRec → Bool) : Snapshot :=
  ⟨scope, t.num, t.den, bar, p, old.base, (s.writes.filter fun w => decide (old.base ≤ w.id) && (old.holds me w || more w)).map (·.id)⟩

/-- The host's writes, and the system cores', which an acquire at a scope that holds them takes in (R306). -/
def WriteRec.byHost (w : WriteRec) (scope : Nat) (me : Agent) : Bool :=
  (w.who.unit == 200 || w.who.unit == 201) && decide (9 ≤ scope) && Agent.within scope w.who me

/-- Take the snapshot of an acquire at scope `scope`, complete at time `t` (R120). -/
def State.takeSnap (s : State) (u bar scope : Nat) (t : Frac) : State :=
  match s.unit? u with
  | none => s
  | some un =>
    let me := s.agentOf u un
    let (p, s) := s.placeAt un.region t 0
    s.modUnit u fun un => { un with snap := s.snapshot me un.snap scope bar t p (·.byHost scope me) }

end Sys2Proof.Machine
end

