-- ==== Sys2Proof/Machine/Beats.lean ====
section
/-! DEFINITION. Beats of the copy engine from issue to completion (R179-R185, R189, R190, R195, R197-R199, R233-R237, R297). -/

namespace Sys2Proof.Machine

/-! ### Covered writes (R118, R122, R168, R185) -/

/-- A cover takes in transfer ID `t` of channel `c`. -/
def Cover.has (cv : Cover) (c t : Nat) : Bool := WriteRec.coveredBy.seqCovers t (cv.ids.getD c 0)

/-- Note the completion of a covered write. -/
def Cover.note (cv : Cover) (c t at_ : Nat) : Cover := if cv.has c t then { cv with last := max cv.last at_ } else cv

/-- A command makes covered writes (R184): it writes beyond the unit store and the skeins. -/
def Cmd.coverable (x : Cmd) : Bool :=
  match x.op with
  | .cmov | .cgat | .csct | .catom _ => x.touches.any fun t => t.write && levelOf t.addr != 0
  | _ => false

/-- Every beat of the covered commands that makes covered writes has issued, so that `last` is final (R185). -/
def Unit.settled (un : Unit) (cv : Cover) : Bool :=
  un.chans.all fun ch => ch.cmds.all fun x =>
    !cv.has x.chan x.tid || x.complete || x.poison || decide (x.beats ≤ x.next) || !x.coverable

/-- Note a covered write's completion in everything that waits for it. -/
def Unit.noteCovered (un : Unit) (c t at_ : Nat) : Unit :=
  { un with
    chans := un.chans.map fun ch => { ch with cmds := ch.cmds.map fun x => { x with cover := x.cover.map fun v => v.note c t at_ } }
    phases := un.phases.map fun p => { p with cover := p.cover.note c t at_ }
    bars := un.bars.map fun b => { b with cover := b.cover.note c t at_ }
    mult := un.mult.map fun m => { m with cover := m.cover.note c t at_ } }

/-! ### Issue (R179, R190, R231, R233, R236, R297) -/

/-- Slots per engine cycle of a path (R179). -/
def slotLimit (path : Nat) : Nat := match path with | 0 | 1 => 8 | 2 => 4 | 3 => 2 | _ => 1

/-- Slots of a path that beats issued in this cycle have taken. -/
def Unit.slotsUsed (un : Unit) (now path : Nat) : Nat :=
  ((un.beats.filter fun b => b.u == now).map fun b => b.plan.slots.count path).sum

/-- Both paths of a beat have slots left; a beat that needs more than a path has takes the whole path (log 31, DEDUCED). -/
def Unit.fits (un : Unit) (now : Nat) (p : Plan) : Bool :=
  (List.range 5).all fun q =>
    let used := un.slotsUsed now q
    let need := p.slots.count q
    need == 0 || decide (used + need ≤ slotLimit q) || (used == 0 && decide (slotLimit q < need))

/-- The data-ready cycle of a beat issued in `u` (R180) (log 23, DEDUCED). -/
def Unit.readyAt (un : Unit) (u now : Nat) (p : Plan) : Nat :=
  match p.sink, p.shape with
  | .atomic q, _ => now + un.readLat u q.space q.addr - 1
  | _, .output _ => now + un.lat.sd2 - 1
  | _, _ => now + p.reads.foldl (fun m q => max m (un.readLat u q.space q.addr)) 2 - 1

/-- The bank cycles of a beat (R230). -/
def Plan.banks (p : Plan) (now ready : Nat) : List (Nat × Nat × Nat) :=
  (p.reads.filter fun q => q.space == .unit).flatMap (fun q => (blocksOf q.addr q.n).map fun b => (now, 0, b)) ++
    (match p.sink with
     | .mem q => if q.space = .unit then (blocksOf q.addr q.n).map fun b => (ready + 1, 1, b) else []
     | _ => [])

/-- Off-core pieces that a beat touches. -/
def Plan.touched (p : Plan) : List Piece :=
  p.reads ++ (match p.sink with | .mem q => [q] | .atomic q => [q] | _ => [])

/-- The queues that a beat of unit `u` enters at time `t`: those of its memory channels, and in its direction that of the die-to-die link; whether
its promise does not hold (R233, R236) (log 4, DESIGN CHOICE). -/
def State.queueBeat (s : State) (u : Nat) (p : Plan) (t : Frac) : Bool × State :=
  p.touched.foldl (fun acc q => let (a, s) := acc.2.queuePiece u q t; (acc.1 || a, s)) (false, s)

/-- The bytes that a beat writes: space, address and count. -/
def Plan.target (p : Plan) : Option Piece := match p.sink with | .mem q => if q.n = 0 then none else some q | _ => none

/-- A trigger's watched range takes in a byte of a written piece (R213). -/
def Trigger.hits (t : Trigger) (sp : Space) (a n : Nat) : Bool :=
  match t.pa with
  | some (sp', a') => sp == sp' && (List.range 16).any fun i => t.mode.getLsbD i && decide (a ≤ a' + i) && decide (a' + i < a + n)
  | none => false

/-- The lowest byte of a trigger's range that a write of `n` bytes at `a` of a space takes in (R329). -/
def Trigger.lowest (t : Trigger) (sp : Space) (a n : Nat) : Option Nat :=
  match t.pa with
  | some (sp', a') => if sp = sp' then (List.range 16).find? fun i => t.mode.getLsbD i && decide (a ≤ a' + i) && decide (a' + i < a + n) else none
  | none => none

/-- A trigger watches a range in cycle `now` for writers of MODE bit `bit` (R213). -/
def Trigger.watching (t : Trigger) (now bit : Nat) : Bool :=
  t.armed && decide (t.from_ ≤ now) && t.mode.getLsbD bit && (t.start.toNat % 16 == 4 || t.stop.toNat % 16 == 4)

/-- The watchpoints of the package that a beat of unit `u` matches at issue (R297). -/
def State.watchers (s : State) (u : Nat) (p : Plan) : List (Nat × Nat × Nat) :=
  match p.target with
  | none => []
  | some q => s.units.flatMap fun e => e.2.trigs.zipIdx.filterMap fun t =>
      if t.1.watching (s.now e.2) 17 && (q.space != .unit || e.1 == u) && (t.1.lowest q.space q.addr q.n).isSome then some (e.1, t.2, t.1.serial)
      else none

/-- A match with a trigger holds its channel: it is to stop the armed unit (R297). -/
def State.holdsFor (s : State) (w : Nat × Nat × Nat) : Bool :=
  match (s.unit? w.1).bind fun un => un.trigs[w.2.1]? with
  | some t => !t.isOpen && t.start.toNat % 16 == 4 && t.mode.extractLsb' 19 2 == 1
  | none => false

/-- Take the owners that `keep` rejects out of every channel's hold; one without owners ends (R297, R330). -/
def State.keepHolds (s : State) (keep : Nat × Nat × Nat → Bool) : State :=
  let f := fun (h : Hold) => let o := h.owners.filter keep; if o.isEmpty then none else some { h with owners := o }
  { s with units := s.units.map fun e => (e.1, { e.2 with chans := e.2.chans.map fun ch => { ch with hold := ch.hold.bind f } }) }

/-- A match with the arming `w` of unit `a` is still to be served: it waits, or its beat has not been written (R330). -/
def State.pendingMatch (s : State) (w : Nat × Nat × Nat) : Bool :=
  match (s.unit? w.1).bind fun un => un.trigs[w.2.1]? with
  | some g =>
    g.armed && g.serial == w.2.2 && (!g.struck.isEmpty || s.units.any fun e => e.2.beats.any fun b => !b.performed && b.watch.contains w)
  | none => false

/-- The resume of unit `a` ends the holds of its watchpoints, but for a match that is still to be served (R297, R330). -/
def State.resumeHolds (s : State) (a : Nat) : State := s.keepHolds fun w => w.1 != a || s.pendingMatch w

/-- The port to a package (R315). -/
def State.portTo (s : State) (pkg : Nat) : Nat := (s.boot.routes.getD pkg (0, 0)).1

/-- A flit of unit `u`'s request (R316). -/
def State.request (s : State) (u : Nat) (un : Unit) (type chan tid pkg pa n : Nat) (operand : W64) (data : List Byte) : State :=
  let f : Flit :=
    { type := BitVec.ofNat 4 type, vc := 1, dpkg := BitVec.ofNat 8 pkg, spkg := BitVec.ofNat 8 s.boot.pkgNo
      hops := BitVec.ofNat 8 (s.boot.routes.getD pkg (0, 0)).2, unit := BitVec.ofNat 8 u, chan := BitVec.ofNat 2 chan
      part := BitVec.ofNat 6 un.part, xid := BitVec.ofNat 32 tid, lseq := 0, param := BitVec.ofNat 32 n
      payload := leBytes 8 pa ++ leBytes 8 operand.toNat ++ leBytes 16 0 ++ data ++ List.replicate (64 - data.length) 0 }
  s.send (s.portTo pkg) f

/-- What trying a channel's next beat comes to. -/
inductive Try where
  /-- It does not issue. -/
  | stop
  /-- It lacks a skein slot (R190). -/
  | noSlot
  | issued (s : State)

/-- A watch holds the channel beyond what R297 lets it issue. -/
def Chan.held (ch : Chan) (now : Nat) (x : Cmd) : Bool :=
  match ch.hold with
  | some h => !(h.tid == x.tid && decide (0 < h.left) && h.cyc == now)
  | none => false

/-- The hold of a channel after a beat of command `tid` has issued that matched for `owners` (R297). -/
def Chan.holdAfter (ch : Chan) (tid now : Nat) (owners : List (Nat × Nat × Nat)) : Option Hold :=
  match ch.hold with
  | some h => some { h with left := h.left - 1, owners := h.owners ++ owners.filter fun w => !h.owners.contains w }
  | none => if owners.isEmpty then none else some ⟨tid, 3, now, owners⟩

/-- A skein. -/
def Unit.skein (un : Unit) (b : Bool) : List SkEntry := if b then un.skb else un.ska

/-- Replace a skein. -/
def Unit.setSkein (un : Unit) (b : Bool) (l : List SkEntry) : Unit := if b then { un with skb := l } else { un with ska := l }

/-- Change the command of a channel by its transfer ID. -/
def Unit.setCmd (un : Unit) (c tid : Nat) (f : Cmd → Cmd) : Unit :=
  un.setCh c fun ch => { ch with cmds := ch.cmds.map fun x => if x.tid = tid then f x else x }

/-- The cycles of a beat's write: performed, done, and of a covered write the completion (R180, R184, R195). `r` is a free choice. -/
def Unit.writeCycles (un : Unit) (u now ready r : Nat) (p : Plan) : Nat × Nat × Option Nat :=
  match p.sink with
  | .mem q =>
    if isOff u q.space then
      let lo := un.readLat u q.space q.addr
      (ready + 1 + r % max 1 lo, ready + lo, some (ready + lo))
    else
      let s := un.padS u q.space
      (ready + s, ready + s, if q.space = .unit then none else some (ready + s))
  | .skein .. => (ready + 1, ready + 1, none)
  | .atomic q =>
    if isOff u q.space then (now + 1 + r % max 1 (ready - now), ready, some ready) else (now + un.padS u q.space - 1, ready, some ready)
  | .sample .. => (ready + un.lat.sd, ready + un.lat.sd, none)

/-- The beat is still to write bytes of a piece, by an atomic or a plain write. -/
def Beat.writesTo (b : Beat) (q : Piece) : Bool :=
  let meets := fun (p : Piece) => p.space == q.space && decide (p.addr < q.addr + q.n) && decide (q.addr < p.addr + p.n)
  !b.performed && (match b.plan.sink with | .mem p => meets p | .atomic p => meets p | _ => false)

/-- It is no atomic's. -/
def Plan.plainSink (p : Plan) : Bool := match p.sink with | .atomic _ => false | _ => true

/-- Issue beat `x.next` of command `x` in this cycle, laid out as `p`. Off-core, an atomic is performed behind the unit's earlier writes and atomics on
its bytes, so that none of them is lost between its read and its write (R195, R248; log 121, DEDUCED). -/
def State.issueBeat (s : State) (u : Nat) (un : Unit) (x : Cmd) (p : Plan) : State :=
  let now := s.now un
  let ready := un.readyAt u now p
  let (r, s) := (Config.choice s.free, { s with free := s.free + 1 })
  let (perf0, done, covered) := un.writeCycles u now ready r p
  let perf := match p.sink with
    | .atomic q => if isOff u q.space then un.beats.foldl (fun m b => if b.writesTo q then max m b.performAt else m) perf0 else perf0
    | _ => perf0
  -- an atomic that has to come after an earlier write has no result by its promised cycle
  let waits : Bool := !p.plainSink && decide (ready < perf)
  let (crowded, s) := s.queueBeat u p ((s.region un.region).cycleTime now)
  let (late, s) := if crowded then (Config.congested s.free, { s with free := s.free + 1 }) else (false, s)
  let watch := s.watchers u p
  let b : Beat :=
    { chan := x.chan, tid := x.tid, k := x.next, u := now, plan := p, readAt := ready, late := x.late || late || waits, got := false, data := []
      writeAt := ready + 1, performAt := perf, performed := false, doneAt := done, order := un.seq, flags := 0, resp := [], lateAt := none, ue := false
      snap := x.snap.getD un.snap, watch }
  let un := { un with beats := un.beats ++ [b], seq := un.seq + 1 }.reserve (p.banks now ready)
  let un := un.setCmd x.chan x.tid fun y => { y with
    next := y.next + 1, slot := x.slot, doneAt := max y.doneAt done, wDone := max y.wDone (covered.getD 0) }
  let un := match covered with | some c => un.noteCovered x.chan x.tid c | none => un
  let s := s.setUnit u (un.setCh x.chan fun ch => { ch with lastBeat := now, hold := ch.holdAfter x.tid now (watch.filter s.holdsFor) })
  p.reads.foldl (fun s q => match q.space with | .remote pkg => s.request u un 1 x.chan x.tid pkg q.addr q.n 0 [] | _ => s)
    (match p.sink with
     | .atomic q => (match q.space with
       | .remote pkg => s.request u un 3 x.chan x.tid pkg q.addr q.n x.b (leBytes 8 x.d.toNat ++ leBytes 8 (x.word.toNat / 2 ^ 23 % 64))
       | _ => s)
     | _ => s)

/-- Try the next beat of channel `c` (R179, R190, R231). -/
def State.tryBeat (s : State) (u c : Nat) : Try :=
  match s.unit? u with
  | none => .stop
  | some un =>
    let now := s.now un
    match (un.ch c).current with
    | none => .stop
    | some x =>
      let stepping : Bool := decide (0 < (s.region un.region).steps) && (x.op == .cxrd || x.op == .cxwr)
      if now < x.from_ ∨ x.xlFault.isSome ∨ (un.ch c).held now x ∨ stepping then .stop
      else
        let isFill : Bool := x.op == .cfillA || x.op == .cfillB
        let isB : Bool := x.op == .cfillB
        let (e, j) := x.fillBeat x.next
        let first : Bool := isFill && j == 0
        let x := if first then { x with slot := some un.seq } else x
        let p := x.plan u x.next
        if !un.fits now p || !un.banksFree (p.banks now (un.readyAt u now p)) then .stop
        else if first ∧ 16 ≤ (un.skein isB).length then
          if (s.region un.region).strict && !x.restored && !((un.skein isB).any (·.refill)) then .noSlot else .stop
        else
          let un := if first then
            { un.setSkein isB (un.skein isB ++ [⟨[], [], x.hasSide e, false, false, un.seq, c, x.tid, e, x.restored⟩]) with seq := un.seq + 1 }
            else un
          .issued (s.issueBeat u un x p)

/-- A fill (R188, R189): `f` selects the channel's pattern, which it latches (R191). A fill that finds no skein slot in its own issue cycle faults in
that cycle, before its word issues (R190; COPY_BEAT_ISSUE). -/
def fillOp (op : CopyOp) (ok : Bool) (h : BitVec 2) (f : BitVec 1) (a b : BitVec 5) (q l : BitVec 1) (st : BitVec 4) (s : State) : Result :=
  .next (runWord (cpyWord (some h.toNat)) (fun s u k =>
    copyBody ok h.toNat [a.toNat, b.toNat] (fun s un vs =>
      let x := newCmd un op h.toNat (s.now un) 0 (arg vs 0).bits (arg vs 1).bits
      issueCmd s u un { x with pattern := if f = 1 then some (un.ch h.toNat).pattern else none } (q == 1) (l == 1) st.toNat (poisonOf vs)) s u k) s)

/-- `cfill.a` (R188, R189). -/
def execCfillA (h : BitVec 2) (f : BitVec 1) (a b : BitVec 5) (q l : BitVec 1) (st : BitVec 4) (s : State) : Result :=
  fillOp .cfillA (wellFormed (.cfillA h f a b q l st)) h f a b q l st s
/-- `cfill.b` (R188, R189). -/
def execCfillB (h : BitVec 2) (f : BitVec 1) (a b : BitVec 5) (q l : BitVec 1) (st : BitVec 4) (s : State) : Result :=
  fillOp .cfillB (wellFormed (.cfillB h f a b q l st)) h f a b q l st s

/-- Issue the beats of channel `c` that fit in this cycle; the last result says whether a fill found no slot in strict mode. -/
def State.channelBeats (u c : Nat) : Nat → State → State × Bool
  | 0, s => (s, false)
  | n + 1, s =>
    match s.tryBeat u c with
    | .stop => (s, false)
    | .noSlot => (s, true)
    | .issued s' => State.channelBeats u c n s'

/-- A unit's engines run in this cycle: it is cast on and running, and its region's cycle is in progress. -/
def State.live (s : State) (un : Unit) : Bool := un.run == .running && (s.region un.region).openCyc


/-! ### Read data (R180, R183, R199, R234, R237) -/

/-- A beat reads a word in error from the unit store, or from memory beyond it. -/
def State.beatBad (s : State) (un : Unit) (b : Beat) : Bool :=
  b.plan.reads.any fun p => if p.space = .unit then un.badAt p.addr p.n else s.badIn p.space p.addr p.n

/-- A beat reads no memory outside the scratchpads. -/
def Beat.onPads (u : Nat) (b : Beat) : Bool := b.plan.reads.all fun p => !isOff u p.space

/-- The beat whose uncorrectable read raises `MEM-UE` in this cycle: where its data would land, or in the promised cycle (R234, R237) (log 28, DEDUCED). -/
def State.ueDue (s : State) (u : Nat) (un : Unit) : Option Beat :=
  let now := s.now un
  un.beats.find? fun b =>
    match b.plan.sink with
    | .atomic q => b.ue && b.readAt + (if isOff u q.space then 1 else 0) == now
    | _ => (b.onPads u && b.readAt == now && !b.got && s.beatBad un b) || (!b.onPads u && b.readAt + 1 == now && b.ue)

/-- A beat is no atomic. -/
def Beat.plain (b : Beat) : Bool := b.plan.plainSink

/-- Shape what a beat has read into what it writes (R189, R192, R199, R241). -/
def shapeBytes (x : Option Cmd) (p : Plan) (bs : List Byte) : List Byte :=
  let fill := fun (l : List Byte) => (l ++ List.replicate (p.n - l.length) 0).take p.n
  match p.shape with
  | .raw => fill bs
  | .bits pat first m start n => fill ((patBytes pat.toNat first m start bs).take n)
  | .planes g => fill (bs.take (2 * g) ++ List.replicate (16 - 2 * g) 0 ++ bs.drop (2 * g))
  | .output a => fill ((((x.map (·.out)).getD []).drop a).take p.n)

/-- The command of a beat. -/
def Unit.cmdOf (un : Unit) (b : Beat) : Option Cmd := (un.ch b.chan).cmds.find? fun x => x.tid == b.tid

/-- Change the beat of order `o`. -/
def Unit.setBeat (un : Unit) (o : Nat) (f : Beat → Beat) : Unit := { un with beats := un.beats.map fun b => if b.order = o then f b else b }

/-- Answers of other packages that a beat still lacks. -/
def Beat.unanswered (b : Beat) : Bool :=
  b.plan.reads.any fun p => match p.space with | .remote _ => (find b.resp p.addr).isNone | _ => false

/-- The die whose store or memory holds an address, as unit `u` names it. -/
def dieHolding (u : Nat) (sp : Space) (a : Nat) : Nat :=
  match sp with | .cluster c => c / 10 | .die d => d | .dram => a / 2 ^ 38 | _ => dieOf u

/-- Count an uncorrectable error of a die (R302). -/
def State.countUe (s : State) (d : Nat) : State := { s with uec := modify s.uec d (· + 1) }

/-- Read the data of one beat (R180, R248). -/
def State.readBeat (s : State) (u : Nat) (o : Nat) : State :=
  match s.unit? u with
  | none => s
  | some un =>
    match un.beats.find? fun b => b.order == o with
    | none => s
    | some b =>
      let ue := b.ue || s.beatBad un b
      let s := match b.plan.reads.find? fun p => if p.space = .unit then un.badAt p.addr p.n else s.badIn p.space p.addr p.n with
        | some p => s.countUe (dieHolding u p.space p.addr)
        | none => s
      let (bs, s) := b.plan.reads.foldl (fun (acc : List Byte × State) p =>
        match acc.2.unit? u with
        | some un => let (x, s') := acc.2.readPiece u un b p; (acc.1 ++ x, s')
        | none => acc) ([], s)
      let data := shapeBytes (un.cmdOf b) b.plan bs
      s.modUnit u fun un => un.setBeat o fun b => { b with got := true, data, ue }

/-- The address of a crossing's trace entry as device memory: space, address, partition. -/
def State.tracePiece (s : State) (x : Crossing) (n : Nat) : Option Piece :=
  if x.tlen = 0 then none
  else
    let va := x.trace + 16 * (n % x.tlen)
    match (s.walk x.part va).2 with
    | some g => if g.space = 0 ∧ g.part = x.part then some ⟨.dram, g.pa + (va - g.va), 16, g.part⟩ else none
    | none => none

/-- Sample a crossing for a `cxrd` (R199, R260, R261) at the end of the cycle before this one, and write its trace entry. -/
def State.sampleCrossing (s : State) (u : Nat) (c : Cmd) : State :=
  match find s.crossings c.cross with
  | none => s
  | some x =>
    let region := fun (k : Nat) => s.region ((s.kernels[k]?.map (·.region)).getD 0)
    let entry := (s.tracePiece x c.sample).map fun p => s.dram.bytes p.addr 16
    let traced : Option (Int × Nat × Bool) :=
      if x.replay then
        entry.map fun e => ((BitVec.ofNat 32 (leNat ((e.drop 8).take 4))).toInt, (e.getD 12 0).toNat % 64, (e.getD 13 0).getLsbD 0)
      else none
    let at_ := (region x.consK).cycleTime (region x.consK).rcc
    let (out, x', k, phi, st) := { x with hist := x.histAt at_ }.output (region x.prodK) (region x.consK) c.sample traced
    let s := { s with crossings := put s.crossings c.cross { x' with hist := x.hist } }
    let s := match s.tracePiece x c.sample with
      | some p =>
        let bs := leBytes 8 c.sample ++ leBytes 4 (BitVec.ofInt 32 k).toNat ++ [BitVec.ofNat 8 phi, BitVec.ofNat 8 st, 0, 0]
        (s.enqueue p.addr 16).performWrite false p ⟨0, crossingAgent x.part x.prodK x.consK, 0, 0, 1, 0, none, cellsAt p.addr bs, [], Snapshot.zero⟩
      | none => s
    s.modUnit u fun un => un.setCmd c.chan c.tid fun y => { y with out, sampled := true }

/-- The `cxrd` commands whose sampling point, the end of u + Sd - 1 of the first beat, has come (R199): the crossing is sampled in the cycle
after it, when every sample of that cycle has entered. -/
def Unit.samplingDue (un : Unit) (now : Nat) : List Cmd :=
  (un.chans.flatMap (·.cmds)).filter fun x => x.op == .cxrd && !x.sampled && un.beats.any fun b =>
    b.chan == x.chan && b.tid == x.tid && b.k == 0 && decide (b.u + un.lat.sd ≤ now)

/-- `COPY_READ_DATA_READY` (R180): `MEM-UE` where an uncorrectable read falls due; else the crossings sampled in this cycle, and every beat
whose data is ready. -/
def execCopyReadDataReady (u : Nat) (s : State) : Result :=
  .next (match s.unit? u with
    | none => s
    | some un =>
      let now := s.now un
      match s.ueDue u un with
      | some b =>
        if un.run = .running then s.takeFault u .memUe .u 0 0 ⟨3, b.chan, 0, b.tid, b.k, BitVec.ofNat 64 ((b.plan.reads.head?.map (·.addr)).getD 0), 0⟩
        else (un.beats.filter fun b => b.plain && !b.got && !b.late && decide (b.readAt ≤ now)).foldl (fun s b => s.readBeat u b.order) s
      | none =>
        let s := (un.samplingDue now).foldl (fun s x => s.sampleCrossing u x) s
        (un.beats.filter fun b => b.plain && !b.got && !b.late && !b.unanswered && decide (b.readAt ≤ now)).foldl (fun s b => s.readBeat u b.order) s)

/-- `LATE_DATA_POISON` (R27, R183): beats whose data has not arrived by their promised cycle; when it will arrive is free (log 25, DESIGN CHOICE). -/
def execLateDataPoison (u : Nat) (s : State) : Result :=
  .next (match s.unit? u with
    | none => s
    | some un =>
      let now := s.now un
      (un.beats.filter fun b => b.plain && !b.got && (b.late || b.unanswered) && decide (b.readAt ≤ now)).foldl (fun s b =>
        { s with free := s.free + 1 }.modUnit u fun un => un.setBeat b.order fun b =>
          { b with got := true, late := true, data := List.replicate b.plan.n 0, lateAt := some (b.readAt + 1 + Config.choice s.free) }) s)

/-- `LATE_DATA_ARRIVAL` (R27): late data is discarded and counted in `LATE`. -/
def execLateDataArrival (u : Nat) (s : State) : Result :=
  .next (s.modUnit u fun un =>
    let now := ((s.region un.region).rcc)
    let due : Beat → Bool := fun b => match b.lateAt with | some c => decide (c ≤ now) | none => false
    let n := (un.beats.filter due).length
    { un with
      late := un.late + BitVec.ofNat 64 n
      beats := (un.beats.map fun b => if due b then { b with lateAt := none } else b).filter fun b =>
        !(b.performed && b.lateAt.isNone && decide (b.doneAt ≤ now)) })

/-! ### Writes (R180, R181, R183, R189, R195) -/

/-- A beat's write does not happen: its data was late or in error (R183, R234). -/
def Beat.spoiled (b : Beat) : Bool := b.late || b.ue

/-- The bytes of a beat enter a skein entry (R189), which is poisoned where they were late. -/
def SkEntry.take (e : SkEntry) (side : Bool) (at_ : Nat) (b : Beat) : SkEntry :=
  if b.spoiled then { e with poison := true }
  else if side then { e with side := e.side.writes at_ b.data } else { e with data := e.data.writes at_ b.data }

/-- The unit has stopped in cycle `now`. -/
def Unit.stopsIn (un : Unit) (now : Nat) : Bool := un.run == .stopped && (un.stop.map (·.cycle)) == some now

/-- The unit's triggers are sensed in the cycle in progress: it runs, stands frozen in a `ctxs` or `ctxl`, or has stopped in it (R214, R219). -/
def State.senses (s : State) (un : Unit) : Bool := (un.run == .running || un.run == .frozen || un.stopsIn (s.now un)) && (s.region un.region).openCyc

/-- A watched beat of unit `u` has been written at time `t` (R297, R330): the matches that the armed units have not foreseen. Its own region's
running units foresee it in the cycle itself (Triggers) (log 51, DEDUCED). -/
def State.strikeBeat (s : State) (u : Nat) (un : Unit) (b : Beat) (t : Frac) : State :=
  match b.plan.target with
  | none => s
  | some q => b.watch.foldl (fun s w =>
      match s.unit? w.1 with
      | some v =>
        if s.senses v ∧ v.region = un.region then s
        else s.setUnit w.1 { v with trigs := modify v.trigs w.2.1 (fun (g : Trigger) =>
          match g.lowest q.space q.addr q.n with
          | some i => if g.armed && g.serial == w.2.2 then { g with struck := g.struck ++ [⟨t.num, t.den, .i, b.chan, b.tid, b.k, i, BitVec.ofNat 32 u, false⟩] } else g
          | none => g) }
      | none => s) s

/-- The place of a beat's write in the coherence order (R248). -/
def Beat.key (b : Beat) : Nat := 2 ^ 40 * b.u + b.order

/-- Perform the write of one beat. -/
def State.writeBeat (s : State) (u : Nat) (b : Beat) : State :=
  match s.unit? u with
  | none => s
  | some un =>
    let now := s.now un
    let un := un.setBeat b.order fun b => { b with performed := true }
    let ps := fun (un : Unit) => if b.spoiled then un.raise 3 now flagPS else un
    let rec_ := fun (q : Piece) (key : Nat) =>
      (⟨0, s.agentOf u un, now, b.doneAt, 1, key, some (b.chan, b.tid), cellsAt q.addr b.data, [], b.snap⟩ : WriteRec)
    match b.plan.sink with
    | .mem q =>
      let s := if b.spoiled then s else s.strikeBeat u un b ((s.region un.region).cycleTime (now + 1))
      let un := ((s.unit? u).getD un).setBeat b.order fun b => { b with performed := true }
      if b.spoiled then
        -- a suppressed write matches nothing (R213), and so holds nothing
        let s := s.setUnit u (ps un)
        s.keepHolds fun w => !b.watch.contains w || s.pendingMatch w
      else
        match q.space with
        | .unit =>
          let w := rec_ q (2 ^ 40 * b.chan + b.order)
          s.setUnit u { un with
            store := un.store.perform { w with id := un.seq }
            badWords := un.badWords.filter fun w => !(decide (w * 8 < q.addr + q.n) && decide (q.addr < w * 8 + 8)) }
        | .remote pkg => (s.setUnit u un).request u un 2 b.chan b.tid pkg q.addr q.n (BitVec.ofNat 64 b.k) b.data
        | sp => (s.setUnit u un).performWrite (!isOff u sp) q
            (rec_ q (if isOff u sp then b.key else 2 ^ 50 * u + 2 ^ 40 * b.chan + b.order))
    | .skein isB ord side at_ =>
      s.setUnit u (ps (un.setSkein isB ((un.skein isB).map fun e => if e.order = ord then e.take side at_ b else e)))
    | .sample c n at_ =>
      let un := ps un
      let un := un.setCmd b.chan b.tid fun y => { y with out := (y.out ++ List.replicate (at_ - y.out.length) 0) ++ b.data, sampled := y.sampled || b.spoiled }
      let last := match un.cmdOf b with | some y => decide (y.beats ≤ b.k + 1) | none => false
      let y := un.cmdOf b
      let s := s.setUnit u un
      if last then
        match find s.crossings c with
        | some x => { s with crossings := put s.crossings c { x with
            inbox := x.inbox ++ [(n, now, ((y.map (·.out)).getD []).take x.z, (y.map (·.sampled)).getD false)] } }
        | none => s
      else s
    | .atomic _ => s

/-- Fill entries whose beats have all been written land (R189): where an earlier beat's data, on a page of longer latency, is ready after the last
beat's, the entry waits for it (log 123, DEDUCED). -/
def Unit.landEntries (un : Unit) : Unit :=
  let f := fun (isB : Bool) (e : SkEntry) =>
    if e.landed then e
    else
      let cmd := (un.ch e.chan).cmds.find? fun x => x.tid == e.tid
      let issued : Bool := match cmd with | some x => decide (x.entryFirst (e.entry + 1) ≤ x.next) | none => true
      let pending : Bool := un.beats.any fun b => !b.performed && (match b.plan.sink with | .skein sb o _ _ => sb == isB && o == e.order | _ => false)
      if issued && !pending then { e with landed := true } else e
  { un with ska := un.ska.map (f false), skb := un.skb.map (f true) }

/-- The cycle in which a beat's write leaves or is performed: to another package, when it is issued. -/
def Beat.writesAt (b : Beat) : Nat :=
  match b.plan.sink with
  | .mem q => (match q.space with | .remote _ => b.writeAt | _ => b.performAt)
  | _ => b.performAt


/-- Beats that are done and have nothing more to come leave the engine. -/
def Unit.sweep (un : Unit) (now : Nat) (off : Beat → Bool) : Unit :=
  { un with beats := un.beats.filter fun b => !(b.performed && b.lateAt.isNone && decide (b.doneAt ≤ now) && off b) }

/-- A beat writes off-core. -/
def Beat.isOffWrite (u : Nat) (b : Beat) : Bool := match b.plan.sink with | .mem q => isOff u q.space | _ => false

/-- The beats of a unit whose writes fall due, in channel order and beat order (R181). -/
def Unit.writesDue (un : Unit) (now : Nat) : List Beat :=
  (un.beats.filter fun b => b.plain && b.got && !b.performed && decide (b.writesAt ≤ now)).mergeSort fun a b =>
    decide (a.chan < b.chan) || (a.chan == b.chan && decide (a.order ≤ b.order))

/-- `COPY_WRITE_PERFORM` (R180): the writes of this cycle, and the skein entries that land with them (R189). -/
def execCopyWritePerform (u : Nat) (s : State) : Result :=
  .next (match s.unit? u with
    | none => s
    | some un =>
      let now := s.now un
      let s := (un.writesDue now).foldl (fun s b => s.writeBeat u b) s
      s.modUnit u fun un => un.landEntries.sweep now fun b => b.plain && !b.isOffWrite u)

/-- `OFFCORE_WRITE_COMPLETE` (R180, R184): off-core writes that complete at the end of this cycle. -/
def execOffcoreWriteComplete (u : Nat) (s : State) : Result :=
  .next (s.modUnit u fun un => un.sweep (s.region un.region).rcc fun b => b.isOffWrite u)

/-! ### Atomics (R194, R195) -/

/-- The new value of an atomic, and the flags of `catom.fadd` (R194); none stores nothing. -/
def atomNew (op : Nat) (old : Nat) (d b : W64) : Option Nat × Nat :=
  let o : W64 := BitVec.ofNat 64 old
  match op with
  | 8 => (some (o + b).toNat, 0)
  | 9 => (some (if b.slt o then b else o).toNat, 0)
  | 10 => (some (if o.slt b then b else o).toNat, 0)
  | 11 => (some b.toNat, 0)
  | 12 => (if o = d then some b.toNat else none, 0)
  | _ => let (r, f) := add32 (decodeNum f32 (old % 2 ^ 32)) (decodeNum f32 (b.toNat % 2 ^ 32)); (some r, f)

/-- The operation of an atomic command. -/
def Cmd.atomOp (x : Cmd) : Nat := match x.op with | .catom op => op | _ => 0

/-- The triggers that an atomic (MODE[18]), or another package's copy beat (MODE[17]), on `n` bytes at `a` of a space strikes at the memory side (R297,
R298): a report reaches the armed unit after a free time of at most 100 ns (log 53, DEDUCED). `src` is the channel, transfer ID and beat. -/
def State.reportAtomic (s : State) (sp : Space) (a n : Nat) (bit : Nat) (origin : W32) (src : Nat × Nat × Nat) : State :=
  let hits := s.units.flatMap fun e => e.2.trigs.zipIdx.filterMap fun t =>
    if t.1.watching (s.now e.2) bit then (t.1.lowest sp a n).map fun i => (e.1, t.2, i) else none
  hits.foldl (fun s h =>
    let (r, s) := s.choose 101
    let t := s.time.add (Frac.ofNat r)
    s.modUnit h.1 fun un => { un with trigs := modify un.trigs h.2.1 fun g =>
      { g with struck := g.struck ++ [⟨t.num, t.den, .u, src.1, src.2.1, src.2.2, h.2.2, origin, bit == 18⟩] } }) s

/-- The bytes that an atomic of unit `u` finds: every write before its own (R195, R248). -/
def State.atomBytes (s : State) (u : Nat) (un : Unit) (b : Beat) (q : Piece) : List Byte :=
  if isOff u q.space then (List.range q.n).map fun i => (s.storeOf q.space).readBefore (s.agentOf u un) b.key (q.addr + i)
  else (s.storeOf q.space).bytes q.addr q.n

/-- Perform one atomic at its target. A late one is performed on a page whatever its rights and partition (log 122, DEDUCED); one that no page maps has
no target, and writes nothing. -/
def State.performAtomic (s : State) (u : Nat) (b : Beat) : State :=
  match s.unit? u, b.plan.sink with
  | some un, .atomic q =>
    let now := s.now un
    match un.cmdOf b with
    | none => s
    | some x =>
      match q.space with
      | .remote _ | .nowhere => s.setUnit u (un.setBeat b.order fun b => { b with performed := true })
      | sp =>
        if s.badIn sp q.addr q.n then
          -- the word it would read is in error: nothing is stored, and the result is poisoned (R234, R237)
          (s.countUe (dieHolding u sp q.addr)).setUnit u (un.setBeat b.order fun b => { b with performed := true, late := true, ue := true })
        else
        let bs := s.decipher sp q.part q.addr (s.atomBytes u un b q)
        let old := leNat bs
        let (new, fl) := atomNew x.atomOp old x.d x.b
        let w : WriteRec := ⟨0, s.agentOf u un, now, b.doneAt, 2, 2 ^ 50 * u + 2 ^ 40 * b.chan + b.order, some (b.chan, b.tid)
          , (match new with | some v => cellsAt q.addr (leBytes q.n v) | none => []), [], b.snap⟩
        let s := s.modUnit u fun un => un.setBeat b.order fun b => { b with performed := true, data := bs, flags := fl }
        -- one that stores nothing writes no byte, and matches nothing (R194, R213)
        if new.isSome then
          (s.performWrite (!isOff u sp) q (if isOff u sp then { w with key := b.key } else w)).reportAtomic sp q.addr q.n 18
            (BitVec.ofNat 32 (s.boot.pkgNo * 256 + u + 3 * 2 ^ 16)) (b.chan, b.tid, b.k)
        else s
  | _, _ => s

/-- `ATOMIC_PERFORM` (R195): the atomics of this cycle, in channel order. -/
def execAtomicPerform (u : Nat) (s : State) : Result :=
  .next (match s.unit? u with
    | none => s
    | some un =>
      let due := (un.beats.filter fun b => !b.plain && !b.performed && decide (b.performAt ≤ s.now un)).mergeSort fun a b =>
        decide (a.chan < b.chan) || (a.chan == b.chan && decide (a.order ≤ b.order))
      due.foldl (fun s b => s.performAtomic u b) s)

/-- Land the result of one atomic as an external write (R26, R183, R195). A late result raises the flags of the operation as well as PS (R70, R195);
those of one that is still to be performed, or whose answer from another package is late, are free (log 122, DEDUCED). -/
def State.landAtomic (s : State) (u : Nat) (b : Beat) : State :=
  match s.unit? u, b.plan.sink with
  | some un, .atomic q =>
    let now := s.now un
    let far : Bool := match q.space with | .remote _ => true | _ => false
    let answer := if far then (find b.resp q.addr).getD [] else b.data
    let late := b.late || b.ue || (far && (find b.resp q.addr).isNone)
    let (junk, s) := if late then s.fresh else (0, s)
    let v : Val := if late then ⟨junk, true⟩ else ⟨BitVec.ofNat 64 (leNat (answer.take q.n)), false⟩
    let un := match (un.cmdOf b).bind (·.dest) with
      | some (.inl r) => un.later now 2 (.ext 3 r v)
      | some (.inr qn) => un.later now 1 (.push qn v true)
      | none => un
    let flags := match far, un.cmdOf b with
      | true, some x => if x.atomOp = 13 then (atomNew 13 (leNat (answer.take q.n)) x.d x.b).2 else 0
      | _, _ => b.flags
    let unknown : Bool := late && !b.ue && ((far && answer.isEmpty) || !b.performed) && (un.cmdOf b).any fun x => x.atomOp == 13
    let (any, s) := if unknown then s.fresh else (0, s)
    let fl : W64 := if unknown then any &&& 0x1D else flagBits flags
    let un := un.raise 3 now (if late then flagPS ||| fl else fl)
    let un := un.setBeat b.order fun b => { b with got := true, late, lateAt := if late && !b.ue then some (max now b.performAt + 1 + Config.choice s.free) else none }
    { s with free := s.free + 1 }.setUnit u un
  | _, _ => s

/-- `ATOMIC_RESULT_LAND` (R195). -/
def execAtomicResultLand (u : Nat) (s : State) : Result :=
  .next (match s.unit? u with
    | none => s
    | some un =>
      let now := s.now un
      let due := un.beats.filter fun b => !b.plain && (b.performed || b.late) && !b.got && decide (b.readAt ≤ now)
      (due.foldl (fun s b => s.landAtomic u b) s).modUnit u fun un => un.sweep now fun b => !b.plain && b.got && !(b.ue && b.readAt == now))

/-! ### Completion (R177, R178, R184, R185, R197, R301) -/

/-- An entry in the trace buffer, a ring of 256 (R301). -/
def Unit.addTrace (un : Unit) (t : Trace) : Unit := { un with trace := (un.trace ++ [t]).drop (un.trace.length - 255), traceN := un.traceN + 1 }

/-- The completion cycle of a command, once every beat has issued (R184, R185). -/
def Unit.completion (un : Unit) (x : Cmd) : Option Nat :=
  if x.compAt.isSome then x.compAt
  else if x.poison ∨ x.next < x.beats ∨ x.op == .cxwr ∨ x.op == .cmark ∨ x.xlFault.isSome then none
  else if x.rel then
    match x.cover with
    | some cv => if un.settled cv then some (max x.doneAt cv.last + max 1 (un.lat.lsc.getD x.scope 1)) else none
    | none => none
  else some x.doneAt

/-- Commands of a channel after this cycle: those complete are marked; a marker is complete with the earlier ones (R197). -/
def completeCmds (un : Unit) (now : Nat) : List Cmd → Bool → List Cmd
  | [], _ => []
  | x :: xs, before =>
    let done : Bool :=
      x.complete || (match x.op with
        | .cmark => before
        | _ => match un.completion x with | some c => decide (c ≤ now) | none => false)
    { x with complete := done, compAt := if done && !x.complete then some ((x.compAt).getD now) else x.compAt } :: completeCmds un now xs (before && done)

/-- A command that has completed and is needed no more: a fill stays until its entries are consumed (R200). -/
def Cmd.spent (x : Cmd) : Bool := x.complete && !((x.op == .cfillA || x.op == .cfillB) && !x.poison && decide (x.eaten < x.gCount))

/-- `WM` of a channel (R178). -/
def Chan.watermark (ch : Chan) : Nat := match ch.cmds.find? fun x => !x.complete with | some x => x.tid | none => ch.tid

/-- The trace entries of markers that completed in this cycle (R197, R301). -/
def Unit.markTrace (un : Unit) (now : Nat) (old : List Cmd) : Unit :=
  old.foldl (fun un x =>
    let fin : Bool := (un.ch x.chan).cmds.any fun y => y.tid == x.tid && y.complete
    if x.op == .cmark && !x.complete && fin then
      un.addTrace ⟨if x.poison then 3 else 1, x.chan, x.tid, if x.poison then 0 else x.a, now, 0⟩
    else un) un

/-- `COPY_COMMAND_COMPLETE` (R178, R184, R185, R197): the commands that complete at the end of this cycle; a release among them is published. -/
def execCopyCommandComplete (u : Nat) (s : State) : Result :=
  .next (match s.unit? u with
    | none => s
    | some un =>
      let now := s.now un
      let r := s.region un.region
      let un1 := { un with chans := un.chans.map fun ch => { ch with cmds := completeCmds un now ch.cmds true } }
      let newly := (un1.chans.flatMap (·.cmds)).filter fun x => x.complete && un.chans.any fun ch =>
        ch.cmds.any fun y => y.chan == x.chan && y.tid == x.tid && !y.complete
      let un2 := (un.chans.flatMap (·.cmds)).foldl (fun w x => Unit.markTrace w now [x]) un1
      let un3 := { un2 with chans := un2.chans.map fun ch =>
        { ch with wm := ch.watermark, cmds := ch.cmds.filter fun x => !x.spent } }
      let s := s.setUnit u un3
      newly.foldl (fun s x =>
        match x.cover with
        | some cv => if x.rel ∧ !x.poison then s.publish u 0 x.scope cv (r.cycleTime now) else s
        | none => s) s)

/-- `CROSSING_SAMPLE_ENTER` (R198): the next producer sample of crossing `x` of die `d`, its data being in. -/
def execCrossingSampleEnter (d x : Nat) (s : State) : Result :=
  .next (match find s.crossings (16 * d + x) with
    | none => s
    | some xr =>
      match (s.unit? xr.prod).filter fun un => un.kernel == xr.prodK with
      | none => s
      | some un =>
        let now := s.now un
        match xr.inbox.find? fun e => e.1 == xr.entered && decide (e.2.1 ≤ now) with
        | none => s
        | some (n, c, bs, p) =>
          let r := s.region un.region
          let xr' := { (xr.enter ⟨n, bs, p, r.cycleTime (now + 1)⟩) with inbox := xr.inbox.filter fun e => e.1 != n }
          let un := { un with chans := un.chans.map fun ch => { ch with cmds := ch.cmds.map fun y =>
            if y.op == .cxwr && y.cross == 16 * d + x && y.sample == n then { y with compAt := some (max c now) } else y } }
          { s with crossings := put s.crossings (16 * d + x) xr' }.setUnit xr.prod un)

/-! ### Translation (R182, R242, R243) -/

/-- The step of a command's translation (R182). -/
def State.cmdXlate (s : State) (u c : Nat) (un : Unit) : State :=
  match (un.ch c).cmds.find? fun x => x.xlAt == some (s.now un) with
  | none => s
  | some x =>
    let s' := s.setUnit u (un.setCmd c x.tid fun y => { y with xlAt := none })
    match x.xlFault with
    | some (cause, a) => s'.takeFault u cause .i 3 0 ⟨3, c, 0, x.tid, 0, BitVec.ofNat 64 a, 0⟩
    | none => s'

/-- The step of the translations of watched ranges (R213): a failure disarms the trigger and stops the unit, imprecise at `sw`. -/
def State.trigXlate (s : State) (u : Nat) (un : Unit) : State :=
  let now := s.now un
  let due := un.trigs.zipIdx.filter fun t => t.1.xlAt == some now
  due.foldl (fun s t =>
    let s := s.modUnit u fun un => { un with trigs := modify un.trigs t.2 fun g => { g with xlAt := none, armed := g.armed && g.xlFault.isNone } }
    match t.1.xlFault with
    | some cause => s.takeFault u cause .i 0 0 ⟨0, 0, t.2, 0, 0, t.1.addr, 0⟩
    | none => s) s

/-- The step of a context record's translation (R218): a failure is precise at `sw`. -/
def State.ctxXlate (s : State) (u : Nat) (un : Unit) : State :=
  match un.ctx with
  | none => s
  | some c =>
    if c.xlAt ≠ some (s.now un) then s
    else
      match c.xlFault with
      | some cause => s.takeFault u cause .p 0 0 ⟨0, 0, 0, 0, 0, BitVec.ofNat 64 (2 ^ 63 + c.va), 0⟩
      | none => s.setUnit u { un with ctx := some { c with xlAt := none } }

/-- `TRANSLATION_STEP` (R182, R213, R218): the translations of channel `c`'s command, and with channel 0 those of triggers and of a context
record, that end in this cycle. -/
def execTranslationStep (u c : Nat) (s : State) : Result :=
  .next (match s.unit? u with
    | none => s
    | some un =>
      let s := s.cmdXlate u c un
      if c ≠ 0 then s
      else
        let s := match s.unit? u with | some un => s.trigXlate u un | none => s
        match s.unit? u with | some un => s.ctxXlate u un | none => s)

/-- `TABLE_WALK_COMPLETE` of cluster `c` (R242, R243): the walks that end in this cycle of their units' regions enter the caches. -/
def execTableWalkComplete (c : Nat) (s : State) : Result :=
  .next (
    let due := s.walks.filter fun w => w.1 == c && (match s.unit? w.2.unit with
      | some un => decide (w.2.ends ≤ s.now un)
      | none => true)
    let s := { s with walks := s.walks.filter fun w => !due.contains w }
    due.foldl (fun s w =>
      match s.unit? w.2.unit with
      | none => s
      | some un =>
        match (s.walk un.part w.2.va).2 with
        | some page => s.setUnit w.2.unit (un.fillCache page w.2.resident (w.2.ends + 1))
        | none => s) s)

/-- `RESIDENT_REWALK` (R243): the walk of a resident range that `cinv` removed ends, and its entry is ready. -/
def execResidentRewalk (u : Nat) (s : State) : Result :=
  .next (match s.unit? u with
    | none => s
    | some un =>
      match s.walks.find? fun w => w.2.unit == u && w.2.resident && decide (w.2.ends ≤ s.now un) with
      | none => s
      | some w =>
        let s := { s with walks := s.walks.filter fun v => v != w }
        match (s.walk un.part w.2.va).2 with
        | some page => s.modUnit u fun un => un.fillCache page true (w.2.ends + 1)
        | none => s)

end Sys2Proof.Machine
end

