-- ==== Sys2Proof/Machine/Context.lean ====
section
/-! DEFINITION. The context record (R218, R222-R224): a unit as bytes, and a unit from bytes. The composite record shares its sections
(R278). -/

namespace Sys2Proof.Machine

/-- Write an `n`-byte value. -/
def Mem.set (m : Mem) (a n v : Nat) : Mem := m.writes a (leBytes n v)

/-- Write the values of a list, `n` bytes each, at steps of `step` bytes. -/
def Mem.setList (m : Mem) (a step n : Nat) (vs : List Nat) : Mem := (vs.zipIdx).foldl (fun m v => m.set (a + step * v.2) n v.1) m

/-- A set of bits as a number. -/
def bitSet (l : List Bool) : Nat := ((l.zipIdx).map fun b => if b.1 then 2 ^ b.2 else 0).sum

/-- The loop level at `a` (R223). F is the pass from which a resume runs (R114). -/
def Mem.setLevel (m : Mem) (a : Nat) (l : Option Level) : Mem :=
  match l with
  | none => m
  | some l => ((((((m.set a 1 1).set (a + 8) 8 l.trip).set (a + 16) 8 l.stages).set (a + 24) 8 l.ii).set (a + 32) 8 l.len).set (a + 40) 8 l.last).set
      (a + 48) 8 l.pass

/-- The 88 bytes of a walker's registers (R223, offset 0x4E0). -/
def Mem.setWkRegs (m : Mem) (a : Nat) (un : Unit) (k : Nat) : Mem :=
  let w := un.wk k
  m.setList a 8 8
    [w.wp, w.res, w.spilln.toNat, w.spillb.toNat, w.spilll.toNat, w.flags.toNat, w.epc.toNat, w.idx, w.count
     , if k = 0 then un.tvec.toNat else 0, if k = 0 then un.tstat.toNat else 0]

/-- The loop levels, inner then outer (R223, offset 0x540). -/
def Mem.setLevels (m : Mem) (a : Nat) (w : Walker) : Mem := (m.setLevel a w.inner).setLevel (a + 64) w.outer

/-- The steer counts (R223, offset 0x5C0). -/
def Mem.setSteers (m : Mem) (a : Nat) (w : Walker) : Mem :=
  m.setList a 8 5 (w.steers.map fun c => c.n + 65536 * c.word + if c.any then 2 ^ 32 else 0)

/-- DEST of a control result (R223): a register field, or 32 + the receiving walker. Windowed registers are named under the walker's
window pointer (log 32, DEDUCED). -/
def destOf : Eff → Option (Nat × Val)
  | .x _ p v => some (if p < 16 then p else 16 + (p - 16) % 16, v)
  | .push q v _ => some (32 + q % 4, v)
  | _ => none

/-- The in-flight list (R223, offset 0x620), whose results already hold REM in place of a cycle. -/
def Mem.setFlight (m : Mem) (a : Nat) (w : Walker) : Mem :=
  ((w.inflight.filterMap fun p => (destOf p.eff).map fun d => (p.due, d)).zipIdx).foldl (fun m e =>
    let b := a + 32 * e.2
    (m.set b 3 (1 + 256 * e.1.2.1 + (if e.1.2.2.poison then 65536 else 0))).set (b + 4) 4 e.1.1 |>.set (b + 8) 8 e.1.2.2.bits.toNat) m

/-- A walker section (R223). -/
def Mem.setWalker (m : Mem) (a : Nat) (un : Unit) (k : Nat) : Mem :=
  let w := un.wk k
  let m := m.setList a 8 8 ((w.x.drop 16).map fun v => v.bits.toNat)
  let m := m.setList (a + 0x400) 8 8 ((w.x.take 16).map fun v => v.bits.toNat)
  let m := m.set (a + 0x480) 32 (bitSet (((w.x.drop 16) ++ w.x.take 16).map (·.poison)))
  let m := m.setList (a + 0x4A0) 8 8 w.ras
  let m := m.setWkRegs (a + 0x4E0) un k
  let m := (m.setLevels (a + 0x540) w).setSteers (a + 0x5C0) w
  (m.setFlight (a + 0x620) w).setList (a + 0xA20) 8 8 w.copies

/-- A steer history entry (R224): its tag parts, outer then inner. -/
def Mem.setSteerEntry (m : Mem) (a : Nat) (e : SteerEntry) : Mem :=
  let outer := if e.tag.length = 2 then e.tag.head? else none
  let inner := e.tag.getLast?
  let openBit := fun (t : Option TagPart) => (t.map (·.isOpen)).getD false
  let flags := (if openBit outer then 1 else 0) + (if openBit inner then 2 else 0) + (if e.tag.isEmpty then 0 else 4)
  ((((((m.set a 4 e.image.toNat).set (a + 4) 1 ((if e.pc then 1 else 0) + if e.pt then 2 else 0)).set (a + 5) 1 1).set (a + 6) 1 flags).set
    (a + 8) 2 e.word).set (a + 10) 2 e.seq).set (a + 16) 4 ((outer.map (·.pass)).getD 0) |>.set (a + 20) 4 ((inner.map (·.pass)).getD 0)

/-- The image of a configuration set (R224). -/
def Mem.setCfg (m : Mem) (a : Nat) (c : Cfg) : Mem :=
  m.setList a 8 8 [c.fmt.toNat, c.shape.toNat, c.scale.toNat, c.zp.toNat, c.sparse.toNat, c.scalePs.toNat, c.zpPs.toNat]

/-- The running multiply (R224, offset 0x11C0). -/
def Mem.setMult (m : Mem) (a : Nat) (un : Unit) (x : Mult) : Mem :=
  (((((m.set a 3 (1 + 256 * x.op + 65536 * x.acc)).set (a + 4) 2 x.n).set (a + 8) 4 un.mpc).set (a + 12) 1 (if x.acq then 1 else 0)).set (a + 13) 1
    (if x.rel then 1 else 0)).set (a + 14) 1 x.scope

/-- The progress point of a command (R200). -/
def Cmd.progress (x : Cmd) : Nat :=
  match x.op with
  | .cfillA | .cfillB => x.eaten
  | _ => x.next

/-- The commands that a record holds (R200): those not complete, and the fills with entries not consumed. -/
def Chan.recorded (ch : Chan) : List Cmd := ch.cmds.filter fun x => !x.complete || ((x.op == .cfillA || x.op == .cfillB) && decide (x.eaten < x.gCount))

/-- The copy commands (R224, offset 0x1300), the oldest 32 of a channel (log 126, DEDUCED). -/
def Mem.setCmds (m : Mem) (a : Nat) (un : Unit) : Mem :=
  (un.chans.zipIdx).foldl (fun m c => ((c.1.recorded.take 32).zipIdx).foldl (fun m x =>
    let b := a + 2048 * c.2 + 64 * x.2
    let y := x.1
    m.set b 4 y.word.toNat |>.set (b + 4) 4 y.tid |>.set (b + 8) 8 y.d.toNat |>.set (b + 16) 8 y.a.toNat |>.set (b + 24) 8 y.b.toNat
      |>.set (b + 32) 8 y.progress |>.set (b + 40) 8 ((y.pattern.map (·.toNat)).getD 0) |>.set (b + 48) 1 1
      |>.set (b + 49) 1 (if y.complete then 1 else 0)) m) m

/-- The unit section (R224); `live` adds the running multiply and the copy commands of a pre-emption save. -/
def Mem.setUnitSection (m : Mem) (a : Nat) (un : Unit) (live : Bool) : Mem :=
  let m := (un.steers.zipIdx).foldl (fun m s => (s.1.hist.zipIdx).foldl (fun m e => m.setSteerEntry (a + 128 * s.2 + 32 * e.2) e.1) m) m
  let m := (un.queues.zipIdx).foldl (fun m q =>
    let b := a + 0x600 + 144 * q.2
    ((q.1.1.zipIdx).foldl (fun m v => (m.set (b + 16 + 16 * v.2) 8 v.1.bits.toNat).set (b + 24 + 16 * v.2) 1 (if v.1.poison then 1 else 0)) m).set
      b 1 q.1.1.length) m
  let m := (m.set (a + 0xF00) 8 un.masks.length).setList (a + 0xF08) 32 32 (un.masks.reverse.map bitSet)
  let sk := if live then ([], []) else (un.ska, un.skb)
  let m := m.set (a + 0x1100) 8 (bitSet (un.v.map (·.poison))) |>.set (a + 0x1108) 8 (bitSet (un.k.map (·.2)))
    |>.set (a + 0x1110) 2 (bitSet (un.acc.map (·.poison))) |>.set (a + 0x1112) 1 sk.1.length |>.set (a + 0x1113) 1 sk.2.length
    |>.set (a + 0x1114) 2 (bitSet (sk.1.map (·.sv))) |>.set (a + 0x1116) 2 (bitSet (sk.2.map (·.sv)))
    |>.set (a + 0x1118) 2 (bitSet (sk.1.map (·.poison))) |>.set (a + 0x111A) 2 (bitSet (sk.2.map (·.poison)))
  let m := (m.setCfg (a + 0x1140) un.active).setCfg (a + 0x1180) un.shadow
  let m := match live, un.mult with | true, some x => m.setMult (a + 0x11C0) un x | _, _ => m
  let m := m.setList (a + 0x1200) 8 8
    ([un.cause.toNat, un.slipw.toNat, un.ftv.toNat, (un.div.getD 3 1) * 65536 + (un.div.getD 2 1) * 256 + un.div.getD 1 1, un.mpc]
      ++ un.chans.map (·.tid) ++ un.chans.map (·.wm))
  let m := m.setList (a + 0x1280) 8 8 (un.chans.map fun c => c.pattern.toNat)
  if live then m.setCmds (a + 0x1300) un else m

/-- Skein entries, oldest first, 0x3000 bytes each (R222). -/
def Mem.setSkein (m : Mem) (a : Nat) (es : List SkEntry) : Mem :=
  (es.zipIdx).foldl (fun m e =>
    let b := a + 0x3000 * e.2
    e.1.side.foldl (fun m c => m.write (b + 8192 + c.1) c.2) (e.1.data.foldl (fun m c => m.write (b + c.1) c.2) m)) m

/-- `UNITNO` (R205). -/
def State.unitNo (s : State) (u : Nat) : Nat := s.boot.pkgNo * 256 + u
/-- `GAUGE` (R205). -/
def Region.gaugeReg (r : Region) : Nat := r.p * 2 ^ 32 + r.q * 2 ^ 8 + r.src
/-- `RSC` as a register. -/
def Region.rscReg (r : Region) : Nat := r.rsc % 2 ^ 64

/-- The whole record of a unit (R222): KIND, SEQ (R286), `RCC` and `RSC` at the cut, and the unit as it stands. -/
def State.record (s : State) (u : Nat) (un : Unit) (kind seq : Nat) (cut : Nat × Nat) : Mem :=
  let r := s.region un.region
  let un := un.landRefills
  let live := kind == 1
  let m : Mem := Mem.set [] 0 4 Config.ctxMagic |>.set 4 2 1 |>.set 6 1 kind |>.set 8 8 Config.ctxBytes |>.set 16 8 (s.unitNo u)
    |>.set 24 8 cut.1 |>.set 32 8 cut.2 |>.set 40 8 r.gaugeReg |>.set 48 8 (if r.strict then 1 else 0) |>.set 56 8 seq
  let m := (List.range 4).foldl (fun m k => m.setWalker (0x100 + 0x1000 * k) un k) m
  let m := m.setUnitSection 0x4100 un live
  let m := m.setList 0x8000 4 4 (un.k.map fun e => e.1.toNat)
  let m := m.setList 0x10000 4 4 (un.v.flatMap fun r => r.lanes.map (·.toNat))
  let m := if live then m else (m.setSkein 0x20000 un.ska).setSkein 0x50000 un.skb
  let m := m.setList 0x80000 4 4 (un.acc.flatMap fun a => a.el.map (·.toNat))
  let store := un.store.log.foldl Mem.apply un.store.base
  let m := store.foldl (fun m c => if c.1 < Config.unitStoreBytes then m.write (0xC0000 + c.1) c.2 else m) m
  m.setList 0x4C0000 4 4 (un.istore.map (·.toNat))

/-! ### Loading -/

/-- A record as it is read: its bytes, and the 64-byte blocks that were late or in error, which load zeros and poison (R221). -/
structure Img where
  bytes : Mem
  bad   : List Nat
  deriving DecidableEq, Repr

/-- `n` bytes of the record as a number. -/
def Img.get (m : Img) (a n : Nat) : Nat := m.bytes.nat a n
/-- Bit `i` of the byte string at `a`. -/
def Img.bit (m : Img) (a i : Nat) : Bool := (m.get (a + i / 8) 1).testBit (i % 8)
/-- Bytes that a poison bit governs lie in a bad block. -/
def Img.dirty (m : Img) (a n : Nat) : Bool := m.bad.any fun b => decide (64 * b < a + n) && decide (a < 64 * b + 64)
/-- Bit `i` of the poison bits at `a`; a bad block poisons whatever its bits govern (R221). -/
def Img.ps (m : Img) (a i : Nat) : Bool := m.bit a i || m.dirty (a + i / 8) 1
/-- Numbers of `n` bytes at steps. -/
def Img.list (m : Img) (a step n count : Nat) : List Nat := (List.range count).map fun i => m.get (a + step * i) n

/-- The steer-writing words from `i` to `last`, in text order: register and word (R14). -/
def bodySteers (istore : List W32) (last : Nat) : Nat → Nat → List (Nat × Nat)
  | 0, _ => []
  | n + 1, i =>
    if last < i then []
    else
      let raw := (istore.getD i 0).toNat
      let rest := bodySteers istore last n (i + 1 + literalCount raw)
      match steerWriteReg raw with
      | some r => (r, i) :: rest
      | none => rest

/-- The numbers that the body words of a record's levels hold (R111): the record names that of the last word passed, and in a body they follow one
another in text order (log 105, DEDUCED). `next` is the recorded NEXT. -/
def bodyNums (istore : List W32) (inner outer : Option Level) (next : Nat) (steers : List SteerCount) : List (Nat × Nat × Nat) :=
  match inner with
  | none => []
  | some l =>
    let top := outer.getD l
    let again : Bool := match outer with | some o => decide (0 < o.pass) | none => false
    let counted : Nat → Bool := fun i =>
      again || (if l.holds i then decide (0 < l.pass) || (l.started && decide (i < next)) else outer.isSome && decide (i ≤ l.word))
    let ws := bodySteers istore top.last top.len (top.word + 1)
    (List.range 12).flatMap fun r =>
      let c := steers.getD r ⟨0, 0, false, []⟩
      let mine := (ws.filter (·.1 == r)).map (·.2)
      match mine.idxOf? c.word with
      | some j => if c.any then (mine.zipIdx.filter fun e => counted e.1).map fun e => (r, e.1, (c.n + 65536 + e.2 - j) % 65536) else []
      | none => []

/-- The passes that a record's walker held in its levels when it last passed word `w`: the one before F in a level that drained, the recorded one
in a level that goes on behind a body that ended (log 105, DEDUCED). -/
def lastPasses (inner outer : Option Level) (w : Nat) : List (Nat × Nat) :=
  ((outer.toList.map fun (o : Level) => (o, o.pass)) ++ inner.toList.map fun (l : Level) => (l, if l.started then l.pass else l.pass - 1)).filterMap fun (e : Level × Nat) =>
    if e.1.holds w then some (e.1.word, e.2) else none

/-- The lowest walker of a word's set, which writes its steer register (R14). -/
def writerOf (raw : Nat) : Nat := ((List.range 4).find? (executes raw)).getD 0

/-- A loop level of the record, to resume from F at its `loop` word (R114); the word lies L below T. Its passes began long ago. -/
def Img.level (m : Img) (a : Nat) : Option Level :=
  if m.get a 1 % 2 = 0 then none
  else
    let last := m.get (a + 40) 8
    let len := m.get (a + 32) 8
    let f := m.get (a + 48) 8
    let stages := m.get (a + 16) 8
    some { word := last - len, trip := m.get (a + 8) 8, stages, ii := m.get (a + 24) 8, len, last, from_ := f, reg := 0, pass := f
           started := false, began := 0, after := 0, first := 0, drain := none }

/-- The register that the `loop` word at index `i` names, as a physical number (R106). -/
def loopRegOf (istore : List W32) (wp i : Nat) : Nat := physReg wp (fld ((istore.getD i 0).toNat) 13 5)

/-- A walker of the record (R223); an in-flight result holds REM until the thaw. -/
def Img.walker (m : Img) (a k : Nat) (old : Walker) (istore : List W32) (seq : Nat) : Walker :=
  let val := fun (off bit : Nat) => (⟨BitVec.ofNat 64 (m.get (a + off) 8), m.ps (a + 0x480) bit || m.dirty (a + off) 8⟩ : Val)
  let x := (List.range 16).map (fun i => val (0x400 + 8 * i) (128 + i)) ++ (List.range 128).map fun i => val (8 * i) i
  let r := fun i => m.get (a + 0x4E0 + 8 * i) 8
  let wp := r 0 % 8
  let fix := fun (l : Level) => { l with reg := loopRegOf istore wp l.word }
  let idx := r 7
  let inner := (m.level (a + 0x540)).map fun l => let l := fix l; if r 7 = l.word then l else { l with started := true }
  let outer := (m.level (a + 0x580)).map fun l => { fix l with started := true }
  let steers := (List.range 12).map fun i =>
    let v := m.get (a + 0x5C0 + 8 * i) 5
    let w := v / 65536 % 65536
    (⟨v % 65536, w, v.testBit 32, lastPasses inner outer w⟩ : SteerCount)
  { old with
    x, wp, res := r 1, spilln := BitVec.ofNat 64 (r 2), spillb := BitVec.ofNat 64 (r 3), spilll := BitVec.ofNat 64 (r 4)
    flags := BitVec.ofNat 64 (r 5), epc := BitVec.ofNat 64 (r 6), idx := if (inner.map (·.word)) = some idx then idx + 1 else idx, count := r 8, was := r 8, ras := m.list (a + 0x4A0) 8 8 8
    inner, outer
    steers
    bodySeq := bodyNums istore inner outer idx steers, bodyN := bodyNums istore inner outer idx steers
    copies := m.list (a + 0xA20) 8 8 4
    inflight := (List.range 32).filterMap fun i =>
      let b := a + 0x620 + 32 * i
      if m.get b 1 % 2 = 0 then none
      else
        let d := m.get (b + 1) 1
        let v : Val := ⟨BitVec.ofNat 64 (m.get (b + 8) 8), (m.get (b + 2) 1).testBit 0 || m.dirty b 32⟩
        some ⟨m.get (b + 4) 4, 1, seq + i, if d < 32 then .x k (physReg wp d) v else .push (4 * k + d % 4) v false⟩
    ready := 0, since := none, held := false, matched := false, stopped := false, trail := [], synced := [], extLast := [] }

/-- A steer history of the record (R224). The record does not name a tag part's `loop` word: it is the one, among the levels of the
record whose bodies hold the writing word, that stands widest for an outer part and narrowest for an inner one (log 33, DEDUCED); the writer is
the lowest walker of the word's set (R14). A T of the record counts as prepared long ago (R100; log 104, DEDUCED). -/
def Img.steer (m : Img) (a : Nat) (istore : List W32) (levels : List (Nat × Nat)) : Steer :=
  let hist := (List.range 4).filterMap fun i =>
    let b := a + 32 * i
    if m.get (b + 5) 1 % 2 = 0 then none
    else
      let im := m.get b 4
      let f := m.get (b + 6) 1
      let w := m.get (b + 8) 2
      let near := (levels.filter fun l => decide (l.1 < w) && decide (w ≤ l.2)).mergeSort fun x y => decide (x.1 ≤ y.1)
      let word := fun (bit : Nat) => if bit = 0 then (near.head?.map (·.1)).getD 0 else (near.getLast?.map (·.1)).getD 0
      let part := fun (bit off : Nat) => (⟨word bit, m.get (b + off) 4, f.testBit bit⟩ : TagPart)
      some { seq := m.get (b + 10) 2, word := m.get (b + 8) 2, c := im.testBit 16, t := im % 65536, tv := im.testBit 31
             pc := (m.get (b + 4) 1).testBit 0 || m.dirty b 32, pt := (m.get (b + 4) 1).testBit 1 || m.dirty b 32, tAt := some 0
             wk := writerOf (istore.getD w 0).toNat
             tag := if f.testBit 2 then (if f.testBit 0 || m.get (b + 16) 4 ≠ 0 then [part 0 16, part 1 20] else [part 1 20]) else [] : SteerEntry }
  ⟨hist, (hist.head?.map (·.seq)).getD 0⟩

/-- A configuration set of the record. -/
def Img.cfg (m : Img) (a : Nat) : Cfg :=
  let w := fun i => BitVec.ofNat 32 (m.get (a + 8 * i) 8)
  ⟨w 0, w 1, w 2, w 3, (m.get (a + 32) 8).testBit 0, m.ps (a + 40) 0 || m.dirty (a + 16) 8, m.ps (a + 48) 0 || m.dirty (a + 24) 8⟩

/-- A skein of the record. -/
def Img.skein (m : Img) (a count svOff psOff seq : Nat) : List SkEntry :=
  (List.range count).map fun i =>
    let b := a + 0x3000 * i
    let cut := fun (lo n : Nat) => m.bytes.filterMap fun c => if lo ≤ c.1 ∧ c.1 < lo + n then some (c.1 - lo, c.2) else none
    { data := cut b 8192, side := cut (b + 8192) 4096, sv := m.bit (0x4100 + svOff) i
      poison := m.ps (0x4100 + psOff) i || m.dirty b 0x3000, landed := true, order := seq + i, chan := 0, tid := 0, entry := 0, refill := false }

/-- The unit that a record describes (R221-R224), over the unit that loads it: identity, `LATE`, `HEADwk`, `CTXN` and the triggers stay. -/
def Img.load (m : Img) (un : Unit) (kind : Nat) : Unit :=
  let a := 0x4100
  let istore := (m.list 0x4C0000 4 4 Config.istoreWords).map (BitVec.ofNat 32)
  let clkd := m.get (a + 0x1218) 8
  let wps := (List.range 4).map fun k => m.walker (0x100 + 0x1000 * k) k (un.wk k) istore (un.seq + 100 * k)
  let storeBytes := m.bytes.filterMap fun c => if 0xC0000 ≤ c.1 ∧ c.1 < 0xC0000 + Config.unitStoreBytes then some (c.1 - 0xC0000, c.2) else none
  let vs := m.list 0x10000 4 4 (64 * 256)
  let accs := m.list 0x80000 4 4 (16 * 4096)
  let cut := fun (k n : Nat) (l : List Nat) => (l.drop (k * n)).take n
  let steers := (List.range 12).map fun i => m.steer (a + 128 * i) istore ((wps.flatMap (·.levels)).map fun l => (l.word, l.last))
  let reopened := fun (un : Unit) => (List.range 4).foldl (fun un k => match (un.wk k).inner with | some l => if l.started then un.goOn k else un.reopen k l | none => un) un
  let toward := fun q => (wps.flatMap (·.inflight)).countP fun p => match p.eff with | .push q' _ _ => q == q' | _ => false
  reopened { un with
    walkers := wps, steers
    queues := (List.range 16).map fun q =>
      let b := a + 0x600 + 144 * q
      ((List.range (min 8 (m.get b 1))).map fun i => ⟨BitVec.ofNat 64 (m.get (b + 16 + 16 * i) 8), (m.get (b + 24 + 16 * i) 1).testBit 0 || m.dirty (b + 16 + 16 * i) 16⟩, toward q)
    istore, store := ⟨storeBytes, []⟩
    cause := BitVec.ofNat 64 (m.get (a + 0x1200) 8), slipw := BitVec.ofNat 64 (m.get (a + 0x1208) 8), ftv := BitVec.ofNat 64 (m.get (a + 0x1210) 8)
    div := [1, clkd % 32, clkd / 256 % 32, clkd / 65536 % 32], divNext := [1, clkd % 32, clkd / 256 % 32, clkd / 65536 % 32]
    mpc := m.get (a + 0x1220) 8
    tvec := BitVec.ofNat 64 (m.get (0x100 + 0x4E0 + 72) 8), tstat := BitVec.ofNat 64 (m.get (0x100 + 0x4E0 + 80) 8)
    acc := (List.range 16).map fun k => ⟨(cut k 4096 accs).map (BitVec.ofNat 32), m.ps (a + 0x1110) k || m.dirty (0x80000 + 0x4000 * k) 0x4000⟩
    ska := if kind = 0 then m.skein 0x20000 (min 16 (m.get (a + 0x1112) 1)) 0x1114 0x1118 (un.seq + 500) else []
    skb := if kind = 0 then m.skein 0x50000 (min 16 (m.get (a + 0x1113) 1)) 0x1116 0x111A (un.seq + 600) else []
    active := m.cfg (a + 0x1140), shadow := m.cfg (a + 0x1180)
    v := (List.range 64).map fun k => ⟨(cut k 256 vs).map (BitVec.ofNat 32), m.ps (a + 0x1100) k || m.dirty (0x10000 + 1024 * k) 1024⟩
    k := (List.range 64).map fun k => (BitVec.ofNat 32 (m.get (0x8000 + 4 * k) 4), m.ps (a + 0x1108) k || m.dirty (0x8000 + 4 * k) 4)
    masks := ((List.range (min 8 (m.get (a + 0xF00) 8))).map fun i => (List.range 256).map fun l => m.bit (a + 0xF08 + 32 * i) l).reverse
    chans := (List.range 4).map fun c =>
      { tid := m.get (a + 0x1228 + 8 * c) 8, wm := m.get (a + 0x1248 + 8 * c) 8, pattern := BitVec.ofNat 64 (m.get (a + 0x1280 + 8 * c) 8), cmds := []
        lastBeat := 0, hold := none }
    mult := none, ksteps := [], beats := [], pend := [], phases := [], bars := un.bars, seq := un.seq + 1000 }

end Sys2Proof.Machine
end

