-- ==== Sys2Proof/Machine/System.lean ====
section
/-! DEFINITION. The system words and the system registers (R203-R225). -/

namespace Sys2Proof.Machine

/-! ### Reading and writing system registers (R204-R207, R300) -/

/-- The pass number of a level (R110): the latest pass that has started (log 35, DEDUCED). -/
def Level.shown (l : Level) : Nat := if l.started then l.pass else max l.from_ (l.pass - 1)

/-- `TRIGSn` (R205). -/
def Trigger.image (t : Trigger) (now : Nat) : W64 :=
  BitVec.ofNat 64 (t.openAt % 2 ^ 32 * 2 ^ 32 + (if t.fired then 4 else 0) + (if t.isOpen then 2 else 0) + (if t.armed && decide (t.from_ ≤ now) then 1 else 0))

/-- A flag of R300 that has a counter. -/
def flagListed (f : Nat) : Bool :=
  (decide (f < 16) && f % 5 != 0) || (decide (16 ≤ f) && decide (f ≤ 0x1B)) || (decide (0x20 ≤ f) && decide (f ≤ 0x33))

/-- A per-walker register at index `i` (R204). -/
def Unit.wkReg (un : Unit) (k i : Nat) : W64 :=
  let w := un.wk k
  match i with
  | 0 => w.flags
  | 1 => w.epc
  | 2 => BitVec.ofNat 64 w.wp
  | 3 => BitVec.ofNat 64 w.res
  | 4 => w.spillb
  | 5 => w.spilll
  | 6 => w.spilln
  | 7 => BitVec.ofNat 64 ((w.inner.map Level.shown).getD 0)
  | 8 => BitVec.ofNat 64 ((w.outer.map Level.shown).getD 0)
  | 9 => BitVec.ofNat 64 w.was
  | 10 => un.tvec
  | _ => un.tstat

/-- A system register as `csrr` reads it (R206). -/
def State.csrRead (s : State) (u : Nat) (un : Unit) (r : Nat) : W64 :=
  let rg := s.region un.region
  let ch := fun c => un.ch c
  if r < 0x40 then un.wkReg (r / 16) (r % 16)
  else if 0x108 ≤ r ∧ r < 0x10C then BitVec.ofNat 64 (ch (r - 0x108)).tid
  else if 0x10C ≤ r ∧ r < 0x110 then BitVec.ofNat 64 (ch (r - 0x10C)).wm
  else if 0x120 ≤ r ∧ r < 0x130 then un.trigs0.getD (r - 0x120) 0
  else if 0x300 ≤ r ∧ r < 0x310 then (un.wk ((r - 0x300) / 4)).head.getD (r % 4) 0
  else if 0x400 ≤ r ∧ r < 0x500 then (if flagListed (r - 0x400) then un.flagCnt.getD (r - 0x400) 0 else 0)
  else
    match r with
    | 0x100 => un.cause
    | 0x101 => un.slipw
    | 0x102 => un.ftv
    | 0x103 => BitVec.ofNat 64 (un.div.getD 3 1 * 65536 + un.div.getD 2 1 * 256 + un.div.getD 1 1)
    | 0x104 => BitVec.ofNat 64 un.mpc
    | 0x105 => BitVec.ofNat 64 (s.unitNo u)
    | 0x106 => BitVec.ofNat 64 un.baroff
    | 0x107 => un.late
    | 0x110 => BitVec.ofNat 64 un.masks.length
    | 0x111 => un.ctxn
    | 0x200 => BitVec.ofNat 64 (if rg.gauge = .frozen then rg.rcc + 1 else rg.rcc)
    | 0x201 => BitVec.ofNat 64 rg.rscReg
    | 0x202 => BitVec.ofNat 64 rg.gaugeReg
    | 0x203 => if rg.strict then 1 else 0
    | _ => 0

/-- `csrw` may write the register (R204, R300). -/
def csrWritable (r : Nat) : Bool :=
  (decide (r < 0x40) && (r % 16 == 0 || r % 16 == 1 || r % 16 == 4 || r % 16 == 5)) || r == 0x00A || r == 0x00B || r == 0x100 || r == 0x101 ||
    r == 0x102 || r == 0x107 || (decide (0x300 ≤ r) && decide (r < 0x310)) || (decide (0x400 ≤ r) && decide (r < 0x500) && flagListed (r - 0x400))

/-- Bits outside a mask are zero. -/
def onlyBits (v m : W64) : Bool := (v &&& ~~~m) == 0

/-- The value keeps the register's limits (R204-R206). -/
def Unit.csrOk (un : Unit) (r : Nat) (v : W64) : Bool :=
  let w := un.wk (r / 16)
  if r = 0x00A then onlyBits v 0x800000000000FFFF
  else if r = 0x00B then onlyBits v 0x11FFF
  else if r < 0x40 then
    match r % 16 with
    | 0 => onlyBits v 0x80FF
    | 1 => decide (v.toNat ≤ 65536)
    | 4 => w.spilln == 0 && v.toNat % 256 == 0 && decide (v.toNat < 0x400000)
    | 5 => w.spilln == 0 && v.toNat % 256 == 0 && decide (w.spillb.toNat ≤ v.toNat) && decide (v.toNat ≤ 0x400000)
    | _ => false
  else if r = 0x100 then onlyBits v 0xFFFF00F300FF && decide (v.toNat % 256 ≤ 14)
  else if r = 0x101 then decide (8 ≤ v.toNat) && decide (v.toNat ≤ 1024)
  else if r = 0x102 then v == 1
  else true

/-- Write a system register, at the end of a `csrw`'s cycle. -/
def Unit.csrWrite (un : Unit) (r : Nat) (v : W64) : Unit :=
  if r = 0x00A then { un with tvec := v }
  else if r = 0x00B then { un with tstat := v }
  else if r < 0x40 then
    un.setWk (r / 16) fun w =>
      match r % 16 with
      | 0 => { w with flags := v }
      | 1 => { w with epc := v }
      | 4 => { w with spillb := v }
      | 5 => { w with spilll := v }
      | _ => w
  else if 0x300 ≤ r ∧ r < 0x310 then un.setWk ((r - 0x300) / 4) fun w => { w with head := w.head.set (r % 4) v }
  else if 0x400 ≤ r then { un with flagCnt := un.flagCnt.set (r - 0x400) v }
  else
    match r with
    | 0x100 => { un with cause := v }
    | 0x101 => { un with slipw := v }
    | 0x102 => { un with ftv := v }
    | 0x107 => { un with late := v }
    | _ => un

/-- A system word with its meaning. -/
def sysOp (body : State → Nat → Unit → Act) (s : State) : Result :=
  .next (runWord sysWord (fun s u _ =>
    match s.unit? u with
    | none => .wait 3 none
    | some un => body s u un) s)

/-- `csrr` (R206): the value lands at the end of t with poison clear; only a port destination takes an in-flight entry (R203). -/
def execCsrr (d : BitVec 5) (r : BitVec 13) (s : State) : Result :=
  sysOp (fun s u un =>
    let now := s.now un
    let v : Val := ⟨s.csrRead u un r.toNat, false⟩
    if !wellFormed (.csrr d r) || ownPort 0 [d.toNat] then .fault .illegal 0
    else if isPort d.toNat then
      if un.full 0 then .miss 0x30
      else if !un.room 0 d.toNat then .miss (outQueue 0 d.toNat)
      else .go (s.setUnit u (un.landReg 0 d.toNat now 1 v)) .seq
    else .go (s.setUnit u (un.later now 1 (.x 0 (physReg (un.wk 0).wp d.toNat) v))) .seq) s

/-- `csrw` (R206). -/
def execCsrw (a : BitVec 5) (r : BitVec 13) (s : State) : Result :=
  sysOp (fun s u un =>
    if !wellFormed (.csrw a r) || !csrWritable r.toNat || ownPort 0 [a.toNat] then .fault .illegal 0
    else
      match fetch 0 un [a.toNat] with
      | .error q => .miss q
      | .ok (vs, un') =>
        let v := arg vs 0
        let spill : Bool := decide (r.toNat < 0x40) && (r.toNat % 16 == 4 || r.toNat % 16 == 5) && (un.wk (r.toNat / 16)).spilln != 0
        if spill then .fault .illegal 0
        else if v.poison then .go (s.setUnit u (un'.raise 0 (s.now un) flagPS)) .seq
        else if !un.csrOk r.toNat v.bits then .fault .illegal 0
        else .go (s.setUnit u (un'.later (s.now un) 3 (.csr r.toNat v.bits))) .seq) s

/-! ### Traps, clocks, hints (R208-R212) -/

/-- `trap` (R208). -/
def execTrap (c : BitVec 13) (s : State) : Result :=
  sysOp (fun s u un =>
    let w := un.wk 0
    if w.inner.isSome then .fault .illegal 0
    else if !un.tvec.getLsbD 63 || un.tstat.getLsbD 16 then .fault .trap c.toNat
    else .go (s.setUnit u (un.later (s.now un) 3 (.trapIn (w.idx + 1) c.toNat))) (.jump (un.tvec.toNat % 65536) 3)) s

/-- `eret` (R209). -/
def execEret (s : State) : Result :=
  sysOp (fun s u un =>
    let w := un.wk 0
    let t := w.epc.toNat % 2 ^ 17
    if !un.tstat.getLsbD 16 || w.inner.isSome || decide (65536 ≤ t) then .fault .illegal 0
    else .go (s.setUnit u (un.later (s.now un) 3 .trapOut)) (.jump t 3)) s

/-- `clkdiv` (R210): the divisor of `mw`, `vw` or `cw` from t + 1. -/
def execClkdiv (e : BitVec 2) (v : BitVec 4) (s : State) : Result :=
  sysOp (fun s u un =>
    if !wellFormed (.clkdiv e v) then .fault .illegal 0
    else .go (s.setUnit u { un with divNext := un.divNext.set (e.toNat + 1) (v.toNat + 1) }) .seq) s

/-- `hint` (R211): it marks the unit's generator for the package controller (R270) and changes nothing else. -/
def execHint (k : BitVec 2) (s : State) : Result :=
  sysOp (fun s _u un =>
    if !wellFormed (.hint k) then .fault .illegal 0
    else if k = 0 then .go s .seq
    else
      let g := (s.region un.region).src
      .go { s with gens := s.gens.map fun e => if e.1 = g then (e.1, { e.2 with hinted := true }) else e } .seq) s

/-- A `bkpt`, `ctxs` or `ctxl` issues in this cycle, as a trigger of KIND 2 senses it (R213). -/
def Unit.noteSystem (un : Unit) (now : Nat) : Unit := { un with trigs := un.trigs.map fun (g : Trigger) => g.note now 2 0 (un.wk 0).idx }

/-- The unit stops in its own `bkpt`'s cycle with the word complete: NEXT of `sw` is the word after it (R212, R275). -/
def Unit.stepOver (un : Unit) (now : Nat) : Unit := ((un.noteSystem now).setWk 0 fun w => w.cross now w.idx sysWord).wrapWalker now 0

/-- `bkpt` (R212). -/
def execBkpt (c : BitVec 13) (s : State) : Result :=
  match sysOp (fun _ _ _ => .fault .bkpt c.toNat) s with
  | .next s' =>
    .next (match s.unit? s.focus.1, s'.unit? s.focus.1 with
      | some un, some un' =>
        if un.run = .running ∧ un'.run = .stopped ∧ un'.cause.toNat % 256 = Cause.code .bkpt then
          s'.setUnit s.focus.1 (un'.stepOver (s.now un))
        else s'
      | _, _ => s')
  | r => r

/-! ### Triggers (R213) -/

/-- The unit store with the copy writes that are performed at the end of this cycle, which a walker load issued in it sees (R89). -/
def Unit.storeNow (un : Unit) (now : Nat) : Store :=
  (un.writesDue now).foldl (fun st b => match b.plan.sink with
    | .mem q => if q.space = .unit ∧ !b.spoiled then st.perform ⟨un.seq, coreAgent, now, now, 1, b.order, none, cellsAt q.addr b.data, [], Snapshot.zero⟩ else st
    | _ => st) un.store

/-- A condition of a trigger descriptor obeys its limits (R213). -/
def condOk (v : W64) : Bool := decide (v.toNat % 16 ≤ 5) && v.extractLsb' 6 2 == 0 && v.extractLsb' 13 3 == 0

/-- A watched range is a copy address whose bytes exist (R175, R176, R213). -/
def trigAddrOk (u : Nat) (a : Nat) : Bool := (copyPlace u a).isSome && a % 16 == 0 && rangeOk u a 16

/-- `trig` (R213). A descriptor in error is poisoned: it arms nothing, and `MEM-UE` is raised where its data would land (R234). The matches and
the holds of the earlier arming end with it (R330). A device virtual `ADDR` is translated whatever the conditions; not where START is of KIND 0, which disarms
(log 114, DEDUCED). -/
def execTrig (a : BitVec 5) (n : BitVec 4) (s : State) : Result :=
  sysOp (fun s u un =>
    let now := s.now un
    if ownPort 0 [a.toNat] then .fault .illegal 0
    else
      match fetch 0 un [a.toNat] with
      | .error q => .miss q
      | .ok (vs, un') =>
        let p := (arg vs 0).bits.toNat
        if poisonOf vs then .go (s.setUnit u (un'.raise 0 now flagPS)) .seq
        else if p % 32 ≠ 0 ∨ Config.unitStoreBytes ≤ p then .fault .access 0
        else if !un'.banksFree [(now + 1, 0, p / 64)] then .wait 2 none
        else if un.badAt p 32 then .go (s.setUnit u ((un'.reserve [(now + 1, 0, p / 64)]).later (now + 1) 1 (.probe p 32))) .seq
        else
          let st := un.storeNow now
          let word := fun i => BitVec.ofNat 64 (leNat ((List.range 8).map fun k => st.readBy (seesLoad now) (p + 8 * i + k)))
          let start := word 0
          let stop := word 1
          let addr := word 2
          let mode := word 3
          if !condOk start || !condOk stop || mode.toNat / 2 ^ 21 ≠ 0 || mode.extractLsb' 19 2 == 3 then .fault .illegal 0
          else if !trigAddrOk u addr.toNat then .fault .access 0
          else
            let un' := un'.reserve [(now + 1, 0, p / 64)]
            let base : Trigger :=
              { armed := start.toNat % 16 != 0, isOpen := false, fired := false, start, stop, addr, mode, from_ := now + 1
                openAt := ((un.trigs[n.toNat]?).map (·.openAt)).getD 0, xlAt := none
                pa := none, xlFault := none, seenS := false, seenP := false, stopDue := none, struck := [], serial := s.free + 1 }
            let s := { s with free := s.free + 1 }
            let t : Trigger :=
              match copyPlace u addr.toNat with
              | some (.pad sp _ off) => { base with pa := some (sp, off) }
              | some (.dva va) =>
                if !base.armed then base
                else
                  let due := now + un.lat.lx
                  match (s.look u un va now).page with
                  | none => { base with xlAt := some due, xlFault := some .xlate, from_ := due + 1 }
                  | some g =>
                    let sp : Space := if g.space = 0 then .dram else if g.space = 1 then .remote g.pkg else .host
                    { base with
                      xlAt := some due, xlFault := if g.part = un.part then none else some .access, pa := some (sp, g.pa + (va - g.va)), from_ := due + 1 }
              | none => base
            .go ((s.setUnit u { un' with trigs := un'.trigs.set n.toNat t }).keepHolds fun w => w.1 != u || w.2.1 != n.toNat) .seq) s

/-! ### Pre-emption points, quiescent words, contexts (R215-R221) -/

/-- `yield` (R215): a pre-emption stop at the end of t where a request has reached the unit and no walker has an active level. -/
def execYield (s : State) : Result :=
  sysOp (fun s u un =>
    let now := s.now un
    let asked : Bool := match un.request with | some c => decide (c < now) | none => false
    if asked && un.walkers.all fun w => w.inner.isNone then .go (s.setUnit u { un with yieldAt := some now }) .seq
    else .go s .seq) s

/-- A result of the vector engine. -/
def Eff.isVector : Eff → Bool
  | .lanes .. | .vload .. | .kload .. | .kset .. => true
  | _ => false

/-- A queue entry that `vmovx.out` pushes, which takes no in-flight entry (R140). -/
def Eff.isVectorPush : Eff → Bool
  | .push _ _ outer => !outer
  | _ => false

/-- The unit is quiescent in this cycle (R216). -/
def Unit.quiescent (un : Unit) (now : Nat) : Bool :=
  un.mult.isNone && un.ksteps.isEmpty && decide (un.mland ≤ now) && decide (un.vfree ≤ now) &&
    ((un.pend ++ (un.wk 2).inflight).all fun p => !p.eff.isVector) && (un.pend.all fun p => !p.eff.isVectorPush) &&
    (un.chans.all fun c => c.wm == c.tid) && un.outbox.all fun m => decide (m.arrive < now)

/-- `halt` (R216, R217): the unit binds off once its release at `pattern` scope completes. With an active loop level of `sw` it is `ILLEGAL` in the first
cycle in which `sw` stands at it (log 128, DEDUCED). -/
def execHalt (s : State) : Result :=
  sysOp (fun s u un =>
    let now := s.now un
    if (un.wk 0).inner.isSome then .fault .illegal 0
    else if un.quiescent now then .go (s.setUnit u { un with haltAt := some (now + max 1 (un.lat.lsc.getD 7 1)) }) .seq
    else .wait 1 (some 0x32)) s

/-- The 64 KiB ranges of a context record at a device virtual address. -/
def ctxRanges (va : Nat) : List Nat := (List.range (Config.ctxBytes / 65536)).map fun i => va + 65536 * i

/-- Translate a context record (R218): its pages, or the fault. -/
def State.ctxPages (s : State) (u : Nat) (un : Unit) (va t : Nat) (write : Bool) : List Page × Option Cause :=
  (ctxRanges va).foldl (fun acc a =>
    match (s.look u un a t).page with
    | none => (acc.1, acc.2.or (some .xlate))
    | some g =>
      let bad : Option Cause := if g.part ≠ un.part || (if write then !g.w else !g.r) then some .access else none
      (if acc.1.contains g then acc.1 else acc.1 ++ [g], acc.2.or bad)) ([], none)

/-- Declared latency of a record over its pages (R218). -/
def Unit.ctxLat (un : Unit) (u : Nat) (pages : List Page) : Nat :=
  pages.foldl (fun m g => max m (un.offLat u (if g.space = 0 then .dram else if g.space = 1 then .remote g.pkg else .host) g.pa)) 1

/-- Completion of a save issued in `t` (R220): the cycle after block 0 completes. -/
def Unit.saveEnd (un : Unit) (from_ lo : Nat) : Nat :=
  let d := un.divisor 3
  let u0 := nextIssue d from_
  nextIssue d (u0 + (Config.ctxBlocks - 2) * d + lo + 1) + lo + 1

/-- A load (R221): the cycle in which the header is checked, and the restart. -/
def Unit.loadEnd (un : Unit) (from_ lo : Nat) : Nat × Nat :=
  let d := un.divisor 3
  let check := nextIssue d from_ + lo + 1
  (check, nextIssue d check + (Config.ctxBlocks - 2) * d + lo + 1)

/-- A `ctxs` or `ctxl` (R216, R218-R221): the unit freezes; `sw` stands at the word, which has issued, until the context is done. The queue entry that
the word itself pops for xa is not in the record (R220; log 127, DEDUCED). -/
def ctxOp (load : Bool) (a : BitVec 5) (s : State) : Result :=
  let r := sysOp (fun s u un =>
    let now := s.now un
    if ownPort 0 [a.toNat] then .fault .illegal 0
    else if !un.quiescent now then .wait 1 (some 0x32)
    else if un.walkers.any fun w => w.inner.isSome then .fault .illegal 0
    else
      match fetch 0 un [a.toNat] with
      | .error q => .miss q
      | .ok (vs, un') =>
        let p := (arg vs 0).bits.toNat
        if poisonOf vs then .go (s.setUnit u (un'.raise 0 now flagPS)) .seq
        else if p / 2 ^ 48 ≠ 2 ^ 15 ∨ p % 65536 ≠ 0 then .fault .access 0
        else
          let va := p % 2 ^ 48
          let (pages, fault) := s.ctxPages u un va now (!load)
          let lo := un.ctxLat u pages
          let start := now + un.lat.lx
          let (check, fin) := if load then un.loadEnd start lo else (0, un.saveEnd start lo)
          let un' := (un'.noteSystem now).freeze now true
          let after := (un'.setWk 0 fun w => w.cross now w.idx sysWord)
          let r := s.region un.region
          let c : Ctx :=
            { load, t := now, va, xlAt := some start, xlFault := fault, pages, checkAt := if load then some check else none, endAt := fin
              first := nextIssue (un.divisor 3) (if load then check else start), lo, seed := s.free
              image := if load then [] else s.record u after 0 0 (r.rcc, r.rscReg), bad := [], resp := [], ue := false }
          .stand ({ s with free := s.free + Config.ctxBlocks }.setUnit u { un' with run := .frozen, ctx := some c }) 0 (some 0x32)) s
  match r with
  | .next s' =>
    -- the other walkers are held through this cycle (R218)
    .next (s'.modUnit s.focus.1 fun un => un.setWk 0 fun w =>
      match w.slot with | .done 0 none => { w with slot := .done 0 (some 0x32) } | _ => w)
  | r => r

/-- `ctxs` (R220). -/
def execCtxs (a : BitVec 5) (s : State) : Result := ctxOp false a s
/-- `ctxl` (R221). -/
def execCtxl (a : BitVec 5) (s : State) : Result := ctxOp true a s

/-- A running unit enters a region cycle: the walkers whose issue cycle it is may walk (R9, R36). -/
def Unit.beginCycle (un : Unit) (now : Nat) : Unit :=
  { un with walkers := un.walkers.zipIdx.map fun (e : Walker × Nat) =>
      if isIssue (un.divisor e.2) now && !e.1.stopped then { e.1 with ic := e.1.ic + 1, slot := .walking 0 } else { e.1 with slot := .done 3 none } }

/-- The unit restarts after a context save or load (R219): the walkers go on, `sw` at the word after. -/
def Unit.restart (un : Unit) (now : Nat) (step : Bool) : Unit :=
  let un := if step then (un.setWk 0 fun w => { w.cross now w.idx sysWord with since := none }) else un
  (Unit.thaw { un with run := .running, ctx := none } now).beginCycle now

/-- The piece of device memory at an offset of a record. -/
def Ctx.piece (c : Ctx) (off n : Nat) : Piece :=
  match c.pages.find? fun g => g.covers (c.va + off) with
  | some g => ⟨if g.space = 0 then .dram else if g.space = 1 then .remote g.pkg else .host, g.pa + (c.va + off - g.va), n, if g.space = 2 then 64 else g.part⟩
  | none => ⟨.nowhere, 0, 0, 64⟩

/-- The beats of some blocks of a record issue at time `t`, to be written from `image`, or read (R218): they enter their queues (R233, R236), and on a
page of another package a flit goes there (R238). A read that its queue does not promise in time may be late (log 4, DESIGN CHOICE). -/
def State.issueBlocks (s : State) (u : Nat) (c : Ctx) (blocks : List Nat) (image : Option Mem) (t : Frac) : State :=
  blocks.foldl (fun s k =>
    match s.unit? u with
    | none => s
    | some un =>
      let p := c.piece (64 * k) 64
      let (crowded, s) := s.queuePiece u p t
      let late : Bool := crowded && image.isNone && Config.congested s.free
      let s : State := { s with free := s.free + 1 }
      let s := match p.space with
        | .remote pkg => s.request u un (if image.isSome then 2 else 1) 0 k pkg p.addr 64 (BitVec.ofNat 64 k) ((image.map (·.bytes (64 * k) 64)).getD [])
        | _ => s
      if late then s.modUnit u fun un => { un with ctx := un.ctx.map fun c => { c with bad := k :: c.bad } } else s) s

/-- Write the blocks of an image by the unit's off-core path; at another package the flits that have gone there do so. -/
def State.writeBlocks (s : State) (u : Nat) (c : Ctx) (blocks : List Nat) (image : Mem) : State :=
  match s.unit? u with
  | none => s
  | some un => blocks.foldl (fun s b =>
      let p := c.piece (64 * b) 64
      s.performWrite false p ⟨0, s.agentOf u un, s.now un, s.now un, 1, 2 ^ 40 * s.now un + un.seq, none, cellsAt p.addr (image.bytes (64 * b) 64), [], un.snap⟩) s

/-- The blocks of a record as an off-core read of the unit finds them: bytes, and the blocks late or in error (R221). -/
def State.readBlocks (s : State) (u : Nat) (un : Unit) (c : Ctx) (blocks : List Nat) : Img × State :=
  blocks.foldl (fun (acc : Img × State) b =>
    let p := c.piece (64 * b) 64
    let beat : Beat :=
      { chan := 4, tid := 0, k := b, u := s.now un, plan := ⟨[p], .mem p, .raw, 64, []⟩, readAt := s.now un, late := false, got := false, data := []
        writeAt := 0, performAt := 0, performed := false, doneAt := 0, order := 0, flags := 0, resp := c.resp, lateAt := none, ue := false
        snap := un.snap, watch := [] }
    if c.bad.contains b || beat.unanswered || (find c.resp p.addr).any (·.isEmpty) || acc.2.badIn p.space p.addr 64 then (⟨acc.1.bytes, b :: acc.1.bad⟩, acc.2)
    else
      let (bs, s) := acc.2.readPiece u un beat p
      (⟨acc.1.bytes.writes (64 * b) bs, acc.1.bad⟩, s)) (⟨[], []⟩, s)

/-- An uncorrectable error strikes the write of a block of a unit's record (R220, R234, R287): its memory, or words of the unit store that the save reads
for it (R222), hold one (log 40, DEDUCED). -/
def State.strikes (s : State) (un : Unit) (c : Ctx) (blk : Nat) : Bool :=
  let p := c.piece (64 * blk) 64
  s.badIn p.space p.addr 64 || (decide (0xC0000 ≤ 64 * blk) && decide (64 * blk < 0x4C0000) && un.badAt (64 * blk - 0xC0000) 64)

/-- The blocks from `low` on of a save that are performed at the end of cycle `now`, with `d` the divisor of `cw`: each in a free cycle after its
beat's issue and by its completion (R184, R218). Block 0 is here the one with MAGIC 0 of a pre-emption save (R286). -/
def Ctx.writesAt (c : Ctx) (low d now : Nat) : List Nat :=
  let lo := max 1 c.lo
  let k0 := (now - lo + d - c.first) / d
  (List.range ((now + d - 1 - c.first) / d + 1 - k0)).map (k0 + ·) |>.filter fun k =>
    decide (low ≤ k) && decide (k < Config.ctxBlocks) && c.first + k * d - d + 1 + Config.choice (c.seed + k) % lo == now

/-- The blocks of a record whose beats issue in cycle `now`, one per issue cycle of `cw` (R218, R220, R221, R286); `pre` where block 0 goes first, with
MAGIC 0. -/
def Ctx.issuesAt (c : Ctx) (pre : Bool) (d now : Nat) : List Nat :=
  let k := (now + d - c.first) / d
  let mid : List Nat := if c.first + k * d = now + d ∧ (if pre then 0 else 1) ≤ k ∧ k < Config.ctxBlocks then [k] else []
  let head : Bool := if c.load then c.checkAt == some (now + c.lo + 1) else now + c.lo + 1 == c.endAt
  if c.xlAt.isSome then [] else if head then mid ++ [0] else mid

/-- The beats of a save or load that fall in this cycle (R218, R220, R221): the writes performed, or the block whose data is ready. -/
def State.landBlocks (s : State) (u : Nat) (un : Unit) (c : Ctx) : State :=
  let now := s.now un
  let d := un.divisor 3
  if c.xlAt.isSome ∨ c.checkAt.isSome then s
  else if c.load then
    if c.lo ≤ now - c.first ∧ (now - c.first - c.lo) % d = 0 ∧ (now - c.first - c.lo) / d + 1 < Config.ctxBlocks then
      let (m, s) := s.readBlocks u un c [(now - c.first - c.lo) / d + 1]
      s.modUnit u fun un => { un with ctx := some { c with image := m.bytes.foldl (fun m e => m.write e.1 e.2) c.image, bad := (m.bad ++ c.bad).dedup } }
    else s
  else
    let pre : Bool := un.run == .preempted
    let ks := c.writesAt (if pre then 0 else 1) d now
    if ks.isEmpty then s
    else
      let ue := c.ue || ks.any fun k => s.strikes un c k
      (s.writeBlocks u c ks (if pre then c.image.set 0 4 0 else c.image)).modUnit u fun un => { un with ctx := some { c with ue } }

/-- The beats of a save or load that issue, are performed or have their data in this cycle. -/
def State.blockBeats (s : State) (u : Nat) (un : Unit) (c : Ctx) : State :=
  let pre : Bool := un.run == .preempted
  let now := s.now un
  let ks := c.issuesAt pre (un.divisor 3) now
  -- of a pre-emption save, block 0 goes first with MAGIC 0 and last as it is
  let image := if pre && now + c.lo + 1 != c.endAt then c.image.set 0 4 0 else c.image
  (s.landBlocks u un c).issueBlocks u c ks (if c.load then none else some image) (s.cycleStart un)

/-- `CTXS_COMPLETE` (R220): block 0 of the save has completed; the record stands in memory and the unit restarts. A write that met an
uncorrectable error leaves block 0 unwritten and raises `MEM-UE`. -/
def execCtxsComplete (u : Nat) (s : State) : Result :=
  .next (match s.unit? u with
    | none => s
    | some un =>
      match un.ctx with
      | none => s
      | some c =>
        let now := s.now un
        if c.load ∨ un.run ≠ .frozen ∨ now < c.endAt ∨ c.xlAt.isSome then s
        else
          if c.ue || s.strikes un c 0 then s.takeFault u .memUe .u 0 0 ⟨3, 0, 0, 0, 0, BitVec.ofNat 64 (2 ^ 63 + c.va), 0⟩
          else (s.writeBlocks u c [0] c.image).modUnit u fun un => un.restart now true)

/-- A record's header is valid: MAGIC, VERSION, KIND 0 or 1, SIZE (R221). -/
def headerOk (m : Img) : Bool :=
  m.get 0 4 == Config.ctxMagic && m.get 4 2 == 1 && decide (m.get 6 1 ≤ 1) && m.get 8 8 == Config.ctxBytes

end Sys2Proof.Machine
end

