-- ==== Sys2Proof/Machine/Engines.lean ====
section
/-! DEFINITION. The steps of a unit's own engines: results landing, loop passes, phases, barriers, messages and k-steps (R24-R26,
R87-R90, R109-R124, R153-R174). -/

namespace Sys2Proof.Machine

/-! ### Landing (R24-R26) -/

/-- Write lanes of a vector register (R128): a partial write keeps the poison of the lanes that stay. -/
def VReg.write (v : VReg) (ls : List (Nat × W32)) (poison all : Bool) : VReg :=
  ⟨ls.foldl (fun l e => l.set e.1 e.2) v.lanes, poison || (!all && v.poison)⟩

/-- The value of one lane of a vector load (R145): width 4, 2 or 1 bytes, or a nibble (0 low, 8 high). -/
def Unit.laneLoad (un : Unit) (addr width cut : Nat) : W32 :=
  if width = 0 ∨ width = 8 then
    let b := leNat (un.loadBytes cut addr 1)
    BitVec.ofNat 32 (if width = 0 then b % 16 else b / 16)
  else BitVec.ofNat 32 (leNat (un.loadBytes cut addr width))

/-- A walker's store is performed (R89, R90); it replaces words in error (R234). -/
def Unit.landStore (un : Unit) (me : Agent) (now wk key : Nat) (cells : List WCell) : Unit :=
  { un with
    store := un.store.perform ⟨un.seq, me, now, now, 0, 2 ^ 40 * wk + key, none, cells, [], Snapshot.zero⟩
    badWords := un.badWords.filter fun w => !cells.any fun c => c.addr / 8 == w }

/-- The elements of a window's image (R166): row b reads as a walker load issued at t + b × d. -/
def Unit.loadWindow (un : Unit) (addr t d : Nat) : List W32 :=
  (List.range 64).flatMap fun b => (List.range 64).map fun j => BitVec.ofNat 32 (leNat (un.loadBytes (t + b * d) (addr + 256 * b + 4 * j) 4))

/-- Write a field of the shadow set (R156). -/
def Cfg.set (c : Cfg) (f : CfgField) (v : W32) (poison : Bool) : Cfg :=
  match f with
  | .fmt => { c with fmt := v }
  | .shape => { c with shape := v }
  | .scale => { c with scale := v, scalePs := poison }
  | .zp => { c with zp := v, zpPs := poison }
  | .sparse => { c with sparse := v == 1 }

/-- The commands whose acquire at scope `scope` completes at the end of cycle `now` keep its snapshot for every read beat (R185). -/
def Unit.acquired (un : Unit) (scope now : Nat) : Unit :=
  let keep := fun (x : Cmd) =>
    if x.acq ∧ x.scope = scope ∧ x.snap.isNone ∧ x.t + max 1 (un.lat.lsc.getD scope 1) ≤ now + 1 then { x with snap := some un.snap } else x
  { un with chans := un.chans.map fun ch => { ch with cmds := ch.cmds.map keep } }

/-- Land one effect at the end of cycle `now`. -/
def State.landEff (s : State) (u : Nat) (un : Unit) (e : Eff) : State :=
  let now := s.now un
  match un.resolve e with
  | .x wk p v => s.setUnit u (un.setWk wk fun w => w.setReg p v)
  | .ext wk p v => s.setUnit u (un.setWk wk fun w => { w.setReg p v with extLast := (256 * now + p) :: w.extLast })
  | .push q v ext => s.setUnit u (if ext && un.qOver q then un.enter (q / 4) (now + 1) (.push q v true) else un.qPush q v)
  | .steer w => s.setUnit u (un.landSteer w)
  | .load .. => s.setUnit u un
  | .lanes reg ls poison all fl ext =>
    let un := { un with v := modify un.v reg fun v => v.write ls poison all }
    s.setUnit u (if ext then un else un.raise 2 now fl)
  | .vload reg ls all =>
    let bad := ls.any fun e => un.badAt e.2.1 1
    s.setUnit u { un with v := modify un.v reg fun v => v.write (ls.map fun e => (e.1, un.laneLoad e.2.1 e.2.2.1 e.2.2.2)) bad all }
  | .kload f count addr cut =>
    s.setUnit u { un with k := (List.range count).foldl (fun k i =>
      k.set (f + i) (BitVec.ofNat 32 (leNat (un.loadBytes cut (addr + 4 * i) 4)), un.badAt (addr + 4 * i) 4)) un.k }
  | .kset f count poison =>
    let k := (List.range count).foldl (fun k i => k.set (f + i) ((Config.freeWord (s.free + i)).setWidth 32, poison)) un.k
    { s with free := s.free + count }.setUnit u { un with k }
  | .store wk key cells => s.setUnit u (un.landStore (s.agentOf u un) now wk key cells)
  | .flags wk f =>
    let un := un.setWk wk fun w => { w with flags := w.flags ||| f }
    s.setUnit u { un with trigs := un.trigs.map fun (g : Trigger) => (List.range 16).foldl (fun g b => if f.getLsbD b then g.note now 5 wk b else g) g }
  | .pclr wk => s.setUnit u (un.setWk wk fun w => { w with flags := w.flags &&& ~~~flagPS })
  | .csr r v => s.setUnit u (un.csrWrite r v)
  | .cfg f v poison => s.setUnit u { un with shadow := un.shadow.set f v poison }
  | .latch c => s.setUnit u { un with active := c, mpc := 0 }
  | .mclr a => s.setUnit u { un with acc := un.acc.set a ⟨List.replicate 4096 0, false⟩ }
  | .accLoad a addr t d poison =>
    if poison then
      let el := (List.range 4096).map fun i => (Config.freeWord (s.free + i)).setWidth 32
      { s with free := s.free + 4096 }.setUnit u { un with acc := un.acc.set a ⟨el, true⟩ }
    else s.setUnit u { un with acc := un.acc.set a ⟨un.loadWindow addr t d, un.badAt addr 16384⟩ }
  | .refill wk win addr cut => s.setUnit u (un.landRefill wk win addr cut)
  | .probe .. => s.setUnit u un
  | .acquire scope => ((s.setUnit u un).takeSnap u 0 scope ((s.region un.region).cycleTime (now + 1))).modUnit u (·.acquired scope now)
  | .trapIn epc code =>
    s.setUnit u { un.setWk 0 fun w => { w with epc := BitVec.ofNat 64 epc } with tstat := BitVec.ofNat 64 (65536 + code) }
  | .trapOut => s.setUnit u { un with tstat := un.tstat &&& 0x1FFF }
  | .close wk l => s.setUnit u { un with steers := un.steers.map (closeTags wk l) }

/-- The word index by which the steer writes of one cycle are ordered (R91); other results come behind them. -/
def Pend.place (p : Pend) : Nat := match p.eff with | .steer w => w.word | _ => 65536

/-- A result comes before another: by cycle, rank, the word index of a steer write, then program order (R24, R90, R91, R126). -/
def Pend.before (a b : Pend) : Bool :=
  decide (a.due < b.due) || (a.due == b.due && (decide (a.rank < b.rank) || (a.rank == b.rank &&
    (decide (a.place < b.place) || (a.place == b.place && decide (a.seq ≤ b.seq))))))

/-- The results that may land by the end of this cycle: the control results of a unit that does not run are frozen (R274, R279). -/
def Unit.landable (un : Unit) (now : Nat) : List Pend :=
  let mine := un.walkers.flatMap fun w => w.inflight.filter fun p => un.run == .running || !p.eff.isControl
  (un.pend ++ mine).filter fun p => decide (p.due ≤ now)

/-- The first of them. -/
def Unit.nextLanding (un : Unit) (now : Nat) : Option Pend :=
  match un.landable now with
  | [] => none
  | p :: ps => some (ps.foldl (fun m q => if q.before m then q else m) p)

/-- Take a result out of the lists. -/
def Unit.unlist (un : Unit) (p : Pend) : Unit :=
  { un with
    pend := un.pend.filter fun q => q.seq != p.seq || q.due != p.due || q.rank != p.rank
    walkers := un.walkers.map fun w => { w with inflight := w.inflight.filter fun q => q.seq != p.seq } }

/-- The word of the unit store in error that a load landing in this cycle has read (R234). -/
def Unit.loadUe (un : Unit) (now : Nat) : Option Nat :=
  (un.landable now).findSome? fun p =>
    if p.due ≠ now then none
    else
      match p.eff with
      | .load _ _ _ a n _ _ => if un.badAt a n then some a else none
      | .vload _ ls _ => (ls.find? fun e => un.badAt e.2.1 1).map (·.2.1)
      | .kload _ n a _ => if un.badAt a (4 * n) then some a else none
      | .accLoad _ a _ _ p => if !p && un.badAt a 16384 then some a else none
      | .refill _ _ a _ => if un.badAt a 138 then some a else none
      | .probe a n => if un.badAt a n then some a else none
      | _ => none

/-- `RESULT_LAND` (R24): a load that reads a word in error first raises `MEM-UE` in its landing cycle (R234); else the first result due
lands. -/
def execResultLand (u : Nat) (s : State) : Result :=
  .next (match s.unit? u with
    | none => s
    | some un =>
      let now := s.now un
      match un.loadUe now, un.run with
      | some a, .running => (s.countUe (dieOf u)).takeFault u .memUe .u 0 0 ⟨0, 0, 0, 0, 0, BitVec.ofNat 64 a, 0⟩
      | _, _ =>
        match un.nextLanding now with
        | none => s
        | some p => s.landEff u (un.unlist p) p.eff)

/-! ### Loop passes (R109, R110, R114, R284) -/

/-- A walker's level that a request has drained (R114): it stands at its `loop` word, to resume from the pass at which it drained. -/
def Walker.drained (w : Walker) (l : Level) (pd : Nat) : Walker := { w with inner := some (l.drained pd), idx := l.word, stopped := true }

/-- The stop point of a pre-emption that a pass start meets (R284): from it every walker of the unit drains or stops. -/
def Unit.stopPoint (un : Unit) (now : Nat) : Unit :=
  match un.p0 with
  | some _ => un
  | none => { un with p0 := some now, walkers := un.walkers.map fun w => if w.inner.isNone then { w with stopped := true } else w }

/-- A request has reached the unit and waits for its stop point (R284). -/
def Unit.asked (un : Unit) (now : Nat) : Bool := match un.request with | some c => decide (c ≤ now) | none => false

/-- `LOOP_PASS_START` (R109): the walker's inner level begins its pass, or drains in it (R114); the pass number is in the register before
the pass's first word, unless an external write landed there in the cycle before (R26, R110). -/
def execLoopPassStart (u k : Nat) (s : State) : Result :=
  .next (match s.unit? u with
    | none => s
    | some un =>
      let now := s.now un
      let w := un.wk k
      match w.slot, w.inner with
      | .walking _, some l =>
        if l.started ∨ w.ic < w.ready ∨ w.stopped ∨ un.run ≠ .running then s
        else
          let s := if un.asked now ∧ un.p0.isNone then
            let s := s.modUnit u fun un => un.stopPoint now
            if s.isPaired un then s.modUnit (partner u) fun v => v.stopPoint now else s
            else s
          s.modUnit u fun un =>
            let draining : Bool := match un.p0 with | some c => decide (c ≤ now) | none => false
            let l := if draining && l.drain.isNone then { l with drain := some l.pass } else l
            let pd := l.drain.getD l.trip
            if draining && decide (pd < l.trip) && !l.runs l.pass then
              { un.setWk k fun w => { w.drained l pd with slot := .done 3 none } with steers := un.steers.map (closeTags k l.word) }
            else
              un.setWk k fun w =>
                let w := { w with inner := some { l with started := true, began := w.ic, after := w.ic } }
                if w.extLast.contains (256 * (now - 1) + l.reg) then w else w.setReg l.reg ⟨BitVec.ofNat 64 l.pass, false⟩
      | _, _ => s)

/-! ### Phases and barriers (R118-R122) -/

/-- The cycle in which a boundary taken in `b` completes, once what it covers is known (R118, R122). -/
def Unit.boundary (un : Unit) (b : Nat) (cv : Cover) (scope : Nat) : Option Nat :=
  if un.settled cv then some (max b cv.last + un.lsc scope) else none

/-- `PHASE_COMPLETE` (R118): the boundary of the `phase` that holds walker `k` completes; with the first of its walkers, the release and
the acquire are made (R120). -/
def execPhaseComplete (u k : Nat) (s : State) : Result :=
  .next (match s.unit? u with
    | none => s
    | some un =>
      let now := s.now un
      let ready : PhaseState → Bool := fun p => p.held.contains k && (p.done || (match p.at_ with
        | some b => (match un.boundary b p.cover p.scope with | some c => decide (c ≤ now) | none => false)
        | none => false))
      match un.phases.find? ready with
      | none => s
      | some p =>
        let t := (s.region un.region).cycleTime now
        let s := if p.done then s else (s.publish u 0 p.scope p.cover t).takeSnap u 0 p.scope t
        s.modUnit u fun un =>
          let rest := un.phases.filter fun q => q != p
          let p' := { p with done := true, held := p.held.filter (· != k) }
          { un.setWk k fun w => { w with held := false } with phases := if p'.held.isEmpty then rest else rest ++ [p'] })

/-- The number of a barrier instance within its cast-on; 0 is none. -/
def Arrival.number (a : Arrival) : Nat := 1 + a.id + 256 * a.inst

/-- The units of `u`'s cast-on that lie in its instance of a scope (R121). -/
def State.participants (s : State) (u : Nat) (un : Unit) (scope : Nat) : List Nat :=
  let all := (s.kernels[un.kernel]?.map (·.units)).getD [u]
  all.filter fun v =>
    match scope with
    | 1 => v == u
    | 2 => clusterOf v == clusterOf u
    | 3 => v / 16 == u / 16
    | 5 => dieOf v == dieOf u
    | _ => true

/-- An arrival's instance: the participants' arrivals with the same id and number, once all have arrived. -/
def State.instanceOf (s : State) (u : Nat) (un : Unit) (a : Arrival) : Option (List (Nat × Arrival)) :=
  let ps := s.participants u un a.scope
  let got := ps.filterMap fun v => (s.unit? v).bind fun w => (w.bars.find? fun b => b.id == a.id && b.inst == a.inst).map fun b => (v, b)
  if got.length = ps.length then some got else none

/-- Tb of a barrier instance (R122), once every participant has arrived and what each covers is known. -/
def State.barrierDone (s : State) (u : Nat) (un : Unit) (a : Arrival) : Option (Nat × List (Nat × Arrival)) :=
  match s.instanceOf u un a with
  | none => none
  | some got =>
    if got.all fun g => (s.unit? g.1).map (fun w => w.settled g.2.cover) |>.getD false then
      some (got.foldl (fun m g => max m (max g.2.at_ g.2.cover.last)) 0 + un.lsc a.scope, got)
    else none

/-- `BARRIER_COMPLETE` (R122): the instances of barrier `b` that complete in this cycle; each participant's release is made. -/
def execBarrierComplete (b : Nat) (s : State) : Result :=
  .next (s.units.foldl (fun (s : State) (e : Nat × Unit) =>
    match s.unit? e.1 with
    | none => s
    | some un =>
      let now := s.now un
      (un.bars.filter fun a => a.id == b && a.tb.isNone).foldl (fun s a =>
        match s.barrierDone e.1 un a with
        | some (t, got) =>
          if t ≤ now then
            got.foldl (fun s g => (s.publish g.1 a.number a.scope g.2.cover ((s.region un.region).cycleTime t)).modUnit g.1 fun v =>
              { v with bars := v.bars.map fun q => if q.id == a.id && q.inst == a.inst && q.tb.isNone then { q with tb := some t } else q }) s
          else s
        | none => s) s) s)

/-- `BARRIER_RELEASE` (R122): the unit is released at Tb + `BAROFF`, with the acquire of its boundary. -/
def execBarrierRelease (u : Nat) (s : State) : Result :=
  .next (match s.unit? u with
    | none => s
    | some un =>
      let now := s.now un
      match un.bars.find? fun a => !a.released && (match a.tb with | some t => decide (t + un.baroff ≤ now) | none => false) with
      | none => s
      | some a =>
        (s.takeSnap u a.number a.scope ((s.region un.region).cycleTime now)).modUnit u fun un =>
          { un with bars := un.bars.map fun q => if q.id == a.id && q.inst == a.inst then { q with released := true } else q })

/-! ### Cluster messages (R123, R124) -/

/-- Walker `k` stands at a `recvc` that names unit `v` of the cluster, not yet matched; its destination field. -/
def Unit.receives (un : Unit) (k v : Nat) : Option Nat :=
  let w := un.wk k
  let raw := (un.istore.getD w.idx 0).toNat
  if un.stands k && !w.matched && decide (w.idx < 65536) && fld raw 31 1 == 0 && fld raw 22 5 == 27 && fld raw 0 7 == 1 && fld raw 7 5 == 0
      && fld raw 15 2 == 0 && (fld raw 27 4).testBit k && fld raw 12 3 == v && w.liveAt w.idx && !ownPort k [fld raw 17 5] then
    some (fld raw 17 5)
  else none

/-- A matched message on its way to destination field `d` of walker `k` (R124): it lands at the end of cycle `m`, and toward a full queue, whose
`recvc` cannot issue yet (R12), in the first later cycle in which the queue has room (log 13, DEDUCED). -/
def Unit.receive (un : Unit) (k d m : Nat) (v : Val) : Unit :=
  if un.room k d then un.landExt k d m v else (un.qReserve (outQueue k d)).enter k m (.push (outQueue k d) v true)

/-- Deliver the messages of sending unit `v` to the walkers of unit `u` in cycle `m` (R124). -/
def deliver (m v : Nat) : List Msg → List Nat → Unit → Unit × Nat
  | [], _, un => (un, 0)
  | msgs, [], un => (un, msgs.length)
  | x :: xs, k :: ks, un =>
    match un.receives k (inCluster v) with
    | some d => deliver m v xs ks ((un.receive k d m x.v).setWk k fun w => { w with matched := true })
    | none => deliver m v (x :: xs) ks un

/-- `MESSAGE_ARRIVAL` (R123, R124): the messages that arrive at unit `u` in this cycle of their senders' regions. A message to a unit that
runs no kernel of the sender's region raises `TIMING` at the sender; one with no standing walker raises it at the receiver. A unit that is cast on but
has not issued its first word runs no kernel yet (log 109, DEDUCED). -/
def execMessageArrival (u : Nat) (s : State) : Result :=
  .next (
    let senders := s.units.filter fun e => clusterOf e.1 == clusterOf u
    senders.foldl (fun (s : State) (e : Nat × Unit) =>
      match s.unit? e.1 with
      | none => s
      | some snd =>
        let now := s.now snd
        let mine : Msg → Bool := fun x => x.dst == u && decide (x.arrive ≤ now)
        let msgs := (snd.outbox.filter mine).mergeSort fun a b => decide (a.wk ≤ b.wk)
        if msgs.isEmpty then s
        else
          let s := s.setUnit e.1 { snd with outbox := snd.outbox.filter fun x => !mine x }
          match s.unit? u with
          | some un =>
            if un.region ≠ snd.region then s.takeFault e.1 .timing .u 0 0 Detail.walker
            else if un.run = .running then
              let (un', left) := deliver now e.1 msgs [0, 1, 2, 3] un
              let s := s.setUnit u un'
              if left = 0 then s else s.takeFault u .timing .u 0 0 Detail.walker
            else if un.run = .off ∨ un.run = .cast then s.takeFault e.1 .timing .u 0 0 Detail.walker
            else s.takeFault u .timing .u 0 0 Detail.walker
          | none => s.takeFault e.1 .timing .u 0 0 Detail.walker) s)

/-! ### K-steps (R154, R159, R164, R165, R168, R172) -/

/-- Consume the oldest entries for a k-step (R154), counting them in the fills they belong to (R200). -/
def Unit.takeEntries (un : Unit) (op : Nat) : List SkEntry × List SkEntry × Unit :=
  let a := un.ska.take 1
  let b := un.skb.take (bEntries op)
  let un := { un with ska := un.ska.drop 1, skb := un.skb.drop (bEntries op) }
  let un := (a ++ b).foldl (fun un e => un.setCmd e.chan e.tid fun x => { x with eaten := x.eaten + 1 }) un
  (a, b, { un with chans := un.chans.map fun ch => { ch with cmds := ch.cmds.filter fun x => !x.spent } })

/-- The pair partner's multiply agrees with this unit's (R164). -/
def Mult.agrees (m m' : Mult) : Bool :=
  m'.op == 12 && m.n == m'.n && m.cfg.fmt == m'.cfg.fmt && m.cfg.shape == m'.cfg.shape && m.d == m'.d && m.acq == m'.acq && m.rel == m'.rel &&
    m.scope == m'.scope

/-- Match a k-step of `mma.pair` with the partner's of the same number, start and configuration (R164). -/
def State.matchPair (s : State) (u : Nat) (m : Mult) (k : KStep) : State :=
  match s.unit? (partner u), s.unit? u with
  | some v, some un =>
    match v.mult, v.ksteps.find? fun q => q.op == 12 && q.j == k.j && q.start == k.start && !q.paired with
    | some m', some q =>
      if m.agrees m' ∧ v.region = un.region then
        (s.setUnit u { un with ksteps := un.ksteps.map fun x => if x.seq = k.seq ∧ x.j = k.j then { x with pa := q.a, pb := q.b, paired := true } else x }).setUnit
          (partner u) { v with ksteps := v.ksteps.map fun x => if x.seq = q.seq ∧ x.j = q.j then { x with pa := k.a, pb := k.b, paired := true } else x }
      else s
    | _, _ => s
  | _, _ => s

/-- Discard the entries of the k-steps of `mma.pair` that found no match; the multiply stands at the first of them again, as `MPC` does (R165). -/
def Unit.cutPair (un : Unit) : Unit :=
  let out : KStep → Bool := fun k => k.op == 12 && !k.ended && !k.paired
  match un.ksteps.find? out with
  | none => un
  | some k =>
    { un with
      ksteps := un.ksteps.filter fun q => !out q
      mult := un.mult.map fun m => if m.seq = k.seq then { m with next := min m.next k.j } else m }

/-- A unit takes `TIMING` for an unmatched k-step, on its own cause (R165, R293). -/
def State.takeTiming (s : State) (u : Nat) : State :=
  match s.unit? u with
  | none => s
  | some un =>
    if un.run = .running ∨ un.run = .frozen then
      (((s.countStop un .u).setUnit u un.cutPair).stopOne u .timing .u 0 0 Detail.walker).spread u .timing
    else s.setUnit u un.cutPair

/-- Both partners of an unmatched k-step take `TIMING` in cycle s + 16 d, whatever the other one runs; the k-step is applied in neither
(R165, R333). -/
def State.mismatch (s : State) (u : Nat) : State := (s.takeTiming u).takeTiming (partner u)

/-- The k-step whose pairing is checked in this cycle. -/
def Unit.unmatched (un : Unit) (now : Nat) : Option KStep := un.ksteps.find? fun k => k.op == 12 && !k.paired && decide (k.start + 16 * k.d ≤ now)

/-- The next k-step of the running multiply may start in this cycle, or is to be found late in it (R159); the multiply keeps the divisor of
its issue (R160). -/
def Unit.kstepDue (un : Unit) (now : Nat) : Bool :=
  match un.mult with
  | some m => decide (m.next < m.n) && decide (m.startAt ≤ now) && (!m.waiting || isIssue m.d now)
  | none => false

/-- Start the k-step. -/
def State.startKStep (s : State) (u : Nat) (un : Unit) (m : Mult) : State :=
  let now := s.now un
  let (a, b, un) := un.takeEntries m.op
  let k : KStep :=
    { op := m.op, acc := m.acc, j := m.next, d := m.d, cfg := m.cfg, a, b, pa := [], pb := [], start := now, endAt := now + 32 * m.d - 1
      landAt := now + (if m.op = 12 then 48 else 40) * m.d - 1, seq := m.seq, ended := false, paired := false }
  let m' := { m with next := m.next + 1, startAt := now + 32 * m.d, waiting := false, resumed := false, freeAt := now + 32 * m.d }
  let s := s.setUnit u { un with ksteps := un.ksteps ++ [k], mult := some m' }
  if m.op = 12 then s.matchPair u m' k else s

/-- `K_STEP_START` (R159): the pair check of an earlier k-step (R165); else the next k-step of the running multiply starts, or is found
without its entries: `SCHEDULE-MISS` in strict mode, a wait in lenient mode or after a restore (R173, R200). -/
def execKStepStart (u : Nat) (s : State) : Result :=
  .next (match s.unit? u with
    | none => s
    | some un =>
      let now := s.now un
      match un.unmatched now with
      | some _ => s.mismatch u
      | none =>
        match un.mult with
        | none => s
        | some m =>
          if !un.kstepDue now || !s.live un then s
          else if un.available m.op then s.startKStep u un m
          else if (s.region un.region).strict && !m.resumed && !un.refilling m.op then
            s.takeFault u .scheduleMiss .i 1 0 ⟨1, 0, 0, 0, m.next, 0, 0⟩
          else s.setUnit u { un with mult := some { m with waiting := true } })

/-- `K_STEP_END` (R159): `MPC` counts it; the multiply's occupancy ends with its last k-step, unless it has a release (R160, R168). -/
def execKStepEnd (u : Nat) (s : State) : Result :=
  .next (match s.unit? u with
    | none => s
    | some un =>
      let now := s.now un
      match un.ksteps.find? fun k => !k.ended && decide (k.endAt ≤ now) with
      | none => s
      | some k =>
        let un : Unit := { un with mpc := k.j + 1, ksteps := un.ksteps.map fun (q : KStep) => if q.seq = k.seq ∧ q.j = k.j then { q with ended := true } else q }
        let un := match un.mult with
          | some m => if m.seq = k.seq ∧ m.n ≤ k.j + 1 ∧ !m.rel then { un with mult := none } else un
          | none => un
        s.setUnit u un)

/-- The k-steps that land by the end of this cycle. -/
def Unit.kLanding (un : Unit) (now : Nat) : Option KStep := un.ksteps.find? fun k => k.ended && decide (k.landAt ≤ now)

/-- What lands next in this cycle: a k-step (true) or a result, in the order of ranks and, for the matrix engine's, of program order (R24, R159). -/
def Unit.landsNext (un : Unit) (now : Nat) : Option Bool :=
  match un.nextLanding now, un.kLanding now with
  | none, none => none
  | none, some _ => some true
  | some _, none => some false
  | some p, some k => some (decide (1 < p.rank ∨ (p.rank = 1 ∧ k.seq < p.seq)))

/-- `K_STEP_LAND` (R159): the products are added to the window; with the last one, a release takes what it covers (R168). -/
def execKStepLand (u : Nat) (s : State) : Result :=
  .next (match s.unit? u with
    | none => s
    | some un =>
      let now := s.now un
      match un.kLanding now with
      | none => s
      | some k =>
        let (w, fl) := k.land (un.window k.acc)
        let un : Unit := { un with acc := un.acc.set k.acc w, ksteps := un.ksteps.filter fun (q : KStep) => !(q.seq == k.seq && q.j == k.j) }
        let un := un.raise 1 now (flagBits fl)
        let un := match un.mult with
          | some m =>
            if m.seq = k.seq ∧ m.rel ∧ m.n ≤ k.j + 1 then { un with mult := some { m with relBase := some now, cover := un.coverNow now } } else un
          | none => un
        s.setUnit u un)

/-- The release of a multiply completes (R168): its cycle, once known. -/
def Unit.multRelease (un : Unit) : Option (Mult × Nat) :=
  match un.mult with
  | some m =>
    match m.relBase with
    | some b => (un.boundary b m.cover m.scope).map fun c => (m, c)
    | none => if m.n = 0 ∧ m.rel then (un.boundary m.startAt m.cover m.scope).map fun c => (m, c) else none
  | none => none

/-- Publish the release of a multiply that completes in this cycle, which ends its occupancy (R168); `mwait` issues after that cycle (R170). -/
def State.endMult (s : State) (u : Nat) : State :=
  match s.unit? u with
  | none => s
  | some un =>
    let now := s.now un
    match un.multRelease with
    | some (m, c) =>
      if c ≤ now then (s.publish u 0 m.scope m.cover ((s.region un.region).cycleTime c)).modUnit u fun un => { un with mult := none, mland := max un.mland (c + 1) } else s
    | none =>
      match un.mult with
      | some m => if m.n = 0 ∧ !m.rel ∧ m.startAt ≤ now then s.setUnit u { un with mult := none } else s
      | none => s

/-! ### Beats (R179, R190) -/

/-- The command of channel `c` whose fill would find no skein slot in this cycle, the lower channels having taken their slots (R190). -/
def State.starving (s : State) (u c : Nat) : Option Cmd :=
  let t := (List.range c).foldl (fun s k => (State.channelBeats u k 64 s).1) (match execKStepStart u s with | .next s' => s' | _ => s)
  match State.channelBeats u c 64 t with
  | (t, true) => (t.unit? u).bind fun un => (un.ch c).current
  | _ => none

/-- `COPY_BEAT_ISSUE` of channel `c` (R179): in the engine's issue cycles. Among the faults of a cycle it is that of a fill that is to find no
skein slot in strict mode: `SCHEDULE-MISS`, imprecise at `cw` (R190); a fill whose own word would issue in the cycle is named by the transfer ID
that it would take (log 19, DEDUCED). While a context is saved or loaded, the beats are those of its record (R218, R286). -/
def execCopyBeatIssue (u c : Nat) (s : State) : Result :=
  .next (match s.unit? u with
    | none => s
    | some un =>
      let miss := fun (x : Option Cmd) =>
        s.takeFault u .scheduleMiss .i 3 0 ⟨3, c, 0, (x.map (·.tid)).getD (un.ch c).tid, (x.map (·.next)).getD 0, 0, 0⟩
      if un.ctx.isSome then
        match un.ctx with
        | some x => if c = 0 ∧ s.stage ≠ stageFault ∧ (un.run = .frozen ∨ un.run = .preempted) then s.blockBeats u un x else s
        | none => s
      else if s.live un ∧ isIssue (un.divisor 3) (s.now un) then
        if s.stage = stageFault then miss (s.starving u c)
        else
          match State.channelBeats u c 64 s with
          | (s', false) => s'
          | (t, true) => miss ((t.unit? u).bind fun un => (un.ch c).current)
      else s)

end Sys2Proof.Machine
end

