-- ==== Sys2Proof/Machine/Nodes.lean ====
section
/-! DEFINITION. The pattern scheduler's ground (R119, R250-R253, R262-R267): reads and writes of device memory by device virtual address,
STATUS, releases at job and pattern scope, nodes that become ready, and the end of a pattern. -/

namespace Sys2Proof.Machine

/-! ### Device memory by device virtual address -/

/-- Where a device virtual address of a partition lies in this package's device memory, with its page; none where it does not translate or
is refused (R240) (log 78, DEDUCED). -/
def State.locate (s : State) (part va : Nat) : Option (Page × Nat) :=
  match (s.walk part va).2 with
  | some g => if g.space = 0 ∧ g.part = part then some (g, g.pa + (va - g.va)) else none
  | none => none

/-- A read of `n` bytes by device virtual address takes its places in the queues of the memory channels (R236). -/
def State.queueVa (s : State) (part va n : Nat) : State :=
  match s.locate part va with
  | some x => s.enqueue x.2 n
  | none => s

/-- Read `n` bytes, which lie in one page, by device virtual address, as a system core reads them; none without the page's right (R240). -/
def State.readVa (s : State) (part va n : Nat) : Option Nat :=
  (s.locate part va).bind fun x => if x.1.r then some (leNat (s.decipher .dram part x.2 (s.dram.bytes x.2 n))) else none

/-- Write bytes at a physical address of this package's device memory for partition `part`, block by block (R248), through the memory channels (R236). -/
def State.writePa (s : State) (who : Agent) (part pa : Nat) (bs : List Byte) : State :=
  (blocksOf pa bs.length).foldl (fun s b =>
    let lo := max pa (64 * b)
    let hi := min (pa + bs.length) (64 * b + 64)
    let cut := (bs.drop (lo - pa)).take (hi - lo)
    (s.enqueue lo (hi - lo)).performWrite false ⟨.dram, lo, hi - lo, part⟩ ⟨0, who, 0, 0, 1, s.nextId, none, cellsAt lo cut, [], Snapshot.zero⟩) s

/-- Write an `n`-byte value by device virtual address, by the scheduler; not without the page's right (R240). -/
def State.writeVa (s : State) (part va n v : Nat) : State :=
  match s.locate part va with
  | some x => if x.1.w then s.writePa coreAgent part x.2 (leBytes n v) else s
  | none => s

/-- The firmware places a partition's key in the key slots of packages, through the fabric sessions (R320). -/
def State.tellKey (s : State) (part : Nat) (pkgs : List Nat) : State :=
  match s.keyOf part with
  | some k => { s with out := s.out ++ pkgs.map fun p => .key p part k }
  | none => s

/-- Add a timer. -/
def State.timer (s : State) (t : Frac) (i : Instr) : State := { s with timers := s.timers ++ [(t, .event i)] }

/-- A timer after a free delay of at most `ns` nanoseconds (R267) (log 77, DESIGN CHOICE). -/
def State.soon (s : State) (ns : Nat) (i : Instr) : State :=
  let (d, s) := s.choose (ns + 1)
  s.timer (s.time.add (Frac.ofNat d)) i

/-! ### Members of scopes and Lsc (R119) -/

/-- Lsc of `pattern` and `job`, ns. -/
def farNs (hops : Nat) : Nat := if hops = 0 then 200 else 1600 + 500 * hops

/-- The declared latencies of a unit of a region (R6, R27, R119, R180, R182) (log 98, DEDUCED). -/
def State.latOf (s : State) (region : Nat) : Lat :=
  let g := (s.region region).conv
  let c := fun ns => toRc g ns
  let near := c (farNs (s.memberHops region false))
  let job := c (farNs (s.memberHops region true))
  { lsc := [1, 1, 8, 16, near, c 100, c 200, near, job, c 4000, c 4000, c 4000]
    sc := c 8, sc2 := c 16, sp := c 12, sp2 := c 24, sd := c 30, sd2 := c 60, lx := c Config.nsTranslate
    ownDie := c Config.nsOwnDie, otherDie := c Config.nsOtherDie, host := c Config.nsHost
    remote := (s.boot.routes.zipIdx.filter fun e => decide (0 < e.1.2)).map fun e => (e.2, c (Config.nsRemote e.1.2)) }

/-- Make a release at `scope` of the writes that `covers` accepts, for agent `who`, complete at time `t` (R120, R253, R264). -/
def State.publishWho (s : State) (who : Agent) (covers : Agent → Bool) (scope : Nat) (t : Frac) : State :=
  let (p, s) := s.placeAt who.region t 0
  let r : Release := ⟨scope, t.num, t.den, who, 0, s.nextId, p⟩
  s.mapWrites fun w => if covers w.who then w.attach r else w

/-! ### STATUS (R252, R262) -/

/-- The code of a gauge state (R257). -/
def Gauge.code : Gauge → Nat
  | .off => 0 | .acquire => 1 | .locked => 2 | .clamped => 3 | .holdover => 4 | .draining => 5 | .frozen => 6 | .refused => 7

/-- STATUS of a region (R252). -/
def Region.status (r : Region) : Nat :=
  r.gauge.code + (if r.disc then 2 ^ 8 else 0) + (if r.shed then 2 ^ 9 else 0) + (if r.overB then 2 ^ 10 else 0) +
    (if r.refusedB then 2 ^ 11 else 0) + (if r.wdf then 2 ^ 12 else 0) + if r.perr then 2 ^ 13 else 0

/-- The RCB of a region. -/
def State.regionRcb (s : State) (r : Nat) : Option Rcb := s.rcbs[(s.region r).rcb]?

/-- Write a region's STATUS and RSCD as they stand. -/
def State.postStatus (s : State) (r : Nat) : State :=
  match s.regionRcb r with
  | some b => (s.writeVa b.part (b.va + 0xA0) 8 (s.region r).status).writeVa b.part (b.va + 0xA8) 8 ((s.region r).rscd % (2 ^ 64 : Int)).toNat
  | none => s

/-- Change a region and post its STATUS. -/
def State.setStatus (s : State) (r : Nat) (f : Region → Region) : State := (s.setRegion r f).postStatus r

/-- Free entries of a die's watched-word table (R262). -/
def State.tableFree (s : State) (die : Nat) : Nat := 4096 - (s.watched.filter fun e => e.1 / 2 ^ 38 == die).length

/-- Enter a word in its die's table. Only a node waits for a free entry (R262): a word of another kind has its entry whatever stands in the table
(log 106, DESIGN CHOICE). -/
def State.watch (s : State) (pa : Nat) (w : Watched) : State := if s.watched.contains (pa, w) then s else { s with watched := s.watched ++ [(pa, w)] }

/-- The nodes that wait for a free entry of a table, in the order in which they take them (R262). -/
def State.tableWaiters (s : State) : List Node :=
  (s.nodes.filter fun n => n.state == .tableFull).mergeSort fun a b => decide (a.order < b.order) || (a.order == b.order && decide (a.addr ≤ b.addr))

/-- Free the entries that `out` accepts: the nodes that wait for one are looked at within 1 µs, the longest wait first (R262). -/
def State.unwatchIf (s : State) (out : Watched → Bool) : State :=
  if s.watched.any fun e => out e.2 then
    let s := { s with watched := s.watched.filter fun e => !out e.2 }
    let (d, s) := s.choose 1001
    { s with timers := s.timers ++ s.tableWaiters.map fun n => (s.time.add (Frac.ofNat d), .event (.watchNode (n.addr + 2 ^ 48 * n.region))) }
  else s

/-- Free the entries of one thing watched. -/
def State.unwatch (s : State) (w : Watched) : State := s.unwatchIf (· == w)

/-! ### What node reads acquire (R262) -/

/-- Nothing acquired. -/
def Acq.zero : Acq := ⟨0, [], [], 0⟩

/-- Both acquired. -/
def Acq.merge (a b : Acq) : Acq :=
  ⟨max a.host b.host, b.fixed.foldl (fun l e => put l e.1 (max e.2 ((find l e.1).getD 0))) a.fixed, (a.snaps ++ b.snaps).dedup, max a.place b.place⟩

/-- What the read of a word at a physical address acquires (R262): the host's writes so far, and of each unit that wrote the word the releases
that come before its write, its own and those that it had acquired (R331). -/
def State.acqRead (s : State) (pa : Nat) : Acq :=
  let ws := s.dram.log.filter fun w => w.touches pa 8 && decide (w.who.unit < 160)
  let fixed := ws.foldl (fun l w => put l w.who.unit w.id) []
  let snaps := (ws.map fun w => (w.who, w.snap)).dedup
  let places := (s.writes.flatMap (·.rels)).filterMap fun r =>
    match find fixed r.who.unit with | some n => if r.n ≤ n then some r.place else none | none => none
  ⟨s.nextId, fixed, snaps, (places ++ snaps.map (·.2.place)).foldl max 0⟩

/-- A write is in what has been acquired, for an agent `me` that comes after the acquire (R262, R306, R331). -/
def Acq.holds (a : Acq) (me : Agent) (w : WriteRec) : Bool :=
  (decide (w.id < a.host) && (w.who.unit == 200 || w.who.unit == 201) && Agent.within 11 w.who me) ||
    (w.rels.any fun r => (match find a.fixed r.who.unit with | some n => decide (r.n ≤ n) | none => false) && Agent.within r.scope r.who me) ||
    a.snaps.any fun e => e.2.holds e.1 w

/-- Change an active node. -/
def State.modNode (s : State) (region addr : Nat) (f : Node → Node) : State :=
  { s with nodes := s.nodes.map fun n => if n.addr == addr && n.region == region then f n else n }

/-- A node's read of the word at a device virtual address, for its successors (R262). -/
def State.nodeReads (s : State) (region addr part va : Nat) : State :=
  match s.locate part va with
  | some (_, pa) =>
    let s := s.enqueue pa 8
    let a := s.acqRead pa
    State.modNode { s with pin := max s.pin a.place } region addr fun n => { n with acq := n.acq.merge a }
  | none => s

/-- What an active node has acquired. -/
def State.nodeAcq (s : State) (region addr : Nat) : Acq := ((s.nodes.find? fun n => n.addr == addr && n.region == region).map (·.acq)).getD Acq.zero

/-! ### Nodes (R263) -/

/-- A pattern node as the scheduler reads it: its 64 bytes, type, RCB and successors. -/
structure NodeInfo where
  raw   : Nat
  typ   : Nat
  rcb   : Nat
  next0 : Nat
  next1 : Nat
  deriving DecidableEq, Repr

/-- `n` bytes of a node at an offset. -/
def NodeInfo.get (x : NodeInfo) (a n : Nat) : Nat := x.raw / 2 ^ (8 * a) % 2 ^ (8 * n)

/-- The RCB that a node names: the region or a descendant in its timing domain (R263). -/
def State.nodeRcb (s : State) (region va : Nat) : Option Nat :=
  let r := s.region region
  if va = 0 then some r.rcb
  else s.rcbs.findIdx? fun b => b.va == va && b.job == r.job && b.region == r.rcb

/-- The fields of a node obey their limits (R263). -/
def NodeInfo.ok (x : NodeInfo) (addr : Nat) : Bool :=
  let g := x.get
  let word : Bool := g 32 8 % 8 == 0
  addr % 64 == 0 && g 0 1 == x.typ && g 1 1 == 0 && g 4 4 == 0 && x.next0 % 64 == 0 && x.next1 % 64 == 0 &&
    (if x.typ = 5 then g 2 2 != 0 else g 2 2 == 0) &&
    (match x.typ with
     | 1 => g 32 8 % 4 == 0 && g 40 4 != 0 && decide (g 40 4 ≤ 65536) && g 44 2 != 0 && decide (g 44 2 ≤ 160) && decide (g 46 1 ≤ 2) &&
         g 47 1 == 0 && g 48 4 % 256 == 0 && g 52 4 % 256 == 0 && !(g 46 1 == 2 && g 44 2 % 2 == 1)
     | 2 | 3 | 6 => word
     | 4 => word && g 40 8 % 8 == 0
     | 5 => true
     | _ => false)

/-- Read and check a node (R263). -/
def State.nodeInfo (s : State) (region addr : Nat) : Option NodeInfo :=
  match s.regionRcb region with
  | none => none
  | some b =>
    match s.readVa b.part addr 64 with
    | none => none
    | some raw =>
      let f := fun a n => raw / 2 ^ (8 * a) % 2 ^ (8 * n)
      match s.nodeRcb region (f 8 8) with
      | none => none
      | some i =>
        let x : NodeInfo := ⟨raw, f 0 1, i, f 16 8, f 24 8⟩
        if x.ok addr then some x else none

/-- The job of a region is halted or halting its schedulers (R290). -/
def State.jobHalted (s : State) (region : Nat) : Bool :=
  ((find s.jobs (s.region region).job).map fun j => j.jstate != 0 && j.jstate != 1).getD false

/-- A node's number among the scheduler's steps: its address, and its region above it (log 79, DESIGN CHOICE). -/
def nodeKey (region addr : Nat) : Nat := addr + 2 ^ 48 * region

/-- The step that evaluates a ready node: within 1 µs, a KERNEL's units being loaded within 40 µs (R267). -/
def State.evaluate (s : State) (region addr : Nat) (x : NodeInfo) (order : Nat) : State :=
  match x.typ with
  | 1 =>
    let r := s.region region
    let b := s.rcbs[x.rcb]?
    let k : Kernel :=
      { node := addr, rcb := x.rcb, region, job := r.job, part := (b.map (·.part)).getD 0, die := (b.map (·.homeDie)).getD 0, shape := x.get 46 1
        n := x.get 44 2, state := .ready, order, next0 := x.next0, next1 := x.next1, textVa := x.get 32 8, textW := x.get 40 4, spillb := x.get 48 4
        spill := x.get 52 4, rangesVa := x.get 56 8, units := [], live := [], resident := [], lockedP := [], startAt := none, startRsc := 0, relAt := none
        castOrder := 0, acq := s.nodeAcq region addr, parked := [] }
    State.soon { s with kernels := s.kernels ++ [k] } 39000 (.kernelCastOn s.kernels.length)
  | 2 => s.soon 1000 (.cond (nodeKey region addr))
  | 3 => s.soon 1000 (.loopNode (nodeKey region addr))
  | 4 => s.soon 1000 (.switch (nodeKey region addr))
  | 5 => s.soon 1000 (.join (nodeKey region addr))
  | _ => s.soon 1000 (.watchNode (nodeKey region addr))

/-- The RCB of a node that fails its check (R263): the one that it names, where that can be told, else the region's. -/
def State.badNodeRcb (s : State) (region addr : Nat) : Nat :=
  let own := (s.region region).rcb
  match s.regionRcb region with
  | none => own
  | some b => ((s.readVa b.part (addr + 8) 8).bind (s.nodeRcb region)).getD own

/-- Make one node ready in scheduler step `order` (R263), after what `acq` has acquired; an active node is queued. A node that fails its check
does not run: PERR is set and the handler of its RCB becomes ready. The count bounds the handler's own failure. -/
def State.ready1 (region order : Nat) (acq : Acq) : Nat → Nat → State → State
  | 0, _, s => s
  | fuel + 1, addr, s =>
    if addr = 0 then s
    else if s.nodes.any fun n => n.addr == addr && n.region == region then
      s.modNode region addr fun n => { n with queued := n.queued + 1, queuedAcq := n.queuedAcq.merge acq }
    else
      match s.nodeInfo region addr with
      | some x => State.evaluate { (s.queueVa (((s.regionRcb region).map (·.part)).getD 0) addr 64) with nodes := s.nodes ++ [⟨addr, region, .ready, order, 0, acq, Acq.zero⟩] } region addr x order
      | none =>
        let s := s.setStatus region fun r => { r with perr := true }
        State.ready1 region order acq fuel (((s.rcbs[s.badNodeRcb region addr]?).map (·.handler)).getD 0) s

/-- Make nodes ready in one scheduler step, in address order. -/
def State.makeReady (s : State) (region : Nat) (acq : Acq) (addrs : List Nat) : State :=
  let o := s.order
  (addrs.mergeSort fun a b => decide (a ≤ b)).foldl (fun s a => State.ready1 region o acq 2 a s) { s with order := o + 1 }

/-- The handler node of an RCB becomes ready (R263). -/
def State.callHandler (s : State) (region rcb : Nat) : State := s.makeReady region Acq.zero [((s.rcbs[rcb]?).map (·.handler)).getD 0]

/-- A pattern error: PERR, and the handler (R252, R263). -/
def State.patternError (s : State) (region rcb : Nat) : State :=
  (s.setStatus region fun r => { r with perr := true }).callHandler region rcb

/-- A kernel still holds its region. -/
def Kernel.active (k : Kernel) : Bool := k.state != .retired

/-- A kernel waits for units: a ready one, or a pre-empted one with none granted; of a halted job none does (R290), and of a region that is shed only
once it is re-admitted (R271; log 81, DEDUCED). -/
def State.awaitsUnits (s : State) (x : Kernel) : Bool :=
  let r := s.region x.region
  ((x.state == .ready && r.still != .shed) || (x.state == .preempted && x.live.isEmpty && !r.shedding)) && !s.jobHalted x.region

/-- The scheduler's grants are looked at again (R266, R271): by a step for the kernels that wait, and for each region to be re-admitted. -/
def State.regrant (s : State) : State :=
  let s := (List.range s.regions.length).foldl (fun s i =>
    if (s.region i).still == .shed && !(s.region i).shed then s.soon 1000 (.regionReadmit i) else s) s
  match s.kernels.findIdx? s.awaitsUnits with
  | some k => s.soon 1000 (.kernelCastOn k)
  | none => s

/-- A region of a job has gone OFF: the job retires with its last one, once its release at `job` scope completes (R253). -/
def State.jobCheck (s : State) (region : Nat) : State :=
  let r := s.region region
  if s.regions.all fun g => g.job != r.job || g.gauge == .off then
    s.timer (s.time.add (Frac.ofNat (farNs (s.memberHops region true)))) (.jobRetire r.job)
  else s

/-- A region goes OFF, and the units that it had reserved are granted to others (R253, R266). -/
def State.regionEnds (s : State) (region : Nat) : State :=
  let kept := (s.region region).reserved
  let s := s.setStatus region fun r => { r with gauge := .off, still := .idle, reserved := [], haltAt := none, stopAt := none, freezeAt := none, shedding := false }
  (if kept.isEmpty then s else s.regrant).jobCheck region

/-- The pattern of a region has ended: no node is ready, waiting or cast on (R253). -/
def State.endCheck (s : State) (region : Nat) : State :=
  let r := s.region region
  if r.gauge = .off ∨ r.gauge = .acquire ∨ s.nodes.any (fun n => n.region == region) then s else s.regionEnds region

/-- A node's path ends without it having run (R264, R286). -/
def State.nodeEnds (s : State) (region addr : Nat) : State :=
  State.endCheck { s with nodes := s.nodes.filter fun (n : Node) => !(n.addr == addr && n.region == region) } region

/-- A node has run: its successors become ready, and it runs again where it is queued (R263). One that can no longer be read is a pattern error,
and its path ends. -/
def State.nodeDone (s : State) (region addr : Nat) (next : List Nat) : State :=
  let s := s.makeReady region (s.nodeAcq region addr) next
  let again : Bool := s.nodes.any fun n => n.addr == addr && n.region == region && decide (0 < n.queued)
  if again then
    let s := s.modNode region addr fun n =>
      { n with state := .ready, queued := n.queued - 1, order := s.order, acq := n.queuedAcq, queuedAcq := if n.queued = 1 then Acq.zero else n.queuedAcq }
    match s.nodeInfo region addr with
    | some x => s.evaluate region addr x s.order
    | none => (s.patternError region (s.badNodeRcb region addr)).nodeEnds region addr
  else s.nodeEnds region addr

/-- Change kernel `k`. -/
def State.setKernel (s : State) (k : Nat) (f : Kernel → Kernel) : State := { s with kernels := modify s.kernels k f }

end Sys2Proof.Machine
end

