-- ==== Sys2Proof/Machine/Records.lean ====
section
/-! DEFINITION. What a unit does once it has stopped: its engines finish, and its composite record is written (R172, R201, R277, R278); the
end of a context load (R221), with the multiply and the commands of a KIND 1 record (R173, R200). -/

namespace Sys2Proof.Machine

/-- The state after an event. -/
def outcomeState (s : State) : Result → State
  | .next s' => s'
  | _ => s

/-! ### Engines after a stop (R172, R201, R277) -/

/-- A beat has been made: it has completed, or become late (R277). -/
def Beat.made (now : Nat) (b : Beat) : Bool := b.performed && b.got && decide (b.doneAt < now)

/-- Everything that the engines of a stopped unit had begun has been made, seen at the start of cycle `now` (R277). -/
def Unit.made (un : Unit) (now : Nat) : Bool :=
  un.ksteps.isEmpty && un.pend.isEmpty && (un.beats.all fun b => b.made now) &&
    un.walkers.all fun w => w.inflight.all fun p => p.eff.isControl

/-- The next cycle, after `c`, in which something of the unit falls due. -/
def Unit.nextDue (un : Unit) (c : Nat) : Option Nat :=
  let cs := un.pend.map (·.due) ++ (un.walkers.flatMap fun w => (w.inflight.filter fun p => !p.eff.isControl).map (·.due)) ++
    (un.ksteps.map fun k => if k.ended then k.landAt else k.endAt) ++
    ((un.ksteps.filter fun k => k.op == 12 && !k.paired).map fun k => k.start + 16 * k.d) ++
    un.beats.flatMap fun b => (if b.got then [] else [b.readAt]) ++ (if b.performed then [] else [b.performAt, b.writeAt]) ++ [b.doneAt]
  (cs.filter fun x => decide (c < x)).foldl (fun (m : Option Nat) x => some (match m with | some y => min x y | none => x)) none

/-- Land the walkers' results that are due, `n` at most (R24). -/
def State.landWalkers (u : Nat) : Nat → State → State
  | 0, s => s
  | n + 1, s =>
    match s.unit? u with
    | none => s
    | some un =>
      match un.nextLanding (s.now un) with
      | none => s
      | some p => if p.rank = 0 then State.landWalkers u n (outcomeState s (execResultLand u s)) else s

/-- Land what is due, results and k-steps in their order (R24, R159), `n` at most. -/
def State.landAll (u : Nat) : Nat → State → State
  | 0, s => s
  | n + 1, s =>
    match s.unit? u with
    | none => s
    | some un =>
      match un.landsNext (s.now un) with
      | none => s
      | some k => State.landAll u n (outcomeState s (if k then execKStepLand u s else execResultLand u s))

/-- What the engines of one unit make in the current cycle, in the order of the stages of a region cycle; an unmatched k-step is applied in neither
unit (R165). -/
def State.makeCycle (s : State) (u : Nat) : State :=
  let f := fun (e : Nat → State → Result) (s : State) => outcomeState s (e u s)
  let s := match s.unit? u with
    | some un => if (un.unmatched (s.now un)).isSome then s.mismatch u else s
    | none => s
  let s := f execAtomicPerform (f execCopyWritePerform (f execLateDataPoison (f execCopyReadDataReady (State.landWalkers u 4096 s))))
  let s := f execKStepEnd (f execKStepEnd (f execAtomicResultLand s))
  f execLateDataArrival (f execOffcoreWriteComplete (f execCopyCommandComplete (State.landAll u 4096 s)))

/-- Let the engines of a unit finish in cycles that its region does not run, counted in periods of f0 (R277): the last of them (log 49, DEDUCED). -/
def State.drain (u : Nat) : Nat → Nat → State → Nat × State
  | 0, c, s => (c, s)
  | n + 1, c, s =>
    match s.unit? u with
    | none => (c, s)
    | some un =>
      if un.made (c + 1) then (c, s)
      else
        match un.nextDue c with
        | none => (c, s)
        | some c' =>
          let old := (s.region un.region).rcc
          let s := (s.setRegion un.region fun r => { r with rcc := c' }).makeCycle u
          State.drain u n c' (s.setRegion un.region fun r => { r with rcc := old })

/-! ### The composite record (R277, R278) -/

/-- The composite record of a stopped unit, all but its header's ACTION, which is 0 (R278) (log 39, DEDUCED). Of a channel's
commands it holds the oldest 16 (log 126, DEDUCED). -/
def State.composite (s : State) (u : Nat) (un : Unit) (st : Stop) : Mem :=
  let now := st.cycle
  let cls := match st.cls with | .p => 0 | .i => 1 | .u => 2
  let stopped : Bool := match un.mult with | some m => decide (un.mpc < m.n) && decide (m.next < m.n) | none => false
  let m : Mem := Mem.set [] 0 4 Config.recMagic |>.set 4 2 1 |>.set 6 1 2 |>.set 8 8 0x4000 |>.set 16 8 (s.unitNo u) |>.set 24 8 st.cycle
    |>.set 32 8 st.rsc |>.set 40 8 un.cause.toNat |>.set 48 8 st.jobNs
  let m := m.set 0x40 1 cls |>.set 0x41 1 st.eng |>.set 0x42 1 st.chan |>.set 0x43 1 st.trigger |>.set 0x44 4 st.tid |>.set 0x48 4 st.beat
    |>.set 0x50 8 st.addr.toNat |>.set 0x58 4 st.origin.toNat |>.set 0x60 8 un.late.toNat |>.set 0x68 8 un.traceN
  let m := m.set 0x80 8 ((if st.busy && !stopped then 1 else 0) + (if stopped then 2 else 0) + 16 * st.nA + 2 ^ 12 * st.nB)
    |>.set 0x88 8 ((if now < un.vfree then 1 else 0) + 256 * ((un.vfree - now) / un.divisor 2) + 2 ^ 16 * un.masks.length)
    |>.set 0x90 8 (bitSet (un.chans.map fun ch => ch.cmds.any fun x => !x.complete) + 16 * bitSet (un.chans.map fun ch => ch.hold.isSome))
  let m := (List.range 4).foldl (fun m k =>
    let a := 0x100 + 0x600 * k
    let w := un.wk k
    ((((m.setWkRegs a un k).setLevels (a + 0x60) w).setSteers (a + 0xE0) w).setFlight (a + 0x140) w).setList (a + 0x540) 8 8 w.copies) m
  let m := match un.mult with | some x => m.setMult 0x1900 un x | none => m
  let m := m.setList 0x1980 8 8 (un.chans.map (·.tid) ++ un.chans.map (·.wm))
  let m := (un.chans.zipIdx).foldl (fun m c => ((c.1.recorded.take 16).zipIdx).foldl (fun m x =>
    let b := 0x19C0 + 256 * c.2 + 16 * x.2
    m.set b 4 x.1.tid |>.set (b + 4) 1 1 |>.set (b + 5) 1 (x.1.word.toNat / 2 ^ 23 % 64) |>.set (b + 6) 1 (if (c.1.hold.map (·.tid)) = some x.1.tid then 1 else 0)
      |>.set (b + 8) 8 x.1.progress) m) m
  (un.trace.zipIdx).foldl (fun m e =>
    let b := 0x2000 + 32 * e.2
    m.set b 1 e.1.kind |>.set (b + 1) 1 e.1.num |>.set (b + 4) 4 e.1.tid |>.set (b + 8) 8 e.1.val.toNat |>.set (b + 16) 8 e.1.opened
      |>.set (b + 24) 8 e.1.closed) m

/-- Where the composite record of a unit lies (R277). -/
def State.recordVa (s : State) (un : Unit) : Nat := ((s.rcbOf un).map (·.crec)).getD 0 + 0x4000 * un.place

/-- The record's pages, where its kernel node marks them locked (R277). -/
def State.recordPages (s : State) (un : Unit) : Option (List Page) :=
  let va := s.recordVa un
  let ps := (s.kernels[un.kernel]?.map (·.lockedP)).getD []
  match ps.find? (·.covers va), ps.find? (·.covers (va + 0x3FFF)) with
  | some a, some b => some [a, b]
  | _, _ => none

/-- A place for a record at `va`. -/
def Ctx.place (va : Nat) (pages : List Page) : Ctx :=
  { load := false, t := 0, va, xlAt := none, xlFault := none, pages, checkAt := none, endAt := 0, first := 0, lo := 1, seed := 0, image := [], bad := [], resp := []
    ue := false }

/-- The region runs cycles: it is locked in some way and nothing holds it still. -/
def Region.runs (r : Region) : Bool :=
  (r.gauge == .locked || r.gauge == .clamped || r.gauge == .holdover || r.gauge == .draining) && r.still == .no &&
    (!r.halted || decide (0 < r.steps))

/-- Write the composite record of a unit, whose engines have made everything by the start of cycle `e`, in periods of f0 (R277): blocks 1-255 are
each performed at a free instant by their completion (R184, R218), and block 0 at its completion (log 29, DEDUCED). A beat
enters its queues at its issue (R236). -/
def State.writeRecord (s : State) (u : Nat) (un : Unit) (st : Stop) (e : Nat) : State :=
  let r := s.region un.region
  match s.recordPages un with
  | none => 
    -- no record is written (R277); the handler runs all the same (R281)
    ((s.setUnit u { un with stop := some { st with wrote := true } }).setStatus un.region fun r => { r with perr := true }).callHandler un.region
      ((s.kernels[un.kernel]?.map (·.rcb)).getD 0)
  | some ps =>
    let d := un.divisor 3
    let first := nextIssue d (e + un.lat.lx)
    let lo := un.ctxLat u ps
    let instant := fun (c : Nat) => (r.cycleTime st.cycle).add ((Frac.ofNat (c - st.cycle)).div r.f0)
    let t := instant (first + 255 * d + lo + 1)
    let blocks := (List.range 255).map (· + 1)
    let stop : Stop := { st with wrote := true, recNs := some (t.num, t.den), image := s.composite u un st, blocks }
    let due := blocks.map fun k => (instant (first + (k - 1) * d + 1 + Config.choice (s.free + k) % lo), Due.block u k)
    let sends := (blocks ++ [0]).zipIdx.map fun (e : Nat × Nat) => (instant (first + e.2 * d), Due.send u e.1)
    ({ s with free := s.free + 256, timers := s.timers ++ sends ++ due }.setUnit u { un with stop := some stop }).timer t (.compositeRecordComplete u)

/-- The write beat of block `k` of a unit's composite record issues (R233, R236, R238, R277). -/
def State.sendRecordBlock (s : State) (u k : Nat) : State :=
  match (s.unit? u).map fun un => (un.stop, s.recordPages un, s.recordVa un) with
  | some (some st, some ps, va) => if st.complete then s else s.issueBlocks u (Ctx.place va ps) [k] (some st.image) s.time
  | _ => s

/-- Perform the writes of some blocks of a unit's composite record that are still to come (R277). -/
def State.writeRecordBlocks (s : State) (u : Nat) (ks : List Nat) : State :=
  match s.unit? u with
  | none => s
  | some un =>
    match un.stop, s.recordPages un with
    | some st, some ps =>
      let mine := st.blocks.filter ks.contains
      (s.setUnit u { un with stop := some { st with blocks := st.blocks.filter fun k => !ks.contains k } }).writeBlocks u
        (Ctx.place (s.recordVa un) ps) mine st.image
    | _, _ => s

end Sys2Proof.Machine
end

