-- ==== Sys2Proof/Machine/Preempt.lean ====
section
/-! DEFINITION. Stops and what follows them: the composite record and ACTION (R277-R282), bind-off (R217), a context load (R221),
pre-emption, its save and its restore (R284-R287, R173, R200). -/

namespace Sys2Proof.Machine

/-! ### The composite record (R277, R280, R281) -/

/-- `COMPOSITE_RECORD_WRITE` (R277, R281): once everything that the engines of a stopped unit had begun is made, in its region's cycles or,
where these stand still, in periods of f0 (log 38, DEDUCED). -/
def execCompositeRecordWrite (u : Nat) (s : State) : Result :=
  .next (match s.unit? u with
    | none => s
    | some un =>
      match un.run, un.stop with
      | .stopped, some st =>
        let now := s.now un
        if st.wrote then s
        else if (s.region un.region).openCyc ∨ (s.region un.region).runs then
          if st.cycle < now ∧ un.made now then s.writeRecord u un st now else s
        else
          let (c, s) := State.drain u 65536 (max st.cycle now) s
          match s.unit? u with
          | some un => s.writeRecord u un st (c + 1)
          | none => s
      | _, _ => s)

/-- Write block 0 of a record that waits for it, after all the others, and watch its ACTION word (R262, R277, R280). -/
def State.finishRecord (s : State) (u : Nat) : State :=
  match s.unit? u with
  | none => s
  | some un =>
    match un.stop, s.recordPages un with
    | some st, some ps =>
      if !st.wrote || st.complete || st.recNs.isNone then s
      else
        let c := Ctx.place (s.recordVa un) ps
        let s := (s.writeRecordBlocks u st.blocks).modUnit u fun un =>
          { un with stop := un.stop.map fun st => { st with complete := true, image := [] } }
        let s := s.writeBlocks u c [0] st.image
        let p := c.piece 56 8
        let s := if p.space = .dram then s.watch p.addr (.action u) else s
        s.callHandler un.region ((s.kernels[un.kernel]?.map (·.rcb)).getD 0)
    | _, _ => s

/-- `COMPOSITE_RECORD_COMPLETE` (R277). -/
def execCompositeRecordComplete (u : Nat) (s : State) : Result := .next (s.finishRecord u)

/-! ### Resuming a stopped unit (R173, R279, R280) -/

/-- A walker that had stopped goes on: one that drained, at its `loop` word, which is not executed again, from pass pd (R114, R259). -/
def Walker.rejoin (w : Walker) : Walker :=
  { w with stopped := false, idx := match w.inner with | some l => if !l.started && w.idx == l.word then l.word + 1 else w.idx | none => w.idx }

/-- The walkers of a unit go on where they stopped; the tags of a drained level open again, and the pass of an outer level whose body ends with
the inner one's does too (R110, R114). -/
def Unit.rejoin (un : Unit) : Unit :=
  (List.range 4).foldl (fun un k =>
    let w := un.wk k
    let un := match w.inner with | some l => if !l.started && w.idx == l.word then un.reopen k l else un | none => un
    (un.setWk k Walker.rejoin).goOn k) un

/-- A stopped unit runs again from cycle `r`, and a multiply with k-steps to start resumes (R173). -/
def Unit.resume (un : Unit) (r : Nat) : Unit :=
  let un : Unit := { un.rejoin with run := .running, cause := 0, stop := none, p0 := none, yieldAt := none }
  let un : Unit := { un with walkers := un.walkers.map fun (w : Walker) => { w with since := none, slot := .done 4 none } }
  let un := un.thaw r
  match un.mult with
  | some m =>
    if m.next < m.n then
      let go := r + if m.acq then un.lsc m.scope else 0
      let un := if m.acq then un.later (go - 1) 3 (.acquire m.scope) else un
      { un with mult := some { m with next := un.mpc, startAt := go, resumed := true, waiting := true } }
    else un
  | none => un

/-- The units on which an ACTION acts: both of a pair domain (R282). -/
def State.domain (s : State) (u : Nat) : List Nat :=
  match s.unit? u with
  | some un => if s.isPaired un then [u, partner u] else [u]
  | none => []

/-- Resume one stopped unit from cycle `r` of its region; the channels that its watchpoints hold go on (R280, R297, R330). -/
def State.resumeAt (s : State) (u r : Nat) : State :=
  match s.unit? u with
  | some un => if un.run = .stopped then ((s.finishRecord u).modUnit u fun un => un.resume r).resumeHolds u else s
  | none => s

/-- Resume one unit from the next cycle of its region. -/
def State.resumeOne (s : State) (u : Nat) : State :=
  match s.unit? u with
  | some un => s.resumeAt u (s.now un + 1)
  | none => s

/-- `ACTION_RESUME` (R280): the unit runs from the next cycle of its region. -/
def execActionResume (u : Nat) (s : State) : Result :=
  .next (match (s.unit? u).bind (·.stop) with
    | some st => if st.action.isSome then (s.domain u).foldl State.resumeOne s else s
    | none => s)

/-- Discard a stopped unit's results in flight, incomplete commands and held matches (R280, R330). -/
def Unit.discard (un : Unit) : Unit :=
  { un with
    pend := [], beats := [], mult := none, ksteps := []
    chans := un.chans.map fun ch => { ch with cmds := ch.cmds.filter (·.complete) }
    trigs := un.trigs.map fun g => { g with struck := [] }
    walkers := un.walkers.map fun (w : Walker) => { w with inflight := [] } }

/-- The time that a unit's Lsc of `pattern` takes, in cycles of its region (R6, R119). -/
def State.patternTime (s : State) (un : Unit) : Frac := (s.region un.region).period.scale (un.lsc 7)

/-- `ACTION_ABORT` (R280): what is pending is discarded; the unit binds off 2 µs + Lsc(`pattern`) after the write. -/
def execActionAbort (u : Nat) (s : State) : Result :=
  .next (match (s.unit? u).bind (·.stop) with
    | some st =>
      match st.action with
      | some (2, n, d) =>
        (s.domain u).foldl (fun s v =>
          match s.unit? v with
          | some un =>
            if un.run = .stopped then
              ((s.setUnit v un.discard).keepHolds fun w => w.1 != v).timer (Frac.add ⟨n, d⟩ ((Frac.ofNat 2000).add (s.patternTime un))) (.bindOff v)
            else s
          | none => s) s
      | _ => s
    | none => s)

/-! ### Bind-off (R217, R261, R264, R280) -/

/-- Release the crossings of unit `u` of kernel `k`: the counts are written back (R261). -/
def State.releaseCrossings (s : State) (k u : Nat) : State :=
  s.crossings.foldl (fun s e =>
    let x := e.2
    if x.armed && (x.from_ k u || x.to_ k u) then
      let s := (s.writeVa x.part (x.desc + 40) 8 x.drops).writeVa x.part (x.desc + 48) 8 x.repeats
      { s with crossings := put s.crossings e.1 { x with armed := false, hist := [], inbox := [] } }
    else s) s

/-- Release the locked translations that kernel `k` holds (R244). -/
def State.unlock (s : State) (k : Nat) : State :=
  { s with locks := (s.locks.map fun l => (l.1, l.2.1, l.2.2.filter (· != k))).filter fun l => !l.2.2.isEmpty }

/-- Take a unit off its kernel at time `t`; with the last one, the retire's release begins (R264), or the units that were saved wait for others
(R285). -/
def State.unload (s : State) (u : Nat) (un : Unit) (t : Frac) : State :=
  let s := s.releaseCrossings un.kernel u
  let lsc := s.patternTime un
  let s := { s with units := drop s.units u, walks := s.walks.filter fun (w : Nat × Walk) => w.2.unit != u }.keepHolds fun w => w.1 != u
  let s := s.unwatch (.action u)
  let s := s.setKernel un.kernel fun k => { k with live := k.live.filter (· != u) }
  match s.kernels[un.kernel]? with
  | some k =>
    if k.live.isEmpty ∧ k.state = .running ∧ !k.parked.isEmpty then s.setKernel un.kernel fun k => { k with state := .preempted }
    else if k.live.isEmpty ∧ k.state = .running then
      let rel := t.add lsc
      ((s.setKernel un.kernel fun k => { k with state := .retiring, relAt := some rel }).unlock un.kernel).timer rel (.nodeRetire un.kernel)
    else s
  | none => s

/-- `BIND_OFF` (R217, R280): the release of the `halt`, or of the abort, completes, and the unit is released. -/
def execBindOff (u : Nat) (s : State) : Result :=
  .next (match s.unit? u with
    | none => s
    | some un =>
      let now := s.now un
      let halting : Bool := match un.haltAt with | some c => decide (c ≤ now) | none => false
      let aborted : Bool := match un.stop with | some st => (st.action.map (·.1)) == some 2 | none => false
      if halting then
        let t := (s.region un.region).cycleTime now
        ((s.publish u 0 7 (un.coverNow now) t).unload u un t).regrant
      else if aborted then
        ((s.publish u 0 7 ⟨un.chans.map (·.wm), now⟩ s.time).unload u un s.time).regrant
      else s)

/-! ### Commands and a multiply from a record (R173, R200, R221) -/

/-- The kind of command that an op6 names (R49). -/
def copyOpOf (op6 : Nat) : CopyOp :=
  match op6 with
  | 0 => .cmov | 1 => .cfillA | 2 => .cfillB | 4 => .cgat | 5 => .csct | 17 => .cmark | 24 => .cxrd | 25 => .cxwr | o => .catom o

/-- A command of a record, to run from its progress point from cycle `r` on (R200) (log 34, DEDUCED). The index list of a `cgat` or `csct`, which the
record does not hold, is read again from the unit store (log 124, DEDUCED). -/
def Img.cmd (m : Img) (s : State) (u : Nat) (un : Unit) (c i r : Nat) : Option Cmd :=
  let b := 0x4100 + 0x1300 + 2048 * c + 64 * i
  if m.get (b + 48) 1 % 2 = 0 then none
  else
    let raw := m.get b 4
    let op := copyOpOf (raw / 2 ^ 23 % 64)
    let prog := m.get (b + 32) 8
    let fill : Bool := op == .cfillA || op == .cfillB
    let d := raw / 2 ^ 16 % 32
    let x : Cmd := newCmd un op c r (BitVec.ofNat 64 (m.get (b + 8) 8)) (BitVec.ofNat 64 (m.get (b + 16) 8)) (BitVec.ofNat 64 (m.get (b + 24) 8))
    let x : Cmd := { x with
      tid := m.get (b + 4) 4, word := BitVec.ofNat 32 raw, restored := true, complete := m.get (b + 49) 1 % 2 == 1
      pattern := if fill && raw.testBit 16 then some (BitVec.ofNat 64 (m.get (b + 40) 8)) else none
      eaten := if fill then prog else 0 }
    let x : Cmd := { x with
      next := prog
      index := if op == .cgat || op == .csct then un.indexList r x.idx x.count else []
      dest := match op with
        | .catom _ => some (if isPort d then .inr (outQueue 3 d) else .inl (physReg (un.wk 3).wp d))
        | _ => none }
    if op == .cxrd || op == .cxwr then
      let no := 16 * dieOf u + raw / 2 ^ 6 % 16
      match find s.crossings no with
      | some xr =>
        let got := xr.parts.find? fun e => e.1 == c && e.2.1 == x.tid
        some { x with cross := no, z := xr.z, out := (got.map (·.2.2.1)).getD [], sampled := (got.map (·.2.2.2)).getD false }
      | none => some x
    else some x

/-- Number the samples of restored crossing commands: the last ones that the crossing counts (R200). -/
def numberSamples (s : State) (cmds : List Cmd) : List Cmd :=
  cmds.zipIdx.map fun (e : Cmd × Nat) =>
    let x := e.1
    if x.op == .cxrd || x.op == .cxwr then
      match find s.crossings x.cross with
      | some xr =>
        let after := (cmds.drop e.2).countP fun y => y.op == x.op && y.cross == x.cross
        { x with sample := (if x.op == .cxrd then xr.rdN else xr.wrN) - after }
      | none => x
    else x

/-- Enter one recorded command in its channel, translated afresh at cycle `r` (R182, R200). A recorded `.acq` is taken anew, and a recorded `.rel` covers
what its channel recorded up to it, and all that the other channels recorded, later commands included (log 125, DEDUCED). -/
def State.reenter (s : State) (u r : Nat) (x : Cmd) : State :=
  match s.unit? u with
  | none => s
  | some un =>
    let raw := x.word.toNat
    let has : Bool := match x.op with | .cmark | .cxrd | .cxwr => false | _ => true
    let x : Cmd := if x.complete then x else x.ordered un (has && raw.testBit 5) (has && raw.testBit 4) (raw % 16)
    let (s, x) := s.startXlate u un x
    -- a fill starts again at the first beat of its first entry not consumed, as its pages now are
    let next := match x.op with | .cfillA | .cfillB => x.entryFirst x.eaten | _ => x.next
    let x : Cmd := { x with beats := x.total, next, from_ := max x.from_ r }
    let un := match x.dest with | some (.inr q) => un.qReserve q | _ => un
    s.setUnit u ((if x.complete then un else un.acquireAt x).setCh x.chan fun ch => { ch with cmds := ch.cmds ++ [x] })

/-- The multiply of a record (R173, R224). -/
def Img.mult (m : Img) (un : Unit) (r : Nat) : Option Mult :=
  let b := 0x4100 + 0x11C0
  if m.get b 1 % 2 = 0 then none
  else
    let acq := m.get (b + 12) 1 % 2 == 1
    let rel := m.get (b + 13) 1 % 2 == 1
    let scope := m.get (b + 14) 1
    let n := m.get (b + 4) 2
    let mpc := m.get (b + 8) 4
    some { op := m.get (b + 1) 1, acc := m.get (b + 2) 1, n, d := un.divisor 1, acq, rel, scope, cfg := un.active, next := mpc
           startAt := r + (if acq then un.lsc scope else 0), resumed := true, seq := un.seq, waiting := true, freeAt := r
           relBase := if rel && decide (n ≤ mpc) then some r else none, cover := un.coverNow r, relAt := none }

/-- The running multiply and the commands of a KIND 1 record go on from cycle `r` (R173, R200). -/
def State.resumeRecord (s : State) (u : Nat) (m : Img) (r : Nat) : State :=
  match s.unit? u with
  | none => s
  | some un =>
    let cmds := (List.range 4).flatMap fun c => (List.range 32).filterMap fun i => m.cmd s u un c i r
    let un := match m.mult un r with
      | some x => { (if x.acq then un.later (x.startAt - 1) 3 (.acquire x.scope) else un) with mult := some x, seq := un.seq + 1 }
      | none => un
    (numberSamples s cmds).foldl (fun s x => s.reenter u r x) (s.setUnit u un)

/-! ### A context load (R221) -/

/-- `CTXL_COMPLETE` (R221): the header is checked when its data is ready; when the last block's is, the unit becomes what the record says and
restarts. Each block has been read in its own cycle (`State.blockBeats`). Blocks late or in error load zeros and poison, and the unit stops with
`MEM-UE` at the restart. -/
def execCtxlComplete (u : Nat) (s : State) : Result :=
  .next (match s.unit? u with
    | none => s
    | some un =>
      match un.ctx with
      | none => s
      | some c =>
        let now := s.now un
        if !c.load ∨ un.run ≠ .frozen ∨ c.xlAt.isSome then s
        else
          match c.checkAt with
          | some t =>
            if now < t then s
            else
              let (m, s) := s.readBlocks u un c [0]
              if headerOk m then s.modUnit u fun un => { un with ctx := some { c with checkAt := none, image := m.bytes, bad := m.bad } }
              else s.takeFault u .access .p 0 0 ⟨0, 0, 0, 0, 0, BitVec.ofNat 64 (2 ^ 63 + c.va), 0⟩
          | none =>
            if now < c.endAt then s
            else
              let m : Img := ⟨c.image, c.bad⟩
              let kind := m.get 6 1
              let s := s.modUnit u fun un => { m.load un kind with ctxn := un.ctxn + 1 }
              let s := if kind = 1 then s.resumeRecord u m now else s
              let s := s.modUnit u fun un => un.restart now false
              if m.bad.isEmpty then s else s.takeFault u .memUe .u 0 0 ⟨3, 0, 0, 0, 0, BitVec.ofNat 64 (2 ^ 63 + c.va), 0⟩)

/-! ### Pre-emption (R284-R287) -/

/-- `PREEMPTION_REQUEST` (R284): it reaches every unit of the kernel, and stays pending at each until it reaches a stop point. -/
def execPreemptionRequest (k : Nat) (s : State) : Result :=
  .next (match s.kernels[k]? with
    | none => s
    | some ker => ker.live.foldl (fun s u => s.modUnit u fun un =>
        if un.request.isNone then { un with request := some (s.now un) } else un) s)

/-- All the walkers of a unit have stopped. -/
def Unit.allStopped (un : Unit) : Bool := un.walkers.all (·.stopped)

/-- A unit whose pre-emption request stops it (R284): its walkers have stopped, or a `yield` has taken the stop. -/
def Unit.preemptible (un : Unit) : Bool := un.run == .running && un.request.isSome && (un.yieldAt.isSome || (un.p0.isSome && un.allStopped))

/-- Stop one unit for its pre-emption in the current cycle, whose `RCC` and `RSC` are those of the cut (R222, R274). The walkers of a unit that
has stopped on a fault stand frozen already. -/
def State.preemptOne (s : State) (u : Nat) : State :=
  s.modUnit u fun un =>
    { (if un.run = .stopped then un else un.freeze (s.now un) false) with
      run := .preempted, yieldAt := none, ctx := none, redo := false, cut := (s.now un, (s.region un.region).rscReg), stop := none }

/-- `PREEMPTION_STOP` (R215, R284): the unit stops in the cycle after its last walker has stopped, or after its `yield`; pair partners drain
to a common point and stop together, one in a context save or load once that is done (R282). -/
def execPreemptionStop (u : Nat) (s : State) : Result :=
  .next (match s.unit? u with
    | none => s
    | some un =>
      if !un.preemptible then s
      else if !s.isPaired un then s.preemptOne u
      else
        let now := s.now un
        match s.unit? (partner u) with
        | some v =>
          if un.yieldAt.isSome then
            let f := fun (x : Unit) => { (if x.request.isSome then x else { x with request := some now }).stopPoint now with yieldAt := none }
            (s.setUnit u (f un)).setUnit (partner u) (f v)
          else if v.run = .frozen then s
          else if v.run ≠ .running ∨ v.allStopped then
            let s := s.preemptOne u
            if v.run = .running then s.preemptOne (partner u) else s
          else s
        | none => s.preemptOne u)

/-- The save areas of the unit at place `i` of a kernel (R265). -/
def State.saveAreas (s : State) (ker : Kernel) (i : Nat) : Nat × Nat :=
  match s.rcbs[ker.rcb]? with
  | some b => (b.save0 + Config.ctxBytes * i, b.save1 + Config.ctxBytes * i)
  | none => (0, 0)

/-- The pages of a record at `va` of a partition, through the lock table (R244) and else the page table. -/
def State.pagesOf (s : State) (u part va : Nat) : List Page :=
  (ctxRanges va).foldl (fun l a =>
    match (s.lockedPage u part a).or ((s.walk part a).2) with
    | some g => if l.contains g then l else l ++ [g]
    | none => l) []

/-- SEQ of the valid pre-emption record at `va` (R286), read as the save reaches it; 0 where it is not valid. -/
def State.savedSeq (s : State) (u part va : Nat) : Nat :=
  let c := Ctx.place va (s.pagesOf u part va)
  let p := c.piece 0 64
  let m : Img := ⟨Mem.writes [] 0 (s.decipher p.space p.part p.addr ((s.storeOf p.space).bytes p.addr 64)), []⟩
  if (c.pages.any (·.covers va)) && !s.badIn p.space p.addr 64 && headerOk m && m.get 6 1 == 1 then m.get 56 8 else 0

/-- The target area of a unit's next save: the one that does not hold the valid record of the larger SEQ (R286). -/
def State.saveTarget (s : State) (u : Nat) (ker : Kernel) (i : Nat) : Nat :=
  let (a, b) := s.saveAreas ker i
  if s.savedSeq u ker.part b < s.savedSeq u ker.part a then b else a

/-- What a crossing keeps of a pre-empted unit's commands (R200). -/
def State.keepParts (s : State) (un : Unit) : State :=
  (un.chans.flatMap (·.cmds)).foldl (fun s x =>
    if (x.op == .cxrd || x.op == .cxwr) && !x.complete then
      match find s.crossings x.cross with
      | some xr => { s with crossings := put s.crossings x.cross { xr with
          parts := (x.chan, x.tid, x.out, x.sampled) :: xr.parts.filter fun e => !(e.1 == x.chan && e.2.1 == x.tid) } }
      | none => s
    else s) s

/-- A unit's KIND 1 record, on its way into the area at `va` (R286): the image and its pages, all but the cycles. -/
def State.saveCtx (s : State) (u : Nat) (un : Unit) (ker : Kernel) (va : Nat) : Ctx :=
  { Ctx.place va (s.pagesOf u ker.part va) with image := s.record u un 1 (un.saveSeq + 1) un.cut }

/-- Begin a save into the area at `va` (R286), under R220's beat timing: block 0 with MAGIC 0 in the first issue cycle of `cw`, the other blocks in
the following ones, and block 0 as it is once they are complete. -/
def State.beginSave (s : State) (u : Nat) (un : Unit) (ker : Kernel) (va : Nat) : State :=
  let now := s.now un
  let c := s.saveCtx u un ker va
  let lo := un.ctxLat u c.pages
  let d := un.divisor 3
  let head := nextIssue d (now + un.lat.lx)
  { s with free := s.free + Config.ctxBlocks }.setUnit u
    { un with ctx := some { c with t := now, endAt := un.saveEnd (head + 1) lo, first := nextIssue d (head + 1), lo, seed := s.free } }

/-- The save commits with block 0 (R286). -/
def State.commitSave (s : State) (u : Nat) (un : Unit) (c : Ctx) : State :=
  ((s.writeBlocks u c [0] c.image).keepParts un).modUnit u fun un => { un with ctx := none, saveSeq := un.saveSeq + 1 }

/-- The other save area of a unit than the one at `va`. -/
def State.otherArea (s : State) (ker : Kernel) (i va : Nat) : Nat := let (a, b) := s.saveAreas ker i; if va = a then b else a

/-- Release a unit whose save has committed (R285); what its snapshot and its reads held goes with its place (log 103, DEDUCED). -/
def State.park (s : State) (u : Nat) (un : Unit) : State :=
  let s := { s with units := drop s.units u, walks := s.walks.filter fun (w : Nat × Walk) => w.2.unit != u }
  let s := s.setKernel un.kernel fun k => { k with live := k.live.filter (· != u), parked := k.parked ++ [(un.place, un.snap, un.seen)] }
  match s.kernels[un.kernel]? with
  | some k => if k.live.isEmpty then (s.setKernel un.kernel fun k => { k with state := .preempted }).regrant else s
  | none => s

/-- A save made in one step, redone once where it is struck (R286, R287); whether it committed. -/
def State.saveAtOnce (s : State) (u : Nat) (un : Unit) (ker : Kernel) : Bool × State :=
  let save := fun (s : State) (va : Nat) =>
    let c := s.saveCtx u un ker va
    let struck := (List.range Config.ctxBlocks).any (s.strikes un c)
    let rest := (List.range (Config.ctxBlocks - 1)).map (· + 1)
    let s := (s.writeBlocks u c [0] (c.image.set 0 4 0)).issueBlocks u c [0] (some (c.image.set 0 4 0)) s.time
    let s := (s.writeBlocks u c rest c.image).issueBlocks u c (rest ++ [0]) (some c.image) s.time
    if struck then (false, s) else (true, s.commitSave u un c)
  let first := s.saveTarget u ker un.place
  match save s first with
  | (true, s) => (true, s)
  | (false, s) => save s (s.otherArea ker un.place first)

/-- `PREEMPTION_SAVE` (R286, R287): the save begins once the engines have made everything; it commits with block 0, and the unit is
released. A save that an uncorrectable error strikes is redone once, into the other area; the unit whose redo is struck too stops with `MEM-UE`
and keeps its state in place. -/
def execPreemptionSave (u : Nat) (s : State) : Result :=
  .next (match s.unit? u with
    | none => s
    | some un =>
      match s.kernels[un.kernel]? with
      | none => s
      | some ker =>
        let now := s.now un
        if un.run ≠ .preempted then s
        else
          match un.ctx with
          | none => if un.made now then s.beginSave u un ker (s.saveTarget u ker un.place) else s
          | some c =>
            if now < c.endAt then s
            else if !(c.ue || s.strikes un c 0) then (s.commitSave u un c).park u un
            else if un.redo then
              (s.modUnit u fun un => { un with run := .frozen, ctx := none }).takeFault u .memUe .u 0 0 ⟨3, 0, 0, 0, 0, BitVec.ofNat 64 (2 ^ 63 + c.va), 0⟩
            else s.beginSave u { un with redo := true } ker (s.otherArea ker un.place c.va))

/-! ### Cast-on state and the restore (R31, R264, R285) -/

/-- A unit of a kernel as its cast-on leaves it (R22, R31, R264), not yet at its first word. -/
def State.freshUnit (s : State) (k : Nat) (ker : Kernel) (place u : Nat) (text : List W32) : Unit :=
  let b := s.rcbs[ker.rcb]?
  let spill := fun w => BitVec.ofNat 64 (ker.spillb + w * ker.spill)
  { run := .cast, region := ker.region, kernel := k, place, part := ker.part
    walkers := (List.range 4).map fun w => Walker.fresh (spill w) (spill (w + 1))
    steers := List.replicate 12 ⟨[], 0⟩, queues := List.replicate 16 ([], 0), istore := text, store := Store.zero, badWords := []
    cause := 0, slipw := 64, ftv := 1, div := [1, 1, 1, 1], divNext := [1, 1, 1, 1], mpc := 0
    baroff := ((b.map (·.course)).getD []).getD u 0 * ((b.map (·.spacing)).getD 0)
    late := 0, ctxn := 0, tvec := 0, tstat := 0, flagCnt := List.replicate 256 0
    acc := List.replicate 16 ⟨List.replicate 4096 0, false⟩, ska := [], skb := [], active := Cfg.reset, shadow := Cfg.reset, mult := none
    ksteps := [], mfree := 0, mland := 0
    v := List.replicate 64 ⟨List.replicate 256 0, false⟩, k := List.replicate 64 (0, false), masks := [], vfree := 0
    chans := List.replicate 4 ⟨0, 0, 0, [], 0, none⟩, beats := [], banks := [], cache := [], pend := [], seq := 0, phases := [], bars := [], barCnt := []
    outbox := [], snap := Snapshot.zero, seen := [], trigs := List.replicate 16 Trigger.off, trigs0 := List.replicate 16 0, trace := [], traceN := 0
    lat := s.latOf ker.region, stop := none, ctx := none, request := none, p0 := none, yieldAt := none, haltAt := none, started := false
    word0 := none, wdog := 0, fired := false, redo := false, saveSeq := 0, cut := (0, 0) }
where
  /-- A disarmed trigger. -/
  Trigger.off : Trigger :=
    { armed := false, isOpen := false, fired := false, start := 0, stop := 0, addr := 0, mode := 0, from_ := 0, openAt := 0, xlAt := none, pa := none
      xlFault := none, seenS := false, seenP := false, stopDue := none, struck := [], serial := 0 }

/-- Enter the resident translations of a kernel in a unit's cache (R242). -/
def Unit.loadResident (un : Unit) (pages : List Page) : Unit := pages.foldl (fun un g => un.fillCache g true 0) un

/-- The record that a restore reads: the valid one of the larger SEQ (R286). -/
def State.savedRecord (s : State) (u : Nat) (ker : Kernel) (i : Nat) : Option Img :=
  let (a, b) := s.saveAreas ker i
  let qa := s.savedSeq u ker.part a
  let qb := s.savedSeq u ker.part b
  if qa = 0 ∧ qb = 0 then none
  else
    let c := Ctx.place (if qa < qb then b else a) (s.pagesOf u ker.part (if qa < qb then b else a))
    some <| (List.range Config.ctxBlocks).foldl (fun (m : Img) blk =>
      let p := c.piece (64 * blk) 64
      if s.badIn p.space p.addr 64 then ⟨m.bytes, blk :: m.bad⟩
      else ⟨m.bytes.writes (64 * blk) (s.decipher p.space p.part p.addr ((s.storeOf p.space).bytes p.addr 64)), m.bad⟩) ⟨[], []⟩

/-- The crossings of kernel `k` follow its places from the units `old` to the units `us` (R285). -/
def State.moveCrossings (s : State) (k : Nat) (old us : List Nat) : State :=
  let to_ : Nat → Nat := fun u => us.getD (old.idxOf u) u
  { s with crossings := s.crossings.map fun e =>
      (e.1, { e.2 with prod := if e.2.prodK = k then to_ e.2.prod else e.2.prod, cons := if e.2.consK = k then to_ e.2.cons else e.2.cons }) }

/-- The cluster store and the die store of a unit come under a partition (R246): one that another used last is zero. -/
def State.claim (s : State) (part u : Nat) : State :=
  let c := clusterOf u
  let d := dieOf u
  let s := if ((find s.clusters c).map (·.2)) = some part then s
    else { s with clusters := put s.clusters c (Store.zero, part), bad := s.bad.filter fun k => !(k.1 == 0 && k.2 / 2 ^ 28 == c) }
  if ((find s.dies d).map (·.2)) = some part then s
  else { s with dies := put s.dies d (Store.zero, part), bad := s.bad.filter fun k => !(k.1 == 1 && k.2 / 2 ^ 28 == d) }

/-- Restore the unit at place `i` of a kernel on unit `u`, to run from the next cycle of its region (R285), with an acquire at `pattern` scope beside
what it held before (log 103, DEDUCED). -/
def State.restoreUnit (s : State) (k : Nat) (ker : Kernel) (i u : Nat) (m : Img) : State :=
  let r := (s.region ker.region).rcc + 1
  let fresh := (s.freshUnit k ker i u []).loadResident ker.resident
  let started := ker.startAt.isSome
  let un : Unit := { m.load fresh 1 with run := if started then .running else .cast, started, word0 := ker.startAt, saveSeq := m.get 56 8 }
  let un := un.thaw r
  let t := (s.region ker.region).cycleTime r
  let (held, seen) := (find ker.parked i).getD (un.snap, [])
  let (p, s) := s.placeAt ker.region t 0
  let snap := s.snapshot (s.agentOf u un) held 7 0 t p fun _ => false
  let s := s.setUnit u { un with snap, seen }
  let s := s.resumeRecord u m r
  if m.bad.isEmpty then s else s.takeFault u .memUe .u 0 0 ⟨3, 0, 0, 0, 0, 0, 0⟩

/-- `CONTEXT_RESTORE` (R285, R286): a pre-empted kernel whose units are granted again resumes, at each place that was saved, from its newest
committed record; without a valid record of each of them the restore is refused. -/
def execContextRestore (k : Nat) (s : State) : Result :=
  .next (match s.kernels[k]? with
    | none => s
    | some ker =>
      if ker.state ≠ .preempted ∨ ker.live.isEmpty then s
      else
        let at_ := fun (i : Nat) => ker.live.getD i 0
        let recs := ker.parked.map fun (e : Nat × Snapshot × List Nat) => (at_ e.1, e.1, s.savedRecord (at_ e.1) ker e.1)
        if recs.any fun e => e.2.2.isNone then
          let s := s.setKernel k fun q => { q with state := .retired, live := [], units := [], parked := [] }
          ((s.unlock k).patternError ker.region ker.rcb).nodeEnds ker.region ker.node
        else
          let state := if ker.startAt.isSome then KState.running else .loaded
          let s := s.setKernel k fun q => { q with state, units := ker.live, live := recs.map (·.1), parked := [] }
          let s := ker.live.foldl (fun (s : State) u => s.claim ker.part u) (s.moveCrossings k ker.units ker.live)
          recs.foldl (fun s e => match e.2.2 with
            | some m => s.restoreUnit k ker e.2.1 e.1 m
            | none => s) s)

end Sys2Proof.Machine
end

