-- ==== Sys2Proof/Machine/Triggers.lean ====
section
/-! DEFINITION. Triggers and watchpoints (R213, R214, R296-R298, R329, R330). -/

namespace Sys2Proof.Machine

/-! ### What a trigger senses in a cycle (R213) -/

/-- The matches of a unit's own walker stores that are performed at the end of cycle `now` (R296). -/
def Unit.storeHits (un : Unit) (now : Nat) (t : Frac) (g : Trigger) : List Hit :=
  if !g.watching now 16 then []
  else un.pend.filterMap fun p =>
    match p.eff with
    | .store wk _ cells =>
      if p.due = now then
        ((List.range 16).find? fun i => cells.any fun c => g.lowest .unit c.addr 1 == some i).map fun i => ⟨t.num, t.den, .p, wk, 0, 0, i, 0, false⟩
      else none
    | _ => none

/-- The matches of copy beats of the region that are performed at the end of cycle `now` (R297, R329). -/
def State.beatHits (s : State) (u n : Nat) (un : Unit) (now : Nat) (t : Frac) (g : Trigger) : List Hit :=
  if !g.watching now 17 then []
  else s.units.flatMap fun e =>
    if e.2.region ≠ un.region then []
    else (e.2.writesDue now).filterMap fun b =>
      match b.plan.target with
      | some q => if b.watch.contains (u, n, g.serial) && !b.spoiled then
          (g.lowest q.space q.addr q.n).map fun i => ⟨t.num, t.den, .i, b.chan, b.tid, b.k, i, BitVec.ofNat 32 e.1, false⟩ else none
      | none => none

/-- A condition of KIND 1, 3 or 4 holds in cycle `now` (R213). -/
def Trigger.holds (g : Trigger) (c : W64) (now : Nat) (struck : Bool) : Bool :=
  match c.toNat % 16 with
  | 1 => now == g.from_
  | 3 => now % 2 ^ 32 == c.toNat / 2 ^ 32
  | 4 => struck
  | _ => false

/-- A match can open the window in cycle `now`: it has come by the end of it. In the cycle of a single-step one that came before is held still, for the
resume (R294, R330). -/
def Region.serves (r : Region) (now : Nat) (h : Hit) : Bool :=
  Frac.le ⟨h.num, h.den⟩ (r.cycleTime (now + 1)) && (!r.halted || (r.cycleTime now).le ⟨h.num, h.den⟩)

/-- What the triggers of a unit sense at the start of cycle `now`: the conditions of KIND 1, 3 and 4. -/
def State.sense (s : State) (u : Nat) (un : Unit) (now : Nat) : State :=
  let r := s.region un.region
  let t := r.cycleTime now
  s.setUnit u { un with trigs := un.trigs.zipIdx.map fun (e : Trigger × Nat) =>
    let g := e.1
    if g.armed ∧ g.from_ ≤ now then
      let g : Trigger := { g with struck := g.struck ++ un.storeHits now t g ++ s.beatHits u e.2 un now t g }
      let hit := g.struck.any (r.serves now)
      { g with seenS := g.holds g.start now hit, seenP := g.holds g.stop now hit }
    else { g with seenS := false, seenP := false } }

/-- Drop the matches that a unit's cycle has served. -/
def Unit.unstrike (un : Unit) (served : Hit → Bool) : Unit :=
  { un with trigs := un.trigs.map fun (g : Trigger) => { g with struck := g.struck.filter fun h => !served h } }

/-- The match that a stop names (R330): class P first, then I, then U; copy beats by channel and beat, and atomics after them in the order of their
location, in which they were reported. -/
def Trigger.named (g : Trigger) (served : Hit → Bool) : Option Hit :=
  let rank := fun (h : Hit) => match h.cls with | .p => 0 | .i => 1 + 2 ^ 40 * h.chan + h.beat | .u => if h.atom then 2 ^ 61 else 2 ^ 60 + 2 ^ 40 * h.chan + h.beat
  match g.struck.filter served with
  | [] => none
  | h :: hs => some (hs.foldl (fun m x => if rank x < rank m then x else m) h)

/-- ACT of a trigger. -/
def Trigger.act (g : Trigger) : Nat := (g.mode.extractLsb' 19 2).toNat
/-- KIND of START. -/
def Trigger.kind (g : Trigger) : Nat := g.start.toNat % 16

/-! ### Opening and closing (R214) -/

/-- The window can open now: at the start of the cycle where its opening stops the unit in that cycle, else at its end. -/
def Trigger.opens (g : Trigger) (now : Nat) (start : Bool) : Bool :=
  g.armed && !g.isOpen && g.seenS && decide (g.from_ ≤ now) && (start == (g.act == 1 && g.kind != 2 && g.kind != 5))

/-- Open a window: an ACT 1 trigger disarms and stops the unit, in this cycle, or after a KIND 2 or 5 event in the next (R214). -/
def State.openWindow (s : State) (u n : Nat) (un : Unit) (g : Trigger) : State :=
  let now := s.now un
  let g' : Trigger := { g with fired := true, openAt := now, seenS := false }
  if g.act ≠ 1 then s.setUnit u { un with trigs := un.trigs.set n { g' with isOpen := true } }
  else
    let off : Trigger := { g' with armed := false, isOpen := false, struck := [] }
    if g.kind = 2 ∨ g.kind = 5 then s.setUnit u { un with trigs := un.trigs.set n { off with stopDue := some (now + 1) } }
    else
      let s := s.setUnit u { un with trigs := un.trigs.set n off }
      match g.kind, g.named ((s.region un.region).serves now) with
      | 4, some h =>
        let a := g.addr + BitVec.ofNat 64 h.i
        (match h.cls with
         | .p => s.takeFault u .watch .p h.chan n ⟨0, 0, n, 0, 0, a, 0⟩
         | .i => s.takeFault u .watch .i 3 n ⟨3, h.chan, n, h.tid, h.beat, a, 0⟩
         | .u => s.takeFault u .watch .u 0 n ⟨4, h.chan, n, h.tid, h.beat, a, h.origin⟩)
      | _, _ => s.takeFault u .bkpt .u 0 n { Detail.walker with trigger := n }

/-- A KIND 2 or 5 opening of the last cycle stops the unit in this one. -/
def Trigger.stopsNow (g : Trigger) (now : Nat) : Bool := g.stopDue == some now

/-- `TRIGGER_WINDOW_OPEN` (R214): the window of trigger `n` opens, or the stop of a KIND 2 or 5 opening falls due. -/
def execTriggerWindowOpen (u n : Nat) (s : State) : Result :=
  .next (match s.unit? u with
    | none => s
    | some un =>
      match un.trigs[n]? with
      | none => s
      | some g =>
        let now := s.now un
        if g.stopsNow now then
          (s.setUnit u { un with trigs := un.trigs.set n { g with stopDue := none } }).takeFault u .bkpt .u 0 n { Detail.walker with trigger := n }
        else if g.opens now true || g.opens now false then s.openWindow u n un g
        else s)

/-- `WATCH_REPORT` (R298, R330): a memory-side report reaches the armed unit and opens the window. -/
def execWatchReport (u n : Nat) (s : State) : Result :=
  .next (match s.unit? u with
    | none => s
    | some un =>
      match un.trigs[n]? with
      | none => s
      | some g =>
        let now := s.now un
        if (g.opens now true || g.opens now false) && g.kind == 4 then s.openWindow u n un g else s)

/-- The window closes at the end of this cycle. -/
def Trigger.closes (g : Trigger) : Bool := g.armed && g.isOpen && g.seenP

/-- `TRIGGER_WINDOW_CLOSE` (R214, R301): the trace record is written; ACT 0 disarms. -/
def execTriggerWindowClose (u n : Nat) (s : State) : Result :=
  .next (match s.unit? u with
    | none => s
    | some un =>
      match un.trigs[n]? with
      | none => s
      | some g =>
        if g.closes then
          let now := s.now un
          let un := un.addTrace ⟨2, n, 0, 0, g.openAt, now⟩
          s.setUnit u { un with trigs := un.trigs.set n { g with isOpen := false, seenS := false, seenP := false, armed := g.act != 0 } }
        else s)

end Sys2Proof.Machine
end

