-- ==== Sys2Proof/Machine/Regions.lean ====
section
/-! DEFINITION. Regions, their clocks and gauges (R23, R255-R259, R269, R272, R299, R346): region cycles, sample boundaries, source samples,
the gauge state machine, freeze, thaw and the watchdog. -/

namespace Sys2Proof.Machine

/-! ### Generators and instants (R255, R256, R272) -/

/-- The source is a synthetic generator (R255). -/
def isSynthetic (src : Nat) : Bool := decide (16 ≤ src) && decide (src < 32)

/-- The sample period of a generator at its step, ns (R255, R272). -/
def Gen.period (g : Gen) : Frac := Frac.norm ⟨2560 * g.b, g.a * g.s⟩

/-- The instant of generator sample `n`. -/
def Gen.instOf (g : Gen) (n : Nat) : Frac :=
  if g.baseN ≤ n then g.base.add (g.period.scale (n - g.baseN)) else g.base.sub (g.period.scale (g.baseN - n))

/-- The first generator sample at or after `t`. -/
def Gen.sampleFrom (g : Gen) (t : Frac) : Nat :=
  if g.base.le t then g.baseN + ((t.sub g.base).div g.period).ceil else g.baseN - ((g.base.sub t).div g.period).floor

/-- The number of a region's source among the package's: a host cadence is one of its partition's VF (R255, R314). -/
def State.sourceKey (s : State) (r : Region) : Nat :=
  if 8 ≤ r.src ∧ r.src < 16 then 64 * (((s.rcbs[r.rcb]?).map (·.part)).getD 0 + 1) + r.src else r.src

/-- The instant of source sample `n` of a region, counted from lock: one that the source has announced, or as R256 has it. -/
def State.instAhead (s : State) (r : Region) (n : Nat) : Frac :=
  match s.samples.find? fun e => e.1 == s.sourceKey r && e.2.1 == r.base + n with
  | some e => e.2.2
  | none => r.instOf n

/-- The length of a region cycle at the source's rate. -/
def Region.sourced (r : Region) : Frac := (r.srcPeriod.scale r.q).div (Frac.ofNat r.p)

/-- The next region cycle. -/
def Region.next (r : Region) : Nat := if r.fresh then 0 else r.rcc + 1

/-- Run cycles of length `per` from the next cycle on. -/
def Region.repace (r : Region) (per : Frac) : Region := { r with anchor := r.cycleTime r.next, anchorCyc := r.next, period := per }

/-- The clock of the interval that begins at this boundary (R256, R257, R346) (log 58, DEDUCED). -/
def State.pace (s : State) (i : Nat) : State :=
  let r := s.region i
  let t := r.cycleTime r.rcc
  let aim := s.instAhead r (r.rsc + r.q)
  let exact := if t.lt aim then (aim.sub t).div (Frac.ofNat r.p) else r.period
  let here := r.instOf r.rsc
  let span := r.srcPeriod.scale r.q
  let (per, slew) : Frac × Bool :=
    if isSynthetic r.src then (r.sourced, false)
    else if r.gauge ≠ .locked then (r.period, r.slew)
    else if !r.slew then (exact, false)
    else if here.lt t then
      if (t.sub here).le (span.mul ⟨2, 10002⟩) then (exact, false) else (r.sourced.mul ⟨10000, 10002⟩, true)
    else if (here.sub t).le (span.mul ⟨2, 9998⟩) then (exact, false)
    else (r.sourced.mul ⟨10000, 9998⟩, true)
  s.setRegion i fun r =>
    { r with
      anchor := t, anchorCyc := r.rcc, period := per, slew := slew
      stamps := if isSynthetic r.src then stamp (r.rsc, t) r.stamps else r.stamps }

/-! ### Region cycles (R9, R23, R206, R299) -/

/-- Count the class of each walker's head in the cycle that has ended (R299, R300). -/
def Unit.tally (un : Unit) : Unit :=
  if un.run = .running ∨ un.run = .frozen then
    { un with
      walkers := un.walkers.map fun (w : Walker) =>
        { w with head := (match w.slot with | .done c _ => modify w.head c (· + 1) | .walking _ => modify w.head 3 (· + 1)) }
      flagCnt := un.walkers.foldl (fun (l : List W64) (w : Walker) =>
        match w.slot with
        | .done 1 (some f) => if flagListed f then modify l f (· + 1) else l
        | _ => l) un.flagCnt }
  else un

/-- A unit enters region cycle `n`. -/
def Unit.openCycle (un : Unit) (n : Nat) : Unit :=
  let un := un.tally
  let un : Unit := { un with
    div := un.divNext, trigs0 := un.trigs.map (·.image n)
    store := un.store.settle fun w => decide (w.at_ + 1200 < n)
    banks := un.banks.filter fun b => decide (n ≤ b.cycle)
    walkers := un.walkers.map fun (w : Walker) =>
      { w with
        was := w.count, slot := if un.run = .frozen then .done 3 none else .done 4 none
        extLast := w.extLast.filter fun e => decide (256 * (n - 1) ≤ e) } }
  if un.run = .running then un.beginCycle n else un

/-- The units of a region. -/
def State.unitsOf (s : State) (i : Nat) : List Nat := (s.units.filter fun e => e.2.region == i).map (·.1)

/-- A unit has come to rest under a freeze request (R258): it runs no cycle, or its walkers have stopped and none issued in this cycle. -/
def Unit.resting (un : Unit) : Bool :=
  match un.run with
  | .running => un.walkers.all fun w => w.stopped && (match w.slot with | .done 0 _ => false | _ => true)
  | .frozen => false
  | _ => true

/-- The region freezes in place of beginning its next cycle (R258, R269, R281) (log 62, DEDUCED). -/
def State.freezeDue (s : State) (i : Nat) : Bool :=
  let r := s.region i
  r.runs && !r.halted && !r.openCyc && (r.stopAt == some r.next ||
    (r.gauge == .draining && s.units.all fun e => e.2.region != i || e.2.resting))

/-- The region halts in place of beginning its next cycle (R289, R294). -/
def Region.haltDue (r : Region) : Bool :=
  !r.openCyc && ((r.steps != 0 && decide (r.steps ≤ r.next)) ||
    (match r.haltAt with | some t => t.le (r.cycleTime r.next) || !r.runs | none => false))

/-- `REGION_CYCLE` (R23): the region's next cycle begins. The cycle that has ended is counted (R299), a release of a multiply that has
completed is made (R168), the walkers may walk (R9) and triggers sense their conditions (R213). -/
def execRegionCycle (i : Nat) (s : State) : Result :=
  .next (
    let r := s.region i
    if !r.runs || r.openCyc || s.freezeDue i || r.haltDue then s
    else
      let s := s.setRegion i fun r => { r with rcc := r.next, fresh := false, openCyc := true }
      (s.unitsOf i).foldl (fun s u =>
        let s := (s.modUnit u fun un => un.openCycle r.next).endMult u
        match s.unit? u with
        | some un => if un.run = .running ∨ un.run = .frozen then s.sense u un r.next else s
        | none => s) s)

/-- Crossings of the kernels of a region, pre-empted ones too, carry DISC on their next output (R259, R295). -/
def State.discontinue (s : State) (i : Nat) : State :=
  let has : Nat → Bool := fun k => ((s.kernels[k]?).map (·.region)) == some i
  { s with crossings := s.crossings.map fun e => (e.1, if has e.2.prodK || has e.2.consK then { e.2 with disc := true } else e.2) }

/-- A jump of `RSC` by `d` beyond its next value (R259, R295): RSCD, DISC and the crossings' marks. -/
def State.jumped (s : State) (i : Nat) (d : Int) : State :=
  let s := s.setStatus i fun r => { r with rscd := d, disc := r.disc || d != 0 }
  if d = 0 then s else s.discontinue i

/-- A freeze request in the current cycle (R258): every walker of the region drains, or stops before its next word. -/
def State.freezeRequest (s : State) (i : Nat) : State :=
  let b := (s.region i).rcc
  let s := s.setStatus i fun r => { r with gauge := .draining, freezeAt := some b, good := 0 }
  (s.unitsOf i).foldl (fun s u => s.modUnit u fun un => if un.run == .running || un.run == .frozen then un.stopPoint b else un) s

/-- A region's measured energy against ENERGY (R271): whether it lies above it is free for each sample (log 42, DESIGN CHOICE); OVER after 16 in a row. -/
def State.meter (s : State) (i : Nat) : State :=
  if ((s.regionRcb i).map (·.energy)).getD 0 = 0 then s
  else
    let (c, s) := s.choose 2
    let run := if c = 1 then (s.region i).overRun + (s.region i).q else 0
    let s := s.setRegion i fun r => { r with overRun := run }
    if 16 ≤ run ∧ !(s.region i).overB then s.setStatus i fun r => { r with overB := true } else s

/-- `SAMPLE_BOUNDARY` (R23): `RSC` is 0 at the first boundary and grows by Q at each later one, or reads what a thaw or a resume gives it
(R259, R295); a unit that an ACTION resumed in a frozen region runs from the thaw's boundary (R257); the clock of the next interval
follows. A region to be shed takes its freeze request here (R271). -/
def execSampleBoundary (i : Nat) (s : State) : Result :=
  .next (
    let r := s.region i
    if !r.openCyc || r.rcc % r.p ≠ 0 then s
    else
      let plain := r.rsc + r.q
      let s : State :=
        match r.thawAt with
        | some (_, v) =>
          let s := s.setRegion i fun r => { r with rsc := v, thawAt := none, thawFrom := none }
          (s.unitsOf i).foldl (fun s u =>
            match (s.unit? u).bind (·.stop) with
            | some st =>
              if (st.action.map (·.1)) = some 1 then
                let s := (s.resumeAt u r.rcc).modUnit u fun un => un.beginCycle r.rcc
                match s.unit? u with
                | some un => s.sense u un r.rcc
                | none => s
              else s
            | none => s) s
        | none =>
          if r.rcc = 0 then s.setRegion i fun r => { r with rsc := 0 }
          else
            match r.jump with
            | some d => (s.setRegion i fun r => { r with rsc := plain + d, jump := none }).jumped i d
            | none => s.setRegion i fun r => { r with rsc := plain }
      let s := (s.pace i).meter i
      if (s.region i).shedding ∧ (s.region i).gauge ≠ .draining then s.freezeRequest i else s)

/-! ### Freeze and thaw (R257-R259, R271) -/

/-- HOLD of a region, in samples (R250). -/
def State.holdOf (s : State) (i : Nat) : Nat := ((s.regionRcb i).map (·.hold)).getD 64
/-- MISS of a region (R250). -/
def State.missOf (s : State) (i : Nat) : Nat := ((s.regionRcb i).map (·.miss)).getD 4

/-- `HOLDOVER_EXPIRY` (R257, R258): the first boundary at which `RSC` has run HOLD samples past holdover entry. -/
def execHoldoverExpiry (i : Nat) (s : State) : Result :=
  .next (
    let r := s.region i
    if r.gauge = .holdover ∧ r.openCyc ∧ r.rcc % r.p = 0 ∧ r.holdRsc + s.holdOf i ≤ r.rsc then s.freezeRequest i else s)

/-- Instants follow the latest sample again, at the period last measured. -/
def Region.resync (r : Region) : Region := { r with srcPeriod := r.measured, stamps := stamp (r.srcN - r.base, r.lastInst) r.stamps }

/-- Plan the thaw of a live-source region from its 8th good sample (R259): the first multiple of Q at least P cycles at f0 after it, and not
before what an ACTION allows (R257); the region restarts so that its next multiple of P falls there. -/
def State.planThaw (s : State) (i : Nat) (t8 : Frac) : State :=
  let s := s.setRegion i Region.resync
  let r := s.region i
  let b := (r.next + r.p - 1) / r.p * r.p
  let lead := r.sourced.scale (b - r.next)
  let lim := ((t8.add ((Frac.ofNat r.p).div r.f0)).max (r.thawFrom.getD ⟨0, 1⟩)).max (s.time.add lead)
  let m := r.sampleAt lim
  let m := if (r.instOf m).lt lim then m + 1 else m
  let k := (m.toNat + r.q - 1) / r.q * r.q
  let t := s.instAhead r k
  let go := t.sub lead
  (s.setRegion i fun r => { r with thawAt := some (t, k), anchor := go, anchorCyc := r.next, period := r.sourced }).timer go (.thaw i)

/-- Plan the thaw of a synthetic region that a fault policy or the watchdog froze (R257): the first generator sample, a multiple of Q from
lock, 2 µs or more after the ACTION. The samples up to it keep the instants that they had. -/
def State.planSynthetic (s : State) (i : Nat) : State :=
  let r := s.region i
  match find s.gens r.src with
  | none => s
  | some g =>
    let b := (r.next + r.p - 1) / r.p * r.p
    let per := (g.period.scale r.q).div (Frac.ofNat r.p)
    let lead := per.scale (b - r.next)
    let m := g.sampleFrom ((r.thawFrom.getD s.time).max (s.time.add lead))
    let k := r.base + (m - r.base + r.q - 1) / r.q * r.q
    let t := g.instOf k
    let go := t.sub lead
    let n := r.rsc + r.q
    (s.setRegion i fun r =>
      { r with thawAt := some (t, n), anchor := go, anchorCyc := r.next, period := per, srcPeriod := g.period
               stamps := stamp (n, t) (stamp (n - 1, r.instOf (n - 1 : Nat)) r.stamps) }).timer go (.thaw i)

/-- A resume action was written at `w` for a unit of a region that a policy or the watchdog froze (R257). -/
def State.allowThaw (s : State) (i : Nat) (w : Frac) : State :=
  let s := s.setRegion i fun r => { r with thawFrom := some (w.add (Frac.ofNat 2000)), good := 0 }
  if isSynthetic (s.region i).src then s.planSynthetic i else s

/-- A unit whose watchdog fired stops with `WATCHDOG` in the first cycle that its region no longer runs (R269), and its pair partner with
it (R282); the cycle that has ended is counted (R299). -/
def State.watchdogStop (s : State) (i u : Nat) : State :=
  let n := (s.region i).next
  let count : Nat → State → State := fun v s => s.modUnit v fun un =>
    { un.tally with fired := false, walkers := un.tally.walkers.map fun w => { w with slot := .done 4 none } }
  match s.unit? u with
  | none => s
  | some un =>
    let s := count u s
    let s := if s.isPaired un then count (partner u) s else s
    let s := s.countStop un .u
    let s := s.setRegion i fun r => { r with rcc := n }
    let s := s.stopOne u .watchdog .u 0 0 Detail.walker
    let s := if s.isPaired un then s.stopPartner u else s
    s.setRegion i fun r => { r with rcc := n - 1 }

/-- `REGION_FREEZE` (R257, R258, R269, R281): `RCC` stops, and the engines stop in that cycle. A unit whose watchdog fired stops with
`WATCHDOG`. A drained region to be shed is saved next (R271); another waits for good samples (log 60, DEDUCED). -/
def execRegionFreeze (i : Nat) (s : State) : Result :=
  .next (
    if !s.freezeDue i then s
    else
      let r := s.region i
      let policy := r.stopAt.isSome
      let s := s.setStatus i fun r =>
        { r with gauge := .frozen, still := if policy then .policy else .drained, stopAt := none, freezeAt := none, thawAt := none, thawFrom := none }
      let fired := s.units.filter fun e => e.2.region == i && e.2.fired
      let s := fired.foldl (fun s e => s.watchdogStop i e.1) s
      if r.shedding then s.timer s.time (.shedSave i)
      else if !policy ∧ 8 ≤ r.good then s.planThaw i (r.lastInst.sub (r.measured.scale (r.good - 8)))
      else s)

/-- `THAW` (R257, R259): the region runs again, with RSCD and DISC set; its walkers go on at the words where they stood, those that drained at their `loop` words (log 61, DEDUCED; log 63, DEDUCED). -/
def execThaw (i : Nat) (s : State) : Result :=
  .next (
    let r := s.region i
    if r.gauge ≠ .frozen ∨ r.thawAt.isNone ∨ r.halted ∨ s.time.lt r.anchor then s
    else
      let s := s.setStatus i fun r => { r with gauge := .locked, still := .no, good := 0, slew := false }
      let s := match r.thawAt with | some (_, v) => s.jumped i ((v : Int) - ((r.rsc + r.q : Nat) : Int)) | none => s
      (s.unitsOf i).foldl (fun s u => s.modUnit u fun un =>
        if un.run == .running && un.request.isNone then { un.rejoin with p0 := none } else un) s)

/-! ### Source samples (R257) -/

/-- The period of a source at the rate f0 of a region. -/
def Region.nominal (r : Region) : Frac := (Frac.ofNat r.p).div (r.f0.scale r.q)

/-- A measured period lies within f0 ± 200 ppm (R257). -/
def Region.inRate (r : Region) (per : Frac) : Bool := ((r.nominal.dist per).le (per.mul ⟨2, 10000⟩))

/-- The instants of a region's samples are their arrivals (R256): not in HOLDOVER, nor while it drains, where they are extrapolated. -/
def Region.follows (r : Region) : Bool := !(r.gauge == .holdover || r.gauge == .draining)

/-- The region's gauge after source sample `n` at instant `t` (R257): on time within half a period of its expected instant, good where its
rate lies within 200 ppm of f0. The first two samples set the expectation; a sample that comes after a later one gives its instant alone
(log 57, DEDUCED). -/
def Region.sample (r : Region) (n : Nat) (t : Frac) : Region :=
  let j := n - r.base
  if r.stamps.isEmpty then { r with srcN := n, lastInst := t, onTime := 1, missed := 0, base := 0, stamps := [(n, t)] }
  else if n ≤ r.srcN then (if r.follows && decide (r.base ≤ n) then { r with stamps := stamp (j, t) r.stamps } else r)
  else
    let d := n - r.srcN
    let per := (t.sub r.lastInst).div (Frac.ofNat d)
    let want := r.lastInst.add (r.measured.scale d)
    let ok : Bool := (r.gauge == .acquire && decide (r.onTime = 1)) || (want.dist t).le (r.measured.mul ⟨1, 2⟩)
    let rate := r.inRate per
    { r with
      srcN := n, lastInst := t, missed := 0
      measured := if ok then per else r.measured
      srcPeriod := if ok && r.follows then per else r.srcPeriod
      onTime := if ok then r.onTime + 1 else if r.gauge = .acquire then 1 else r.onTime
      drift := if rate then 0 else r.drift + 1
      steady := if rate then r.steady + 1 else 0
      good := if ok && rate then r.good + 1 else 0
      stamps := stamp (j, if r.follows then t else r.instOf (j : Nat)) r.stamps
      anchor := if r.fresh && r.gauge == .locked && n == r.base then t else r.anchor }

/-- What the sample brings about in the region's gauge (R257): lock, clamp, unclamp, relock or thaw. -/
def State.judge (s : State) (i : Nat) (t : Frac) : State :=
  let r := s.region i
  match r.gauge with
  | .acquire => if 64 ≤ r.onTime then s.timer s.time (.gaugeLock i) else s
  | .locked => if 1024 ≤ r.drift then s.timer s.time (.gaugeClamp i) else s
  | .clamped => if 1024 ≤ r.steady then s.timer s.time (.gaugeUnclamp i) else s
  | .holdover => if 8 ≤ r.good then s.timer s.time (.holdoverRelock i) else s
  | .frozen =>
    if r.good = 8 ∧ !r.shedding ∧ r.thawAt.isNone ∧ (r.still = .drained ∨ (r.still = .policy ∧ r.thawFrom.isSome)) then s.planThaw i t else s
  | _ => s

/-- The enabled descriptor of stream source `k` and its VF (R312): its source's owner's. -/
def State.streamOf (s : State) (k : Nat) : Option (Nat × List W64) :=
  let own := s.srcown.getD k 0
  if own / 128 = 0 then none
  else
    match find s.vfs (own % 64) with
    | some v =>
      let d := v.streams.getD k []
      if (d.getD 0 0).getLsbD 0 then some (own % 64, d) else none
    | none => none

/-- The transmission that falls at source sample `n` of stream `k`, whose instant is `t` (R314); a duplicate of the sample sends nothing again. -/
def State.transmitAt (s : State) (k n : Nat) (t : Frac) : State :=
  match s.streamOf k with
  | some (f, d) =>
    let delay := (d.getD 3 0).toNat % 2 ^ 32
    let slots := 2 ^ ((d.getD 0 0).toNat / 256 % 256)
    let sent := ((find s.sources k).map (·.sent)).getD []
    if (d.getD 0 0).getLsbD 2 && decide (delay ≤ n) && !sent.contains n then
      { s with
        timers := s.timers ++ [(s.time, .transmit f k (n - delay) t.floor)]
        sources := match find s.sources k with
          | some x => put s.sources k { x with sent := n :: sent.filter fun m => decide (n < m + slots) }
          | none => s.sources }
    else s
  | none => s

/-- Sample `n` of source `k` arrives, at the instant that its source has announced (R313, R318) or now, and every region on that source judges it (R257). -/
def State.takeSample (s : State) (k n : Nat) : State :=
  let t := ((s.samples.find? fun e => e.1 == k && e.2.1 == n).map (·.2.2)).getD s.time
  let s := { s with samples := s.samples.filter fun e => !(e.1 == k && e.2.1 == n) }
  let s := s.transmitAt k n t
  (List.range s.regions.length).foldl (fun s i =>
    let r := s.region i
    if s.sourceKey r ≠ k ∨ r.gauge = .off ∨ r.gauge = .refused ∨ r.far ∨ (r.halted ∧ s.elastic.contains k) then s
    else (s.setRegion i fun r => r.sample n t).judge i t) s

/-- `SOURCE_SAMPLE` (R257). -/
def execSourceSample (k n : Nat) (s : State) : Result := .next (s.takeSample k n)

/-- The expected instant of a region's next source sample. -/
def Region.expected (r : Region) : Frac := r.lastInst.add (r.measured.scale (r.missed + 1))

/-- When the next sample of a region counts as missed: half a period after its expected instant (R257), and for a distributed gauge, whose flit
may come up to 1 µs after its instant, not before that (R318) (log 67, DEDUCED). -/
def Region.missAt (r : Region) : Option Frac :=
  let live : Bool := !isSynthetic r.src && !r.stamps.isEmpty &&
    (match r.gauge with | .off | .refused => false | .acquire => decide (2 ≤ r.onTime) | _ => true)
  let half := r.measured.mul ⟨1, 2⟩
  if live then some (r.expected.add (if 32 ≤ r.src then half.max (Frac.ofNat 1000) else half)) else none

/-- `SAMPLE_MISSED` (R257): half a period has passed since the expected instant; a halted job's region counts none (R290) (log 59, DEDUCED). -/
def execSampleMissed (i : Nat) (s : State) : Result :=
  .next (
    let r := s.region i
    match r.missAt with
    | none => s
    | some t =>
      if s.time.lt t ∨ r.halted then s
      else
        let j := r.srcN + r.missed + 1 - r.base
        let s := s.setRegion i fun r =>
          { r with
            missed := r.missed + 1, good := 0, onTime := if r.gauge = .acquire then 0 else r.onTime
            stamps := if r.gauge = .acquire then [] else stamp (j, r.instOf (j : Nat)) r.stamps }
        let r := s.region i
        if (r.gauge = .locked ∨ r.gauge = .clamped) ∧ s.missOf i ≤ r.missed then s.timer s.time (.holdoverEntry i) else s)

/-! ### The gauge's transitions (R256, R257, R272) -/

/-- The pattern of a region starts at its entry node (R253). -/
def State.startPattern (s : State) (i : Nat) : State :=
  (s.makeReady i Acq.zero [((s.regionRcb i).map (·.pattern)).getD 0]).endCheck i

/-- The region is refused at lock (R257): its handler becomes ready (log 69, DEDUCED). -/
def State.refuse (s : State) (i : Nat) : State :=
  let s := s.setStatus i fun r => { r with gauge := .refused, refusedB := true }
  (s.callHandler i (s.region i).rcb).endCheck i

/-- A clock that a region may lock at, GHz (R256). -/
def clockOk (f : Frac) : Bool := Frac.le ⟨14, 10⟩ f && f.le ⟨195, 100⟩

/-- The highest step of a generator whose first region has clock `f0` and BOOST `boost` (R272). -/
def maxStep (f0 : Frac) (boost : Nat) : Nat := min (256 + boost) ((Frac.mul ⟨195 * 256, 100⟩ (Frac.div ⟨1, 1⟩ f0)).floor)

/-- Lock a region at clock `f0`, with `conv` for R6; its cycle 0 begins at `t`, the instant of source sample `base`. -/
def State.lock (s : State) (i : Nat) (f0 conv t per srcPer : Frac) (base : Nat) : State :=
  let s := s.setStatus i fun r =>
    { r with
      gauge := .locked, still := .no, f0 := f0.norm, conv := conv.norm, anchor := t, anchorCyc := 0, period := per, fresh := true, rcc := 0, rsc := 0
      base := base, baseInst := t, srcPeriod := srcPer, measured := srcPer, missed := 0, drift := 0, steady := 0, good := 0, stamps := [(0, t)] }
  s.startPattern i

/-- `GAUGE_LOCK` (R256, R257, R272): after 64 samples on time, or at once for a synthetic source, the region locks or is refused. -/
def execGaugeLock (i : Nat) (s : State) : Result :=
  .next (
    let r := s.region i
    if r.gauge ≠ .acquire then s
    else if isSynthetic r.src then
      match s.regionRcb i with
      | none => s
      | some b =>
        let f0 : Frac := Frac.norm ⟨r.p * b.synA, 10 * r.q * b.synB⟩
        let top : Nat → Frac := fun m => f0.mul ⟨m, 256⟩
        match find s.gens r.src with
        | some g =>
          if g.inUse then
            if g.a ≠ b.synA ∨ g.b ≠ b.synB ∨ !clockOk f0 ∨ Frac.lt ⟨195, 100⟩ (top g.smax) then s.refuse i
            else
              let n := if g.base.le s.time then g.baseN + ((s.time.sub g.base).div g.period).floor + 1 else g.baseN
              s.lock i f0 (top g.smax) (g.instOf n) ((g.period.scale r.q).div (Frac.ofNat r.p)) g.period n
          else s.refuse i
        | none =>
          if !clockOk f0 then s.refuse i
          else
            let g : Gen := ⟨true, b.synA, b.synB, 256, maxStep f0 b.boost, b.boost, false, s.time, 0⟩
            State.lock { s with gens := put s.gens r.src g } i f0 (top g.smax) s.time ((g.period.scale r.q).div (Frac.ofNat r.p)) g.period 0
    else if r.onTime < 64 then s
    else
      let f0 := (Frac.ofNat r.p).div (r.srcPeriod.scale r.q)
      if !clockOk f0 then s.refuse i
      else
        let t := s.instAhead r (r.srcN + 1)
        s.lock i f0 f0 t r.sourced r.srcPeriod (r.srcN + 1))

/-- `GAUGE_CLAMP` (R257): the clock is held at the nearer limit of f0 ± 200 ppm. -/
def execGaugeClamp (i : Nat) (s : State) : Result :=
  .next (
    let r := s.region i
    if r.gauge ≠ .locked ∨ r.drift < 1024 then s
    else
      let base := Frac.div ⟨1, 1⟩ r.f0
      let per := if r.srcPeriod.lt r.nominal then base.mul ⟨10000, 10002⟩ else base.mul ⟨10000, 9998⟩
      s.setStatus i fun r => { r.repace per with gauge := .clamped, steady := 0, slew := false })

/-- `GAUGE_UNCLAMP` (R257): the region is LOCKED again and slews (R346). -/
def execGaugeUnclamp (i : Nat) (s : State) : Result :=
  .next (
    let r := s.region i
    if r.gauge ≠ .clamped ∨ r.steady < 1024 then s else s.setStatus i fun r => { r with gauge := .locked, drift := 0, slew := true })

/-- `HOLDOVER_ENTRY` (R257): the clock holds its last rate. -/
def execHoldoverEntry (i : Nat) (s : State) : Result :=
  .next (
    let r := s.region i
    if (r.gauge = .locked ∨ r.gauge = .clamped) ∧ s.missOf i ≤ r.missed then
      s.setStatus i fun r => { r with gauge := .holdover, holdRsc := r.rsc, good := 0 }
    else s)

/-- `HOLDOVER_RELOCK` (R257): after 8 good samples the region is LOCKED and slews; `RSC` keeps its count. -/
def execHoldoverRelock (i : Nat) (s : State) : Result :=
  .next (
    let r := s.region i
    if r.gauge ≠ .holdover ∨ r.good < 8 then s else s.setStatus i fun r => { r.resync with gauge := .locked, drift := 0, slew := true })

/-! ### The watchdog (R269) -/

/-- WDOG of a unit's RCB. -/
def State.wdogOf (s : State) (un : Unit) : Nat := ((s.rcbOf un).map (·.wdog)).getD 0

/-- `WATCHDOG` (R269), at the end of a boundary's cycle: the count of boundaries without `waits`; at WDOG the region is to freeze in the next
cycle, and the handler becomes ready (log 64, DEDUCED). -/
def execWatchdog (u : Nat) (s : State) : Result :=
  .next (match s.unit? u with
    | none => s
    | some un =>
      let r := s.region un.region
      let limit := s.wdogOf un
      if limit = 0 ∨ !r.openCyc ∨ r.rcc % r.p ≠ 0 ∨ (un.run ≠ .running ∧ un.run ≠ .frozen) then s
      else
        let after : Bool := match un.word0 with | some c => decide (c < r.rcc) | none => false
        let m := if !after || un.walkers.any (·.beat) then 0 else un.wdog + 1
        let s := s.setUnit u { un with wdog := m, walkers := un.walkers.map fun (w : Walker) => { w with beat := false }, fired := decide (m = limit) }
        if m = limit then
          let s := s.setStatus un.region fun r => { r with wdf := true, stopAt := some (r.rcc + 1) }
          s.callHandler un.region ((s.kernels[un.kernel]?.map (·.rcb)).getD (s.region un.region).rcb)
        else s)

end Sys2Proof.Machine
end

