-- ==== Sys2Proof/Machine/Halt.lean ====
section
/-! DEFINITION. The halt of a job, single-step and resume (R288-R295). -/

namespace Sys2Proof.Machine

/-- Change job slot `j`. -/
def State.setJob (s : State) (j : Nat) (f : Job → Job) : State :=
  match find s.jobs j with
  | some x => { s with jobs := put s.jobs j (f x) }
  | none => s

/-- Every region of the job is halted. -/
def State.allHalted (s : State) (job : Nat) : Bool := s.regions.all fun r => r.job != job || r.halted

/-- Free slots of stream source `k` (R314): 2^LSLOTS less the samples that the program has not consumed, saturating; a free value where the ring's
`RELSN` cannot be read (log 92, DEDUCED). -/
def State.creditOf (s : State) (f : Nat) (d : List W64) (k : Nat) : Nat × State :=
  let ctl := (d.getD 0 0).toNat
  let slots := 2 ^ (ctl / 256 % 256)
  let size := 64 * ((ctl / 65536 % 65536 + 63) / 64) + 64
  let high := (find s.sources k).bind (·.high)
  match high, s.readVa f ((d.getD 1 0).toNat + slots * size) 8 with
  | none, _ => (min slots 65535, s)
  | some h, some r => (min (slots + r - h) 65535, s)
  | some _, none => s.choose 65536

/-- Freeze the CREDIT of a region's stream source at its halt (R292, R314). -/
def State.freezeCredit (s : State) (k : Nat) : State :=
  match (if k < 8 then s.streamOf k else none), find s.sources k with
  | some (f, d), some x =>
    if x.credit.isSome then s
    else
      let (c, s) := s.creditOf f d k
      { s with sources := put s.sources k { x with credit := some c } }
  | _, _ => s

/-- An atomic at memory of this package beyond the unit's cluster. -/
def Beat.isOffAtomic (u : Nat) (b : Beat) : Bool :=
  match b.plan.sink with | .atomic q => (match q.space with | .remote _ => false | sp => isOff u sp) | _ => false

/-- The off-core writes and atomics of beats that have issued are performed at memory during the halt (R290) (log 26, DEDUCED). -/
def State.settleWrites (s : State) (u : Nat) : State :=
  match s.unit? u with
  | none => s
  | some un =>
    (un.beats.filter fun b => (b.isOffWrite u || b.isOffAtomic u) && !b.performed && !b.late && !b.unanswered).foldl (fun s b =>
      if !b.plain then s.performAtomic u b
      else
      let s := if b.got then s else s.readBeat u b.order
      match (s.unit? u).bind fun un => un.beats.find? fun q => q.order == b.order with
      | some b => s.writeBeat u b
      | none => s) s

/-- `HALT_WAVE_ARRIVAL` (R289): the region halts at the end of its cycle h_R, or of a step's one cycle (R294). The job is halted once each of
its regions is. -/
def execHaltWaveArrival (i : Nat) (s : State) : Result :=
  .next (
    let r := s.region i
    if !r.haltDue then s
    else
      let s := s.setRegion i fun r => { r with halted := true, haltAt := none, steps := 0, haltN := if r.halted then r.haltN else r.srcN }
      let s := (s.unitsOf i).foldl (fun s u => s.settleWrites u) (s.freezeCredit r.src)
      if s.allHalted r.job then s.setJob r.job fun j => { j with jstate := if j.jstate = 4 then 4 else 2 } else s)

/-- The next cycle of a halted region begins at `t` (R294, R295). A synthetic generator's samples have stood still for it: those that it had taken keep
their instants, and the part that is left of the sample under way runs from `t` at the generator's present rate (R256, R272). -/
def State.startClock (s : State) (i : Nat) (t : Frac) : State :=
  let r := s.region i
  match if isSynthetic r.src then find s.gens r.src else none with
  | none => s.setRegion i fun r => { r with anchor := t, anchorCyc := r.next }
  | some g =>
    let end_ := r.cycleTime r.next
    let m := r.sampleAt end_
    let m := (if (r.instOf m).lt end_ then m + 1 else m).toNat
    let left := ((r.instOf m).sub end_).div r.srcPeriod
    let taken := stamp (m - 1, r.instOf (m - 1 : Nat)) (r.stamps.dropWhile fun e => decide (m ≤ e.1))
    s.setRegion i fun r =>
      { r with
        anchor := t, anchorCyc := r.next, period := (g.period.scale r.q).div (Frac.ofNat r.p), srcPeriod := g.period
        stamps := if r.fresh then [(0, t)] else (m, t.add (g.period.mul left)) :: taken }

/-! ### Single-step (R294) -/

/-- Let a region of a halted job run exactly one cycle from now. -/
def State.stepRegion (s : State) (job va : Nat) : State :=
  match s.regions.findIdx? fun r => r.job == job && ((s.rcbs[r.rcb]?).map (·.va)) == some va with
  | none => s
  | some i =>
    let r := s.region i
    if !r.halted || !{ r with halted := false }.runs then s
    else
      ((s.startClock i s.time).setRegion i fun r => { r with steps := r.next + 1 }).setJob job fun j => { j with jstate := 3 }

/-- `JOB_STEP` (R294): in the halted state, the region that `JFOCUS` names runs one cycle, on every package. -/
def execJobStep (j : Nat) (s : State) : Result :=
  .next (match find s.jobs j with
    | none => s
    | some x => if x.jstate ≠ 2 then s else (s.stepRegion j x.jfocus.toNat).tellJob 9 j 0 (leBytes 8 x.jfocus.toNat))

/-! ### Resume (R295) -/

/-- The job's largest hop count. -/
def State.jobHops (s : State) (job : Nat) : Nat := (s.rcbs.filter (·.job == job)).foldl (fun m b => max m (s.hopsTo b.homePkg)) 0

/-- The job is to resume at job time `tr`. -/
def State.resumeJob (s : State) (job : Nat) (tr : Frac) : State :=
  (s.setJob job fun j => { j with jstate := 4, resumeAt := some tr }).timer tr (.resumeAtTr job)

/-- `JOB_RESUME` (R295): `JTRES` names TR; a TR that lies too early is refused, and STATE stays 2. -/
def execJobResume (j : Nat) (s : State) : Result :=
  .next (match find s.jobs j with
    | none => s
    | some x =>
      let tr := Frac.ofNat x.jtres.toNat
      if x.jstate ≠ 2 ∨ tr.lt (s.time.add (Frac.ofNat (150 + 450 * s.jobHops j))) then s
      else (s.resumeJob j tr).tellJob 8 j 0 (leBytes 8 x.jtres.toNat))

/-- Restart a halted region at `tr` (R295): its next cycle begins there. On a live source `RSC` will jump by the samples passed, rounded
down to a multiple of Q, and the clock slews (R346); on a gauge distributed from a synthetic source the samples passed are not counted
(log 66, DEDUCED). -/
def State.restartRegion (s : State) (i : Nat) (tr : Frac) : State :=
  let synth := isSynthetic (s.region i).src
  let still := s.elastic.contains (s.region i).src
  let s := s.setRegion i fun r =>
    -- samples that did not come during the halt count as taken at their expected instants (R290)
    let gone := if synth || r.stamps.isEmpty then 0 else ((tr.sub r.lastInst).div r.measured).floor
    let r : Region := { r with
      halted := false, haltAt := none, steps := 0, missed := 0, srcN := r.srcN + gone, lastInst := r.lastInst.add (r.measured.scale gone) }
    if still ∧ 0 < gone then { r with base := r.base + gone, stamps := stamp (r.srcN - (r.base + gone) + 1, r.lastInst.add r.measured) r.stamps } else r
  let r := s.region i
  let d := (r.srcN - r.haltN) / r.q * r.q
  let s := if r.runs then (s.startClock i tr).setRegion i fun r =>
      { r with jump := if synth || still then none else some d, slew := r.slew || (!synth && r.gauge == .locked) }
    else s
  let r := s.region i
  if r.gauge = .frozen ∧ r.still = .drained ∧ !r.shedding ∧ !isSynthetic r.src ∧ 8 ≤ r.good then s.planThaw i tr
  else if r.gauge = .frozen ∧ r.thawFrom.isSome then (if isSynthetic r.src then s.planSynthetic i else s)
  else s

/-- A unit that a resume runs on (R295): one stopped by `WATCH` or `BKPT`, or one whose ACTION 1 was written during the halt. -/
def Unit.resumesWithJob (un : Unit) : Bool :=
  un.run == .stopped &&
    (un.cause.toNat % 256 == Cause.code .watch || un.cause.toNat % 256 == Cause.code .bkpt ||
      (match un.stop with | some st => (st.action.map (·.1)) == some 1 | none => false))

/-- `RESUME_AT_TR` (R295): every region of the job restarts; units stopped by `WATCH` or `BKPT` run on; aborts asked for during the halt are
made; the first-cause fields are cleared (R293) (log 50, DEDUCED). -/
def execResumeAtTr (j : Nat) (s : State) : Result :=
  .next (match find s.jobs j with
    | none => s
    | some x =>
      if x.jstate ≠ 4 then s
      else
        let tr := x.resumeAt.getD s.time
        let mine := (List.range s.regions.length).filter fun i => (s.region i).job == j
        let s := mine.foldl (fun s i => s.restartRegion i tr) s
        let thaws : Nat → Bool := fun k => mine.any fun i => (s.region i).src == k
        let sources := s.sources.map fun (e : Nat × Source) => if thaws e.1 then (e.1, { e.2 with credit := none }) else e
        let s : State := { s with sources }
        let us := (s.units.filter fun e => mine.contains e.2.region).map (·.1)
        let s := us.foldl (fun s u =>
          match s.unit? u with
          | some un =>
            if un.resumesWithJob then
              if (s.region un.region).still = .policy then
                ((s.domain u).foldl (fun s v => s.modUnit v fun un =>
                  { un with stop := un.stop.map fun st => { st with action := some (1, tr.num, tr.den) } }) s).allowThaw un.region tr
              else (s.domain u).foldl (fun s v => s.resumeAt v (s.region un.region).next) s
            else
              match un.stop.bind (·.action) with
              | some (2, _, _) => outcomeState s (execActionAbort u s)
              | _ => s
          | none => s) s
        let s := s.setJob j fun y =>
          { y with jstate := 0, jcause := 0, jorig := 0, jtstop := 0, first := none, resumeAt := none }
        -- what was compared during the halt is evaluated again (R290)
        let s := (s.nodes.filter fun (n : Node) => mine.contains n.region && n.state == .waiting).foldl (fun s n =>
          s.soon 1000 (.watchNode (nodeKey n.region n.addr))) s
        s.regrant)

end Sys2Proof.Machine
end

