-- ==== Sys2Proof/Machine/Sched.lean ====
section
/-! DEFINITION. The pattern scheduler (R250-R254, R261-R268, R280): arm and retire, watched words, placement, cast-on and retire of KERNEL
nodes, and the other nodes. -/

namespace Sys2Proof.Machine

/-! ### Arm (R250, R251, R253) -/

/-- An RCB as it stands in memory. -/
structure RawRcb where
  raw : Nat
  deriving DecidableEq, Repr

/-- The `n` bytes of an RCB at offset `a`. -/
def RawRcb.get (x : RawRcb) (a n : Nat) : Nat := x.raw / 2 ^ (8 * a) % 2 ^ (8 * n)

/-- Override bit `b` (R251). -/
def RawRcb.own (x : RawRcb) (b : Nat) : Bool := (x.get 8 8).testBit b

/-- The fields of an RCB keep the limits of R250 and R251; those that it inherits are its parent's (log 71, DEDUCED). -/
def RawRcb.ok (x : RawRcb) (root : Bool) (up part : Nat) : Bool :=
  let g := x.get
  let own := fun b => root || x.own b
  let gauge := g 0x10 8
  let gv := gauge.testBit 63
  let p := gauge / 2 ^ 32 % 2 ^ 25
  let q := gauge / 2 ^ 8 % 2 ^ 17
  let src := gauge % 64
  let syn := g 0x18 8
  g 0 8 == up && decide (g 8 8 < 2 ^ 13) && g 0x3F 1 == 0 && g 0x5C 4 == 0 && g 0x9C 4 == 0 && g 0xD9 1 == 0 && g 0xDC 36 == 0 &&
    (if gv then
       gauge == 2 ^ 63 + p * 2 ^ 32 + q * 2 ^ 8 + src && decide (1 ≤ p) && decide (p ≤ 2 ^ 24) && decide (1 ≤ q) && decide (q ≤ 2 ^ 16) &&
         (if 16 ≤ src ∧ src < 32 then syn % 2 ^ 32 != 0 && syn / 2 ^ 32 != 0 else syn == 0)
     else gauge == 0 && syn == 0 && g 0x20 8 == 0) &&
    (!own 0 || (g 0x28 8 % 65536 == 0 && g 0x34 2 != 0)) && decide (g 0x36 1 < 16) && decide (g 0x37 1 < 4) && g 0x38 1 == part &&
    decide (g 0x39 1 < 3) && (!own 6 || (g 0x48 8 % 65536 == 0 && g 0x50 8 % 65536 == 0)) && g 0xDA 1 / 2 == 0 &&
    (!root || (g 0xB8 8 % 8 == 0 && decide (g 0xD8 1 ≤ 32)))

/-- A field's effective value (R251): its own where override bit `b` is 1, else the parent's. -/
def RawRcb.pick {α : Type} (x : RawRcb) (up : Option Rcb) (b : Nat) (f : Rcb → α) (mine : α) : α :=
  match up with
  | some e => if x.own b then mine else f e
  | none => mine

/-- The effective fields of an RCB (R251), at place `at_` of the table, under its parent's. -/
def RawRcb.take (x : RawRcb) (job va at_ : Nat) (up : Option (Nat × Rcb)) : Rcb :=
  let g := x.get
  let gauge := g 0x10 8
  let gv := gauge.testBit 63
  let pick := x.pick (up.map (·.2))
  let pickB := x.pick (up.map (·.2))
  let pickL := x.pick (up.map (·.2))
  { job, va, parent := (up.map (·.1)).getD at_, region := if gv then at_ else (up.map (·.2.region)).getD outside, gv
    pattern := g 0x20 8, mem := pick 0 (·.mem) (g 0x28 8), energy := pick 0 (·.energy) (g 0x30 4), units := pick 0 (·.units) (g 0x34 2)
    prio := pick 1 (·.prio) (g 0x36 1), strict := pickB 2 (·.strict) (g 0x37 1 % 2 == 1), admitted := pickB 3 (·.admitted) (g 0x37 1 / 2 == 1)
    part := g 0x38 1, policy := pick 4 (·.policy) (g 0x39 1), boost := pick 10 (·.boost) (g 0x3A 1)
    miss := pick 9 (·.miss) (if g 0x3B 1 = 0 then 4 else g 0x3B 1), hold := pick 9 (·.hold) (if g 0x3C 2 = 0 then 64 else g 0x3C 2)
    spacing := pick 8 (·.spacing) (g 0x3E 1), course := pickL 8 (·.course) ((List.range 160).map fun u => g 0x60 60 / 2 ^ (3 * u) % 8)
    handler := pick 5 (·.handler) (g 0x40 8), save0 := pick 6 (·.save0) (g 0x48 8), save1 := pick 6 (·.save1) (g 0x50 8)
    wdog := pick 7 (·.wdog) (g 0x58 4), crec := pick 11 (·.crec) (g 0xB0 8), homePkg := pick 12 (·.homePkg) (g 0xDB 1)
    homeDie := pick 12 (·.homeDie) (g 0xDA 1 % 2), p := gauge / 2 ^ 32 % 2 ^ 25, q := gauge / 2 ^ 8 % 2 ^ 17, src := gauge % 64
    synA := g 0x18 4, synB := g 0x1C 4 }

/-- Read the RCB tree depth first through FCHILD and NSIB, children in sibling order (R253): the words to read and their parents stand in
`todo`; each RCB keeps whether its budget is its own. None where a check fails. -/
def State.readTree (s : State) (job part : Nat) : Nat → List (Nat × Option Nat) → List (Rcb × Bool) → Option (List (Rcb × Bool))
  | 0, todo, acc => if todo.isEmpty then some acc else none
  | _ + 1, [], acc => some acc
  | n + 1, (va, up) :: todo, acc =>
    if va = 0 then State.readTree s job part n todo acc
    else if va % 256 ≠ 0 ∨ acc.any (·.1.va == va) then none
    else
      match s.readVa part va 256 with
      | none => none
      | some raw =>
        let x : RawRcb := ⟨raw⟩
        let base := s.rcbs.length
        let mine := base + acc.length
        let parent := up.bind fun k => (acc[k - base]?).map fun e => (k, e.1)
        if !x.ok up.isNone ((parent.map (·.2.va)).getD 0) part then none
        else
          let next := [(x.get 0xC0 8, some mine)] ++ (if up.isNone then [] else [(x.get 0xC8 8, up)])
          State.readTree s job part n (next ++ todo) (acc ++ [(x.take job va mine parent, x.own 0)])

/-- The children's own budgets together do not exceed their parent's (R251); an energy budget of 0 is none. -/
def budgetsOk (base : Nat) (l : List (Rcb × Bool)) : Bool :=
  l.zipIdx.all fun e =>
    let kids := (l.zipIdx.filter fun c => c.2 != e.2 && c.1.1.parent == base + e.2 && c.1.2).map (·.1.1)
    decide ((kids.map (·.units)).sum ≤ e.1.1.units) && decide ((kids.map (·.mem)).sum ≤ e.1.1.mem) &&
      (e.1.1.energy == 0 || decide ((kids.map (·.energy)).sum ≤ e.1.1.energy))

/-- The partition of a job slot: that of its VF (R304). -/
def partOf (job : Nat) : Nat := job / 16

/-- Write a job's arm word. -/
def State.setArm (s : State) (j : Nat) (v : Nat) : State :=
  match find s.jobs j with
  | some x => s.writePa coreAgent (partOf j) x.armPa (leBytes 8 v)
  | none => s

/-- The arm word of a job. -/
def State.armWord (s : State) (j : Nat) : Nat :=
  match find s.jobs j with
  | some x => leNat (s.decipher .dram (partOf j) x.armPa (s.dram.bytes x.armPa 8))
  | none => 0

/-- Units that no other region has reserved (R266). -/
def State.unreserved (s : State) (i u : Nat) : Bool := !(s.regions.zipIdx.any fun (e : Region × Nat) => e.2 != i && e.1.reserved.contains u)

/-- Kernel `k` may be pre-empted for priority `prio` (R266): it runs, its region is not admitted and of lower priority, and it has save
areas (log 70, DEDUCED). -/
def State.victim (s : State) (prio : Nat) (k : Kernel) : Bool :=
  k.state == .running &&
    (match s.rcbs[k.rcb]?, s.regionRcb k.region with
     | some b, some g => !g.admitted && decide (b.prio < prio) && b.save0 != 0 && b.save1 != 0
     | _, _ => false)

/-- The kernels that may be pre-empted for priority `prio`, lowest priority first and then the most recently cast on (R266). -/
def State.victims (s : State) (prio : Nat) : List (Nat × Kernel) :=
  let low := fun (k : Kernel) => ((s.rcbs[k.rcb]?).map (·.prio)).getD 0
  ((List.range s.kernels.length).filterMap fun k => match s.kernels[k]? with
    | some x => if s.victim prio x then some (k, x) else none
    | none => none).mergeSort fun a b => decide (low a.2 < low b.2) || (low a.2 == low b.2 && decide (b.2.castOrder ≤ a.2.castOrder))

/-- Ask for the units of kernel `k` (R284). -/
def State.askFor (s : State) (k : Nat) : State := outcomeState s (execPreemptionRequest k s)

/-- No kernel holds unit `u`, nor has it been granted to one whose contexts are being restored. -/
def State.isFree (s : State) (u : Nat) : Bool := (s.unit? u).isNone && !s.kernels.any fun k => k.state == .preempted && k.live.contains u

/-- Reserve an admitted region's units on its HOME die at arm (R266): free ones first, then those of the kernels that it may pre-empt. -/
def State.admitRegion (s : State) (i : Nat) : Option State :=
  match s.regionRcb i with
  | none => none
  | some b =>
    let all := ((List.range 80).map (80 * b.homeDie + ·)).filter (s.unreserved i)
    let held := (s.victims b.prio).flatMap fun e => (e.2.live.filter all.contains).map fun u => (e.1, u)
    let free := all.filter s.isFree
    let taken := held.take (b.units - free.length)
    let got := (free ++ taken.map (·.2)).take b.units
    if got.length < b.units then none
    else
      let ks := taken.foldl (fun (l : List Nat) e => if l.contains e.1 then l else l ++ [e.1]) []
      some (ks.foldl State.askFor (s.setRegion i fun r => { r with reserved := got }))

/-- Start one region of an armed job (R253, R257): ACQUIRE, or OFF where its pattern is empty. A region homed on another package is taken
through ACQUIRE by that package's scheduler, which writes its STATUS (R250). -/
def State.armRegion (s : State) (i : Nat) : State :=
  match s.regionRcb i with
  | none => s
  | some b =>
    if b.pattern = 0 then s.postStatus i
    else if b.homePkg ≠ s.boot.pkgNo then s.setRegion i fun r => { r with gauge := .acquire, far := true }
    else
      let s := s.setStatus i fun r => { r with gauge := .acquire }
      if !b.admitted then (if isSynthetic b.src then s.timer s.time (.gaugeLock i) else s)
      else
        match s.admitRegion i with
        | some s => if isSynthetic b.src then s.timer s.time (.gaugeLock i) else s
        | none => s.refuse i

/-- The RCBs and regions of an earlier arm of a slot belong to no job any more, and their STATUS words are watched no more. -/
def State.forgetJob (s : State) (j : Nat) : State :=
  let s := s.unwatchIf fun w => match w with | .status b => ((s.rcbs[b]?).map (·.job)) == some j | .refused k => k == j | _ => false
  { s with
    rcbs := s.rcbs.map fun (b : Rcb) => if b.job = j then { b with job := outside } else b
    regions := s.regions.map fun (r : Region) => if r.job = j then { r with job := outside, reserved := [] } else r }

/-- An arm is refused (R253): the arm word becomes 4, and the root's STATUS, a watched word, holds REFUSED and PERR (R252). -/
def State.refuseArm (s : State) (j : Nat) : State :=
  match find s.jobs j with
  | none => s
  | some x =>
    let va := x.jreg.toNat + 0xA0
    let s := (s.setArm j 4).writeVa (partOf j) va 8 (2 ^ 11 + 2 ^ 13)
    match s.locate (partOf j) va with
    | some p => s.watch p.2 (.refused j)
    | none => s

/-- `ARM` (R253): the write of 1 to the arm word of a registered job: its tree is read and checked; the job is refused, or its regions start. -/
def execArm (j : Nat) (s : State) : Result :=
  .next (match find s.jobs j with
    | none => s
    | some x =>
      if x.jslot ≠ 1 ∨ x.armed ∨ s.armWord j ≠ 1 then s
      else
        let part := partOf j
        let root := x.jreg.toNat
        let s := s.forgetJob j
        let tree := s.readTree j part 16384 [(root, none)] []
        let s := (tree.getD []).foldl (fun (s : State) (e : Rcb × Bool) => s.queueVa part e.1.va 256) s
        match tree with
        | none => s.refuseArm j
        | some l =>
          if !budgetsOk s.rcbs.length l then s.refuseArm j
          else
            let base := s.rcbs.length
            let f := fun a n => (s.readVa part (root + a) n).getD 0
            let s := (s.setJob j fun y => { y with armed := true, xtab := f 0xD0 8, xcnt := f 0xD8 1, jstate := 0 }).setArm j 2
            let s := { s with rcbs := s.rcbs ++ l.map Prod.fst }
            let s := s.tellKey part (s.jobPackages j)
            let s := l.foldl (fun s e => (s.writeVa part (e.1.va + 0xA0) 8 0).writeVa part (e.1.va + 0xA8) 8 0) s
            -- every STATUS is a watched word (R252)
            let s := l.zipIdx.foldl (fun s e => match s.locate part (e.1.1.va + 0xA0) with
              | some x => s.watch x.2 (.status (base + e.2))
              | none => s) s
            let n := s.regions.length
            let gvs := l.zipIdx.filter fun e => e.1.1.gv
            let made := gvs.map fun e =>
              let b := e.1.1
              { Region.zero with job := j, rcb := base + e.2, p := b.p, q := b.q, src := b.src, strict := b.strict, armed := s.order }
            let s := { s with regions := s.regions ++ made, order := s.order + 1 }
            let s := (List.range made.length).foldl (fun s i => s.armRegion (n + i)) s
            if (List.range made.length).all fun i => (s.region (n + i)).gauge == .off then
              s.timer (s.time.add (Frac.ofNat (farNs (s.jobHops j)))) (.jobRetire j)
            else s)

/-- `JOB_RETIRE` (R253): every region's pattern has ended: the release at `job` scope completes, and the arm word becomes 3 (log 72, DEDUCED). -/
def execJobRetire (j : Nat) (s : State) : Result :=
  .next (match find s.jobs j with
    | none => s
    | some x =>
      if !x.armed ∨ s.regions.any fun r => r.job == j && r.gauge != .off then s
      else
        let who : Agent := ⟨0, outside, outside, j, partOf j, outside, outside⟩
        ((s.publishWho who (fun a => a.job == j) 8 s.time).setArm j 3).setJob j fun y => { y with armed := false, armId := 0 })

/-! ### Nodes (R263) -/

/-- Run one node in state `st` that is not of a halted job; one that can no longer be read is a pattern error, and its path ends. -/
def State.nodeStep (s : State) (key : Nat) (st : NState → Bool) (f : Nat → Node → NodeInfo → Nat → State) : State :=
  let addr := key % 2 ^ 48
  let region := key / 2 ^ 48
  match s.nodes.find? fun n => n.addr == addr && n.region == region with
  | none => s
  | some n =>
    if !st n.state || s.jobHalted region then s
    else
      match s.nodeInfo region addr, s.regionRcb region with
      | some x, some b => f region n x b.part
      | _, _ => (s.patternError region (s.badNodeRcb region addr)).nodeEnds region addr

/-- A pattern error of a node that has begun: its path ends. -/
def State.nodeFails (s : State) (region addr rcb : Nat) : State := (s.patternError region rcb).nodeEnds region addr

/-- `COND` (R263). -/
def execCond (n : Nat) (s : State) : Result :=
  .next (s.nodeStep n (· == .ready) fun region nd x part =>
    match s.readVa part (x.get 32 8) 8 with
    | some w =>
      (s.nodeReads region nd.addr part (x.get 32 8)).nodeDone region nd.addr [if w &&& x.get 40 8 = x.get 48 8 then x.next0 else x.next1]
    | none => s.nodeFails region nd.addr x.rcb)

/-- `LOOP_NODE` (R263): ITER counts as 0 until the scheduler has written it since the arm. -/
def execLoopNode (n : Nat) (s : State) : Result :=
  .next (s.nodeStep n (· == .ready) fun region nd x part =>
    match s.readVa part (x.get 32 8) 8 with
    | some w =>
      let iter := if s.loops.contains n then x.get 40 8 else 0
      let s : State := { s.nodeReads region nd.addr part (x.get 32 8) with loops := if s.loops.contains n then s.loops else n :: s.loops }
      if iter < w then (s.writeVa part (nd.addr + 40) 8 (iter + 1)).nodeDone region nd.addr [x.next0]
      else (s.writeVa part (nd.addr + 40) 8 0).nodeDone region nd.addr [x.next1]
    | none => s.nodeFails region nd.addr x.rcb)

/-- `SWITCH` (R263). -/
def execSwitch (n : Nat) (s : State) : Result :=
  .next (s.nodeStep n (· == .ready) fun region nd x part =>
    match s.readVa part (x.get 32 8) 8 with
    | some w =>
      let s := s.nodeReads region nd.addr part (x.get 32 8)
      if w ≤ x.get 48 1 then
        match s.readVa part (x.get 40 8 + 8 * w) 8 with
        | some t => (s.nodeReads region nd.addr part (x.get 40 8 + 8 * w)).nodeDone region nd.addr [t]
        | none => s.nodeFails region nd.addr x.rcb
      else s.nodeDone region nd.addr [x.next0]
    | none => s.nodeFails region nd.addr x.rcb)

/-- `JOIN` (R263): it counts an arrival, with what that has acquired; at JCOUNT the count is reset and both successors become ready. -/
def execJoin (n : Nat) (s : State) : Result :=
  .next (s.nodeStep n (· == .ready) fun region nd x _ =>
    let (c, a) : Nat × Acq := match s.joins.find? fun e => e.1 == n with | some e => e.2 | none => (0, Acq.zero)
    let a := a.merge nd.acq
    if c + 1 = x.get 2 2 then
      (State.modNode { s with joins := s.joins.filter fun e => e.1 != n } region nd.addr fun nd => { nd with acq := a }).nodeDone region nd.addr
        [x.next0, x.next1]
    else State.nodeDone { s with joins := (n, c + 1, a) :: s.joins.filter fun e => e.1 != n } region nd.addr [])

/-- Set the state of a node; `order` is when it began to wait. -/
def State.setNode (s : State) (region addr : Nat) (st : NState) : State :=
  { s with
    nodes := s.nodes.map fun (n : Node) => if n.addr == addr && n.region == region then { n with state := st, order := s.order } else n
    order := s.order + 1 }

/-- Evaluate a WATCH node (R262, R263): its successors become ready once the word differs from VALUE; until then it waits, with the word in its
die's table, or for a free entry of it. -/
def State.evalWatch (s : State) (key : Nat) : State :=
  s.nodeStep key (· != .cast) fun region nd x part =>
    match s.locate part (x.get 32 8), s.readVa part (x.get 32 8) 8 with
    | some (_, pa), some w =>
      if w ≠ x.get 40 8 then
        ((s.nodeReads region nd.addr part (x.get 32 8)).unwatch (.node nd.addr region)).nodeDone region nd.addr [x.next0, x.next1]
      else if nd.state = .waiting then s
      else if s.tableFree (pa / 2 ^ 38) = 0 then (if nd.state = .tableFull then s else s.setNode region nd.addr .tableFull)
      else (s.watch pa (.node nd.addr region)).setNode region nd.addr .waiting
    | _, _ => (s.unwatch (.node nd.addr region)).nodeFails region nd.addr x.rcb

/-- `WATCH_NODE` (R263); the nodes that wait for a free entry of the table come first, in the order in which they began to wait (R262). -/
def execWatchNode (n : Nat) (s : State) : Result :=
  .next ((s.tableWaiters.foldl (fun (s : State) w => s.evalWatch (nodeKey w.region w.addr)) s).evalWatch n)

/-! ### Watched words (R252, R253, R262, R280) -/

/-- The ACTION word of a stopped unit reads `v` at time `w` (R280, R282): 1 resumes and 2 aborts its domain; during a halt it waits for the
job's resume (log 80, DEDUCED). -/
def State.takeAction (s : State) (u v : Nat) (w : Frac) : State :=
  match s.unit? u with
  | none => s
  | some un =>
    let open_ : Bool := match un.stop with | some st => st.complete && st.action.isNone | none => false
    if (v ≠ 1 ∧ v ≠ 2) ∨ un.run ≠ .stopped ∨ !open_ then s
    else
      let s := (s.domain u).foldl (fun s d => (s.modUnit d fun un =>
        { un with stop := un.stop.map fun st => { st with action := some (v, w.num, w.den) } }).unwatch (.action d)) s
      let r := s.region un.region
      if r.halted then s
      else if v = 2 then outcomeState s (execActionAbort u s)
      else if r.still = .policy then s.allowThaw un.region w
      else s.timer (w.add (Frac.ofNat 2000)) (.actionResume u)

/-- The gauge state of that code (R257). -/
def Gauge.ofCode : Nat → Gauge
  | 0 => .off | 1 => .acquire | 2 => .locked | 3 => .clamped | 4 => .holdover | 5 => .draining | 6 => .frozen | _ => .refused

/-- The STATUS word of RCB `c` has been written (R252): 0 in SHED requests re-admission, and no other write has an effect, but that of the
scheduler of another package in a region homed there, whose end ends the region here as well (R253). -/
def State.takeStatus (s : State) (c pa : Nat) : State :=
  match s.rcbs[c]? with
  | none => s
  | some b =>
    let v := leNat (s.decipher .dram b.part pa (s.dram.bytes pa 8))
    match s.regions.findIdx? fun r => r.rcb == c && r.job == b.job with
    | none => if v = 0 then s else s.writeVa b.part (b.va + 0xA0) 8 0
    | some i =>
      let r := s.region i
      if r.far then
        let s := s.setRegion i fun r => { r with gauge := Gauge.ofCode (v % 8) }
        if v % 8 = 0 ∧ r.gauge ≠ .off then s.jobCheck i else s
      else if r.shed ∧ !v.testBit 9 then s.timer s.time (.shedClear i)
      else if v ≠ r.status then s.postStatus i
      else s

/-- `WATCHED_WORD_WRITE` of the word at address `a` of die `d` (R262): the scheduler re-reads it for everything that it stands for. -/
def execWatchedWordWrite (d a : Nat) (s : State) : Result :=
  let pa := 2 ^ 38 * d + a
  .next ((s.watched.filter fun e => e.1 == pa).foldl (fun s e =>
    match e.2 with
    | .arm j => if s.armWord j = 1 then s.soon 8000 (.arm j) else s
    | .node addr region => s.evalWatch (nodeKey region addr)
    | .status c => s.takeStatus c pa
    | .refused j =>
      if leNat (s.decipher .dram (partOf j) pa (s.dram.bytes pa 8)) = 2 ^ 11 + 2 ^ 13 then s
      else s.writePa coreAgent (partOf j) pa (leBytes 8 (2 ^ 11 + 2 ^ 13))
    | .action u =>
      match s.unit? u with
      | some un => s.takeAction u (leNat (s.decipher .dram un.part pa (s.dram.bytes pa 8))) s.time
      | none => s) s)

/-! ### Cast-on (R261, R264-R266) -/

/-- An RCB and its ancestors. -/
def State.lineage (s : State) : Nat → Nat → List Nat
  | 0, b => [b]
  | n + 1, b =>
    match s.rcbs[b]? with
    | some r => if r.parent = b then [b] else b :: State.lineage s n r.parent
    | none => [b]

/-- Units in use by kernels under an RCB. -/
def State.usedUnder (s : State) (b : Nat) : Nat :=
  ((s.kernels.filter fun k => k.state != .retired && (s.lineage s.rcbs.length k.rcb).contains b).map (·.live.length)).sum

/-- The unit budgets of a kernel's RCB and of its ancestors take `n` more units (R250, R251). -/
def State.budgetFits (s : State) (ker : Kernel) : Bool :=
  (s.lineage s.rcbs.length ker.rcb).all fun b => decide (s.usedUnder b + ker.n ≤ ((s.rcbs[b]?).map (·.units)).getD 0)

/-- Units of the HOME die that a kernel may take: its region's own reservation on that die, or what is free and reserved by none. -/
def State.freeFor (s : State) (ker : Kernel) : List Nat :=
  let own := (s.region ker.region).reserved.filter fun u => dieOf u == ker.die
  let all := if own.isEmpty then ((List.range 80).map (80 * ker.die + ·)).filter (s.unreserved ker.region) else own.mergeSort fun a b => decide (a ≤ b)
  all.filter s.isFree

/-- The units that SHAPE names among the free ones, lowest numbers first, in rising order (R264) (log 55, DESIGN CHOICE; log 74, DEDUCED). -/
def placeUnits (shape n : Nat) (free : List Nat) : Option (List Nat) :=
  let got : List Nat :=
    match shape with
    | 1 =>
      let whole := free.filter fun u => (List.range 8).all fun j => free.contains (u / 8 * 8 + j)
      if whole.length < (n + 7) / 8 * 8 then [] else whole.take n
    | 2 =>
      let lead := (free.filter fun u => clusterOf u % 2 == 0 && free.contains (partner u)).take (n / 2)
      (lead ++ lead.map partner).mergeSort fun a b => decide (a ≤ b)
    | _ => free.take n
  if got.length = n then some got else none

/-- The RANGES list at `va` (R263): address, length in bytes, kind; none where it cannot be read or breaks its layout. -/
def State.readRanges (s : State) (part : Nat) : Nat → Nat → Option (List (Nat × Nat × Nat))
  | 0, _ => none
  | n + 1, va =>
    match s.readVa part va 8, s.readVa part (va + 8) 8 with
    | some a, some w =>
      let kind := w / 2 ^ 32 % 256
      if kind = 0 then some []
      else if 2 < kind ∨ w / 2 ^ 40 ≠ 0 ∨ a % 65536 ≠ 0 then none
      else (State.readRanges s part n (va + 16)).map fun l => (a, w % 2 ^ 32 * 65536, kind) :: l
    | _, _ => none

/-- The pages of a range of device virtual addresses, each once; none where one does not translate or is refused, by its partition or the rights that
`may` asks for (R240). -/
def State.rangePages (s : State) (may : Page → Bool) (part va n : Nat) : Option (List Page) :=
  (List.range ((n + 65535) / 65536)).foldl (fun acc i =>
    match acc, (s.walk part (va + 65536 * i)).2 with
    | some l, some g => if g.part ≠ part ∨ !may g then none else if l.contains g then some l else some (l ++ [g])
    | _, _ => none) (some [])

/-- What a cast-on enters: its text, its resident pages, its locked pages and those of its save areas (R264). -/
structure Load where
  text     : List W32
  resident : List Page
  locked   : List Page

/-- Read bytes by device virtual address, 64 KiB by 64 KiB; none without a page's read right (R240). -/
def State.readBytes (s : State) (part va n : Nat) : Option (List Byte) :=
  (List.range ((va % 65536 + n + 65535) / 65536)).foldl (fun acc i =>
    let lo := max va (va / 65536 * 65536 + 65536 * i)
    let hi := min (va + n) (va / 65536 * 65536 + 65536 * (i + 1))
    match acc, s.locate part lo with
    | some l, some x => if x.1.r then some (l ++ s.decipher .dram part x.2 (s.dram.bytes x.2 (hi - lo))) else none
    | _, _ => none) (some [])

/-- The reads of bytes by device virtual address take their places in the queues, 64 KiB by 64 KiB (R236). -/
def State.queueBytes (s : State) (part va n : Nat) : State :=
  (List.range ((va % 65536 + n + 65535) / 65536)).foldl (fun s i =>
    let lo := max va (va / 65536 * 65536 + 65536 * i)
    s.queueVa part lo (min (va + n) (va / 65536 * 65536 + 65536 * (i + 1)) - lo)) s

/-- The checks of a cast-on (R264); none where it is refused (log 73, DEDUCED). The pages of its save areas need both rights, those of its ranges none
that the unit's own accesses do not ask for later (log 129, DEDUCED). -/
def State.loadOf (s : State) (ker : Kernel) : Option Load :=
  match s.rcbs[ker.rcb]? with
  | none => none
  | some b =>
    let ranges := if ker.rangesVa = 0 then some [] else s.readRanges ker.part 4096 ker.rangesVa
    let area := Config.ctxBytes * ker.n
    let saves := fun va => if va = 0 then some [] else s.rangePages (fun g => g.r && g.w) ker.part va area
    match ranges, saves b.save0, saves b.save1, s.readBytes ker.part ker.textVa (4 * ker.textW) with
    | some rs, some p0, some p1, some bytes =>
      let of := fun kind => (rs.filter fun e => e.2.2 == kind).foldl (fun acc e =>
        match acc, s.rangePages (fun _ => true) ker.part e.1 e.2.1 with
        | some l, some ps => some (ps.foldl (fun (l : List Page) g => if l.contains g then l else l ++ [g]) l)
        | _, _ => none) (some ([] : List Page))
      match of 1, of 2 with
      | some resident, some marked =>
        let locked := (p0 ++ p1).foldl (fun (l : List Page) g => if l.contains g then l else l ++ [g]) marked
        let held := (s.locks.filter fun l => l.1 == ker.die).map (·.2.1)
        let bytesUsed := (rs.map (·.2.1)).sum + (if b.save0 = 0 then 0 else area) + if b.save1 = 0 then 0 else area
        if b.mem < bytesUsed ∨ 1024 < held.length + (locked.filter fun g => !held.contains g).length ∨ 512 < resident.length then none
        else some ⟨(List.range ker.textW).map fun i => BitVec.ofNat 32 (leNat ((bytes.drop (4 * i)).take 4)), resident, locked⟩
      | _, _ => none
    | _, _, _, _ => none

/-- Enter locked translations for a kernel (R244). -/
def State.lockPages (s : State) (die k : Nat) (ps : List Page) : State :=
  ps.foldl (fun (s : State) (g : Page) =>
    if s.locks.any fun l => l.1 == die && l.2.1 == g then
      { s with locks := s.locks.map fun l => if l.1 == die && l.2.1 == g then (l.1, l.2.1, k :: l.2.2) else l }
    else { s with locks := s.locks ++ [(die, g, [k])] }) s

/-- A crossing descriptor keeps its limits (R261). -/
def descOk (d : Nat) : Bool :=
  let f := fun a n => d / 2 ^ (8 * a) % 2 ^ (8 * n)
  let elem := match f 26 1 with | 1 => 4 | 2 => 2 | _ => 1
  let t := f 28 4
  decide (f 12 1 < 16) && f 13 3 == 0 && decide (1 ≤ f 24 2) && decide (f 24 2 ≤ 4096) && f 24 2 % elem == 0 && decide (f 26 1 ≤ 2) &&
    decide (f 27 1 ≤ 1) && (t == 0 || (decide (t ≤ 2 ^ 24) && 2 ^ t.log2 == t)) && f 32 8 % 64 == 0 && f 56 8 == 0

/-- The kernel of a job that is cast on from a node; one whose units are pre-empted is still cast on. -/
def State.kernelOf (s : State) (job node : Nat) : Option Nat :=
  (List.range s.kernels.length).reverse.find? fun k => match s.kernels[k]? with
    | some x => x.job == job && x.node == node && (x.state == .loaded || x.state == .running || x.state == .preempted)
    | none => false

/-- Arm the crossings of a job whose later cast-on is that of kernel `k` (R261) (log 75, DEDUCED). -/
def State.armCrossings (s : State) (job k : Nat) : State :=
  match find s.jobs job with
  | none => s
  | some x =>
    (List.range x.xcnt).foldl (fun s i =>
      let va := x.xtab + 1088 * i
      let s := s.queueBytes (partOf job) va 1088
      match s.readBytes (partOf job) va 1088 with
      | none => s
      | some bs =>
        let d := leNat bs
        let f := fun a n => d / 2 ^ (8 * a) % 2 ^ (8 * n)
        match s.kernelOf job (f 0 8), s.kernelOf job (f 16 8) with
        | some a, some b =>
          match s.kernels[a]?, s.kernels[b]? with
          | some ka, some kb =>
            match ka.units[f 8 2]?, kb.units[f 10 2]? with
            | some p, some c =>
              let no := 16 * dieOf p + f 12 1
              let taken : Bool := ((find s.crossings no).map (·.armed)).getD false
              if (a ≠ k ∧ b ≠ k) ∨ !descOk d ∨ va % 64 ≠ 0 ∨ dieOf p ≠ dieOf c ∨ taken then s
              else
                let x : Crossing :=
                  { armed := true, desc := va, part := partOf job, prodK := a, consK := b, prod := p, cons := c, z := f 24 2, efmt := f 26 1
                    replay := f 27 1 % 2 == 1, tlen := f 28 4, trace := f 32 8
                    w := (List.range 512).map fun j => BitVec.ofNat 16 (leNat ((bs.drop (64 + 2 * j)).take 2)), hist := []
                    sp0 := ka.startRsc, sc0 := kb.startRsc, wrN := 0, rdN := 0, entered := 0, drops := 0, repeats := 0, lastOut := none
                    disc := false, inbox := [], parts := [] }
                { s with crossings := put s.crossings no x }
            | _, _ => s
          | _, _ => s
        | _, _ => s) s

/-- Cast a ready kernel on to the units `us` (R264): everything but the issue of word 0. -/
def State.castOn (s : State) (k : Nat) (ker : Kernel) (us : List Nat) : State :=
  let load := s.loadOf ker
  let s := s.queueBytes ker.part ker.textVa (4 * ker.textW)
  match load with
  | none => ((s.setKernel k fun q => { q with state := .retired }).patternError ker.region ker.rcb).nodeEnds ker.region ker.node
  | some l =>
    let s := s.lockPages ker.die k l.locked
    let s := s.setKernel k fun q =>
      { q with state := .loaded, units := us, live := us, resident := l.resident, lockedP := l.locked, castOrder := s.order }
    let s := { s with
      order := s.order + 1
      nodes := s.nodes.map fun (n : Node) => if n.addr == ker.node && n.region == ker.region then { n with state := .cast } else n }
    let s := us.zipIdx.foldl (fun (s : State) e =>
      let s := s.claim ker.part e.1
      s.setUnit e.1 ((s.freshUnit k ker e.2 e.1 l.text).loadResident l.resident)) s
    s.armCrossings ker.job k

/-- Kernels that wait for units, in the order of R266: by priority, by when they became ready, by node address. -/
def State.waiters (s : State) : List Nat :=
  let prio := fun (k : Kernel) => ((s.rcbs[k.rcb]?).map (·.prio)).getD 0
  let rank : Nat → Nat × Nat × Nat := fun k => match s.kernels[k]? with | some x => (15 - prio x, x.order, x.node) | none => (0, 0, 0)
  let before := fun (a b : Nat) =>
    let x := rank a
    let y := rank b
    decide (x.1 < y.1) || (x.1 == y.1 && (decide (x.2.1 < y.2.1) || (x.2.1 == y.2.1 && decide (x.2.2 ≤ y.2.2))))
  ((List.range s.kernels.length).filter fun k => match s.kernels[k]? with
    | some x => s.awaitsUnits x
    | none => false).mergeSort before

/-- Ask for the units of lower-priority kernels of regions that are not admitted, lowest first and then the most recently cast on, where
they would make room (R266) (log 76, DESIGN CHOICE). -/
def State.makeRoom (s : State) (ker : Kernel) (free : Nat) : State :=
  let prio := ((s.rcbs[ker.rcb]?).map (·.prio)).getD 0
  let vs := (s.victims prio).filter fun e => e.2.die == ker.die
  let (need, ks) := vs.foldl (fun (acc : Nat × List Nat) e => if acc.1 = 0 then acc else (acc.1 - e.2.live.length, acc.2 ++ [e.1])) (ker.n - free, [])
  if need = 0 then ks.foldl State.askFor s else s

/-- Try to grant kernel `k` its units (R266). -/
def State.grant (s : State) (k : Nat) : State :=
  match s.kernels[k]? with
  | none => s
  | some ker =>
    if !s.budgetFits ker then s
    else
      let free := s.freeFor ker
      match placeUnits ker.shape ker.n free with
      | some us =>
        if ker.state = .preempted then
          (s.setKernel k fun q => { q with live := us }).soon 39000 (.contextRestore k)
        else s.castOn k ker us
      | none => if free.length < ker.n then s.makeRoom ker free.length else s

/-- `KERNEL_CAST_ON` (R264, R266): a grant step of the scheduler, for every kernel that waits. -/
def execKernelCastOn (k : Nat) (s : State) : Result :=
  .next (match s.kernels[k]? with
    | some ker => if ker.state = .ready ∨ ker.state = .preempted then s.waiters.foldl State.grant s else s
    | none => s)

/-- `KERNEL_START` (R264, R268): at the first sample boundary after loading, every unit issues word 0, with an acquire at `pattern` scope. -/
def execKernelStart (k : Nat) (s : State) : Result :=
  .next (match s.kernels[k]? with
    | none => s
    | some ker =>
      let r := s.region ker.region
      if ker.state ≠ .loaded ∨ !r.openCyc ∨ r.rcc % r.p ≠ 0 ∨ r.gauge = .draining then s
      else
        let t := r.cycleTime r.rcc
        let s := s.setKernel k fun q => { q with state := .running, startAt := some r.rcc, startRsc := r.rsc }
        let s := { s with crossings := s.crossings.map fun e =>
          (e.1, { e.2 with sp0 := if e.2.prodK = k then r.rsc else e.2.sp0, sc0 := if e.2.consK = k then r.rsc else e.2.sc0 }) }
        let base := ((find s.jobs ker.job).map (·.armId)).getD 0
        ker.live.foldl (fun s u =>
          match s.unit? u with
          | none => s
          | some un =>
            let me := s.agentOf u un
            let (p, s) := s.placeAt ker.region t (ker.acq.place + 1)
            let snap := s.snapshot me { un.snap with base } 7 0 t p (ker.acq.holds me)
            s.setUnit u
              (Unit.beginCycle { un with run := .running, started := true, word0 := some r.rcc, snap } r.rcc)) s)

/-- The retire of kernel `k` covers a write (R261, R264): one of its units', on whichever units it ran, or of the trace of a crossing whose other
kernel has retired. -/
def State.retireCovers (s : State) (k : Nat) (a : Agent) : Bool :=
  let over_ : Nat → Bool := fun j => j == k || ((s.kernels[j]?).map (·.state == .retired)).getD false
  (decide (a.unit < 160) && a.cast == k) || (a.unit == 203 && (a.cast == k || a.place == k) && over_ a.cast && over_ a.place)

/-- `NODE_RETIRE` (R264): the release of the retire completes at `pattern` scope, and the successors become ready. -/
def execNodeRetire (k : Nat) (s : State) : Result :=
  .next (match s.kernels[k]? with
    | none => s
    | some ker =>
      if ker.state ≠ .retiring then s
      else
        let who : Agent := ⟨ker.units.headD 0, ker.region, (s.region ker.region).rcb, ker.job, ker.part, k, 0⟩
        let s := s.publishWho who (s.retireCovers k) 7 (ker.relAt.getD s.time)
        ((s.setKernel k fun q => { q with state := .retired }).nodeDone ker.region ker.node [ker.next0, ker.next1]).regrant)

end Sys2Proof.Machine
end

