-- ==== Sys2Proof/Machine/Power.lean ====
section
/-! DEFINITION. The package controller (R270-R273): control intervals, shedding and re-admission, rack caps. -/

namespace Sys2Proof.Machine

/-- A generator's samples from now on at step `n` (R272): the part of the sample under way that is left runs at the new rate. -/
def Gen.rate (g : Gen) (n : Nat) (now : Frac) : Gen :=
  let k := if g.base.le now then g.baseN + ((now.sub g.base).div g.period).floor + 1 else g.baseN
  let left := ((g.instOf k).sub now).div g.period
  let g' := { g with s := n }
  { g' with base := now.add (g'.period.mul left), baseN := k }

/-- Set the step of generator `k` (R272): the clock of every region on it changes with it from this instant, its cycles keeping their count. -/
def State.setStep (s : State) (k n : Nat) : State :=
  match find s.gens k with
  | none => s
  | some g =>
    if g.s = n then s
    else
      let now := s.time
      let g' := g.rate n now
      let s := { s with gens := put s.gens k g' }
      let s := { s with regions := s.regions.map fun (r : Region) =>
          if r.src = k ∧ r.runs then
            let per := (g'.period.scale r.q).div (Frac.ofNat r.p)
            let left := ((r.cycleTime r.next).sub now).div r.period
            let m := (r.sampleAt now + 1).toNat
            let frac := ((r.instOf m).sub now).div r.srcPeriod
            { r with
              anchor := now.add (per.mul left), anchorCyc := r.next, period := per, srcPeriod := g'.period
              stamps := (m, now.add (g'.period.mul frac)) :: stamp (m - 1, r.instOf (m - 1 : Nat)) (r.stamps.dropWhile fun e => decide (m ≤ e.1)) }
          else r }
      -- a thaw that was planned at the old rate is planned anew
      (List.range s.regions.length).foldl (fun s i =>
        let r := s.region i
        if r.src = k ∧ r.gauge = .frozen ∧ r.thawAt.isSome ∧ !r.halted then s.planSynthetic i else s) s

/-- The power cap in force (R273), W: the leased cap or the floor, and at most 1,600 (log 82, DEDUCED). -/
def State.powerCap (s : State) : Nat := min 1600 (if s.power.leaseTo.isSome then s.power.cap else s.boot.floorCap)

/-- Choose a live-source region to shed (R271): lowest PRIO, then OVER, then the most recently armed; none of a halted job (R290). -/
def State.shedChoice (s : State) : Option Nat :=
  let cand := (List.range s.regions.length).filter fun i =>
    let r := s.region i
    (r.gauge == .locked || r.gauge == .clamped || r.gauge == .holdover) && !isSynthetic r.src && !r.shedding && !r.halted && r.haltAt.isNone && !r.far
  let key : Nat → Nat × Nat × Nat := fun i =>
    (((s.regionRcb i).map (·.prio)).getD 0, if (s.region i).overB then 0 else 1, 2 ^ 64 - (s.region i).armed)
  let less := fun (a b : Nat × Nat × Nat) => decide (a.1 < b.1) || (a.1 == b.1 && (decide (a.2.1 < b.2.1) || (a.2.1 == b.2.1 && decide (a.2.2 < b.2.2))))
  match cand with
  | [] => none
  | i :: is => some (is.foldl (fun m j => if less (key j) (key m) then j else m) i)

/-- Slow every generator by `d`; where every one stood at 128 already, shed one region (R270). -/
def State.slow (s : State) (d : Nat) : State :=
  let s' := s.gens.foldl (fun s e => s.setStep e.1 (max 128 (e.2.s - d))) s
  if s.gens.all fun e => e.2.s == 128 then
    match s.shedChoice with
    | some i => s'.setRegion i fun r => { r with shedding := true }
    | none => s'
  else s'

/-- The controller's step at `t`: what it will measure is free, unless the outside world says it at that instant (log 83, DESIGN CHOICE). -/
def State.nextInterval (s : State) (t : Frac) : State :=
  let m := fun n => (Config.freeWord (s.free + n)).toNat
  { s with power := { s.power with next := some t }, free := s.free + 3, timers := s.timers ++ [(t, .interval (m 0) (m 1) (m 2))] }

/-- `POWER_CONTROL_INTERVAL` (R270), once in each 50 µs: the core current in mA, the hotspot in thousandths of a degree, the module power in mW
(log 83, DESIGN CHOICE). -/
def execPowerControlInterval (ma mc mw : Nat) (s : State) : Result :=
  .next (match s.power.next with
   | none => s
   | some t =>
    if s.time.lt t then s
    else
    let cap := s.powerCap
    let s := State.nextInterval { s with power := { s.power with applied := cap } } (t.add (Frac.ofNat 50000))
    let above := fun (x lim : Nat) => decide (1000 * lim < x)
    let room := fun (x lim : Nat) => decide (x ≤ 950 * lim)
    let s' :=
      if above ma s.boot.curLimit then s.slow 32
      else if above mc s.boot.thermal || above mw cap then s.slow 8
      else if room ma s.boot.curLimit && room mc s.boot.thermal && room mw cap then
        s.gens.foldl (fun s e => s.setStep e.1 (min e.2.smax (min (if e.2.hinted then 256 else 256 + e.2.boost) (e.2.s + 8)))) s
      else s.gens.foldl (fun s e => if e.2.s < 256 then s.setStep e.1 (min 256 (e.2.s + 8)) else s) s
    { s' with gens := s'.gens.map fun (e : Nat × Gen) => (e.1, { e.2 with hinted := false }) })

/-! ### Shedding (R271) -/

/-- Save one unit of a shed region and release it: its engines finish in periods of f0, as after any stop (R286). A unit that has stopped on a
fault is saved and released as well (R271; log 81, DEDUCED). -/
def State.shedUnit (s : State) (u : Nat) : State :=
  match s.unit? u with
  | none => s
  | some un =>
    if un.run = .off then s
    else
      let s := if un.run = .stopped then (outcomeState s (execCompositeRecordWrite u s)).finishRecord u else s
      let s := (s.preemptOne u).unwatch (.action u)
      let (_, s) := State.drain u 65536 (s.now un) s
      match s.unit? u, s.kernels[un.kernel]? with
      | some un, some ker =>
        match s.saveAtOnce u un ker with
        | (true, s) => s.park u un
        | (false, s) => (s.modUnit u fun un => { un with run := .frozen }).takeFault u .memUe .u 0 0 ⟨3, 0, 0, 0, 0, 0, 0⟩
      | _, _ => s

/-- `SHED_SAVE` (R271): the units of the frozen region are saved and released; SHED is set, and the handler becomes ready (log 81, DEDUCED). -/
def execShedSave (i : Nat) (s : State) : Result :=
  .next (
    let r := s.region i
    if r.gauge ≠ .frozen ∨ !r.shedding ∨ r.still = .shed then s
    else
      let s := (s.unitsOf i).foldl State.shedUnit s
      let s := s.setStatus i fun r => { r with shed := true, still := .shed, reserved := [] }
      (s.callHandler i r.rcb).regrant)

/-- `SHED_CLEAR` (R271): 0 written to SHED asks for re-admission. -/
def execShedClear (i : Nat) (s : State) : Result :=
  .next (
    let r := s.region i
    if !r.shed then s else (s.setStatus i fun r => { r with shed := false }).soon 1000 (.regionReadmit i))

/-- Grant the pre-empted kernels `ks` their units, all of them or none; whether all have them. What holds them up is asked to make room. -/
def State.grantAll (s : State) (ks : List Nat) : Bool × State :=
  let s := ks.foldl State.grant s
  if ks.all fun k => ((s.kernels[k]?).map fun x => !x.live.isEmpty).getD true then (true, s)
  else (false, ks.foldl (fun s k => s.setKernel k fun x => { x with live := [] }) s)

/-- `REGION_READMIT` (R271): once the region's reservation is met and its kernels have their units, these resume from their contexts, and it thaws by
R259; until then it stays shed, and is looked at again at each grant. -/
def execRegionReadmit (i : Nat) (s : State) : Result :=
  .next (
    let r := s.region i
    if r.gauge ≠ .frozen ∨ r.still ≠ .shed ∨ r.shed then s
    else
      let asks : Bool := ((s.regionRcb i).map (·.admitted)).getD false && r.reserved.isEmpty
      match if asks then s.admitRegion i else some s with
      | none => s
      | some s =>
        let mine := (List.range s.kernels.length).filter fun k => match s.kernels[k]? with
          | some x => x.region == i && x.state == .preempted
          | none => false
        match s.grantAll mine with
        | (false, s) => s
        | (true, s) =>
          let s := s.setRegion i fun r => { r with still := .drained, shedding := false }
          let s := (mine.foldl (fun s k => outcomeState s (execContextRestore k s)) s).regrant
          if 8 ≤ (s.region i).good then s.planThaw i s.time else s)

/-! ### Rack caps (R273) -/

/-- `CAPMSG` (R273): SEQ, CAP and LEASE of a rack cap message. -/
def execCapmsg (q p l : BitVec 32) (s : State) : Result :=
  .next (
    let ok : Bool := match s.power.seq with
      | none => true
      | some old => let d := (q - old).toNat; decide (1 ≤ d) && decide (d < 2 ^ 31)
    if !ok then s
    else
      let ms := if l = 0 then 2000 else l.toNat
      let t := s.time.add (Frac.ofNat (1000000 * ms))
      { s with power := { s.power with seq := some q, cap := p.toNat, leaseTo := some t }, timers := s.timers ++ [(t, .lease)] })

/-- `CAP_LEASE_EXPIRY` (R273): the floor cap applies until a cap is accepted. -/
def execCapLeaseExpiry (s : State) : Result :=
  .next (match s.power.leaseTo with
    | some t => if t.le s.time then { s with power := { s.power with leaseTo := none } } else s
    | none => s)

end Sys2Proof.Machine
end

