-- ==== Sys2Proof/Machine/Host.lean ====
section
/-! DEFINITION. The host port (R237, R302, R304-R311, R321): registers of the operator page and of the partition pages, job slots,
invalidation, page-table roots, BAR 2, TDISP, and the whole-memory checkpoint. -/

namespace Sys2Proof.Machine

/-- The function number by which the model names the physical function. -/
def pfNo : Nat := 64

/-- VF `f`. -/
def State.vf (s : State) (f : Nat) : Vf := (find s.vfs f).getD Vf.zero
/-- Change VF `f`. -/
def State.setVf (s : State) (f : Nat) (g : Vf → Vf) : State := { s with vfs := put s.vfs f (g (s.vf f)) }
/-- Job slot `j` of VF `f`. -/
def State.slot (s : State) (f j : Nat) : Job := (find s.jobs (16 * f + j)).getD Job.zero
/-- Change a job slot. -/
def State.setSlot (s : State) (f j : Nat) (g : Job → Job) : State := { s with jobs := put s.jobs (16 * f + j) (g (s.slot f j)) }

/-- The host port serves VFs once boot has opened it (R319) (log 97, DEDUCED). -/
def State.hostOpen (s : State) : Bool := s.boot.step == 5

/-- A partition has a registered job. -/
def State.hasJob (s : State) (f : Nat) : Bool := s.jobs.any fun e => e.1 / 16 == f && e.2.jslot == 1

/-! ### Registration (R309) -/

/-- A page that translates and is not refused for the scheduler's reads and writes (R240, R309). -/
def State.usable (s : State) (part va : Nat) : Option Nat :=
  match s.locate part va with
  | some (g, pa) => if g.r && g.w then some pa else none
  | none => none

/-- `JREG_REGISTER` (R309): a nonzero write to `JREG`. -/
def execJregRegister (f j : Nat) (v : BitVec 64) (s : State) : Result :=
  .next (
    let x := s.slot f j
    if v = 0 ∨ 64 ≤ f ∨ 16 ≤ j ∨ x.jslot ≠ 0 ∨ x.pending then s
    else
      let (d, s) := s.choose 10001
      let s := s.setSlot f j fun x => { x with jreg := v, pending := true }
      { s with timers := s.timers ++ [(s.time.add (Frac.ofNat d), .registration f j)] })

/-- `JOB_REGISTRATION` (R309): the root RCB is read, and `JSLOT` becomes 1 or 2. -/
def execJobRegistration (f j : Nat) (s : State) : Result :=
  .next (
    let x := s.slot f j
    if !x.pending then s
    else
      let va := x.jreg.toNat
      let no := s.setSlot f j fun x => { x with jslot := 2, pending := false }
      match s.usable f va, s.readVa f (va + 0x38) 1, s.readVa f (va + 0xB8) 8 with
      | some root, some part, some armw =>
        match s.usable f armw with
        | some pa =>
          if part ≠ f ∨ armw % 8 ≠ 0 ∨ s.tableFree (pa / 2 ^ 38) = 0 then no
          else (s.setSlot f j fun x => { x with jslot := 1, pending := false, armPa := pa, rootPa := root }).watch pa (.arm (16 * f + j))
        | none => no
      | _, _, _ => no)

/-- `JREG_FREE` (R309): a write of 0 to `JREG`; what the slot watched is watched no more (R252, R262). -/
def execJregFree (f j : Nat) (s : State) : Result :=
  .next (
    let x := s.slot f j
    let word := s.armWord (16 * f + j)
    if x.jslot = 2 ∨ (x.jslot = 1 ∧ (word = 3 ∨ word = 4)) then
      ((s.setSlot f j fun x => { x with jreg := 0, jslot := 0, armId := 0 }).unwatch (.arm (16 * f + j))).forgetJob (16 * f + j)
    else s)

/-! ### Invalidation and page tables (R307, R310) -/

/-- `ILEN` (R310): a write starts an invalidation of `IVA`'s range. -/
def execIlen (f : Nat) (v : BitVec 64) (s : State) : Result :=
  .next (
    if 64 ≤ f ∨ (s.vf f).istBusy then s
    else
      let (d, s) := s.choose 20001
      let s := s.setVf f fun x => { x with ilen := v, istBusy := true, istDone := false, istLock := false }
      { s with timers := s.timers ++ [(s.time.add (Frac.ofNat d), .invalidated f)] })

/-- `INVALIDATION_DONE` (R310): nothing is removed where the range touches a locked translation; else the entries of the partition's units
that overlap it are. -/
def execInvalidationDone (f : Nat) (s : State) : Result :=
  .next (
    let x := s.vf f
    if !x.istBusy then s
    else
      let va := x.iva.toNat
      let n := x.ilen.toNat
      let locked : Bool := s.locks.any fun l => l.2.1.part == f && decide (0 < n) && decide (l.2.1.va < va + n) && decide (va < l.2.1.va + l.2.1.size)
      let s := if locked then s
        else (s.units.filter fun e => e.2.part == f).foldl (fun s e => s.invalidate e.1 va n (s.now e.2)) s
      s.setVf f fun x => { x with istBusy := false, istDone := true, istLock := locked })

/-- A partition's grant (R311): MEMBASE0, MEMSIZE0, MEMBASE1, MEMSIZE1. -/
def State.grantOf (s : State) (f : Nat) : W64 × W64 × W64 × W64 := (find s.grants f).getD (0, 0, 0, 0)

/-- A physical address lies in a partition's granted ranges. -/
def State.granted (s : State) (f pa : Nat) : Bool :=
  let (b0, n0, b1, n1) := s.grantOf f
  (decide (b0.toNat ≤ pa) && decide (pa < b0.toNat + n0.toNat)) || (decide (b1.toNat ≤ pa) && decide (pa < b1.toNat + n1.toNat))

/-- `PTROOT` (R307): applied while the partition has no registered job and where the root lies in a granted range. -/
def execPtroot (f : Nat) (v : BitVec 64) (s : State) : Result :=
  .next (if 64 ≤ f ∨ s.hasJob f ∨ !s.granted f v.toNat then s else s.setVf f fun x => { x with ptroot := v })

/-- A leaf of the firmware's initial table (R239, R307): a 1 GiB page of FMT 0 with R, W and AT. -/
def leafEntry (part pa : Nat) : Nat := 1 + 2 + 4 + 8 + 16 + pa / 65536 * 65536 + part * 2 ^ 78

/-- The firmware builds a partition's initial table in its granted memory (R307), in the last 128 KiB of die 0's range, or of die 1's where
die 0 grants nothing (log 43, DESIGN CHOICE), and its root becomes `PTROOT`. -/
def State.buildTable (s : State) (f : Nat) : State :=
  let (b0, n0, b1, n1) := s.grantOf f
  let top := if n0 ≠ 0 then b0.toNat + n0.toNat else b1.toNat + n1.toNat
  if n0 = 0 ∧ n1 = 0 then s.setVf f fun x => { x with ptroot := 0 }
  else
    let root := top - 131072
    let table := top - 65536
    let gib := 2 ^ 30
    let k0 := n0.toNat / gib
    let k1 := n1.toNat / gib
    let leaf := fun i => if i < k0 then leafEntry f (b0.toNat + gib * i) else if i < k0 + k1 then leafEntry f (b1.toNat + gib * (i - k0)) else 0
    let s := s.writePa coreAgent 64 root (leBytes 16 (1 + table))
    let s := (List.range 511).foldl (fun s i => s.writePa coreAgent 64 (root + 16 * (i + 1)) (leBytes 16 0)) s
    let s := (List.range 512).foldl (fun s i => s.writePa coreAgent 64 (table + 16 * i) (leBytes 16 (leaf i))) s
    s.setVf f fun x => { x with ptroot := BitVec.ofNat 64 root }

/-! ### Errors (R237, R302) -/

/-- `PATROL_SCRUB_ERROR` (R237): an uncorrectable error of die `d` in the block at address `a` of its memory is logged; it faults no unit (log 85, DEDUCED). -/
def execPatrolScrubError (d a : Nat) (s : State) : Result :=
  .next (
    let key := (2, (2 ^ 38 * d + a) / 64 * 64)
    let s := s.countUe d
    if s.bad.contains key then s else { s with bad := s.bad ++ [key] })

/-! ### The whole-memory checkpoint (R321) -/

/-- A checkpoint command is refused (R321): BUSY, an armed job that is not halted, or an unaligned buffer. -/
def State.ckRefuses (s : State) : Bool :=
  s.ckBusy || decide (s.ckbuf.toNat % 4096 ≠ 0) || s.jobs.any fun e => e.2.jslot == 1 && s.armWord e.1 == 2 && e.2.jstate != 2

/-- Start a checkpoint transfer, which ends within 4 s, or refuse it. -/
def State.startCheckpoint (s : State) (restore : Bool) : State :=
  if s.ckRefuses then { s with ckRefused := true }
  else
    let (d, s) := s.choose 4000000001
    { s with ckBusy := true, ckDone := false, ckRefused := false, ckRestore := restore, timers := s.timers ++ [(s.time.add (Frac.ofNat d), .checkpoint)] }

/-- `CHECKPOINT_SAVE` (R321). -/
def execCheckpointSave (s : State) : Result := .next (s.startCheckpoint false)
/-- `CHECKPOINT_RESTORE` (R321). -/
def execCheckpointRestore (s : State) : Result := .next (s.startCheckpoint true)

/-- `CHECKPOINT_DONE` (R321): the image stands in the buffer as stored, enciphered; or memory is what the buffer's image deciphers to, noise
where no save wrote it. Watched words are re-read (R262). -/
def execCheckpointDone (s : State) : Result :=
  .next (
    if !s.ckBusy then s
    else
      let s := { s with ckBusy := false, ckDone := true }
      let at_ := s.ckbuf.toNat
      if !s.ckRestore then
        -- an image that the new one overlaps is no longer whole
        let far := 2 * Config.dieMemoryBytes
        let others := s.images.map fun (e : Nat × Image) =>
          if e.1 < at_ + far ∧ at_ < e.1 + far then (e.1, { e.2 with whole := false }) else e
        { s with images := put others at_ ⟨true, s.dram, s.sealed, s.scrambled⟩ }
      else
        let m : Image := match find s.images at_ with
          | some x => if x.whole then x else ⟨false, Store.zero, [], true⟩
          | none => ⟨false, Store.zero, [], true⟩
        let s := { s with dram := m.dram, sealed := m.sealed, scrambled := m.noise, bad := s.bad.filter fun k => k.1 != 2 }
        { s with timers := s.timers ++ s.watched.map fun e => (s.time, .event (.watchedWordWrite (e.1 / 2 ^ 38) (e.1 % 2 ^ 38))) })

/-! ### Registers (R293, R308, R311, R312, R314) -/

/-- Set a 64-bit word of a list. -/
def setWord (l : List W64) (i : Nat) (v : W64) : List W64 := l.set i v

/-- A write to a stream descriptor's word of source `k` (R312): LINK and DROPS are read-only; enabling it starts its keep-alive and credit
frames (R314). -/
def State.setStream (s : State) (f k i : Nat) (v : W64) : State :=
  let own := s.srcown.getD k 0
  if own / 128 = 0 ∨ own % 64 ≠ f ∨ 4 ≤ i then s
  else
    let was : Bool := (((s.vf f).streams.getD k []).getD 0 0).getLsbD 0
    let old := (((s.vf f).streams.getD k []).getD 3 0).toNat / 2 ^ 32
    let v := if i = 3 then BitVec.ofNat 64 (v.toNat % 2 ^ 32 + 2 ^ 32 * old) else v
    let s := s.setVf f fun x => { x with streams := modify x.streams k fun d => setWord d i v }
    if i = 0 ∧ v.getLsbD 0 ∧ !was then
      let s := { s with sources := put s.sources k ((find s.sources k).getD ⟨none, false, 0, 0, 0, s.time, none, []⟩) }
      -- one chain of frames for the descriptor
      let others := s.timers.filter fun e => e.2 != .keepAlive f k && e.2 != .credit f k
      { s with timers := others ++ [(s.time.add (Frac.ofNat 10000000), .keepAlive f k), (s.time.add (Frac.ofNat 1000000), .credit f k)] }
    else s

/-- The instant of sample `n` of a host cadence (R314): T0 + n × PERIOD / 256 in host time, by the conversion of PTM (log 44, DESIGN CHOICE). -/
def cadenceInst (d : List W64) (n : Nat) : Frac :=
  Frac.norm ⟨256 * ((d.getD 0 0).toNat + Config.ptmOffset) + n * ((d.getD 1 0).toNat % 2 ^ 32), 256⟩

/-- A write to a word of cadence `k` (R308, R314): only bytes 0-11 and 16 are there. While EN is set its samples come, from the first one not yet past
by what the cadence now holds. -/
def State.setCadence (s : State) (f k i : Nat) (v : W64) : State :=
  if 3 ≤ i then s
  else
    let v : W64 := match i with | 0 => v | 1 => v &&& 0xFFFFFFFF | _ => v &&& 0xFF
    let s := s.setVf f fun x => { x with cadence := modify x.cadence k fun d => setWord d i v }
    let d := (s.vf f).cadence.getD k []
    let per := (d.getD 1 0).toNat % 2 ^ 32
    let others := s.timers.filter fun e => match e.2 with | .cadence f' k' _ => !(f' == f && k' == k) | _ => true
    if (d.getD 2 0).getLsbD 0 ∧ per ≠ 0 then
      let n := ((s.time.sub (cadenceInst d 0)).div ⟨per, 256⟩).ceil
      { s with timers := others ++ [(cadenceInst d n, .cadence f k n)] }
    else { s with timers := others }

/-- A write to an operator register of partition `k`'s grant (R311): 1 GiB multiples, each base on its die; ignored while the partition has a
registered job. -/
def State.setGrant (s : State) (k i : Nat) (v : W64) : State :=
  let die := i / 2
  let okBase := v.toNat % 2 ^ 30 == 0 && v.toNat / 2 ^ 38 == die
  let okSize := v.toNat % 2 ^ 30 == 0
  if s.hasJob k ∨ (if i % 2 = 0 then !okBase else !okSize) then s
  else
    let (b0, n0, b1, n1) := s.grantOf k
    let g := match i with | 0 => (v, n0, b1, n1) | 1 => (b0, v, b1, n1) | 2 => (b0, n0, v, n1) | _ => (b0, n0, b1, v)
    State.buildTable { s with grants := put s.grants k g } k

/-- `CKCMD`. -/
def State.ckCommand (s : State) (v : W64) : State := if v = 1 then s.startCheckpoint false else if v = 2 then s.startCheckpoint true else s

/-- `JCMD` of a job slot (R308): 1 resumes at `JTRES` (R295), 2 steps `JFOCUS` (R294). -/
def State.jobCommand (s : State) (j : Nat) (v : W64) : State :=
  match v.toNat % 4 with
  | 1 => outcomeState s (execJobResume j s)
  | 2 => outcomeState s (execJobStep j s)
  | _ => s

/-- A TLP is dropped: its function's TDI is RUN, and the TLP does not carry the function's IDE stream (R304, R305; log 87, DEDUCED). -/
def State.dropsTlp (s : State) (q : Tlp) : Bool := decide (q.f < 64) && (s.vf q.f).tdi == 2 && !q.ide

/-- `REGISTER_WRITE` (R308, R311): a host write of 8 bytes at offset `o` of a VF's partition page, or of the operator page (function 64), dropped without
the VF's IDE stream while the TDI is RUN (R305). An address not listed, or a read-only register, ignores it. -/
def execRegisterWrite (q : Tlp) (o : Nat) (v : BitVec 64) (s : State) : Result :=
  let f := q.f
  .next (
    if !s.hostOpen ∨ o % 8 ≠ 0 ∨ s.dropsTlp q then s
    else if f = pfNo then
      if 0x100 ≤ o ∧ o < 0x140 then { s with srcown := s.srcown.set ((o - 0x100) / 8) (v.toNat % 256 / 128 * 128 + v.toNat % 64) }
      else if o = 0x300 then { s with ckbuf := v }
      else if o = 0x308 then s.ckCommand v
      else if 0x1000 ≤ o ∧ o < 0x1800 then s.setGrant ((o - 0x1000) / 32) ((o - 0x1000) % 32 / 8) v
      else s
    else if 64 < f then s
    else if o < 0x1000 then
      let j := o / 0x100
      match o % 0x100 with
      | 0x00 => if v = 0 then outcomeState s (execJregFree f j s) else outcomeState s (execJregRegister f j v s)
      | 0x30 => s.setSlot f j fun x => { x with jtres := v }
      | 0x38 => s.setSlot f j fun x => { x with jfocus := v }
      | 0x48 => s.jobCommand (16 * f + j) v
      | _ => s
    else if o = 0x1000 then s.setVf f fun x => { x with iva := v }
    else if o = 0x1008 then outcomeState s (execIlen f v s)
    else if o = 0x1100 then outcomeState s (execPtroot f v s)
    else if o = 0x1108 then s.setVf f fun x => { x with perr := v }
    else if 0x1200 ≤ o ∧ o < 0x1400 then s.setStream f ((o - 0x1200) / 64) ((o - 0x1200) % 64 / 8) v
    else if 0x1400 ≤ o ∧ o < 0x1500 then s.setCadence f ((o - 0x1400) / 32) ((o - 0x1400) % 32 / 8) v
    else s)

/-- Read-write and read-only registers of a VF's partition page, 8 bytes at offset `o` (R293, R308, R312, R314); addresses not listed read 0. -/
def State.vfWord (s : State) (f o : Nat) : Nat :=
  let v := s.vf f
  if o < 0x1000 then
    let x := s.slot f (o / 0x100)
    match o % 0x100 with
    | 0x00 => x.jreg.toNat
    | 0x08 => x.jslot % 4
    | 0x10 => x.jstate % 8 + 256 * (x.stops % 256)
    | 0x18 => x.jcause.toNat
    | 0x20 => x.jorig.toNat
    | 0x28 => x.jtstop.toNat
    | 0x30 => x.jtres.toNat
    | 0x38 => x.jfocus.toNat
    | 0x40 => x.jdrop
    | _ => 0
  else if o = 0x1000 then v.iva.toNat
  else if o = 0x1008 then v.ilen.toNat
  else if o = 0x1010 then (if v.istDone then 1 else 0) + (if v.istLock then 2 else 0) + if v.istBusy then 4 else 0
  else if o = 0x1100 then v.ptroot.toNat
  else if o = 0x1108 then v.perr.toNat
  else if 0x1200 ≤ o ∧ o < 0x1400 then ((v.streams.getD ((o - 0x1200) / 64) []).getD ((o - 0x1200) % 64 / 8) 0).toNat
  else if 0x1400 ≤ o ∧ o < 0x1500 then ((v.cadence.getD ((o - 0x1400) / 32) []).getD ((o - 0x1400) % 32 / 8) 0).toNat
  else 0

/-- Registers of the operator page (R302, R311). -/
def State.pfWord (s : State) (o : Nat) : Nat :=
  let (b0, n0, b1, n1) := s.grantOf ((o - 0x1000) / 32)
  if 0x100 ≤ o ∧ o < 0x140 then s.srcown.getD ((o - 0x100) / 8) 0
  else if o = 0x200 ∨ o = 0x208 then (s.cec.getD ((o - 0x200) / 8) 0).toNat
  else if o = 0x210 ∨ o = 0x218 then (s.uec.getD ((o - 0x210) / 8) 0).toNat
  else if o = 0x300 then s.ckbuf.toNat
  else if o = 0x310 then (if s.ckBusy then 1 else 0) + (if s.ckDone then 2 else 0) + if s.ckRefused then 4 else 0
  else if 0x1000 ≤ o ∧ o < 0x1800 then (match (o - 0x1000) % 32 / 8 with | 0 => b0.toNat | 1 => n0.toNat | 2 => b1.toNat | _ => n1.toNat)
  else 0

/-- The corrected errors that the dies have found since are counted (R302; log 84, DESIGN CHOICE). -/
def State.countCorrected (s : State) : State :=
  { s with cec := s.cec.zipIdx.map fun e => e.1 + BitVec.ofNat 64 (Config.corrected (s.free + e.2)), free := s.free + 2 }

/-- `n` bytes at offset `o` of a function's page. -/
def State.pageBytes (s : State) (f o n : Nat) : List Byte :=
  (List.range n).map fun i =>
    let a := (o + i) % 65536
    let w := if f = pfNo then s.pfWord (a / 8 * 8) else s.vfWord f (a / 8 * 8)
    BitVec.ofNat 8 (w / 2 ^ (8 * (a % 8)))

/-! ### BAR 2 (R304, R306) -/

/-- The pieces of a range in the pages that map it, 64-byte block by block; none where a translation fails or a right is missing. -/
def State.hostPieces (s : State) (part va n : Nat) (write : Bool) : Option (List (Page × Nat × Nat)) :=
  (blocksOf va n).foldl (fun acc b =>
    let lo := max va (64 * b)
    let hi := min (va + n) (64 * b + 64)
    match acc, (s.walk part lo).2 with
    | some l, some g =>
      if g.part = part ∧ (if write then g.w else g.r) then some (l ++ [(g, g.pa + (lo - g.va), hi - lo)]) else none
    | _, _ => none) (some [])

/-- A BAR 2 access is turned away: counted in PERR. -/
def State.countPerr (s : State) (f : Nat) : State := s.setVf f fun x => { x with perr := x.perr + 1 }

/-- A request flit for the host (R316): the unit number 200 stands for the host port (log 41, DESIGN CHOICE). -/
def State.hostRequest (s : State) (f type pkg pa n xid : Nat) (data : List Byte) : State :=
  let route := s.boot.routes.getD pkg (0, 0)
  let fl : Flit :=
    { type := BitVec.ofNat 4 type, vc := 1, dpkg := BitVec.ofNat 8 pkg, spkg := BitVec.ofNat 8 s.boot.pkgNo, hops := BitVec.ofNat 8 route.2
      unit := 200, chan := 0, part := BitVec.ofNat 6 f, xid := BitVec.ofNat 32 xid, lseq := 0, param := BitVec.ofNat 32 n
      payload := leBytes 8 pa ++ leBytes 24 0 ++ data ++ List.replicate (64 - data.length) 0 }
  s.send route.1 fl

/-- A BAR 2 write is performed: translated through the partition's tables with right W, and dropped and counted where refused (R304). One at another
package is performed there by the declared latency after its flit (R27, R306; log 130, DEDUCED). -/
def State.hostWrite (s : State) (f a : Nat) (bs : List Byte) : State :=
  match if 2 ^ 40 < a + bs.length then none else s.hostPieces f a bs.length true with
  | none => s.countPerr f
  | some ps =>
    (ps.foldl (fun (acc : State × List Byte) p =>
      let (s, rest) := acc
      let (g, pa, n) := p
      let data := rest.take n
      let s := match g.space with
        | 0 => s.writePa (hostAgent f) f pa data
        | 1 =>
          let t := s.time.add (Frac.ofNat (Config.nsRemote (s.boot.routes.getD g.pkg (0, 0)).2))
          (s.hostRequest f 2 g.pkg pa n 0 data).setVf f fun x => { x with posted := x.posted.max t }
        | _ => s.performWrite false ⟨.host, pa, n, 64⟩ ⟨0, hostAgent f, 0, 0, 1, s.nextId, none, cellsAt pa data, [], Snapshot.zero⟩
      (s, rest.drop n)) (s, bs)).1

/-- A BAR 2 read is made: completed with the bytes, or with Completer Abort where refused, and counted in PERR (R304). A block in another package's memory
is asked for and completes when its answer comes (log 97, DEDUCED). -/
def State.hostRead (s : State) (f a n : Nat) : State :=
  match (if 2 ^ 40 < a + n then none else s.hostPieces f a n false) with
  | none => let s := s.countPerr f; { s with out := s.out ++ [.completion f a [] true] }
  | some ps =>
    let (s, got, _) := ps.foldl (fun (acc : State × List (Nat × List Byte) × Nat) p =>
      let (s, got, va) := acc
      let (g, pa, k) := p
      match g.space with
      | 0 => (s.enqueue pa k, got ++ [(va, s.decipher .dram f pa (s.dram.bytes pa k))], va + k)
      | 1 =>
        let s := { (s.hostRequest f 1 g.pkg pa k s.nextId []) with hostReads := s.hostReads ++ [(s.nextId, f, va, k)], nextId := s.nextId + 1 }
        (s, got, va + k)
      | _ =>
        if (s.inImage pa).isSome then (let (x, s) := s.noise k; (s, got ++ [(va, x)], va + k))
        else (s, got ++ [(va, s.host.bytes pa k)], va + k)) (s, [], a)
    let answers : List Out :=
      if ps.all (fun p => p.1.space != 1) then [.completion f a (got.flatMap (·.2)) false]
      else got.map fun x => .completion f x.1 x.2 false
    { s with out := s.out ++ answers }

/-- A BAR 2 access of VF `f` may go at once: none waits, and the posted writes before it have been performed (R306). -/
def State.hostGoes (s : State) (f : Nat) : Bool := (s.vf f).waiting.isEmpty && (s.vf f).posted.le s.time

/-- Perform an access. -/
def State.hostAccess (s : State) (f : Nat) : HostReq → State
  | .write a bs => s.hostWrite f a bs
  | .read a n => s.hostRead f a n

/-- Perform the accesses that wait, in the order received, as far as the posted writes before each have been performed (R306). -/
def State.hostDrain (f : Nat) : List HostReq → State → State
  | [], s => s.setVf f fun x => { x with waiting := [] }
  | q :: qs, s =>
    if s.time.lt (s.vf f).posted then
      let t := (s.vf f).posted
      State.setVf { s with timers := s.timers ++ [(t, .host f)] } f fun x => { x with waiting := q :: qs }
    else State.hostDrain f qs (s.hostAccess f q)

/-- Take an access of VF `f` in its turn (R306). -/
def State.hostTake (s : State) (f : Nat) (q : HostReq) : State :=
  if s.hostGoes f then s.hostAccess f q
  else
    let first := (s.vf f).waiting.isEmpty
    let t := (s.vf f).posted
    let s := s.setVf f fun x => { x with waiting := x.waiting ++ [q] }
    if first then { s with timers := s.timers ++ [(t, .host f)] } else s

/-- `BAR2_WRITE` (R304, R306): in the order received; dropped while a checkpoint runs (R321), and without its IDE stream while the TDI is RUN (R305). -/
def execBar2Write (q : Tlp) (a : Nat) (bs : List Byte) (s : State) : Result :=
  .next (if !s.hostOpen ∨ 64 ≤ q.f ∨ s.dropsTlp q ∨ s.ckBusy then s else s.hostTake q.f (.write a bs))

/-- `BAR2_READ` (R304, R306), a host read: behind the posted writes; Completer Abort while a checkpoint runs (R321); dropped without its IDE stream while
the TDI is RUN (R305). With `page` it is a read of the function's BAR 0 (R308, R311; log 97, DEDUCED). -/
def execBar2Read (q : ReadTlp) (a n : Nat) (s : State) : Result :=
  let f := q.f
  .next (
    if !s.hostOpen ∨ 65 ≤ f ∨ s.dropsTlp q.toTlp then s
    else if q.page then
      let s := s.countCorrected
      { s with out := s.out ++ [.completion f a (s.pageBytes f a n) false] }
    else if f = pfNo then s
    else if s.ckBusy then { s with out := s.out ++ [.completion f a [] true] }
    else s.hostTake f (.read a n))

/-! ### TDISP (R305) -/

/-- Zero the cluster and die stores that a partition used last (R246, R305). -/
def State.zeroStores (s : State) (part : Nat) : State :=
  { s with
    clusters := s.clusters.map fun (e : Nat × Store × Nat) => if e.2.2 = part then (e.1, Store.zero, 64) else e
    dies := s.dies.map fun (e : Nat × Store × Nat) => if e.2.2 = part then (e.1, Store.zero, 64) else e }

/-- End a unit as after ACTION 2 (R280, R305). -/
def State.endUnit (s : State) (u : Nat) : State :=
  match s.unit? u with
  | none => s
  | some un =>
    let st : Stop :=
      { cycle := s.now un, cls := .u, eng := 0, chan := 0, trigger := 0, tid := 0, beat := 0, addr := 0, origin := 0, jobNs := 0, wrote := true
        recNs := none, complete := true, image := [], blocks := [], rsc := 0, busy := false, nA := 0, nB := 0
        action := some (2, s.time.num, s.time.den) }
    let s := s.setUnit u { un.discard with run := .stopped, ctx := none, haltAt := none, stop := some st }
    s.timer ((s.time.add (Frac.ofNat 2000)).add (s.patternTime un)) (.bindOff u)

/-- A kernel ends with its job: one that runs on no unit at once, another with its last unit, what is saved of it notwithstanding. None of the job has
successors any more. -/
def Kernel.ended (k : Kernel) : Kernel :=
  let k : Kernel := { k with next0 := 0, next1 := 0, parked := [] }
  match k.state with
  | .ready | .preempted => { k with state := .retired, live := [] }
  | .loaded => { k with state := .running }
  | _ => k

/-- End kernel `k`: where it runs on no unit, its locked translations and its crossings are released at once (R244, R261). -/
def State.endKernel (s : State) (k : Nat) : State :=
  match s.kernels[k]? with
  | none => s
  | some ker =>
    let s := s.setKernel k Kernel.ended
    if ker.state = .ready ∨ ker.state = .preempted then (ker.units.foldl (fun s u => s.releaseCrossings k u) s).unlock k else s

/-- End every job of a partition (R305): its units as after ACTION 2, and no node of its patterns runs any more (log 87, DEDUCED). -/
def State.endJobs (s : State) (part : Nat) : State :=
  let mine : Nat → Bool := fun i => (s.region i).job != outside && (s.region i).job / 16 == part
  let gone := s.nodes.filter fun (n : Node) => mine n.region && n.state != NState.cast
  let s : State := gone.foldl (fun s n => s.unwatch (.node n.addr n.region)) s
  let s : State := (List.range s.kernels.length).foldl (fun s k =>
    if ((s.kernels[k]?).map fun x => mine x.region).getD false then s.endKernel k else s) s
  let live := fun (n : Node) => s.kernels.any fun (k : Kernel) => k.node == n.addr && k.region == n.region && k.state != KState.retired
  let s : State := { s with
    nodes := (s.nodes.filter fun (n : Node) => !mine n.region || live n).map fun (n : Node) => if mine n.region then { n with queued := 0 } else n }
  let s : State := (s.units.filter fun e => e.2.part == part).foldl (fun s e => s.endUnit e.1) s
  -- a region in ACQUIRE ends as well, before its pattern has begun
  ((List.range s.regions.length).foldl (fun s i =>
    if mine i then (if (s.region i).gauge = .acquire then s.regionEnds i else s.endCheck i) else s) s).regrant

/-- `TDI_EXIT` (R305): the TDI leaves CONFIG_LOCKED or RUN: the partition's jobs end, its key slot and its stores are zeroed. -/
def execTdiExit (f : Nat) (s : State) : Result :=
  .next (
    if (s.vf f).tdi = 0 then s
    else ((s.endJobs f).zeroStores f).setVf f fun x => { x with tdi := 0, key := none })

/-- `TDISP_MESSAGE` (R305): a VF is assigned to a confidential virtual machine: the TDI is locked, then started. -/
def execTdispMessage (f : Nat) (rq : TdispRequest) (s : State) : Result :=
  .next (
    if 64 ≤ f then s
    else
      match rq, (s.vf f).tdi with
      | .lock, 0 => s.setVf f fun x => { x with tdi := 1 }
      | .start, 1 => s.setVf f fun x => { x with tdi := 2 }
      | _, _ => s)

end Sys2Proof.Machine
end

