-- ==== Sys2Proof/Machine/Streams.lean ====
section
/-! DEFINITION. Stream ports and host cadences (R292, R312-R314): the checks of a frame's header, sample rings, keep-alive and credit frames,
transmission, and the reference timebase's grandmaster. -/

/-! ### Frames (R313) -/

namespace Sys2Proof

/-- Little-endian field of a frame's payload. -/
def Frame.nat (fr : Frame) (at_ n : Nat) : Nat := Machine.leNat ((fr.bytes.drop at_).take n)

/-- The header's own checks (R313) (log 91, DEDUCED). -/
def Frame.headerOk (fr : Frame) (ssz : Nat) : Bool :=
  decide (32 ≤ fr.bytes.length) && fr.nat 0 2 == 0x5644 && fr.nat 2 1 == 1 && decide (fr.nat 3 1 < 4) && fr.nat 30 2 == 0 &&
    decide (32 + fr.nat 6 2 * ssz ≤ fr.bytes.length)

/-- The instant of sample `i` of a frame, ns. -/
def Frame.inst (fr : Frame) (i : Nat) : Machine.Frac := Machine.Frac.norm ⟨256 * fr.nat 16 8 + i * fr.nat 24 4, 256⟩

end Sys2Proof

namespace Sys2Proof.Machine


/-- CTL and the other fields of a descriptor's first word (R312). -/
def descPort (d : List W64) : Nat := (d.getD 0 0).toNat / 2 % 2
/-- Slots of a descriptor's rings. -/
def descSlots (d : List W64) : Nat := 2 ^ ((d.getD 0 0).toNat / 256 % 256)
/-- SSZ. -/
def descSsz (d : List W64) : Nat := (d.getD 0 0).toNat / 2 ^ 16 % 65536
/-- SID. -/
def descSid (d : List W64) : Nat := (d.getD 0 0).toNat / 2 ^ 32 % 65536
/-- UDP. -/
def descUdp (d : List W64) : Nat := (d.getD 0 0).toNat / 2 ^ 48
/-- Bytes of a slot: the sample in whole blocks, then the trailer. -/
def slotBytes (d : List W64) : Nat := 64 * ((descSsz d + 63) / 64) + 64

/-- The enabled descriptor that a frame on port `p` matches: source, VF and descriptor. -/
def State.matchFrame (s : State) (p : Nat) (fr : Frame) : Option (Nat × Nat × List W64) :=
  (List.range 8).findSome? fun k => match s.streamOf k with
    | some (f, d) => if descPort d = p ∧ descSid d = fr.nat 4 2 ∧ descUdp d = fr.udp.toNat then some (k, f, d) else none
    | none => none

/-- Change the port state of source `k`. -/
def State.setSource (s : State) (k : Nat) (g : Source → Source) : State :=
  { s with sources := put s.sources k (g ((find s.sources k).getD ⟨none, false, 0, 0, 0, s.time, none, []⟩)) }

/-- DROPS of a source grows by `n` (R312); the descriptor's last word shows it. -/
def State.dropFrames (s : State) (f k n : Nat) : State :=
  let s := s.setSource k fun x => { x with drops := (x.drops + n) % 2 ^ 64 }
  let v := BitVec.ofNat 64 (((find s.sources k).map (·.drops)).getD 0)
  s.setVf f fun x => { x with streams := modify x.streams k fun d => setWord d 4 v }

/-- The descriptor that counts a frame on port `p` which matches no enabled one (R313): the first that its SID or its UDP port matches, else the first
enabled one of the port; with none of these there is no DROPS to count it in (log 45, DESIGN CHOICE). -/
def State.nearest (s : State) (p : Nat) (fr : Frame) : Option (Nat × Nat) :=
  let open_ := (List.range 8).filterMap fun k => (s.streamOf k).bind fun e => if descPort e.2 = p then some (k, e.1, e.2) else none
  ((open_.find? fun e => descSid e.2.2 == fr.nat 4 2 || descUdp e.2.2 == fr.udp.toNat).or open_.head?).map fun e => (e.1, e.2.1)

/-- What a frame of TYPE `type` on port `p` comes to: its source, or the state in which it is dropped and counted (R313). -/
def State.accept (s : State) (type p : Nat) (fr : Frame) : Sum State (Nat × Nat × List W64) :=
  if !s.hostOpen ∨ (fr.headerOk 0 ∧ fr.nat 3 1 ≠ type) then .inl s
  else
    match s.matchFrame p fr with
    | none => .inl (match s.nearest p fr with | some (k, f) => s.dropFrames f k 1 | none => s)
    | some (k, f, d) => if fr.headerOk (descSsz d) then .inr (k, f, d) else .inl (s.dropFrames f k 1)

/-- The halted jobs with a region on source `k` (R292). -/
def State.haltedOn (s : State) (k : Nat) : List Nat :=
  (s.jobs.filter fun e => s.regions.any fun r => r.job == e.1 && r.src == k && r.halted).map (·.1)

/-! ### Sample frames (R313) -/

/-- Sample `i` of a frame: counted as dropped where it lies too far behind, in JDROP where its job is halted (R292); else to be written to its
slot, data first and then the trailer, within 2 µs of its instant or of the frame's arrival. The gauge is to count it at its instant. -/
def State.takeStreamSample (s : State) (k f : Nat) (d : List W64) (fr : Frame) (i : Nat) : State :=
  let n := fr.nat 8 8 + i
  let old : Option Nat := (find s.sources k).bind (·.high)
  let s := s.setSource k fun x => { x with high := some (max n ((x.high).getD n)) }
  let t := fr.inst i
  let halted := s.haltedOn k
  if old.any fun h => decide (n + descSlots d ≤ h) then s.dropFrames f k 1
  else
  let s := { s with samples := s.samples ++ [(k, n, t)] }
  if !halted.isEmpty then
    halted.foldl (fun s j => s.setJob j fun x => { x with jdrop := (x.jdrop + 1) % 2 ^ 32 }) s
  else
    let ssz := descSsz d
    let va := (d.getD 1 0).toNat + slotBytes d * (n % descSlots d)
    let data := (fr.bytes.drop (32 + ssz * i)).take ssz
    let trailer := leBytes 8 n ++ leBytes 8 t.floor ++ leBytes 48 0
    let (a, s) := s.choose 2001
    let (b, s) := s.choose (2001 - a)
    let t0 := s.time.max t
    { s with timers := s.timers ++
        [(t0.add (Frac.ofNat a), .deliver f va data), (t0.add (Frac.ofNat (a + b)), .deliver f (va + slotBytes d - 64) trailer)] }

/-- A stream port's bytes are performed at device memory, through the partition's pages; a page that does not take them drops them (log 45,
DESIGN CHOICE). -/
def State.deliver (s : State) (f va : Nat) (bs : List Byte) : State :=
  match s.hostPieces f va bs.length true with
  | none => s
  | some ps =>
    (ps.foldl (fun (acc : State × List Byte) p =>
      let (s, rest) := acc
      let (g, pa, n) := p
      let w : WriteRec := ⟨0, streamAgent, s.time.num, s.time.den, 1, s.nextId, none, cellsAt pa (rest.take n), [], Snapshot.zero⟩
      (if g.space = 0 then (s.enqueue pa n).performWrite false ⟨.dram, pa, n, f⟩ w else s, rest.drop n)) (s, bs)).1

/-- `SAMPLES_FRAME` (R313): a TYPE 0 frame arrives on stream port `p`. -/
def execSamplesFrame (p : Nat) (fr : Frame) (s : State) : Result :=
  .next (match s.accept 0 p fr with
    | .inl s => s
    | .inr (k, f, d) =>
      let s := s.setSource k fun x => { x with lastTs := fr.nat 16 8, period := fr.nat 24 4 }
      (List.range (fr.nat 6 2)).foldl (fun s i => s.takeStreamSample k f d fr i) s)

/-! ### Keep-alive, credit and end of stream (R313, R314) -/

/-- Show LINK[0] in the descriptor (R312). -/
def State.showLink (s : State) (f k : Nat) (up : Bool) : State :=
  let s := s.setSource k fun x => { x with link := up }
  let show_ := fun (d : List W64) => setWord d 3 (BitVec.ofNat 64 ((d.getD 3 0).toNat % 2 ^ 32 + (if up then 2 ^ 32 else 0)))
  s.setVf f fun x => { x with streams := modify x.streams k show_ }

/-- `KEEP_ALIVE_RX` (R314): LINK is set, for 50 ms. -/
def execKeepAliveRx (p : Nat) (fr : Frame) (s : State) : Result :=
  .next (match s.accept 1 p fr with
    | .inl s => s
    | .inr (k, f, _) =>
      let s := (s.setSource k fun x => { x with kaAt := s.time }).showLink f k true
      { s with timers := s.timers ++ [(s.time.add (Frac.ofNat 50000000), .silence f k)] })

/-- `CREDIT_RX` (R313): the header is checked; the manual gives a received credit no effect on the port. -/
def execCreditRx (p : Nat) (fr : Frame) (s : State) : Result :=
  .next (match s.accept 2 p fr with | .inl s => s | .inr _ => s)

/-- `END_OF_STREAM_RX` (R313): the header is checked; that the source stops is what its missing samples say. -/
def execEndOfStreamRx (p : Nat) (fr : Frame) (s : State) : Result :=
  .next (match s.accept 3 p fr with | .inl s => s | .inr _ => s)

/-- A frame that a port sends for a descriptor (R313). -/
def header (d : List W64) (type count sn ts period credit : Nat) (data : List Byte) : Out :=
  .frame (descPort d) (BitVec.ofNat 16 (descUdp d)) (leBytes 2 0x5644 ++ [1, BitVec.ofNat 8 type] ++ leBytes 2 (descSid d) ++ leBytes 2 count ++
    leBytes 8 sn ++ leBytes 8 ts ++ leBytes 4 period ++ leBytes 2 credit ++ leBytes 2 0 ++ data)

/-- `KEEP_ALIVE_TX` (R314): every 10 ms while the descriptor is enabled. -/
def execKeepAliveTx (f k : Nat) (s : State) : Result :=
  .next (match s.streamOf k with
    | some (f', d) =>
      if f' ≠ f then s
      else { s with out := s.out ++ [header d 1 0 0 0 0 0 []], timers := s.timers ++ [(s.time.add (Frac.ofNat 10000000), .keepAlive f k)] }
    | none => s)

/-- `CREDIT_TX` (R314): every 1 ms while the descriptor is enabled; frozen at the halt of a job on the source. -/
def execCreditTx (f k : Nat) (s : State) : Result :=
  .next (match s.streamOf k with
    | some (f', d) =>
      if f' ≠ f then s
      else
        let (c, s) : Nat × State := match (find s.sources k).bind (·.credit) with
          | some c => (c, s)
          | none => s.creditOf f d k
        { s with out := s.out ++ [header d 2 0 0 0 0 c []], timers := s.timers ++ [(s.time.add (Frac.ofNat 1000000), .credit f k)] }
    | none => s)

/-- `LINK_TIMEOUT` (R314): no keep-alive frame for 50 ms. -/
def execLinkTimeout (f k : Nat) (s : State) : Result :=
  .next (match find s.sources k with
    | some x => if (x.kaAt.add (Frac.ofNat 50000000)).le s.time then s.showLink f k false else s
    | none => s)

/-- `TRANSMIT` (R314): slot `n` of the transmit ring leaves as a frame of one sample, at the instant `ts` of source sample n + TXDELAY. -/
def execTransmit (f k : Nat) (x : SampleTime) (s : State) : Result :=
  let ⟨n, ts⟩ := x
  .next (match s.streamOf k with
    | some (f', d) =>
      if f' ≠ f ∨ !(d.getD 0 0).getLsbD 2 then s
      else
        let ssz := descSsz d
        let va := (d.getD 2 0).toNat + slotBytes d * (n % descSlots d)
        let (bs, s) : List Byte × State := match s.readBytes f va ssz with
          | some bs => (bs, s.queueBytes f va ssz)
          | none => s.noise ssz
        let per : Nat := ((find s.sources k).map (·.period)).getD 0
        { s with out := s.out ++ [header d 0 1 n ts per 0 bs] }
    | none => s)

/-! ### Time and cadences (R314) -/

/-- The reference timebase is set to `t`. -/
def State.discipline (s : State) (t : Frac) : State := { s with time := t }

/-- `PTP_MESSAGE` (R314): the timebase is disciplined to the grandmaster, from which it differs by `g` ns (log 89, DEDUCED). -/
def execPtpMessage (g : Int) (s : State) : Result :=
  .next (s.discipline (if 0 ≤ g then s.time.add (Frac.ofNat g.toNat) else s.time.sub (Frac.ofNat (-g).toNat)))

/-- `HOST_CADENCE_SAMPLE` (R314): sample `n` of cadence `k` of VF `f`, while EN is set. -/
def execHostCadenceSample (f k n : Nat) (s : State) : Result :=
  .next (
    let d := (s.vf f).cadence.getD k []
    if !(d.getD 2 0).getLsbD 0 then s
    else
      let s := s.takeSample (64 * (f + 1) + 8 + k) n
      { s with timers := s.timers ++ [(cadenceInst d (n + 1), .cadence f k (n + 1))] })

end Sys2Proof.Machine
end

