-- ==== Sys2Proof/Machine/Fabric.lean ====
section
/-! DEFINITION. Selvedge ports and flits (R289, R294, R295, R298, R315-R318). The layout of the control flits' payloads is the model's (log 41, DESIGN CHOICE). -/

namespace Sys2Proof

/-- Little-endian field of a flit's payload. -/
def Flit.nat (fl : Flit) (at_ n : Nat) : Nat := Machine.leNat ((fl.payload.drop at_).take n)
/-- The data of a request or response: PARAM bytes, 1 to 64, from payload byte 32 on. -/
def Flit.data (fl : Flit) : List Byte := (fl.payload.drop 32).take (min fl.param.toNat 64)
/-- PA. -/
def Flit.pa (fl : Flit) : Nat := fl.nat 0 8
/-- The answer says that the bytes are in error (R237): payload byte 8 (log 41, DESIGN CHOICE). -/
def Flit.bad (fl : Flit) : Bool := fl.nat 8 1 == 1

/-- The origin of a write or an atomic of another package, as a report carries it (R278, R298). -/
def Flit.origin (fl : Flit) : W32 := BitVec.ofNat 32 (fl.spkg.toNat * 256 + fl.unit.toNat + 3 * 2 ^ 16)

end Sys2Proof

namespace Sys2Proof.Machine

/-- Port `p`. -/
def State.port (s : State) (p : Nat) : Port := s.ports.getD p ⟨0, 0, 0, 0, 0, 0, 0, 0, 0, 0⟩
/-- Change port `p`. -/
def State.setPort (s : State) (p : Nat) (g : Port → Port) : State := { s with ports := modify s.ports p g }

/-- A flit is discarded and counted (R316). -/
def State.discard (s : State) (p : Nat) : State := s.setPort p fun x => { x with discards := x.discards + 1 }

/-- The nonce of the next flit of a direction (R317): salt and flit count. -/
def nonce (salt : W32) (count : Nat) : BitVec 96 := salt ++ BitVec.ofNat 64 count

/-- What a flit that port `p` accepts comes to: for this package, or the state in which it has gone on or been discarded (R316). One out of its
link sequence is discarded: the other end replays from the number that is due (R317; log 95, DEDUCED). -/
def State.receive (s : State) (type p : Nat) (fl : Flit) : Sum State State :=
  if s.boot.step ≠ 5 ∨ (s.port p).lanes = 0 ∨ (fl.type.toNat ≠ type ∧ fl.type.toNat < 12) ∨ fl.lseq.toNat ≠ (s.port p).rxSeq then .inl s
  else
    let s := s.setPort p fun x =>
      let (c, renew) := nextCount (2 * p + 1) x.keys x.rxCount
      { x with rxSeq := (x.rxSeq + 1) % 65536, rxCount := c, txCount := if renew then 0 else x.txCount, keys := if renew then x.keys + 1 else x.keys
               fails := 0 }
    if 12 ≤ fl.type.toNat then .inl (s.discard p)
    else if fl.dpkg.toNat = s.boot.pkgNo then .inr s
    else if fl.hops.toNat ≤ 1 then .inl (s.discard p)
    else .inl (s.send (s.boot.routes.getD fl.dpkg.toNat (0, 0)).1 { fl with hops := fl.hops - 1 })

/-- A row for a flit of type `type`: `f` is what it does at its destination. -/
def flitRow (type p : Nat) (fl : Flit) (s : State) (f : State → State) : Result :=
  .next (match s.receive type p fl with
    | .inl s => s
    | .inr s => f s)

/-! ### Memory requests (R316) -/


/-- An answer to a request; `bad` where the bytes it asked for are in error. -/
def State.answer (s : State) (fl : Flit) (type : Nat) (bad : Bool) (data : List Byte) : State :=
  let route := s.boot.routes.getD fl.spkg.toNat (0, 0)
  s.send route.1
    { fl with
      type := BitVec.ofNat 4 type, vc := 2, dpkg := fl.spkg, spkg := BitVec.ofNat 8 s.boot.pkgNo, hops := BitVec.ofNat 8 route.2
      payload := leBytes 8 fl.pa ++ leBytes 24 (if bad then 1 else 0) ++ data ++ List.replicate (64 - data.length) 0 }

/-- Device memory holds `n` bytes at a physical address (R235). -/
def inMemory (pa n : Nat) : Bool :=
  decide (0 < n) && decide (pa % 2 ^ 38 + n ≤ Config.dieMemoryBytes) && decide (pa / 2 ^ 38 < 2)

/-- `READ_REQUEST` (R316, R245): the bytes are read under the partition's key and sent back; bytes in error are answered as such (R237), and an
address where no memory is has no answer, so that the beat that asked is late (log 46, DEDUCED). -/
def execReadRequest (p : Nat) (fl : Flit) (s : State) : Result :=
  flitRow 1 p fl s fun s =>
    let n := min fl.param.toNat 64
    if !inMemory fl.pa n then s.discard p
    else
      let s := s.enqueue fl.pa n
      if s.badIn .dram fl.pa n then (s.countUe (fl.pa / 2 ^ 38)).answer fl 4 true []
      else
        let bs := s.decipher .dram fl.part.toNat fl.pa (s.dram.bytes fl.pa n)
        s.answer fl 4 false bs

/-- `WRITE` (R316): performed under the partition's key, and compared with the watchpoints at the memory side (R297). -/
def execWrite (p : Nat) (fl : Flit) (s : State) : Result :=
  flitRow 2 p fl s fun s =>
    let bs := fl.data
    if !inMemory fl.pa bs.length then s.discard p
    else
      let (w, s) := s.farWrite fl.part.toNat 1 (cellsAt fl.pa bs)
      ((s.enqueue fl.pa bs.length).performWrite false ⟨.dram, fl.pa, bs.length, fl.part.toNat⟩ w).reportAtomic .dram fl.pa bs.length 17 fl.origin
        (fl.chan.toNat, fl.xid.toNat, fl.nat 8 8)

/-- `ATOMIC` (R194, R316): performed in full at the target; the old value goes back. -/
def execAtomic (p : Nat) (fl : Flit) (s : State) : Result :=
  flitRow 3 p fl s fun s =>
    let n := min fl.param.toNat 8
    let op := leNat ((fl.payload.drop 40).take 8)
    if !inMemory fl.pa n then s.discard p
    else if s.badIn .dram fl.pa n then ((s.enqueue fl.pa n).countUe (fl.pa / 2 ^ 38)).answer fl 5 true []
    else
      let s := s.enqueue fl.pa n
      let part := fl.part.toNat
      let bs := s.decipher .dram part fl.pa (s.dram.bytes fl.pa n)
      let (new, _) := atomNew op (leNat bs) (BitVec.ofNat 64 (fl.nat 32 8)) (BitVec.ofNat 64 (fl.nat 8 8))
      let s := match new with
        | some v =>
          let (w, s) := s.farWrite part 2 (cellsAt fl.pa (leBytes n v))
          (s.performWrite false ⟨.dram, fl.pa, n, part⟩ w).reportAtomic
            .dram fl.pa n 18 fl.origin (fl.chan.toNat, fl.xid.toNat, 0)
        | none => s
      s.answer fl 5 false bs

/-- The answer to a beat of a unit, or to one of a context load (R218), reaches it, and is held until the beat's promised cycle (R180, R290, R291). -/
def State.answered (s : State) (fl : Flit) : State :=
  let wants : Piece → Bool := fun q => (match q.space with | .remote pkg => pkg == fl.spkg.toNat | _ => false) && q.addr == fl.pa
  s.modUnit fl.unit.toNat fun un =>
    { un with
      ctx := un.ctx.map fun (c : Ctx) => if c.load && fl.chan == 0 then { c with resp := put c.resp fl.pa (if fl.bad then [] else fl.data) } else c
      beats := un.beats.map fun (b : Beat) =>
        let mine : Bool := b.chan == fl.chan.toNat && b.tid == fl.xid.toNat && !b.got &&
          (b.plan.reads.any wants || (match b.plan.sink with | .atomic q => wants q | _ => false))
        if mine then { b with resp := put b.resp fl.pa (if fl.bad then [] else fl.data), ue := b.ue || fl.bad } else b }

/-- `READ_RESPONSE` (R316): for a unit's beat, or for a host read (log 27, DEDUCED). -/
def execReadResponse (p : Nat) (fl : Flit) (s : State) : Result :=
  flitRow 4 p fl s fun s =>
    if fl.unit = 200 then
      match s.hostReads.find? fun h => h.1 == fl.xid.toNat with
      | some (x, f, a, n) =>
        { s with hostReads := s.hostReads.filter fun h => h.1 != x, out := s.out ++ [.completion f a (if fl.bad then [] else fl.data.take n) fl.bad] }
      | none => s
    else s.answered fl

/-- `ATOMIC_RESPONSE` (R316). -/
def execAtomicResponse (p : Nat) (fl : Flit) (s : State) : Result := flitRow 5 p fl s fun s => s.answered fl

/-! ### Control flits (R289, R294, R295, R298, R318) -/

/-- `GAUGE` (R318): the sample is to be taken at the instant carried; a flit that comes more than 1 µs after it counts as missed (log 88, DEDUCED).
Payload byte 24 says that the source is a synthetic generator (R295; log 41, DESIGN CHOICE). -/
def execGauge (p : Nat) (fl : Flit) (s : State) : Result :=
  flitRow 6 p fl s fun s =>
    let t : Frac := Frac.norm ⟨fl.nat 8 8, max 1 (fl.nat 16 8)⟩
    let g := fl.param.toNat % 64
    let s := { s with elastic := (s.elastic.filter (· != g)) ++ if fl.nat 24 1 = 1 then [g] else [] }
    if (t.add (Frac.ofNat 1000)).lt s.time then s else { s with samples := s.samples ++ [(g, fl.nat 0 8, t)] }

/-- `HALT_WAVE` (R289): a halt that started on another package, for the region whose RCB the flit names, with its H. -/
def execHaltWave (p : Nat) (fl : Flit) (s : State) : Result :=
  flitRow 7 p fl s fun s =>
    s.startWave fl.param.toNat fl.spkg.toNat fl.unit.toNat (Frac.norm ⟨fl.nat 0 8, max 1 (fl.nat 8 8)⟩) (BitVec.ofNat 64 (fl.nat 16 8)) fun i =>
      if ((s.regionRcb i).map (·.va)) = some (fl.nat 24 8) then some (fl.nat 32 8) else none

/-- `RESUME` (R295): the job resumes at TR here as well. -/
def execResume (p : Nat) (fl : Flit) (s : State) : Result :=
  flitRow 8 p fl s fun s =>
    match find s.jobs fl.param.toNat with
    | some x => if x.jstate = 1 ∨ x.jstate = 2 then s.resumeJob fl.param.toNat (Frac.ofNat (fl.nat 0 8)) else s
    | none => s

/-- `STEP` (R294): the focus region runs one cycle here as well. -/
def execStep (p : Nat) (fl : Flit) (s : State) : Result :=
  flitRow 9 p fl s fun s =>
    match find s.jobs fl.param.toNat with
    | some x => if x.jstate = 2 then s.stepRegion fl.param.toNat (fl.nat 0 8) else s
    | none => s

/-- `WATCH_REPORT_FLIT` (R298): a match at another package's memory reaches trigger `PARAM`[3:0] of unit `PARAM`[11:4]. Payload bytes 16-23 hold the number
of the arming that was matched: a report under an earlier one is discarded (R330; log 41, DESIGN CHOICE). -/
def execWatchReportFlit (p : Nat) (fl : Flit) (s : State) : Result :=
  flitRow 10 p fl s fun s =>
    s.modUnit (fl.param.toNat / 16 % 256) fun un =>
      { un with trigs := modify un.trigs (fl.param.toNat % 16) fun (g : Trigger) =>
        if g.armed && g.serial == fl.nat 16 8 then
          { g with struck := g.struck ++ [⟨s.time.num, s.time.den, .u, fl.chan.toNat, fl.xid.toNat, fl.nat 8 8, fl.nat 4 1 % 16, BitVec.ofNat 32 (fl.nat 0 4), fl.nat 5 1 == 1⟩] }
        else g }

/-- The packages of the fabric that the route table leads to (R315). -/
def State.fabric (s : State) : List Nat :=
  (List.range s.boot.routes.length).filter fun k => k != s.boot.pkgNo && decide (0 < (s.boot.routes.getD k (0, 0)).2)

/-- The lowest-numbered package of the fabric. -/
def State.lowest (s : State) : Nat := s.fabric.foldl min s.boot.pkgNo

/-- `TIME` (R318): the timebase follows that of the lowest-numbered package of the fabric. -/
def execTime (p : Nat) (fl : Flit) (s : State) : Result :=
  flitRow 11 p fl s fun s =>
    if fl.spkg.toNat = s.lowest ∧ s.lowest ≠ s.boot.pkgNo then s.discipline (Frac.ofNat (fl.nat 0 8)) else s

/-- The lowest-numbered package tells its time to the others (R318), after free intervals of at most 1 ms (log 88, DEDUCED). -/
def State.tellTime (s : State) : State :=
  if s.fabric.isEmpty ∨ s.lowest ≠ s.boot.pkgNo then s
  else
    let s := s.fabric.foldl (fun s k => s.tell 11 k 0 0 (leBytes 8 s.time.floor)) s
    let (d, s) := s.choose 1000000
    { s with timers := s.timers ++ [(s.time.add (Frac.ofNat (d + 1)), .tellTime)] }

/-! ### Ports (R315, R317) -/

/-- `LINK_TRAINING` (R315, R317): port `p` trains at `n` lanes, 8 or 4, and its session is made; else it is down. -/
def execLinkTraining (p n : Nat) (s : State) : Result :=
  .next (
    if s.boot.step ≠ 5 then s
    else
      { s with free := s.free + 2 }.setPort p fun x =>
        if n = 8 ∨ n = 4 then
          { x with
            lanes := n, txSeq := 0, rxSeq := 0, txCount := 0, rxCount := 0, fails := 0, keys := x.keys + 1
            txSalt := (Config.freeWord s.free).setWidth 32, rxSalt := (Config.freeWord (s.free + 1)).setWidth 32 }
        else { x with lanes := 0 })

/-- `FLIT_FAILURE` (R317): discarded, to be replayed; the 16th in a row takes the port down. -/
def execFlitFailure (p : Nat) (s : State) : Result :=
  .next (
    if (s.port p).lanes = 0 then s
    else
      let s := s.setPort p fun x => { x with fails := x.fails + 1 }
      if 16 ≤ (s.port p).fails then { s with timers := s.timers ++ [(s.time, .down p)] } else s)

/-- The routes after a port has gone down (R317): the firmware computes another port and hop count for each package that it led to, which the
model leaves free. -/
def State.reroute (s : State) (p : Nat) : State :=
  let others := (List.range 8).filter fun q => q != p && (s.port q).lanes != 0
  let (s, routes) := s.boot.routes.foldl (fun (acc : State × List (Nat × Nat)) e =>
    if e.1 ≠ p ∨ others.isEmpty then (acc.1, acc.2 ++ [e])
    else
      let (a, s) := acc.1.choose others.length
      let (h, s) := s.choose 255
      (s, acc.2 ++ [(others.getD a 0, h + 1)])) (s, [])
  { s with boot := { s.boot with routes } }

/-- `PORT_DOWN` (R317). -/
def execPortDown (p : Nat) (s : State) : Result :=
  .next (if (s.port p).lanes = 0 ∨ (s.port p).fails < 16 then s
    else State.reroute (s.setPort p fun x => { x with lanes := 0, fails := 0 }) p)

end Sys2Proof.Machine
end

