-- ==== Sys2Proof/Machine/Boot.lean ====
section
/-! DEFINITION. Boot, measurement and the SPDM responders (R245, R305, R317, R319, R320). The response codes are SPDM's own (log 47, PRESUMED). -/

namespace Sys2Proof.Machine

/-! ### Boot (R319) -/

/-- Boot stops at a failed check, after `step` steps: measurement 1 reports the failed image's digest. -/
def State.bootFails (s : State) (step : Nat) (im : BootImage) (k : Nat) : State :=
  { s with boot := { s.boot with step, failed := true, measured := (im.digests.getD k 0) :: (im.digests.take k).drop 1 } }

/-- Step 2 clears device memory. -/
def State.clearMemory (s : State) : State :=
  { s with dram := Store.zero, sealed := [], scrambled := false, bad := s.bad.filter fun k => k.1 != 2 }

/-- `BOOT` (R319): from the reset state, the five steps, each after its checks. -/
def execBoot (im : BootImage) (s : State) : Result :=
  .next (
    if s.boot.step ≠ 0 ∨ s.boot.failed then s
    else if !im.loaderOk then s.bootFails 0 im 0
    else if !im.firmwareOk then s.bootFails 1 im 1
    else
      let s := s.clearMemory
      if !im.tablesOk then s.bootFails 2 im 2
      else if !im.configOk then s.bootFails 3 im 3
      else
        let s : State := { s with boot :=
          { step := 5, failed := false, measured := im.digests.take 4, pkgNo := im.pkgNo.toNat, routes := im.routes
            -- at most 1,800 A (R270)
            curLimit := min 1800 im.currentLimit, thermal := im.thermalLimit, floorCap := im.floorCap } }
        (s.nextInterval (s.time.add (Frac.ofNat 50000))).tellTime)

/-! ### SPDM (R320) -/

/-- The DOE responder of function `f` answers: the PF's once boot has ended either way, a VF's once the host port is open (R319). -/
def State.responds (s : State) (f : Nat) : Bool := s.hostOpen && decide (f ≤ pfNo) || f == pfNo && s.boot.failed

/-- The connection state of function `f`. -/
def State.spdmOf (s : State) (f : Nat) : Spdm := (find s.spdm f).getD ⟨0, []⟩
/-- Change it. -/
def State.setSpdm (s : State) (f : Nat) (g : Spdm → Spdm) : State := { s with spdm := put s.spdm f (g (s.spdmOf f)) }

/-- A response: its code, the bytes that the manual gives, then those that it does not (log 6, DESIGN CHOICE). -/
def State.respond (s : State) (f code : Nat) (bs : List Byte) : State :=
  { s with out := s.out ++ [.spdm f code (bs ++ Config.spdmBytes s.free)], free := s.free + 1 }

/-- The ERROR response of an unexpected or unsupported request. -/
def State.spdmError (s : State) (f why : Nat) : State := { s with out := s.out ++ [.spdm f 0x7F [BitVec.ofNat 8 why]] }

/-- A request that needs the connection to have come to stage `need`. -/
def spdmRow (f need : Nat) (s : State) (g : State → State) : Result :=
  .next (if !s.responds f then s else if (s.spdmOf f).stage < need then s.spdmError f 4 else g s)

/-- `GET_VERSION` (R320): SPDM 1.3; a new connection. -/
def execGetVersion (f : Nat) (s : State) : Result :=
  spdmRow f 0 s fun s => (s.setSpdm f fun _ => ⟨1, []⟩).respond f 0x04 [0x13]

/-- `GET_CAPABILITIES` (R320). -/
def execGetCapabilities (f : Nat) (s : State) : Result :=
  spdmRow f 1 s fun s => (s.setSpdm f fun x => { x with stage := max x.stage 2 }).respond f 0x61 []

/-- `NEGOTIATE_ALGORITHMS` (R320): the one suite of the part, which `al` = 0 stands for. -/
def execNegotiateAlgorithms (f al : Nat) (s : State) : Result :=
  spdmRow f 2 s fun s => if al = 0 then (s.setSpdm f fun x => { x with stage := 3 }).respond f 0x63 [] else s.spdmError f 1

/-- `GET_DIGESTS` (R320). -/
def execGetDigests (f : Nat) (s : State) : Result := spdmRow f 3 s fun s => s.respond f 0x01 []

/-- `GET_CERTIFICATE` of slot `sl` (R320). -/
def execGetCertificate (f sl : Nat) (s : State) : Result := spdmRow f 3 s fun s => s.respond f 0x02 [BitVec.ofNat 8 sl]

/-- `CHALLENGE` (R320). -/
def execChallenge (f : Nat) (no : BitVec 256) (s : State) : Result := spdmRow f 3 s fun s => s.respond f 0x03 (leBytes 32 no.toNat)

/-- Measurement `ix` as function `f` reads it (R319, R320): 1 to 4 of boot, 5 the VF's TDI state and its PTROOT. -/
def State.measurement (s : State) (f ix : Nat) : Option (List Byte) :=
  if ix = 5 then some (BitVec.ofNat 8 (s.vf f).tdi :: leBytes 8 (s.vf f).ptroot.toNat)
  else if ix = 0 then none
  else (s.boot.measured[ix - 1]?).map fun d => leBytes 48 d.toNat

/-- `GET_MEASUREMENTS` (R320): measurement `ix`, signed. -/
def execGetMeasurements (f ix : Nat) (s : State) : Result :=
  spdmRow f 3 s fun s => match s.measurement f ix with
    | some bs => s.respond f 0x60 bs
    | none => s.spdmError f 1

/-- `KEY_EXCHANGE` (R320): session `sid` begins; pre-shared keys are not supported. -/
def execKeyExchange (f sid : Nat) (psk : Bool) (s : State) : Result :=
  spdmRow f 3 s fun s =>
    if psk then s.spdmError f 7
    else (s.setSpdm f fun x => { x with sessions := put x.sessions sid (false, 0) }).respond f 0x64 []

/-- `FINISH` (R320): session `sid` is established. -/
def execFinish (f sid : Nat) (s : State) : Result :=
  spdmRow f 3 s fun s =>
    match find (s.spdmOf f).sessions sid with
    | some (false, n) => (s.setSpdm f fun x => { x with sessions := put x.sessions sid (true, n) }).respond f 0x65 []
    | _ => s.spdmError f 4

/-- `END_SESSION` (R320). -/
def execEndSession (f sid : Nat) (s : State) : Result :=
  spdmRow f 3 s fun s =>
    match find (s.spdmOf f).sessions sid with
    | some (true, _) => (s.setSpdm f fun x => { x with sessions := drop x.sessions sid }).respond f 0x6C []
    | _ => s.spdmError f 2

/-- `KEY_UPDATE` (R317, R320): the keys of a Selvedge port's session are renewed and its counts begin again, or those of a session of a function,
which answers. -/
def execKeyUpdate (e : KeySession) (s : State) : Result :=
  match e with
  | .port p => .next (if (s.port p).lanes = 0 then s else s.setPort p fun x => { x with txCount := 0, rxCount := 0, keys := x.keys + 1 })
  | .spdm f sid => spdmRow f 3 s fun s =>
    match find (s.spdmOf f).sessions sid with
    | some (true, n) => (s.setSpdm f fun x => { x with sessions := put x.sessions sid (true, n + 1) }).respond f 0x69 []
    | _ => s.spdmError f 4

/-- The key comes in an established session: of function `f`'s responder, or from 128 on, of the fabric session of Selvedge port `f - 128`. -/
def State.keySession (s : State) (f : Nat) : Bool :=
  if f < 128 then s.responds f && (s.spdmOf f).sessions.any (fun e => e.2.1) else s.boot.step == 5 && (s.port (f - 128)).lanes != 0

/-- `SET_KEY` (R245, R305, R320): within an established session, and only while the partition's TDI is CONFIG_LOCKED. A key of a function's responder
goes on to every package that the partition's jobs use (log 97, DEDUCED). -/
def execSetKey (f part : Nat) (key : BitVec 512) (s : State) : Result :=
  .next (
    if 64 ≤ part ∨ !s.keySession f ∨ (s.vf part).tdi ≠ 1 then s
    else
      let s := s.setVf part fun x => { x with key := some key }
      if f < 128 then s.tellKey part (((s.jobs.filter fun e => e.1 / 16 == part).flatMap fun e => s.jobPackages e.1).eraseDups) else s)

end Sys2Proof.Machine
end

