-- ==== Sys2Proof/Machine/Cycle.lean ====
section
/-! DEFINITION. What comes next. A region cycle is a sequence of stages, each of which takes the walkers, engines or triggers of the
region's units in turn (R9, R24, R36, R56, R90, R180, R181, R213, R275); between region cycles the earliest of the outside world's events, the
package's own steps, source samples and the next region cycle comes first (R267, R288). -/

namespace Sys2Proof.Machine

/-- What a step does. -/
inductive Todo where
  /-- Run a row of the table. -/
  | run (i : Instr)
  /-- Take a word that spells no instruction. -/
  | raw (w : Nat)
  /-- One of the package's own steps. -/
  | own (d : Due)
  /-- Nothing is to come. -/
  | idle

/-! ### Words -/

/-- The word at which walker `k` of a unit stands. -/
def Unit.word (un : Unit) (k : Nat) : Nat := (un.istore.getD (un.wk k).idx 0).toNat

/-- Decode a word with the two words after it. -/
def todoOf (w l0 l1 : Nat) : Todo :=
  match decodeNat w l0 l1 with
  | .ok i => .run i
  | .error _ => .raw w

/-- Fetch the instruction at which walker `k` of a unit stands. -/
def Unit.fetchAt (un : Unit) (k : Nat) : Todo :=
  let i := (un.wk k).idx
  todoOf (un.word k) (un.istore.getD (i + 1) 0).toNat (un.istore.getD (i + 2) 0).toNat

/-- Walker `k` passes the word at which it stands in this cycle, or its level begins a pass there (R9, R36, R109). -/
def Unit.passing (un : Unit) (now k : Nat) : Option (Option Todo) :=
  let w := un.wk k
  match w.slot with
  | .done .. => none
  | .walking n =>
    if w.stopped || (un.draining now && w.inner.isNone) || w.held || decide (w.ic < w.ready) || un.haltAt.isSome || (k != 0 && un.quietWord) then none
    else if w.inner.any fun l => !l.started then some none
    else if 65536 ≤ w.idx then none
    else
      let raw := un.word k
      let words := 1 + literalCount raw
      if decide (8 < n + words) || (w.countsAt w.idx && un.slips k words) || executes raw k then none else some (some (un.fetchAt k))

/-- A level of walker `k` begins a pass before the walker takes a word (R109). -/
def Unit.startsPass (un : Unit) (now k : Nat) : Bool := match un.passing now k with | some none => true | _ => false

/-- Run what a walker's word does, for walker `k` of unit `u`. -/
def State.take (ex : Instr → State → Result) (s : State) (u k : Nat) : State :=
  match s.unit? u with
  | none => s
  | some un =>
    let s := { s with focus := (u, k) }
    match un.fetchAt k with
    | .run i => outcomeState s (ex i s)
    | .raw w => undecoded w s
    | _ => s

/-- Walker `k` of unit `u` takes words until its slot of the cycle ends, or its unit stops. -/
def State.takeOn (ex : Instr → State → Result) (u k : Nat) : Nat → State → State
  | 0, s => s
  | n + 1, s =>
    match s.unit? u with
    | none => s
    | some un =>
      match (un.wk k).slot with
      | .done .. => s
      | .walking _ =>
        if un.run ≠ .running then s
        else State.takeOn ex u k n (if un.startsPass (s.now un) k then outcomeState s (ex (.loopPassStart u k) s) else s.take ex u k)

/-! ### Faults of a cycle (R56, R275) -/

/-- Unit `u` stands stopped. -/
def State.isStopped (s : State) (u : Nat) : Bool := match s.unit? u with | some un => un.run == .stopped | none => false

/-- The walkers of unit `u` whose words fault in this cycle, each seen after the words of the walkers before it; `s` is the state so far, and
the last result the state after the words that do not fault. -/
def State.faulting (ex : Instr → State → Result) (u : Nat) (s : State) : List Nat × State :=
  (List.range 4).foldl (fun (acc : List Nat × State) k =>
    match acc.2.unit? u with
    | none => acc
    | some un =>
      match (un.wk k).slot with
      | .done .. => acc
      | .walking _ =>
        let t := State.takeOn ex u k 32 acc.2
        if t.isStopped u then (acc.1 ++ [k], acc.2) else (acc.1, t)) ([], s)

/-- The channels of unit `u` on which a fill would find no skein slot in strict mode (R190), after the words of this cycle. -/
def State.starved (u : Nat) (s : State) : List Nat :=
  match s.unit? u with
  | none => []
  | some un =>
    if !s.live un || !isIssue (un.divisor 3) (s.now un) || un.ctx.isSome then []
    else
      ((List.range 4).foldl (fun (acc : List Nat × State) c =>
        match State.channelBeats u c 64 acc.2 with
        | (t, miss) => (if miss then acc.1 ++ [c] else acc.1, t)) ([], outcomeState s (execKStepStart u s))).1

/-- What raises a fault in this cycle at unit `u`: its walkers, and 4 + its channels. A unit that another fault has stopped in this cycle may
still record a precise one (R275). -/
def State.faulters (ex : Instr → State → Result) (s : State) (u : Nat) : List (Nat × Nat) :=
  match s.unit? u with
  | none => []
  | some un =>
    let now := s.now un
    let again : Bool := match un.stop with | some st => un.run == .stopped && st.cycle == now | none => false
    if un.run = .running then
      let (ks, t) := State.faulting ex u s
      (if ks.isEmpty then (State.starved u t).map (4 + ·) else ks).map fun k => (u, k)
    else if again then
      ((State.faulting ex u (s.setUnit u { un with run := .running, stop := none })).1).map fun k => (u, k)
    else []

/-- A k-step of unit `u` that is due does not start in this cycle, because a fault stops the unit, or its pair partner and so the unit, in it: a
word's, a fill's, or that of the partner's own k-step (R165, R172, R274, R282). -/
def State.kstepBarred (ex : Instr → State → Result) (s : State) (u : Nat) : Bool :=
  match s.unit? u with
  | none => false
  | some un =>
    if un.run ≠ .running ∨ (un.unmatched (s.now un)).isSome ∨ !un.kstepDue (s.now un) then false
    else
      let t := outcomeState s (execKStepStart u s)
      !t.isStopped u && (!(t.faulters ex u).isEmpty || (t.isPaired un && (!(t.faulters ex (partner u)).isEmpty ||
        (!s.isStopped (partner u) && (outcomeState s (execKStepStart (partner u) s)).isStopped (partner u)))))

/-! ### The stages of a region cycle -/

/-- The numbers of the stages that other definitions name, with `stageFault`: words issue. -/
def stageIssue : Nat := 19
/-- The cycle ends. -/
def stageLast : Nat := 39

/-- Each unit of a list with each number below `n`. -/
def each (us : List Nat) (n : Nat) : List (Nat × Nat) := us.flatMap fun u => (List.range n).map fun k => (u, k)

/-- What stage `n` of the cycle of region `r` goes through, in order (log 54, DEDUCED). -/
def State.round (ex : Instr → State → Result) (s : State) (r n : Nat) : List (Nat × Nat) :=
  let us := s.unitsOf r
  let has := fun (f : Unit → Bool) => us.filter fun u => match s.unit? u with | some un => f un | none => false
  match n with
  | 1 | 2 => [(r, 0)]
  | 3 => each (has fun un => !un.phases.isEmpty) 4
  | 4 => ((us.flatMap fun u => match s.unit? u with | some un => (un.bars.filter fun a => a.tb.isNone).map (·.id) | none => []).dedup).map fun b => (b, 0)
  | 11 => ((List.range s.kernels.length).filter fun k => match s.kernels[k]? with
      | some ker => ker.region == r && ker.state == .loaded
      | none => false).map fun k => (k, 0)
  | 12 | 19 => each (has fun un => un.run == .running) 4
  | 13 => ((us.flatMap fun u => match s.unit? u with
      | some un => (un.outbox.filter fun m => decide (m.arrive ≤ s.now un)).map (·.dst)
      | none => []).dedup).map fun u => (u, 0)
  | 14 | 21 => each us 4
  | 15 => each us 2
  | 16 | 36 | 37 => each (has fun un => un.trigs.any fun g => g.armed || g.stopDue.isSome) 16
  | 17 => (us.filter fun u => !s.kstepBarred ex u).map fun u => (u, 0)
  | 18 => us.flatMap fun u => s.faulters ex u
  | 30 => (s.crossings.filter fun e => us.contains e.2.prod).map fun e => (e.1 / 16, e.1 % 16)
  | 34 => ((s.walks.filter fun w => us.contains w.2.unit).map (·.1)).dedup.map fun c => (c, 0)
  | 39 => []
  | _ => us.map fun u => (u, 0)

/-- What unit `a` does in a stage that acts on units, if it is due, and whether the stage looks at it again. -/
def State.unitStage (s : State) (n a b : Nat) (un : Unit) : Option (Todo × Bool) :=
  let now := s.now un
  let on := fun (c : Bool) (i : Instr) => if c then some (Todo.run i, false) else none
  let more := fun (c : Bool) (i : Instr) => if c then some (Todo.run i, true) else none
  let run : Bool := un.run == .running
  let frozen : Bool := un.run == .frozen
  -- the cycle in which a unit stops is its last in which windows open and close (R212, R214; log 131, DEDUCED)
  let watches : Bool := run || frozen || un.stopsIn now
  match n with
  | 3 => on (un.phases.any fun p => p.held.contains b) (.phaseComplete a b)
  | 5 => on (un.bars.any fun q => !q.released && q.tb.isSome) (.barrierRelease a)
  | 6 => on un.preemptible (.preemptionStop a)
  | 7 =>
    match un.ctx with
    | some c =>
      if un.run ≠ .frozen ∨ c.xlAt.isSome then none
      else if c.load then on (match c.checkAt with | some t => decide (t ≤ now) | none => decide (c.endAt ≤ now)) (.ctxlComplete a)
      else on (decide (c.endAt ≤ now)) (.ctxsComplete a)
    | none => none
  | 8 => on (match un.stop with | some st => un.run == .stopped && !st.wrote && decide (st.cycle < now) && un.made now | none => false) (.compositeRecordWrite a)
  | 9 => on (un.run == .preempted && (match un.ctx with | some c => decide (c.endAt ≤ now) | none => un.made now)) (.preemptionSave a)
  | 10 => on (match un.haltAt with | some c => decide (c ≤ now) | none => false) (.bindOff a)
  | 12 =>
    -- the walker whose store has struck a watchpoint stands at the word after it (R296)
    let struck : Bool := un.trigs.any fun g => g.opens now true && g.kind == 4 &&
      (match g.named ((s.region un.region).serves now) with | some h => h.cls == .p && h.chan == b | none => false)
    match (if run && !struck then un.passing now b else none) with
    | some none => some (.run (.loopPassStart a b), true)
    | some (some t) => some (t, true)
    | none => none
  | 14 => on (((un.ch b).cmds.any fun x => x.xlAt == some now) ||
      (b == 0 && (un.trigs.any (fun g => g.xlAt == some now) || (match un.ctx with | some c => c.xlAt == some now | none => false)))) (.translationStep a b)
  | 15 => if b = 0 then on (run && (s.ueDue a un).isSome) (.copyReadDataReady a) else on (run && (un.loadUe now).isSome) (.resultLand a)
  | 16 | 36 =>
    match un.trigs[b]? with
    | some g =>
      if watches && (if n = 16 then g.stopsNow now || g.opens now true else g.opens now false) then
        let far : Bool := !g.stopsNow now && g.kind == 4 && (match g.named ((s.region un.region).serves now) with | some h => h.cls == .u | none => false)
        some (.run (if far then .watchReport a b else .triggerWindowOpen a b), false)
      else none
    | none => none
  | 37 => on (match un.trigs[b]? with | some g => watches && g.closes | none => false) (.triggerWindowClose a b)
  | 17 | 20 => on ((un.unmatched now).isSome || (s.live un && un.kstepDue now && (match un.mult with
      | some m => !m.waiting || un.available m.op
      | none => false))) (.kStepStart a)
  | 18 => if b < 4 then some (un.fetchAt b, false) else some (.run (.copyBeatIssue a (b - 4)), false)
  | 19 =>
    match (un.wk b).slot with
    | .walking _ => if run then some (if un.startsPass now b then .run (.loopPassStart a b) else un.fetchAt b, true) else none
    | .done .. => none
  | 21 => on (if un.ctx.isSome then b == 0 && (frozen || un.run == .preempted) else s.live un && isIssue (un.divisor 3) now && (un.ch b).current.isSome)
      (.copyBeatIssue a b)
  | 22 => more (match un.nextLanding now with | some p => p.rank == 0 | none => false) (.resultLand a)
  | 23 => on ((un.beats.any fun q => q.plain && !q.got && !q.late && !q.unanswered && decide (q.readAt ≤ now)) || !(un.samplingDue now).isEmpty) (.copyReadDataReady a)
  | 24 => on (un.beats.any fun q => q.plain && !q.got && (q.late || q.unanswered) && decide (q.readAt ≤ now)) (.lateDataPoison a)
  | 25 => on (!(un.writesDue now).isEmpty) (.copyWritePerform a)
  | 26 => on (un.beats.any fun q => !q.plain && !q.performed && decide (q.performAt ≤ now)) (.atomicPerform a)
  | 27 => on (un.beats.any fun q => !q.plain && (q.performed || q.late) && !q.got && decide (q.readAt ≤ now)) (.atomicResultLand a)
  | 28 => more (un.ksteps.any fun k => !k.ended && decide (k.endAt ≤ now)) (.kStepEnd a)
  | 29 =>
    (un.landsNext now).map fun k => (.run (if k then .kStepLand a else .resultLand a), true)
  | 31 => on (un.chans.any fun ch => !ch.cmds.isEmpty) (.copyCommandComplete a)
  | 32 => on (un.beats.any fun q => q.isOffWrite a && q.performed && decide (q.doneAt ≤ now)) (.offcoreWriteComplete a)
  | 33 => on (un.beats.any fun q => match q.lateAt with | some c => decide (c ≤ now) | none => false) (.lateDataArrival a)
  | 35 => more (s.walks.any fun w => w.2.unit == a && w.2.resident && decide (w.2.ends ≤ now)) (.residentRewalk a)
  | 38 => on ((s.region un.region).rcc % (s.region un.region).p == 0 && (run || frozen)) (.watchdog a)
  | _ => none

/-- What stage `n` of the cycle of region `r` does at `(a, b)`, if it is due, and whether it looks there again. -/
def State.stageAt (s : State) (r n a b : Nat) : Option (Todo × Bool) :=
  let g := s.region r
  match n with
  | 1 => if g.rcc % g.p = 0 then some (.run (.sampleBoundary r), false) else none
  | 2 => if g.gauge = .holdover ∧ g.rcc % g.p = 0 ∧ g.holdRsc + s.holdOf r ≤ g.rsc then some (.run (.holdoverExpiry r), false) else none
  | 4 => some (.run (.barrierComplete a), false)
  | 11 => if g.rcc % g.p = 0 ∧ g.gauge ≠ .draining then some (.run (.kernelStart a), false) else none
  | 13 => some (.run (.messageArrival a), false)
  | 30 =>
    match find s.crossings (16 * a + b) with
    | some x =>
      match (s.unit? x.prod).filter fun un => un.kernel == x.prodK with
      | some un => if x.inbox.any fun e => e.1 == x.entered && decide (e.2.1 ≤ s.now un) then some (.run (.crossingSampleEnter a b), true) else none
      | none => none
    | none => none
  | 34 =>
    let due : Walk → Bool := fun w => match s.unit? w.unit with | some un => !w.resident && decide (w.ends ≤ s.now un) | none => true
    if s.walks.any fun w => w.1 == a && due w.2 then some (.run (.tableWalkComplete a), false) else none
  | n =>
    match s.unit? a with
    | some un => s.unitStage n a b un
    | none => none

/-- The first of a stage's places where something is due, and the places that are left. -/
def State.scan (s : State) (r n : Nat) : List (Nat × Nat) → Option (Todo × (Nat × Nat) × List (Nat × Nat))
  | [] => none
  | p :: ps =>
    match s.stageAt r n p.1 p.2 with
    | some (t, again) => some (t, p, if again then p :: ps else ps)
    | none => State.scan s r n ps

/-- The region cycle in progress ends. -/
def State.endCycle (s : State) : State :=
  let r := s.region s.turn
  let s := (s.setRegion s.turn fun r => { r with openCyc := false })
  let s := (s.unitsOf s.turn).foldl (fun s u => s.modUnit u fun un => if un.run = .running ∨ un.run = .frozen ∨ un.stopsIn r.rcc then un.unstrike (r.serves r.rcc) else un) s
  { s with stage := 0, agenda := [] }

/-- Go on with the region cycle in progress: the next thing that is due in it, from its present stage on; none where the cycle has ended. -/
def State.advance (ex : Instr → State → Result) : Nat → State → State × Option Todo
  | 0, s => (s.endCycle, none)
  | fuel + 1, s =>
    match s.scan s.turn s.stage s.agenda with
    | some (t, p, rest) => ({ s with focus := p, agenda := rest }, some t)
    | none =>
      if stageLast ≤ s.stage then (s.endCycle, none)
      else State.advance ex fuel { s with stage := s.stage + 1, agenda := s.round ex s.turn (s.stage + 1) }

/-! ### Between region cycles -/

/-- A step of the scheduler of a halted job waits for its resume (R290); a grant step does not, since other jobs' kernels wait for it as well. -/
def State.waits (s : State) (d : Due) : Bool :=
  let job := fun (j : Nat) => ((find s.jobs j).map fun x => x.jstate != 0 && x.jstate != 1).getD false
  let node := fun (n : Nat) => s.jobHalted (n / 2 ^ 48)
  let ker := fun (k : Nat) => ((s.kernels[k]?).map fun x => s.jobHalted x.region).getD false
  match d with
  | .event (.arm j) | .event (.jobRetire j) => job j
  | .event (.nodeRetire k) | .event (.contextRestore k) | .event (.preemptionRequest k) => ker k
  | .event (.cond n) | .event (.loopNode n) | .event (.switch n) | .event (.join n) | .event (.watchNode n) => node n
  | .event (.shedSave r) | .event (.shedClear r) | .event (.regionReadmit r) => s.jobHalted r
  | .event (.bindOff u) | .event (.actionResume u) => match s.unit? u with | some un => s.jobHalted un.region | none => false
  | _ => false

/-- Where the next event comes from. -/
inductive Origin where
  | input (i : Nat)
  | timer (i : Nat)
  | sample (i : Nat)
  | missed (r : Nat)
  | cycle (r : Nat)

/-- The earlier of two events; the first where they come at one time. -/
def sooner (a b : Option (Frac × Origin)) : Option (Frac × Origin) :=
  match a, b with
  | none, b => b
  | a, none => a
  | some x, some y => if y.1.lt x.1 then some y else some x

/-- When region `i` next needs a step: its next cycle, or what takes that cycle's place. -/
def State.regionTime (s : State) (i : Nat) : Option Frac :=
  let r := s.region i
  if r.haltDue then some (if r.runs then r.cycleTime r.next else s.time)
  else if r.runs && !r.openCyc then some (r.cycleTime r.next)
  else none

/-- The earliest event: of one time, inputs come first, then the package's own steps, source samples, missed samples and region cycles (log 96, DEDUCED). -/
def State.earliest (s : State) : Option (Frac × Origin) :=
  let c := s.inputs.zipIdx.foldl (fun m e => sooner m (some (e.1.1, .input e.2))) none
  let c := s.timers.zipIdx.foldl (fun m e => if s.waits e.1.2 then m else sooner m (some (e.1.1, .timer e.2))) c
  let c := s.samples.zipIdx.foldl (fun m e => sooner m (some (e.1.2.2, .sample e.2))) c
  let is := List.range s.regions.length
  let c := is.foldl (fun m i =>
    let r := s.region i
    if r.halted then m else sooner m (r.missAt.map fun t => (t, .missed i))) c
  is.foldl (fun m i => sooner m ((s.regionTime i).map fun t => (t, .cycle i))) c

/-- A stopped unit whose record waits in a region that runs no cycles (R277). -/
def State.unwritten (s : State) : Option Nat :=
  (s.units.find? fun e => e.2.run == .stopped && !(s.region e.2.region).runs && (match e.2.stop with | some st => !st.wrote | none => false)).map (·.1)

/-- The next event outside a region cycle (log 52, DEDUCED). -/
def State.between (s : State) : State × Todo :=
  match s.unwritten with
  | some u => (s, .run (.compositeRecordWrite u))
  | none =>
    match s.earliest with
    | none => (s.serve, .idle)
    | some (t, c) =>
      let s := if s.time.lt t then s.serve else s
      let s := { s with time := s.time.max t }
      match c with
      | .input i =>
        match s.inputs[i]? with
        | some e => ({ s with inputs := s.inputs.eraseIdx i }, .run e.2)
        | none => (s, .idle)
      | .timer i =>
        match s.timers[i]? with
        | some e => ({ s with timers := s.timers.eraseIdx i }, .own e.2)
        | none => (s, .idle)
      | .sample i =>
        match s.samples[i]? with
        | some e => (s, .run (.sourceSample e.1 e.2.1))
        | none => (s, .idle)
      | .missed r => (s, .run (.sampleMissed r))
      | .cycle r =>
        if (s.region r).haltDue then (s, .run (.haltWaveArrival r))
        else if s.freezeDue r then (s, .run (.regionFreeze r))
        else ({ s with turn := r, stage := 1, agenda := [(r, 0)] }, .run (.regionCycle r))

/-- What comes next, and the state with it taken off the books. -/
def State.nextTodo (ex : Instr → State → Result) (s : State) : State × Todo :=
  if s.stage = 0 then s.between
  else
    match State.advance ex 40 s with
    | (s, some t) => (s, t)
    | (s, none) => s.between

/-- One of the package's own steps. -/
def Due.perform (ex : Instr → State → Result) (s : State) : Due → Result
  | .event i => ex i s
  | .registration f j => execJobRegistration f j s
  | .invalidated f => execInvalidationDone f s
  | .keepAlive f k => execKeepAliveTx f k s
  | .credit f k => execCreditTx f k s
  | .silence f k => execLinkTimeout f k s
  | .transmit f k n ts => execTransmit f k ⟨n, ts⟩ s
  | .tellTime => .next s.tellTime
  | .cadence f k n => execHostCadenceSample f k n s
  | .host f => .next (State.hostDrain f (s.vf f).waiting s)
  | .down p => execPortDown p s
  | .lease => execCapLeaseExpiry s
  | .checkpoint => execCheckpointDone s
  | .deliver f va bs => .next (s.deliver f va bs)
  | .send u k => .next (s.sendRecordBlock u k)
  | .block u k => .next (s.writeRecordBlocks u [k])
  | .interval ma mc mw => execPowerControlInterval ma mc mw s

/-- Do what comes next. -/
def Todo.perform (ex : Instr → State → Result) (s : State) : Todo → Result
  | .run i => ex i s
  | .raw w => .next (undecoded w s)
  | .own d => d.perform ex s
  | .idle => .next s

/-- One step of the machine, `ex` giving the rows of the table their meaning. -/
def stepWith (ex : Instr → State → Result) (s : State) : Result :=
  let (s, t) := s.nextTodo ex
  t.perform ex s

end Sys2Proof.Machine
end

