-- ==== Sys2Proof/Machine/Integer.lean ====
section
/-! DEFINITION. Integer operations, immediates and constants (R83-R86), and `nop` (R54). -/

namespace Sys2Proof.Machine

/-- Signed 64-bit minimum. -/
def smin (a b : W64) : W64 := if a.slt b then a else b
/-- Signed 64-bit maximum. -/
def smax (a b : W64) : W64 := if a.slt b then b else a
/-- Unsigned minimum. -/
def umin (a b : W64) : W64 := if a.ult b then a else b
/-- Unsigned maximum. -/
def umax (a b : W64) : W64 := if a.ult b then b else a
/-- Shift amount: bits [5:0] (R83). -/
def shamt (b : W64) : Nat := (b.extractLsb' 0 6).toNat
/-- Bits [127:64] of the signed product. -/
def mulHigh (a b : W64) : W64 := (a.signExtend 128 * b.signExtend 128).extractLsb' 64 64
/-- Bits [127:64] of the unsigned product. -/
def mulHighU (a b : W64) : W64 := (a.zeroExtend 128 * b.zeroExtend 128).extractLsb' 64 64
/-- Unsigned quotient, all ones for a zero divisor. -/
def divU (a b : W64) : W64 := if b = 0 then BitVec.allOnes 64 else a / b
/-- Unsigned remainder, the dividend for a zero divisor. -/
def remU (a b : W64) : W64 := if b = 0 then a else a % b
/-- Number of one bits among the low `n` bits. -/
def onesBelow (a : W64) : Nat → Nat
  | 0 => 0
  | n + 1 => onesBelow a n + (if a.getLsbD n then 1 else 0)
/-- Number of leading zeros of the low `n` bits. -/
def zerosAbove (a : W64) : Nat → Nat
  | 0 => 0
  | n + 1 => if a.getLsbD n then 0 else 1 + zerosAbove a n
/-- Leading zero bits, 64 for 0. -/
def countLeadingZeros (a : W64) : W64 := BitVec.ofNat 64 (zerosAbove a 64)
/-- One bits. -/
def popCount (a : W64) : W64 := BitVec.ofNat 64 (onesBelow a 64)

/-- A major-1 word of two operands (R83): the latency of R84 and the operation. -/
def intOp (w : BitVec 4) (d a b : BitVec 5) (lat : Nat) (f : W64 → W64 → W64) (s : State) : Result :=
  .next (runWord (ctl w) (regBody true lat d.toNat [a.toNat, b.toNat] (bin2 f)) s)

/-- A word of one register operand. -/
def intOp1 (w : BitVec 4) (d a : BitVec 5) (f : W64 → W64) (s : State) : Result :=
  .next (runWord (ctl w) (regBody true 1 d.toNat [a.toNat] (un1 f)) s)

/-- A word that loads a constant (R85, R86), poison clear. -/
def constOp (f : WordInfo) (d : BitVec 5) (v : W64) (s : State) : Result :=
  .next (runWord f (regBody true 1 d.toNat [] fun _ => ⟨v, false⟩) s)

/-- `nop` (R54): it issues and changes only the walker's place; it takes no entry of R25. -/
def execNop (w : BitVec 4) (s : State) : Result := .next (runWord (ctl w) (fun s _ _ => .go s .seq) s)

/-- `add`. Sum modulo 2^64 (R83). -/
def execAdd (w : BitVec 4) (d a b : BitVec 5) (s : State) : Result := intOp w d a b 1 (· + ·) s

/-- `sub`. Difference modulo 2^64 (R83). -/
def execSub (w : BitVec 4) (d a b : BitVec 5) (s : State) : Result := intOp w d a b 1 (· - ·) s

/-- `and`. Bitwise AND (R83). -/
def execAnd (w : BitVec 4) (d a b : BitVec 5) (s : State) : Result := intOp w d a b 1 (· &&& ·) s

/-- `or`. Bitwise OR (R83). -/
def execOr (w : BitVec 4) (d a b : BitVec 5) (s : State) : Result := intOp w d a b 1 (· ||| ·) s

/-- `xor`. Bitwise XOR (R83). -/
def execXor (w : BitVec 4) (d a b : BitVec 5) (s : State) : Result := intOp w d a b 1 (· ^^^ ·) s

/-- `andn`. a AND NOT b (R83). -/
def execAndn (w : BitVec 4) (d a b : BitVec 5) (s : State) : Result := intOp w d a b 1 (fun x y => x &&& ~~~y) s

/-- `orn`. a OR NOT b (R83). -/
def execOrn (w : BitVec 4) (d a b : BitVec 5) (s : State) : Result := intOp w d a b 1 (fun x y => x ||| ~~~y) s

/-- `sll`. Shift left by b[5:0] (R83). -/
def execSll (w : BitVec 4) (d a b : BitVec 5) (s : State) : Result := intOp w d a b 1 (fun x y => x <<< shamt y) s

/-- `srl`. Logical shift right by b[5:0] (R83). -/
def execSrl (w : BitVec 4) (d a b : BitVec 5) (s : State) : Result := intOp w d a b 1 (fun x y => x >>> shamt y) s

/-- `sra`. Arithmetic shift right by b[5:0] (R83). -/
def execSra (w : BitVec 4) (d a b : BitVec 5) (s : State) : Result := intOp w d a b 1 (fun x y => x.sshiftRight (shamt y)) s

/-- `rol`. Rotate left by b[5:0] (R83). -/
def execRol (w : BitVec 4) (d a b : BitVec 5) (s : State) : Result := intOp w d a b 1 (fun x y => x.rotateLeft (shamt y)) s

/-- `mul`. Low product, latency 3 (R84) (R83). -/
def execMul (w : BitVec 4) (d a b : BitVec 5) (s : State) : Result := intOp w d a b 3 (· * ·) s

/-- `mulh`. High signed product, latency 4 (R83). -/
def execMulh (w : BitVec 4) (d a b : BitVec 5) (s : State) : Result := intOp w d a b 4 mulHigh s

/-- `mulhu`. High unsigned product, latency 4 (R83). -/
def execMulhu (w : BitVec 4) (d a b : BitVec 5) (s : State) : Result := intOp w d a b 4 mulHighU s

/-- `divu`. Quotient, latency 20 (R83). -/
def execDivu (w : BitVec 4) (d a b : BitVec 5) (s : State) : Result := intOp w d a b 20 divU s

/-- `remu`. Remainder, latency 20 (R83). -/
def execRemu (w : BitVec 4) (d a b : BitVec 5) (s : State) : Result := intOp w d a b 20 remU s

/-- `min`. Signed minimum (R83). -/
def execMin (w : BitVec 4) (d a b : BitVec 5) (s : State) : Result := intOp w d a b 1 smin s

/-- `max`. Signed maximum (R83). -/
def execMax (w : BitVec 4) (d a b : BitVec 5) (s : State) : Result := intOp w d a b 1 smax s

/-- `minu`. Unsigned minimum (R83). -/
def execMinu (w : BitVec 4) (d a b : BitVec 5) (s : State) : Result := intOp w d a b 1 umin s

/-- `maxu`. Unsigned maximum (R83). -/
def execMaxu (w : BitVec 4) (d a b : BitVec 5) (s : State) : Result := intOp w d a b 1 umax s

/-- `clz`. Leading zero bits (R83). -/
def execClz (w : BitVec 4) (d a : BitVec 5) (s : State) : Result := intOp1 w d a countLeadingZeros s

/-- `popc`. One bits (R83). -/
def execPopc (w : BitVec 4) (d a : BitVec 5) (s : State) : Result := intOp1 w d a popCount s

/-- `addi`. Adds the sign-extended immediate (R85). -/
def execAddi (w : BitVec 4) (d a : BitVec 5) (im : BitVec 12) (s : State) : Result := intOp1 w d a (· + im.signExtend 64) s

/-- `andi`. ANDs the zero-extended immediate (R85). -/
def execAndi (w : BitVec 4) (d a : BitVec 5) (im : BitVec 12) (s : State) : Result := intOp1 w d a (· &&& im.zeroExtend 64) s

/-- `ori`. ORs the zero-extended immediate (R85). -/
def execOri (w : BitVec 4) (d a : BitVec 5) (im : BitVec 12) (s : State) : Result := intOp1 w d a (· ||| im.zeroExtend 64) s

/-- `xori`. XORs the zero-extended immediate (R85). -/
def execXori (w : BitVec 4) (d a : BitVec 5) (im : BitVec 12) (s : State) : Result := intOp1 w d a (· ^^^ im.zeroExtend 64) s

/-- `slli`. Shift left by the immediate (R85). -/
def execSlli (w : BitVec 4) (d a : BitVec 5) (st : BitVec 6) (s : State) : Result := intOp1 w d a (· <<< st.toNat) s

/-- `srli`. Logical shift right by the immediate (R85). -/
def execSrli (w : BitVec 4) (d a : BitVec 5) (st : BitVec 6) (s : State) : Result := intOp1 w d a (· >>> st.toNat) s

/-- `srai`. Arithmetic shift right by the immediate (R85). -/
def execSrai (w : BitVec 4) (d a : BitVec 5) (st : BitVec 6) (s : State) : Result := intOp1 w d a (fun x => x.sshiftRight st.toNat) s

/-- `li`. The sign-extended 17-bit immediate (R85). -/
def execLi (w : BitVec 4) (d : BitVec 5) (im : BitVec 17) (s : State) : Result := constOp (ctl w) d (im.signExtend 64) s

/-- `lui`. The 17-bit immediate in bits [31:15] (R85). -/
def execLui (w : BitVec 4) (d : BitVec 5) (im : BitVec 17) (s : State) : Result := constOp (ctl w) d (im.zeroExtend 64 <<< 15) s

/-- The value of `li.lit`: one literal word sign-extended, or two, the low one first (R86). -/
def litValue (two : BitVec 1) (l0 l1 : W32) : W64 := if two = 0 then l0.signExtend 64 else l1 ++ l0

/-- `li.lit` (R86): its literal words are passed with it (R41). -/
def execLiLit (w : BitVec 4) (d : BitVec 5) (two : BitVec 1) (l0 l1 : W32) (s : State) : Result :=
  constOp { ctl w with words := 2 + two.toNat } d (litValue two l0 l1) s

end Sys2Proof.Machine
end

