-- ==== Sys2Proof/Machine/LoadStore.lean ====
section
/-! DEFINITION. Scalar loads and stores of the unit store (R87-R90). -/

namespace Sys2Proof.Machine

/-- The byte address of a load or store: base + sext(offset) × size, modulo 2^64 (R87). -/
def lsAddr (base : W64) (o : BitVec 9) (size : Nat) : W64 := base + o.signExtend 64 * BitVec.ofNat 64 size

/-- The address lies in the unit store and is aligned (R87). -/
def lsOk (addr : W64) (size : Nat) : Bool := decide (addr.toNat < Config.unitStoreBytes) && addr.toNat % size == 0

/-- A scalar load of `size` bytes (R87): a poisoned base reads nothing and lands a poisoned value. -/
def loadBody (d a : BitVec 5) (o : BitVec 9) (size : Nat) (signed : Bool) (s : State) (u k : Nat) : Act :=
  match s.unit? u with
  | none => .wait 3 none
  | some un =>
    let now := s.now un
    if ownPort k [d.toNat, a.toNat] then .fault .illegal 0
    else if un.full k then .miss 0x30
    else
      match fetch k un [a.toNat] with
      | .error q => .miss q
      | .ok (vs, un') =>
        let addr := lsAddr (arg vs 0).bits o size
        if !un'.room k d.toNat then .miss (outQueue k d.toNat)
        else if poisonOf vs then
          let (v, s') := s.fresh
          .go (s'.setUnit u (un'.landReg k d.toNat now 4 ⟨v, true⟩)) .seq
        else if !lsOk addr size then .fault .access 0
        else
          let use := (blocksOf addr.toNat size).map fun b => (now + 1, 0, b)
          if !un'.banksFree use then .wait 2 none
          else
            let un'' := un'.reserve use
            let q := if isPort d.toNat then some (outQueue k d.toNat) else none
            let un'' := match q with | some q => un''.qReserve q | none => un''
            .go (s.setUnit u (un''.enter k (now + 3) (.load k (physReg (un.wk k).wp d.toNat) q addr.toNat size signed now))) .seq

/-- A scalar store of `size` bytes (R87, R89): the base pops first, then the data; a poisoned base or datum writes nothing and raises PS
at the end of the next cycle (R126) (log 10, DEDUCED). -/
def storeBody (d a : BitVec 5) (o : BitVec 9) (size : Nat) (s : State) (u k : Nat) : Act :=
  match s.unit? u with
  | none => .wait 3 none
  | some un =>
    let now := s.now un
    if ownPort k [d.toNat, a.toNat] then .fault .illegal 0
    else
      match fetch k un [a.toNat, d.toNat] with
      | .error q => .miss q
      | .ok (vs, un') =>
        let addr := lsAddr (arg vs 0).bits o size
        if (arg vs 0).poison then .go (s.setUnit u (un'.raise k (now + 1) flagPS)) .seq
        else if !lsOk addr size then .fault .access 0
        else if (arg vs 1).poison then .go (s.setUnit u (un'.raise k (now + 1) flagPS)) .seq
        else
          let use := (blocksOf addr.toNat size).map fun b => (now + 1, 1, b)
          if !un'.banksFree use then .wait 2 none
          else
            let cells := cellsAt addr.toNat (leBytes size (arg vs 1).bits.toNat)
            .go (s.setUnit u ((un'.reserve use).later (now + 1) 0 (.store k un.seq cells))) .seq

/-- A load word. -/
def loadOp (w : BitVec 4) (d a : BitVec 5) (o : BitVec 9) (size : Nat) (signed : Bool) (s : State) : Result :=
  .next (runWord (ctl w) (loadBody d a o size signed) s)

/-- A store word. -/
def storeOp (w : BitVec 4) (d a : BitVec 5) (o : BitVec 9) (size : Nat) (s : State) : Result :=
  .next (runWord (ctl w) (storeBody d a o size) s)

/-- `ld.b`. Sign-extended byte. -/
def execLdB (w : BitVec 4) (d a : BitVec 5) (o : BitVec 9) (s : State) : Result := loadOp w d a o 1 true s
/-- `ld.bu`. Zero-extended byte. -/
def execLdBu (w : BitVec 4) (d a : BitVec 5) (o : BitVec 9) (s : State) : Result := loadOp w d a o 1 false s
/-- `ld.h`. Sign-extended half. -/
def execLdH (w : BitVec 4) (d a : BitVec 5) (o : BitVec 9) (s : State) : Result := loadOp w d a o 2 true s
/-- `ld.hu`. Zero-extended half. -/
def execLdHu (w : BitVec 4) (d a : BitVec 5) (o : BitVec 9) (s : State) : Result := loadOp w d a o 2 false s
/-- `ld.w`. Sign-extended word. -/
def execLdW (w : BitVec 4) (d a : BitVec 5) (o : BitVec 9) (s : State) : Result := loadOp w d a o 4 true s
/-- `ld.wu`. Zero-extended word. -/
def execLdWu (w : BitVec 4) (d a : BitVec 5) (o : BitVec 9) (s : State) : Result := loadOp w d a o 4 false s
/-- `ld.d`. Double. -/
def execLdD (w : BitVec 4) (d a : BitVec 5) (o : BitVec 9) (s : State) : Result := loadOp w d a o 8 false s
/-- `st.b`. Byte. -/
def execStB (w : BitVec 4) (d a : BitVec 5) (o : BitVec 9) (s : State) : Result := storeOp w d a o 1 s
/-- `st.h`. Half. -/
def execStH (w : BitVec 4) (d a : BitVec 5) (o : BitVec 9) (s : State) : Result := storeOp w d a o 2 s
/-- `st.w`. Word. -/
def execStW (w : BitVec 4) (d a : BitVec 5) (o : BitVec 9) (s : State) : Result := storeOp w d a o 4 s
/-- `st.d`. Double. -/
def execStD (w : BitVec 4) (d a : BitVec 5) (o : BitVec 9) (s : State) : Result := storeOp w d a o 8 s

end Sys2Proof.Machine
end

