-- ==== Sys2Proof/Machine/Functions.lean ====
section
/-! DEFINITION. Function-table version 1 (R79-R81). A function whose exact value is irrational is computed to about 150 bits with a
sticky bit below, which decides its single rounding (log 20, DEDUCED). -/

namespace Sys2Proof.Machine

/-- Integer square root by bits, from bit `n` down: the largest r with r² ≤ v among those below 2^(n+1). -/
def isqrtFrom (v : Nat) : Nat → Nat → Nat
  | 0, r => if (r + 1) * (r + 1) ≤ v then r + 1 else r
  | n + 1, r =>
    let r' := r + 2 ^ (n + 1)
    isqrtFrom v n (if r' * r' ≤ v then r' else r)

/-- Integer square root. -/
def isqrt (v : Nat) : Nat := isqrtFrom v (bitLen v / 2 + 1) 0

/-- A value m × 2^e with a discarded part as a sticky bit. -/
def sticky (neg : Bool) (m : Nat) (inexact : Bool) (e : Int) : Num := .fin neg (2 * m + (if inexact then 1 else 0)) (e - 1)

/-- Exact quotient of finite nonzero values, to 80 bits and sticky. -/
def quotient (neg : Bool) (m : Nat) (e : Int) (n : Nat) (k : Int) : Num :=
  let sh := 80 + bitLen n
  let v := m * 2 ^ sh
  sticky neg (v / n) (decide (v % n ≠ 0)) (e - k - sh)

/-- NaN with NV where it was signalling. -/
def nanResult (sg : Bool) : Num × Nat := (.nan false, if sg then flagNV else 0)

/-- a ÷ b (R79). -/
def divNum (a b : Num) : Num × Nat :=
  match a, b with
  | .nan x, _ => nanResult (x || b.isSnan)
  | _, .nan y => nanResult y
  | .inf x, .inf _ => (if x then .nan false else .nan false, flagNV)
  | .inf x, _ => (.inf (x != b.neg), 0)
  | _, .inf y => (.fin (a.neg != y) 0 0, 0)
  | .fin x m e, .fin y n k =>
    if n = 0 then (if m = 0 then (.nan false, flagNV) else (.inf (x != y), flagDZ))
    else if m = 0 then (.fin (x != y) 0 0, 0)
    else (quotient (x != y) m e n k, 0)

/-- 1 / x. -/
def rcpNum : Num → Num × Nat
  | .nan s => nanResult s
  | .inf n => (.fin n 0 0, 0)
  | .fin n m e => if m = 0 then (.inf n, flagDZ) else (quotient n 1 0 m e, 0)

/-- m × 2^e with an even exponent. -/
def evenExp (m : Nat) (e : Int) : Nat × Int := if e % 2 = 0 then (m, e) else (2 * m, e - 1)

/-- √x. -/
def sqrtNum : Num → Num × Nat
  | .nan s => nanResult s
  | .inf n => if n then (.nan false, flagNV) else (.inf false, 0)
  | .fin n m e =>
    if m = 0 then (.fin n 0 0, 0)
    else if n then (.nan false, flagNV)
    else
      let (m, e) := evenExp m e
      let v := m * 2 ^ 120
      let r := isqrt v
      (sticky false r (decide (r * r ≠ v)) (e / 2 - 60), 0)

/-- 1 / √x. -/
def rsqNum : Num → Num × Nat
  | .nan s => nanResult s
  | .inf n => if n then (.nan false, flagNV) else (.fin false 0 0, 0)
  | .fin n m e =>
    if m = 0 then (.inf n, flagDZ)
    else if n then (.nan false, flagNV)
    else
      let (m, e) := evenExp m e
      let top := 2 ^ 200
      let r := isqrt (top / m)
      (sticky false r (decide (r * r * m ≠ top)) (-(e / 2) - 100), 0)

/-- Bits of fixed-point precision below the point. -/
def fxBits : Nat := 192
/-- One, in fixed point. -/
def fxOne : Nat := 2 ^ fxBits

/-- 2^f for a fixed-point fraction f: the product of 2^(2^-i) over its one bits, the factors by repeated square roots. -/
def exp2Fx (f : Nat) : Nat → Nat → Nat → Nat
  | 0, _, acc => acc
  | n + 1, root, acc =>
    let root := isqrt (root * fxOne)
    exp2Fx f n root (if f.testBit n then acc * root / fxOne else acc)

/-- 2^(n + f). -/
def exp2Of (n : Int) (f : Nat) : Num :=
  if f = 0 then .fin false 1 n
  else sticky false (exp2Fx f fxBits (2 * fxOne) fxOne) true (n - fxBits)

/-- 2^x. Outside -160 to 160 the result overflows or rounds to zero; below 2^-40 in magnitude it lies next to 1. -/
def exp2Num : Num → Num × Nat
  | .nan s => nanResult s
  | .inf n => (if n then .fin false 0 0 else .inf false, 0)
  | .fin n m e =>
    if m = 0 then (.fin false 1 0, 0)
    else
      let top := e + bitLen m
      if top < -40 then (if n then .fin false (2 ^ 60 - 1) (-60) else .fin false (2 ^ 60 + 1) (-60), 0)
      else if 9 < top then (if n then .fin false 3 (-400) else .fin false 3 400, 0)
      else
        let x := atExp n m e (-fxBits)
        let x : Int := if e < -(fxBits : Int) then 0 else x
        (exp2Of (x / fxOne) (x % fxOne).toNat, 0)

/-- Binary digits of log2 of a fixed-point y in [1, 2): by repeated squaring. -/
def log2Fx : Nat → Nat → Nat → Nat
  | 0, _, acc => acc
  | n + 1, y, acc =>
    let y := y * y / fxOne
    if 2 * fxOne ≤ y then log2Fx n (y / 2) (2 * acc + 1) else log2Fx n y (2 * acc)

/-- log2 x. -/
def log2Num : Num → Num × Nat
  | .nan s => nanResult s
  | .inf n => if n then (.nan false, flagNV) else (.inf false, 0)
  | .fin n m e =>
    if m = 0 then (.inf true, flagDZ)
    else if n then (.nan false, flagNV)
    else
      let k := bitLen m - 1
      let ex : Int := e + k
      let y := m * 2 ^ (fxBits - k)
      if y = fxOne then (numOfInt ex, 0)
      else
        let v : Int := ex * 2 ^ 100 + log2Fx 100 y 0
        -- the exact value lies between v and v + 1 in units of 2^-100
        if 0 ≤ v then (sticky false v.toNat true (-100), 0) else (sticky true (-(v + 1)).toNat true (-100), 0)

/-- Machin's arctangent sum for 1 / k, in fixed point with `fxBits + 32` bits. -/
def atanInv (k : Nat) : Nat → Nat → Nat → Bool → Int → Int
  | 0, _, _, _, acc => acc
  | n + 1, t, j, neg, acc =>
    let term : Int := t / j
    atanInv k n (t / (k * k)) (j + 2) (!neg) (if neg then acc - term else acc + term)

/-- π in fixed point, with `fxBits` bits. -/
def piFx : Nat :=
  let one := 2 ^ (fxBits + 32)
  let a := atanInv 5 100 (one / 5) 1 false 0
  let b := atanInv 239 40 (one / 239) 1 false 0
  ((16 * a - 4 * b) / 2 ^ 32).toNat

/-- The sine series of a fixed-point angle. -/
def sinFx (y2 : Nat) : Nat → Nat → Nat → Bool → Int → Int
  | 0, _, _, _, acc => acc
  | n + 1, t, j, neg, acc =>
    sinFx y2 n (t * y2 / fxOne / ((j + 1) * (j + 2))) (j + 2) (!neg) (if neg then acc - (t : Int) else acc + t)

/-- sin(πx) (R79). The argument is reduced exactly modulo 2. -/
def sinpiNum : Num → Num × Nat
  | .nan s => nanResult s
  | .inf _ => (.nan false, flagNV)
  | .fin n m e =>
    if m = 0 then (.fin n 0 0, 0)
    else if 0 ≤ e then (.fin n 0 0, 0)
    else
      let d := pow2 (-e)
      let r := m % (2 * d)
      let flip := decide (d < r)
      let r := if flip then r - d else r
      let neg := n != flip
      if m % d = 0 then (.fin n 0 0, 0)
      else
        let r := if d < 2 * r then d - r else r
        if 2 * r = d then (.fin neg 1 0, 0)
        else if bitLen r + 40 < bitLen d then (sticky neg (r * piFx - 1) true (e - fxBits), 0)
        else
          let y := r * piFx / d
          (sticky neg (sinFx (y * y / fxOne) 40 y 1 false 0).toNat true (-fxBits), 0)

/-- ln 2 in fixed point: the sum of 1 / (k 2^k). -/
def ln2Fx : Nat → Nat → Nat → Nat
  | 0, _, acc => acc
  | n + 1, k, acc => ln2Fx n (k + 1) (acc + 2 ^ (fxBits + 64) / (k * 2 ^ k))

/-- log2 e with `fxBits` bits. -/
def log2eFx : Nat := 2 ^ (2 * fxBits + 64) / ln2Fx 256 1 0

/-- tanh x (R79). Below 2^-40 in magnitude it lies just inside x; from 16 up, just inside ±1. -/
def tanhNum : Num → Num × Nat
  | .nan s => nanResult s
  | .inf n => (.fin n 1 0, 0)
  | .fin n m e =>
    if m = 0 then (.fin n 0 0, 0)
    else
      let top := e + bitLen m
      if top < -40 then (.fin n (m * 2 ^ 80 - 1) (e - 80), 0)
      else if 4 < top then (.fin n (2 ^ 60 - 1) (-60), 0)
      else
        let x := (atExp false m (e + 1) (-fxBits)).toNat
        let y := x * log2eFx / fxOne
        let ex := exp2Fx (y % fxOne) fxBits (2 * fxOne) fxOne * 2 ^ (y / fxOne)
        let q := (ex - fxOne) * 2 ^ 160 / (ex + fxOne)
        (sticky n q true (-160), 0)

/-- A function of one FP32 lane, rounded once (R79). -/
def fn32 (f : Num → Num × Nat) (lane : W32) : W32 × Nat :=
  let (v, g) := f (decodeNum f32 lane.toNat)
  let (b, h) := rne32 v
  (BitVec.ofNat 32 b, orFlags g h)

/-- Nearest integer to a / b, ties up. -/
def roundDiv (a b : Nat) : Nat := (2 * a + b) / (2 * b)

/-- The `vrcpe` table: T[i] = round(65,536 / (129 + 2i)) - 256 (R80). -/
def rcpTable (i : Nat) : Nat := roundDiv 65536 (129 + 2 * i) - 256

/-- The nearest integer to √(n / d): the k with (2k - 1)² d ≤ 4 n < (2k + 1)² d. -/
def roundSqrt (n d : Nat) : Nat := (isqrt (4 * n / d) + 1) / 2

/-- The `vrsqe` table: T[i] = round(4,096 / √d) - 256, or round(2,048 √2 / √d) - 256 from i = 32 (R81). -/
def rsqTable (i : Nat) : Nat :=
  let d := 65 + 2 * (i % 32)
  roundSqrt (if i < 32 then 4096 * 4096 else 2 * 2048 * 2048) d - 256

/-- `vrcpe` (R80). -/
def rcpeLane (lane : W32) : W32 × Nat :=
  match decodeNum f32 lane.toNat with
  | .nan s => (BitVec.ofNat 32 (canonicalNan f32), if s then flagNV else 0)
  | .inf n => (BitVec.ofNat 32 (signBit f32 n), 0)
  | .fin n m e =>
    if m = 0 then (BitVec.ofNat 32 (infBits f32 n), flagDZ)
    else
      let k := bitLen m - 1
      let ex : Int := e + k
      let fr := m * 2 ^ (23 - k) % 2 ^ 23
      let out : Int := -ex - 1
      if 127 < out then (BitVec.ofNat 32 (infBits f32 n), flagOF)
      else (BitVec.ofNat 32 (roundFin f32 .rz false n (256 + rcpTable (fr / 2 ^ 17)) (out - 8)).1, 0)

/-- `vrsqe` (R81). -/
def rsqeLane (lane : W32) : W32 × Nat :=
  match decodeNum f32 lane.toNat with
  | .nan s => (BitVec.ofNat 32 (canonicalNan f32), if s then flagNV else 0)
  | .inf n => if n then (BitVec.ofNat 32 (canonicalNan f32), flagNV) else (0, 0)
  | .fin n m e =>
    if m = 0 then (BitVec.ofNat 32 (infBits f32 n), flagDZ)
    else if n then (BitVec.ofNat 32 (canonicalNan f32), flagNV)
    else
      let k := bitLen m - 1
      let ex : Int := e + k
      let fr := m * 2 ^ (23 - k) % 2 ^ 23
      let p := (ex % 2).toNat
      let i := 32 * p + fr / 2 ^ 18
      (BitVec.ofNat 32 (roundFin f32 .rz false false (256 + rsqTable i) (-((ex - p) / 2) - 1 - 8)).1, 0)

end Sys2Proof.Machine
end

