-- ==== Sys2Proof/Machine/Vector.lean ====
section
/-! DEFINITION. The vector engine's words (R127-R152). -/

namespace Sys2Proof.Machine

/-- The active mask: the top of the mask stack, all ones where it is empty (R18). -/
def Unit.topMask (un : Unit) : List Bool := un.masks.headD (List.replicate 256 true)

/-- The active lanes of a word, by its mask bit (R128). -/
def Unit.lanesOn (un : Unit) (m : BitVec 1) : List Bool := if m = 1 then un.topMask else List.replicate 256 true

/-- Vector register `r`. -/
def Unit.vec (un : Unit) (r : Nat) : VReg := un.v.getD r ⟨List.replicate 256 0, false⟩

/-- What a vector word makes at issue: the lanes that land, whether they are all of the register's, poison and flags (R128). -/
structure VOut where
  lanes  : List (Nat × W32)
  all    : Bool
  poison : Bool
  flags  : Nat

/-- The lanes of `vals` that are active, with the flags of those lanes. -/
def VOut.ofLanes (act : List Bool) (poison : Bool) (vals : List (W32 × Nat)) : VOut :=
  let on := (act.zip vals).zipIdx.filter fun e => e.1.1
  { lanes := on.map fun e => (e.2, e.1.2.1), all := act.all id, poison := poison && act.any id
    flags := on.foldl (fun f e => orFlags f e.1.2.2) 0 }

/-- A word of one vector operand. -/
def lanes1 (f : W32 → W32 × Nat) (a : Nat) (m : BitVec 1) (un : Unit) : VOut :=
  VOut.ofLanes (un.lanesOn m) (un.vec a).poison ((un.vec a).lanes.map f)

/-- A word of two vector operands. -/
def lanes2 (f : W32 → W32 → W32 × Nat) (a b : Nat) (m : BitVec 1) (un : Unit) : VOut :=
  VOut.ofLanes (un.lanesOn m) ((un.vec a).poison || (un.vec b).poison) (List.zipWith f (un.vec a).lanes (un.vec b).lanes)

/-- A word of three vector operands, the third its own destination. -/
def lanes3 (f : W32 → W32 → W32 → W32 × Nat) (a b d : Nat) (m : BitVec 1) (un : Unit) : VOut :=
  VOut.ofLanes (un.lanesOn m) ((un.vec a).poison || (un.vec b).poison || (un.vec d).poison)
    (List.zipWith (fun (p : W32 × W32) z => f p.1 p.2 z) ((un.vec a).lanes.zip (un.vec b).lanes) (un.vec d).lanes)

/-- Land a vector result in register `d` after `lat` engine cycles (R127). -/
def Unit.landVec (un : Unit) (d now lat : Nat) (o : VOut) : Unit :=
  un.enter 2 (now + lat * un.divisor 2 - 1) (.lanes d o.lanes o.poison o.all (flagBits o.flags) false)

/-- A vector word with a register result. -/
def vecBody (ok : Unit → Bool) (lat d : Nat) (f : Unit → VOut) (s : State) (u _k : Nat) : Act :=
  match s.unit? u with
  | none => .wait 3 none
  | some un =>
    if !ok un then .fault .illegal 0
    else if un.full 2 then .miss 0x30
    else .go (s.setUnit u (un.landVec d (s.now un) lat (f un))) .seq

/-- A vector word of latency `lat` and occupancy `o`. -/
def vecOp (ok : Bool) (lat o : Nat) (d : BitVec 6) (f : Unit → VOut) (s : State) : Result :=
  .next (runWord (vecWord o) (vecBody (fun _ => ok) lat d.toNat f) s)

/-- A word that checks `FTV` at issue (R143). -/
def fnOp (ok : Bool) (lat o : Nat) (d : BitVec 6) (f : Unit → VOut) (s : State) : Result :=
  .next (runWord (vecWord o) (vecBody (fun un => ok && un.ftv == 1) lat d.toNat f) s)

/-! ### Lane operations -/

/-- A word that raises no flag. -/
def quiet (x : W32) : W32 × Nat := (x, 0)
/-- A word of 32 bits from an FP32 result. -/
def fpOut (r : Nat × Nat) : W32 × Nat := (BitVec.ofNat 32 r.1, r.2)
/-- The FP32 value of a lane. -/
def fp (x : W32) : Num := decodeNum f32 x.toNat

/-- `.f32` or an integer form by the type selector (R129). -/
def byType {α : Type} (t : BitVec 3) (f s u : α) : α := if t = 0 then f else if t = 1 then s else u

/-- R130. -/
def laneAdd (t : BitVec 3) (a b : W32) : W32 × Nat := if t = 0 then fpOut (add32 (fp a) (fp b)) else quiet (a + b)
/-- R130. -/
def laneSub (t : BitVec 3) (a b : W32) : W32 × Nat := if t = 0 then fpOut (add32 (fp a) (negNum (fp b))) else quiet (a - b)
/-- R130. -/
def laneMul (t : BitVec 3) (a b : W32) : W32 × Nat := if t = 0 then fpOut (mul32 (fp a) (fp b)) else quiet (a * b)
/-- a × b + c in one rounding (R131). -/
def laneFma (t : BitVec 3) (a b c : W32) : W32 × Nat := if t = 0 then fpOut (fma32 (fp a) (fp b) (fp c)) else quiet (a * b + c)
/-- a × b - c in one rounding (R131). -/
def laneFms (t : BitVec 3) (a b c : W32) : W32 × Nat :=
  if t = 0 then fpOut (fma32 (fp a) (fp b) (negNum (fp c))) else quiet (a * b - c)
/-- -(a × b) + c in one rounding (R131). -/
def laneFnma (t : BitVec 3) (a b c : W32) : W32 × Nat :=
  if t = 0 then fpOut (fma32 (negNum (fp a)) (fp b) (fp c)) else quiet (c - a * b)
/-- R133. -/
def laneMin (t : BitVec 3) (a b : W32) : W32 × Nat :=
  if t = 0 then fpOut (minMax32 false a.toNat b.toNat)
  else quiet (byType t a (if b.slt a then b else a) (if b.ult a then b else a))
/-- R133. -/
def laneMax (t : BitVec 3) (a b : W32) : W32 × Nat :=
  if t = 0 then fpOut (minMax32 true a.toNat b.toNat)
  else quiet (byType t a (if a.slt b then b else a) (if a.ult b then b else a))
/-- R134. -/
def laneAbs (t : BitVec 3) (a : W32) : W32 × Nat :=
  quiet (if t = 0 then a &&& 0x7FFFFFFF else if a.getLsbD 31 then -a else a)
/-- R134. -/
def laneNeg (t : BitVec 3) (a : W32) : W32 × Nat := quiet (if t = 0 then a ^^^ 0x80000000 else -a)

/-- All ones or zero. -/
def truth (b : Bool) : W32 := if b then 0xFFFFFFFF else 0

/-- A compare (R135): `num` on FP32 numbers, the result beside a NaN, whether a quiet NaN raises NV, and the integer forms. -/
def laneCmp (t : BitVec 3) (num : Int → Bool) (nan loud : Bool) (sg us : W32 → W32 → Bool) (a b : W32) : W32 × Nat :=
  if t = 0 then
    if (fp a).isNan || (fp b).isNan then
      (truth nan, if loud || (fp a).isSnan || (fp b).isSnan then flagNV else 0)
    else quiet (truth (num (cmpNum (fp a) (fp b))))
  else quiet (truth (byType t false (sg a b) (us a b)))

/-- The reduction tree (R144): `n` stages, each combining lane l with lane l + h. -/
def reduce (op : W32 → W32 → W32 × Nat) : Nat → List W32 → Nat → List W32 × Nat
  | 0, t, f => (t, f)
  | n + 1, t, f =>
    let h := 2 ^ n
    let r := List.zipWith op (t.take h) (t.drop h)
    reduce op n (r.map (·.1)) (r.foldl (fun g e => orFlags g e.2) f)

/-- A reduction (R144): every lane receives the root, whatever the mask. -/
def redLanes (op : W32 → W32 → W32 × Nat) (ident : W32) (a : Nat) (m : BitVec 1) (un : Unit) : VOut :=
  let act := un.lanesOn m
  let t := List.zipWith (fun on x => if on then x else ident) act (un.vec a).lanes
  let (r, f) := reduce op 8 t 0
  { lanes := (List.range 256).map fun l => (l, r.headD 0), all := true, poison := act.any id && (un.vec a).poison, flags := f }

/-- The truncated immediate of a VF word (R47): FP32 bits [31:12]. -/
def vfImm (im : BitVec 20) : W32 := im ++ (0 : BitVec 12)

/-- A VF word (R149). -/
def immLanes (f : W32 → W32 → W32 × Nat) (reads : Bool) (d : Nat) (im : BitVec 20) (un : Unit) : VOut :=
  VOut.ofLanes un.topMask (reads && (un.vec d).poison) ((un.vec d).lanes.map fun x => f x (vfImm im))

/-- Eight lanes of a list from lane 8j. -/
def eight {α : Type} (l : List α) (j : Nat) : List α := (l.drop (8 * j)).take 8

/-- `vql8` (R150). The poison of both sources is consumed when any of the 256 lanes is active (log 110, DEDUCED). -/
def ql8Lanes (a b : Nat) (m : BitVec 1) (un : Unit) : VOut :=
  let act := un.lanesOn m
  let codes : List (Nat × Nat) := (List.range 32).map fun j =>
    let live := eight act j
    if live.any id then l8Quantise (eight (un.vec a).lanes j) live (((un.vec b).lanes.getD j 0).toNat % 65536) else (0, 0)
  { lanes := (List.range 256).map fun l => (l, BitVec.ofNat 32 (codes.getD l (0, 0)).1), all := true
    poison := act.any id && ((un.vec a).poison || (un.vec b).poison), flags := codes.foldl (fun f e => orFlags f e.2) 0 }

/-- `vdl8` (R151): s × x in FP32; a scale of zero, infinity or NaN multiplies as IEEE 754 has it (R66). The poison of both sources is consumed
when any of the 256 lanes is active (log 110, DEDUCED), and a coordinate 0 is taken as +0, so that a negative scale gives -0 (log 111,
DEDUCED). -/
def dl8Lanes (a b : Nat) (m : BitVec 1) (un : Unit) : VOut :=
  let act := un.lanesOn m
  let vals : List (W32 × Nat) := ((List.range 32).map fun j =>
    let (x, ok) := l8Decode (((un.vec a).lanes.getD j 0).toNat % 65536)
    let sc := decodeNum f16 (((un.vec b).lanes.getD j 0).toNat % 65536)
    x.map fun h =>
      let (bits, fl) := mul32 sc (ofInt h (-1) false)
      (BitVec.ofNat 32 bits, orFlags fl (if ok then 0 else flagL8INV))).flatten
  VOut.ofLanes act ((un.vec a).poison || (un.vec b).poison) vals

/-! ### Loads and stores (R145-R148) -/

/-- Bytes of one lane's access by kind; a nibble lies in one byte. -/
def laneBytes (kind : Nat) : Nat := if kind < 3 then 4 else if kind = 3 then 2 else 1

/-- The address of lane `l` (R145), modulo 2^64 for every kind (log 112, DEDUCED). -/
def laneAddr (kind : Nat) (base : W64) (stride : W64) (idx : List W32) (l : Nat) : W64 :=
  match kind with
  | 0 => base + BitVec.ofNat 64 (4 * l)
  | 1 => base + stride * BitVec.ofNat 64 l
  | 2 => base + (idx.getD l 0).zeroExtend 64
  | 3 => base + BitVec.ofNat 64 (2 * l)
  | 4 => base + BitVec.ofNat 64 l
  | _ => base + BitVec.ofNat 64 (l / 2)

/-- The active lanes with their addresses. -/
def laneAddrs (kind : Nat) (base stride : W64) (idx : List W32) (act : List Bool) : List (Nat × Nat) :=
  (act.zipIdx.filter (·.1)).map fun e => (e.2, (laneAddr kind base stride idx e.2).toNat)

/-- The lanes of beat `b`. -/
def ofBeat (b : Nat) (l : List (Nat × Nat)) : List (Nat × Nat) := l.filter fun e => e.1 / 128 == b

/-- The distinct blocks of a beat's lanes (R230). -/
def beatBlocks (kind : Nat) (l : List (Nat × Nat)) : List Nat := (l.flatMap fun e => blocksOf e.2 (laneBytes kind)).dedup

/-- The distinct blocks of a beat that fall in bank `k`. -/
def inBank (bs : List Nat) (k : Nat) : Nat := (bs.filter fun b => b % 32 == k).length

/-- Self-conflict of a beat (R232). -/
def selfConflict (bs : List Nat) : Nat := ((List.range 32).map fun k => inBank bs k - 1).foldl Nat.max 0

/-- Hold port `p` of the banks that a beat conflicts in, for the `n` cycles after `now` (R232). -/
def Unit.holdPorts (un : Unit) (p a n : Nat) (bs : List Nat) : Unit :=
  let ks := (List.range 32).filter fun k => decide (1 < inBank bs k)
  { un with banks := un.banks ++ (List.range n).flatMap fun c => ks.map fun k => ⟨a + c, p, k, none⟩ }

/-- The shared part of `vld` and `vst` (R145, R146, R230-R232): operands, address check, self-conflict and bank ports, then `g` with the
lanes' addresses; `g` is told of poison instead of addresses by `none`. While the engine is occupied the word waits, whatever else it lacks
(R127). A word with a bad address accesses no block, so no conflict holds its fault up (log 101, DEDUCED). A word with a poisoned
address operand reserves no port; a `vst` with poisoned data waits for its ports and reserves them as any other (log 10, DEDUCED). -/
def vmem (port : Nat) (ok : Bool) (a b kind : Nat) (m : BitVec 1) (enters : Bool)
    (g : State → Unit → Option (List (Nat × Nat)) → Act) (s : State) (u : Nat) : Act :=
  match s.unit? u with
  | none => .wait 3 none
  | some un =>
    let now := s.now un
    let d := un.divisor 2
    let srcs := if kind = 1 then [a, b] else [a]
    let busy : Bool := decide (now < un.vfree)
    if !ok || ownPort 2 srcs then (if busy then .wait 2 none else .fault .illegal 0)
    else if enters && un.full 2 && !busy then .miss 0x30
    else
      match fetch 2 un srcs with
      | .error q => if busy then .wait 2 none else .miss q
      | .ok (vs, un') =>
        let act := un.lanesOn m
        let poison := poisonOf vs || (kind == 2 && act.any id && (un.vec b).poison)
        if poison then (if busy then .wait 2 none else g s un' none)
        else
          let l := laneAddrs kind (arg vs 0).bits (arg vs 1).bits (un.vec b).lanes act
          let b0 := beatBlocks kind (ofBeat 0 l)
          let b1 := beatBlocks kind (ofBeat 1 l)
          let p := if kind = 1 ∨ kind = 2 then selfConflict b0 + selfConflict b1 else 0
          let t0 := ((un.wk 2).since).getD now
          if l.any fun e => decide (Config.unitStoreBytes ≤ e.2) || e.2 % laneBytes kind != 0 then
            if busy then .wait 2 none else .fault .access 0
          else if now < t0 + p then
            let held := un.banks.any fun x => x.cycle == now + 1 && x.port == port && x.block.isNone
            let n := t0 + p - now
            .stand (if held then s else s.setUnit u ((un.holdPorts port (now + 1) n b0).holdPorts port (now + 1) n b1)) 2 none
          else if busy then .wait 2 none
          else
            let use := (b0.map fun x => (now + 1, port, x)) ++ b1.map fun x => (now + d + 1, port, x)
            if !un'.banksFree use then .wait 2 none else g s (un'.reserve use) (some l)

/-- Width code of a lane's access: bytes, or 0 and 8 for the nibbles. -/
def laneWidth (kind l : Nat) : Nat := if kind < 5 then laneBytes kind else if l % 2 = 0 then 0 else 8

/-- The cells that a lane's store writes (R145, R146). -/
def laneCells (kind l a : Nat) (x : W32) : List WCell :=
  if kind < 5 then cellsAt a (leBytes (laneBytes kind) x.toNat)
  else if l % 2 = 0 then [⟨a, BitVec.ofNat 8 (x.toNat % 16), 0x0F⟩]
  else [⟨a, BitVec.ofNat 8 (x.toNat % 16 * 16), 0xF0⟩]

/-- `vld`. -/
def vldBody (ok : Bool) (d a b kind : Nat) (m : BitVec 1) (s : State) (u _k : Nat) : Act :=
  vmem 0 ok a b kind m true (fun s un l =>
    let now := s.now un
    let due := now + 8 * un.divisor 2 - 1
    let act := un.lanesOn m
    match l with
    | none =>
      let ls := (act.zipIdx.filter (·.1)).map fun e => (e.2, (Config.freeWord (s.free + e.2)).setWidth 32)
      .go ({ s with free := s.free + 256 }.setUnit u (un.enter 2 due (.lanes d ls true (act.all id) 0 false))) .seq
    | some l =>
      let ls := l.map fun e => (e.1, e.2, laneWidth kind e.1, now + e.1 / 128 * un.divisor 2)
      .go (s.setUnit u (un.enter 2 due (.vload d ls (act.all id)))) .seq) s u

/-- `vst`: a poisoned operand or datum writes nothing and raises PS at the end of t + 1 (R126, R146). -/
def vstBody (ok : Bool) (d a b kind : Nat) (m : BitVec 1) (s : State) (u _k : Nat) : Act :=
  vmem 1 ok a b kind m false (fun s un l =>
    let now := s.now un
    match l with
    | none => .go (s.setUnit u (un.raise 2 (now + 1) flagPS)) .seq
    | some l =>
      if (un.vec d).poison && !l.isEmpty then .go (s.setUnit u (un.raise 2 (now + 1) flagPS)) .seq
      else
        let key := un.seq
        let cells := fun b => (ofBeat b l).flatMap fun e => laneCells kind e.1 e.2 ((un.vec d).lanes.getD e.1 0)
        let un := un.later (now + 1) 0 (.store 2 key (cells 0))
        .go (s.setUnit u (un.later (now + un.divisor 2 + 1) 0 (.store 2 key (cells 1)))) .seq) s u

/-- `vldk` (R148). -/
def vldkBody (ok : Bool) (f a count : Nat) (s : State) (u _k : Nat) : Act :=
  match s.unit? u with
  | none => .wait 3 none
  | some un =>
    let now := s.now un
    let due := now + 8 * un.divisor 2 - 1
    if !ok || ownPort 2 [a] then .fault .illegal 0
    else if un.full 2 then .miss 0x30
    else
      match fetch 2 un [a] with
      | .error q => .miss q
      | .ok (vs, un') =>
        let base := (arg vs 0).bits.toNat
        if poisonOf vs then .go (s.setUnit u (un'.enter 2 due (.kset f count true))) .seq
        else if base % 4 ≠ 0 ∨ Config.unitStoreBytes < base + 4 * count then .fault .access 0
        else
          let use := (blocksOf base (4 * count)).map fun x => (now + 1, 0, x)
          if !un'.banksFree use then .wait 2 none
          else .go (s.setUnit u ((un'.reserve use).enter 2 due (.kload f count base now))) .seq

/-- A step of the mask stack (R136). -/
def maskOp (ok : Unit → Bool) (f : Unit → Nat → Unit) (s : State) : Result :=
  .next (runWord (vecWord 1) (fun s u _ =>
    match s.unit? u with
    | none => .wait 3 none
    | some un => if !ok un then .fault .illegal 0 else .go (s.setUnit u (f un (s.now un))) .seq) s)

/-! ### The words -/

/-- `vadd` (R130, R133). -/
def execVadd (d a b : BitVec 6) (m : BitVec 1) (t : BitVec 3) (s : State) : Result :=
  vecOp (wellFormed (.vadd d a b m t)) 4 2 d (lanes2 (laneAdd t) a.toNat b.toNat m) s
/-- `vsub` (R130, R133). -/
def execVsub (d a b : BitVec 6) (m : BitVec 1) (t : BitVec 3) (s : State) : Result :=
  vecOp (wellFormed (.vsub d a b m t)) 4 2 d (lanes2 (laneSub t) a.toNat b.toNat m) s
/-- `vmul` (R130, R133). -/
def execVmul (d a b : BitVec 6) (m : BitVec 1) (t : BitVec 3) (s : State) : Result :=
  vecOp (wellFormed (.vmul d a b m t)) 4 2 d (lanes2 (laneMul t) a.toNat b.toNat m) s
/-- `vmin` (R130, R133). -/
def execVmin (d a b : BitVec 6) (m : BitVec 1) (t : BitVec 3) (s : State) : Result :=
  vecOp (wellFormed (.vmin d a b m t)) 4 2 d (lanes2 (laneMin t) a.toNat b.toNat m) s
/-- `vmax` (R130, R133). -/
def execVmax (d a b : BitVec 6) (m : BitVec 1) (t : BitVec 3) (s : State) : Result :=
  vecOp (wellFormed (.vmax d a b m t)) 4 2 d (lanes2 (laneMax t) a.toNat b.toNat m) s
/-- `vfma` (R131). -/
def execVfma (d a b : BitVec 6) (m : BitVec 1) (t : BitVec 3) (s : State) : Result :=
  vecOp (wellFormed (.vfma d a b m t)) 6 2 d (lanes3 (laneFma t) a.toNat b.toNat d.toNat m) s
/-- `vfms` (R131). -/
def execVfms (d a b : BitVec 6) (m : BitVec 1) (t : BitVec 3) (s : State) : Result :=
  vecOp (wellFormed (.vfms d a b m t)) 6 2 d (lanes3 (laneFms t) a.toNat b.toNat d.toNat m) s
/-- `vfnma` (R131). -/
def execVfnma (d a b : BitVec 6) (m : BitVec 1) (t : BitVec 3) (s : State) : Result :=
  vecOp (wellFormed (.vfnma d a b m t)) 6 2 d (lanes3 (laneFnma t) a.toNat b.toNat d.toNat m) s
/-- `vabs` (R134). -/
def execVabs (d a : BitVec 6) (m : BitVec 1) (t : BitVec 3) (s : State) : Result :=
  vecOp (wellFormed (.vabs d a m t)) 2 2 d (lanes1 (laneAbs t) a.toNat m) s
/-- `vneg` (R134). -/
def execVneg (d a : BitVec 6) (m : BitVec 1) (t : BitVec 3) (s : State) : Result :=
  vecOp (wellFormed (.vneg d a m t)) 2 2 d (lanes1 (laneNeg t) a.toNat m) s
/-- `vcmp.eq` (R135). -/
def execVcmpEq (d a b : BitVec 6) (m : BitVec 1) (t : BitVec 3) (s : State) : Result :=
  vecOp (wellFormed (.vcmpEq d a b m t)) 2 2 d (lanes2 (laneCmp t (fun c => c == 0) false false (· == ·) (· == ·)) a.toNat b.toNat m) s
/-- `vcmp.ne` (R135). -/
def execVcmpNe (d a b : BitVec 6) (m : BitVec 1) (t : BitVec 3) (s : State) : Result :=
  vecOp (wellFormed (.vcmpNe d a b m t)) 2 2 d (lanes2 (laneCmp t (fun c => c != 0) true false (· != ·) (· != ·)) a.toNat b.toNat m) s
/-- `vcmp.lt` (R135). -/
def execVcmpLt (d a b : BitVec 6) (m : BitVec 1) (t : BitVec 3) (s : State) : Result :=
  vecOp (wellFormed (.vcmpLt d a b m t)) 2 2 d (lanes2 (laneCmp t (fun c => decide (c < 0)) false true BitVec.slt BitVec.ult) a.toNat b.toNat m) s
/-- `vcmp.le` (R135). -/
def execVcmpLe (d a b : BitVec 6) (m : BitVec 1) (t : BitVec 3) (s : State) : Result :=
  vecOp (wellFormed (.vcmpLe d a b m t)) 2 2 d (lanes2 (laneCmp t (fun c => decide (c ≤ 0)) false true BitVec.sle BitVec.ule) a.toNat b.toNat m) s
/-- `vand` (R138). -/
def execVand (d a b : BitVec 6) (m : BitVec 1) (s : State) : Result :=
  vecOp (wellFormed (.vand d a b m)) 2 2 d (lanes2 (fun x y => quiet (x &&& y)) a.toNat b.toNat m) s
/-- `vor` (R138). -/
def execVor (d a b : BitVec 6) (m : BitVec 1) (s : State) : Result :=
  vecOp (wellFormed (.vor d a b m)) 2 2 d (lanes2 (fun x y => quiet (x ||| y)) a.toNat b.toNat m) s
/-- `vxor` (R138). -/
def execVxor (d a b : BitVec 6) (m : BitVec 1) (s : State) : Result :=
  vecOp (wellFormed (.vxor d a b m)) 2 2 d (lanes2 (fun x y => quiet (x ^^^ y)) a.toNat b.toNat m) s
/-- `vshl` (R138). -/
def execVshl (d a b : BitVec 6) (m : BitVec 1) (s : State) : Result :=
  vecOp (wellFormed (.vshl d a b m)) 2 2 d (lanes2 (fun x y => quiet (x <<< (y.toNat % 32))) a.toNat b.toNat m) s
/-- `vshr` (R138). -/
def execVshr (d a b : BitVec 6) (m : BitVec 1) (s : State) : Result :=
  vecOp (wellFormed (.vshr d a b m)) 2 2 d (lanes2 (fun x y => quiet (x >>> (y.toNat % 32))) a.toNat b.toNat m) s
/-- `vsra` (R138). -/
def execVsra (d a b : BitVec 6) (m : BitVec 1) (s : State) : Result :=
  vecOp (wellFormed (.vsra d a b m)) 2 2 d (lanes2 (fun x y => quiet (x.sshiftRight (y.toNat % 32))) a.toNat b.toNat m) s
/-- `vnot` (R138). -/
def execVnot (d a : BitVec 6) (m : BitVec 1) (s : State) : Result :=
  vecOp (wellFormed (.vnot d a m)) 2 2 d (lanes1 (fun x => quiet (~~~x)) a.toNat m) s
/-- `vmov` (R139). -/
def execVmov (d a : BitVec 6) (m : BitVec 1) (s : State) : Result :=
  vecOp (wellFormed (.vmov d a m)) 2 2 d (lanes1 quiet a.toNat m) s
/-- `vcvt` (R141, R142). -/
def execVcvt (d a c : BitVec 6) (m x : BitVec 1) (r : BitVec 2) (s : State) : Result :=
  vecOp (wellFormed (.vcvt d a c m x r)) 5 2 d
    (lanes1 (cvtLane (c.toNat / 8) (c.toNat % 8) (Rnd.ofBits r) (x == 1)) a.toNat m) s
/-- `vsel` (R139): all 256 lanes, by the top mask entry. -/
def execVsel (d a b : BitVec 6) (s : State) : Result :=
  vecOp (wellFormed (.vsel d a b)) 2 2 d (fun un =>
    let top := un.topMask
    let p := (top.any id && (un.vec a.toNat).poison) || (!top.all id && (un.vec b.toNat).poison)
    let vals := List.zipWith (fun (p : W32 × W32) on => quiet (if on then p.1 else p.2)) ((un.vec a.toNat).lanes.zip (un.vec b.toNat).lanes) top
    VOut.ofLanes (List.replicate 256 true) p vals) s
/-- `vperm` (R139). -/
def execVperm (d a b : BitVec 6) (m : BitVec 1) (s : State) : Result :=
  vecOp (wellFormed (.vperm d a b m)) 6 4 d (fun un =>
    let src := (un.vec a.toNat).lanes
    lanes2 (fun _ y => quiet (src.getD (y.toNat % 256) 0)) a.toNat b.toNat m un) s
/-- `vrcpe` (R80, R81, R143). -/
def execVrcpe (d a : BitVec 6) (m : BitVec 1) (s : State) : Result :=
  fnOp (wellFormed (.vrcpe d a m)) 4 2 d (lanes1 rcpeLane a.toNat m) s
/-- `vrsqe` (R80, R81, R143). -/
def execVrsqe (d a : BitVec 6) (m : BitVec 1) (s : State) : Result :=
  fnOp (wellFormed (.vrsqe d a m)) 4 2 d (lanes1 rsqeLane a.toNat m) s
/-- `vrcp` (R79, R143). -/
def execVrcp (d a : BitVec 6) (m : BitVec 1) (s : State) : Result :=
  fnOp (wellFormed (.vrcp d a m)) 14 8 d (lanes1 (fn32 rcpNum) a.toNat m) s
/-- `vrsq` (R79, R143). -/
def execVrsq (d a : BitVec 6) (m : BitVec 1) (s : State) : Result :=
  fnOp (wellFormed (.vrsq d a m)) 14 8 d (lanes1 (fn32 rsqNum) a.toNat m) s
/-- `vsqrt` (R79, R143). -/
def execVsqrt (d a : BitVec 6) (m : BitVec 1) (s : State) : Result :=
  fnOp (wellFormed (.vsqrt d a m)) 14 8 d (lanes1 (fn32 sqrtNum) a.toNat m) s
/-- `vexp2` (R79, R143). -/
def execVexp2 (d a : BitVec 6) (m : BitVec 1) (s : State) : Result :=
  fnOp (wellFormed (.vexp2 d a m)) 14 8 d (lanes1 (fn32 exp2Num) a.toNat m) s
/-- `vlog2` (R79, R143). -/
def execVlog2 (d a : BitVec 6) (m : BitVec 1) (s : State) : Result :=
  fnOp (wellFormed (.vlog2 d a m)) 14 8 d (lanes1 (fn32 log2Num) a.toNat m) s
/-- `vsinpi` (R79, R143). -/
def execVsinpi (d a : BitVec 6) (m : BitVec 1) (s : State) : Result :=
  fnOp (wellFormed (.vsinpi d a m)) 14 8 d (lanes1 (fn32 sinpiNum) a.toNat m) s
/-- `vtanh` (R79, R143). -/
def execVtanh (d a : BitVec 6) (m : BitVec 1) (s : State) : Result :=
  fnOp (wellFormed (.vtanh d a m)) 14 8 d (lanes1 (fn32 tanhNum) a.toNat m) s
/-- `vdiv` (R79, R143). -/
def execVdiv (d a b : BitVec 6) (m : BitVec 1) (s : State) : Result :=
  fnOp (wellFormed (.vdiv d a b m)) 20 16 d (lanes2 (fun x y =>
    let (v, f) := divNum (fp x) (fp y)
    let (r, g) := rne32 v
    (BitVec.ofNat 32 r, orFlags f g)) a.toNat b.toNat m) s
/-- `vbcast` (R139). With no active lane a poisoned `xa` is not consumed and `vd` keeps its poison (log 110, DEDUCED). -/
def execVbcast (d : BitVec 6) (a : BitVec 5) (m : BitVec 1) (s : State) : Result :=
  .next (runWord (vecWord 2) (fun s u _ =>
    match s.unit? u with
    | none => .wait 3 none
    | some un =>
      if !wellFormed (.vbcast d a m) || ownPort 2 [a.toNat] then .fault .illegal 0
      else if un.full 2 then .miss 0x30
      else
        match fetch 2 un [a.toNat] with
        | .error q => .miss q
        | .ok (vs, un') =>
          let x := quiet ((arg vs 0).bits.setWidth 32)
          .go (s.setUnit u (un'.landVec d.toNat (s.now un) 2 (VOut.ofLanes (un.lanesOn m) (poisonOf vs) (List.replicate 256 x)))) .seq) s)
/-- `vred.add` (R144). -/
def execVredAdd (d a : BitVec 6) (m : BitVec 1) (t : BitVec 3) (s : State) : Result :=
  vecOp (wellFormed (.vredAdd d a m t)) 12 2 d (redLanes (laneAdd t) (if t = 0 then 0x80000000 else 0) a.toNat m) s
/-- `vred.max` (R144). -/
def execVredMax (d a : BitVec 6) (m : BitVec 1) (t : BitVec 3) (s : State) : Result :=
  vecOp (wellFormed (.vredMax d a m t)) 12 2 d
    (redLanes (laneMax t) (byType t 0xFF800000 0x80000000 0) a.toNat m) s
/-- `vmovx.in` (R140). -/
def execVmovxIn (d : BitVec 6) (m : BitVec 1) (s : State) : Result :=
  .next (runWord (vecWord 2) (fun s u _ =>
    match s.unit? u with
    | none => .wait 3 none
    | some un =>
      if un.full 2 then .miss 0x30
      else
        match fetch 2 un [12] with
        | .error q => .miss q
        | .ok (vs, un') =>
          let x := quiet ((arg vs 0).bits.setWidth 32)
          let act := un.lanesOn m
          let out : VOut := { VOut.ofLanes act false (List.replicate 256 x) with poison := poisonOf vs }
          .go (s.setUnit u (un'.landVec d.toNat (s.now un) 2 out)) .seq) s)
/-- `vmovx.out` (R140) (log 18, DEDUCED). -/
def execVmovxOut (a : BitVec 6) (m : BitVec 1) (s : State) : Result :=
  .next (runWord (vecWord 2) (fun s u _ =>
    match s.unit? u with
    | none => .wait 3 none
    | some un =>
      let q := outQueue 2 12
      if un.qFull q then .miss q
      else
        let v : Val :=
          match (un.lanesOn m).zipIdx.find? (·.1) with
          | some e => ⟨((un.vec a.toNat).lanes.getD e.2 0).zeroExtend 64, (un.vec a.toNat).poison⟩
          | none => Val.zero
        .go (s.setUnit u ((un.qReserve q).later (s.now un + 2 * un.divisor 2 - 1) 1 (.push q v false))) .seq) s)
/-- `vql8` (R150). -/
def execVql8 (d a b : BitVec 6) (m : BitVec 1) (s : State) : Result :=
  vecOp (wellFormed (.vql8 d a b m)) 10 4 d (ql8Lanes a.toNat b.toNat m) s
/-- `vdl8` (R151). -/
def execVdl8 (d a b : BitVec 6) (m : BitVec 1) (s : State) : Result :=
  vecOp (wellFormed (.vdl8 d a b m)) 6 2 d (dl8Lanes a.toNat b.toNat m) s
/-- `vld` (R145-R147). -/
def execVld (d : BitVec 6) (a : BitVec 5) (b : BitVec 6) (m : BitVec 1) (t : BitVec 3) (s : State) : Result :=
  .next (runWord { vecWord 2 with early := true } (vldBody (wellFormed (.vld d a b m t)) d.toNat a.toNat b.toNat t.toNat m) s)
/-- `vst` (R145-R147). -/
def execVst (d : BitVec 6) (a : BitVec 5) (b : BitVec 6) (m : BitVec 1) (t : BitVec 3) (s : State) : Result :=
  .next (runWord { vecWord 2 with early := true } (vstBody (wellFormed (.vst d a b m t)) d.toNat a.toNat b.toNat t.toNat m) s)
/-- `vldk` (R147, R148). -/
def execVldk (d : BitVec 6) (a : BitVec 5) (c : BitVec 6) (s : State) : Result :=
  .next (runWord (vecWord 2) (vldkBody (wellFormed (.vldk d a c)) d.toNat a.toNat (c.toNat + 1)) s)
/-- `vfmak` (R131, R132). -/
def execVfmak (d a n : BitVec 6) (m : BitVec 1) (s : State) : Result :=
  vecOp (wellFormed (.vfmak d a n m)) 6 2 d (fun un =>
    let e := un.k.getD n.toNat (0, false)
    let out := lanes2 (fun x y => laneFma 0 x y e.1) d.toNat a.toNat m un
    { out with poison := out.poison || (e.2 && (un.lanesOn m).any id) }) s
/-- `vfmal` (R132). -/
def execVfmal (d a : BitVec 6) (two m : BitVec 1) (l0 l1 : BitVec 32) (s : State) : Result :=
  if two = 0 then
    .next (runWord { vecWord 2 with words := 2 } (vecBody (fun _ => wellFormed (.vfmal d a two m l0 l1)) 6 d.toNat
      (lanes2 (fun x y => laneFma 0 x y l0) d.toNat a.toNat m)) s)
  else
    .next (runWord { vecWord 4 with words := 3 } (vecBody (fun _ => wellFormed (.vfmal d a two m l0 l1)) 12 d.toNat
      (lanes2 (fun x y =>
        let (z, f) := laneFma 0 x y l0
        let (r, g) := laneFma 0 z y l1
        (r, orFlags f g)) d.toNat a.toNat m)) s)
/-- `vpush` (R136). -/
def execVpush (a : BitVec 6) (s : State) : Result :=
  maskOp (fun un => decide (un.masks.length < 8)) (fun un now =>
    let v := un.vec a.toNat
    let new := if v.poison then List.replicate 256 false else List.zipWith (fun x (on : Bool) => x != 0 && on) v.lanes un.topMask
    (if v.poison then un.raise 2 now flagPS else un) |> fun un => { un with masks := new :: un.masks }) s
/-- `vinv` (R136). -/
def execVinv  (s : State) : Result :=
  maskOp (fun un => !un.masks.isEmpty) (fun un _ =>
    match un.masks with
    | top :: rest => { un with masks := List.zipWith (fun x p => !x && p) top (rest.headD (List.replicate 256 true)) :: rest }
    | [] => un) s
/-- `vpop` (R136). -/
def execVpop  (s : State) : Result :=
  maskOp (fun un => !un.masks.isEmpty) (fun un _ => { un with masks := un.masks.drop 1 }) s
/-- `vskip` (R137). -/
def execVskip (o : BitVec 18) (s : State) : Result :=
  .next (runWord (vecWord 1) (fun s u _ =>
    match s.unit? u with
    | none => .wait 3 none
    | some un =>
      let w := un.wk 2
      let t := w.idx + o.toNat
      if !wellFormed (.vskip o) then .fault .illegal 0
      else if un.topMask.any id then .go s .seq
      else if 65536 ≤ t ∨ w.inner.isSome then .fault .illegal 0
      else
        let past := (Walker.skipTo un.istore (s.now un) true t 65536 (w.idx + 1) w).count - w.count
        if un.slips 2 (past + 1) then .miss 0x2F
        else .go s (.skip t 3 true)) s)
/-- `vmovi` (R149). -/
def execVmovi (d : BitVec 6) (im : BitVec 20) (s : State) : Result :=
  vecOp (wellFormed (.vmovi d im)) 2 2 d (immLanes (fun _ y => quiet y) false d.toNat im) s
/-- `vaddi` (R149). -/
def execVaddi (d : BitVec 6) (im : BitVec 20) (s : State) : Result :=
  vecOp (wellFormed (.vaddi d im)) 4 2 d (immLanes (laneAdd 0) true d.toNat im) s
/-- `vmuli` (R149). -/
def execVmuli (d : BitVec 6) (im : BitVec 20) (s : State) : Result :=
  vecOp (wellFormed (.vmuli d im)) 4 2 d (immLanes (laneMul 0) true d.toNat im) s
/-- `vmaxi` (R149). -/
def execVmaxi (d : BitVec 6) (im : BitVec 20) (s : State) : Result :=
  vecOp (wellFormed (.vmaxi d im)) 4 2 d (immLanes (laneMax 0) true d.toNat im) s

end Sys2Proof.Machine
end

