-- ==== Sys2Proof/Machine/Dispatch.lean ====
section
/-! DEFINITION. One arm per row of the table, each a call of that row's meaning. -/

namespace Sys2Proof.Machine

/-- What each row of the opcode table does. -/
def exec (i : Instr) (s : State) : Host.Outcome State Fault Refusal :=
  match i with
  | .nop w => Sys2Proof.Machine.execNop w s
  | .add w d a b => Sys2Proof.Machine.execAdd w d a b s
  | .sub w d a b => Sys2Proof.Machine.execSub w d a b s
  | .and w d a b => Sys2Proof.Machine.execAnd w d a b s
  | .or w d a b => Sys2Proof.Machine.execOr w d a b s
  | .xor w d a b => Sys2Proof.Machine.execXor w d a b s
  | .andn w d a b => Sys2Proof.Machine.execAndn w d a b s
  | .orn w d a b => Sys2Proof.Machine.execOrn w d a b s
  | .sll w d a b => Sys2Proof.Machine.execSll w d a b s
  | .srl w d a b => Sys2Proof.Machine.execSrl w d a b s
  | .sra w d a b => Sys2Proof.Machine.execSra w d a b s
  | .rol w d a b => Sys2Proof.Machine.execRol w d a b s
  | .mul w d a b => Sys2Proof.Machine.execMul w d a b s
  | .mulh w d a b => Sys2Proof.Machine.execMulh w d a b s
  | .mulhu w d a b => Sys2Proof.Machine.execMulhu w d a b s
  | .divu w d a b => Sys2Proof.Machine.execDivu w d a b s
  | .remu w d a b => Sys2Proof.Machine.execRemu w d a b s
  | .min w d a b => Sys2Proof.Machine.execMin w d a b s
  | .max w d a b => Sys2Proof.Machine.execMax w d a b s
  | .minu w d a b => Sys2Proof.Machine.execMinu w d a b s
  | .maxu w d a b => Sys2Proof.Machine.execMaxu w d a b s
  | .clz w d a => Sys2Proof.Machine.execClz w d a s
  | .popc w d a => Sys2Proof.Machine.execPopc w d a s
  | .addi w d a im => Sys2Proof.Machine.execAddi w d a im s
  | .andi w d a im => Sys2Proof.Machine.execAndi w d a im s
  | .ori w d a im => Sys2Proof.Machine.execOri w d a im s
  | .xori w d a im => Sys2Proof.Machine.execXori w d a im s
  | .slli w d a st => Sys2Proof.Machine.execSlli w d a st s
  | .srli w d a st => Sys2Proof.Machine.execSrli w d a st s
  | .srai w d a st => Sys2Proof.Machine.execSrai w d a st s
  | .li w d im => Sys2Proof.Machine.execLi w d im s
  | .lui w d im => Sys2Proof.Machine.execLui w d im s
  | .liLit w d two l0 l1 => Sys2Proof.Machine.execLiLit w d two l0 l1 s
  | .ldB w d a o => Sys2Proof.Machine.execLdB w d a o s
  | .ldBu w d a o => Sys2Proof.Machine.execLdBu w d a o s
  | .ldH w d a o => Sys2Proof.Machine.execLdH w d a o s
  | .ldHu w d a o => Sys2Proof.Machine.execLdHu w d a o s
  | .ldW w d a o => Sys2Proof.Machine.execLdW w d a o s
  | .ldWu w d a o => Sys2Proof.Machine.execLdWu w d a o s
  | .ldD w d a o => Sys2Proof.Machine.execLdD w d a o s
  | .stB w d a o => Sys2Proof.Machine.execStB w d a o s
  | .stH w d a o => Sys2Proof.Machine.execStH w d a o s
  | .stW w d a o => Sys2Proof.Machine.execStW w d a o s
  | .stD w d a o => Sys2Proof.Machine.execStD w d a o s
  | .cmpEq w d a b => Sys2Proof.Machine.execCmpEq w d a b s
  | .cmpNe w d a b => Sys2Proof.Machine.execCmpNe w d a b s
  | .cmpLt w d a b => Sys2Proof.Machine.execCmpLt w d a b s
  | .cmpGe w d a b => Sys2Proof.Machine.execCmpGe w d a b s
  | .cmpLtu w d a b => Sys2Proof.Machine.execCmpLtu w d a b s
  | .cmpGeu w d a b => Sys2Proof.Machine.execCmpGeu w d a b s
  | .cmpiEq w d a im => Sys2Proof.Machine.execCmpiEq w d a im s
  | .cmpiNe w d a im => Sys2Proof.Machine.execCmpiNe w d a im s
  | .cmpiLt w d a im => Sys2Proof.Machine.execCmpiLt w d a im s
  | .cmpiGe w d a im => Sys2Proof.Machine.execCmpiGe w d a im s
  | .cmpiLtu w d a im => Sys2Proof.Machine.execCmpiLtu w d a im s
  | .cmpiGeu w d a im => Sys2Proof.Machine.execCmpiGeu w d a im s
  | .stAnd w d a b => Sys2Proof.Machine.execStAnd w d a b s
  | .stOr w d a b => Sys2Proof.Machine.execStOr w d a b s
  | .stNot w d a => Sys2Proof.Machine.execStNot w d a s
  | .mvst w d a => Sys2Proof.Machine.execMvst w d a s
  | .mvfst w d a => Sys2Proof.Machine.execMvfst w d a s
  | .sel w d a b st => Sys2Proof.Machine.execSel w d a b st s
  | .prep w st o => Sys2Proof.Machine.execPrep w st o s
  | .br w st o => Sys2Proof.Machine.execBr w st o s
  | .brT w st => Sys2Proof.Machine.execBrT w st s
  | .brn w st o => Sys2Proof.Machine.execBrn w st o s
  | .brnT w st => Sys2Proof.Machine.execBrnT w st s
  | .j w o => Sys2Proof.Machine.execJ w o s
  | .jT w st => Sys2Proof.Machine.execJT w st s
  | .call w o => Sys2Proof.Machine.execCall w o s
  | .callT w st => Sys2Proof.Machine.execCallT w st s
  | .jr w a => Sys2Proof.Machine.execJr w a s
  | .callr w a => Sys2Proof.Machine.execCallr w a s
  | .ret w => Sys2Proof.Machine.execRet w s
  | .pclr w => Sys2Proof.Machine.execPclr w s
  | .loop w st a im g => Sys2Proof.Machine.execLoop w st a im g s
  | .lbrk w st => Sys2Proof.Machine.execLbrk w st s
  | .waits w => Sys2Proof.Machine.execWaits w s
  | .waitc w a => Sys2Proof.Machine.execWaitc w a s
  | .waitx w c k => Sys2Proof.Machine.execWaitx w c k s
  | .wsync w st => Sys2Proof.Machine.execWsync w st s
  | .phase w st => Sys2Proof.Machine.execPhase w st s
  | .bar w st im => Sys2Proof.Machine.execBar w st im s
  | .sendc w u a => Sys2Proof.Machine.execSendc w u a s
  | .recvc w d u => Sys2Proof.Machine.execRecvc w d u s
  | .check w o => Sys2Proof.Machine.execCheck w o s
  | .vadd d a b k t => Sys2Proof.Machine.execVadd d a b k t s
  | .vsub d a b k t => Sys2Proof.Machine.execVsub d a b k t s
  | .vmul d a b k t => Sys2Proof.Machine.execVmul d a b k t s
  | .vfma d a b k t => Sys2Proof.Machine.execVfma d a b k t s
  | .vfms d a b k t => Sys2Proof.Machine.execVfms d a b k t s
  | .vfnma d a b k t => Sys2Proof.Machine.execVfnma d a b k t s
  | .vmin d a b k t => Sys2Proof.Machine.execVmin d a b k t s
  | .vmax d a b k t => Sys2Proof.Machine.execVmax d a b k t s
  | .vabs d a k t => Sys2Proof.Machine.execVabs d a k t s
  | .vneg d a k t => Sys2Proof.Machine.execVneg d a k t s
  | .vcmpEq d a b k t => Sys2Proof.Machine.execVcmpEq d a b k t s
  | .vcmpNe d a b k t => Sys2Proof.Machine.execVcmpNe d a b k t s
  | .vcmpLt d a b k t => Sys2Proof.Machine.execVcmpLt d a b k t s
  | .vcmpLe d a b k t => Sys2Proof.Machine.execVcmpLe d a b k t s
  | .vand d a b k => Sys2Proof.Machine.execVand d a b k s
  | .vor d a b k => Sys2Proof.Machine.execVor d a b k s
  | .vxor d a b k => Sys2Proof.Machine.execVxor d a b k s
  | .vnot d a k => Sys2Proof.Machine.execVnot d a k s
  | .vshl d a b k => Sys2Proof.Machine.execVshl d a b k s
  | .vshr d a b k => Sys2Proof.Machine.execVshr d a b k s
  | .vsra d a b k => Sys2Proof.Machine.execVsra d a b k s
  | .vcvt d a c k x r => Sys2Proof.Machine.execVcvt d a c k x r s
  | .vsel d a b => Sys2Proof.Machine.execVsel d a b s
  | .vperm d a b k => Sys2Proof.Machine.execVperm d a b k s
  | .vrcpe d a k => Sys2Proof.Machine.execVrcpe d a k s
  | .vrsqe d a k => Sys2Proof.Machine.execVrsqe d a k s
  | .vrcp d a k => Sys2Proof.Machine.execVrcp d a k s
  | .vrsq d a k => Sys2Proof.Machine.execVrsq d a k s
  | .vsqrt d a k => Sys2Proof.Machine.execVsqrt d a k s
  | .vdiv d a b k => Sys2Proof.Machine.execVdiv d a b k s
  | .vexp2 d a k => Sys2Proof.Machine.execVexp2 d a k s
  | .vlog2 d a k => Sys2Proof.Machine.execVlog2 d a k s
  | .vsinpi d a k => Sys2Proof.Machine.execVsinpi d a k s
  | .vtanh d a k => Sys2Proof.Machine.execVtanh d a k s
  | .vbcast d a k => Sys2Proof.Machine.execVbcast d a k s
  | .vredAdd d a k t => Sys2Proof.Machine.execVredAdd d a k t s
  | .vredMax d a k t => Sys2Proof.Machine.execVredMax d a k t s
  | .vmov d a k => Sys2Proof.Machine.execVmov d a k s
  | .vmovxIn d k => Sys2Proof.Machine.execVmovxIn d k s
  | .vmovxOut a k => Sys2Proof.Machine.execVmovxOut a k s
  | .vql8 d a b k => Sys2Proof.Machine.execVql8 d a b k s
  | .vdl8 d a b k => Sys2Proof.Machine.execVdl8 d a b k s
  | .vld d a b k t => Sys2Proof.Machine.execVld d a b k t s
  | .vst d a b k t => Sys2Proof.Machine.execVst d a b k t s
  | .vldk d a c => Sys2Proof.Machine.execVldk d a c s
  | .vfmak d a n k => Sys2Proof.Machine.execVfmak d a n k s
  | .vfmal d a two k l0 l1 => Sys2Proof.Machine.execVfmal d a two k l0 l1 s
  | .vpush a => Sys2Proof.Machine.execVpush a s
  | .vskip o => Sys2Proof.Machine.execVskip o s
  | .vmovi d im => Sys2Proof.Machine.execVmovi d im s
  | .vaddi d im => Sys2Proof.Machine.execVaddi d im s
  | .vmuli d im => Sys2Proof.Machine.execVmuli d im s
  | .vmaxi d im => Sys2Proof.Machine.execVmaxi d im s
  | .msetFmt g b a => Sys2Proof.Machine.execMsetFmt g b a s
  | .msetShape n m => Sys2Proof.Machine.execMsetShape n m s
  | .msetScale a => Sys2Proof.Machine.execMsetScale a s
  | .msetZp a => Sys2Proof.Machine.execMsetZp a s
  | .msetSparse st => Sys2Proof.Machine.execMsetSparse st s
  | .mma c n q l st => Sys2Proof.Machine.execMma c n q l st s
  | .mmaS c n q l st => Sys2Proof.Machine.execMmaS c n q l st s
  | .mmaQ c n q l st => Sys2Proof.Machine.execMmaQ c n q l st s
  | .mmaL8 c n q l st => Sys2Proof.Machine.execMmaL8 c n q l st s
  | .mmaPair c n q l st => Sys2Proof.Machine.execMmaPair c n q l st s
  | .mclr c => Sys2Proof.Machine.execMclr c s
  | .maccLd c a => Sys2Proof.Machine.execMaccLd c a s
  | .maccSt c a => Sys2Proof.Machine.execMaccSt c a s
  | .maccCvt c a v t st r => Sys2Proof.Machine.execMaccCvt c a v t st r s
  | .mprog d => Sys2Proof.Machine.execMprog d s
  | .cmov h d a b q l st => Sys2Proof.Machine.execCmov h d a b q l st s
  | .cfillA h f a b q l st => Sys2Proof.Machine.execCfillA h f a b q l st s
  | .cfillB h f a b q l st => Sys2Proof.Machine.execCfillB h f a b q l st s
  | .cbfx h a => Sys2Proof.Machine.execCbfx h a s
  | .cgat h d a b q l st => Sys2Proof.Machine.execCgat h d a b q l st s
  | .csct h d a b q l st => Sys2Proof.Machine.execCsct h d a b q l st s
  | .catomAdd h d a b q l st => Sys2Proof.Machine.execCatomAdd h d a b q l st s
  | .catomMin h d a b q l st => Sys2Proof.Machine.execCatomMin h d a b q l st s
  | .catomMax h d a b q l st => Sys2Proof.Machine.execCatomMax h d a b q l st s
  | .catomXchg h d a b q l st => Sys2Proof.Machine.execCatomXchg h d a b q l st s
  | .catomCas h d a b q l st => Sys2Proof.Machine.execCatomCas h d a b q l st s
  | .catomFadd h d a b q l st => Sys2Proof.Machine.execCatomFadd h d a b q l st s
  | .cinv a b => Sys2Proof.Machine.execCinv a b s
  | .cmark h a => Sys2Proof.Machine.execCmark h a s
  | .cxrd h d x => Sys2Proof.Machine.execCxrd h d x s
  | .cxwr h d x => Sys2Proof.Machine.execCxwr h d x s
  | .trap c => Sys2Proof.Machine.execTrap c s
  | .csrr d r => Sys2Proof.Machine.execCsrr d r s
  | .csrw a r => Sys2Proof.Machine.execCsrw a r s
  | .clkdiv e v => Sys2Proof.Machine.execClkdiv e v s
  | .hint k => Sys2Proof.Machine.execHint k s
  | .bkpt c => Sys2Proof.Machine.execBkpt c s
  | .trig a n => Sys2Proof.Machine.execTrig a n s
  | .ctxs a => Sys2Proof.Machine.execCtxs a s
  | .ctxl a => Sys2Proof.Machine.execCtxl a s
  | .resultLand u => Sys2Proof.Machine.execResultLand u s
  | .loopPassStart u wk => Sys2Proof.Machine.execLoopPassStart u wk s
  | .phaseComplete u wk => Sys2Proof.Machine.execPhaseComplete u wk s
  | .barrierComplete b => Sys2Proof.Machine.execBarrierComplete b s
  | .barrierRelease u => Sys2Proof.Machine.execBarrierRelease u s
  | .messageArrival u => Sys2Proof.Machine.execMessageArrival u s
  | .kStepStart u => Sys2Proof.Machine.execKStepStart u s
  | .kStepEnd u => Sys2Proof.Machine.execKStepEnd u s
  | .kStepLand u => Sys2Proof.Machine.execKStepLand u s
  | .translationStep u ch => Sys2Proof.Machine.execTranslationStep u ch s
  | .tableWalkComplete c => Sys2Proof.Machine.execTableWalkComplete c s
  | .copyBeatIssue u ch => Sys2Proof.Machine.execCopyBeatIssue u ch s
  | .copyReadDataReady u => Sys2Proof.Machine.execCopyReadDataReady u s
  | .copyWritePerform u => Sys2Proof.Machine.execCopyWritePerform u s
  | .offcoreWriteComplete u => Sys2Proof.Machine.execOffcoreWriteComplete u s
  | .atomicPerform u => Sys2Proof.Machine.execAtomicPerform u s
  | .atomicResultLand u => Sys2Proof.Machine.execAtomicResultLand u s
  | .copyCommandComplete u => Sys2Proof.Machine.execCopyCommandComplete u s
  | .crossingSampleEnter d x => Sys2Proof.Machine.execCrossingSampleEnter d x s
  | .lateDataPoison u => Sys2Proof.Machine.execLateDataPoison u s
  | .lateDataArrival u => Sys2Proof.Machine.execLateDataArrival u s
  | .residentRewalk u => Sys2Proof.Machine.execResidentRewalk u s
  | .ctxsComplete u => Sys2Proof.Machine.execCtxsComplete u s
  | .ctxlComplete u => Sys2Proof.Machine.execCtxlComplete u s
  | .bindOff u => Sys2Proof.Machine.execBindOff u s
  | .compositeRecordWrite u => Sys2Proof.Machine.execCompositeRecordWrite u s
  | .actionResume u => Sys2Proof.Machine.execActionResume u s
  | .actionAbort u => Sys2Proof.Machine.execActionAbort u s
  | .preemptionRequest k => Sys2Proof.Machine.execPreemptionRequest k s
  | .preemptionStop u => Sys2Proof.Machine.execPreemptionStop u s
  | .preemptionSave u => Sys2Proof.Machine.execPreemptionSave u s
  | .contextRestore k => Sys2Proof.Machine.execContextRestore k s
  | .haltWaveArrival r => Sys2Proof.Machine.execHaltWaveArrival r s
  | .resumeAtTr j => Sys2Proof.Machine.execResumeAtTr j s
  | .triggerWindowOpen u n => Sys2Proof.Machine.execTriggerWindowOpen u n s
  | .triggerWindowClose u n => Sys2Proof.Machine.execTriggerWindowClose u n s
  | .watchReport u n => Sys2Proof.Machine.execWatchReport u n s
  | .arm j => Sys2Proof.Machine.execArm j s
  | .jobRetire j => Sys2Proof.Machine.execJobRetire j s
  | .watchedWordWrite d a => Sys2Proof.Machine.execWatchedWordWrite d a s
  | .kernelCastOn k => Sys2Proof.Machine.execKernelCastOn k s
  | .kernelStart k => Sys2Proof.Machine.execKernelStart k s
  | .nodeRetire k => Sys2Proof.Machine.execNodeRetire k s
  | .cond n => Sys2Proof.Machine.execCond n s
  | .loopNode n => Sys2Proof.Machine.execLoopNode n s
  | .switch n => Sys2Proof.Machine.execSwitch n s
  | .join n => Sys2Proof.Machine.execJoin n s
  | .watchNode n => Sys2Proof.Machine.execWatchNode n s
  | .sourceSample k n => Sys2Proof.Machine.execSourceSample k n s
  | .sampleMissed r => Sys2Proof.Machine.execSampleMissed r s
  | .gaugeLock r => Sys2Proof.Machine.execGaugeLock r s
  | .gaugeClamp r => Sys2Proof.Machine.execGaugeClamp r s
  | .gaugeUnclamp r => Sys2Proof.Machine.execGaugeUnclamp r s
  | .holdoverEntry r => Sys2Proof.Machine.execHoldoverEntry r s
  | .holdoverRelock r => Sys2Proof.Machine.execHoldoverRelock r s
  | .sampleBoundary r => Sys2Proof.Machine.execSampleBoundary r s
  | .holdoverExpiry r => Sys2Proof.Machine.execHoldoverExpiry r s
  | .regionFreeze r => Sys2Proof.Machine.execRegionFreeze r s
  | .thaw r => Sys2Proof.Machine.execThaw r s
  | .watchdog u => Sys2Proof.Machine.execWatchdog u s
  | .shedSave r => Sys2Proof.Machine.execShedSave r s
  | .shedClear r => Sys2Proof.Machine.execShedClear r s
  | .regionReadmit r => Sys2Proof.Machine.execRegionReadmit r s
  | .regionCycle r => Sys2Proof.Machine.execRegionCycle r s
  | .compositeRecordComplete u => Sys2Proof.Machine.execCompositeRecordComplete u s
  | .vinv => Sys2Proof.Machine.execVinv s
  | .vpop => Sys2Proof.Machine.execVpop s
  | .mwait => Sys2Proof.Machine.execMwait s
  | .eret => Sys2Proof.Machine.execEret s
  | .yield => Sys2Proof.Machine.execYield s
  | .halt => Sys2Proof.Machine.execHalt s
  | .jobStep j => Sys2Proof.Machine.execJobStep j s
  | .jobResume j => Sys2Proof.Machine.execJobResume j s
  | .powerControlInterval ma mc mw => Sys2Proof.Machine.execPowerControlInterval ma mc mw s
  | .capLeaseExpiry => Sys2Proof.Machine.execCapLeaseExpiry s
  | .capmsg q p l => Sys2Proof.Machine.execCapmsg q p l s
  | .patrolScrubError d a => Sys2Proof.Machine.execPatrolScrubError d a s
  | .jregRegister f j v => Sys2Proof.Machine.execJregRegister f j v s
  | .jobRegistration f j => Sys2Proof.Machine.execJobRegistration f j s
  | .jregFree f j => Sys2Proof.Machine.execJregFree f j s
  | .ilen f v => Sys2Proof.Machine.execIlen f v s
  | .invalidationDone f => Sys2Proof.Machine.execInvalidationDone f s
  | .ptroot f v => Sys2Proof.Machine.execPtroot f v s
  | .checkpointSave => Sys2Proof.Machine.execCheckpointSave s
  | .checkpointRestore => Sys2Proof.Machine.execCheckpointRestore s
  | .checkpointDone => Sys2Proof.Machine.execCheckpointDone s
  | .registerWrite q o v => Sys2Proof.Machine.execRegisterWrite q o v s
  | .bar2Write q a bs => Sys2Proof.Machine.execBar2Write q a bs s
  | .bar2Read q a n => Sys2Proof.Machine.execBar2Read q a n s
  | .tdiExit f => Sys2Proof.Machine.execTdiExit f s
  | .samplesFrame p fr => Sys2Proof.Machine.execSamplesFrame p fr s
  | .keepAliveRx p fr => Sys2Proof.Machine.execKeepAliveRx p fr s
  | .creditRx p fr => Sys2Proof.Machine.execCreditRx p fr s
  | .endOfStreamRx p fr => Sys2Proof.Machine.execEndOfStreamRx p fr s
  | .keepAliveTx f k => Sys2Proof.Machine.execKeepAliveTx f k s
  | .creditTx f k => Sys2Proof.Machine.execCreditTx f k s
  | .linkTimeout f k => Sys2Proof.Machine.execLinkTimeout f k s
  | .transmit f k n => Sys2Proof.Machine.execTransmit f k n s
  | .ptpMessage g => Sys2Proof.Machine.execPtpMessage g s
  | .hostCadenceSample f k n => Sys2Proof.Machine.execHostCadenceSample f k n s
  | .linkTraining p n => Sys2Proof.Machine.execLinkTraining p n s
  | .readRequest p fl => Sys2Proof.Machine.execReadRequest p fl s
  | .write p fl => Sys2Proof.Machine.execWrite p fl s
  | .atomic p fl => Sys2Proof.Machine.execAtomic p fl s
  | .readResponse p fl => Sys2Proof.Machine.execReadResponse p fl s
  | .atomicResponse p fl => Sys2Proof.Machine.execAtomicResponse p fl s
  | .gauge p fl => Sys2Proof.Machine.execGauge p fl s
  | .haltWave p fl => Sys2Proof.Machine.execHaltWave p fl s
  | .resume p fl => Sys2Proof.Machine.execResume p fl s
  | .step p fl => Sys2Proof.Machine.execStep p fl s
  | .watchReportFlit p fl => Sys2Proof.Machine.execWatchReportFlit p fl s
  | .time p fl => Sys2Proof.Machine.execTime p fl s
  | .flitFailure p => Sys2Proof.Machine.execFlitFailure p s
  | .portDown p => Sys2Proof.Machine.execPortDown p s
  | .keyUpdate e => Sys2Proof.Machine.execKeyUpdate e s
  | .boot im => Sys2Proof.Machine.execBoot im s
  | .getVersion f => Sys2Proof.Machine.execGetVersion f s
  | .getCapabilities f => Sys2Proof.Machine.execGetCapabilities f s
  | .negotiateAlgorithms f al => Sys2Proof.Machine.execNegotiateAlgorithms f al s
  | .getDigests f => Sys2Proof.Machine.execGetDigests f s
  | .getCertificate f sl => Sys2Proof.Machine.execGetCertificate f sl s
  | .challenge f no => Sys2Proof.Machine.execChallenge f no s
  | .getMeasurements f ix => Sys2Proof.Machine.execGetMeasurements f ix s
  | .keyExchange f sid psk => Sys2Proof.Machine.execKeyExchange f sid psk s
  | .finish f sid => Sys2Proof.Machine.execFinish f sid s
  | .endSession f sid => Sys2Proof.Machine.execEndSession f sid s
  | .setKey f part key => Sys2Proof.Machine.execSetKey f part key s
  | .tdispMessage f rq => Sys2Proof.Machine.execTdispMessage f rq s

end Sys2Proof.Machine
end

