-- ==== Sys2Proof/Machine/Step.lean ====
section
/-! DEFINITION. One step of the machine (Cycle), and the placing of one instruction where the next step takes it. -/

namespace Sys2Proof.Machine

/-- One step. -/
def step (s : State) : Host.Outcome State Fault Refusal := stepWith exec s

/-- A locked, lenient region in whose cycle words are being issued. -/
def fetchRegion : Region :=
  { Region.zero with
    gauge := .locked, still := .no, p := 64, q := 1, src := 16, f0 := ⟨3, 2⟩, conv := ⟨3, 2⟩, period := ⟨2, 3⟩, srcPeriod := ⟨128, 3⟩, fresh := false, openCyc := true }

/-- The kernel of the placed instruction: one unit, no pattern node of its own. -/
def fetchKernel (region : Nat) : Kernel :=
  { node := 0, rcb := 0, region, job := 0, part := 0, die := 0, shape := 0, n := 1, state := .running, order := 0, next0 := 0, next1 := 0, textVa := 0
    textW := 1, spillb := 0, spill := 0, rangesVa := 0, units := [0], live := [0], resident := [], lockedP := [], startAt := some 0, startRsc := 0
    relAt := none, castOrder := 0, acq := Acq.zero, parked := [] }

/-- The state in which the very next step takes the word `w`, of `nbits` bits, and its literal words: a unit as a cast-on leaves it (R31), its
text being those words, in a region whose cycle has come to the issue of words, with the lowest walker that executes the word at it (log 1, DEDUCED). -/
def State.withFetchWord (s : State) (nbits w : Nat) : State :=
  let v := w % 2 ^ nbits
  let text := [BitVec.ofNat 32 (fld v 0 32), BitVec.ofNat 32 (fld v 32 32), BitVec.ofNat 32 (fld v 64 32)]
  let n := s.regions.length
  let k := ((List.range 4).find? fun k => executes (fld v 0 32) k).getD 0
  let s := { s with regions := s.regions ++ [fetchRegion], kernels := s.kernels ++ [fetchKernel n] }
  let un := s.freshUnit (s.kernels.length - 1) (fetchKernel n) 0 0 text
  let un : Unit := { un with
    run := .running, started := true, word0 := some 0, walkers := modify un.walkers k fun w => { w with slot := .walking 0, ic := 1 } }
  { s.setUnit 0 un with turn := n, stage := stageIssue, agenda := [(0, k)] }

end Sys2Proof.Machine
end

