-- ==== Sys2Proof/Safety.lean ====
section
/-! DEFINITION. What the claims are stated in: when a walker issues the word at which it stands (R9, R28, R33, R36, R56, R100, R127), what
becomes of it and of its unit then, and which states a step keeps. -/

namespace Sys2Proof.Machine

/-- Walker `k` of unit `u`, which the step takes, has come to a word `f` that names it and nothing outside the word keeps it there: it is still
walking in this cycle and has the slots for the word (R36), no stop, drain, phase, branch delay or `halt` holds it (R100, R118, R216,
R284), the word lies in the text and within the slip window (R9), names the walker (R33), and its engine is free (R127, R160). -/
structure Comes (f : WordInfo) (s : State) (u k : Nat) (un : Unit) : Prop where
  focus   : s.focus = (u, k)
  here    : s.unit? u = some un
  four    : un.walkers.length = 4
  walker  : k < 4
  walking : ∃ n, (un.wk k).slot = .walking n ∧ n + f.words ≤ 8
  going   : (un.wk k).stopped = false
  loose   : (un.wk k).held = false
  kept    : un.draining (s.now un) = false ∨ (un.wk k).inner.isSome
  time    : (un.wk k).ready ≤ (un.wk k).ic
  noHalt  : un.haltAt = none
  noQuiet : k = 0 ∨ un.quietWord = false
  inText  : (un.wk k).idx < 65536
  within  : (un.wk k).countsAt (un.wk k).idx = false ∨ un.slips k f.words = false
  named   : f.who k = true
  free    : un.busy (s.now un) f = false

/-- Walker `k` of unit `u` has come to a word `f` whose stage is live (R108): nothing but the word's own operands keeps it from issuing. -/
structure Stands (f : WordInfo) (s : State) (u k : Nat) (un : Unit) : Prop extends Comes f s u k un where
  live    : (un.wk k).liveAt (un.wk k).idx = true

/-- The unit as the word's body finds it: the walker is noted as standing at its word. -/
def Unit.standing (un : Unit) (k now : Nat) : Unit := un.setWk k fun w => { w with since := some (w.since.getD now) }

/-- Walker `k` of unit `u` issues its word `f` in this step unless the word's own operands keep it from that; `v` is the unit as the word's body
finds it, which is the unit of `s` with the walker noted as standing. -/
def Ready (f : WordInfo) (s : State) (u k : Nat) (v : Unit) : Prop := ∃ un, Stands f s u k un ∧ v = un.standing k (s.now un)

/-- The same for a word of a body whose stage is not live, which the walker squashes (R108). -/
def Dead (f : WordInfo) (s : State) (u k : Nat) (v : Unit) : Prop :=
  ∃ un, Comes f s u k un ∧ (un.wk k).liveAt (un.wk k).idx = false ∧ v = un.standing k (s.now un)

/-- Where the word that issues sends a walker that stands at `i`. -/
def Next.target (n : Next) (i words : Nat) : Nat :=
  match n with
  | .seq => i + words
  | .jump t _ | .skip t _ _ | .abandon t _ => t

/-- In which of the walker's issue cycles from this one on it may consider the word there (R100). -/
def Next.after (n : Next) : Nat :=
  match n with
  | .seq => 1
  | .jump _ a | .skip _ a _ | .abandon _ a => a

/-! ### What becomes of the counts (R9, R14, R111, R116) -/

/-- From `w` to `w'` the word `f` at `i` has been passed, issued or squashed: outside loop levels, and in the first pass of every level whose
body holds it, it counts with its literal words (R9, R111) and as one more write of its steer register (R14), of which a later pass gives
again the number that the first one gave; a copy command counts on its channel in every pass in which its stage is live (R116). -/
structure Counted (i : Nat) (f : WordInfo) (w w' : Walker) : Prop where
  levels : w'.levels = w.levels
  words  : w'.count = if ∀ l ∈ w.levels, l.holds i = true → l.pass = l.first then w.count + f.words else w.count
  steer  : ∀ r, r < w.steers.length → f.steer = some r → ∃ c, w'.steers[r]? = some c ∧ c.word = i ∧ c.any = true ∧ c.passes = w.passes i ∧
    c.n = if ∀ l ∈ w.levels, l.holds i = true → l.pass = l.first then ((w.steers.getD r ⟨0, 0, false, []⟩).n + 1) % 65536
      else (bodyNum w.bodyN r i).getD (w.steers.getD r ⟨0, 0, false, []⟩).n
  others : ∀ r, f.steer ≠ some r → w'.steers[r]? = w.steers[r]?
  number : ∀ r j, r < w.steers.length → bodyNum w'.bodyN r j =
    if f.steer = some r ∧ j = i ∧ w.passes i ≠ [] then (w'.steers[r]?).map (·.n) else bodyNum w.bodyN r j
  copies : ∀ c, w'.copies[c]? = (w.copies[c]?).map fun n => if f.chan = some c ∧ w.liveAt i = true then n + 1 else n

/-- A word of raw bits `raw` that a walker passes without executing it, or that a skip goes past (R33, R109). -/
def passedInfo (raw : Nat) (copies : Bool) : WordInfo :=
  { who := fun _ => false, words := 1 + literalCount raw, steer := steerWriteReg raw
    chan := if copies then copyCommandChannel raw else none, vocc := 0, mocc := 0, held := false, early := false, vheld := false, mult := none
    sync := fld raw 31 1 == 0 && fld raw 22 5 == 24 && fld raw 10 2 == 3 }

/-- The words from `i` up to `t` have counted as passed (R109, R137). -/
inductive Skipped (store : List W32) (copies : Bool) (t : Nat) : Nat → Walker → Walker → Prop where
  | arrived (i : Nat) (w : Walker) : t ≤ i → Skipped store copies t i w w
  | word (i : Nat) (w w1 w2 : Walker) : i < t → Counted i (passedInfo (store.getD i 0).toNat copies) w w1 →
      Skipped store copies t (i + 1 + literalCount (store.getD i 0).toNat) w1 w2 → Skipped store copies t i w w2

/-- From `w` to `w'` the counts have gone on past the word `f` at `i` and past those that its effect skips. -/
def CountsOn (store : List W32) (f : WordInfo) (n : Next) (i : Nat) (w w' : Walker) : Prop :=
  ∃ w1 w2, Counted i f w w1 ∧
    (match n with
      | .skip t _ copies => Skipped store copies t (i + f.words) w1 w2
      | _ => w2 = w1) ∧
    w'.count = w2.count ∧ w'.steers = w2.steers ∧ w'.copies = w2.copies

/-! ### What becomes of the loop levels (R107-R110, R114) -/

/-- A walker's place: word, the issue cycle from which it may consider the word there, and its loop levels. -/
structure Spot where
  idx   : Nat
  ready : Nat
  inner : Option Level
  outer : Option Level

/-- The place of a walker. -/
def Walker.spot (w : Walker) : Spot := ⟨w.idx, w.ready, w.inner, w.outer⟩

/-- The first issue cycle of the next pass, or of what follows the level (R110). -/
def Level.nextStart (l : Level) : Nat := max (l.began + l.ii) l.after

/-- `Settles p q b cs`: a walker that has come to `p` goes on at `q`. Within its inner level, or with none, it stays. Past the last word of
the pass the next pass begins at the first word of the body, not before II cycles after the pass before began, while the level runs another
(R107, R109, R110); after its last pass the level ends, the walker goes on behind the body, and the outer level is then the inner one
(R110). A drained level that has passes left keeps its walker at the `loop` word, to resume from pass F, and one with none left ends; either
stops the walker (R114), which `b` says. `cs` are the loop words of the levels that end, whose tags close (R111). -/
inductive Settles : Spot → Spot → Bool → List Nat → Prop where
  | free (p : Spot) : p.inner = none → Settles p p false []
  | inside (p : Spot) (l : Level) : p.inner = some l → (l.started = false ∨ p.idx ≤ l.last) → Settles p p false []
  | again (p : Spot) (l : Level) : p.inner = some l → l.started = true → l.last < p.idx → l.from_ < l.limit → l.pass + 3 ≤ l.limit + l.stages →
      Settles p ⟨l.word + 1, max p.ready l.nextStart, some { l with pass := l.pass + 1, started := false }, p.outer⟩ false []
  | ends (p q : Spot) (l : Level) (b : Bool) (cs : List Nat) : p.inner = some l → l.started = true → l.last < p.idx →
      (l.limit ≤ l.from_ ∨ l.limit + l.stages < l.pass + 3) → l.drain = none →
      Settles ⟨l.last + 1, max p.ready l.nextStart, p.outer.map fun o => { o with after := max o.after l.nextStart }, none⟩ q b cs →
      Settles p q b (l.word :: cs)
  | drained (p : Spot) (l : Level) (f : Nat) : p.inner = some l → l.started = true → l.last < p.idx →
      (l.limit ≤ l.from_ ∨ l.limit + l.stages < l.pass + 3) → l.drain = some f → f < l.trip →
      Settles p ⟨l.word, p.ready, some (l.drained f), p.outer⟩ true [l.word]
  | stops (p : Spot) (l : Level) (f : Nat) : p.inner = some l → l.started = true → l.last < p.idx →
      (l.limit ≤ l.from_ ∨ l.limit + l.stages < l.pass + 3) → l.drain = some f → l.trip ≤ f →
      Settles p ⟨l.last + 1, max p.ready l.nextStart, p.outer, none⟩ true [l.word]

/-- A level whose body holds the word that issues in issue cycle `c` notes when the word after it may issue (R110). -/
def Level.touched (l : Level) (i c : Nat) : Level := if l.holds i then { l with after := c + 1 } else l

/-- Where the word at which walker `w` stands sends it, its levels not yet considered; `check` abandons both (R125). -/
def Next.spot (n : Next) (f : WordInfo) (w : Walker) : Spot :=
  match n with
  | .abandon t a => ⟨t, w.ic + a, none, none⟩
  | _ => ⟨n.target w.idx f.words, w.ic + n.after, w.inner.map fun l => l.touched w.idx w.ic, w.outer.map fun l => l.touched w.idx w.ic⟩

/-- The loop words of the levels that the word abandons (R125). -/
def Next.left (n : Next) (w : Walker) : List Nat :=
  match n with
  | .abandon .. => w.levels.map fun l => l.word
  | _ => []

/-- Two walkers agree in everything but their place in the program: registers, windows, return stack, flags, results in flight. -/
structure Walker.Alike (v w : Walker) : Prop where
  x        : v.x = w.x
  wp       : v.wp = w.wp
  res      : v.res = w.res
  ras      : v.ras = w.ras
  spilln   : v.spilln = w.spilln
  spillb   : v.spillb = w.spillb
  spilll   : v.spilll = w.spilll
  flags    : v.flags = w.flags
  epc      : v.epc = w.epc
  inflight : v.inflight = w.inflight
  extLast  : v.extLast = w.extLast
  head     : v.head = w.head
  held     : v.held = w.held
  ic       : v.ic = w.ic
  beat     : v.beat = w.beat
  was      : v.was = w.was

/-- From unit `un`, the word's own effect included, to `un'`: walker `k` has gone on past its word `f`, and nothing else of the unit has
changed. Its counts go on past the word (R9, R14, R116), and its place is the word's own target with its loop levels considered there (R107-R110,
R114, R125). The only results that enter are the ends of loop levels (R111); the only other effects are those of the engine's occupancy (R127,
R171) and of the trigger conditions that name the word (R213, R214). -/
structure Passed (f : WordInfo) (n : Next) (now k : Nat) (un un' : Unit) : Prop where
  rest    : un' = { un with walkers := un'.walkers, pend := un'.pend, seq := un'.seq, trigs := un'.trigs, vfree := un'.vfree, mfree := un'.mfree }
  trigs   : un'.trigs = un.trigs.map fun g => g.note now 2 k (un.wk k).idx
  vfree   : un'.vfree = if f.vocc = 0 then un.vfree else now + f.vocc * un.divisor 2
  mfree   : un'.mfree = if f.mocc = 0 then un.mfree else now + f.mocc * un.divisor 1
  others  : ∀ j, j ≠ k → un'.wk j = un.wk j
  alike   : (un'.wk k).Alike (un.wk k)
  slot    : (un'.wk k).slot = .done 0 none
  since   : (un'.wk k).since = none
  matched : (un'.wk k).matched = false
  counts  : CountsOn un.istore f n (un.wk k).idx (un.wk k) (un'.wk k)
  place   : ∃ b cs ps, Settles (n.spot f (un.wk k)) (un'.wk k).spot b cs ∧ (un'.wk k).stopped = ((un.wk k).stopped || b) ∧
    un'.pend = un.pend ++ ps ∧ ps.map (fun p => (p.due, p.rank, p.eff)) = (n.left (un.wk k) ++ cs).map fun c => (now, 3, .close k c)
  seq     : un'.seq = un.seq + (un'.pend.length - un.pend.length)

/-- The step at `s` is that of instruction `i`: walker `k` of unit `u` issues it, `v1` is the unit with the word's own effect, and beyond the
unit the state is `s1`. -/
def IssuesIn (f : WordInfo) (n : Next) (i : Instr) (s s1 : State) (u k now : Nat) (v1 : Unit) : Prop :=
  ∃ un', exec i s = .next (s1.setUnit u un') ∧ Passed f n now k v1 un'

/-- The same where the word changes nothing beyond the unit. -/
def Issues (f : WordInfo) (n : Next) (i : Instr) (s : State) (u k : Nat) (v v1 : Unit) : Prop := IssuesIn f n i s s u k (s.now v) v1

/-- The step at `s` squashes the word `f` of instruction `i` at which walker `k` of unit `u` stands (R108): it goes on past the word and holds the
engine as if the word had issued, a multiply from its acquire to its release, and a steer-writing word gives the copy of R111, of which the lowest
walker that it names enters it. -/
def Squashes (f : WordInfo) (i : Instr) (s : State) (u k : Nat) (v : Unit) : Prop :=
  ∃ v0 v1, (f.mult = none → v0 = v) ∧ (∀ c, f.mult = some c → v0 = { v with mfree := c v (s.now v) }) ∧
    (f.steer = none → v1 = v0) ∧ (∀ j r, f.steer = some r → j < k → f.who j = true → v1 = v0) ∧
    (∀ r, f.steer = some r → (∀ j < k, f.who j = false) → ∃ e : SteerWrite, e.reg = r ∧ e.word = (v.wk k).idx ∧ e.wk = k ∧ e.squashed = true ∧
      v1 = v0.later (s.now v) 1 (.steer e)) ∧
    Issues f .seq i s u k v v1

/-- The step at `s` takes a precise fault of walker `k` of unit `u` at its word (R274, R275). -/
def Faults (i : Instr) (s : State) (u k : Nat) (v : Unit) (c : Cause) (info : Nat) : Prop :=
  exec i s = .next ((s.setUnit u v).takeFault u c .p k info Detail.walker)

/-- A phase of the unit that waits for walker `k` at word `i` (R118). -/
def PhaseState.waitsFor (p : PhaseState) (i k : Nat) : Bool := p.word == i && p.at_.isNone && p.need.contains k && !p.got.contains k

/-- The phase with walker `k` come to it in cycle `now`: it is held, and where it is the last of those needed the boundary is taken, which covers
the commands issued so far on every channel (R118). -/
def PhaseState.join (p : PhaseState) (v : Unit) (k now : Nat) : PhaseState :=
  if ∀ j ∈ p.need, j ∈ p.got ++ [k] then { p with got := p.got ++ [k], held := p.held ++ [k], at_ := some now, cover := v.coverNow now }
  else { p with got := p.got ++ [k], held := p.held ++ [k], at_ := none }

/-- The unit without the places of its snapshots in the order of boundaries between regions, which are drawn as boundaries complete (R247; log 103,
DEDUCED). -/
def Unit.unplaced (un : Unit) : Unit :=
  { un with
    snap := { un.snap with place := 0 }
    chans := un.chans.map fun ch => { ch with cmds := ch.cmds.map fun x => { x with snap := x.snap.map fun z => { z with place := 0 } } } }

/-- The units but those in `us` are as they were, up to such places. -/
def State.keepsUnits (s t : State) (us : List Nat) : Prop := ∀ v, v ∉ us → (t.unit? v).map Unit.unplaced = (s.unit? v).map Unit.unplaced

/-- No result of walker `w` that a freeze has kept is due before the walker's first word after it (R219, R279). -/
def Walker.settled (w : Walker) : Prop := ∀ p ∈ w.inflight, p.eff.isControl = true → p.due ≠ 0

/-- What a word's own bits say of who executes it and how many words it takes (R33, R40). -/
def rawInfo (raw : Nat) : WordInfo := ⟨executes raw, 1 + literalCount raw, none, none, 0, 0, false, false, false, false, none⟩

/-! ### Words that put a value in a scalar register (R83-R86) -/

/-- A word that reads the registers or ports `srcs`, in that order, and lands `f` of their values in register or port `d` after `lat` cycles. -/
structure RegWord where
  info : WordInfo
  d    : Nat
  srcs : List Nat
  lat  : Nat
  f    : List W64 → W64

/-- A word of two operands. -/
def RegWord.two (w : BitVec 4) (d a b : BitVec 5) (lat : Nat) (f : W64 → W64 → W64) : RegWord :=
  ⟨ctl w, d.toNat, [a.toNat, b.toNat], lat, fun v => f (v.getD 0 0) (v.getD 1 0)⟩

/-- A word of one operand, of latency 1. -/
def RegWord.one (w : BitVec 4) (d a : BitVec 5) (f : W64 → W64) : RegWord := ⟨ctl w, d.toNat, [a.toNat], 1, fun v => f (v.getD 0 0)⟩

/-- A word that loads a constant. -/
def RegWord.const (w : BitVec 4) (d : BitVec 5) (words : Nat) (c : W64) : RegWord := ⟨{ ctl w with words }, d.toNat, [], 1, fun _ => c⟩

/-- The integer words, their results as R83, R85 and R86 state them over whole numbers. -/
def integerWord : Instr → Option RegWord
  | .add w d a b => some (.two w d a b 1 fun x y => BitVec.ofNat 64 (x.toNat + y.toNat))
  | .sub w d a b => some (.two w d a b 1 fun x y => BitVec.ofInt 64 (x.toInt - y.toInt))
  | .and w d a b => some (.two w d a b 1 fun x y => x &&& y)
  | .or w d a b => some (.two w d a b 1 fun x y => x ||| y)
  | .xor w d a b => some (.two w d a b 1 fun x y => x ^^^ y)
  | .andn w d a b => some (.two w d a b 1 fun x y => x &&& ~~~y)
  | .orn w d a b => some (.two w d a b 1 fun x y => x ||| ~~~y)
  | .sll w d a b => some (.two w d a b 1 fun x y => BitVec.ofNat 64 (x.toNat * 2 ^ (y.toNat % 64)))
  | .srl w d a b => some (.two w d a b 1 fun x y => BitVec.ofNat 64 (x.toNat / 2 ^ (y.toNat % 64)))
  | .sra w d a b => some (.two w d a b 1 fun x y => BitVec.ofInt 64 (x.toInt / 2 ^ (y.toNat % 64)))
  | .rol w d a b => some (.two w d a b 1 fun x y => BitVec.ofNat 64 (x.toNat * 2 ^ (y.toNat % 64) + x.toNat / 2 ^ (64 - y.toNat % 64)))
  | .mul w d a b => some (.two w d a b 3 fun x y => BitVec.ofNat 64 (x.toNat * y.toNat))
  | .mulh w d a b => some (.two w d a b 4 fun x y => BitVec.ofInt 64 (x.toInt * y.toInt / 2 ^ 64))
  | .mulhu w d a b => some (.two w d a b 4 fun x y => BitVec.ofNat 64 (x.toNat * y.toNat / 2 ^ 64))
  | .divu w d a b => some (.two w d a b 20 fun x y => if y = 0 then BitVec.ofNat 64 (2 ^ 64 - 1) else BitVec.ofNat 64 (x.toNat / y.toNat))
  | .remu w d a b => some (.two w d a b 20 fun x y => if y = 0 then x else BitVec.ofNat 64 (x.toNat % y.toNat))
  | .min w d a b => some (.two w d a b 1 fun x y => if x.toInt ≤ y.toInt then x else y)
  | .max w d a b => some (.two w d a b 1 fun x y => if x.toInt ≤ y.toInt then y else x)
  | .minu w d a b => some (.two w d a b 1 fun x y => if x.toNat ≤ y.toNat then x else y)
  | .maxu w d a b => some (.two w d a b 1 fun x y => if x.toNat ≤ y.toNat then y else x)
  | .clz w d a => some (.one w d a fun x => BitVec.ofNat 64 (if x = 0 then 64 else 63 - Nat.log2 x.toNat))
  | .popc w d a => some (.one w d a fun x => BitVec.ofNat 64 ((List.range 64).countP fun i => x.toNat.testBit i))
  | .addi w d a im => some (.one w d a fun x => BitVec.ofInt 64 (x.toInt + im.toInt))
  | .andi w d a im => some (.one w d a fun x => x &&& BitVec.ofNat 64 im.toNat)
  | .ori w d a im => some (.one w d a fun x => x ||| BitVec.ofNat 64 im.toNat)
  | .xori w d a im => some (.one w d a fun x => x ^^^ BitVec.ofNat 64 im.toNat)
  | .slli w d a st => some (.one w d a fun x => BitVec.ofNat 64 (x.toNat * 2 ^ st.toNat))
  | .srli w d a st => some (.one w d a fun x => BitVec.ofNat 64 (x.toNat / 2 ^ st.toNat))
  | .srai w d a st => some (.one w d a fun x => BitVec.ofInt 64 (x.toInt / 2 ^ st.toNat))
  | .li w d im => some (.const w d 1 (BitVec.ofInt 64 im.toInt))
  | .lui w d im => some (.const w d 1 (BitVec.ofNat 64 (im.toNat * 2 ^ 15)))
  | .liLit w d two l0 l1 =>
    some (.const w d (2 + two.toNat) (if two = 0 then BitVec.ofInt 64 l0.toInt else BitVec.ofNat 64 (l1.toNat * 2 ^ 32 + l0.toNat)))
  | _ => none

/-! ### Loads and stores (R87-R90) -/

/-- A scalar load or store: walker mask, register field, base field, offset, size in bytes, and whether a load extends the sign. -/
structure MemWord where
  w      : BitVec 4
  d      : BitVec 5
  a      : BitVec 5
  o      : BitVec 9
  size   : Nat
  signed : Bool

/-- The loads (R87). -/
def loadWord : Instr → Option MemWord
  | .ldB w d a o => some ⟨w, d, a, o, 1, true⟩
  | .ldBu w d a o => some ⟨w, d, a, o, 1, false⟩
  | .ldH w d a o => some ⟨w, d, a, o, 2, true⟩
  | .ldHu w d a o => some ⟨w, d, a, o, 2, false⟩
  | .ldW w d a o => some ⟨w, d, a, o, 4, true⟩
  | .ldWu w d a o => some ⟨w, d, a, o, 4, false⟩
  | .ldD w d a o => some ⟨w, d, a, o, 8, false⟩
  | _ => none

/-- The stores (R87). -/
def storeWord : Instr → Option MemWord
  | .stB w d a o => some ⟨w, d, a, o, 1, false⟩
  | .stH w d a o => some ⟨w, d, a, o, 2, false⟩
  | .stW w d a o => some ⟨w, d, a, o, 4, false⟩
  | .stD w d a o => some ⟨w, d, a, o, 8, false⟩
  | _ => none

/-- The byte address: base plus the sign-extended offset times the size, modulo 2^64 (R87). -/
def MemWord.addr (m : MemWord) (base : W64) : Nat := (((base.toNat : Int) + m.o.toInt * m.size) % 2 ^ 64).toNat

/-- The bank cycles of an access in cycle `t`: port 0 to read, 1 to write (R229, R230). -/
def bankUse (port t addr n : Nat) : List (Nat × Nat × Nat) := (blocksOf addr n).map fun b => (t + 1, port, b)

/-! ### Steer words (R91-R96) -/

/-- A word that writes a steer entry from registers: `c` and `t` are the values it gives, none for a half that is copied at landing. -/
structure SteerWord where
  w    : BitVec 4
  d    : BitVec 5
  srcs : List Nat
  c    : List W64 → Option Bool
  t    : List W64 → Option Nat

/-- A compare of two registers. -/
def SteerWord.cmp (w : BitVec 4) (d a b : BitVec 5) (f : W64 → W64 → Bool) : SteerWord :=
  ⟨w, d, [a.toNat, b.toNat], fun v => some (f (v.getD 0 0) (v.getD 1 0)), fun _ => none⟩

/-- A compare of a register with a sign-extended immediate. -/
def SteerWord.cmpi (w : BitVec 4) (d a : BitVec 5) (im : BitVec 9) (f : W64 → W64 → Bool) : SteerWord :=
  ⟨w, d, [a.toNat], fun v => some (f (v.getD 0 0) (BitVec.ofInt 64 im.toInt)), fun _ => none⟩

/-- The compares and `mvst` (R92, R94), over whole numbers. -/
def steerWord : Instr → Option SteerWord
  | .cmpEq w d a b => some (.cmp w d a b fun x y => decide (x = y))
  | .cmpNe w d a b => some (.cmp w d a b fun x y => decide (x ≠ y))
  | .cmpLt w d a b => some (.cmp w d a b fun x y => decide (x.toInt < y.toInt))
  | .cmpGe w d a b => some (.cmp w d a b fun x y => decide (y.toInt ≤ x.toInt))
  | .cmpLtu w d a b => some (.cmp w d a b fun x y => decide (x.toNat < y.toNat))
  | .cmpGeu w d a b => some (.cmp w d a b fun x y => decide (y.toNat ≤ x.toNat))
  | .cmpiEq w d a im => some (.cmpi w d a im fun x y => decide (x = y))
  | .cmpiNe w d a im => some (.cmpi w d a im fun x y => decide (x ≠ y))
  | .cmpiLt w d a im => some (.cmpi w d a im fun x y => decide (x.toInt < y.toInt))
  | .cmpiGe w d a im => some (.cmpi w d a im fun x y => decide (y.toInt ≤ x.toInt))
  | .cmpiLtu w d a im => some (.cmpi w d a im fun x y => decide (x.toNat < y.toNat))
  | .cmpiGeu w d a im => some (.cmpi w d a im fun x y => decide (y.toNat ≤ x.toNat))
  | .mvst w d a => some ⟨w, d, [a.toNat], fun v => some ((v.getD 0 0).toNat.testBit 16), fun v => some ((v.getD 0 0).toNat % 65536)⟩
  | _ => none

/-- A walker's write of a steer entry: only the lowest-numbered walker that the word names writes it (R14). -/
def Unit.steerFrom (v : Unit) (who : Nat → Bool) (k now d : Nat) (c : Option (Bool × Bool)) (t : Option (Nat × Bool)) : Unit :=
  if ∀ j < k, who j = false then v.writeSteer k (v.wk k).idx now d c t else v

/-- The logic of steer entries (R93): walker mask, destination, sources and the result. -/
def steerLogic : Instr → Option (BitVec 4 × BitVec 5 × List (BitVec 5) × (List Bool → Bool))
  | .stAnd w d a b => some (w, d, [a, b], fun l => l.getD 0 false && l.getD 1 false)
  | .stOr w d a b => some (w, d, [a, b], fun l => l.getD 0 false || l.getD 1 false)
  | .stNot w d a => some (w, d, [a], fun l => !l.getD 0 false)
  | _ => none

/-! ### Transfers (R97-R104) -/

/-- The conditional branches: walker mask, steer register, the C on which they are taken, and the offset, none for the T half (R97). -/
def branchWord : Instr → Option (BitVec 4 × BitVec 4 × Bool × Option (BitVec 18))
  | .br w st o => some (w, st, true, some o)
  | .brT w st => some (w, st, true, none)
  | .brn w st o => some (w, st, false, some o)
  | .brnT w st => some (w, st, false, none)
  | _ => none

/-- The frame of a call is entered (R102): the window, the return index, and one more resident frame. -/
def Unit.pushFrame (v : Unit) (k : Nat) : Unit :=
  v.setWk k fun w => { w with wp := (w.wp + 1) % 8, ras := w.ras.set ((w.wp + 1) % 8) (w.idx + 1), res := w.res + 1 }

/-- A call from walker `k` to `t` (R102, R104): with 8 frames resident the oldest is spilled first, by stores issued in this cycle. -/
def CallsTo (i : Instr) (f : WordInfo) (s : State) (u k : Nat) (v v1 : Unit) (t after : Nat) : Prop :=
  let w := v1.wk k
  let now := s.now v
  let sa := w.spillb + 256 * w.spilln
  (w.res < 8 → Issues f (.jump t after) i s u k v (v1.pushFrame k)) ∧
  (w.res = 8 → sa.toNat + 256 ≤ w.spilll.toNat → sa.toNat + 256 ≤ Config.unitStoreBytes → v1.banksFree (bankUse 1 now sa.toNat 256) →
    Issues f (.jump t (after + 24)) i s u k v
      ((((v1.reserve (bankUse 1 now sa.toNat 256)).later (now + 1) 0
        (.store k v1.seq (cellsAt sa.toNat (w.frame ((w.wp + 1) % 8))))).setWk k fun w => { w with spilln := w.spilln + 1, res := 7 }).pushFrame k)) ∧
  (w.res = 8 → w.spilll.toNat < sa.toNat + 256 ∨ Config.unitStoreBytes < sa.toNat + 256 → Faults i s u k v .access 0)

/-! ### Vector words (R127-R151) -/

/-- A vector word with a register result: its occupancy and words, its latency in engine cycles, its destination, whether it needs `FTV` 1
(R143), and the lanes that it makes. -/
structure VecWord where
  occ   : Nat
  words : Nat
  lat   : Nat
  d     : Nat
  fn    : Bool
  out   : Unit → VOut

/-- A lane-wise word of two operands, of occupancy 2. -/
def VecWord.two (lat : Nat) (d a b : BitVec 6) (m : BitVec 1) (f : W32 → W32 → W32 × Nat) : VecWord :=
  ⟨2, 1, lat, d.toNat, false, lanes2 f a.toNat b.toNat m⟩

/-- A lane-wise word of one operand, of occupancy 2. -/
def VecWord.one (lat : Nat) (d a : BitVec 6) (m : BitVec 1) (f : W32 → W32 × Nat) : VecWord := ⟨2, 1, lat, d.toNat, false, lanes1 f a.toNat m⟩

/-- A function of one operand that needs `FTV` 1 (R143). -/
def VecWord.fn1 (lat occ : Nat) (d a : BitVec 6) (m : BitVec 1) (f : W32 → W32 × Nat) : VecWord :=
  ⟨occ, 1, lat, d.toNat, true, lanes1 f a.toNat m⟩

/-- A word with an immediate, under the top mask (R149). -/
def VecWord.imm (lat : Nat) (d : BitVec 6) (im : BitVec 20) (reads : Bool) (f : W32 → W32 → W32 × Nat) : VecWord :=
  ⟨2, 1, lat, d.toNat, false, immLanes f reads d.toNat im⟩

/-- An integer result raises no flag; the floating-point results and flags are those of the named operations. -/
def intLane (x : W32) : W32 × Nat := (x, 0)

/-- A lane-wise sum, difference or product (R130): modulo 2^32 in the integer forms. -/
def arith (t : BitVec 3) (f : W32 → W32 → W32 × Nat) (g : Int → Int → Int) (x y : W32) : W32 × Nat :=
  if t = 0 then f x y else intLane (BitVec.ofInt 32 (g x.toInt y.toInt))

/-- A lane-wise choice (R133): by the numbers that the type gives the lanes. -/
def pickLane (t : BitVec 3) (f : W32 → W32 → W32 × Nat) (first : Int → Int → Prop) [DecidableRel first] (x y : W32) : W32 × Nat :=
  if t = 0 then f x y
  else if t = 1 then intLane (if first x.toInt y.toInt then x else y)
  else intLane (if first x.toNat y.toNat then x else y)

/-- The vector words with a register result (R130-R144, R149-R151). -/
def vectorWord : Instr → Option VecWord
  | .vadd d a b m t => some (.two 4 d a b m (arith t (laneAdd 0) (· + ·)))
  | .vsub d a b m t => some (.two 4 d a b m (arith t (laneSub 0) (· - ·)))
  | .vmul d a b m t => some (.two 4 d a b m (arith t (laneMul 0) (· * ·)))
  | .vfma d a b m t => some ⟨2, 1, 6, d.toNat, false, lanes3 (laneFma t) a.toNat b.toNat d.toNat m⟩
  | .vfms d a b m t => some ⟨2, 1, 6, d.toNat, false, lanes3 (laneFms t) a.toNat b.toNat d.toNat m⟩
  | .vfnma d a b m t => some ⟨2, 1, 6, d.toNat, false, lanes3 (laneFnma t) a.toNat b.toNat d.toNat m⟩
  | .vmin d a b m t => some (.two 4 d a b m (pickLane t (laneMin 0) (· ≤ ·)))
  | .vmax d a b m t => some (.two 4 d a b m (pickLane t (laneMax 0) (· ≥ ·)))
  | .vabs d a m t => some (.one 2 d a m (laneAbs t))
  | .vneg d a m t => some (.one 2 d a m (laneNeg t))
  | .vcmpEq d a b m t =>
    some (.two 2 d a b m fun x y => if t = 0 then laneCmp 0 (· == 0) false false (· == ·) (· == ·) x y else intLane (truth (decide (x = y))))
  | .vcmpNe d a b m t =>
    some (.two 2 d a b m fun x y => if t = 0 then laneCmp 0 (· != 0) true false (· != ·) (· != ·) x y else intLane (truth (decide (x ≠ y))))
  | .vcmpLt d a b m t =>
    some (.two 2 d a b m fun x y =>
      if t = 0 then laneCmp 0 (fun c => decide (c < 0)) false true BitVec.slt BitVec.ult x y
      else intLane (truth (if t = 1 then decide (x.toInt < y.toInt) else decide (x.toNat < y.toNat))))
  | .vcmpLe d a b m t =>
    some (.two 2 d a b m fun x y =>
      if t = 0 then laneCmp 0 (fun c => decide (c ≤ 0)) false true BitVec.sle BitVec.ule x y
      else intLane (truth (if t = 1 then decide (x.toInt ≤ y.toInt) else decide (x.toNat ≤ y.toNat))))
  | .vand d a b m => some (.two 2 d a b m fun x y => intLane (x &&& y))
  | .vor d a b m => some (.two 2 d a b m fun x y => intLane (x ||| y))
  | .vxor d a b m => some (.two 2 d a b m fun x y => intLane (x ^^^ y))
  | .vnot d a m => some (.one 2 d a m fun x => intLane (~~~x))
  | .vshl d a b m => some (.two 2 d a b m fun x y => intLane (BitVec.ofNat 32 (x.toNat * 2 ^ (y.toNat % 32))))
  | .vshr d a b m => some (.two 2 d a b m fun x y => intLane (BitVec.ofNat 32 (x.toNat / 2 ^ (y.toNat % 32))))
  | .vsra d a b m => some (.two 2 d a b m fun x y => intLane (BitVec.ofInt 32 (x.toInt / 2 ^ (y.toNat % 32))))
  | .vcvt d a c m x r => some (.one 5 d a m (cvtLane (c.toNat / 8) (c.toNat % 8) (Rnd.ofBits r) (x == 1)))
  | .vsel d a b => some ⟨2, 1, 2, d.toNat, false, fun un => VOut.ofLanes (List.replicate 256 true)
      ((un.topMask.any id && (un.vec a.toNat).poison) || (un.topMask.any (!·) && (un.vec b.toNat).poison))
      (List.zipWith (fun (p : W32 × W32) on => intLane (if on then p.1 else p.2)) ((un.vec a.toNat).lanes.zip (un.vec b.toNat).lanes) un.topMask)⟩
  | .vperm d a b m =>
    some ⟨4, 1, 6, d.toNat, false, fun un => lanes2 (fun _ y => intLane ((un.vec a.toNat).lanes.getD (y.toNat % 256) 0)) a.toNat b.toNat m un⟩
  | .vrcpe d a m => some (.fn1 4 2 d a m rcpeLane)
  | .vrsqe d a m => some (.fn1 4 2 d a m rsqeLane)
  | .vrcp d a m => some (.fn1 14 8 d a m (fn32 rcpNum))
  | .vrsq d a m => some (.fn1 14 8 d a m (fn32 rsqNum))
  | .vsqrt d a m => some (.fn1 14 8 d a m (fn32 sqrtNum))
  | .vexp2 d a m => some (.fn1 14 8 d a m (fn32 exp2Num))
  | .vlog2 d a m => some (.fn1 14 8 d a m (fn32 log2Num))
  | .vsinpi d a m => some (.fn1 14 8 d a m (fn32 sinpiNum))
  | .vtanh d a m => some (.fn1 14 8 d a m (fn32 tanhNum))
  | .vdiv d a b m => some ⟨16, 1, 20, d.toNat, true, lanes2 (fun x y =>
      let q := divNum (fp x) (fp y)
      (BitVec.ofNat 32 (rne32 q.1).1, orFlags q.2 (rne32 q.1).2)) a.toNat b.toNat m⟩
  | .vredAdd d a m t => some ⟨2, 1, 12, d.toNat, false, redLanes (laneAdd t) (if t = 0 then 0x80000000 else 0) a.toNat m⟩
  | .vredMax d a m t =>
    some ⟨2, 1, 12, d.toNat, false, redLanes (laneMax t) (if t = 0 then 0xFF800000 else if t = 1 then 0x80000000 else 0) a.toNat m⟩
  | .vmov d a m => some (.one 2 d a m intLane)
  | .vql8 d a b m => some ⟨4, 1, 10, d.toNat, false, ql8Lanes a.toNat b.toNat m⟩
  | .vdl8 d a b m => some ⟨2, 1, 6, d.toNat, false, dl8Lanes a.toNat b.toNat m⟩
  | .vfmak d a n m => some ⟨2, 1, 6, d.toNat, false, fun un =>
      let out := lanes2 (fun x y => laneFma 0 x y (un.k.getD n.toNat (0, false)).1) d.toNat a.toNat m un
      { out with poison := out.poison || ((un.k.getD n.toNat (0, false)).2 && (un.lanesOn m).any id) }⟩
  | .vfmal d a two m l0 l1 =>
    some (if two = 0 then ⟨2, 2, 6, d.toNat, false, lanes2 (fun x y => laneFma 0 x y l0) d.toNat a.toNat m⟩
    else ⟨4, 3, 12, d.toNat, false, lanes2 (fun x y =>
      let p := laneFma 0 x y l0
      let q := laneFma 0 p.1 y l1
      (q.1, orFlags p.2 q.2)) d.toNat a.toNat m⟩)
  | .vmovi d im => some (.imm 2 d im false fun _ y => intLane y)
  | .vaddi d im => some (.imm 4 d im true (laneAdd 0))
  | .vmuli d im => some (.imm 4 d im true (laneMul 0))
  | .vmaxi d im => some (.imm 4 d im true (laneMax 0))
  | _ => none

/-! ### Vector loads and stores (R145-R147, R230-R232) -/

/-- The register operands of a `vld` or `vst`: a strided one has a stride. -/
def laneSources (kind : Nat) (a : BitVec 5) (b : BitVec 6) : List Nat := if kind = 1 then [a.toNat, b.toNat] else [a.toNat]

/-- The active lanes with their addresses (R145). -/
def Unit.lanesAt (v : Unit) (kind : Nat) (vs : List Val) (b : BitVec 6) (m : BitVec 1) : List (Nat × Nat) :=
  laneAddrs kind (arg vs 0).bits (arg vs 1).bits (v.vec b.toNat).lanes (v.lanesOn m)

/-- An operand of the access is poisoned: a base, a stride, or the index register of active lanes. -/
def Unit.lanesPoison (v : Unit) (kind : Nat) (vs : List Val) (b : BitVec 6) (m : BitVec 1) : Bool :=
  poisonOf vs || (kind == 2 && (v.lanesOn m).any id && (v.vec b.toNat).poison)

/-- Nothing keeps the access of lanes `l` from issuing in cycle `now`: every lane lies aligned in the unit store, the cycles of self-conflict
have passed since the walker came to the word (R232), and the bank ports of its two beats are free (R230). -/
def Unit.lanesGo (v v1 : Unit) (port kind now : Nat) (l : List (Nat × Nat)) (use : List (Nat × Nat × Nat)) : Prop :=
  let b0 := beatBlocks kind (ofBeat 0 l)
  let b1 := beatBlocks kind (ofBeat 1 l)
  (∀ e ∈ l, e.2 < Config.unitStoreBytes ∧ e.2 % laneBytes kind = 0) ∧
  (v.wk 2).since.getD now + (if kind = 1 ∨ kind = 2 then selfConflict b0 + selfConflict b1 else 0) ≤ now ∧
  use = (b0.map fun x => (now + 1, port, x)) ++ (b1.map fun x => (now + v.divisor 2 + 1, port, x)) ∧
  v1.banksFree use = true

/-! ### Matrix words (R153-R174) -/

/-- The multiply forms: op6, window, count of k-steps, acquire, release and scope (R158, R159). -/
def multiplyWord : Instr → Option (Nat × BitVec 4 × BitVec 12 × BitVec 1 × BitVec 1 × BitVec 4)
  | .mma c n q l st => some (8, c, n, q, l, st)
  | .mmaS c n q l st => some (9, c, n, q, l, st)
  | .mmaQ c n q l st => some (10, c, n, q, l, st)
  | .mmaL8 c n q l st => some (11, c, n, q, l, st)
  | .mmaPair c n q l st => some (12, c, n, q, l, st)
  | _ => none

/-- The words that write a field of the shadow configuration from their own fields (R156). -/
def msetWord : Instr → Option (CfgField × W32)
  | .msetFmt g b a => some (.fmt, BitVec.ofNat 32 (a.toNat + 16 * b.toNat + 256 * g.toNat))
  | .msetShape n m => some (.shape, BitVec.ofNat 32 (m.toNat + 64 * n.toNat))
  | .msetSparse st => some (.sparse, BitVec.ofNat 32 st.toNat)
  | _ => none

/-- Those that write it from a register (R156). -/
def msetRegWord : Instr → Option (CfgField × BitVec 5 × (W64 → W32))
  | .msetScale a => some (.scale, a, fun x => BitVec.ofNat 32 x.toNat)
  | .msetZp a => some (.zp, a, fun x => BitVec.ofNat 32 (x.toNat % 65536))
  | _ => none

/-! ### Copy words (R175-R199) -/

/-- The copy words that move data under a transfer ID with no pattern: the kind, the channel, the operands and the ordering fields. -/
def moveWord : Instr → Option (CopyOp × BitVec 2 × List (BitVec 5) × BitVec 1 × BitVec 1 × BitVec 4)
  | .cmov h d a b q l st => some (.cmov, h, [d, a, b], q, l, st)
  | .cgat h d a b q l st => some (.cgat, h, [d, a, b], q, l, st)
  | .csct h d a b q l st => some (.csct, h, [d, a, b], q, l, st)
  | _ => none

/-- The fills: whether `skb`, the channel, whether the pattern of the channel applies, the operands and the ordering fields (R188). -/
def fillWord : Instr → Option (Bool × BitVec 2 × BitVec 1 × BitVec 5 × BitVec 5 × BitVec 1 × BitVec 1 × BitVec 4)
  | .cfillA h f a b q l st => some (false, h, f, a, b, q, l, st)
  | .cfillB h f a b q l st => some (true, h, f, a, b, q, l, st)
  | _ => none

/-- The memory-side atomics: op6, channel, result register, operands and the ordering fields (R194). -/
def atomicWord : Instr → Option (Nat × BitVec 2 × BitVec 5 × BitVec 5 × BitVec 5 × BitVec 1 × BitVec 1 × BitVec 4)
  | .catomAdd h d a b q l st => some (8, h, d, a, b, q, l, st)
  | .catomMin h d a b q l st => some (9, h, d, a, b, q, l, st)
  | .catomMax h d a b q l st => some (10, h, d, a, b, q, l, st)
  | .catomXchg h d a b q l st => some (11, h, d, a, b, q, l, st)
  | .catomCas h d a b q l st => some (12, h, d, a, b, q, l, st)
  | .catomFadd h d a b q l st => some (13, h, d, a, b, q, l, st)
  | _ => none

/-- When a multiply of `n` k-steps that is squashed in cycle `t` leaves the matrix engine, with `d` the divisor of `mw` (R108, R160, R168, R171): an acquire
ends Lsc after `t`, the first k-step starts in the issue cycle then or next, the k-steps take 32 engine cycles each, and a release begins with the last landing, 40 engine cycles after the start of the last
k-step, or 48 for a pair's, and ends Lsc later. That what such a release would cover is complete by then is the model's reading (log 116). -/
def freeAfter (op n : Nat) (acq rel : Bool) (lsc d t : Nat) : Nat :=
  let first := if acq then t + lsc + (d - (t + lsc) % d) % d else t
  let landed := if n = 0 then first else first + 32 * d * (n - 1) + (if op = 12 then 48 else 40) * d - 1
  if rel then landed + lsc + 1 else first + 32 * d * n

/-- What the walk reads of the words of plain shape: integer words, loads, stores, compares, branches, vector and matrix words, copies. -/
def plainInfo (i : Instr) : Option WordInfo :=
  (integerWord i).map (·.info) <|> (loadWord i).map (ctl ·.w) <|> (storeWord i).map (ctl ·.w) <|> (branchWord i).map (ctl ·.1) <|>
    (steerWord i).map (fun r => ctlSteer r.w r.d.toNat) <|> (vectorWord i).map (fun r => { vecWord r.occ with words := r.words }) <|>
    (multiplyWord i).map (fun m => { matWord 0 true with
      mult := if wellFormed i then some fun un t => freeAfter m.1 m.2.2.1.toNat (m.2.2.2.1 == 1) (m.2.2.2.2.1 == 1) (un.lsc m.2.2.2.2.2.toNat) (un.divisor 1) t
              else none }) <|> (moveWord i).map (fun m => cpyWord (some m.2.1.toNat)) <|>
    (fillWord i).map (fun m => cpyWord (some m.2.1.toNat)) <|> (atomicWord i).map (fun m => cpyWord (some m.2.1.toNat))

/-- A command enters channel `c` of unit `v`, giving `v1`: it takes the channel's transfer ID and stands last in it (R177), and the results and
flags `effs` enter with it, each its cycle, rank and effect. The other channels, the queues and everything else of the unit are as they were,
but that a boundary taken in the command's own issue cycle covers its writes (R118, R122). -/
structure Entered (v v1 : Unit) (c : Nat) (x : Cmd) (effs : List (Nat × Nat × Eff)) : Prop where
  chan   : x.chan = c
  tid    : x.tid = (v.ch c).tid
  next   : v1.ch c = { v.ch c with tid := ((v.ch c).tid + 1) % 2 ^ 32, cmds := (v.ch c).cmds ++ [x] }
  others : ∀ j, j ≠ c → v1.ch j = v.ch j
  late   : ∃ ps, v1.pend = v.pend ++ ps ∧ ps.map (fun p => (p.due, p.rank, p.eff)) = effs
  seq    : v1.seq = v.seq + effs.length
  rest   : ∃ chans pend seq, v1 = { (if x.poison ∨ x.op = .cmark then v else v.joinCovers x) with chans, pend, seq }

/-- The acquire of a command issued in cycle `t` completes, and raises the unit's snapshot, after the latency of its scope (R120, R185). -/
def acquireEff (v : Unit) (t : Nat) (acq : Bool) (scope : Nat) : List (Nat × Nat × Eff) :=
  if acq then [(t + max 1 (v.lat.lsc.getD scope 1) - 1, 3, .acquire scope)] else []

/-- A poisoned copy word issued in cycle `t` raises PS at the end of t + 1 (R126, R176). -/
def poisonEff (t : Nat) : List (Nat × Nat × Eff) := [(t + 1, 4, .flags 3 flagPS)]

/-! ### Flits and the reachable host port (R315, R316, R319) -/

/-- Port `p` of a booted package is up and takes a flit of type `type` for this package (R316). -/
structure Accepts (type : Nat) (s : State) (p : Nat) (fl : Flit) : Prop where
  booted : s.boot.step = 5
  up     : (s.port p).lanes ≠ 0
  typ    : fl.type.toNat = type
  order  : fl.lseq.toNat = (s.port p).rxSeq
  here   : fl.dpkg.toNat = s.boot.pkgNo

/-- The flit is counted at its port, with the idle flits before it, and new keys are taken where the count would reach 2^32 (R316, R317) (logs 90,
95, DEDUCED). -/
def State.counted (s : State) (p : Nat) : State :=
  s.setPort p fun x =>
    let e := nextCount (2 * p + 1) x.keys x.rxCount
    { x with rxSeq := (x.rxSeq + 1) % 65536, rxCount := e.1, txCount := if e.2 then 0 else x.txCount, keys := if e.2 then x.keys + 1 else x.keys
             fails := 0 }

/-- From `s` to `t` the scheduler has written the 8-byte value `v` at a physical address: one of the writes performed since holds its bytes, no write of
the scheduler that memory keeps apart having been made with a later number (R253; R248). -/
def State.wrote (s t : State) (pa v : Nat) : Prop :=
  pa % 8 = 0 → (∀ w ∈ s.dram.log, w.who.same coreAgent = true → w.key ≤ s.nextId) →
    ∃ w ∈ t.dram.log, s.nextId ≤ w.id ∧ ∀ c ∈ cellsAt pa (leBytes 8 v), c ∈ w.cells

/-- A row's timer at a free time of at most `ns` nanoseconds from now (R267). -/
def Soon (s t : State) (ns : Nat) (i : Due) : Prop :=
  ∃ d, d ≤ ns ∧ (s.time.add (Frac.ofNat d), i) ∈ t.timers

/-- The scheduler is to evaluate the node at `addr`, which has just become ready, within 1 µs; for a KERNEL node a kernel waits for its units, to be
cast on within 39 µs, so that they start within 40 (R263, R267). -/
def State.evaluates (s t : State) (region addr : Nat) (x : NodeInfo) : Prop :=
  match x.typ with
  | 1 => ∃ k ker, t.kernels[k]? = some ker ∧ ker.node = addr ∧ ker.region = region ∧ ker.state = .ready ∧ ker.next0 = x.next0 ∧
      ker.next1 = x.next1 ∧ Soon s t 39000 (.event (.kernelCastOn k))
  | 2 => Soon s t 1000 (.event (.cond (nodeKey region addr)))
  | 3 => Soon s t 1000 (.event (.loopNode (nodeKey region addr)))
  | 4 => Soon s t 1000 (.event (.switch (nodeKey region addr)))
  | 5 => Soon s t 1000 (.event (.join (nodeKey region addr)))
  | _ => Soon s t 1000 (.event (.watchNode (nodeKey region addr)))

/-- Block `b` of a record with image `image` stands in memory at the place that context `c` gives it (R217, R277). -/
def State.holdsBlock (s : State) (c : Ctx) (b : Nat) (image : Mem) : Prop :=
  ∀ j, j < 64 → s.dram.read ((c.piece (64 * b) 64).addr + j) = image.read (64 * b + j)

/-- No write of unit `u` itself that memory still keeps apart was issued after this cycle (R248). -/
def State.newest (s : State) (u : Nat) (un : Unit) : Prop :=
  ∀ w ∈ s.dram.log, w.who.same (s.agentOf u un) = true → w.key ≤ 2 ^ 40 * s.now un + un.seq

/-- No channel of any unit keeps a hold that nothing owns (R297). -/
def State.holdsOwned (s : State) : Prop := ∀ e ∈ s.units, ∀ ch ∈ e.2.chans, ∀ h, ch.hold = some h → h.owners ≠ []

/-- What a unit holds from its cast-on until its first word (R31), `text` being the kernel's text. -/
structure AsCastOn (text : List W32) (un : Unit) : Prop where
  four     : un.walkers.length = 4
  x        : ∀ w ∈ un.walkers, w.x = List.replicate 144 Val.zero
  windows  : ∀ w ∈ un.walkers, w.wp = 0 ∧ w.spilln = 0 ∧ ∀ a ∈ w.ras, a = 0
  queues   : ∀ q ∈ un.queues, q = ([], 0)
  steers   : ∀ r ∈ un.steers, r = ⟨[], 0⟩
  counts   : ∀ w ∈ un.walkers, ∀ c ∈ w.steers, c.n = 0
  loops    : ∀ w ∈ un.walkers, w.inner = none ∧ w.outer = none
  v        : un.v = List.replicate 64 ⟨List.replicate 256 0, false⟩
  k        : un.k = List.replicate 64 (0, false)
  acc      : un.acc = List.replicate 16 ⟨List.replicate 4096 0, false⟩
  masks    : un.masks = []
  skeins   : un.ska = [] ∧ un.skb = []
  active   : un.active = ⟨0x044, 0xFFF, 0x3C003C00, 0, false, false, false⟩
  shadow   : un.shadow = ⟨0x044, 0xFFF, 0x3C003C00, 0, false, false, false⟩
  mpc      : un.mpc = 0
  channels : ∀ c ∈ un.chans, c.tid = 0 ∧ c.wm = 0 ∧ c.pattern = 0
  store    : ∀ a, un.store.read a = 0
  text     : ∀ i, un.istore.getD i 0 = text.getD i 0
  place    : ∀ w ∈ un.walkers, w.idx = 0

end Sys2Proof.Machine
end

