-- ==== Sys2Proof/Certificates/Slice0/Obligations.lean ====
section
/-! DEFINITION. The statements for the provers. -/

open Sys2Proof Sys2Proof.Machine

/-- R82-R86: an integer word whose operands can be read and whose destination has room issues. Its result enters the walker's results in flight,
to land at the end of the cycle that R84 gives, with the poison of the operands; the walker goes on, and nothing else changes. -/
def Obligations.IntegerWordsIssue : Prop :=
  ∀ (i : Instr) (r : RegWord) (s : State) (u k : Nat) (v v1 : Machine.Unit) (vs : List Val),
    integerWord i = some r → Ready r.info s u k v → ownPort k (r.d :: r.srcs) = false → v.full k = false →
    fetch k v r.srcs = .ok (vs, v1) → v1.room k r.d = true →
    Issues r.info .seq i s u k v (v1.landReg k r.d (s.now v) r.lat ⟨r.f (vs.map Val.bits), poisonOf vs⟩)

/-- R87, R88, R229: a load whose base is clean, whose address lies aligned in the unit store and whose bank ports are free issues, reserves the
ports, and enters a load of those bytes that lands four cycles on; a poisoned base lands a poisoned value that nothing fixes; an address that
is misaligned or outside the store is `ACCESS`. -/
def Obligations.LoadsIssue : Prop :=
  ∀ (i : Instr) (m : MemWord) (s : State) (u k : Nat) (v v1 : Machine.Unit) (base : Val),
    loadWord i = some m → Ready (ctl m.w) s u k v → ownPort k [m.d.toNat, m.a.toNat] = false → v.full k = false →
    fetch k v [m.a.toNat] = .ok ([base], v1) → v1.room k m.d.toNat = true →
    (base.poison = true → ∃ x, IssuesIn (ctl m.w) .seq i s { s with free := s.free + 1 } u k (s.now v) (v1.landReg k m.d.toNat (s.now v) 4 ⟨x, true⟩)) ∧
    (base.poison = false → (Config.unitStoreBytes ≤ m.addr base.bits ∨ m.addr base.bits % m.size ≠ 0) → Faults i s u k v .access 0) ∧
    (base.poison = false → m.addr base.bits < Config.unitStoreBytes → m.addr base.bits % m.size = 0 →
      v1.banksFree (bankUse 0 (s.now v) (m.addr base.bits) m.size) = true →
      (isPort m.d.toNat = false →
        Issues (ctl m.w) .seq i s u k v ((v1.reserve (bankUse 0 (s.now v) (m.addr base.bits) m.size)).enter k (s.now v + 3)
          (.load k (physReg (v.wk k).wp m.d.toNat) none (m.addr base.bits) m.size m.signed (s.now v)))) ∧
      (isPort m.d.toNat = true →
        Issues (ctl m.w) .seq i s u k v (((v1.reserve (bankUse 0 (s.now v) (m.addr base.bits) m.size)).qReserve (outQueue k m.d.toNat)).enter k
          (s.now v + 3) (.load k (physReg (v.wk k).wp m.d.toNat) (some (outQueue k m.d.toNat)) (m.addr base.bits) m.size m.signed (s.now v)))))

/-- R87, R89: a store of clean operands to an aligned address of the unit store issues and enters the write of exactly its bytes, low byte
first, performed at the end of the next cycle; a poisoned operand writes nothing and raises PS; a clean base out of place is `ACCESS`. That a
store of a poisoned datum neither waits for nor reserves a bank port is the model's reading (log 10). -/
def Obligations.StoresIssue : Prop :=
  ∀ (i : Instr) (m : MemWord) (s : State) (u k : Nat) (v v1 : Machine.Unit) (base x : Val),
    storeWord i = some m → Ready (ctl m.w) s u k v → ownPort k [m.d.toNat, m.a.toNat] = false →
    fetch k v [m.a.toNat, m.d.toNat] = .ok ([base, x], v1) →
    (base.poison = true → Issues (ctl m.w) .seq i s u k v (v1.raise k (s.now v + 1) flagPS)) ∧
    (base.poison = false → (Config.unitStoreBytes ≤ m.addr base.bits ∨ m.addr base.bits % m.size ≠ 0) → Faults i s u k v .access 0) ∧
    (base.poison = false → m.addr base.bits < Config.unitStoreBytes → m.addr base.bits % m.size = 0 →
      (x.poison = true → Issues (ctl m.w) .seq i s u k v (v1.raise k (s.now v + 1) flagPS)) ∧
      (x.poison = false → v1.banksFree (bankUse 1 (s.now v) (m.addr base.bits) m.size) = true →
        Issues (ctl m.w) .seq i s u k v ((v1.reserve (bankUse 1 (s.now v) (m.addr base.bits) m.size)).later (s.now v + 1) 0
          (.store k v1.seq (cellsAt (m.addr base.bits) (leBytes m.size x.bits.toNat))))))

/-- R14, R91-R96: a compare, `mvst`, steer logic or `prep` whose sources can be read issues and enters its steer write, to land at the end of its
cycle; of several walkers that the word names only the lowest-numbered writes the entry. -/
def Obligations.SteerWordsIssue : Prop :=
  (∀ (i : Instr) (r : SteerWord) (s : State) (u k : Nat) (v v1 : Machine.Unit) (vs : List Val),
    steerWord i = some r → wellFormed i = true → Ready (ctlSteer r.w r.d.toNat) s u k v → ownPort k r.srcs = false → v.full k = false →
    fetch k v r.srcs = .ok (vs, v1) →
    Issues (ctlSteer r.w r.d.toNat) .seq i s u k v
      (v1.steerFrom (ctl r.w).who k (s.now v) r.d.toNat ((r.c (vs.map Val.bits)).map fun c => (c, poisonOf vs))
        ((r.t (vs.map Val.bits)).map fun t => (t, poisonOf vs)))) ∧
  (∀ (i : Instr) (w : BitVec 4) (d : BitVec 5) (srcs : List (BitVec 5)) (f : List Bool → Bool) (s : State) (u k : Nat) (v : Machine.Unit)
    (es : List SteerEntry),
    steerLogic i = some (w, d, srcs, f) → wellFormed i = true → Ready (ctlSteer w d.toNat) s u k v → v.full k = false →
    srcs.map (fun a => v.steerSource k a.toNat) = es.map .entry →
    Issues (ctlSteer w d.toNat) .seq i s u k v
      (v.steerFrom (ctl w).who k (s.now v) d.toNat (some (f (es.map (·.c)), es.any (·.pc))) none)) ∧
  (∀ (w : BitVec 4) (st : BitVec 4) (o : BitVec 18) (s : State) (u k : Nat) (v : Machine.Unit) (t : Nat),
    wellFormed (.prep w st o) = true → Ready (ctlSteer w st.toNat) s u k v → v.full k = false → (t : Int) = ((v.wk k).idx : Int) + o.toInt →
    t < 65536 →
    Issues (ctlSteer w st.toNat) .seq (.prep w st o) s u k v (v.steerFrom (ctl w).who k (s.now v) st.toNat none (some (t, false))))

/-- R94, R95: `mvfst` lands the image of the entry with poison PC OR PT; `sel` reads both registers and lands the one that C chooses, with PC OR
that one's poison. -/
def Obligations.SteerReadersIssue : Prop :=
  (∀ (w : BitVec 4) (d a : BitVec 5) (s : State) (u k : Nat) (v : Machine.Unit) (e : SteerEntry),
    wellFormed (.mvfst w d a) = true → Ready (ctl w) s u k v → ownPort k [d.toNat] = false → v.full k = false →
    v.steerSource k a.toNat = .entry e → v.room k d.toNat = true →
    Issues (ctl w) .seq (.mvfst w d a) s u k v (v.landReg k d.toNat (s.now v) 1
      ⟨BitVec.ofNat 64 ((if e.tv then 2 ^ 31 else 0) + (if e.c then 2 ^ 16 else 0) + e.t % 65536), e.pc || e.pt⟩)) ∧
  (∀ (w : BitVec 4) (d a b : BitVec 5) (st : BitVec 4) (s : State) (u k : Nat) (v v1 : Machine.Unit) (x y : Val) (e : SteerEntry),
    wellFormed (.sel w d a b st) = true → Ready (ctl w) s u k v → ownPort k [d.toNat, a.toNat, b.toNat] = false → v.full k = false →
    fetch k v [a.toNat, b.toNat] = .ok ([x, y], v1) → v.steerSource k st.toNat = .entry e → v1.room k d.toNat = true →
    Issues (ctl w) .seq (.sel w d a b st) s u k v
      (v1.landReg k d.toNat (s.now v) 1 ⟨if e.c then x.bits else y.bits, e.pc || (if e.c then x.poison else y.poison)⟩))

/-- R15, R28, R112: a word that reads steer register `st` stops with `SLIP` where the entry it needs is gone, and does not issue where the
entry has not landed; shown for the conditional branches. -/
def Obligations.SteerReadSlips : Prop :=
  ∀ (i : Instr) (w st : BitVec 4) (on : Bool) (o : Option (BitVec 18)) (s : State) (u k : Nat) (v : Machine.Unit),
    branchWord i = some (w, st, on, o) → wellFormed i = true → Ready (ctl w) s u k v →
    (v.steerSource k st.toNat = .slip → Faults i s u k v .slip 0) ∧
    (v.steerSource k st.toNat = .notLanded → (s.region v.region).strict = true → Faults i s u k v .scheduleMiss 0) ∧
    (v.steerSource k st.toNat = .notLanded → (s.region v.region).strict = false →
      exec i s = .next ((s.setUnit u v).close u k 1 (some (0x10 + st.toNat))))

/-- R97-R100: a branch or jump outside every loop goes to its target, considered three issue cycles on, or one where a `prep` or `mvst` set the
target at least three cycles before; a branch whose C does not ask for it goes on; poison is not taken and raises PS; a taken transfer in a
loop, out of the text or through an entry without a target is `ILLEGAL`. -/
def Obligations.TransfersIssue : Prop :=
  (∀ (i : Instr) (w st : BitVec 4) (on : Bool) (o : Option (BitVec 18)) (s : State) (u k : Nat) (v : Machine.Unit) (e : SteerEntry),
    branchWord i = some (w, st, on, o) → wellFormed i = true → Ready (ctl w) s u k v → v.steerSource k st.toNat = .entry e →
    (e.pc = true → Issues (ctl w) .seq i s u k v (v.raise k (s.now v) flagPS)) ∧
    (e.pc = false → e.c ≠ on → Issues (ctl w) .seq i s u k v v) ∧
    (∀ (o' : BitVec 18) (t : Nat), o = some o' → e.pc = false → e.c = on → (t : Int) = ((v.wk k).idx : Int) + o'.toInt → t < 65536 →
      (v.wk k).inner = none → Issues (ctl w) (.jump t 3) i s u k v v) ∧
    (∀ (o' : BitVec 18), o = some o' → e.pc = false → e.c = on →
      ((v.wk k).inner.isSome ∨ ((v.wk k).idx : Int) + o'.toInt < 0 ∨ 65536 ≤ ((v.wk k).idx : Int) + o'.toInt) → Faults i s u k v .illegal 0) ∧
    (o = none → e.pc = false → e.c = on → e.tv = false → Faults i s u k v .illegal 0) ∧
    (o = none → e.pc = false → e.c = on → e.tv = true → e.pt = false → ((v.wk k).inner.isSome ∨ 65536 ≤ e.t) → Faults i s u k v .illegal 0) ∧
    (o = none → e.pc = false → e.c = on → e.tv = true → e.pt = true → Issues (ctl w) .seq i s u k v (v.raise k (s.now v) flagPS)) ∧
    (o = none → e.pc = false → e.c = on → e.tv = true → e.pt = false → e.t < 65536 → (v.wk k).inner = none →
      Issues (ctl w) (.jump e.t (if ∃ c, e.tAt = some c ∧ c + 3 ≤ s.now v then 1 else 3)) i s u k v v)) ∧
  (∀ (w : BitVec 4) (o : BitVec 18) (s : State) (u k : Nat) (v : Machine.Unit) (t : Nat),
    wellFormed (.j w o) = true → Ready (ctl w) s u k v → (t : Int) = ((v.wk k).idx : Int) + o.toInt → t < 65536 → (v.wk k).inner = none →
    Issues (ctl w) (.jump t 3) (.j w o) s u k v v) ∧
  (∀ (w : BitVec 4) (o : BitVec 18) (s : State) (u k : Nat) (v : Machine.Unit), wellFormed (.j w o) = true → Ready (ctl w) s u k v →
    ((v.wk k).inner.isSome ∨ ((v.wk k).idx : Int) + o.toInt < 0 ∨ 65536 ≤ ((v.wk k).idx : Int) + o.toInt) → Faults (.j w o) s u k v .illegal 0) ∧
  (∀ (w st : BitVec 4) (s : State) (u k : Nat) (v : Machine.Unit) (e : SteerEntry),
    wellFormed (.jT w st) = true → Ready (ctl w) s u k v → v.steerSource k st.toNat = .entry e →
    (e.tv = false → Faults (.jT w st) s u k v .illegal 0) ∧
    (e.tv = true → e.pt = true → Issues (ctl w) .seq (.jT w st) s u k v (v.raise k (s.now v) flagPS)) ∧
    (e.tv = true → e.pt = false → ((v.wk k).inner.isSome ∨ 65536 ≤ e.t) → Faults (.jT w st) s u k v .illegal 0) ∧
    (e.tv = true → e.pt = false → e.t < 65536 → (v.wk k).inner = none →
      Issues (ctl w) (.jump e.t (if ∃ c, e.tAt = some c ∧ c + 3 ≤ s.now v then 1 else 3)) (.jT w st) s u k v v)) ∧
  (∀ (w : BitVec 4) (a : BitVec 5) (s : State) (u k : Nat) (v v1 : Machine.Unit) (x : Val),
    Ready (ctl w) s u k v → ownPort k [a.toNat] = false → fetch k v [a.toNat] = .ok ([x], v1) →
    (x.poison = true → Issues (ctl w) .seq (.jr w a) s u k v (v1.raise k (s.now v) flagPS)) ∧
    (x.poison = false → ((v.wk k).inner.isSome ∨ 65536 ≤ x.bits.toNat) → Faults (.jr w a) s u k v .illegal 0) ∧
    (x.poison = false → x.bits.toNat < 65536 → (v.wk k).inner = none → Issues (ctl w) (.jump x.bits.toNat 3) (.jr w a) s u k v v1))

/-- R11, R101-R104: a call outside every loop enters the next window with its return index, spilling the oldest frame where eight are
resident; `ret` leaves it, refilling the window from the spill area where none is left resident, and is `RETURN-UNDERFLOW` where there is no
frame at all. In a loop level `ret` is `ILLEGAL`, by the model's reading also with no frame (log 117). -/
def Obligations.CallsAndReturnsIssue : Prop :=
  (∀ (w : BitVec 4) (o : BitVec 18) (s : State) (u k : Nat) (v : Machine.Unit) (t : Nat),
    wellFormed (.call w o) = true → Ready (ctl w) s u k v → (t : Int) = ((v.wk k).idx : Int) + o.toInt → t < 65536 → (v.wk k).inner = none →
    CallsTo (.call w o) (ctl w) s u k v v t 3) ∧
  (∀ (w st : BitVec 4) (s : State) (u k : Nat) (v : Machine.Unit) (e : SteerEntry),
    wellFormed (.callT w st) = true → Ready (ctl w) s u k v → v.steerSource k st.toNat = .entry e → e.tv = true → e.pt = false → e.t < 65536 →
    (v.wk k).inner = none → CallsTo (.callT w st) (ctl w) s u k v v e.t (if ∃ c, e.tAt = some c ∧ c + 3 ≤ s.now v then 1 else 3)) ∧
  (∀ (w : BitVec 4) (a : BitVec 5) (s : State) (u k : Nat) (v v1 : Machine.Unit) (x : Val),
    Ready (ctl w) s u k v → ownPort k [a.toNat] = false → fetch k v [a.toNat] = .ok ([x], v1) → x.poison = false → x.bits.toNat < 65536 →
    (v.wk k).inner = none → CallsTo (.callr w a) (ctl w) s u k v v1 x.bits.toNat 3) ∧
  (∀ (w : BitVec 4) (s : State) (u k : Nat) (v : Machine.Unit),
    Ready (ctl w) s u k v → (v.wk k).inner.isSome → Faults (.ret w) s u k v .illegal 0) ∧
  (∀ (w : BitVec 4) (s : State) (u k : Nat) (v : Machine.Unit),
    Ready (ctl w) s u k v → (v.wk k).inner = none →
    ((v.wk k).res = 1 → (v.wk k).spilln = 0 → Faults (.ret w) s u k v .returnUnderflow 0) ∧
    (1 < (v.wk k).res → (v.wk k).ras.getD (v.wk k).wp 0 < 65536 →
      Issues (ctl w) (.jump ((v.wk k).ras.getD (v.wk k).wp 0) 3) (.ret w) s u k v
        (v.setWk k fun x => { x with wp := (x.wp + 7) % 8, res := x.res - 1 })) ∧
    ((v.wk k).res = 1 → (v.wk k).spilln ≠ 0 → (v.wk k).ras.getD (v.wk k).wp 0 < 65536 →
      v.banksFree (bankUse 0 (s.now v) ((v.wk k).spillb + 256 * ((v.wk k).spilln - 1)).toNat 256) = true →
      Issues (ctl w) (.jump ((v.wk k).ras.getD (v.wk k).wp 0) 27) (.ret w) s u k v
        (((v.setWk k fun x => { x with wp := (x.wp + 7) % 8, res := 1, spilln := x.spilln - 1 }).reserve
          (bankUse 0 (s.now v) ((v.wk k).spillb + 256 * ((v.wk k).spilln - 1)).toNat 256)).later (s.now v + 3) 1
          (.refill k (((v.wk k).wp + 7) % 8) ((v.wk k).spillb + 256 * ((v.wk k).spilln - 1)).toNat (s.now v)))))

/-- R54, R125, R126: `nop` changes the walker's place alone; `check` goes to its target with every loop level abandoned where PS is set, and on
where it is clear; `pclr` clears PS at the end of the cycle. -/
def Obligations.PlainControlWordsIssue : Prop :=
  (∀ (w : BitVec 4) (s : State) (u k : Nat) (v : Machine.Unit), Ready (ctl w) s u k v → Issues (ctl w) .seq (.nop w) s u k v v) ∧
  (∀ (w : BitVec 4) (o : BitVec 18) (s : State) (u k : Nat) (v : Machine.Unit), wellFormed (.check w o) = true → Ready (ctl w) s u k v →
    ((v.wk k).flags.getLsbD 15 = false → Issues (ctl w) .seq (.check w o) s u k v v) ∧
    (∀ t : Nat, (v.wk k).flags.getLsbD 15 = true → (t : Int) = ((v.wk k).idx : Int) + o.toInt → t < 65536 →
      Issues (ctl w) (.abandon t 3) (.check w o) s u k v v)) ∧
  (∀ (w : BitVec 4) (s : State) (u k : Nat) (v : Machine.Unit), Ready (ctl w) s u k v →
    Issues (ctl w) .seq (.pclr w) s u k v (v.later (s.now v) 3 (.pclr k)))

/-- R16, R106-R110: a `loop` whose steer entry names a last word in range, in a body of whole stages that nests as R106 allows, issues:
a trip count of 1 or more opens the level, before its first pass, and one of 0 passes the whole body. That a loop without a pass goes on
behind its body is the model's reading of the slip window (log 12). -/
def Obligations.LoopIssues : Prop :=
  ∀ (w st : BitVec 4) (a : BitVec 5) (im : BitVec 8) (g : BitVec 3) (s : State) (u k : Nat) (v : Machine.Unit) (e : SteerEntry),
    wellFormed (.loop w st a im g) = true → Ready (ctl w) s u k v → v.steerSource k st.toNat = .entry e → e.tv = true → e.pt = false →
    (v.wk k).idx < e.t → e.t ≤ (v.wk k).idx + 4096 → (e.t - (v.wk k).idx) % (g.toNat + 1) = 0 → (v.wk k).outer = none →
    (∀ l, (v.wk k).inner = some l → l.stages = 1 ∧ e.t ≤ l.last) → ((v.wk k).reg a.toNat).poison = false →
    ((v.wk k).reg a.toNat).bits.toNat < 2 ^ 32 →
    (((v.wk k).reg a.toNat).bits = 0 → Issues (ctl w) (.skip (e.t + 1) 1 false) (.loop w st a im g) s u k v v) ∧
    (((v.wk k).reg a.toNat).bits ≠ 0 → Issues (ctl w) .seq (.loop w st a im g) s u k v (v.setWk k fun x =>
      { x with
        outer := x.inner
        inner := some
          { word := x.idx, trip := (x.reg a.toNat).bits.toNat, stages := g.toNat + 1, ii := im.toNat, len := e.t - x.idx, last := e.t, from_ := 0
            reg := physReg x.wp a.toNat, pass := 0, started := false, began := x.ic, after := x.ic + 1, first := 0, drain := none } }))

/-- R113: an `lbrk` in a level ends it with its own iteration where C is set, and does nothing where C is clear; a poisoned C only raises PS;
outside every level it is `ILLEGAL`. -/
def Obligations.LbrkIssues : Prop :=
  ∀ (w st : BitVec 4) (s : State) (u k : Nat) (v : Machine.Unit) (e : SteerEntry),
    wellFormed (.lbrk w st) = true → Ready (ctl w) s u k v → v.steerSource k st.toNat = .entry e →
    ((v.wk k).inner = none → Faults (.lbrk w st) s u k v .illegal 0) ∧
    (∀ l, (v.wk k).inner = some l →
      (e.pc = true → Issues (ctl w) .seq (.lbrk w st) s u k v (v.raise k (s.now v) flagPS)) ∧
      (e.pc = false → e.c = false → Issues (ctl w) .seq (.lbrk w st) s u k v v) ∧
      (e.pc = false → e.c = true → Issues (ctl w) .seq (.lbrk w st) s u k v (v.setWk k fun x =>
        { x with inner := some { l with trip := min l.trip (l.pass - l.stage x.idx + 1) } })))

/-- R115, R116: a wait issues in the cycle in which what it waits for holds: a sample boundary since the walker came to the word (`waits`), the
register's cycle count reached (`waitc`), the channel's commands below the mark complete (`waitx`), every walker of the set arrived
(`wsync`). A walker of the set has arrived as `Unit.syncView` says; for one that the word does not name, or that passed the place before its
context was saved, that is the model's reading and not R117 read strictly (logs 48, 100). -/
def Obligations.WaitsIssue : Prop :=
  (∀ (w : BitVec 4) (s : State) (u k c : Nat) (v : Machine.Unit), Ready (ctl w) s u k v → (v.wk k).since = some c →
    (∃ b, c ≤ b ∧ b ≤ s.now v ∧ b % max 1 (s.region v.region).p = 0) →
    Issues (ctl w) .seq (.waits w) s u k v (v.setWk k fun x => { x with beat := true })) ∧
  (∀ (w : BitVec 4) (a : BitVec 5) (s : State) (u k : Nat) (v v1 : Machine.Unit) (x : Val), Ready (ctl w) s u k v →
    ownPort k [a.toNat] = false → fetch k v [a.toNat] = .ok ([x], v1) →
    (x.poison = true → Issues (ctl w) .seq (.waitc w a) s u k v (v1.raise k (s.now v) flagPS)) ∧
    (x.poison = false → x.bits.toNat ≤ s.now v → Issues (ctl w) .seq (.waitc w a) s u k v v1) ∧
    (x.poison = false → s.now v < x.bits.toNat → exec (.waitc w a) s = .next ((s.setUnit u v).close u k 1 (some 0x2D)))) ∧
  (∀ (w : BitVec 4) (c : BitVec 2) (n : BitVec 8) (s : State) (u k : Nat) (v : Machine.Unit) (ch : Chan), Ready (ctl w) s u k v →
    v.chans[c.toNat]? = some ch →
    ((((ch.wm : Int) - (if k = 3 then (ch.tid : Int) else ((v.wk k).copies.getD c.toNat 0 : Int)) + n.toNat) % 2 ^ 32) < 2 ^ 31) →
    Issues (ctl w) .seq (.waitx w c n) s u k v v) ∧
  (∀ (w st : BitVec 4) (s : State) (u k : Nat) (v : Machine.Unit), wellFormed (.wsync w st) = true →
    Ready { ctl w with sync := true } s u k v →
    (∀ j, j < 4 → st.toNat.testBit j = true → v.syncView (s.now v) k j (w.toNat.testBit j) = .arrived) →
    Issues { ctl w with sync := true } .seq (.wsync w st) s u k v v)

/-- R118, R121, R122: a `phase` issues in each walker that comes to it, which it holds: the first of the walkers that the word names opens it, with
the word's scope, and the last takes the boundary, which covers what has been issued on every channel. A `bar` issues in a walker once its
unit is released; the unit is counted in once every walker named stands at the word anew. Every other phase and arrival is kept. -/
def Obligations.PhaseAndBarIssue : Prop :=
  (∀ (w st : BitVec 4) (s : State) (u k : Nat) (v : Machine.Unit), wellFormed (.phase w st) = true → Ready (ctl w) s u k v →
    ∃ p : PhaseState, (v.phases.find? (fun q : PhaseState => q.waitsFor (v.wk k).idx k) = some p ∨
        v.phases.find? (fun q : PhaseState => q.waitsFor (v.wk k).idx k) = none ∧ p = ⟨(v.wk k).idx, st.toNat, maskWalkers w, [], none, ⟨[], 0⟩, [], false⟩) ∧
      Issues (ctl w) .seq (.phase w st) s u k v
        ({ v with phases := (v.phases.filter fun (q : PhaseState) => !q.waitsFor (v.wk k).idx k) ++ [p.join v k (s.now v)] }.setWk k fun x =>
          { x with held := true })) ∧
  (∀ (w st : BitVec 4) (im : BitVec 8) (s : State) (u k : Nat) (v : Machine.Unit), wellFormed (.bar w st im) = true → Ready (ctl w) s u k v →
    (∀ b, v.bars.find? (fun b => b.word == (v.wk k).idx && b.ws.contains k) = some b → b.released = true →
      Issues (ctl w) .seq (.bar w st im) s u k v { v with
        bars := (v.bars.filter fun q => !(q.word == (v.wk k).idx && q.ws.contains k)) ++
          if b.ws.filter (· != k) = [] then [] else [{ b with ws := b.ws.filter (· != k) }] }) ∧
    (∀ b, v.bars.find? (fun b => b.word == (v.wk k).idx && b.ws.contains k) = some b → b.released = false →
      exec (.bar w st im) s = .next ((s.setUnit u v).close u k 1 (some 0x2A))) ∧
    (v.bars.find? (fun b => b.word == (v.wk k).idx && b.ws.contains k) = none →
      (∀ j, j < 4 → w.toNat.testBit j = true → (v.wk j).idx = (v.wk k).idx ∧ v.stands j = true ∧
        ∀ b ∈ v.bars, b.word = (v.wk k).idx → j ∉ b.ws) →
      exec (.bar w st im) s = .next ((s.setUnit u { v with
        bars := v.bars ++ [⟨(v.wk k).idx, im.toNat, st.toNat, (find v.barCnt im.toNat).getD 0, s.now v, v.coverNow (s.now v), maskWalkers w, none, false⟩]
        barCnt := put v.barCnt im.toNat ((find v.barCnt im.toNat).getD 0 + 1) }).close u k 1 (some 0x2A))))

/-- R12, R123, R124: `sendc` sends its value, poison and all, to arrive twelve cycles on at the unit of the cluster that it names; `recvc` issues once
a message has been matched to the walker, and waits while its queue has no room for it (log 13). -/
def Obligations.MessagesIssue : Prop :=
  (∀ (w : BitVec 4) (n : BitVec 3) (a : BitVec 5) (s : State) (u k : Nat) (v v1 : Machine.Unit) (x : Val), Ready (ctl w) s u k v →
    ownPort k [a.toNat] = false → fetch k v [a.toNat] = .ok ([x], v1) →
    Issues (ctl w) .seq (.sendc w n a) s u k v { v1 with outbox := v1.outbox ++ [⟨k, u / 8 * 8 + n.toNat, x, s.now v + 12⟩] }) ∧
  (∀ (w : BitVec 4) (d : BitVec 5) (n : BitVec 3) (s : State) (u k : Nat) (v : Machine.Unit), Ready (ctl w) s u k v →
    ownPort k [d.toNat] = false →
    ((v.wk k).matched = true →
      (isPort d.toNat = false ∨ (v.queue (outQueue k d.toNat)).1.length + (v.queue (outQueue k d.toNat)).2 ≤ 8) →
      Issues (ctl w) .seq (.recvc w d n) s u k v v) ∧
    ((v.wk k).matched = true → isPort d.toNat = true → 8 < (v.queue (outQueue k d.toNat)).1.length + (v.queue (outQueue k d.toNat)).2 →
      exec (.recvc w d n) s = .next ((s.setUnit u v).close u k 1 (some (outQueue k d.toNat)))) ∧
    ((v.wk k).matched = false → exec (.recvc w d n) s = .next ((s.setUnit u v).close u k 1 (some 0x2E))))

/-- R127-R144, R149-R151: a vector word with a register result issues in `vw`, holds the engine for its occupancy and enters the lanes that its
rule gives, to land after its latency in engine cycles; a function needs `FTV` 1 and is `ILLEGAL` without (R143). -/
def Obligations.VectorWordsIssue : Prop :=
  ∀ (i : Instr) (r : VecWord) (s : State) (u : Nat) (v : Machine.Unit),
    vectorWord i = some r → wellFormed i = true → Ready { vecWord r.occ with words := r.words } s u 2 v → v.full 2 = false →
    ((r.fn = true → v.ftv = 1) →
      Issues { vecWord r.occ with words := r.words } .seq i s u 2 v (v.enter 2 (s.now v + r.lat * v.divisor 2 - 1)
        (.lanes r.d (r.out v).lanes (r.out v).poison (r.out v).all (flagBits (r.out v).flags) false))) ∧
    (r.fn = true → v.ftv ≠ 1 → Faults i s u 2 v .illegal 0)

/-- R139, R140: `vbcast` and `vmovx.in` put the low 32 bits of a register or of `sw`'s queue entry in every active lane; `vmovx.out` sends the
lowest active lane, zero-extended, to `sw`'s queue. -/
def Obligations.VectorMovesIssue : Prop :=
  (∀ (d : BitVec 6) (a : BitVec 5) (m : BitVec 1) (s : State) (u : Nat) (v v1 : Machine.Unit) (x : Val), wellFormed (.vbcast d a m) = true →
    Ready (vecWord 2) s u 2 v → ownPort 2 [a.toNat] = false → v.full 2 = false → fetch 2 v [a.toNat] = .ok ([x], v1) →
    Issues (vecWord 2) .seq (.vbcast d a m) s u 2 v
      (v1.landVec d.toNat (s.now v) 2 (VOut.ofLanes (v.lanesOn m) x.poison (List.replicate 256 (x.bits.setWidth 32, 0))))) ∧
  (∀ (d : BitVec 6) (m : BitVec 1) (s : State) (u : Nat) (v v1 : Machine.Unit) (x : Val), Ready (vecWord 2) s u 2 v → v.full 2 = false →
    fetch 2 v [12] = .ok ([x], v1) →
    Issues (vecWord 2) .seq (.vmovxIn d m) s u 2 v (v1.landVec d.toNat (s.now v) 2
      { VOut.ofLanes (v.lanesOn m) false (List.replicate 256 (x.bits.setWidth 32, 0)) with poison := x.poison })) ∧
  (∀ (a : BitVec 6) (m : BitVec 1) (s : State) (u : Nat) (v : Machine.Unit), Ready (vecWord 2) s u 2 v → v.qFull 8 = false →
    ∃ x, Issues (vecWord 2) .seq (.vmovxOut a m) s u 2 v ((v.qReserve 8).later (s.now v + 2 * v.divisor 2 - 1) 1 (.push 8 x false)) ∧
      (∀ l, l < (v.lanesOn m).length → (v.lanesOn m).getD l false = true → (∀ j < l, (v.lanesOn m).getD j false = false) →
        x = ⟨((v.vec a.toNat).lanes.getD l 0).zeroExtend 64, (v.vec a.toNat).poison⟩) ∧
      ((v.lanesOn m).any id = false → x = ⟨0, false⟩))

/-- R18, R136, R137: `vpush` puts the lanes that are not zero, under the mask so far, on the mask stack; `vinv` turns the top entry over within
the one below; `vpop` drops it; a push on eight entries and a pop or turn of none are `ILLEGAL`. `vskip` goes on where a lane is active and to
its target where none is. -/
def Obligations.MaskWordsIssue : Prop :=
  (∀ (a : BitVec 6) (s : State) (u : Nat) (v : Machine.Unit), Ready (vecWord 1) s u 2 v →
    (8 ≤ v.masks.length → Faults (.vpush a) s u 2 v .illegal 0) ∧
    (v.masks.length < 8 → (v.vec a.toNat).poison = false →
      Issues (vecWord 1) .seq (.vpush a) s u 2 v
        { v with masks := List.zipWith (fun x (on : Bool) => decide (x ≠ 0) && on) (v.vec a.toNat).lanes v.topMask :: v.masks }) ∧
    (v.masks.length < 8 → (v.vec a.toNat).poison = true →
      Issues (vecWord 1) .seq (.vpush a) s u 2 v { v.raise 2 (s.now v) flagPS with masks := List.replicate 256 false :: v.masks })) ∧
  (∀ (s : State) (u : Nat) (v : Machine.Unit), Ready (vecWord 1) s u 2 v →
    (v.masks = [] → Faults .vinv s u 2 v .illegal 0 ∧ Faults .vpop s u 2 v .illegal 0) ∧
    (∀ top rest, v.masks = top :: rest →
      Issues (vecWord 1) .seq .vinv s u 2 v
        { v with masks := List.zipWith (fun x p => !x && p) top (rest.headD (List.replicate 256 true)) :: rest } ∧
      Issues (vecWord 1) .seq .vpop s u 2 v { v with masks := rest })) ∧
  (∀ (o : BitVec 18) (s : State) (u : Nat) (v : Machine.Unit), wellFormed (.vskip o) = true → Ready (vecWord 1) s u 2 v →
    (v.topMask.any id = true → Issues (vecWord 1) .seq (.vskip o) s u 2 v v) ∧
    (v.topMask.any id = false → (v.wk 2).idx + o.toNat < 65536 → (v.wk 2).inner = none →
      v.slips 2 ((Walker.skipTo v.istore (s.now v) true ((v.wk 2).idx + o.toNat) 65536 ((v.wk 2).idx + 1) (v.wk 2)).count - (v.wk 2).count + 1) = false →
      Issues (vecWord 1) (.skip ((v.wk 2).idx + o.toNat) 3 true) (.vskip o) s u 2 v v))

/-- R145-R148: a `vld` whose lanes lie aligned in the unit store issues once its self-conflict has passed and its bank ports are free, and enters
the load of its active lanes; a `vst` enters the two writes of its beats, low lanes first; `vldk` enters the load of consecutive constant
entries. A poisoned `vld` lands poisoned lanes that nothing fixes, a poisoned `vst` writes nothing and raises PS. That a `vst` of poisoned data waits
for and reserves its ports (log 10), that the cycles of self-conflict count from the cycle in which `vw` first stands at the word (log 101) and that the
address of every kind is modulo 2^64 (log 112) are the model's readings. -/
def Obligations.VectorMemoryWordsIssue : Prop :=
  (∀ (d : BitVec 6) (a : BitVec 5) (b : BitVec 6) (m : BitVec 1) (t : BitVec 3) (s : State) (u : Nat) (v v1 : Machine.Unit) (vs : List Val),
    wellFormed (.vld d a b m t) = true → Ready { vecWord 2 with early := true } s u 2 v → ownPort 2 (laneSources t.toNat a b) = false →
    v.full 2 = false → fetch 2 v (laneSources t.toNat a b) = .ok (vs, v1) →
    (v.lanesPoison t.toNat vs b m = true →
      ∃ ls, IssuesIn { vecWord 2 with early := true } .seq (.vld d a b m t) s { s with free := s.free + 256 } u 2 (s.now v)
        (v1.enter 2 (s.now v + 8 * v.divisor 2 - 1) (.lanes d.toNat ls true ((v.lanesOn m).all id) 0 false)) ∧
        ∀ e ∈ ls, (v.lanesOn m).getD e.1 false = true) ∧
    (v.lanesPoison t.toNat vs b m = false → ∀ use, v.lanesGo v1 0 t.toNat (s.now v) (v.lanesAt t.toNat vs b m) use →
      Issues { vecWord 2 with early := true } .seq (.vld d a b m t) s u 2 v
        ((v1.reserve use).enter 2 (s.now v + 8 * v.divisor 2 - 1) (.vload d.toNat
          ((v.lanesAt t.toNat vs b m).map fun e => (e.1, e.2, laneWidth t.toNat e.1, s.now v + e.1 / 128 * v.divisor 2)) ((v.lanesOn m).all id))))) ∧
  (∀ (d : BitVec 6) (a : BitVec 5) (b : BitVec 6) (m : BitVec 1) (t : BitVec 3) (s : State) (u : Nat) (v v1 : Machine.Unit) (vs : List Val),
    wellFormed (.vst d a b m t) = true → Ready { vecWord 2 with early := true } s u 2 v → ownPort 2 (laneSources t.toNat a b) = false →
    fetch 2 v (laneSources t.toNat a b) = .ok (vs, v1) →
    (v.lanesPoison t.toNat vs b m = true →
      Issues { vecWord 2 with early := true } .seq (.vst d a b m t) s u 2 v (v1.raise 2 (s.now v + 1) flagPS)) ∧
    (v.lanesPoison t.toNat vs b m = false → ∀ use, v.lanesGo v1 1 t.toNat (s.now v) (v.lanesAt t.toNat vs b m) use →
      ((v.vec d.toNat).poison = true → v.lanesAt t.toNat vs b m ≠ [] →
        Issues { vecWord 2 with early := true } .seq (.vst d a b m t) s u 2 v ((v1.reserve use).raise 2 (s.now v + 1) flagPS)) ∧
      ((v.vec d.toNat).poison = false →
        Issues { vecWord 2 with early := true } .seq (.vst d a b m t) s u 2 v
          (((v1.reserve use).later (s.now v + 1) 0 (.store 2 v1.seq ((ofBeat 0 (v.lanesAt t.toNat vs b m)).flatMap fun e =>
            laneCells t.toNat e.1 e.2 ((v.vec d.toNat).lanes.getD e.1 0)))).later (s.now v + v.divisor 2 + 1) 0
            (.store 2 v1.seq ((ofBeat 1 (v.lanesAt t.toNat vs b m)).flatMap fun e =>
              laneCells t.toNat e.1 e.2 ((v.vec d.toNat).lanes.getD e.1 0))))))) ∧
  (∀ (f : BitVec 6) (a : BitVec 5) (c : BitVec 6) (s : State) (u : Nat) (v v1 : Machine.Unit) (x : Val),
    wellFormed (.vldk f a c) = true → Ready (vecWord 2) s u 2 v → ownPort 2 [a.toNat] = false → v.full 2 = false →
    fetch 2 v [a.toNat] = .ok ([x], v1) →
    (x.poison = true → Issues (vecWord 2) .seq (.vldk f a c) s u 2 v
      (v1.enter 2 (s.now v + 8 * v.divisor 2 - 1) (.kset f.toNat (c.toNat + 1) true))) ∧
    (x.poison = false → (x.bits.toNat % 4 ≠ 0 ∨ Config.unitStoreBytes < x.bits.toNat + 4 * (c.toNat + 1)) →
      Faults (.vldk f a c) s u 2 v .access 0) ∧
    (x.poison = false → x.bits.toNat % 4 = 0 → x.bits.toNat + 4 * (c.toNat + 1) ≤ Config.unitStoreBytes →
      v1.banksFree (bankUse 0 (s.now v) x.bits.toNat (4 * (c.toNat + 1))) = true →
      Issues (vecWord 2) .seq (.vldk f a c) s u 2 v ((v1.reserve (bankUse 0 (s.now v) x.bits.toNat (4 * (c.toNat + 1)))).enter 2
        (s.now v + 8 * v.divisor 2 - 1) (.kload f.toNat (c.toNat + 1) x.bits.toNat (s.now v)))))

/-- R158, R159, R168: a multiply whose form the shadow configuration fits issues, taking that configuration: it latches at the end of
the cycle with `MPC` cleared, and its first k-step may start at once, or behind its acquire. A form that the configuration does not fit
is `ILLEGAL`. In strict mode a multiply with neither acquire nor entries is `SCHEDULE-MISS` of its engine, but one that waits for an entry
of a fill that runs again after a restore waits (R200). The strict stop on missing entries is the model's reading (log 19). -/
def Obligations.MultipliesIssue : Prop :=
  ∀ (i : Instr) (op : Nat) (c : BitVec 4) (n : BitVec 12) (q l : BitVec 1) (st : BitVec 4) (s : State) (u : Nat) (v : Machine.Unit),
    multiplyWord i = some (op, c, n, q, l, st) → wellFormed i = true → Ready (matWord 0 true) s u 1 v →
    (v.shadow.accepts op = false → Faults i s u 1 v .illegal 0) ∧
    (v.shadow.accepts op = true → (s.region v.region).strict = true → q = 0 → v.available op = false → v.refilling op = false → n ≠ 0 →
      exec i s = .next ((s.setUnit u v).takeFault u .scheduleMiss .i 1 0 ⟨1, 0, 0, 0, 0, 0, 0⟩)) ∧
    (v.shadow.accepts op = true → ((s.region v.region).strict = false ∨ q = 1 ∨ v.available op = true ∨ v.refilling op = true ∨ n = 0) →
      ∃ m : Mult, m.op = op ∧ m.acc = c.toNat ∧ m.n = n.toNat ∧ m.d = v.divisor 1 ∧ m.cfg = v.shadow ∧ m.next = 0 ∧
        m.acq = decide (q = 1) ∧ m.rel = decide (l = 1) ∧ m.scope = st.toNat ∧
        m.startAt = (if q = 1 then nextIssue (v.divisor 1) (s.now v + v.lsc st.toNat) else s.now v) ∧
        Issues (matWord 0 true) .seq i s u 1 v
          (if q = 1 then ({ v with mult := some m }.later (s.now v) 1 (.latch v.shadow)).later (s.now v + v.lsc st.toNat - 1) 3 (.acquire st.toNat)
          else { v with mult := some m }.later (s.now v) 1 (.latch v.shadow)))

/-- R155, R156, R169, R170: `mset` words enter the write of a shadow field, to land at the end of the engine cycle, with the poison of a register
source; `mprog` lands the count of k-steps; `mwait` issues once no multiply runs, every k-step has landed and everything else of the engine
has. -/
def Obligations.MatrixSettingWordsIssue : Prop :=
  (∀ (i : Instr) (f : CfgField) (x : W32) (s : State) (u : Nat) (v : Machine.Unit), msetWord i = some (f, x) → wellFormed i = true →
    Ready (matWord 0 false) s u 1 v →
    Issues (matWord 0 false) .seq i s u 1 v (v.later (s.now v + v.divisor 1 - 1) 1 (.cfg f x false))) ∧
  (∀ (i : Instr) (f : CfgField) (a : BitVec 5) (g : W64 → W32) (s : State) (u : Nat) (v v1 : Machine.Unit) (x : Val),
    msetRegWord i = some (f, a, g) → wellFormed i = true → Ready (matWord 0 false) s u 1 v → ownPort 1 [a.toNat] = false →
    fetch 1 v [a.toNat] = .ok ([x], v1) →
    Issues (matWord 0 false) .seq i s u 1 v (v1.later (s.now v + v.divisor 1 - 1) 1 (.cfg f (g x.bits) x.poison))) ∧
  (∀ (d : BitVec 5) (s : State) (u : Nat) (v : Machine.Unit), wellFormed (.mprog d) = true → Ready (matWord 0 false) s u 1 v →
    ownPort 1 [d.toNat] = false → v.room 1 d.toNat = true →
    Issues (matWord 0 false) .seq (.mprog d) s u 1 v (v.landExt 1 d.toNat (s.now v + v.divisor 1 - 1) ⟨BitVec.ofNat 64 v.mpc, false⟩)) ∧
  (∀ (s : State) (u : Nat) (v : Machine.Unit), Ready (matWord 0 false) s u 1 v →
    (v.mult = none → v.ksteps = [] → v.mland ≤ s.now v → Issues (matWord 0 false) .seq .mwait s u 1 v v) ∧
    ((v.mult.isSome ∨ v.ksteps ≠ [] ∨ s.now v < v.mland) → exec .mwait s = .next ((s.setUnit u v).close u 1 1 (some 0x31))))

/-- R166, R167: `mclr` enters the clearing of a window; `macc.ld` the load of its 64 rows from an aligned image of 16 KiB; `macc.st` the writes of
its rows, each a cycle of the engine after the other; `macc.cvt` the conversion of the window times the scale into sixteen vector registers. That a
`macc.st` with a poisoned base or window counts as landed for `mwait` when its rows would have been (log 102), and that with a poisoned window it
neither waits for nor reserves bank ports (log 10), are the model's readings. -/
def Obligations.AccumulatorWordsIssue : Prop :=
  (∀ (c : BitVec 4) (s : State) (u : Nat) (v : Machine.Unit), wellFormed (.mclr c) = true → Ready (matWord 1 true) s u 1 v →
    Issues (matWord 1 true) .seq (.mclr c) s u 1 v ((v.later (s.now v + v.divisor 1 - 1) 1 (.mclr c.toNat)).landsBy (s.now v + v.divisor 1 - 1 + 1))) ∧
  (∀ (c : BitVec 4) (a : BitVec 5) (s : State) (u : Nat) (v v1 : Machine.Unit) (x : Val), wellFormed (.maccLd c a) = true →
    Ready (matWord 64 true) s u 1 v → ownPort 1 [a.toNat] = false → fetch 1 v [a.toNat] = .ok ([x], v1) →
    (x.poison = true → Issues (matWord 64 true) .seq (.maccLd c a) s u 1 v
      ((v1.later (s.now v + 68 * v.divisor 1 - 1) 1 (.accLoad c.toNat x.bits.toNat (s.now v) (v.divisor 1) true)).landsBy
        (s.now v + 68 * v.divisor 1 - 1 + 1))) ∧
    (x.poison = false → (x.bits.toNat % 256 ≠ 0 ∨ Config.unitStoreBytes < x.bits.toNat + 16384) → Faults (.maccLd c a) s u 1 v .access 0) ∧
    (x.poison = false → x.bits.toNat % 256 = 0 → x.bits.toNat + 16384 ≤ Config.unitStoreBytes →
      v1.banksFree (rowUse 0 (s.now v) (v.divisor 1) x.bits.toNat) = true →
      Issues (matWord 64 true) .seq (.maccLd c a) s u 1 v
        (((v1.reserve (rowUse 0 (s.now v) (v.divisor 1) x.bits.toNat)).later (s.now v + 68 * v.divisor 1 - 1) 1
          (.accLoad c.toNat x.bits.toNat (s.now v) (v.divisor 1) false)).landsBy (s.now v + 68 * v.divisor 1 - 1 + 1)))) ∧
  (∀ (c : BitVec 4) (a : BitVec 5) (s : State) (u : Nat) (v v1 : Machine.Unit) (x : Val), wellFormed (.maccSt c a) = true →
    Ready (matWord 64 true) s u 1 v → ownPort 1 [a.toNat] = false → fetch 1 v [a.toNat] = .ok ([x], v1) →
    (x.poison = true → Issues (matWord 64 true) .seq (.maccSt c a) s u 1 v
      ((v1.raise 1 (s.now v + 1) flagPS).landsBy (s.now v + 63 * v.divisor 1 + 2))) ∧
    (x.poison = false → (x.bits.toNat % 256 ≠ 0 ∨ Config.unitStoreBytes < x.bits.toNat + 16384) → Faults (.maccSt c a) s u 1 v .access 0) ∧
    (x.poison = false → x.bits.toNat % 256 = 0 → x.bits.toNat + 16384 ≤ Config.unitStoreBytes → (v.window c.toNat).poison = true →
      Issues (matWord 64 true) .seq (.maccSt c a) s u 1 v ((v1.raise 1 (s.now v + 1) flagPS).landsBy (s.now v + 63 * v.divisor 1 + 2))) ∧
    (x.poison = false → x.bits.toNat % 256 = 0 → x.bits.toNat + 16384 ≤ Config.unitStoreBytes → (v.window c.toNat).poison = false →
      v1.banksFree (rowUse 1 (s.now v) (v.divisor 1) x.bits.toNat) = true →
      ∃ seq rows, Issues (matWord 64 true) .seq (.maccSt c a) s u 1 v
        ({ v1.reserve (rowUse 1 (s.now v) (v.divisor 1) x.bits.toNat) with seq, pend := v1.pend ++ rows }.landsBy (s.now v + 63 * v.divisor 1 + 2)) ∧
        rows.map (fun p => (p.due, p.eff)) = ((pieces 64 64 (v.window c.toNat).el).zipIdx.map fun r =>
          (s.now v + r.2 * v.divisor 1 + 1,
            Eff.store 1 v1.seq (cellsAt (x.bits.toNat + 256 * r.2) (r.1.flatMap fun e => leBytes 4 e.toNat)))))) ∧
  (∀ (c : BitVec 4) (a : BitVec 5) (d : BitVec 6) (t : BitVec 4) (st : BitVec 1) (r : BitVec 2) (s : State) (u : Nat) (v v1 : Machine.Unit)
    (x : Val), wellFormed (.maccCvt c a d t st r) = true → Ready (matWord 16 true) s u 1 v → ownPort 1 [a.toNat] = false →
    fetch 1 v [a.toNat] = .ok ([x], v1) →
    ∃ seq regs flags, Issues (matWord 16 true) .seq (.maccCvt c a d t st r) s u 1 v
      ({ v1 with seq, pend := v1.pend ++ regs ++ flags }.landsBy (s.now v + 20 * v.divisor 1 - 1 + 1)) ∧
      (∀ p ∈ flags, ∃ f, p.eff = .flags 1 f) ∧
      regs.map (fun p => (p.due, p.eff)) = (pieces 256 16 ((v.window c.toNat).el.map fun e =>
          (writeSel (selOf (cvtCode t.toNat).1) (Rnd.ofBits r) (st == 1)
            (mulNum (if (cvtCode t.toNat).2 then numOfInt e.toInt else decodeNum f32 e.toNat) (decodeNum f32 (x.bits.toNat % 2 ^ 32))).1).1)).zipIdx.map
        fun p => (s.now v + 20 * v.divisor 1 - 1,
          Eff.lanes (d.toNat + p.2) (p.1.zipIdx.map fun e => (e.2, e.1)) ((v.window c.toNat).poison || x.poison) true 0 true))

/-- R175-R187, R193: a copy word whose channel has room and whose operands keep their limits issues and enters its command last in the channel,
under the next transfer ID, with its operand values and ordering; a poisoned operand enters a command that moves nothing, complete at once, and
raises PS; an operand that breaks a limit is `ACCESS`. Beyond the unit only table walks may start, which enter the queues of their memory channels. -/
def Obligations.CopyWordsIssue : Prop :=
  (∀ (i : Instr) (op : CopyOp) (h : BitVec 2) (srcs : List (BitVec 5)) (q l : BitVec 1) (st : BitVec 4) (s : State) (u : Nat)
    (v v1 : Machine.Unit) (d a b : Val) (x : Cmd),
    moveWord i = some (op, h, srcs, q, l, st) → wellFormed i = true → Ready (cpyWord (some h.toNat)) s u 3 v → v.chans.length = 4 →
    ownPort 3 (srcs.map (·.toNat)) = false → v.chFull h.toNat = false → fetch 3 v (srcs.map (·.toNat)) = .ok ([d, a, b], v1) →
    x = newCmd v1 op h.toNat (s.now v) d.bits a.bits b.bits → 
    (∀ x', x' = (if op = .cmov then x else { x with index := v1.indexList x.t x.idx x.count }) →
      ((x'.valuesOk u = false ∨ x'.spanOk = false) → Faults i s u 3 v .access 0) ∧
      (x'.valuesOk u = true → x'.spanOk = true → (d.poison || a.poison || b.poison) = true →
        ∃ y v2, Issues (cpyWord (some h.toNat)) .seq i s u 3 v v2 ∧ Entered v1 v2 h.toNat y (poisonEff (s.now v)) ∧ y.poison = true ∧
          y.compAt = some (s.now v)) ∧
      (x'.valuesOk u = true → x'.spanOk = true → (d.poison || a.poison || b.poison) = false → op ≠ .cmov → v1.badAt x.idx (4 * x.count) = true →
        ∃ y v2, Issues (cpyWord (some h.toNat)) .seq i s u 3 v v2 ∧
          Entered (v1.later (s.now v + 1) 1 (.probe x.idx (4 * x.count))) v2 h.toNat y (poisonEff (s.now v)) ∧ y.poison = true ∧
          y.compAt = some (s.now v)) ∧
      (x'.valuesOk u = true → x'.spanOk = true → (d.poison || a.poison || b.poison) = false →
        (op = .cmov ∨ v1.badAt x.idx (4 * x.count) = false) →
        ∃ y v2 walks queues, IssuesIn (cpyWord (some h.toNat)) .seq i s { s with walks, queues } u 3 (s.now v) v2 ∧
          Entered v1 v2 h.toNat y (acquireEff v1 (s.now v) (decide (q = 1)) st.toNat) ∧ y.op = op ∧ y.d = d.bits ∧ y.a = a.bits ∧ y.b = b.bits ∧ y.t = s.now v ∧ y.index = x'.index ∧ y.acq = decide (q = 1) ∧
          y.rel = decide (l = 1) ∧ y.scope = st.toNat ∧ y.next = 0 ∧ y.poison = false))) ∧
  (∀ (i : Instr) (isB : Bool) (h : BitVec 2) (f : BitVec 1) (fa fb : BitVec 5) (q l : BitVec 1) (st : BitVec 4) (s : State) (u : Nat)
    (v v1 : Machine.Unit) (a b : Val) (x : Cmd),
    fillWord i = some (isB, h, f, fa, fb, q, l, st) → wellFormed i = true → Ready (cpyWord (some h.toNat)) s u 3 v → v.chans.length = 4 →
    ownPort 3 [fa.toNat, fb.toNat] = false → v.chFull h.toNat = false → fetch 3 v [fa.toNat, fb.toNat] = .ok ([a, b], v1) →
    x = { newCmd v1 (if isB then .cfillB else .cfillA) h.toNat (s.now v) 0 a.bits b.bits with
      pattern := if f = 1 then some (v1.ch h.toNat).pattern else none } →
    ((x.valuesOk u = false ∨ x.spanOk = false ∨ ((s.setUnit u v).withPages u v1 x).groupsOk = false) → Faults i s u 3 v .access 0) ∧
    (x.valuesOk u = true → x.spanOk = true → ((s.setUnit u v).withPages u v1 x).groupsOk = true → (a.poison || b.poison) = true →
      ∃ y v2, Issues (cpyWord (some h.toNat)) .seq i s u 3 v v2 ∧ Entered v1 v2 h.toNat y (poisonEff (s.now v)) ∧ y.op = x.op ∧ y.poison = true ∧
        y.compAt = some (s.now v)) ∧
    (x.valuesOk u = true → x.spanOk = true → ((s.setUnit u v).withPages u v1 x).groupsOk = true → (a.poison || b.poison) = false →
      ∃ y v2 walks queues, IssuesIn (cpyWord (some h.toNat)) .seq i s { s with walks, queues } u 3 (s.now v) v2 ∧
        Entered v1 v2 h.toNat y (acquireEff v1 (s.now v) (decide (q = 1)) st.toNat) ∧
        y.op = x.op ∧ y.a = a.bits ∧ y.b = b.bits ∧ y.t = s.now v ∧ y.pattern = x.pattern ∧ y.acq = decide (q = 1) ∧ y.rel = decide (l = 1) ∧
        y.scope = st.toNat ∧ y.next = 0 ∧ y.poison = false))

/-- R194, R195: an atomic whose channel and result have room and whose operands keep their limits issues and enters its command under the next
transfer ID; its result goes where its word says. A poisoned operand moves nothing, and lands a poisoned value that nothing fixes and PS. -/
def Obligations.AtomicWordsIssue : Prop :=
  ∀ (i : Instr) (op : Nat) (h : BitVec 2) (d fa fb : BitVec 5) (q l : BitVec 1) (st : BitVec 4) (s : State) (u : Nat)
    (v v1 : Machine.Unit) (c a b : Val) (x : Cmd),
    atomicWord i = some (op, h, d, fa, fb, q, l, st) → wellFormed i = true → Ready (cpyWord (some h.toNat)) s u 3 v → v.chans.length = 4 →
    ownPort 3 [d.toNat, fa.toNat, fb.toNat] = false → v.chFull h.toNat = false →
    (if op = 12 then fetch 3 v [d.toNat, fa.toNat, fb.toNat] = .ok ([c, a, b], v1)
      else fetch 3 v [fa.toNat, fb.toNat] = .ok ([a, b], v1) ∧ c = ⟨0, false⟩) →
    x = newCmd v1 (.catom op) h.toNat (s.now v) c.bits a.bits b.bits → v1.room 3 d.toNat = true →
    ((x.valuesOk u = false ∨ x.spanOk = false) → Faults i s u 3 v .access 0) ∧
    (x.valuesOk u = true → x.spanOk = true → (c.poison || a.poison || b.poison) = true →
      ∃ y v2 z, IssuesIn (cpyWord (some h.toNat)) .seq i s { s with free := s.free + 1 } u 3 (s.now v) v2 ∧
        Entered ((v1.landExt 3 d.toNat (s.now v + v1.atomLat a.bits.toNat - 1) ⟨z, true⟩).raise 3 (s.now v + v1.atomLat a.bits.toNat - 1) flagPS)
          v2 h.toNat y [] ∧ y.poison = true ∧ y.compAt = some (s.now v + v1.atomLat a.bits.toNat - 1)) ∧
    (x.valuesOk u = true → x.spanOk = true → (c.poison || a.poison || b.poison) = false →
      ∃ y v2 walks queues, IssuesIn (cpyWord (some h.toNat)) .seq i s { s with walks, queues } u 3 (s.now v) v2 ∧
        Entered (if isPort d.toNat then v1.qReserve (outQueue 3 d.toNat) else v1) v2 h.toNat y
          (acquireEff v1 (s.now v) (decide (q = 1)) st.toNat) ∧
        y.op = .catom op ∧ y.d = c.bits ∧ y.a = a.bits ∧ y.b = b.bits ∧ y.t = s.now v ∧ y.acq = decide (q = 1) ∧ y.rel = decide (l = 1) ∧
        y.scope = st.toNat ∧ y.next = 0 ∧ y.poison = false ∧
        y.dest = some (if isPort d.toNat then .inr (outQueue 3 d.toNat) else .inl (physReg (v.wk 3).wp d.toNat)))

/-- R191, R196-R199: `cbfx` sets the channel's pattern; `cinv` removes the cached translations that overlap its range; `cmark` enters a mark under
the next transfer ID; `cxrd` and `cxwr` of a crossing of which the unit, for the crossing's kernel, is consumer or producer enter their command and
take the next sample number. A poisoned `cxrd` moves nothing, and a poisoned `cxwr` enters a marked sample of zeros; both raise PS. -/
def Obligations.OtherCopyWordsIssue : Prop :=
  (∀ (h : BitVec 2) (a : BitVec 5) (s : State) (u : Nat) (v v1 : Machine.Unit) (x : Val), wellFormed (.cbfx h a) = true →
    Ready (cpyWord none) s u 3 v → ownPort 3 [a.toNat] = false → fetch 3 v [a.toNat] = .ok ([x], v1) →
    (patternOk x.bits.toNat = false → Faults (.cbfx h a) s u 3 v .access 0) ∧
    (patternOk x.bits.toNat = true → x.poison = true → Issues (cpyWord none) .seq (.cbfx h a) s u 3 v (v1.raise 3 (s.now v + 1) flagPS)) ∧
    (patternOk x.bits.toNat = true → x.poison = false →
      Issues (cpyWord none) .seq (.cbfx h a) s u 3 v (v1.setCh h.toNat fun ch => { ch with pattern := x.bits }))) ∧
  (∀ (a b : BitVec 5) (s : State) (u : Nat) (v v1 : Machine.Unit) (x n : Val), wellFormed (.cinv a b) = true → Ready (cpyWord none) s u 3 v →
    ownPort 3 [a.toNat, b.toNat] = false → fetch 3 v [a.toNat, b.toNat] = .ok ([x, n], v1) →
    (x.bits.toNat / 2 ^ 48 ≠ 2 ^ 15 → Faults (.cinv a b) s u 3 v .access 0) ∧
    (x.bits.toNat / 2 ^ 48 = 2 ^ 15 → (x.poison || n.poison) = true → Issues (cpyWord none) .seq (.cinv a b) s u 3 v (v1.raise 3 (s.now v) flagPS)) ∧
    (x.bits.toNat / 2 ^ 48 = 2 ^ 15 → (x.poison || n.poison) = false →
      ∃ walks queues cache, IssuesIn (cpyWord none) .seq (.cinv a b) s { s with walks, queues } u 3 (s.now v) { v1 with cache } ∧
        (∀ e ∈ cache, e ∈ v.cache) ∧
        ∀ e ∈ v.cache, e ∈ cache ↔
          ¬ (0 < n.bits.toNat ∧ e.page.va < x.bits.toNat % 2 ^ 48 + n.bits.toNat ∧ x.bits.toNat % 2 ^ 48 < e.page.va + e.page.size))) ∧
  (∀ (h : BitVec 2) (a : BitVec 5) (s : State) (u : Nat) (v v1 : Machine.Unit) (x : Val), wellFormed (.cmark h a) = true →
    Ready (cpyWord (some h.toNat)) s u 3 v → v.chans.length = 4 → ownPort 3 [a.toNat] = false → v.chFull h.toNat = false →
    fetch 3 v [a.toNat] = .ok ([x], v1) →
    ∃ y v2, Issues (cpyWord (some h.toNat)) .seq (.cmark h a) s u 3 v v2 ∧
      Entered v1 v2 h.toNat y (if x.poison then poisonEff (s.now v) else []) ∧ y.op = .cmark ∧ y.a = x.bits ∧ y.poison = x.poison) ∧
  (∀ (h : BitVec 2) (d : BitVec 5) (n : BitVec 4) (s : State) (u : Nat) (v v1 : Machine.Unit) (x : Val) (xr : Crossing),
    Ready (cpyWord (some h.toNat)) s u 3 v → v.chans.length = 4 → ownPort 3 [d.toNat] = false → v.chFull h.toNat = false →
    fetch 3 v [d.toNat] = .ok ([x], v1) → find s.crossings (16 * dieOf u + n.toNat) = some xr → xr.armed = true →
    (wellFormed (.cxrd h d n) = true → xr.cons = u → xr.consK = v.kernel → x.poison = true →
      ({ newCmd v1 .cxrd h.toNat (s.now v) x.bits 0 0 with cross := 16 * dieOf u + n.toNat, sample := xr.rdN, z := xr.z }).valuesOk u = true →
      ({ newCmd v1 .cxrd h.toNat (s.now v) x.bits 0 0 with cross := 16 * dieOf u + n.toNat, sample := xr.rdN, z := xr.z }).spanOk = true →
      ∃ y v2, IssuesIn (cpyWord (some h.toNat)) .seq (.cxrd h d n) s
          { s with crossings := put s.crossings (16 * dieOf u + n.toNat) { xr with rdN := xr.rdN + 1 } } u 3 (s.now v) v2 ∧
        Entered v1 v2 h.toNat y (poisonEff (s.now v)) ∧ y.op = .cxrd ∧ y.poison = true ∧ y.sample = xr.rdN) ∧
    (wellFormed (.cxwr h d n) = true → xr.prod = u → xr.prodK = v.kernel → x.poison = true →
      ({ newCmd v1 .cxwr h.toNat (s.now v) x.bits 0 0 with cross := 16 * dieOf u + n.toNat, sample := xr.wrN, z := xr.z }).valuesOk u = true →
      ∃ y v2, IssuesIn (cpyWord (some h.toNat)) .seq (.cxwr h d n) s
          { s with crossings := put s.crossings (16 * dieOf u + n.toNat) { xr with
            wrN := xr.wrN + 1, inbox := xr.inbox ++ [(xr.wrN, s.now v + 1 + v1.lat.sd, List.replicate xr.z 0, true)] } } u 3 (s.now v) v2 ∧
        Entered v1 v2 h.toNat y (poisonEff (s.now v)) ∧ y.op = .cxwr ∧ y.poison = true ∧ y.sample = xr.wrN) ∧
    (wellFormed (.cxrd h d n) = true → xr.cons = u → xr.consK = v.kernel → x.poison = false →
      ({ newCmd v1 .cxrd h.toNat (s.now v) x.bits 0 0 with cross := 16 * dieOf u + n.toNat, sample := xr.rdN, z := xr.z }).valuesOk u = true →
      ({ newCmd v1 .cxrd h.toNat (s.now v) x.bits 0 0 with cross := 16 * dieOf u + n.toNat, sample := xr.rdN, z := xr.z }).spanOk = true →
      ∃ y v2 walks queues, IssuesIn (cpyWord (some h.toNat)) .seq (.cxrd h d n) s
          { s with walks, queues, crossings := put s.crossings (16 * dieOf u + n.toNat) { xr with rdN := xr.rdN + 1 } } u 3 (s.now v) v2 ∧
        Entered v1 v2 h.toNat y [] ∧ y.op = .cxrd ∧ y.d = x.bits ∧ y.cross = 16 * dieOf u + n.toNat ∧ y.sample = xr.rdN ∧ y.z = xr.z) ∧
    (wellFormed (.cxwr h d n) = true → xr.prod = u → xr.prodK = v.kernel → x.poison = false →
      ({ newCmd v1 .cxwr h.toNat (s.now v) x.bits 0 0 with cross := 16 * dieOf u + n.toNat, sample := xr.wrN, z := xr.z }).valuesOk u = true →
      ({ newCmd v1 .cxwr h.toNat (s.now v) x.bits 0 0 with cross := 16 * dieOf u + n.toNat, sample := xr.wrN, z := xr.z }).spanOk = true →
      ∃ y v2 walks queues, IssuesIn (cpyWord (some h.toNat)) .seq (.cxwr h d n) s
          { s with walks, queues, crossings := put s.crossings (16 * dieOf u + n.toNat) { xr with wrN := xr.wrN + 1 } } u 3 (s.now v) v2 ∧
        Entered v1 v2 h.toNat y [] ∧ y.op = .cxwr ∧ y.d = x.bits ∧ y.cross = 16 * dieOf u + n.toNat ∧ y.sample = xr.wrN ∧ y.z = xr.z))

/-- R203-R207, R300: `csrr` of a listed register lands what the register reads as; `csrw` of a writable register with a clean value within the
register's limits writes it at the end of the cycle; a register that may not be written, or a value outside its limits, is `ILLEGAL`, and a
poisoned value only raises PS. -/
def Obligations.SystemRegisterWordsIssue : Prop :=
  (∀ (d : BitVec 5) (r : BitVec 13) (s : State) (u : Nat) (v : Machine.Unit), Ready sysWord s u 0 v → ownPort 0 [d.toNat] = false →
    (csrListed r.toNat = false → Faults (.csrr d r) s u 0 v .illegal 0) ∧
    (csrListed r.toNat = true → isPort d.toNat = false →
      Issues sysWord .seq (.csrr d r) s u 0 v
        (v.later (s.now v) 1 (.x 0 (physReg (v.wk 0).wp d.toNat) ⟨(s.setUnit u v).csrRead u v r.toNat, false⟩))) ∧
    (csrListed r.toNat = true → isPort d.toNat = true → v.full 0 = false → v.room 0 d.toNat = true →
      Issues sysWord .seq (.csrr d r) s u 0 v (v.landReg 0 d.toNat (s.now v) 1 ⟨(s.setUnit u v).csrRead u v r.toNat, false⟩))) ∧
  (∀ (a : BitVec 5) (r : BitVec 13) (s : State) (u : Nat) (v v1 : Machine.Unit) (x : Val), Ready sysWord s u 0 v →
    ownPort 0 [a.toNat] = false → fetch 0 v [a.toNat] = .ok ([x], v1) → wellFormed (.csrw a r) = true →
    (csrWritable r.toNat = false → Faults (.csrw a r) s u 0 v .illegal 0) ∧
    (csrWritable r.toNat = true → (r.toNat < 0x40 → (r.toNat % 16 = 4 ∨ r.toNat % 16 = 5) → (v.wk (r.toNat / 16)).spilln = 0) →
      (x.poison = true → Issues sysWord .seq (.csrw a r) s u 0 v (v1.raise 0 (s.now v) flagPS)) ∧
      (x.poison = false → v.csrOk r.toNat x.bits = false → Faults (.csrw a r) s u 0 v .illegal 0) ∧
      (x.poison = false → v.csrOk r.toNat x.bits = true →
        Issues sysWord .seq (.csrw a r) s u 0 v (v1.later (s.now v) 3 (.csr r.toNat x.bits)))))

/-- R208, R209: outside every loop a `trap` with the vector enabled and no trap in progress saves the next index and its code at the end of the
cycle and goes to the vector; without a vector, or within a trap, it is the fault `TRAP` with its code. `eret` within a trap ends it and goes
to the saved index. -/
def Obligations.TrapAndReturn : Prop :=
  (∀ (c : BitVec 13) (s : State) (u : Nat) (v : Machine.Unit), Ready sysWord s u 0 v →
    ((v.wk 0).inner.isSome → Faults (.trap c) s u 0 v .illegal 0) ∧
    ((v.wk 0).inner = none → (v.tvec.getLsbD 63 = false ∨ v.tstat.getLsbD 16 = true) → Faults (.trap c) s u 0 v .trap c.toNat) ∧
    ((v.wk 0).inner = none → v.tvec.getLsbD 63 = true → v.tstat.getLsbD 16 = false →
      Issues sysWord (.jump (v.tvec.toNat % 65536) 3) (.trap c) s u 0 v (v.later (s.now v) 3 (.trapIn ((v.wk 0).idx + 1) c.toNat)))) ∧
  (∀ (s : State) (u : Nat) (v : Machine.Unit), Ready sysWord s u 0 v →
    ((v.tstat.getLsbD 16 = false ∨ (v.wk 0).inner.isSome ∨ 65536 ≤ (v.wk 0).epc.toNat % 2 ^ 17) → Faults .eret s u 0 v .illegal 0) ∧
    (v.tstat.getLsbD 16 = true → (v.wk 0).inner = none → (v.wk 0).epc.toNat % 2 ^ 17 < 65536 →
      Issues sysWord (.jump ((v.wk 0).epc.toNat % 2 ^ 17) 3) .eret s u 0 v (v.later (s.now v) 3 .trapOut)))

/-- R210, R211, R215-R217: `clkdiv` sets the next divisor of its walker's clock; `hint` changes at most the mark of the unit's generator; `yield`
takes the pre-emption stop where a request has reached the unit before and no level is active, and does nothing otherwise; `halt` issues in a
quiescent unit, which binds off once its release at `pattern` scope completes. -/
def Obligations.UnitControlWordsIssue : Prop :=
  (∀ (e : BitVec 2) (n : BitVec 4) (s : State) (u : Nat) (v : Machine.Unit), wellFormed (.clkdiv e n) = true → Ready sysWord s u 0 v →
    Issues sysWord .seq (.clkdiv e n) s u 0 v { v with divNext := v.divNext.set (e.toNat + 1) (n.toNat + 1) }) ∧
  (∀ (k : BitVec 2) (s : State) (u : Nat) (v : Machine.Unit), wellFormed (.hint k) = true → Ready sysWord s u 0 v →
    ∃ gens, IssuesIn sysWord .seq (.hint k) s { s with gens } u 0 (s.now v) v ∧
      gens.map (fun g => (g.1, { g.2 with hinted := false })) = s.gens.map (fun g => (g.1, { g.2 with hinted := false })) ∧ (k = 0 → gens = s.gens)) ∧
  (∀ (s : State) (u : Nat) (v : Machine.Unit), Ready sysWord s u 0 v →
    ((∃ c, v.request = some c ∧ c < s.now v) → (∀ w ∈ v.walkers, w.inner = none) →
      Issues sysWord .seq .yield s u 0 v { v with yieldAt := some (s.now v) }) ∧
    ((∀ c, v.request = some c → s.now v ≤ c) ∨ (∃ w ∈ v.walkers, w.inner.isSome) → Issues sysWord .seq .yield s u 0 v v)) ∧
  (∀ (s : State) (u : Nat) (v : Machine.Unit), Ready sysWord s u 0 v →
    ((v.wk 0).inner.isSome → Faults .halt s u 0 v .illegal 0) ∧
    ((v.wk 0).inner = none → v.quiescent (s.now v) = true →
      Issues sysWord .seq .halt s u 0 v { v with haltAt := some (s.now v + max 1 (v.lat.lsc.getD 7 1)) }) ∧
    ((v.wk 0).inner = none → v.quiescent (s.now v) = false → exec .halt s = .next ((s.setUnit u v).close u 0 1 (some 0x32))))

/-- R55, R274-R276, R281, R282: a fault of a running unit stops it in the current cycle: `CAUSE` records it, each `EPC` takes the word
at which its walker stands, and registers, store, accumulators and vector registers stay; a unit that stopped in an earlier cycle keeps
its first fault; under policy 1 its region is to stop in the next cycle; only the partner of a unit of a pair stops with it. `bkpt` has
completed when it stops its unit: its information is the word's code, and `sw` then stands behind the word (R212). A word that spells no
instruction, or one whose fields break a limit, is `ILLEGAL` in each walker that executes it. That it waits for the engine of its space first (log 11),
and WSET and WALKER of an imprecise fault (log 21), are the model's readings. -/
def Obligations.FaultsStop : Prop :=
  (∀ (s : State) (u k info : Nat) (c : Cause) (cls : FaultClass) (d : Detail) (un : Machine.Unit), s.unit? u = some un → un.run = .running →
    un.stop = none →
    ∃ un' st, (s.takeFault u c cls k info d).unit? u = some un' ∧ un'.run = .stopped ∧
      un'.cause = causeImage c (if cls = .u then 0 else k) (if cls = .u then 0 else 2 ^ k) info ∧ un'.stop = some st ∧ st.cycle = s.now un ∧
      st.cls = cls ∧ st.addr = d.addr ∧ st.wrote = false ∧ un'.store = un.store ∧ un'.v = un.v ∧ un'.acc = un.acc ∧ un'.steers = un.steers ∧
      (∀ j, j < un.walkers.length → (un'.wk j).epc = BitVec.ofNat 64 (un.wk j).idx ∧ (un'.wk j).idx = (un.wk j).idx ∧ (un'.wk j).x = (un.wk j).x ∧
        (un'.wk j).flags = (un.wk j).flags ∧ (un'.wk j).inner = (un.wk j).inner) ∧
      (∀ v, v ≠ u → (v ≠ partner u ∨ s.isPaired un = false) → (s.takeFault u c cls k info d).unit? v = s.unit? v) ∧
      (c ≠ .watch → c ≠ .bkpt → (s.rcbOf un).map (·.policy) = some 1 → un.region < s.regions.length → (s.region un.region).stopAt = none →
        ((s.takeFault u c cls k info d).region un.region).stopAt = some ((s.region un.region).rcc + 1)) ∧
      (s.takeFault u c cls k info d).dram = s.dram) ∧
  (∀ (s : State) (u k info : Nat) (c : Cause) (cls : FaultClass) (d : Detail) (un : Machine.Unit) (st : Stop), s.unit? u = some un →
    un.run = .stopped → un.stop = some st → st.cycle ≠ s.now un → s.takeFault u c cls k info d = s) ∧
  (∀ (c : BitVec 13) (s : State) (u : Nat) (v : Machine.Unit), Ready sysWord s u 0 v → v.run = .running → v.stop = none →
    (v.wk 0).inner = none →
    ∃ t un', exec (.bkpt c) s = .next t ∧ t.unit? u = some un' ∧ un'.run = .stopped ∧
      un'.cause = causeImage .bkpt 0 1 c.toNat ∧ (un'.wk 0).idx = (v.wk 0).idx + 1 ∧ (un'.wk 0).epc = BitVec.ofNat 64 (v.wk 0).idx ∧
      un'.store = v.store ∧ ∀ j, (un'.wk j).x = (v.wk j).x) ∧
  (∀ (raw l0 l1 : Nat) (s : State) (u k : Nat) (v : Machine.Unit), Ready (rawInfo raw) s u k v →
    (∀ i, decodeNat raw l0 l1 = .ok i → wellFormed i = false → v.vfree ≤ s.now v → v.mfree ≤ s.now v → v.mult = none →
      Faults i s u k v .illegal 0) ∧
    (∀ e, decodeNat raw l0 l1 = .error e → v.busy (s.now v) (undecodedInfo raw) = false →
      undecoded raw s = (s.setUnit u v).takeFault u .illegal .p k 0 Detail.walker) ∧
    (∀ e, decodeNat raw l0 l1 = .error e → v.busy (s.now v) (undecodedInfo raw) = true →
      undecoded raw s = (s.setUnit u v).close u k (v.heldClass (undecodedInfo raw)).1 (v.heldClass (undecodedInfo raw)).2))

/-- R213, R234, R330: a `trig` whose descriptor lies in the unit store, keeps its limits and whose bank port is free issues and arms its trigger
with the descriptor's words from the next cycle, or leaves it unarmed where START is of kind 0; a device virtual ADDR is translated first, from the
Lx-th cycle on, which the model leaves out for kind 0 alone (log 114). The other triggers are as they were, and so
are the other units but for the channels that a match of the trigger's last arming holds. A descriptor in error arms nothing. -/
def Obligations.TrigIssues : Prop :=
  ∀ (a : BitVec 5) (n : BitVec 4) (s : State) (u : Nat) (v v1 : Machine.Unit) (x : Val) (start stop addr mode : W64),
    Ready sysWord s u 0 v → ownPort 0 [a.toNat] = false → fetch 0 v [a.toNat] = .ok ([x], v1) → v.trigs.length = 16 →
    (x.poison = true → Issues sysWord .seq (.trig a n) s u 0 v (v1.raise 0 (s.now v) flagPS)) ∧
    (x.poison = false → (x.bits.toNat % 32 ≠ 0 ∨ Config.unitStoreBytes ≤ x.bits.toNat) → Faults (.trig a n) s u 0 v .access 0) ∧
    (x.poison = false → x.bits.toNat % 32 = 0 → x.bits.toNat < Config.unitStoreBytes →
      v1.banksFree [(s.now v + 1, 0, x.bits.toNat / 64)] = true →
      [start, stop, addr, mode] = (List.range 4).map (fun i => BitVec.ofNat 64 (leNat ((List.range 8).map fun b =>
        (v.storeNow (s.now v)).readBy (seesLoad (s.now v)) (x.bits.toNat + 8 * i + b)))) →
      v.badAt x.bits.toNat 32 = false →
      condOk start = true → condOk stop = true → mode.toNat < 2 ^ 21 → mode.toNat / 2 ^ 19 % 4 ≠ 3 →
      (trigAddrOk u addr.toNat = false → Faults (.trig a n) s u 0 v .access 0) ∧
      (trigAddrOk u addr.toNat = true →
        ∃ g un', g.armed = decide (start.toNat % 16 ≠ 0) ∧ g.isOpen = false ∧ g.fired = false ∧ g.start = start ∧ g.stop = stop ∧ g.addr = addr ∧
          g.mode = mode ∧
          (∀ va, copyPlace u addr.toNat = some (.dva va) → start.toNat % 16 ≠ 0 →
            g.xlAt = some (s.now v + v.lat.lx) ∧ g.from_ = s.now v + v.lat.lx + 1) ∧
          (((∀ va, copyPlace u addr.toNat ≠ some (.dva va)) ∨ start.toNat % 16 = 0) → g.xlAt = none ∧ g.from_ = s.now v + 1) ∧
          Passed sysWord .seq (s.now v) 0 { v1.reserve [(s.now v + 1, 0, x.bits.toNat / 64)] with trigs := v.trigs.set n.toNat g } un' ∧
          exec (.trig a n) s = .next (({ s with free := s.free + 1 }.setUnit u un').keepHolds fun w => w.1 != u || w.2.1 != n.toNat))) ∧
    (x.poison = false → x.bits.toNat % 32 = 0 → x.bits.toNat < Config.unitStoreBytes →
      v1.banksFree [(s.now v + 1, 0, x.bits.toNat / 64)] = true → v.badAt x.bits.toNat 32 = true →
      Issues sysWord .seq (.trig a n) s u 0 v
        ((v1.reserve [(s.now v + 1, 0, x.bits.toNat / 64)]).later (s.now v + 1) 1 (.probe x.bits.toNat 32)))

/-- R216-R221, R223: a `ctxs` or `ctxl` waits until the unit is quiescent; outside every loop, with the device virtual address of a 64 KiB block, it
then freezes the unit and starts the transfer of its context there: a save takes the record of the unit as it then stands, `sw` past the
word, with the region's cycle and sample. An address of another kind is `ACCESS`, and a poisoned one raises PS. -/
def Obligations.ContextWordsFreeze : Prop :=
  ∀ (load : Bool) (i : Instr) (a : BitVec 5) (s : State) (u : Nat) (v v1 : Machine.Unit) (x : Val),
    i = (if load then .ctxl a else .ctxs a) → Ready sysWord s u 0 v → ownPort 0 [a.toNat] = false → fetch 0 v [a.toNat] = .ok ([x], v1) →
    (v.quiescent (s.now v) = false → exec i s = .next ((s.setUnit u v).close u 0 1 (some 0x32))) ∧
    (v.quiescent (s.now v) = true → (∀ w ∈ v.walkers, w.inner = none) →
      (x.poison = true → ∃ un', Passed sysWord .seq (s.now v) 0 (v1.raise 0 (s.now v) flagPS) un' ∧
        exec i s = .next (s.setUnit u (un'.setWk 0 fun w => { w with slot := .done 0 (some 0x32) }))) ∧
      (x.poison = false → (x.bits.toNat / 2 ^ 48 ≠ 2 ^ 15 ∨ x.bits.toNat % 65536 ≠ 0) → v.run = .running → v.stop = none →
        ∃ t un', exec i s = .next t ∧ t.unit? u = some un' ∧ un'.run = .stopped ∧ un'.cause = causeImage .access 0 1 0 ∧ un'.store = v.store ∧
          ∀ j, (un'.wk j).x = (v.wk j).x ∧ (un'.wk j).idx = (v.wk j).idx) ∧
      (x.poison = false → x.bits.toNat / 2 ^ 48 = 2 ^ 15 → x.bits.toNat % 65536 = 0 →
        ∃ t un' c, exec i s = .next t ∧ t.unit? u = some un' ∧ un'.run = .frozen ∧ un'.ctx = some c ∧ c.load = load ∧ c.t = s.now v ∧
          c.va = x.bits.toNat % 2 ^ 48 ∧ (un'.wk 0).slot = .done 0 (some 0x32) ∧ un'.store = v.store ∧ (∀ j, (un'.wk j).x = (v.wk j).x ∧ (un'.wk j).idx = (v.wk j).idx) ∧
          (∀ j, j ≠ u → t.unit? j = s.unit? j) ∧ t.dram = s.dram ∧
          (load = false → c.image = s.record u (un'.setWk 0 fun w => w.cross (s.now v) w.idx sysWord) 0 0
            ((s.region v.region).rcc, (s.region v.region).rscReg))))

/-- R10-R12, R20, R24-R26, R87, R103, R126, R206: the first of the results due lands. A register takes the value and its poison, except `x0`, which discards it; a
queue gains an entry and has one result fewer on its way; a load takes the bytes that it reads, extended as its form says, to a register or a queue; a
refill restores the registers, poison bits and return index of its window; a `csrw` leaves its value in its register and every other
register as it reads; flags gather, and `pclr` clears PS alone. Nothing else of the unit changes but that the result is in flight no more. A message
whose queue is full tries again in the next cycle (log 13). -/
def Obligations.ResultsLand : Prop :=
  ∀ (s : State) (u : Nat) (un v : Machine.Unit) (p : Pend), s.unit? u = some un → un.loadUe (s.now un) = none →
    un.nextLanding (s.now un) = some p → v = un.unlist p →
    (∀ k r x, p.eff = .x k r x →
      exec (.resultLand u) s = .next (s.setUnit u (v.setWk k fun w => if r = 0 then w else { w with x := w.x.set r x }))) ∧
    (∀ k r x, p.eff = .ext k r x →
      exec (.resultLand u) s = .next (s.setUnit u (v.setWk k fun w =>
        { w with x := if r = 0 then w.x else w.x.set r x, extLast := (256 * s.now un + r) :: w.extLast }))) ∧
    (∀ q x e, p.eff = .push q x e → (e = false ∨ (v.queue q).1.length < 8) →
      exec (.resultLand u) s = .next (s.setUnit u { v with queues := modify v.queues q fun e => (e.1 ++ [x], e.2 - 1) })) ∧
    (∀ q x, p.eff = .push q x true → 8 ≤ (v.queue q).1.length →
      exec (.resultLand u) s = .next (s.setUnit u (v.enter (q / 4) (s.now un + 1) (.push q x true)))) ∧
    (∀ k r a n c sg, p.eff = .load k r none a n sg c → n = 1 ∨ n = 2 ∨ n = 4 ∨ n = 8 → v.badAt a n = false →
      ∃ b : Int, exec (.resultLand u) s = .next (s.setUnit u (v.setWk k fun w => w.setReg r ⟨BitVec.ofInt 64 b, false⟩)) ∧
        b % 2 ^ (8 * n) = leNat (v.loadBytes c a n) ∧ (sg = false → 0 ≤ b ∧ b < 2 ^ (8 * n)) ∧
        (sg = true → -2 ^ (8 * n - 1) ≤ b ∧ b < 2 ^ (8 * n - 1))) ∧
    (∀ k r q a n c sg, p.eff = .load k r (some q) a n sg c → n = 1 ∨ n = 2 ∨ n = 4 ∨ n = 8 →
      ∃ b : Int, exec (.resultLand u) s = .next (s.setUnit u { v with
          queues := modify v.queues q fun e => (e.1 ++ [⟨BitVec.ofInt 64 b, v.badAt a n⟩], e.2 - 1) }) ∧
        b % 2 ^ (8 * n) = leNat (v.loadBytes c a n) ∧ (sg = false → 0 ≤ b ∧ b < 2 ^ (8 * n)) ∧
        (sg = true → -2 ^ (8 * n - 1) ≤ b ∧ b < 2 ^ (8 * n - 1))) ∧
    (∀ k win a c, p.eff = .refill k win a c → k < v.walkers.length → (v.wk k).x.length = 144 → (v.wk k).ras.length = 8 → win < 8 →
      ∃ x' ras', exec (.resultLand u) s = .next (s.setUnit u (v.setWk k fun w => { w with x := x', ras := ras' })) ∧
        (∀ j, j < 16 → x'[16 + 16 * win + j]? =
          some ⟨BitVec.ofNat 64 (leNat (v.loadBytes c (a + 8 * j) 8)), (leNat (v.loadBytes c (a + 136) 2)).testBit j || v.badAt (a + 8 * j) 8⟩) ∧
        (∀ r, (r < 16 + 16 * win ∨ 32 + 16 * win ≤ r) → x'[r]? = (v.wk k).x[r]?) ∧
        ras'[win]? = some (leNat (v.loadBytes c (a + 128) 8)) ∧ ∀ r, r ≠ win → ras'[r]? = (v.wk k).ras[r]?) ∧
    (∀ r x, p.eff = .csr r x → csrWritable r = true → v.walkers.length = 4 → (∀ w ∈ v.walkers, w.head.length = 4) → v.flagCnt.length = 256 →
      ∃ un', exec (.resultLand u) s = .next (s.setUnit u un') ∧ s.csrRead u un' r = x ∧
        (∀ q, q ≠ r → csrListed q = true → s.csrRead u un' q = s.csrRead u v q) ∧
        un' = { v with
          walkers := un'.walkers, cause := un'.cause, slipw := un'.slipw, ftv := un'.ftv, late := un'.late, tvec := un'.tvec, tstat := un'.tstat
          flagCnt := un'.flagCnt } ∧
        ∀ k, un'.wk k = { v.wk k with
          flags := (un'.wk k).flags, epc := (un'.wk k).epc, spillb := (un'.wk k).spillb, spilll := (un'.wk k).spilll, head := (un'.wk k).head }) ∧
    (∀ k f, p.eff = .flags k f → ∃ un', exec (.resultLand u) s = .next (s.setUnit u un') ∧
      un' = { v.setWk k fun w => { w with flags := w.flags ||| f } with trigs := un'.trigs }) ∧
    (∀ k, p.eff = .pclr k → exec (.resultLand u) s = .next (s.setUnit u (v.setWk k fun w => { w with flags := w.flags &&& ~~~flagPS })))

/-- R89, R90: a walker's store that lands writes exactly its bytes: every other address of the unit store reads as before, to every reader, and
where every write so far was performed in an earlier cycle its own addresses read as stored. It replaces words in error that it touches (R234). -/
def Obligations.StoresArePerformed : Prop :=
  ∀ (s : State) (u : Nat) (un v : Machine.Unit) (p : Pend) (k key a : Nat) (bs : List Byte), s.unit? u = some un →
    un.loadUe (s.now un) = none → un.nextLanding (s.now un) = some p → v = un.unlist p → p.eff = .store k key (cellsAt a bs) →
    ∃ un', exec (.resultLand u) s = .next (s.setUnit u un') ∧ un' = { v with store := un'.store, badWords := un'.badWords } ∧
      (∀ sees x, (x < a ∨ a + bs.length ≤ x) → un'.store.readBy sees x = v.store.readBy sees x) ∧
      ((∀ w ∈ v.store.log, w.at_ < s.now un) → ∀ j, j < bs.length → un'.store.read (a + j) = bs.getD j 0) ∧
      (∀ w, w ∈ un'.badWords ↔ w ∈ v.badWords ∧ ∀ j, j < bs.length → (a + j) / 8 ≠ w)

/-- R14, R91, R111, R120, R128, R145, R148, R156, R159, R166, R208, R209: what lands in the state that a unit's walkers share: a steer write takes the
next number and stands first in the history, its missing half copied from the latest entry; lanes that are written or loaded change and the others stay;
constant entries take their words, or poison; an `mset` writes its field of the shadow configuration alone; the configuration latches; a window
clears, or takes its image; an acquire sets the unit's snapshot, which keeps what the earlier one held and which the commands that waited for it take;
`TSTAT` and `EPC` enter and leave a trap. -/
def Obligations.SharedResultsLand : Prop :=
  ∀ (s : State) (u : Nat) (un v : Machine.Unit) (p : Pend), s.unit? u = some un → un.loadUe (s.now un) = none →
    un.nextLanding (s.now un) = some p → v = un.unlist p →
    (∀ (w : SteerWrite) (st : Steer), p.eff = .steer w → v.steers[w.reg]? = some st → w.seq = none → w.squashed = false → w.inBody = false →
      w.tag = [] → (∀ e ∈ st.hist, seqBelow e.seq ((st.count + 1) % 65536) = true) →
      ∃ e, exec (.resultLand u) s = .next (s.setUnit u { v with
          steers := v.steers.set w.reg { hist := (e :: st.hist).take 4, count := (st.count + 1) % 65536 } }) ∧
        e.seq = (st.count + 1) % 65536 ∧ e.word = w.word ∧ e.wk = w.wk ∧
        (∀ c, w.c = some c → e.c = c.1 ∧ e.pc = c.2) ∧ (∀ t, w.t = some t → e.t = t.1 ∧ e.pt = t.2 ∧ e.tv = true) ∧
        (∀ l ∈ st.hist.head?, (w.c = none → e.c = l.c ∧ e.pc = l.pc) ∧ (w.t = none → e.t = l.t ∧ e.pt = l.pt ∧ e.tv = l.tv)) ∧
        (st.hist = [] → (w.c = none → e.c = false ∧ e.pc = false) ∧ (w.t = none → e.tv = false))) ∧
    (∀ reg ls poison all r, p.eff = .lanes reg ls poison all 0 false → v.v[reg]? = some r → r.lanes.length = 256 →
      (ls.map (·.1)).Nodup → (∀ e ∈ ls, e.1 < 256) →
      ∃ r', exec (.resultLand u) s = .next (s.setUnit u { v with v := v.v.set reg r' }) ∧
        (∀ e ∈ ls, r'.lanes.getD e.1 0 = e.2) ∧ (∀ l, l ∉ ls.map (·.1) → r'.lanes.getD l 0 = r.lanes.getD l 0) ∧
        r'.poison = (poison || (!all && r.poison))) ∧
    (∀ reg ls all r, p.eff = .vload reg ls all → v.v[reg]? = some r → r.lanes.length = 256 → (ls.map (·.1)).Nodup → (∀ e ∈ ls, e.1 < 256) →
      ∃ r', exec (.resultLand u) s = .next (s.setUnit u { v with v := v.v.set reg r' }) ∧
        (∀ l a c n, n = 1 ∨ n = 2 ∨ n = 4 → (l, a, n, c) ∈ ls → r'.lanes.getD l 0 = BitVec.ofNat 32 (leNat (v.loadBytes c a n))) ∧
        (∀ l a c, (l, a, 0, c) ∈ ls → r'.lanes.getD l 0 = BitVec.ofNat 32 (leNat (v.loadBytes c a 1) % 16)) ∧
        (∀ l a c, (l, a, 8, c) ∈ ls → r'.lanes.getD l 0 = BitVec.ofNat 32 (leNat (v.loadBytes c a 1) / 16)) ∧
        (∀ l, l ∉ ls.map (·.1) → r'.lanes.getD l 0 = r.lanes.getD l 0) ∧
        r'.poison = ((ls.any fun e => v.badAt e.2.1 1) || (!all && r.poison))) ∧
    (∀ f n a c, p.eff = .kload f n a c → f + n ≤ v.k.length → ∃ k', exec (.resultLand u) s = .next (s.setUnit u { v with k := k' }) ∧
      (∀ i, i < n → k'[f + i]? = some (BitVec.ofNat 32 (leNat (v.loadBytes c (a + 4 * i) 4)), v.badAt (a + 4 * i) 4)) ∧
      ∀ i, (i < f ∨ f + n ≤ i) → k'[i]? = v.k[i]?) ∧
    (∀ f n b, p.eff = .kset f n b → f + n ≤ v.k.length →
      ∃ k', exec (.resultLand u) s = .next ({ s with free := s.free + n }.setUnit u { v with k := k' }) ∧
        (∀ i, i < n → (k'[f + i]?).map (·.2) = some b) ∧ ∀ i, (i < f ∨ f + n ≤ i) → k'[i]? = v.k[i]?) ∧
    (∀ f x b, p.eff = .cfg f x b → ∃ c', exec (.resultLand u) s = .next (s.setUnit u { v with shadow := c' }) ∧
      (f = .fmt → c' = { v.shadow with fmt := x }) ∧ (f = .shape → c' = { v.shadow with shape := x }) ∧
      (f = .scale → c' = { v.shadow with scale := x, scalePs := b }) ∧ (f = .zp → c' = { v.shadow with zp := x, zpPs := b }) ∧
      (f = .sparse → c' = { v.shadow with sparse := decide (x = 1) })) ∧
    (∀ c a t d b, p.eff = .accLoad c a t d b → ∃ acc' n, exec (.resultLand u) s = .next ({ s with free := s.free + n }.setUnit u { v with acc := acc' }) ∧
      (∀ w, w ≠ c → acc'[w]? = v.acc[w]?) ∧ ∀ x, acc'[c]? = some x → x.el.length = 4096 ∧ (b = true → x.poison = true) ∧
        (b = false → n = 0 ∧ x.poison = v.badAt a 16384 ∧ ∀ i j, i < 64 → j < 64 →
          x.el.getD (64 * i + j) 0 = BitVec.ofNat 32 (leNat (v.loadBytes (t + i * d) (a + 256 * i + 4 * j) 4)))) ∧
    (∀ sc, p.eff = .acquire sc → ∃ t un', exec (.resultLand u) s = .next t ∧ t.unit? u = some un' ∧ un'.snap.scope = sc ∧
      un'.snap.bar = 0 ∧ un'.snap.num = ((s.region un.region).cycleTime (s.now un + 1)).num ∧
      un'.snap.den = ((s.region un.region).cycleTime (s.now un + 1)).den ∧ un'.snap.base = v.snap.base ∧
      (∀ w ∈ s.writes, w.id ∈ v.snap.held → v.snap.base ≤ w.id → w.id ∈ un'.snap.held) ∧
      un'.unplaced = Unit.unplaced { v with snap := un'.snap, chans := un'.chans } ∧
      (∀ c x, x ∈ (v.ch c).cmds → x.acq = true → x.scope = sc → x.snap = none → x.t + max 1 (v.lat.lsc.getD sc 1) ≤ s.now un + 1 →
        { x with snap := some un'.snap } ∈ (un'.ch c).cmds) ∧
      s.keepsUnits t [u] ∧ ∀ a, t.dram.read a = s.dram.read a) ∧
    (∀ c, p.eff = .latch c → exec (.resultLand u) s = .next (s.setUnit u { v with active := c, mpc := 0 })) ∧
    (∀ a n, p.eff = .probe a n → exec (.resultLand u) s = .next (s.setUnit u v)) ∧
    (∀ c, p.eff = .mclr c → ∃ acc', exec (.resultLand u) s = .next (s.setUnit u { v with acc := acc' }) ∧
      (∀ w, w ≠ c → acc'[w]? = v.acc[w]?) ∧ ∀ x, acc'[c]? = some x → x.poison = false ∧ x.el.length = 4096 ∧ ∀ y ∈ x.el, y = 0) ∧
    (∀ epc code, p.eff = .trapIn epc code → exec (.resultLand u) s = .next (s.setUnit u
      { v.setWk 0 fun w => { w with epc := BitVec.ofNat 64 epc } with tstat := BitVec.ofNat 64 (2 ^ 16 + code) })) ∧
    (p.eff = .trapOut → exec (.resultLand u) s = .next (s.setUnit u { v with tstat := v.tstat &&& 0x1FFF }))

/-- R108-R110, R114: a word of a stage that is not live is squashed: it goes past, holds its engine as the live word would, a multiply from its acquire to its
release, and enters the steer entry of R111. A pass of a walker's inner level starts with the pass number in the loop's register, unless a write from
outside landed there in the cycle before, or `x0` is named. From a stop point on the level drains at the pass that it starts first: it runs what has
started, and with none of that left goes back to its `loop` word, from which it resumes; a request that meets the start sets the stop point. What
`LC` reads between passes, when tags close, and that what a squashed release covers is complete by then, are the model's readings (logs 35, 36, 116). -/
def Obligations.LoopPassesStart : Prop :=
  (∀ (i : Instr) (f : WordInfo) (s : State) (u k : Nat) (v : Machine.Unit), plainInfo i = some f → Dead f s u k v → Squashes f i s u k v) ∧
  ∀ (s : State) (u k n : Nat) (un : Machine.Unit) (l : Level), s.unit? u = some un → k < 4 → un.walkers.length = 4 → (un.wk k).slot = .walking n →
    (un.wk k).inner = some l → l.started = false → (un.wk k).ready ≤ (un.wk k).ic → (un.wk k).stopped = false → un.run = .running →
    ((∀ c, un.p0 = some c → s.now un < c) → (∀ c, un.request = some c → s.now un < c) →
      exec (.loopPassStart u k) s = .next (s.setUnit u (un.setWk k fun w =>
        { w with
          inner := some { l with started := true, began := w.ic, after := w.ic }
          x := if l.reg = 0 ∨ w.extLast.contains (256 * (s.now un - 1) + l.reg) then w.x else w.x.set l.reg ⟨BitVec.ofNat 64 l.pass, false⟩ }))) ∧
    (∀ c pd, un.p0 = some c → c ≤ s.now un → pd = l.drain.getD l.pass → (l.trip ≤ pd ∨ { l with drain := some pd }.runs l.pass = true) →
      exec (.loopPassStart u k) s = .next (s.setUnit u (un.setWk k fun w =>
        { w with
          inner := some { l with drain := some pd, started := true, began := w.ic, after := w.ic }
          x := if l.reg = 0 ∨ w.extLast.contains (256 * (s.now un - 1) + l.reg) then w.x else w.x.set l.reg ⟨BitVec.ofNat 64 l.pass, false⟩ }))) ∧
    (∀ c pd, un.p0 = some c → c ≤ s.now un → pd = l.drain.getD l.pass → pd < l.trip → { l with drain := some pd }.runs l.pass = false →
      ∃ un', exec (.loopPassStart u k) s = .next (s.setUnit u un') ∧ (un'.wk k).idx = l.word ∧ (un'.wk k).stopped = true ∧
        (un'.wk k).inner = some { l with from_ := pd, pass := pd, started := false, drain := none } ∧
        (un'.wk k).x = (un.wk k).x ∧ ∀ j, j ≠ k → un'.wk j = un.wk j) ∧
    (∀ c pd, un.p0 = none → un.request = some c → c ≤ s.now un → pd = l.drain.getD l.pass → ∃ t un', exec (.loopPassStart u k) s = .next t ∧
      t.unit? u = some un' ∧ un'.p0 = some (s.now un) ∧
      (∀ j, j < 4 → j ≠ k → un'.wk j = if (un.wk j).inner = none then { un.wk j with stopped := true } else un.wk j) ∧
      ((l.trip ≤ pd ∨ { l with drain := some pd }.runs l.pass = true) →
        (un'.wk k).inner = some { l with drain := some pd, started := true, began := (un.wk k).ic, after := (un.wk k).ic }) ∧
      (pd < l.trip → { l with drain := some pd }.runs l.pass = false → (un'.wk k).idx = l.word ∧ (un'.wk k).stopped = true ∧
        (un'.wk k).inner = some { l with from_ := pd, pass := pd, started := false, drain := none }) ∧
      ∀ v, v ≠ u → (v ≠ partner u ∨ s.isPaired un = false) → t.unit? v = s.unit? v)

/-- R118, R120-R124: a `phase` whose boundary completes lets its walkers go, with the release of what it covers and the acquire of its
scope; a barrier's instance completes for every participant at once, Lsc after the last arrival and the last write that they cover; each
unit is let go `BAROFF` cycles later, with its acquire; and a message reaches the lowest-numbered walker that stands at its `recvc`, on its way to the
register or queue there. How a message comes to a full queue (log 13) and the order of boundaries between regions (log 103), in which
a place is drawn for each, are the model's readings. -/
def Obligations.BoundariesComplete : Prop :=
  (∀ (s : State) (u k b : Nat) (un : Machine.Unit) (p : PhaseState), s.unit? u = some un → p ∈ un.phases → k ∈ p.held → p.done = false →
    p.at_ = some b → un.settled p.cover = true → max b p.cover.last + un.lsc p.scope ≤ s.now un → (∀ q ∈ un.phases, k ∈ q.held → q = p) →
    ∃ t un', exec (.phaseComplete u k) s = .next t ∧ t.unit? u = some un' ∧
      un'.unplaced = Unit.unplaced { un.setWk k fun w => { w with held := false } with phases := un'.phases, snap := un'.snap } ∧
      un'.snap.scope = p.scope ∧ un'.snap.bar = 0 ∧ un'.snap.num = ((s.region un.region).cycleTime (s.now un)).num ∧
      un'.snap.den = ((s.region un.region).cycleTime (s.now un)).den ∧ (∀ q ∈ un'.phases, k ∉ q.held) ∧ s.keepsUnits t [u] ∧
      (∀ a, t.dram.read a = s.dram.read a) ∧
      ∀ w ∈ s.dram.log, w.coveredBy (s.agentOf u un) p.cover = true → ∃ w' ∈ t.dram.log, w'.id = w.id ∧ w'.cells = w.cells ∧
        ∃ r ∈ w'.rels, r.scope = p.scope ∧ r.who = s.agentOf u un) ∧
  (∀ (s : State) (b t : Nat) (got : List (Nat × Arrival)), got ≠ [] →
    (∀ g ∈ got, ∃ w, s.unit? g.1 = some w ∧ (w.bars.filter fun a => a.id == b && a.tb.isNone) = [g.2] ∧ s.barrierDone g.1 w g.2 = some (t, got) ∧
      t ≤ s.now w) →
    (∀ v w a, s.unit? v = some w → a ∈ w.bars → a.id = b → a.tb = none → (v, a) ∈ got) →
    ∃ s', exec (.barrierComplete b) s = .next s' ∧ ∀ g ∈ got, ∃ w w', s.unit? g.1 = some w ∧ s'.unit? g.1 = some w' ∧
      w'.unplaced = Unit.unplaced { w with
        bars := w.bars.map fun q => if q.id == b && q.inst == g.2.inst && q.tb.isNone then { q with tb := some t } else q }) ∧
  (∀ (s : State) (u t : Nat) (un : Machine.Unit) (a : Arrival), s.unit? u = some un →
    (un.bars.find? fun a => !a.released && (match a.tb with | some t => decide (t + un.baroff ≤ s.now un) | none => false)) = some a → a.tb = some t →
    ∃ s' un', exec (.barrierRelease u) s = .next s' ∧ s'.unit? u = some un' ∧
      un'.unplaced = Unit.unplaced { un with bars := un'.bars, snap := un'.snap } ∧ un'.snap.scope = a.scope ∧ un'.snap.bar = a.number ∧
      (∀ q ∈ un'.bars, q.id = a.id → q.inst = a.inst → q.released = true) ∧ t + un.baroff ≤ s.now un ∧ s.keepsUnits s' [u] ∧
      ∀ a, s'.dram.read a = s.dram.read a) ∧
  (∀ (s s1 : State) (u v k d : Nat) (un snd : Machine.Unit) (x : Msg), s.unit? v = some snd → clusterOf v = clusterOf u →
    (snd.outbox.filter fun x => x.dst == u && decide (x.arrive ≤ s.now snd)) = [x] →
    (∀ w un, s.unit? w = some un → w ≠ v → clusterOf w = clusterOf u → ∀ y ∈ un.outbox, y.dst = u → s.now un < y.arrive) →
    s1 = s.setUnit v { snd with outbox := snd.outbox.filter fun y => !(y.dst == u && decide (y.arrive ≤ s.now snd)) } → s1.unit? u = some un →
    un.region = snd.region → un.run = .running → k < 4 → un.receives k (inCluster v) = some d → (∀ j < k, un.receives j (inCluster v) = none) →
    (un.room k d = true →
      exec (.messageArrival u) s = .next (s1.setUnit u ((un.landExt k d (s.now snd) x.v).setWk k fun w => { w with matched := true }))) ∧
    (un.room k d = false → exec (.messageArrival u) s = .next (s1.setUnit u
      (((un.qReserve (outQueue k d)).enter k (s.now snd) (.push (outQueue k d) x.v true)).setWk k fun w => { w with matched := true }))))

/-- R154, R159, R168: the next k-step of the running multiply starts in its cycle where its entries have landed, consumes the oldest of
them, ends 32 engine cycles later, when `MPC` counts it, and adds its products to the window 40 engine cycles after its start (48 for a
pair's); only that window changes. Where a k-step lacks entries the stop is the model's reading (log 19). -/
def Obligations.KStepsRun : Prop :=
  (∀ (s : State) (u : Nat) (un : Machine.Unit) (m : Mult), s.unit? u = some un → un.unmatched (s.now un) = none → un.mult = some m →
    m.next < m.n → m.startAt ≤ s.now un → m.waiting = false → un.run = .running → (s.region un.region).openCyc = true → un.available m.op = true →
    ∃ t un', exec (.kStepStart u) s = .next t ∧ t.unit? u = some un' ∧ un'.ska = un.ska.drop 1 ∧ un'.skb = un.skb.drop (bEntries m.op) ∧
      un'.mult = some { m with next := m.next + 1, startAt := s.now un + 32 * m.d, freeAt := s.now un + 32 * m.d, resumed := false } ∧
      un'.acc = un.acc ∧ un'.mpc = un.mpc ∧
      ∃ k ∈ un'.ksteps, k.op = m.op ∧ k.acc = m.acc ∧ k.j = m.next ∧ k.cfg = m.cfg ∧ k.a = un.ska.take 1 ∧ k.b = un.skb.take (bEntries m.op) ∧
        k.start = s.now un ∧ k.endAt + 1 = s.now un + 32 * m.d ∧ k.landAt + 1 = s.now un + (if m.op = 12 then 48 else 40) * m.d ∧
        k.ended = false) ∧
  (∀ (s : State) (u : Nat) (un : Machine.Unit) (k : KStep), s.unit? u = some un →
    (un.ksteps.find? fun k => !k.ended && decide (k.endAt ≤ s.now un)) = some k →
    ∃ un', exec (.kStepEnd u) s = .next (s.setUnit u un') ∧ un' = { un with mpc := k.j + 1, ksteps := un'.ksteps, mult := un'.mult } ∧
      (∀ m, un.mult = some m → un'.mult = if m.seq = k.seq ∧ m.n ≤ k.j + 1 ∧ m.rel = false then none else some m) ∧
      ∀ q ∈ un'.ksteps, q.seq = k.seq → q.j = k.j → q.ended = true) ∧
  (∀ (s : State) (u : Nat) (un : Machine.Unit) (k : KStep), s.unit? u = some un → un.kLanding (s.now un) = some k →
    ∃ un', exec (.kStepLand u) s = .next (s.setUnit u un') ∧
      un' = { un with acc := un'.acc, ksteps := un'.ksteps, pend := un'.pend, seq := un'.seq, mult := un'.mult } ∧
      (k.acc < un.acc.length → un'.acc[k.acc]? = some (k.land (un.window k.acc)).1) ∧ (∀ c, c ≠ k.acc → un'.acc[c]? = un.acc[c]?) ∧
      ∀ q ∈ un'.ksteps, ¬(q.seq = k.seq ∧ q.j = k.j))

/-- R182, R242, R243: the translation of a copy command ends in its cycle: the command may then issue its beats, or its failure is an
imprecise fault of `cw` with the address. A table walk that ends enters its page into the cache of the unit that asked, ready in the
next cycle. The cycle of a failure on a miss and the order of the walks are the model's readings (logs 22, 24). -/
def Obligations.TranslationsEnd : Prop :=
  (∀ (s : State) (u c : Nat) (un : Machine.Unit) (x : Cmd), s.unit? u = some un →
    ((un.ch c).cmds.find? fun x => x.xlAt == some (s.now un)) = some x →
    (c ≠ 0 ∨ un.ctx = none ∧ ∀ g ∈ un.trigs, g.xlAt ≠ some (s.now un)) →
    (x.xlFault = none → exec (.translationStep u c) s = .next (s.setUnit u (un.setCmd c x.tid fun y => { y with xlAt := none }))) ∧
    (∀ cause a, x.xlFault = some (cause, a) → c ≠ 0 → exec (.translationStep u c) s =
      .next ((s.setUnit u (un.setCmd c x.tid fun y => { y with xlAt := none })).takeFault u cause .i 3 0 ⟨3, c, 0, x.tid, 0, BitVec.ofNat 64 a, 0⟩))) ∧
  (∀ (s : State) (c : Nat) (w : Walk) (un : Machine.Unit) (page : Page), s.unit? w.unit = some un →
    (s.walks.filter fun w => w.1 == c && (match s.unit? w.2.unit with | some un => decide (w.2.ends ≤ s.now un) | none => true)) = [(c, w)] →
    (s.walk un.part w.va).2 = some page → un.cache.length < 512 →
    (w.resident = false → ∀ e ∈ un.cache, e.page.va = page.va → e.page.size = page.size → e.resident = false) →
    ∃ t un', exec (.tableWalkComplete c) s = .next t ∧ t = { s with walks := s.walks.filter fun v => v != (c, w) }.setUnit w.unit un' ∧
      un' = { un with cache := un'.cache, seq := un.seq + 1 } ∧
      (∃ e ∈ un'.cache, e.page = page ∧ e.resident = w.resident ∧ e.ready = w.ends + 1) ∧
      ∀ e ∈ un.cache, (e.page.va ≠ page.va ∨ e.page.size ≠ page.size) → e ∈ un'.cache) ∧
  (∀ (s : State) (u : Nat) (w : Nat × Walk) (un : Machine.Unit) (page : Page), s.unit? u = some un →
    (s.walks.find? fun w => w.2.unit == u && w.2.resident && decide (w.2.ends ≤ s.now un)) = some w → (s.walk un.part w.2.va).2 = some page →
    un.cache.length < 512 →
    ∃ un', exec (.residentRewalk u) s = .next ({ s with walks := s.walks.filter fun v => v != w }.setUnit u un') ∧
      un' = { un with cache := un'.cache, seq := un.seq + 1 } ∧ ∃ e ∈ un'.cache, e.page = page ∧ e.resident = true ∧ e.ready = w.2.ends + 1)

/-- R179, R180: in an issue cycle of the engine a channel's next beat issues where its command may issue and both its paths and its bank ports are
free: it takes the next number and its data is promised at the end of its read latency. -/
def Obligations.BeatsIssue : Prop :=
  ∀ (s : State) (u c : Nat) (un : Machine.Unit) (x : Cmd) (p : Plan), s.unit? u = some un → c < un.chans.length → un.run = .running →
    s.stage ≠ stageFault →
    (s.region un.region).openCyc = true → isIssue (un.divisor 3) (s.now un) = true → un.ctx = none → (un.ch c).current = some x → x.chan = c →
    x.from_ ≤ s.now un → x.xlFault = none → (un.ch c).held (s.now un) x = false → (s.region un.region).steps = 0 → x.op ≠ .cfillA → x.op ≠ .cfillB →
    p = x.plan u x.next → un.fits (s.now un) p = true → un.banksFree (p.banks (s.now un) (un.readyAt u (s.now un) p)) = true →
    (∀ t, (s.tryBeat u c) = .issued t → (t.tryBeat u c) = .stop) →
    ∃ t un' b, exec (.copyBeatIssue u c) s = .next t ∧ t.unit? u = some un' ∧ un'.beats = un.beats ++ [b] ∧ b.chan = c ∧ b.tid = x.tid ∧
      b.k = x.next ∧ b.u = s.now un ∧ b.plan = p ∧ b.readAt = un.readyAt u (s.now un) p ∧ b.got = false ∧ b.performed = false ∧
      (∀ j, j ≠ u → t.unit? j = s.unit? j) ∧ un'.store = un.store ∧ (∀ k, un'.wk k = un.wk k) ∧ t.dram = s.dram ∧ t.clusters = s.clusters ∧
      t.dies = s.dies ∧ t.host = s.host

/-- R180, R183, R184, R234: a beat takes the bytes that it reads at its promised cycle, as the writes up to two cycles before its issue
leave them; its write then lands those bytes and no others; a beat whose data is late or in error writes nothing, raises PS for walker
3, and is counted in `LATE` when its data comes. When late data comes is a free choice of the model (log 25), and in which cycle an
error is raised its reading (log 28). -/
def Obligations.BeatsMoveBytes : Prop :=
  (∀ (s : State) (u : Nat) (un : Machine.Unit) (b : Beat) (q : Piece), s.unit? u = some un → s.ueDue u un = none → un.samplingDue (s.now un) = [] →
    (un.beats.filter fun b => b.plain && !b.got && !b.late && !b.unanswered && decide (b.readAt ≤ s.now un)) = [b] →
    (∀ b' ∈ un.beats, b'.order = b.order → b' = b) → b.plan.reads = [q] → q.space = .unit → b.plan.shape = .raw → q.n = b.plan.n →
    un.badAt q.addr q.n = false → b.ue = false →
    exec (.copyReadDataReady u) s = .next (s.setUnit u (un.setBeat b.order fun b =>
      { b with got := true, ue := false, data := (List.range q.n).map fun i => un.store.readBy (fun w => decide (w.at_ + 2 ≤ b.u)) (q.addr + i) }))) ∧
  (∀ (s : State) (u : Nat) (un : Machine.Unit) (b : Beat) (q : Piece), s.unit? u = some un → un.writesDue (s.now un) = [b] →
    b.plan.sink = .mem q → q.space = .unit → b.watch = [] →
    (b.late = false → b.ue = false → ∃ un', exec (.copyWritePerform u) s = .next (s.setUnit u un') ∧
      un' = { un with store := un'.store, badWords := un'.badWords, beats := un'.beats, ska := un'.ska, skb := un'.skb } ∧
      (∀ sees x, (x < q.addr ∨ q.addr + b.data.length ≤ x) → un'.store.readBy sees x = un.store.readBy sees x) ∧
      ((∀ w ∈ un.store.log, w.at_ < s.now un) → ∀ j, j < b.data.length → un'.store.read (q.addr + j) = b.data.getD j 0)) ∧
    (b.late = true ∨ b.ue = true → s.holdsOwned → ∃ un', exec (.copyWritePerform u) s = .next (s.setUnit u un') ∧
      un' = { un.later (s.now un) 4 (.flags 3 flagPS) with beats := un'.beats, ska := un'.ska, skb := un'.skb })) ∧
  (∀ (s : State) (u : Nat) (un : Machine.Unit), s.unit? u = some un →
    exec (.offcoreWriteComplete u) s = .next (s.setUnit u { un with
      beats := un.beats.filter fun b => !(b.performed && b.lateAt.isNone && decide (b.doneAt ≤ s.now un) && b.isOffWrite u) })) ∧
  (∀ (s : State) (u : Nat) (un : Machine.Unit) (b : Beat), s.unit? u = some un →
    (un.beats.filter fun b => b.plain && !b.got && (b.late || b.unanswered) && decide (b.readAt ≤ s.now un)) = [b] →
    (∀ b' ∈ un.beats, b'.order = b.order → b' = b) →
    ∃ c, b.readAt < c ∧ exec (.lateDataPoison u) s = .next ({ s with free := s.free + 1 }.setUnit u (un.setBeat b.order fun b =>
      { b with got := true, late := true, data := List.replicate b.plan.n 0, lateAt := some c }))) ∧
  (∀ (s : State) (u : Nat) (un : Machine.Unit), s.unit? u = some un → ∃ beats, exec (.lateDataArrival u) s = .next (s.setUnit u { un with
      late := un.late + BitVec.ofNat 64 (un.beats.countP fun b => match b.lateAt with | some c => decide (c ≤ s.now un) | none => false), beats }) ∧
    ∀ b ∈ beats, ∀ c, b.lateAt = some c → s.now un < c)

/-- R70, R184, R194, R195, R198: an atomic on a cluster store leaves there the new value that its operation gives and hands back the old one, which lands
in its register as a write from outside with the flags of the operation; of a late one that has been performed poison that nothing fixes lands, with
the same flags and PS; a command without a release is complete once its last beat is done, and the watermark passes
it; and a producer's sample enters its crossing in turn. -/
def Obligations.AtomicsAndCompletion : Prop :=
  (∀ (s : State) (u c new fl : Nat) (un : Machine.Unit) (b : Beat) (q : Piece) (x : Cmd), s.unit? u = some un →
    (un.beats.filter fun b => !b.plain && !b.performed && decide (b.performAt ≤ s.now un)) = [b] → b.plan.sink = .atomic q → q.space = .cluster c →
    un.cmdOf b = some x → s.badIn (.cluster c) q.addr q.n = false →
    atomNew x.atomOp (leNat ((s.storeOf (.cluster c)).bytes q.addr q.n)) x.d x.b = (some new, fl) →
    (∀ w ∈ (s.storeOf (.cluster c)).log, w.at_ < s.now un) →
    ∃ t, exec (.atomicPerform u) s = .next t ∧
      (∀ a, (a < q.addr ∨ q.addr + q.n ≤ a) → (t.storeOf (.cluster c)).read a = (s.storeOf (.cluster c)).read a) ∧
      (∀ j, j < q.n → (t.storeOf (.cluster c)).read (q.addr + j) = BitVec.ofNat 8 (new / 256 ^ j)) ∧
      (∃ un', t.unit? u = some un' ∧ ∀ b' ∈ un'.beats, b'.order = b.order →
        b'.performed = true ∧ b'.data = (s.storeOf (.cluster c)).bytes q.addr q.n ∧ b'.flags = fl) ∧ t.dram = s.dram ∧ t.host = s.host) ∧
  (∀ (s : State) (u r : Nat) (un : Machine.Unit) (b : Beat) (q : Piece) (x : Cmd), s.unit? u = some un →
    (un.beats.filter fun b => !b.plain && (b.performed || b.late) && !b.got && decide (b.readAt ≤ s.now un)) = [b] → b.plan.sink = .atomic q →
    (∀ p, q.space ≠ .remote p) → un.cmdOf b = some x → x.dest = some (.inl r) → b.performed = true → b.ue = false →
    (b.late = false → ∃ un', exec (.atomicResultLand u) s = .next ({ s with free := s.free + 1 }.setUnit u un') ∧
      un' = { (un.later (s.now un) 2 (.ext 3 r ⟨BitVec.ofNat 64 (leNat (b.data.take q.n)), false⟩)).raise 3 (s.now un) (flagBits b.flags) with
        beats := un'.beats }) ∧
    (b.late = true → ∃ un' z, exec (.atomicResultLand u) s = .next ({ s with free := s.free + 2 }.setUnit u un') ∧
      un' = { (un.later (s.now un) 2 (.ext 3 r ⟨z, true⟩)).raise 3 (s.now un) (flagPS ||| flagBits b.flags) with beats := un'.beats })) ∧
  (∀ (s : State) (u c : Nat) (un : Machine.Unit) (x : Cmd), s.unit? u = some un → c < un.chans.length → (un.ch c).cmds = [x] → x.chan = c →
    x.complete = false → x.compAt = none → x.poison = false → x.beats ≤ x.next → x.rel = false → x.xlFault = none → x.op = .cmov → x.doneAt ≤ s.now un →
    ∃ t un', exec (.copyCommandComplete u) s = .next t ∧ t.unit? u = some un' ∧ (un'.ch c).cmds = [] ∧ (un'.ch c).wm = (un.ch c).tid) ∧
  (∀ (s : State) (d x n c : Nat) (un : Machine.Unit) (xr : Crossing) (bs : List Byte) (p : Bool), find s.crossings (16 * d + x) = some xr →
    s.unit? xr.prod = some un → un.kernel = xr.prodK → (xr.inbox.find? fun e => e.1 == xr.entered && decide (e.2.1 ≤ s.now un)) = some (n, c, bs, p) →
    ∃ t xr', exec (.crossingSampleEnter d x) s = .next t ∧ find t.crossings (16 * d + x) = some xr' ∧ xr'.entered = xr.entered + 1 ∧
      (∃ e ∈ xr'.hist, e.n = n ∧ e.bytes = bs ∧ e.poison = p) ∧ xr'.hist.length ≤ 64)

/-- R217, R220, R221, R264: a context save that has ended stands in memory and its unit runs on; a load whose header is valid makes the
unit what the record says, its registers and their poison among it, counts itself in `CTXN`, and the unit runs on; one whose header is
not valid is `ACCESS`. A unit that has halted, its release complete, is taken off its kernel, which retires with its last unit. Each block moves in
a cycle of its own and block 0 of a save last, the cycle of each write being free within the bounds of R184, by the model's reading (log 29). -/
def Obligations.ContextsAndBindOff : Prop :=
  (∀ (s : State) (u : Nat) (un : Machine.Unit) (c : Ctx), s.unit? u = some un → un.ctx = some c → c.load = false → un.run = .frozen →
    c.endAt ≤ s.now un → c.xlAt = none → c.ue = false → s.strikes un c 0 = false → (∀ j, (un.wk j).settled) →
    ∃ t un', exec (.ctxsComplete u) s = .next t ∧ t.unit? u = some un' ∧ un'.run = .running ∧ un'.ctx = none ∧ un'.store = un.store ∧
      (∀ j, (un'.wk j).x = (un.wk j).x) ∧ (∀ v, v ≠ u → t.unit? v = s.unit? v) ∧ t.dram = (s.writeBlocks u c [0] c.image).dram ∧
      ((c.piece 0 64).space = .dram → s.newest u un → t.holdsBlock c 0 c.image)) ∧
  (∀ (s : State) (u k : Nat) (un : Machine.Unit) (c : Ctx), s.unit? u = some un → un.ctx = some c → c.load = false → un.run = .frozen →
    s.stage ≠ stageFault → c.xlAt = none → c.checkAt = none → c.writesAt 1 (un.divisor 3) (s.now un) = [k] → (c.piece (64 * k) 64).space = .dram →
    s.newest u un →
    ∃ t, exec (.copyBeatIssue u 0) s = .next t ∧ t.holdsBlock c k c.image ∧
      t.unit? u = some { un with ctx := some { c with ue := c.ue || s.strikes un c k } }) ∧
  (∀ (s : State) (u a : Nat) (un : Machine.Unit) (c : Ctx), s.unit? u = some un → un.ctx = some c → c.load = true → un.run = .frozen →
    c.xlAt = none → c.checkAt = some a → a ≤ s.now un →
    (headerOk (s.readBlocks u un c [0]).1 = true → ∃ t un', exec (.ctxlComplete u) s = .next t ∧ t.unit? u = some un' ∧ un'.run = .frozen ∧
      un'.ctx = some { c with checkAt := none, image := (s.readBlocks u un c [0]).1.bytes, bad := (s.readBlocks u un c [0]).1.bad } ∧
      un'.walkers = un.walkers ∧ un'.store = un.store) ∧
    (headerOk (s.readBlocks u un c [0]).1 = false → exec (.ctxlComplete u) s = .next ((s.readBlocks u un c [0]).2.takeFault u .access .p 0 0
      ⟨0, 0, 0, 0, 0, BitVec.ofNat 64 (2 ^ 63 + c.va), 0⟩))) ∧
  (∀ (s : State) (u : Nat) (un : Machine.Unit) (c : Ctx) (m : Img), s.unit? u = some un → un.ctx = some c → c.load = true → un.run = .frozen →
    c.xlAt = none → c.checkAt = none → c.endAt ≤ s.now un → c.bad = [] → m = ⟨c.image, []⟩ → m.get 6 1 = 0 →
    (∀ j, ((m.load un 0).wk j).settled) →
    ∃ t un', exec (.ctxlComplete u) s = .next t ∧ t.unit? u = some un' ∧ un'.run = .running ∧ un'.ctx = none ∧
      un'.ctxn = un.ctxn + 1 ∧ un'.late = un.late ∧ un'.trigs = un.trigs ∧ un'.cause = BitVec.ofNat 64 (m.get 0x5300 8) ∧
      ∀ k i, k < 4 → 0 < i → i < 16 → (un'.wk k).reg i =
        ⟨BitVec.ofNat 64 (m.get (0x100 + 0x1000 * k + 0x400 + 8 * i) 8), m.bit (0x100 + 0x1000 * k + 0x480) (128 + i)⟩) ∧
  (∀ (s : State) (u c : Nat) (un : Machine.Unit) (ker : Kernel), s.unit? u = some un → un.haltAt = some c → c ≤ s.now un →
    s.kernels[un.kernel]? = some ker →
    ∃ t ker', exec (.bindOff u) s = .next t ∧ t.unit? u = none ∧ (s.keepHolds fun w => w.1 != u).keepsUnits t [u] ∧
      t.kernels[un.kernel]? = some ker' ∧ ker'.live = ker.live.filter (· != u) ∧
      (ker'.live = [] → ker.state = .running → ker.parked = [] → ker'.state = .retiring ∧
        ker'.relAt = some (((s.region un.region).cycleTime (s.now un)).add ((s.region un.region).period.scale (un.lsc 7)))) ∧
      (ker'.live = [] → ker.state = .running → ker.parked ≠ [] → ker'.state = .preempted) ∧ (ker'.live ≠ [] → ker'.state = ker.state))

/-- R173, R277-R280, R284: once the engines of a stopped unit have made what they had begun, its composite record is written, each block in its
own time after its beat and block 0 last; the record complete, the handler is called. A write of 1 to ACTION runs the unit on 2 µs later, with its
registers as they stood, from the next cycle on; a write of 2 discards what is pending and binds the unit off 2 µs and a `pattern`
latency after the write. The engines' time after the stop, an early resume and the handler's turn are the model's readings (logs 38,
49, 50, 80). -/
def Obligations.RecordsAndActions : Prop :=
  (∀ (s : State) (u : Nat) (un : Machine.Unit) (st : Stop) (ps : List Page), s.unit? u = some un → un.run = .stopped → un.stop = some st →
    st.wrote = false → (s.region un.region).openCyc = true → st.cycle < s.now un → un.made (s.now un) = true → s.recordPages un = some ps →
    0 < un.ctxLat u ps →
    ∃ (t : State) (st' : Stop) (snd cyc : Nat → Nat) (end_ : Nat) (inst : Nat → Frac), exec (.compositeRecordWrite u) s = .next t ∧
      t.unit? u = some { un with stop := some st' } ∧ st'.wrote = true ∧ st'.complete = st.complete ∧ st'.cycle = st.cycle ∧
      st'.image = s.composite u un st ∧ st'.blocks = (List.range 255).map (· + 1) ∧ (∀ v, v ≠ u → t.unit? v = s.unit? v) ∧
      (∀ c, inst c = ((s.region un.region).cycleTime st.cycle).add ((Frac.ofNat (c - st.cycle)).div (s.region un.region).f0)) ∧
      (∀ k, 1 ≤ k → k < 256 → s.now un + un.lat.lx ≤ snd k ∧ snd k ≤ snd 0 ∧ snd k < cyc k ∧ cyc k < end_) ∧ snd 0 < end_ ∧
      st'.recNs = some ((inst end_).num, (inst end_).den) ∧
      t.timers = s.timers ++ (((List.range 255).map (· + 1) ++ [0]).map fun k => (inst (snd k), Due.send u k)) ++
        ((List.range 255).map fun k => (inst (cyc (k + 1)), Due.block u (k + 1))) ++ [(inst end_, .event (.compositeRecordComplete u))]) ∧
  (∀ (s : State) (u k : Nat) (un : Machine.Unit) (st : Stop) (ps : List Page), s.unit? u = some un → un.stop = some st → s.recordPages un = some ps →
    st.complete = false → ((Ctx.place (s.recordVa un) ps).piece (64 * k) 64).space = .dram →
    ∃ queues, s.sendRecordBlock u k = { s with queues, free := s.free + 1 }) ∧
  (∀ (s : State) (u k : Nat) (un : Machine.Unit) (st : Stop) (ps : List Page), s.unit? u = some un → un.stop = some st → s.recordPages un = some ps →
    k ∈ st.blocks → ((Ctx.place (s.recordVa un) ps).piece (64 * k) 64).space = .dram → s.newest u un →
    (s.writeRecordBlocks u [k]).holdsBlock (Ctx.place (s.recordVa un) ps) k st.image ∧
    (s.writeRecordBlocks u [k]).unit? u = some { un with stop := some { st with blocks := st.blocks.filter (· != k) } }) ∧
  (∀ (s : State) (u : Nat) (un : Machine.Unit) (st : Stop) (ps : List Page), s.unit? u = some un → un.stop = some st → s.recordPages un = some ps →
    st.wrote = true → st.complete = false → st.recNs.isSome →
    ∃ t : State, exec (.compositeRecordComplete u) s = .next (t.callHandler un.region ((s.kernels[un.kernel]?.map (·.rcb)).getD 0)) ∧
      t.unit? u = some { un with stop := some { st with complete := true, blocks := [], image := [] } } ∧ (∀ v, v ≠ u → t.unit? v = s.unit? v) ∧
      (((Ctx.place (s.recordVa un) ps).piece 0 64).space = .dram → s.newest u un → t.holdsBlock (Ctx.place (s.recordVa un) ps) 0 st.image) ∧
      (((Ctx.place (s.recordVa un) ps).piece 56 8).space = .dram →
        (((Ctx.place (s.recordVa un) ps).piece 56 8).addr, Watched.action u) ∈ t.watched)) ∧
  (∀ (s : State) (u : Nat) (w : Frac) (un : Machine.Unit) (st : Stop), s.unit? u = some un → un.run = .stopped → un.stop = some st →
    st.complete = true → st.action = none → s.isPaired un = false → (s.region un.region).halted = false → (s.region un.region).still ≠ .policy →
    s.takeAction u 1 w = ((s.setUnit u { un with stop := some { st with action := some (1, w.num, w.den) } }).unwatch (.action u)).timer
      (w.add (Frac.ofNat 2000)) (.actionResume u)) ∧
  (∀ (s : State) (u : Nat) (un : Machine.Unit) (st : Stop), s.unit? u = some un → un.run = .stopped → un.stop = some st → st.complete = true →
    st.action.isSome → s.isPaired un = false → (∀ k, (un.wk k).settled) →
    ∃ t un', exec (.actionResume u) s = .next t ∧ t.unit? u = some un' ∧ un'.run = .running ∧ un'.cause = 0 ∧ un'.stop = none ∧
      un'.store = un.store ∧ un'.acc = un.acc ∧ un'.v = un.v ∧
      (∀ v w, v ≠ u → s.unit? v = some w → ∃ chans, t.unit? v = some { w with chans }) ∧
      ∀ k, k < un.walkers.length → (un'.wk k).x = (un.wk k).x ∧ (un'.wk k).stopped = false ∧ (un'.wk k).slot = .done 4 none ∧
        ((un.wk k).inner = none → (un'.wk k).idx = (un.wk k).idx)) ∧
  (∀ (s : State) (u n d : Nat) (un : Machine.Unit) (st : Stop), s.unit? u = some un → un.run = .stopped → un.stop = some st →
    st.action = some (2, n, d) → s.isPaired un = false →
    ∃ un', exec (.actionAbort u) s =
        .next (((s.setUnit u un').keepHolds fun w => w.1 != u).timer (Frac.add ⟨n, d⟩ ((Frac.ofNat 2000).add ((s.region un.region).period.scale (un.lsc 7))))
          (.bindOff u)) ∧
      un'.pend = [] ∧ un'.beats = [] ∧ un'.mult = none ∧ un'.ksteps = [] ∧ (∀ w ∈ un'.walkers, w.inflight = []) ∧
      (∀ ch ∈ un'.chans, ∀ x ∈ ch.cmds, x.complete = true) ∧ un'.store = un.store)

/-- R284-R287: a pre-emption request reaches every unit of its kernel and no other; a unit whose walkers have stopped stops, its state kept; its
save begins once its engines have made everything, with the unit's record as its image, block by block, block 0 with MAGIC 0 first; with
its commit block 0 stands there too and the unit is released; granted units resume from the newest committed record, with its registers and
places. That a kernel without a save area is not pre-empted is the model's reading (log 70). -/
def Obligations.PreemptionsRun : Prop :=
  (∀ (s : State) (k : Nat) (ker : Kernel), s.kernels[k]? = some ker →
    ∃ t, exec (.preemptionRequest k) s = .next t ∧ (∀ u, u ∉ ker.live → t.unit? u = s.unit? u) ∧
      ∀ u un, u ∈ ker.live → s.unit? u = some un →
        t.unit? u = some (if un.request = none then { un with request := some (s.now un) } else un)) ∧
  (∀ (s : State) (u : Nat) (un : Machine.Unit), s.unit? u = some un → un.preemptible = true → s.isPaired un = false →
    ∃ un', exec (.preemptionStop u) s = .next (s.setUnit u un') ∧ un'.run = .preempted ∧ un'.ctx = none ∧ un'.stop = none ∧
      un'.cut = (s.now un, (s.region un.region).rscReg) ∧ un'.store = un.store ∧
      ∀ k, (un'.wk k).x = (un.wk k).x ∧ (un'.wk k).idx = (un.wk k).idx ∧ (un'.wk k).inner = (un.wk k).inner) ∧
  (∀ (s : State) (u : Nat) (un : Machine.Unit) (ker : Kernel), s.unit? u = some un → s.kernels[un.kernel]? = some ker → un.run = .preempted →
    un.ctx = none → un.made (s.now un) = true →
    ∃ c : Ctx, exec (.preemptionSave u) s = .next ({ s with free := s.free + Config.ctxBlocks }.setUnit u { un with ctx := some c }) ∧
      c.load = false ∧ c.va = s.saveTarget u ker un.place ∧ c.image = s.record u un 1 (un.saveSeq + 1) un.cut ∧ c.xlAt = none ∧
      c.checkAt = none ∧ c.ue = false) ∧
  (∀ (s : State) (u k : Nat) (un : Machine.Unit) (c : Ctx), s.unit? u = some un → un.ctx = some c → c.load = false → un.run = .preempted →
    s.stage ≠ stageFault → c.xlAt = none → c.checkAt = none → c.writesAt 0 (un.divisor 3) (s.now un) = [k] → (c.piece (64 * k) 64).space = .dram →
    s.newest u un →
    ∃ t, exec (.copyBeatIssue u 0) s = .next t ∧ t.holdsBlock c k (c.image.set 0 4 0) ∧
      t.unit? u = some { un with ctx := some { c with ue := c.ue || s.strikes un c k } }) ∧
  (∀ (s : State) (u : Nat) (un : Machine.Unit) (ker : Kernel) (c : Ctx), s.unit? u = some un → s.kernels[un.kernel]? = some ker →
    un.run = .preempted → un.ctx = some c → c.endAt ≤ s.now un → c.ue = false → s.strikes un c 0 = false →
    ∃ t ker', exec (.preemptionSave u) s = .next t ∧ t.unit? u = none ∧ (∀ v, v ≠ u → t.unit? v = s.unit? v) ∧
      t.kernels[un.kernel]? = some ker' ∧ ker'.live = ker.live.filter (· != u) ∧ ker'.parked = ker.parked ++ [(un.place, un.snap, un.seen)] ∧
      (ker'.live = [] → ker'.state = .preempted) ∧ ((c.piece 0 64).space = .dram → s.newest u un → t.holdsBlock c 0 c.image)) ∧
  (∀ (s : State) (k u : Nat) (ker : Kernel) (m : Img) (snap : Snapshot) (seen : List Nat), s.kernels[k]? = some ker → ker.state = .preempted →
    ker.live = [u] → ker.parked = [(0, snap, seen)] → ker.startAt.isSome → s.savedRecord u ker 0 = some m → m.bad = [] →
    (∀ j, ((m.load ((s.freshUnit k ker 0 u []).loadResident ker.resident) 1).wk j).settled) →
    ∃ t un' ker', exec (.contextRestore k) s = .next t ∧ t.unit? u = some un' ∧ un'.run = .running ∧ un'.kernel = k ∧ un'.place = 0 ∧
      un'.saveSeq = m.get 56 8 ∧ un'.seen = seen ∧ t.kernels[k]? = some ker' ∧ ker'.state = .running ∧ ker'.units = [u] ∧ ker'.parked = [] ∧
      s.keepsUnits t [u] ∧
      ∀ w, w < 4 →
        (∀ i, 0 < i → i < 16 → (un'.wk w).reg i =
          ⟨BitVec.ofNat 64 (m.get (0x100 + 0x1000 * w + 0x400 + 8 * i) 8), m.bit (0x100 + 0x1000 * w + 0x480) (128 + i)⟩) ∧
        (m.get (0x100 + 0x1000 * w + 0x540) 1 % 2 = 0 → (un'.wk w).idx = m.get (0x100 + 0x1000 * w + 0x4E0 + 56) 8))

/-- R272, R289, R294, R295: a region halts at the end of the wave's last cycle, and the job is halted with its last region; in the halted
state a step runs the region that `JFOCUS` names for one cycle, at its generator's present rate, and a resume at a job time far enough ahead is taken, an earlier one
refused; at TR every region of the job runs again and the fields of the first cause are clear. The flits of another package do the same
here. The layout of the flits' payloads is the model's choice (log 41); jumps over a halt and the order of the wave are its reading
(logs 26, 52, 66). -/
def Obligations.HaltsStepAndResume : Prop :=
  (∀ (s : State) (i : Nat), i < s.regions.length → (s.region i).haltDue = true →
    ∃ t, exec (.haltWaveArrival i) s = .next t ∧ (t.region i).halted = true ∧ (t.region i).haltAt = none ∧ (t.region i).rcc = (s.region i).rcc ∧
      (∀ j, j ≠ i → t.region j = s.region j) ∧
      ∀ x, find s.jobs (s.region i).job = some x → x.jstate ≠ 4 → (∀ k, k ≠ i → k < s.regions.length → (s.region k).job = (s.region i).job → (s.region k).halted = true) →
        ∃ a, find t.jobs (s.region i).job = some { x with jstate := 2, armId := a }) ∧
  (∀ (s : State) (j i : Nat) (x : Job) (b : Rcb), find s.jobs j = some x → x.jstate = 2 → s.rcbs[(s.region i).rcb]? = some b → i < s.regions.length →
    (s.region i).job = j → b.va = x.jfocus.toNat → (s.region i).halted = true → { s.region i with halted := false }.runs = true →
    (∀ k, k < i → (s.region k).job = j → ∀ c, s.rcbs[(s.region k).rcb]? = some c → c.va ≠ x.jfocus.toNat) →
    ∃ t, exec (.jobStep j) s = .next t ∧ (t.region i).steps = (s.region i).next + 1 ∧ (t.region i).anchor = s.time ∧
      (t.region i).anchorCyc = (s.region i).next ∧ (t.region i).halted = true ∧ (t.region i).rcc = (s.region i).rcc ∧
      (∀ g, isSynthetic (s.region i).src = true → find s.gens (s.region i).src = some g →
        (t.region i).period = (g.period.scale (s.region i).q).div (Frac.ofNat (s.region i).p)) ∧
      (∀ k, k ≠ i → t.region k = s.region k) ∧ find t.jobs j = some { x with jstate := 3 }) ∧
  (∀ (s : State) (j : Nat) (x : Job), find s.jobs j = some x → x.jstate = 2 →
    ((s.time.add (Frac.ofNat (150 + 450 * s.jobHops j))).le (Frac.ofNat x.jtres.toNat) = true →
      ∃ t, exec (.jobResume j) s = .next t ∧ find t.jobs j = some { x with jstate := 4, resumeAt := some (Frac.ofNat x.jtres.toNat) } ∧
        t.timers = s.timers ++ [(Frac.ofNat x.jtres.toNat, .event (.resumeAtTr j))] ∧ t.regions = s.regions) ∧
    ((s.time.add (Frac.ofNat (150 + 450 * s.jobHops j))).le (Frac.ofNat x.jtres.toNat) = false → exec (.jobResume j) s = .next s)) ∧
  (∀ (s : State) (j : Nat) (x : Job), find s.jobs j = some x → x.jstate = 4 →
    ∃ t x', exec (.resumeAtTr j) s = .next t ∧ find t.jobs j = some x' ∧ x'.jstate = 0 ∧ x'.jcause = 0 ∧ x'.jorig = 0 ∧ x'.jtstop = 0 ∧
      x'.first = none ∧ x'.jreg = x.jreg ∧ ∀ i, i < s.regions.length → (s.region i).job = j → (t.region i).halted = false) ∧
  (∀ (s : State) (p : Nat) (fl : Flit), Accepts 7 s p fl → ∀ x, find s.jobs fl.param.toNat = some x →
    ∃ t, exec (.haltWave p fl) s = .next t ∧ (∀ i, i < s.regions.length → (s.region i).job = fl.param.toNat → (s.region i).halted = false →
        (s.regionRcb i).map (·.va) = some (fl.nat 24 8) →
        ∃ h, (t.region i).haltAt = some h ∧
          h.le ((Frac.norm ⟨fl.nat 0 8, max 1 (fl.nat 8 8)⟩).add (Frac.ofNat (150 + 450 * fl.nat 32 8))) = true ∧
          ∀ h', (s.region i).haltAt = some h' → h.le h' = true) ∧
      (∀ i, (s.regionRcb i).map (·.va) ≠ some (fl.nat 24 8) → t.region i = s.region i) ∧
      (∃ x', find t.jobs fl.param.toNat = some x' ∧ x'.jstate ≠ 0 ∧ (x.first = none → x'.jcause = BitVec.ofNat 64 (fl.nat 16 8)))) ∧
  (∀ (s : State) (p : Nat) (fl : Flit), Accepts 8 s p fl → ∀ x, find s.jobs fl.param.toNat = some x → (x.jstate = 1 ∨ x.jstate = 2) →
    exec (.resume p fl) s = .next ((s.counted p).resumeJob fl.param.toNat (Frac.ofNat (fl.nat 0 8)))) ∧
  (∀ (s : State) (p : Nat) (fl : Flit), Accepts 9 s p fl → ∀ x, find s.jobs fl.param.toNat = some x → x.jstate = 2 →
    exec (.step p fl) s = .next ((s.counted p).stepRegion fl.param.toNat (fl.nat 0 8)))

/-- R213, R214, R298, R301, R330: the window of a trigger whose START holds opens, at the end of its cycle, or in it where it is to stop
the unit: of kind 1 or 3 with `BKPT`, of kind 4 with `WATCH` and the class, place and address of a match, one of class P first; of kind 2
or 5 it stops the unit with `BKPT` in the next cycle. A memory-side report opens it in the same way; it closes where STOP holds, writing its trace
record, and an ACT 0 trigger disarms with it. A report's flit is held by the trigger that it names, of the arming that it names, and by no other. The
layout of the report's flit is the model's choice (log 41), when a held match is served its reading (logs 51, 53, 131). -/
def Obligations.TriggersOpenAndClose : Prop :=
  (∀ (s : State) (u n : Nat) (un : Machine.Unit) (g : Trigger), s.unit? u = some un → un.trigs[n]? = some g → g.stopDue ≠ some (s.now un) →
    g.armed = true → g.isOpen = false → g.seenS = true → g.from_ ≤ s.now un →
    (g.act ≠ 1 → exec (.triggerWindowOpen u n) s = .next (s.setUnit u { un with
      trigs := un.trigs.set n { g with fired := true, isOpen := true, openAt := s.now un, seenS := false } })) ∧
    (g.act = 1 → g.kind = 1 ∨ g.kind = 3 → ∃ g', g'.armed = false ∧ g'.fired = true ∧ g'.isOpen = false ∧
      exec (.triggerWindowOpen u n) s = .next ((s.setUnit u { un with trigs := un.trigs.set n g' }).takeFault u .bkpt .u 0 n
        { Detail.walker with trigger := n })) ∧
    (g.act = 1 → g.kind = 2 ∨ g.kind = 5 → ∃ g', g'.armed = false ∧ g'.fired = true ∧ g'.isOpen = false ∧ g'.openAt = s.now un ∧
      g'.stopDue = some (s.now un + 1) ∧ exec (.triggerWindowOpen u n) s = .next (s.setUnit u { un with trigs := un.trigs.set n g' })) ∧
    (g.act = 1 → g.kind = 4 → (∃ h ∈ g.struck, (s.region un.region).serves (s.now un) h = true) →
      ∃ g' h, g'.armed = false ∧ g'.fired = true ∧ g'.isOpen = false ∧ h ∈ g.struck ∧ (s.region un.region).serves (s.now un) h = true ∧
        (∀ x ∈ g.struck, (s.region un.region).serves (s.now un) x = true → x.cls = .p → h.cls = .p) ∧
        ∀ i, i = .triggerWindowOpen u n ∨ i = .watchReport u n →
          (h.cls = .p → exec i s = .next ((s.setUnit u { un with trigs := un.trigs.set n g' }).takeFault u .watch .p h.chan n
            ⟨0, 0, n, 0, 0, g.addr + BitVec.ofNat 64 h.i, 0⟩)) ∧
          (h.cls = .i → exec i s = .next ((s.setUnit u { un with trigs := un.trigs.set n g' }).takeFault u .watch .i 3 n
            ⟨3, h.chan, n, h.tid, h.beat, g.addr + BitVec.ofNat 64 h.i, 0⟩)) ∧
          (h.cls = .u → exec i s = .next ((s.setUnit u { un with trigs := un.trigs.set n g' }).takeFault u .watch .u 0 n
            ⟨4, h.chan, n, h.tid, h.beat, g.addr + BitVec.ofNat 64 h.i, h.origin⟩))) ∧
    (g.act ≠ 1 → g.kind = 4 → exec (.watchReport u n) s = .next (s.setUnit u { un with
      trigs := un.trigs.set n { g with fired := true, isOpen := true, openAt := s.now un, seenS := false } }))) ∧
  (∀ (s : State) (u n : Nat) (un : Machine.Unit) (g : Trigger), s.unit? u = some un → un.trigs[n]? = some g → g.stopDue = some (s.now un) →
    exec (.triggerWindowOpen u n) s = .next ((s.setUnit u { un with trigs := un.trigs.set n { g with stopDue := none } }).takeFault u .bkpt .u 0 n
      { Detail.walker with trigger := n })) ∧
  (∀ (s : State) (u n : Nat) (un : Machine.Unit) (g : Trigger), s.unit? u = some un → un.trigs[n]? = some g → g.armed = true → g.isOpen = true →
    g.seenP = true → un.trace.length ≤ 255 → ∃ un', exec (.triggerWindowClose u n) s = .next (s.setUnit u un') ∧
      un'.trace = un.trace ++ [⟨2, n, 0, 0, g.openAt, s.now un⟩] ∧ un'.traceN = un.traceN + 1 ∧
      un'.trigs = un.trigs.set n { g with isOpen := false, seenS := false, seenP := false, armed := decide (g.act ≠ 0) } ∧
      un' = { un with trace := un'.trace, traceN := un'.traceN, trigs := un'.trigs }) ∧
  (∀ (s : State) (p : Nat) (fl : Flit) (un : Machine.Unit) (g : Trigger), Accepts 10 s p fl → s.unit? (fl.param.toNat / 16 % 256) = some un →
    un.trigs[fl.param.toNat % 16]? = some g →
    (g.armed = false ∨ g.serial ≠ fl.nat 16 8 → ∃ t, exec (.watchReportFlit p fl) s = .next t ∧ t.unit? (fl.param.toNat / 16 % 256) = some un) ∧
    (g.armed = true → g.serial = fl.nat 16 8 → ∃ h, h.cls = .u ∧ h.origin = BitVec.ofNat 32 (fl.nat 0 4) ∧ h.i < 16 ∧ exec (.watchReportFlit p fl) s =
      .next ((s.counted p).setUnit (fl.param.toNat / 16 % 256) { un with trigs := un.trigs.set (fl.param.toNat % 16) { g with struck := g.struck ++ [h] } })))

/-- R252-R254, R262-R268: the arm of a registered job whose tree keeps its limits enters its RCBs and regions, arms it and writes 2 to its arm word, and is
refused, with 4, where it does not; a job retires, with 3, once each of its patterns has ended; a write of a watched word has the scheduler look at
what it stands for: an arm word, a WATCH node, a STATUS, an ACTION; a granted KERNEL node is cast on to the units it asks for, each in the state of
a cast-on, and starts at the next sample boundary; its retire makes its successors ready, after what it had acquired, and they are to be evaluated.
Which free units are granted is the model's choice (log 55), the scheduler's delays are free (log 77), and the limits of a tree are read as
logs 71-75 and 78 say. -/
def Obligations.PatternsAdvance : Prop :=
  (∀ (s : State) (j : Nat) (x : Job), find s.jobs j = some x → x.jslot = 1 → x.armed = false → s.armWord j = 1 →
    (((s.forgetJob j).readTree j (partOf j) 16384 [(x.jreg.toNat, none)] [] = none ∨
        ∃ l, (s.forgetJob j).readTree j (partOf j) 16384 [(x.jreg.toNat, none)] [] = some l ∧ budgetsOk s.rcbs.length l = false) →
      ∃ t a, exec (.arm j) s = .next t ∧ find t.jobs j = some { x with armId := a } ∧
        t.rcbs.length = s.rcbs.length ∧ t.regions.length = s.regions.length ∧ s.wrote t x.armPa 4) ∧
    (∀ l, (s.forgetJob j).readTree j (partOf j) 16384 [(x.jreg.toNat, none)] [] = some l → budgetsOk s.rcbs.length l = true →
      ∃ t x', exec (.arm j) s = .next t ∧ find t.jobs j = some x' ∧ x'.armed = true ∧ x'.jstate = 0 ∧ t.rcbs.length = s.rcbs.length + l.length ∧
        t.regions.length = s.regions.length + l.countP (·.1.gv) ∧ s.wrote t x.armPa 2)) ∧
  (∀ (s : State) (j : Nat) (x : Job), find s.jobs j = some x → x.armed = true → (∀ r ∈ s.regions, r.job = j → r.gauge = .off) →
    ∃ t, exec (.jobRetire j) s = .next t ∧ find t.jobs j = some { x with armed := false, armId := 0 } ∧
      (∀ i, i < s.regions.length → i ≠ outside → t.region i = s.region i) ∧ s.keepsUnits t [] ∧ s.wrote t x.armPa 3) ∧
  (∀ (s : State) (d a : Nat), (∀ e ∈ s.watched, e.1 ≠ 2 ^ 38 * d + a) → exec (.watchedWordWrite d a) s = .next s) ∧
  (∀ (s : State) (d a pa : Nat) (w : Watched), pa = 2 ^ 38 * d + a → (s.watched.filter fun e => e.1 == pa) = [(pa, w)] →
    (∀ j, w = .arm j → s.armWord j = 1 → ∃ t, exec (.watchedWordWrite d a) s = .next t ∧ Soon s t 8000 (.event (.arm j)) ∧ t.jobs = s.jobs) ∧
    (∀ j, w = .arm j → s.armWord j ≠ 1 → exec (.watchedWordWrite d a) s = .next s) ∧
    (∀ addr region nd x b g v, w = .node addr region → addr < 2 ^ 48 → (s.nodes.find? fun n => n.addr == addr && n.region == region) = some nd →
      nd.state ≠ .cast → s.jobHalted region = false → s.nodeInfo region addr = some x → s.regionRcb region = some b →
      s.locate b.part (x.get 32 8) = some g → s.readVa b.part (x.get 32 8) 8 = some v →
      (v ≠ x.get 40 8 → exec (.watchedWordWrite d a) s = .next
        (((s.nodeReads region addr b.part (x.get 32 8)).unwatch (.node addr region)).nodeDone region addr [x.next0, x.next1])) ∧
      (v = x.get 40 8 → nd.state = .waiting → exec (.watchedWordWrite d a) s = .next s)) ∧
    (∀ c b v, w = .status c → s.rcbs[c]? = some b → v = leNat (s.decipher .dram b.part pa (s.dram.bytes pa 8)) →
      ((s.regions.findIdx? fun r => r.rcb == c && r.job == b.job) = none →
        exec (.watchedWordWrite d a) s = .next (if v = 0 then s else s.writeVa b.part (b.va + 0xA0) 8 0)) ∧
      (∀ i, (s.regions.findIdx? fun r => r.rcb == c && r.job == b.job) = some i →
        ((s.region i).far = true → ∃ t, exec (.watchedWordWrite d a) s = .next t ∧ (t.region i).gauge = Gauge.ofCode (v % 8)) ∧
        ((s.region i).far = false → (s.region i).shed = true → v.testBit 9 = false →
          exec (.watchedWordWrite d a) s = .next { s with timers := s.timers ++ [(s.time, .event (.shedClear i))] }) ∧
        ((s.region i).far = false → ((s.region i).shed = false ∨ v.testBit 9 = true) →
          exec (.watchedWordWrite d a) s = .next (if v = (s.region i).status then s else s.postStatus i)))) ∧
    (∀ j, w = .refused j →
      (leNat (s.decipher .dram (partOf j) pa (s.dram.bytes pa 8)) = 2 ^ 11 + 2 ^ 13 → exec (.watchedWordWrite d a) s = .next s) ∧
      (leNat (s.decipher .dram (partOf j) pa (s.dram.bytes pa 8)) ≠ 2 ^ 11 + 2 ^ 13 →
        ∃ t, exec (.watchedWordWrite d a) s = .next t ∧ s.wrote t pa (2 ^ 11 + 2 ^ 13) ∧ t.units = s.units)) ∧
    (∀ u un, w = .action u → s.unit? u = some un →
      exec (.watchedWordWrite d a) s = .next (s.takeAction u (leNat (s.decipher .dram un.part pa (s.dram.bytes pa 8))) s.time)) ∧
    (∀ u, w = .action u → s.unit? u = none → exec (.watchedWordWrite d a) s = .next s)) ∧
  (∀ (s : State) (k : Nat) (ker : Kernel) (us : List Nat) (l : Load), s.kernels[k]? = some ker → ker.state = .ready → s.waiters = [k] →
    s.budgetFits ker = true → placeUnits ker.shape ker.n (s.freeFor ker) = some us → s.loadOf ker = some l → us.Nodup →
    ∃ t ker', exec (.kernelCastOn k) s = .next t ∧ t.kernels[k]? = some ker' ∧ ker'.state = .loaded ∧ ker'.units = us ∧ ker'.live = us ∧
      (∀ u, u ∉ us → t.unit? u = s.unit? u) ∧
      ∀ u ∈ us, ∃ un', t.unit? u = some un' ∧ un'.run = .cast ∧ un'.kernel = k ∧ un'.region = ker.region ∧ un'.istore = l.text ∧ un'.store = Store.zero ∧
        un'.cause = 0 ∧ (∀ a ∈ un'.acc, a.poison = false) ∧ ∀ w ∈ un'.walkers, w.idx = 0 ∧ w.flags = 0 ∧ ∀ v ∈ w.x, v = Val.zero) ∧
  (∀ (s : State) (k : Nat) (ker : Kernel), s.kernels[k]? = some ker → ker.state = .loaded → (s.region ker.region).openCyc = true →
    (s.region ker.region).rcc % (s.region ker.region).p = 0 → (s.region ker.region).gauge ≠ .draining → ker.live.Nodup →
    ∃ t ker', exec (.kernelStart k) s = .next t ∧ t.kernels[k]? = some ker' ∧ ker'.state = .running ∧ ker'.startAt = some (s.region ker.region).rcc ∧
      ∀ u ∈ ker.live, ∀ un, s.unit? u = some un → ∃ un', t.unit? u = some un' ∧ un'.run = .running ∧ un'.word0 = some (s.region ker.region).rcc ∧
        un'.snap.scope = 7 ∧ un'.store = un.store) ∧
  (∀ (s : State) (k : Nat) (ker : Kernel), s.kernels[k]? = some ker → ker.state = .retiring →
    ∃ t ker', exec (.nodeRetire k) s = .next t ∧ t.kernels[k]? = some ker' ∧ ker'.state = .retired ∧ s.keepsUnits t [] ∧
      ((∀ a, a = ker.next0 ∨ a = ker.next1 → a = 0 ∨ (s.nodeInfo ker.region a).isSome) →
        (∀ a x, a = ker.next0 ∨ a = ker.next1 → a ≠ 0 → a ≠ ker.node → s.nodeInfo ker.region a = some x →
          ((∀ n ∈ s.nodes, n.addr = a → n.region ≠ ker.region) → s.evaluates t ker.region a x ∧
            ∃ n ∈ t.nodes, n.addr = a ∧ n.region = ker.region ∧ n.state = .ready ∧ n.acq = s.nodeAcq ker.region ker.node) ∧
          ∀ n ∈ s.nodes, n.addr = a → n.region = ker.region →
            ∃ n' ∈ t.nodes, n'.addr = a ∧ n'.region = ker.region ∧ n'.state = n.state ∧ n.queued < n'.queued) ∧
        (∀ n ∈ s.nodes, n.addr = ker.node → n.region = ker.region → (s.nodeInfo ker.region ker.node).isSome →
          (0 < n.queued ∨ ker.node ≠ 0 ∧ (ker.node = ker.next0 ∨ ker.node = ker.next1)) →
          ∃ n' ∈ t.nodes, n'.addr = ker.node ∧ n'.region = ker.region ∧ n'.state = .ready) ∧
        ((∀ n ∈ s.nodes, n.addr = ker.node → n.region = ker.region → n.queued = 0 ∧ ker.node ≠ ker.next0 ∧ ker.node ≠ ker.next1) →
          ∀ n ∈ t.nodes, ¬(n.addr = ker.node ∧ n.region = ker.region))))

/-- R262, R263: a ready node that can be read runs: COND chooses by the masked word, LOOP by its count against its limit, SWITCH by the table's
entry, JOIN once its last arrival has come, and WATCH goes on when its word differs from VALUE. -/
def Obligations.NodesChoose : Prop :=
  ∀ (s : State) (region addr : Nat) (nd : Node) (x : NodeInfo) (b : Rcb), addr < 2 ^ 48 →
    (s.nodes.find? fun n => n.addr == addr && n.region == region) = some nd → nd.state = .ready → s.jobHalted region = false →
    s.nodeInfo region addr = some x → s.regionRcb region = some b →
    (∀ w sr, s.readVa b.part (x.get 32 8) 8 = some w → sr = s.nodeReads region addr b.part (x.get 32 8) →
      exec (.cond (nodeKey region addr)) s =
        .next (sr.nodeDone region addr [if w &&& x.get 40 8 = x.get 48 8 then x.next0 else x.next1]) ∧
      (∀ (iter : Nat) (sl : State), iter = (if s.loops.contains (nodeKey region addr) then x.get 40 8 else 0) →
        sl = { sr with loops := if s.loops.contains (nodeKey region addr) then s.loops else nodeKey region addr :: s.loops } →
        (iter < w → exec (.loopNode (nodeKey region addr)) s = .next ((sl.writeVa b.part (addr + 40) 8 (iter + 1)).nodeDone region addr [x.next0])) ∧
        (w ≤ iter → exec (.loopNode (nodeKey region addr)) s = .next ((sl.writeVa b.part (addr + 40) 8 0).nodeDone region addr [x.next1]))) ∧
      (x.get 48 1 < w → exec (.switch (nodeKey region addr)) s = .next (sr.nodeDone region addr [x.next0])) ∧
      (∀ e, w ≤ x.get 48 1 → s.readVa b.part (x.get 40 8 + 8 * w) 8 = some e →
        exec (.switch (nodeKey region addr)) s = .next ((sr.nodeReads region addr b.part (x.get 40 8 + 8 * w)).nodeDone region addr [e])) ∧
      (∀ p, s.locate b.part (x.get 32 8) = some p → s.tableWaiters = [] → w ≠ x.get 40 8 → exec (.watchNode (nodeKey region addr)) s =
        .next ((sr.unwatch (.node addr region)).nodeDone region addr [x.next0, x.next1])) ∧
      (∀ p, s.locate b.part (x.get 32 8) = some p → s.tableWaiters = [] → w = x.get 40 8 → s.tableFree (p.2 / 2 ^ 38) ≠ 0 →
        exec (.watchNode (nodeKey region addr)) s = .next ((s.watch p.2 (.node addr region)).setNode region addr .waiting))) ∧
    (∀ (c : Nat) (a : Acq), ((s.joins.find? fun e => e.1 == nodeKey region addr).map (·.2)).getD (0, Acq.zero) = (c, a) →
      (c + 1 = x.get 2 2 → exec (.join (nodeKey region addr)) s =
        .next ((State.modNode { s with joins := s.joins.filter fun e => e.1 != nodeKey region addr } region addr fun n =>
          { n with acq := a.merge nd.acq }).nodeDone region addr [x.next0, x.next1])) ∧
      (c + 1 ≠ x.get 2 2 → exec (.join (nodeKey region addr)) s =
        .next (State.nodeDone { s with
          joins := (nodeKey region addr, c + 1, a.merge nd.acq) :: s.joins.filter fun e => e.1 != nodeKey region addr } region addr [])))

/-- R256-R258: a source's sample sets the latest number and instant of every region on it; a missed one is counted; after 64 samples on
time a region whose clock lies in range locks, cycle 0 and sample 0 at the next sample's instant; it clamps, unclamps, enters holdover
and relocks after the runs that R257 names, `RSC` unchanged; at holdover's end it takes a freeze request. The period estimate, the clock
between samples and the stamp of a missed sample are the model's readings (logs 57-59). -/
def Obligations.GaugesFollowTheirSources : Prop :=
  (∀ (s : State) (k n i : Nat), i < s.regions.length → s.sourceKey (s.region i) = k → (s.region i).gauge = .locked → (s.region i).stamps ≠ [] →
    (s.region i).far = false → (s.region i).halted = false → (s.region i).srcN < n → (s.samples.find? fun e => e.1 == k && e.2.1 == n) = none →
    ∃ t, exec (.sourceSample k n) s = .next t ∧ (t.region i).srcN = n ∧ (t.region i).lastInst = s.time ∧ (t.region i).missed = 0 ∧
      (t.region i).rcc = (s.region i).rcc ∧ (t.region i).rsc = (s.region i).rsc ∧ (t.region i).gauge = .locked ∧ t.units = s.units) ∧
  (∀ (s : State) (i : Nat) (t0 : Frac), i < s.regions.length → (s.region i).missAt = some t0 → s.time.lt t0 = false → (s.region i).halted = false →
    ∃ t, exec (.sampleMissed i) s = .next t ∧ (t.region i).missed = (s.region i).missed + 1 ∧ (t.region i).good = 0 ∧
      (t.region i).srcN = (s.region i).srcN ∧ (t.region i).rsc = (s.region i).rsc ∧ (∀ j, j ≠ i → t.region j = s.region j)) ∧
  (∀ (s : State) (i : Nat), i < s.regions.length → (s.region i).gauge = .acquire → isSynthetic (s.region i).src = false → 64 ≤ (s.region i).onTime →
    clockOk ((Frac.ofNat (s.region i).p).div ((s.region i).srcPeriod.scale (s.region i).q)) = true →
    ∃ t, exec (.gaugeLock i) s = .next t ∧ (t.region i).rcc = 0 ∧ (t.region i).rsc = 0 ∧ (t.region i).fresh = true ∧
      (t.region i).base = (s.region i).srcN + 1 ∧ (t.region i).anchor = s.instAhead (s.region i) ((s.region i).srcN + 1) ∧
      (t.region i).period = (s.region i).sourced ∧ ((t.region i).gauge = .locked ∨ (t.region i).gauge = .off ∧ ∀ n ∈ t.nodes, n.region ≠ i)) ∧
  (∀ (s : State) (i : Nat), i < s.regions.length →
    ((s.region i).gauge = .locked → 1024 ≤ (s.region i).drift → ∃ t, exec (.gaugeClamp i) s = .next t ∧ (t.region i).gauge = .clamped ∧
      (t.region i).rsc = (s.region i).rsc ∧ (t.region i).rcc = (s.region i).rcc ∧ (t.region i).period =
        (Frac.div ⟨1, 1⟩ (s.region i).f0).mul (if (s.region i).srcPeriod.lt (s.region i).nominal then ⟨10000, 10002⟩ else ⟨10000, 9998⟩)) ∧
    ((s.region i).gauge = .clamped → 1024 ≤ (s.region i).steady → ∃ t, exec (.gaugeUnclamp i) s = .next t ∧ (t.region i).gauge = .locked ∧
      (t.region i).slew = true ∧ (t.region i).rsc = (s.region i).rsc ∧ (t.region i).period = (s.region i).period) ∧
    ((s.region i).gauge = .locked ∨ (s.region i).gauge = .clamped → s.missOf i ≤ (s.region i).missed → ∃ t, exec (.holdoverEntry i) s = .next t ∧
      (t.region i).gauge = .holdover ∧ (t.region i).holdRsc = (s.region i).rsc ∧ (t.region i).period = (s.region i).period) ∧
    ((s.region i).gauge = .holdover → 8 ≤ (s.region i).good → ∃ t, exec (.holdoverRelock i) s = .next t ∧ (t.region i).gauge = .locked ∧
      (t.region i).slew = true ∧ (t.region i).rsc = (s.region i).rsc) ∧
    ((s.region i).gauge = .holdover → (s.region i).openCyc = true → (s.region i).rcc % (s.region i).p = 0 →
      (s.region i).holdRsc + s.holdOf i ≤ (s.region i).rsc → ∃ t, exec (.holdoverExpiry i) s = .next t ∧ (t.region i).gauge = .draining ∧
        (t.region i).freezeAt = some (s.region i).rcc ∧ ∀ u un, s.unit? u = some un → un.region = i → un.run = .running → un.p0 = none →
          ∃ un', t.unit? u = some un' ∧ un'.p0 = some (s.region i).rcc ∧ ∀ w ∈ un'.walkers, w.inner = none → w.stopped = true))

/-- R9, R23, R258, R259, R269, R271, R281: a region's next cycle begins and its running walkers may walk in their issue cycles; at a
boundary `RSC` is 0 at first and grows by Q; a region that has drained, or that a policy or the watchdog stops, freezes in place of its
next cycle; at the thaw it runs again, with the jump of `RSC` in RSCD; the watchdog stops a region at WDOG boundaries without `waits`; a
shed region sets SHED, which a program's 0 clears, and runs again once it is re-admitted. In which cycle a freeze falls, what `RCC`
reads meanwhile and what the thaw sets are the model's readings (logs 60-64). -/
def Obligations.RegionsRunFreezeAndThaw : Prop :=
  (∀ (s : State) (i : Nat), i < s.regions.length → (s.region i).runs = true → (s.region i).openCyc = false → s.freezeDue i = false →
    (s.region i).haltDue = false →
    ∃ t, exec (.regionCycle i) s = .next t ∧ (t.region i).rcc = (s.region i).next ∧ (t.region i).openCyc = true ∧ (t.region i).fresh = false ∧
      (t.region i).rsc = (s.region i).rsc ∧ (∀ j, j ≠ i → t.region j = s.region j) ∧
      (∀ u un, s.unit? u = some un → un.region = i → un.run = .running → un.walkers.length = 4 → ∃ un', t.unit? u = some un' ∧ un'.run = .running ∧
        un'.div = un.divNext ∧ ∀ k, k < 4 → (un'.wk k).x = (un.wk k).x ∧ (un'.wk k).idx = (un.wk k).idx ∧
          (un'.wk k).slot = (if isIssue (un'.divisor k) (s.region i).next ∧ (un.wk k).stopped = false then .walking 0 else .done 3 none)) ∧
      ((s.units.map (·.1)).Nodup → ∀ u un, s.unit? u = some un → un.region ≠ i → t.unit? u = some un)) ∧
  (∀ (s : State) (i : Nat), i < s.regions.length → (s.region i).openCyc = true → (s.region i).rcc % (s.region i).p = 0 → (s.region i).thawAt = none →
    (s.region i).jump = none → (s.region i).shedding = false →
    ∃ t, exec (.sampleBoundary i) s = .next t ∧ (t.region i).rsc = (if (s.region i).rcc = 0 then 0 else (s.region i).rsc + (s.region i).q) ∧
      (t.region i).rcc = (s.region i).rcc ∧ t.units = s.units ∧ ∀ j, j ≠ i → t.region j = s.region j) ∧
  (∀ (s : State) (i : Nat), i < s.regions.length → s.freezeDue i = true → (s.units.map (·.1)).Nodup → (∀ u un, s.unit? u = some un → un.region = i → un.fired = false) →
    ∃ t, exec (.regionFreeze i) s = .next t ∧ (t.region i).gauge = .frozen ∧ (t.region i).rcc = (s.region i).rcc ∧ (t.region i).rsc = (s.region i).rsc ∧
      (t.region i).still = (if (s.region i).stopAt.isSome then .policy else .drained) ∧ t.units = s.units) ∧
  (∀ (s : State) (i v : Nat) (at_ : Frac), i < s.regions.length → (s.region i).gauge = .frozen → (s.region i).thawAt = some (at_, v) →
    (s.region i).halted = false → s.time.lt (s.region i).anchor = false →
    ∃ t, exec (.thaw i) s = .next t ∧ (t.region i).gauge = .locked ∧ (t.region i).still = .no ∧ (t.region i).slew = false ∧
      (t.region i).rscd = (v : Int) - ((s.region i).rsc + (s.region i).q : Nat) ∧ (t.region i).rcc = (s.region i).rcc ∧
      ((v : Int) ≠ ((s.region i).rsc + (s.region i).q : Nat) → (t.region i).disc = true)) ∧
  (∀ (s : State) (u c : Nat) (un : Machine.Unit), s.unit? u = some un → un.region < s.regions.length → s.wdogOf un ≠ 0 →
    (s.region un.region).openCyc = true → (s.region un.region).rcc % (s.region un.region).p = 0 → un.run = .running → un.word0 = some c →
    c < (s.region un.region).rcc → (∀ w ∈ un.walkers, w.beat = false) →
    ∃ t un', exec (.watchdog u) s = .next t ∧ t.unit? u = some un' ∧ un'.wdog = un.wdog + 1 ∧
      (un.wdog + 1 = s.wdogOf un → (t.region un.region).wdf = true ∧ (t.region un.region).stopAt = some ((s.region un.region).rcc + 1)) ∧
      (un.wdog + 1 ≠ s.wdogOf un → t.regions = s.regions)) ∧
  (∀ (s : State) (i : Nat), i < s.regions.length →
    ((s.region i).gauge = .frozen → (s.region i).shedding = true → (s.region i).still = .drained → (s.units.map (·.1)).Nodup →
      (∀ u un, s.unit? u = some un → un.region ≠ i) →
      ∃ t, exec (.shedSave i) s = .next t ∧ (t.region i).shed = true ∧ (t.region i).still = .shed ∧ (t.region i).reserved = []) ∧
    ((s.region i).shed = true → ∃ t, exec (.shedClear i) s = .next t ∧ (t.region i).shed = false ∧ Soon s t 1000 (.event (.regionReadmit i))) ∧
    ((s.region i).gauge = .frozen → (s.region i).still = .shed → (s.region i).shed = false → (∀ b, s.regionRcb i = some b → b.admitted = false) →
      (∀ ker ∈ s.kernels, ker.region = i → ker.state ≠ .preempted) → (s.region i).good < 8 →
      ∃ t, exec (.regionReadmit i) s = .next t ∧ (t.region i).still = .drained ∧ (t.region i).shedding = false ∧ t.units = s.units))

/-- R237, R270, R272, R273, R302: a current above its limit slows every generator by 32 steps, an excess of heat or power by 8, down to
128, and 95% of all three lets each rise by 8; a cap is accepted by its sequence number alone and lasts its lease; an error that the
scrub finds is counted in its die and faults no unit; that its 64-byte block is then bad is the model's reading (log 85). The interval's instants and
measurements are inputs and the cap before the first is a reading of the model (logs 82, 83); reset values of the controller are its choice (log 7). -/
def Obligations.PowerAndHealth : Prop :=
  (∀ (s : State) (ma mc mw k : Nat) (g : Gen) (x : Frac), s.power.next = some x → s.time.lt x = false → (s.gens.map (·.1)).Pairwise (· < ·) → find s.gens k = some g →
    ∃ t g', exec (.powerControlInterval ma mc mw) s = .next t ∧ find t.gens k = some g' ∧ g'.hinted = false ∧ g'.a = g.a ∧ g'.b = g.b ∧
      (1000 * s.boot.curLimit < ma → g'.s = max 128 (g.s - 32)) ∧
      (ma ≤ 1000 * s.boot.curLimit → 1000 * s.boot.thermal < mc ∨ 1000 * s.powerCap < mw → g'.s = max 128 (g.s - 8)) ∧
      (ma ≤ 950 * s.boot.curLimit → mc ≤ 950 * s.boot.thermal → mw ≤ 950 * s.powerCap →
        g'.s = min g.smax (min (if g.hinted then 256 else 256 + g.boost) (g.s + 8))) ∧ t.units = s.units ∧
      t.power.next = some (x.add (Frac.ofNat 50000))) ∧
  (∀ (s : State) (q p l : BitVec 32), (∀ old, s.power.seq = some old → 1 ≤ (q - old).toNat ∧ (q - old).toNat < 2 ^ 31) →
    ∃ t x, exec (.capmsg q p l) s = .next t ∧ x = s.time.add (Frac.ofNat (1000000 * (if l = 0 then 2000 else l.toNat))) ∧
      t = { s with power := { s.power with seq := some q, cap := p.toNat, leaseTo := some x }, timers := s.timers ++ [(x, .lease)] }) ∧
  (∀ (s : State) (q p l old : BitVec 32), s.power.seq = some old → (q = old ∨ 2 ^ 31 ≤ (q - old).toNat) → exec (.capmsg q p l) s = .next s) ∧
  (∀ (s : State) (x : Frac), s.power.leaseTo = some x → x.le s.time = true →
    exec .capLeaseExpiry s = .next { s with power := { s.power with leaseTo := none } }) ∧
  (∀ (s : State) (d a : Nat), d < s.uec.length →
    ∃ t, exec (.patrolScrubError d a) s = .next t ∧ t.uec[d]? = (s.uec[d]?).map (· + 1) ∧ t.units = s.units ∧
      (2, (2 ^ 38 * d + a) / 64 * 64) ∈ t.bad ∧ ∀ k, k ∈ s.bad → k ∈ t.bad)

/-- R307-R310: a nonzero `JREG` of a free slot starts a registration, which a readable root of the partition with a free watched word ends at 1 and
another at 2; 0 frees a slot that is not running, and nothing of it is watched any more; a write of `ILEN` starts an invalidation, which ends with LOCK where it met a locked
translation; `PTROOT` is applied within the grant while no job is registered. -/
def Obligations.JobSlotsAndTables : Prop :=
  (∀ (s : State) (f j : Nat) (v : BitVec 64), v ≠ 0 → f < 64 → j < 16 → (s.slot f j).jslot = 0 → (s.slot f j).pending = false →
    ∃ t, exec (.jregRegister f j v) s = .next t ∧ t.slot f j = { s.slot f j with jreg := v, pending := true } ∧ Soon s t 10000 (.registration f j) ∧
      t.units = s.units ∧ t.dram = s.dram) ∧
  (∀ (s : State) (f j root w pa : Nat), (s.slot f j).pending = true → s.usable f (s.slot f j).jreg.toNat = some root →
    s.readVa f ((s.slot f j).jreg.toNat + 0x38) 1 = some f → s.readVa f ((s.slot f j).jreg.toNat + 0xB8) 8 = some w → w % 8 = 0 →
    s.usable f w = some pa → s.tableFree (pa / 2 ^ 38) ≠ 0 →
    ∃ t, exec (.jobRegistration f j) s = .next t ∧ (t.slot f j).jslot = 1 ∧ (t.slot f j).pending = false ∧ (t.slot f j).armPa = pa ∧
      (pa, .arm (16 * f + j)) ∈ t.watched ∧ t.units = s.units) ∧
  (∀ (s : State) (f j : Nat), (s.slot f j).pending = true → s.usable f (s.slot f j).jreg.toNat = none →
    exec (.jobRegistration f j) s = .next (s.setSlot f j fun x => { x with jslot := 2, pending := false })) ∧
  (∀ (s : State) (f j : Nat), (s.slot f j).jslot = 2 ∨ (s.slot f j).jslot = 1 ∧ (s.armWord (16 * f + j) = 3 ∨ s.armWord (16 * f + j) = 4) →
    ∃ t, exec (.jregFree f j) s = .next t ∧ (t.slot f j).jreg = 0 ∧ (t.slot f j).jslot = 0 ∧ (t.slot f j).armId = 0 ∧
      (∀ pa, (pa, Watched.arm (16 * f + j)) ∉ t.watched ∧ (pa, Watched.refused (16 * f + j)) ∉ t.watched) ∧
      ∀ pa c b, s.rcbs[c]? = some b → b.job = 16 * f + j → (pa, Watched.status c) ∉ t.watched) ∧
  (∀ (s : State) (f : Nat) (v : BitVec 64), f < 64 → (s.vf f).istBusy = false →
    ∃ t, exec (.ilen f v) s = .next t ∧ t.vf f = { s.vf f with ilen := v, istBusy := true, istDone := false, istLock := false } ∧
      Soon s t 20000 (.invalidated f)) ∧
  (∀ (s : State) (f : Nat) (l : Bool), (s.vf f).istBusy = true →
    (l = s.locks.any fun l => l.2.1.part == f && decide (0 < (s.vf f).ilen.toNat) && decide (l.2.1.va < (s.vf f).iva.toNat + (s.vf f).ilen.toNat) &&
      decide ((s.vf f).iva.toNat < l.2.1.va + l.2.1.size)) →
    ∃ t, exec (.invalidationDone f) s = .next t ∧ t.vf f = { s.vf f with istBusy := false, istDone := true, istLock := l } ∧
      (l = true → t.units = s.units) ∧
      (l = false → ∀ u un, s.unit? u = some un → un.part = f → ∃ un', t.unit? u = some un' ∧ ∀ e ∈ un'.cache, e ∈ un.cache ∧
        ¬(0 < (s.vf f).ilen.toNat ∧ e.page.va < (s.vf f).iva.toNat + (s.vf f).ilen.toNat ∧ (s.vf f).iva.toNat < e.page.va + e.page.size))) ∧
  (∀ (s : State) (f : Nat) (v : BitVec 64), f < 64 → s.hasJob f = false → s.granted f v.toNat = true →
    exec (.ptroot f v) s = .next (s.setVf f fun x => { x with ptroot := v }))

/-- R304-R306, R308, R311, R319, R321: a host write reaches the register that its offset names and no other address; BAR 2 writes and
reads bytes of a mapped page, each VF's in the order received, and a refused read is a Completer Abort, counted in `PERR`; a checkpoint that is not refused starts, and
ends with its image in the buffer; a TDI locks, starts and exits. Accesses before boot, the firmware's table and checkpoint bytes are
the model's (logs 43, 86, 97), and so is when a write at another package has been performed (log 130). -/
def Obligations.HostAccessesAct : Prop :=
  (∀ (s : State) (o : Nat) (v : BitVec 64), s.hostOpen = true →
    (∀ ide, exec (.registerWrite ⟨64, ide⟩ 0x300 v) s = .next { s with ckbuf := v }) ∧
    (∀ k ide, k < 8 → exec (.registerWrite ⟨64, ide⟩ (0x100 + 8 * k) v) s =
      .next { s with srcown := s.srcown.set k (v.toNat % 256 / 128 * 128 + v.toNat % 64) }) ∧
    (∀ (q : Tlp) j, q.f < 64 → j < 16 → s.dropsTlp q = false →
      exec (.registerWrite q (0x100 * j + 0x30) v) s = .next (s.setSlot q.f j fun x => { x with jtres := v }) ∧
      exec (.registerWrite q (0x100 * j + 0x38) v) s = .next (s.setSlot q.f j fun x => { x with jfocus := v })) ∧
    (∀ (q : Tlp), q.f < 64 → 0x1500 ≤ o → exec (.registerWrite q o v) s = .next s) ∧
    (∀ (q : Tlp) k, q.f < 64 → k < 8 → s.dropsTlp q = false →
      exec (.registerWrite q (0x1400 + 32 * k + 24) v) s = .next s ∧
      (2 < ((s.vf q.f).cadence.getD k []).length →
        (∃ t, exec (.registerWrite q (0x1400 + 32 * k + 8) v) s = .next t ∧ ((t.vf q.f).cadence.getD k []).getD 1 0 = v &&& 0xFFFFFFFF) ∧
        ∃ t, exec (.registerWrite q (0x1400 + 32 * k + 16) v) s = .next t ∧ ((t.vf q.f).cadence.getD k []).getD 2 0 = v &&& 0xFF))) ∧
  (∀ (s : State) (f a n : Nat) (v : W64) (bs : List Byte) (pg : Bool), f < 64 → (s.vf f).tdi = 2 → exec (.registerWrite ⟨f, false⟩ a v) s = .next s ∧
    exec (.bar2Write ⟨f, false⟩ a bs) s = .next s ∧ exec (.bar2Read ⟨⟨f, false⟩, pg⟩ a n) s = .next s) ∧
  (∀ (s : State) (f j : Nat) (ide : Bool), s.hostOpen = true → f < 64 → j < 16 → s.dropsTlp ⟨f, ide⟩ = false →
    exec (.bar2Read ⟨⟨f, ide⟩, true⟩ (0x100 * j + 0x08) 8) s = .next { s.countCorrected with
      out := s.out ++ [.completion f (0x100 * j + 0x08) (leBytes 8 ((s.slot f j).jslot % 4)) false] } ∧
    exec (.bar2Read ⟨⟨f, ide⟩, true⟩ 0x1108 8) s = .next { s.countCorrected with
      out := s.out ++ [.completion f 0x1108 (leBytes 8 (s.vf f).perr.toNat) false] } ∧
    exec (.bar2Read ⟨⟨f, ide⟩, true⟩ 0xFFF8 8) s = .next { s.countCorrected with out := s.out ++ [.completion f 0xFFF8 (leBytes 8 0) false] }) ∧
  (∀ (s : State) (f a n : Nat) (bs : List Byte) (ide : Bool), s.hostOpen = true → f < 64 → s.dropsTlp ⟨f, ide⟩ = false → s.ckBusy = false →
    ((s.vf f).waiting ≠ [] ∨ (s.vf f).posted.le s.time = false) →
    (∃ t, exec (.bar2Write ⟨f, ide⟩ a bs) s = .next t ∧ (t.vf f).waiting = (s.vf f).waiting ++ [.write a bs] ∧ t.dram = s.dram ∧ t.host = s.host ∧
      t.out = s.out) ∧
    ∃ t, exec (.bar2Read ⟨⟨f, ide⟩, false⟩ a n) s = .next t ∧ (t.vf f).waiting = (s.vf f).waiting ++ [.read a n] ∧ t.dram = s.dram ∧ t.out = s.out) ∧
  (∀ (s : State) (f a : Nat) (g : Page) (bs : List Byte) (ide : Bool), s.hostOpen = true → f < 64 → (s.vf f).waiting = [] →
    (s.vf f).posted.le s.time = true → s.dropsTlp ⟨f, ide⟩ = false → s.ckBusy = false → a / 64 = (a + bs.length - 1) / 64 →
    bs ≠ [] → a + bs.length ≤ 2 ^ 40 → (s.walk f a).2 = some g → g.part = f → g.w = true → g.space = 0 → g.va ≤ a → (g.pa + (a - g.va)) % 64 = a % 64 →
    s.foreignKey (g.pa + (a - g.va)) f = false → (∀ w ∈ s.dram.log, w.who.unit = 200 → w.key ≤ s.nextId) →
    ∃ t, exec (.bar2Write ⟨f, ide⟩ a bs) s = .next t ∧ (∀ j, j < bs.length → t.dram.read (g.pa + (a - g.va) + j) = bs.getD j 0) ∧
      (∀ x, (x < g.pa + (a - g.va) ∨ g.pa + (a - g.va) + bs.length ≤ x) → t.dram.read x = s.dram.read x) ∧ t.units = s.units) ∧
  (∀ (s : State) (f a n : Nat) (g : Page) (ide : Bool), s.hostOpen = true → f < 64 → (s.vf f).waiting = [] → (s.vf f).posted.le s.time = true → s.dropsTlp ⟨f, ide⟩ = false → s.ckBusy = false → 0 < n → a / 64 = (a + n - 1) / 64 → a + n ≤ 2 ^ 40 →
    (s.walk f a).2 = some g → g.part = f → g.r = true → g.space = 0 → (∀ j, j < n → s.foreignKey (g.pa + (a - g.va) + j) f = false) →
    exec (.bar2Read ⟨⟨f, ide⟩, false⟩ a n) s = .next { s.enqueue (g.pa + (a - g.va)) n with out := s.out ++ [.completion f a (s.dram.bytes (g.pa + (a - g.va)) n) false] }) ∧
  (∀ (s : State) (f a n : Nat) (ide : Bool), s.hostOpen = true → f < 64 → s.dropsTlp ⟨f, ide⟩ = false → s.ckBusy = false → (s.vf f).waiting = [] →
    (s.vf f).posted.le s.time = true → 2 ^ 40 < a + n →
    exec (.bar2Read ⟨⟨f, ide⟩, false⟩ a n) s = .next { s.countPerr f with out := s.out ++ [.completion f a [] true] }) ∧
  (∀ (s : State) (i : Instr) (r : Bool), i = (if r then .checkpointRestore else .checkpointSave) →
    (s.ckRefuses = true → exec i s = .next { s with ckRefused := true }) ∧
    (s.ckRefuses = false → ∃ t, exec i s = .next t ∧ t.ckBusy = true ∧ t.ckDone = false ∧ t.ckRefused = false ∧ t.ckRestore = r ∧
      Soon s t 4000000000 .checkpoint ∧ t.dram = s.dram)) ∧
  (∀ (s : State), s.ckBusy = true → s.ckRestore = false → ∃ t, exec .checkpointDone s = .next t ∧ t.ckBusy = false ∧ t.ckDone = true ∧
    find t.images s.ckbuf.toNat = some ⟨true, s.dram, s.sealed, s.scrambled⟩ ∧ t.dram = s.dram) ∧
  (∀ (s : State) (m : Image), s.ckBusy = true → s.ckRestore = true → find s.images s.ckbuf.toNat = some m → m.whole = true →
    ∃ t, exec .checkpointDone s = .next t ∧ t.ckBusy = false ∧ t.ckDone = true ∧ t.dram = m.dram ∧ t.sealed = m.sealed) ∧
  (∀ (s : State) (f : Nat), f < 64 →
    ((s.vf f).tdi = 0 → exec (.tdispMessage f .lock) s = .next (s.setVf f fun x => { x with tdi := 1 })) ∧
    ((s.vf f).tdi = 1 → exec (.tdispMessage f .start) s = .next (s.setVf f fun x => { x with tdi := 2 })) ∧
    ((s.vf f).tdi ≠ 0 → ∃ t, exec (.tdiExit f) s = .next t ∧ (t.vf f).tdi = 0 ∧ (t.vf f).key = none ∧
      ∀ u un, s.unit? u = some un → un.part = f → ∃ un', t.unit? u = some un' ∧ un'.run = .stopped ∧ un'.pend = [] ∧ un'.beats = []))

/-- R292, R313, R314: a frame whose header is right for a descriptor is taken: a keep-alive sets LINK for 50 ms, a sample frame announces the instant of
each of its samples and sends its bytes to the ring, or counts it in DROPS where it lies too far behind the highest, and during a halt of a job on
the source in JDROP in the ring's stead; credit and end-of-stream frames change nothing in the port; a frame whose header is wrong, or that matches
no descriptor, is counted in DROPS; the port sends its own keep-alive, credit and sample frames in their time. Which DROPS counts a frame
without a descriptor (log 45), COUNT in other types (log 91), CREDIT (log 92) and that a PTP message sets the timebase at once (log 89)
are the model's. -/
def Obligations.StreamsCarry : Prop :=
  (∀ (s : State) (p k f : Nat) (d : List W64) (fr : Frame), s.hostOpen = true → s.matchFrame p fr = some (k, f, d) →
    (fr.headerOk (descSsz d) = true →
      (fr.nat 3 1 = 1 → ∃ t, exec (.keepAliveRx p fr) s = .next t ∧ (∃ x, find t.sources k = some x ∧ x.link = true ∧ x.kaAt = s.time) ∧
        t.timers = s.timers ++ [(s.time.add (Frac.ofNat 50000000), .silence f k)]) ∧
      (fr.nat 3 1 = 2 → exec (.creditRx p fr) s = .next s) ∧ (fr.nat 3 1 = 3 → exec (.endOfStreamRx p fr) s = .next s) ∧
      (fr.nat 3 1 = 0 → (s.jobs.map (·.1)).Pairwise (· < ·) → ∃ (t : State) (a b : Nat → Nat) (ok : List Nat),
        ok = (List.range (fr.nat 6 2)).filter (fun i =>
          ((find s.sources k).bind (·.high)).all fun h => decide (h < fr.nat 8 8 + i + descSlots d)) ∧
        exec (.samplesFrame p fr) s = .next t ∧ t.units = s.units ∧ t.samples = s.samples ++ ok.map (fun i => (k, fr.nat 8 8 + i, fr.inst i)) ∧
        (∀ i, a i + b i ≤ 2000) ∧
        (s.haltedOn k = [] → t.jobs = s.jobs ∧ t.timers = s.timers ++ ok.flatMap fun i =>
          [((s.time.max (fr.inst i)).add (Frac.ofNat (a i)),
            .deliver f ((d.getD 1 0).toNat + slotBytes d * ((fr.nat 8 8 + i) % descSlots d)) ((fr.bytes.drop (32 + descSsz d * i)).take (descSsz d))),
            ((s.time.max (fr.inst i)).add (Frac.ofNat (a i + b i)),
              .deliver f ((d.getD 1 0).toNat + slotBytes d * ((fr.nat 8 8 + i) % descSlots d) + slotBytes d - 64)
                (leBytes 8 (fr.nat 8 8 + i) ++ leBytes 8 (fr.inst i).floor ++ leBytes 48 0))]) ∧
        (s.haltedOn k ≠ [] → t.timers = s.timers ∧ ∀ j x, j ∈ s.haltedOn k → find s.jobs j = some x →
          ∃ n, find t.jobs j = some { x with jdrop := n } ∧ n % 2 ^ 32 = (x.jdrop + ok.length) % 2 ^ 32) ∧
        ∃ x', find t.sources k = some x' ∧ (0 < fr.nat 6 2 →
            x'.high = some (max (fr.nat 8 8 + fr.nat 6 2 - 1) (((find s.sources k).bind (·.high)).getD 0))) ∧
          x'.drops % 2 ^ 64 = (((find s.sources k).map (·.drops)).getD 0 + (fr.nat 6 2 - ok.length)) % 2 ^ 64)) ∧
    (fr.headerOk (descSsz d) = false → (fr.headerOk 0 = true → fr.nat 3 1 = 0) → ∀ x, find s.sources k = some x →
      ∃ t, exec (.samplesFrame p fr) s = .next t ∧ (∃ x', find t.sources k = some x' ∧ x'.drops = (x.drops + 1) % 2 ^ 64) ∧ t.samples = s.samples)) ∧
  (∀ (s : State) (p k f : Nat) (fr : Frame) (x : Source), s.hostOpen = true → s.matchFrame p fr = none → (fr.headerOk 0 = true → fr.nat 3 1 = 0) →
    s.nearest p fr = some (k, f) → find s.sources k = some x →
    ∃ t, exec (.samplesFrame p fr) s = .next t ∧ (∃ x', find t.sources k = some x' ∧ x'.drops = (x.drops + 1) % 2 ^ 64) ∧ t.samples = s.samples) ∧
  (∀ (s : State) (f k : Nat) (d : List W64), s.streamOf k = some (f, d) →
    (exec (.keepAliveTx f k) s = .next { s with
      out := s.out ++ [header d 1 0 0 0 0 0 []], timers := s.timers ++ [(s.time.add (Frac.ofNat 10000000), .keepAlive f k)] }) ∧
    (∃ t c, exec (.creditTx f k) s = .next t ∧ t.out = s.out ++ [header d 2 0 0 0 0 c []] ∧
      t.timers = s.timers ++ [(s.time.add (Frac.ofNat 1000000), .credit f k)] ∧ ∀ c', (find s.sources k).bind (·.credit) = some c' → c = c') ∧
    (∀ n ts va bs, (d.getD 0 0).getLsbD 2 = true → va = (d.getD 2 0).toNat + slotBytes d * (n % descSlots d) → s.readBytes f va (descSsz d) = some bs →
      ∃ queues, exec (.transmit f k ⟨n, ts⟩) s = .next { s with
        queues, out := s.out ++ [header d 0 1 n ts (((find s.sources k).map (·.period)).getD 0) 0 bs] }) ∧
    (∀ n ts va, (d.getD 0 0).getLsbD 2 = true → va = (d.getD 2 0).toNat + slotBytes d * (n % descSlots d) → s.readBytes f va (descSsz d) = none →
      ∃ bs, bs.length = descSsz d ∧ exec (.transmit f k ⟨n, ts⟩) s = .next { s with
        free := s.free + descSsz d, out := s.out ++ [header d 0 1 n ts (((find s.sources k).map (·.period)).getD 0) 0 bs] })) ∧
  (∀ (s : State) (f k : Nat) (x : Source), find s.sources k = some x →
    ((x.kaAt.add (Frac.ofNat 50000000)).le s.time = true → ∃ t x', exec (.linkTimeout f k) s = .next t ∧ find t.sources k = some x' ∧ x'.link = false) ∧
    ((x.kaAt.add (Frac.ofNat 50000000)).le s.time = false → exec (.linkTimeout f k) s = .next s)) ∧
  (∀ (s : State) (g : Int), exec (.ptpMessage g) s =
    .next { s with time := if 0 ≤ g then s.time.add (Frac.ofNat g.toNat) else s.time.sub (Frac.ofNat (-g).toNat) }) ∧
  (∀ (s : State) (f k n : Nat), ((((s.vf f).cadence.getD k []).getD 2 0).getLsbD 0) = true →
    ∃ t, exec (.hostCadenceSample f k n) s = .next t ∧
      (cadenceInst ((s.vf f).cadence.getD k []) (n + 1), .cadence f k (n + 1)) ∈ t.timers ∧ t.units = s.units ∧
      ∀ i, i < s.regions.length → s.sourceKey (s.region i) = 64 * (f + 1) + 8 + k → (s.region i).gauge = .locked → (s.region i).stamps ≠ [] →
        (s.region i).srcN < n → (t.region i).srcN = n)

/-- R194, R316-R318: a flit for this package does what its type says: a read answers with the memory's bytes, a write changes those
bytes and no others, an atomic leaves its new value and answers with the old one; an answer reaches the beat that asked; a gauge flit
announces its sample, a time flit of a lower package sets the timebase; ports train, fail, go down and renew their keys. The layouts of
control flits are the model's choice (log 41); bytes in error or under another key (log 46), gauge sources (log 67), time messages (log
89) and the counting of flits (log 90) are its readings. -/
def Obligations.FlitsAct : Prop :=
  (∀ (s : State) (p : Nat) (fl : Flit), Accepts 1 s p fl → inMemory fl.pa (min fl.param.toNat 64) = true →
    s.badIn .dram fl.pa (min fl.param.toNat 64) = false → (∀ j, j < min fl.param.toNat 64 → s.foreignKey (fl.pa + j) fl.part.toNat = false) →
    exec (.readRequest p fl) s =
      .next (((s.counted p).enqueue fl.pa (min fl.param.toNat 64)).answer fl 4 false (s.dram.bytes fl.pa (min fl.param.toNat 64)))) ∧
  (∀ (s : State) (p : Nat) (fl : Flit), Accepts 2 s p fl → inMemory fl.pa fl.data.length = true → s.foreignKey fl.pa fl.part.toNat = false →
    (∀ w ∈ s.dram.log, w.who.unit = 202 → w.key ≤ s.nextId) → ∃ t, exec (.write p fl) s = .next t ∧
      (∀ j, j < fl.data.length → t.dram.read (fl.pa + j) = fl.data.getD j 0) ∧
      ∀ x, (x < fl.pa ∨ fl.pa + fl.data.length ≤ x) → t.dram.read x = s.dram.read x) ∧
  (∀ (s : State) (p new fl' : Nat) (fl : Flit), Accepts 3 s p fl → inMemory fl.pa (min fl.param.toNat 8) = true →
    s.badIn .dram fl.pa (min fl.param.toNat 8) = false → (∀ j, j < min fl.param.toNat 8 → s.foreignKey (fl.pa + j) fl.part.toNat = false) →
    (∀ w ∈ s.dram.log, w.who.unit = 202 → w.key ≤ s.nextId) →
    atomNew (leNat ((fl.payload.drop 40).take 8)) (leNat (s.dram.bytes fl.pa (min fl.param.toNat 8))) (BitVec.ofNat 64 (fl.nat 32 8))
      (BitVec.ofNat 64 (fl.nat 8 8)) = (some new, fl') →
    ∃ t t', exec (.atomic p fl) s = .next t ∧ t = State.answer t' fl 5 false (s.dram.bytes fl.pa (min fl.param.toNat 8)) ∧
      (∀ j, j < min fl.param.toNat 8 → t.dram.read (fl.pa + j) = BitVec.ofNat 8 (new / 256 ^ j)) ∧
      ∀ x, (x < fl.pa ∨ fl.pa + min fl.param.toNat 8 ≤ x) → t.dram.read x = s.dram.read x) ∧
  (∀ (s : State) (p ty : Nat) (fl : Flit) (i : Instr) (un : Machine.Unit) (b : Beat) (q : Piece),
    (ty = 4 ∧ i = .readResponse p fl ∧ fl.unit ≠ 200 ∨ ty = 5 ∧ i = .atomicResponse p fl) → Accepts ty s p fl → s.unit? fl.unit.toNat = some un →
    b ∈ un.beats → b.chan = fl.chan.toNat → b.tid = fl.xid.toNat → b.got = false → (q ∈ b.plan.reads ∨ b.plan.sink = .atomic q) →
    q.space = .remote fl.spkg.toNat → q.addr = fl.pa →
    ∃ un', exec i s = .next ((s.counted p).setUnit fl.unit.toNat un') ∧ un' = { un with beats := un'.beats } ∧
      { b with resp := put b.resp fl.pa (if fl.bad then [] else fl.data), ue := b.ue || fl.bad } ∈ un'.beats) ∧
  (∀ (s : State) (p f a n : Nat) (fl : Flit), Accepts 4 s p fl → fl.unit = 200 →
    (s.hostReads.find? fun h => h.1 == fl.xid.toNat) = some (fl.xid.toNat, f, a, n) →
    exec (.readResponse p fl) s = .next { s.counted p with
      hostReads := s.hostReads.filter fun h => h.1 != fl.xid.toNat, out := s.out ++ [.completion f a (if fl.bad then [] else fl.data.take n) fl.bad] }) ∧
  (∀ (s : State) (p : Nat) (fl : Flit) (t0 : Frac), Accepts 6 s p fl → t0 = Frac.norm ⟨fl.nat 8 8, max 1 (fl.nat 16 8)⟩ →
    (t0.add (Frac.ofNat 1000)).lt s.time = false →
    exec (.gauge p fl) s = .next { s.counted p with
      samples := s.samples ++ [(fl.param.toNat % 64, fl.nat 0 8, t0)]
      elastic := (s.elastic.filter (· != fl.param.toNat % 64)) ++ if fl.nat 24 1 = 1 then [fl.param.toNat % 64] else [] }) ∧
  (∀ (s : State) (p : Nat) (fl : Flit), Accepts 11 s p fl → fl.spkg.toNat = s.lowest → s.lowest ≠ s.boot.pkgNo →
    exec (.time p fl) s = .next { s.counted p with time := Frac.ofNat (fl.nat 0 8) }) ∧
  (∀ (s : State) (p n : Nat), p < s.ports.length → s.boot.step = 5 → ∃ t, exec (.linkTraining p n) s = .next t ∧
    (n = 8 ∨ n = 4 → t.port p = { s.port p with lanes := n, txSeq := 0, rxSeq := 0, txCount := 0, rxCount := 0, fails := 0, keys := (s.port p).keys + 1
                                                txSalt := (Config.freeWord s.free).setWidth 32, rxSalt := (Config.freeWord (s.free + 1)).setWidth 32 }) ∧
    (n ≠ 8 → n ≠ 4 → (t.port p).lanes = 0) ∧ ∀ q, q ≠ p → t.port q = s.port q) ∧
  (∀ (s : State) (p : Nat), p < s.ports.length → (s.port p).lanes ≠ 0 →
    (∃ t, exec (.flitFailure p) s = .next t ∧ t.port p = { s.port p with fails := (s.port p).fails + 1 } ∧
      (16 ≤ (s.port p).fails + 1 → t.timers = s.timers ++ [(s.time, .down p)])) ∧
    (16 ≤ (s.port p).fails → ∃ t, exec (.portDown p) s = .next t ∧ (t.port p).lanes = 0 ∧ t.boot.routes.length = s.boot.routes.length ∧
      ∀ k, (s.boot.routes.getD k (0, 0)).1 ≠ p → t.boot.routes.getD k (0, 0) = s.boot.routes.getD k (0, 0)) ∧
    exec (.keyUpdate (.port p)) s = .next (s.setPort p fun x => { x with txCount := 0, rxCount := 0, keys := x.keys + 1 }))

/-- R245, R319, R320: boot runs its five steps after their checks and opens the host port, or stops at the check that fails; the SPDM
responder answers each request in its stage, and keys are set within a session while the TDI is locked. The SPDM codes and stages are
presumed from SPDM 1.3 (log 47) and the bytes of its answers are free (log 6). -/
def Obligations.BootAndAttest : Prop :=
  (∀ (s : State) (im : BootImage), s.boot.step = 0 → s.boot.failed = false → ∃ t, exec (.boot im) s = .next t ∧ t.units = s.units ∧
    (im.loaderOk = true → im.firmwareOk = true → im.tablesOk = true → im.configOk = true →
      t.boot.step = 5 ∧ t.boot.failed = false ∧ t.boot.measured = im.digests.take 4 ∧ t.boot.pkgNo = im.pkgNo.toNat ∧ t.boot.routes = im.routes ∧
        (∀ a, t.dram.read a = 0) ∧ t.sealed = []) ∧
    (im.loaderOk = false ∨ im.firmwareOk = false ∨ im.tablesOk = false ∨ im.configOk = false →
      t.boot.failed = true ∧ t.boot.step < 5 ∧ t.hostOpen = false)) ∧
  (∀ (s : State) (f : Nat), s.responds f = true →
    (∃ t bs, exec (.getVersion f) s = .next t ∧ t.spdmOf f = ⟨1, []⟩ ∧ t.out = s.out ++ [.spdm f 0x04 (0x13 :: bs)]) ∧
    (1 ≤ (s.spdmOf f).stage → ∃ t bs, exec (.getCapabilities f) s = .next t ∧ 2 ≤ (t.spdmOf f).stage ∧ t.out = s.out ++ [.spdm f 0x61 bs]) ∧
    (2 ≤ (s.spdmOf f).stage → ∃ t bs, exec (.negotiateAlgorithms f 0) s = .next t ∧ (t.spdmOf f).stage = 3 ∧ t.out = s.out ++ [.spdm f 0x63 bs]) ∧
    (3 ≤ (s.spdmOf f).stage →
      (∃ t bs, exec (.getDigests f) s = .next t ∧ t.out = s.out ++ [.spdm f 0x01 bs]) ∧
      (∀ sl, ∃ t bs, exec (.getCertificate f sl) s = .next t ∧ t.out = s.out ++ [.spdm f 0x02 (BitVec.ofNat 8 sl :: bs)]) ∧
      (∀ no, ∃ t bs, exec (.challenge f no) s = .next t ∧ t.out = s.out ++ [.spdm f 0x03 (leBytes 32 no.toNat ++ bs)]) ∧
      (∀ ix m, s.measurement f ix = some m → ∃ t bs, exec (.getMeasurements f ix) s = .next t ∧ t.out = s.out ++ [.spdm f 0x60 (m ++ bs)]) ∧
      (∀ sid, ∃ t bs, exec (.keyExchange f sid false) s = .next t ∧ find (t.spdmOf f).sessions sid = some (false, 0) ∧
        t.out = s.out ++ [.spdm f 0x64 bs]) ∧
      (∀ sid n, find (s.spdmOf f).sessions sid = some (false, n) → ∃ t bs, exec (.finish f sid) s = .next t ∧
        find (t.spdmOf f).sessions sid = some (true, n) ∧ t.out = s.out ++ [.spdm f 0x65 bs]) ∧
      (∀ sid n, find (s.spdmOf f).sessions sid = some (true, n) → ∃ t bs, exec (.endSession f sid) s = .next t ∧
        find (t.spdmOf f).sessions sid = none ∧ t.out = s.out ++ [.spdm f 0x6C bs]))) ∧
  (∀ (s : State) (f sid n : Nat), s.responds f = true → find (s.spdmOf f).sessions sid = some (true, n) →
    3 ≤ (s.spdmOf f).stage → ∃ t bs, exec (.keyUpdate (.spdm f sid)) s = .next t ∧ find (t.spdmOf f).sessions sid = some (true, n + 1) ∧
      t.out = s.out ++ [.spdm f 0x69 bs]) ∧
  (∀ (s : State) (f part sid n : Nat) (key : BitVec 512), f < 128 → s.responds f = true → part < 64 → find (s.spdmOf f).sessions sid = some (true, n) →
    ((s.vf part).tdi = 1 → ∃ ps : List Nat, exec (.setKey f part key) s = .next { s.setVf part fun x => { x with key := some key } with
      out := s.out ++ ps.map fun p => Out.key p part key }) ∧
    ((s.vf part).tdi ≠ 1 → exec (.setKey f part key) s = .next s))

/-- R33: where a walker's turn to issue has come, the step fetches the word at which it stands with the two words after it and is `exec`
of the instruction that they spell, in the state with that walker noted, whose turn lasts until its slot of the cycle ends; a word that spells
none is taken as R55 says, and a level that begins a pass does so first. Between region cycles the step is `exec` of the outside world's event, or of the package's own, that comes first.
That each region cycle is carried out whole and an input is taken between cycles is the model's reading (logs 54, 96). -/
def Obligations.StepRunsDecoded : Prop :=
  (∀ (s : State) (u k n : Nat) (rest : List (Nat × Nat)) (un : Machine.Unit), s.stage = stageIssue → s.agenda = (u, k) :: rest →
    s.unit? u = some un → un.run = .running → (un.wk k).slot = .walking n →
    (un.startsPass (s.now un) k = true → Machine.step s = exec (.loopPassStart u k) { s with focus := (u, k) }) ∧
    (∀ i, un.startsPass (s.now un) k = false → decodeNat (un.word k) (un.istore.getD ((un.wk k).idx + 1) 0).toNat (un.istore.getD ((un.wk k).idx + 2) 0).toNat = .ok i →
      Machine.step s = exec i { s with focus := (u, k) }) ∧
    (∀ e, un.startsPass (s.now un) k = false → decodeNat (un.word k) (un.istore.getD ((un.wk k).idx + 1) 0).toNat (un.istore.getD ((un.wk k).idx + 2) 0).toNat = .error e →
      Machine.step s = .next (undecoded (un.word k) { s with focus := (u, k) }))) ∧
  (∀ (s : State) (n : Nat) (t : Frac), s.stage = 0 → s.unwritten = none →
    (∀ i, s.earliest = some (t, .input n) → s.inputs[n]? = some i →
      Machine.step s = exec i.2 { s with time := s.time.max t, inputs := s.inputs.eraseIdx n }) ∧
    (∀ x i, s.earliest = some (t, .timer n) → s.timers[n]? = some (x, .event i) →
      Machine.step s = exec i { s with time := s.time.max t, timers := s.timers.eraseIdx n }))

/-- R33, R38, R40, R47-R53: words that the spec writes out decode to the instructions that it writes beside them. -/
def Obligations.DecodedWords : Prop :=
  (∀ l m, decodeNat 0x084A1100 l m = .ok (.add 1 5 1 2)) ∧ (∀ l m, decodeNat 0x28884010 l m = .ok (.addi 5 4 4 16)) ∧
  (∀ l m, decodeNat 0x0A8E9802 l m = .ok (.ldW 1 7 9 2)) ∧ (∀ l m, decodeNat 0x0B4435FB l m = .ok (.cmpiLt 1 2 3 (-5))) ∧
  (∀ l m, decodeNat 0x2C480006 l m = .ok (.br 5 2 6)) ∧ decode [0x0A460001, 0x23456789, 1, 0] = some (.ok (.liLit 1 3 1 0x23456789 1), [0]) ∧
  (∀ l m, decodeNat 0x0E006400 l m = .ok (.waitc 1 6)) ∧ (∀ l m, decodeNat 0xA0C30428 l m = .ok (.vfma 3 1 2 1 0)) ∧
  (∀ l m, decodeNat 0xB853FC00 l m = .ok (.vmuli 5 0x3FC00)) ∧ (∀ l m, decodeNat 0x84000144 l m = .ok (.mma 0 2 1 0 2)) ∧
  (∀ l m, decodeNat 0xC0042980 l m = .ok (.cmov 0 4 5 6 0 0 0)) ∧ (∀ l m, decodeNat 0xE1806101 l m = .ok (.csrw 3 0x101))

/-- R33, R38-R53: the words of every well-formed instruction decode to that instruction, with every operand at every value that its field
admits, and its literal words are taken with it, whatever follows. -/
def Obligations.EncodeDecode : Prop :=
  ∀ (i : Instr) (rest : List W32), wellFormed i = true → encode i ≠ [] → decode (encode i ++ rest) = some (.ok i, rest)

/-- R31: a cast-on that finds its units leaves each of them with what R31 lists, and the start of the kernel, at a sample boundary, leaves it so. -/
def Obligations.CastOnState : Prop :=
  (∀ (s : State) (k : Nat) (ker : Kernel) (us : List Nat) (l : Load), s.kernels[k]? = some ker → ker.state = .ready → s.waiters = [k] →
    s.budgetFits ker = true → placeUnits ker.shape ker.n (s.freeFor ker) = some us → s.loadOf ker = some l → us.Nodup →
    ∃ t, exec (.kernelCastOn k) s = .next t ∧ ∀ u ∈ us, ∃ un', t.unit? u = some un' ∧ AsCastOn l.text un') ∧
  (∀ (s : State) (k : Nat) (ker : Kernel) (text : List W32), s.kernels[k]? = some ker → ker.live.Nodup →
    (∀ u ∈ ker.live, ∃ un, s.unit? u = some un ∧ AsCastOn text un) →
    ∃ t, exec (.kernelStart k) s = .next t ∧ ∀ u ∈ ker.live, ∃ un', t.unit? u = some un' ∧ AsCastOn text un')

/-- R87 and the opening of chapter 8: no word reaches beyond its unit. Whatever the word and the state, running a word leaves device memory, host
memory, the cluster and die stores and every unit but its own and that unit's pair partner as they were, and its own unit's store too: a
store's bytes are written when it is performed, and everything beyond the unit by the beats of the copy engine. Only `trig` reaches further: it
ends what the trigger before it held of other units' channels (R297). -/
def Obligations.WordsStayInTheUnit : Prop :=
  ∀ (i : Instr) (s t : State), encode i ≠ [] → exec i s = .next t →
    t.dram = s.dram ∧ t.host = s.host ∧ t.clusters = s.clusters ∧ t.dies = s.dies ∧ t.sealed = s.sealed ∧
      (∀ v, v ≠ s.focus.1 → v ≠ partner s.focus.1 → (∀ a n, i ≠ .trig a n) → t.unit? v = s.unit? v) ∧
      (∀ v w, v ≠ s.focus.1 → v ≠ partner s.focus.1 → s.unit? v = some w → ∃ chans, t.unit? v = some { w with chans } ∧
        chans.map (fun c : Chan => { c with hold := none }) = w.chans.map fun c => { c with hold := none }) ∧
      ∀ un, s.unit? s.focus.1 = some un → ∃ un', t.unit? s.focus.1 = some un' ∧ un'.store = un.store
end

