-- ==== Sys2Proof/Laws/Tables.lean ====
section
/-! SUPPORT. Sparse tables and lists: what reading finds after a change. -/

namespace Sys2Proof.Machine

@[simp] theorem find_put_self {α : Type} (t : List (Nat × α)) (k : Nat) (v : α) : find (put t k v) k = some v := by
  induction t with
  | nil => simp [put, find]
  | cons e t ih =>
    obtain ⟨j, w⟩ := e
    unfold put
    split
    · simp [find]
    · split
      · simp [find]
      · rename_i h1 h2; simp [find, ih, Ne.symm h2]

theorem find_put_ne {α : Type} (t : List (Nat × α)) {k j : Nat} (v : α) (h : j ≠ k) : find (put t k v) j = find t j := by
  induction t with
  | nil => simp [put, find, Ne.symm h]
  | cons e t ih =>
    obtain ⟨i, w⟩ := e
    unfold put
    split
    · simp [find, Ne.symm h]
    · split
      · rename_i h1 h2; subst h2; simp [find, Ne.symm h]
      · simp [find, ih]

theorem find_put {α : Type} (t : List (Nat × α)) (k j : Nat) (v : α) : find (put t k v) j = if j = k then some v else find t j := by
  by_cases h : j = k
  · subst h; simp
  · simp [h, find_put_ne t v h]

@[simp] theorem put_put {α : Type} (t : List (Nat × α)) (k : Nat) (v w : α) : put (put t k v) k w = put t k w := by
  induction t with
  | nil => simp [put]
  | cons e t ih =>
    obtain ⟨j, x⟩ := e
    by_cases h1 : k < j
    · simp [put, h1]
    · by_cases h2 : k = j
      · subst h2; simp [put]
      · simp [put, h1, h2, ih]

@[simp] theorem modify_length {α : Type} (l : List α) (k : Nat) (f : α → α) : (modify l k f).length = l.length := by
  induction l generalizing k with
  | nil => simp [modify]
  | cons a l ih => cases k <;> simp [modify, ih]

theorem modify_getElem? {α : Type} (l : List α) (k j : Nat) (f : α → α) :
    (modify l k f)[j]? = if j = k then l[j]?.map f else l[j]? := by
  induction l generalizing k j with
  | nil => simp [modify]
  | cons a l ih =>
    cases k with
    | zero => cases j <;> simp [modify]
    | succ k => cases j <;> simp [modify, ih]

theorem modify_getD {α : Type} (l : List α) (k j : Nat) (f : α → α) (d : α) :
    (modify l k f).getD j d = if j = k ∧ k < l.length then f (l.getD k d) else l.getD j d := by
  simp only [List.getD_eq_getElem?_getD, modify_getElem?]
  by_cases h : j = k
  · subst h
    by_cases h' : j < l.length
    · simp [h']
    · simp [h']
  · simp [h]

theorem modify_modify {α : Type} (l : List α) (k : Nat) (f g : α → α) : modify (modify l k f) k g = modify l k (g ∘ f) := by
  induction l generalizing k with
  | nil => simp [modify]
  | cons a l ih => cases k <;> simp [modify, ih]

end Sys2Proof.Machine
end

