-- ==== Sys2Proof/Laws/State.lean ====
section
/-! SUPPORT. One lemma per field per update of the state, of a unit and of a walker, so that no later proof unfolds a record update. -/

namespace Sys2Proof.Machine

@[simp] theorem State.setUnit_focus (s : State) (u : Nat) (un : Unit) : (s.setUnit u un).focus = s.focus := rfl
@[simp] theorem State.setUnit_turn (s : State) (u : Nat) (un : Unit) : (s.setUnit u un).turn = s.turn := rfl
@[simp] theorem State.setUnit_stage (s : State) (u : Nat) (un : Unit) : (s.setUnit u un).stage = s.stage := rfl
@[simp] theorem State.setUnit_agenda (s : State) (u : Nat) (un : Unit) : (s.setUnit u un).agenda = s.agenda := rfl
@[simp] theorem State.setUnit_free (s : State) (u : Nat) (un : Unit) : (s.setUnit u un).free = s.free := rfl
@[simp] theorem State.setUnit_time (s : State) (u : Nat) (un : Unit) : (s.setUnit u un).time = s.time := rfl
@[simp] theorem State.setUnit_regions (s : State) (u : Nat) (un : Unit) : (s.setUnit u un).regions = s.regions := rfl
@[simp] theorem State.setUnit_kernels (s : State) (u : Nat) (un : Unit) : (s.setUnit u un).kernels = s.kernels := rfl
@[simp] theorem State.setUnit_nodes (s : State) (u : Nat) (un : Unit) : (s.setUnit u un).nodes = s.nodes := rfl
@[simp] theorem State.setUnit_rcbs (s : State) (u : Nat) (un : Unit) : (s.setUnit u un).rcbs = s.rcbs := rfl
@[simp] theorem State.setUnit_joins (s : State) (u : Nat) (un : Unit) : (s.setUnit u un).joins = s.joins := rfl
@[simp] theorem State.setUnit_loops (s : State) (u : Nat) (un : Unit) : (s.setUnit u un).loops = s.loops := rfl
@[simp] theorem State.setUnit_order (s : State) (u : Nat) (un : Unit) : (s.setUnit u un).order = s.order := rfl
@[simp] theorem State.setUnit_jobs (s : State) (u : Nat) (un : Unit) : (s.setUnit u un).jobs = s.jobs := rfl
@[simp] theorem State.setUnit_vfs (s : State) (u : Nat) (un : Unit) : (s.setUnit u un).vfs = s.vfs := rfl
@[simp] theorem State.setUnit_watched (s : State) (u : Nat) (un : Unit) : (s.setUnit u un).watched = s.watched := rfl
@[simp] theorem State.setUnit_clusters (s : State) (u : Nat) (un : Unit) : (s.setUnit u un).clusters = s.clusters := rfl
@[simp] theorem State.setUnit_dies (s : State) (u : Nat) (un : Unit) : (s.setUnit u un).dies = s.dies := rfl
@[simp] theorem State.setUnit_dram (s : State) (u : Nat) (un : Unit) : (s.setUnit u un).dram = s.dram := rfl
@[simp] theorem State.setUnit_host (s : State) (u : Nat) (un : Unit) : (s.setUnit u un).host = s.host := rfl
@[simp] theorem State.setUnit_sealed (s : State) (u : Nat) (un : Unit) : (s.setUnit u un).sealed = s.sealed := rfl
@[simp] theorem State.setUnit_bad (s : State) (u : Nat) (un : Unit) : (s.setUnit u un).bad = s.bad := rfl
@[simp] theorem State.setUnit_queues (s : State) (u : Nat) (un : Unit) : (s.setUnit u un).queues = s.queues := rfl
@[simp] theorem State.setUnit_nextId (s : State) (u : Nat) (un : Unit) : (s.setUnit u un).nextId = s.nextId := rfl
@[simp] theorem State.setUnit_pin (s : State) (u : Nat) (un : Unit) : (s.setUnit u un).pin = s.pin := rfl
@[simp] theorem State.setUnit_top (s : State) (u : Nat) (un : Unit) : (s.setUnit u un).top = s.top := rfl
@[simp] theorem State.setUnit_locks (s : State) (u : Nat) (un : Unit) : (s.setUnit u un).locks = s.locks := rfl
@[simp] theorem State.setUnit_walks (s : State) (u : Nat) (un : Unit) : (s.setUnit u un).walks = s.walks := rfl
@[simp] theorem State.setUnit_crossings (s : State) (u : Nat) (un : Unit) : (s.setUnit u un).crossings = s.crossings := rfl
@[simp] theorem State.setUnit_gens (s : State) (u : Nat) (un : Unit) : (s.setUnit u un).gens = s.gens := rfl
@[simp] theorem State.setUnit_power (s : State) (u : Nat) (un : Unit) : (s.setUnit u un).power = s.power := rfl
@[simp] theorem State.setUnit_sources (s : State) (u : Nat) (un : Unit) : (s.setUnit u un).sources = s.sources := rfl
@[simp] theorem State.setUnit_samples (s : State) (u : Nat) (un : Unit) : (s.setUnit u un).samples = s.samples := rfl
@[simp] theorem State.setUnit_elastic (s : State) (u : Nat) (un : Unit) : (s.setUnit u un).elastic = s.elastic := rfl
@[simp] theorem State.setUnit_srcown (s : State) (u : Nat) (un : Unit) : (s.setUnit u un).srcown = s.srcown := rfl
@[simp] theorem State.setUnit_grants (s : State) (u : Nat) (un : Unit) : (s.setUnit u un).grants = s.grants := rfl
@[simp] theorem State.setUnit_cec (s : State) (u : Nat) (un : Unit) : (s.setUnit u un).cec = s.cec := rfl
@[simp] theorem State.setUnit_uec (s : State) (u : Nat) (un : Unit) : (s.setUnit u un).uec = s.uec := rfl
@[simp] theorem State.setUnit_ckbuf (s : State) (u : Nat) (un : Unit) : (s.setUnit u un).ckbuf = s.ckbuf := rfl
@[simp] theorem State.setUnit_ckBusy (s : State) (u : Nat) (un : Unit) : (s.setUnit u un).ckBusy = s.ckBusy := rfl
@[simp] theorem State.setUnit_ckDone (s : State) (u : Nat) (un : Unit) : (s.setUnit u un).ckDone = s.ckDone := rfl
@[simp] theorem State.setUnit_ckRefused (s : State) (u : Nat) (un : Unit) : (s.setUnit u un).ckRefused = s.ckRefused := rfl
@[simp] theorem State.setUnit_ckRestore (s : State) (u : Nat) (un : Unit) : (s.setUnit u un).ckRestore = s.ckRestore := rfl
@[simp] theorem State.setUnit_images (s : State) (u : Nat) (un : Unit) : (s.setUnit u un).images = s.images := rfl
@[simp] theorem State.setUnit_scrambled (s : State) (u : Nat) (un : Unit) : (s.setUnit u un).scrambled = s.scrambled := rfl
@[simp] theorem State.setUnit_hostReads (s : State) (u : Nat) (un : Unit) : (s.setUnit u un).hostReads = s.hostReads := rfl
@[simp] theorem State.setUnit_ports (s : State) (u : Nat) (un : Unit) : (s.setUnit u un).ports = s.ports := rfl
@[simp] theorem State.setUnit_txq (s : State) (u : Nat) (un : Unit) : (s.setUnit u un).txq = s.txq := rfl
@[simp] theorem State.setUnit_spdm (s : State) (u : Nat) (un : Unit) : (s.setUnit u un).spdm = s.spdm := rfl
@[simp] theorem State.setUnit_boot (s : State) (u : Nat) (un : Unit) : (s.setUnit u un).boot = s.boot := rfl
@[simp] theorem State.setUnit_inputs (s : State) (u : Nat) (un : Unit) : (s.setUnit u un).inputs = s.inputs := rfl
@[simp] theorem State.setUnit_timers (s : State) (u : Nat) (un : Unit) : (s.setUnit u un).timers = s.timers := rfl
@[simp] theorem State.setUnit_out (s : State) (u : Nat) (un : Unit) : (s.setUnit u un).out = s.out := rfl

@[simp] theorem State.setRegion_focus (s : State) (r : Nat) (f : Region → Region) : (s.setRegion r f).focus = s.focus := rfl
@[simp] theorem State.setRegion_turn (s : State) (r : Nat) (f : Region → Region) : (s.setRegion r f).turn = s.turn := rfl
@[simp] theorem State.setRegion_stage (s : State) (r : Nat) (f : Region → Region) : (s.setRegion r f).stage = s.stage := rfl
@[simp] theorem State.setRegion_agenda (s : State) (r : Nat) (f : Region → Region) : (s.setRegion r f).agenda = s.agenda := rfl
@[simp] theorem State.setRegion_free (s : State) (r : Nat) (f : Region → Region) : (s.setRegion r f).free = s.free := rfl
@[simp] theorem State.setRegion_time (s : State) (r : Nat) (f : Region → Region) : (s.setRegion r f).time = s.time := rfl
@[simp] theorem State.setRegion_units (s : State) (r : Nat) (f : Region → Region) : (s.setRegion r f).units = s.units := rfl
@[simp] theorem State.setRegion_kernels (s : State) (r : Nat) (f : Region → Region) : (s.setRegion r f).kernels = s.kernels := rfl
@[simp] theorem State.setRegion_nodes (s : State) (r : Nat) (f : Region → Region) : (s.setRegion r f).nodes = s.nodes := rfl
@[simp] theorem State.setRegion_rcbs (s : State) (r : Nat) (f : Region → Region) : (s.setRegion r f).rcbs = s.rcbs := rfl
@[simp] theorem State.setRegion_joins (s : State) (r : Nat) (f : Region → Region) : (s.setRegion r f).joins = s.joins := rfl
@[simp] theorem State.setRegion_loops (s : State) (r : Nat) (f : Region → Region) : (s.setRegion r f).loops = s.loops := rfl
@[simp] theorem State.setRegion_order (s : State) (r : Nat) (f : Region → Region) : (s.setRegion r f).order = s.order := rfl
@[simp] theorem State.setRegion_jobs (s : State) (r : Nat) (f : Region → Region) : (s.setRegion r f).jobs = s.jobs := rfl
@[simp] theorem State.setRegion_vfs (s : State) (r : Nat) (f : Region → Region) : (s.setRegion r f).vfs = s.vfs := rfl
@[simp] theorem State.setRegion_watched (s : State) (r : Nat) (f : Region → Region) : (s.setRegion r f).watched = s.watched := rfl
@[simp] theorem State.setRegion_clusters (s : State) (r : Nat) (f : Region → Region) : (s.setRegion r f).clusters = s.clusters := rfl
@[simp] theorem State.setRegion_dies (s : State) (r : Nat) (f : Region → Region) : (s.setRegion r f).dies = s.dies := rfl
@[simp] theorem State.setRegion_dram (s : State) (r : Nat) (f : Region → Region) : (s.setRegion r f).dram = s.dram := rfl
@[simp] theorem State.setRegion_host (s : State) (r : Nat) (f : Region → Region) : (s.setRegion r f).host = s.host := rfl
@[simp] theorem State.setRegion_sealed (s : State) (r : Nat) (f : Region → Region) : (s.setRegion r f).sealed = s.sealed := rfl
@[simp] theorem State.setRegion_bad (s : State) (r : Nat) (f : Region → Region) : (s.setRegion r f).bad = s.bad := rfl
@[simp] theorem State.setRegion_queues (s : State) (r : Nat) (f : Region → Region) : (s.setRegion r f).queues = s.queues := rfl
@[simp] theorem State.setRegion_nextId (s : State) (r : Nat) (f : Region → Region) : (s.setRegion r f).nextId = s.nextId := rfl
@[simp] theorem State.setRegion_pin (s : State) (r : Nat) (f : Region → Region) : (s.setRegion r f).pin = s.pin := rfl
@[simp] theorem State.setRegion_top (s : State) (r : Nat) (f : Region → Region) : (s.setRegion r f).top = s.top := rfl
@[simp] theorem State.setRegion_locks (s : State) (r : Nat) (f : Region → Region) : (s.setRegion r f).locks = s.locks := rfl
@[simp] theorem State.setRegion_walks (s : State) (r : Nat) (f : Region → Region) : (s.setRegion r f).walks = s.walks := rfl
@[simp] theorem State.setRegion_crossings (s : State) (r : Nat) (f : Region → Region) : (s.setRegion r f).crossings = s.crossings := rfl
@[simp] theorem State.setRegion_gens (s : State) (r : Nat) (f : Region → Region) : (s.setRegion r f).gens = s.gens := rfl
@[simp] theorem State.setRegion_power (s : State) (r : Nat) (f : Region → Region) : (s.setRegion r f).power = s.power := rfl
@[simp] theorem State.setRegion_sources (s : State) (r : Nat) (f : Region → Region) : (s.setRegion r f).sources = s.sources := rfl
@[simp] theorem State.setRegion_samples (s : State) (r : Nat) (f : Region → Region) : (s.setRegion r f).samples = s.samples := rfl
@[simp] theorem State.setRegion_elastic (s : State) (r : Nat) (f : Region → Region) : (s.setRegion r f).elastic = s.elastic := rfl
@[simp] theorem State.setRegion_srcown (s : State) (r : Nat) (f : Region → Region) : (s.setRegion r f).srcown = s.srcown := rfl
@[simp] theorem State.setRegion_grants (s : State) (r : Nat) (f : Region → Region) : (s.setRegion r f).grants = s.grants := rfl
@[simp] theorem State.setRegion_cec (s : State) (r : Nat) (f : Region → Region) : (s.setRegion r f).cec = s.cec := rfl
@[simp] theorem State.setRegion_uec (s : State) (r : Nat) (f : Region → Region) : (s.setRegion r f).uec = s.uec := rfl
@[simp] theorem State.setRegion_ckbuf (s : State) (r : Nat) (f : Region → Region) : (s.setRegion r f).ckbuf = s.ckbuf := rfl
@[simp] theorem State.setRegion_ckBusy (s : State) (r : Nat) (f : Region → Region) : (s.setRegion r f).ckBusy = s.ckBusy := rfl
@[simp] theorem State.setRegion_ckDone (s : State) (r : Nat) (f : Region → Region) : (s.setRegion r f).ckDone = s.ckDone := rfl
@[simp] theorem State.setRegion_ckRefused (s : State) (r : Nat) (f : Region → Region) : (s.setRegion r f).ckRefused = s.ckRefused := rfl
@[simp] theorem State.setRegion_ckRestore (s : State) (r : Nat) (f : Region → Region) : (s.setRegion r f).ckRestore = s.ckRestore := rfl
@[simp] theorem State.setRegion_images (s : State) (r : Nat) (f : Region → Region) : (s.setRegion r f).images = s.images := rfl
@[simp] theorem State.setRegion_scrambled (s : State) (r : Nat) (f : Region → Region) : (s.setRegion r f).scrambled = s.scrambled := rfl
@[simp] theorem State.setRegion_hostReads (s : State) (r : Nat) (f : Region → Region) : (s.setRegion r f).hostReads = s.hostReads := rfl
@[simp] theorem State.setRegion_ports (s : State) (r : Nat) (f : Region → Region) : (s.setRegion r f).ports = s.ports := rfl
@[simp] theorem State.setRegion_txq (s : State) (r : Nat) (f : Region → Region) : (s.setRegion r f).txq = s.txq := rfl
@[simp] theorem State.setRegion_spdm (s : State) (r : Nat) (f : Region → Region) : (s.setRegion r f).spdm = s.spdm := rfl
@[simp] theorem State.setRegion_boot (s : State) (r : Nat) (f : Region → Region) : (s.setRegion r f).boot = s.boot := rfl
@[simp] theorem State.setRegion_inputs (s : State) (r : Nat) (f : Region → Region) : (s.setRegion r f).inputs = s.inputs := rfl
@[simp] theorem State.setRegion_timers (s : State) (r : Nat) (f : Region → Region) : (s.setRegion r f).timers = s.timers := rfl
@[simp] theorem State.setRegion_out (s : State) (r : Nat) (f : Region → Region) : (s.setRegion r f).out = s.out := rfl

@[simp] theorem Unit.setWk_run (un : Unit) (k : Nat) (f : Walker → Walker) : (un.setWk k f).run = un.run := rfl
@[simp] theorem Unit.setWk_region (un : Unit) (k : Nat) (f : Walker → Walker) : (un.setWk k f).region = un.region := rfl
@[simp] theorem Unit.setWk_kernel (un : Unit) (k : Nat) (f : Walker → Walker) : (un.setWk k f).kernel = un.kernel := rfl
@[simp] theorem Unit.setWk_place (un : Unit) (k : Nat) (f : Walker → Walker) : (un.setWk k f).place = un.place := rfl
@[simp] theorem Unit.setWk_part (un : Unit) (k : Nat) (f : Walker → Walker) : (un.setWk k f).part = un.part := rfl
@[simp] theorem Unit.setWk_steers (un : Unit) (k : Nat) (f : Walker → Walker) : (un.setWk k f).steers = un.steers := rfl
@[simp] theorem Unit.setWk_queues (un : Unit) (k : Nat) (f : Walker → Walker) : (un.setWk k f).queues = un.queues := rfl
@[simp] theorem Unit.setWk_istore (un : Unit) (k : Nat) (f : Walker → Walker) : (un.setWk k f).istore = un.istore := rfl
@[simp] theorem Unit.setWk_store (un : Unit) (k : Nat) (f : Walker → Walker) : (un.setWk k f).store = un.store := rfl
@[simp] theorem Unit.setWk_badWords (un : Unit) (k : Nat) (f : Walker → Walker) : (un.setWk k f).badWords = un.badWords := rfl
@[simp] theorem Unit.setWk_cause (un : Unit) (k : Nat) (f : Walker → Walker) : (un.setWk k f).cause = un.cause := rfl
@[simp] theorem Unit.setWk_slipw (un : Unit) (k : Nat) (f : Walker → Walker) : (un.setWk k f).slipw = un.slipw := rfl
@[simp] theorem Unit.setWk_ftv (un : Unit) (k : Nat) (f : Walker → Walker) : (un.setWk k f).ftv = un.ftv := rfl
@[simp] theorem Unit.setWk_div (un : Unit) (k : Nat) (f : Walker → Walker) : (un.setWk k f).div = un.div := rfl
@[simp] theorem Unit.setWk_divNext (un : Unit) (k : Nat) (f : Walker → Walker) : (un.setWk k f).divNext = un.divNext := rfl
@[simp] theorem Unit.setWk_mpc (un : Unit) (k : Nat) (f : Walker → Walker) : (un.setWk k f).mpc = un.mpc := rfl
@[simp] theorem Unit.setWk_baroff (un : Unit) (k : Nat) (f : Walker → Walker) : (un.setWk k f).baroff = un.baroff := rfl
@[simp] theorem Unit.setWk_late (un : Unit) (k : Nat) (f : Walker → Walker) : (un.setWk k f).late = un.late := rfl
@[simp] theorem Unit.setWk_ctxn (un : Unit) (k : Nat) (f : Walker → Walker) : (un.setWk k f).ctxn = un.ctxn := rfl
@[simp] theorem Unit.setWk_tvec (un : Unit) (k : Nat) (f : Walker → Walker) : (un.setWk k f).tvec = un.tvec := rfl
@[simp] theorem Unit.setWk_tstat (un : Unit) (k : Nat) (f : Walker → Walker) : (un.setWk k f).tstat = un.tstat := rfl
@[simp] theorem Unit.setWk_flagCnt (un : Unit) (k : Nat) (f : Walker → Walker) : (un.setWk k f).flagCnt = un.flagCnt := rfl
@[simp] theorem Unit.setWk_acc (un : Unit) (k : Nat) (f : Walker → Walker) : (un.setWk k f).acc = un.acc := rfl
@[simp] theorem Unit.setWk_ska (un : Unit) (k : Nat) (f : Walker → Walker) : (un.setWk k f).ska = un.ska := rfl
@[simp] theorem Unit.setWk_skb (un : Unit) (k : Nat) (f : Walker → Walker) : (un.setWk k f).skb = un.skb := rfl
@[simp] theorem Unit.setWk_active (un : Unit) (k : Nat) (f : Walker → Walker) : (un.setWk k f).active = un.active := rfl
@[simp] theorem Unit.setWk_shadow (un : Unit) (k : Nat) (f : Walker → Walker) : (un.setWk k f).shadow = un.shadow := rfl
@[simp] theorem Unit.setWk_mult (un : Unit) (k : Nat) (f : Walker → Walker) : (un.setWk k f).mult = un.mult := rfl
@[simp] theorem Unit.setWk_ksteps (un : Unit) (k : Nat) (f : Walker → Walker) : (un.setWk k f).ksteps = un.ksteps := rfl
@[simp] theorem Unit.setWk_mfree (un : Unit) (k : Nat) (f : Walker → Walker) : (un.setWk k f).mfree = un.mfree := rfl
@[simp] theorem Unit.setWk_mland (un : Unit) (k : Nat) (f : Walker → Walker) : (un.setWk k f).mland = un.mland := rfl
@[simp] theorem Unit.setWk_v (un : Unit) (k : Nat) (f : Walker → Walker) : (un.setWk k f).v = un.v := rfl
@[simp] theorem Unit.setWk_k (un : Unit) (k : Nat) (f : Walker → Walker) : (un.setWk k f).k = un.k := rfl
@[simp] theorem Unit.setWk_masks (un : Unit) (k : Nat) (f : Walker → Walker) : (un.setWk k f).masks = un.masks := rfl
@[simp] theorem Unit.setWk_vfree (un : Unit) (k : Nat) (f : Walker → Walker) : (un.setWk k f).vfree = un.vfree := rfl
@[simp] theorem Unit.setWk_chans (un : Unit) (k : Nat) (f : Walker → Walker) : (un.setWk k f).chans = un.chans := rfl
@[simp] theorem Unit.setWk_beats (un : Unit) (k : Nat) (f : Walker → Walker) : (un.setWk k f).beats = un.beats := rfl
@[simp] theorem Unit.setWk_banks (un : Unit) (k : Nat) (f : Walker → Walker) : (un.setWk k f).banks = un.banks := rfl
@[simp] theorem Unit.setWk_cache (un : Unit) (k : Nat) (f : Walker → Walker) : (un.setWk k f).cache = un.cache := rfl
@[simp] theorem Unit.setWk_pend (un : Unit) (k : Nat) (f : Walker → Walker) : (un.setWk k f).pend = un.pend := rfl
@[simp] theorem Unit.setWk_seq (un : Unit) (k : Nat) (f : Walker → Walker) : (un.setWk k f).seq = un.seq := rfl
@[simp] theorem Unit.setWk_phases (un : Unit) (k : Nat) (f : Walker → Walker) : (un.setWk k f).phases = un.phases := rfl
@[simp] theorem Unit.setWk_bars (un : Unit) (k : Nat) (f : Walker → Walker) : (un.setWk k f).bars = un.bars := rfl
@[simp] theorem Unit.setWk_barCnt (un : Unit) (k : Nat) (f : Walker → Walker) : (un.setWk k f).barCnt = un.barCnt := rfl
@[simp] theorem Unit.setWk_outbox (un : Unit) (k : Nat) (f : Walker → Walker) : (un.setWk k f).outbox = un.outbox := rfl
@[simp] theorem Unit.setWk_snap (un : Unit) (k : Nat) (f : Walker → Walker) : (un.setWk k f).snap = un.snap := rfl
@[simp] theorem Unit.setWk_seen (un : Unit) (k : Nat) (f : Walker → Walker) : (un.setWk k f).seen = un.seen := rfl
@[simp] theorem Unit.setWk_trigs (un : Unit) (k : Nat) (f : Walker → Walker) : (un.setWk k f).trigs = un.trigs := rfl
@[simp] theorem Unit.setWk_trigs0 (un : Unit) (k : Nat) (f : Walker → Walker) : (un.setWk k f).trigs0 = un.trigs0 := rfl
@[simp] theorem Unit.setWk_trace (un : Unit) (k : Nat) (f : Walker → Walker) : (un.setWk k f).trace = un.trace := rfl
@[simp] theorem Unit.setWk_traceN (un : Unit) (k : Nat) (f : Walker → Walker) : (un.setWk k f).traceN = un.traceN := rfl
@[simp] theorem Unit.setWk_lat (un : Unit) (k : Nat) (f : Walker → Walker) : (un.setWk k f).lat = un.lat := rfl
@[simp] theorem Unit.setWk_stop (un : Unit) (k : Nat) (f : Walker → Walker) : (un.setWk k f).stop = un.stop := rfl
@[simp] theorem Unit.setWk_ctx (un : Unit) (k : Nat) (f : Walker → Walker) : (un.setWk k f).ctx = un.ctx := rfl
@[simp] theorem Unit.setWk_request (un : Unit) (k : Nat) (f : Walker → Walker) : (un.setWk k f).request = un.request := rfl
@[simp] theorem Unit.setWk_p0 (un : Unit) (k : Nat) (f : Walker → Walker) : (un.setWk k f).p0 = un.p0 := rfl
@[simp] theorem Unit.setWk_yieldAt (un : Unit) (k : Nat) (f : Walker → Walker) : (un.setWk k f).yieldAt = un.yieldAt := rfl
@[simp] theorem Unit.setWk_haltAt (un : Unit) (k : Nat) (f : Walker → Walker) : (un.setWk k f).haltAt = un.haltAt := rfl
@[simp] theorem Unit.setWk_started (un : Unit) (k : Nat) (f : Walker → Walker) : (un.setWk k f).started = un.started := rfl
@[simp] theorem Unit.setWk_word0 (un : Unit) (k : Nat) (f : Walker → Walker) : (un.setWk k f).word0 = un.word0 := rfl
@[simp] theorem Unit.setWk_wdog (un : Unit) (k : Nat) (f : Walker → Walker) : (un.setWk k f).wdog = un.wdog := rfl
@[simp] theorem Unit.setWk_fired (un : Unit) (k : Nat) (f : Walker → Walker) : (un.setWk k f).fired = un.fired := rfl
@[simp] theorem Unit.setWk_redo (un : Unit) (k : Nat) (f : Walker → Walker) : (un.setWk k f).redo = un.redo := rfl
@[simp] theorem Unit.setWk_saveSeq (un : Unit) (k : Nat) (f : Walker → Walker) : (un.setWk k f).saveSeq = un.saveSeq := rfl
@[simp] theorem Unit.setWk_cut (un : Unit) (k : Nat) (f : Walker → Walker) : (un.setWk k f).cut = un.cut := rfl

@[simp] theorem Unit.later_run (un : Unit) (due rank : Nat) (eff : Eff) : (un.later due rank eff).run = un.run := rfl
@[simp] theorem Unit.later_region (un : Unit) (due rank : Nat) (eff : Eff) : (un.later due rank eff).region = un.region := rfl
@[simp] theorem Unit.later_kernel (un : Unit) (due rank : Nat) (eff : Eff) : (un.later due rank eff).kernel = un.kernel := rfl
@[simp] theorem Unit.later_place (un : Unit) (due rank : Nat) (eff : Eff) : (un.later due rank eff).place = un.place := rfl
@[simp] theorem Unit.later_part (un : Unit) (due rank : Nat) (eff : Eff) : (un.later due rank eff).part = un.part := rfl
@[simp] theorem Unit.later_walkers (un : Unit) (due rank : Nat) (eff : Eff) : (un.later due rank eff).walkers = un.walkers := rfl
@[simp] theorem Unit.later_steers (un : Unit) (due rank : Nat) (eff : Eff) : (un.later due rank eff).steers = un.steers := rfl
@[simp] theorem Unit.later_queues (un : Unit) (due rank : Nat) (eff : Eff) : (un.later due rank eff).queues = un.queues := rfl
@[simp] theorem Unit.later_istore (un : Unit) (due rank : Nat) (eff : Eff) : (un.later due rank eff).istore = un.istore := rfl
@[simp] theorem Unit.later_store (un : Unit) (due rank : Nat) (eff : Eff) : (un.later due rank eff).store = un.store := rfl
@[simp] theorem Unit.later_badWords (un : Unit) (due rank : Nat) (eff : Eff) : (un.later due rank eff).badWords = un.badWords := rfl
@[simp] theorem Unit.later_cause (un : Unit) (due rank : Nat) (eff : Eff) : (un.later due rank eff).cause = un.cause := rfl
@[simp] theorem Unit.later_slipw (un : Unit) (due rank : Nat) (eff : Eff) : (un.later due rank eff).slipw = un.slipw := rfl
@[simp] theorem Unit.later_ftv (un : Unit) (due rank : Nat) (eff : Eff) : (un.later due rank eff).ftv = un.ftv := rfl
@[simp] theorem Unit.later_div (un : Unit) (due rank : Nat) (eff : Eff) : (un.later due rank eff).div = un.div := rfl
@[simp] theorem Unit.later_divNext (un : Unit) (due rank : Nat) (eff : Eff) : (un.later due rank eff).divNext = un.divNext := rfl
@[simp] theorem Unit.later_mpc (un : Unit) (due rank : Nat) (eff : Eff) : (un.later due rank eff).mpc = un.mpc := rfl
@[simp] theorem Unit.later_baroff (un : Unit) (due rank : Nat) (eff : Eff) : (un.later due rank eff).baroff = un.baroff := rfl
@[simp] theorem Unit.later_late (un : Unit) (due rank : Nat) (eff : Eff) : (un.later due rank eff).late = un.late := rfl
@[simp] theorem Unit.later_ctxn (un : Unit) (due rank : Nat) (eff : Eff) : (un.later due rank eff).ctxn = un.ctxn := rfl
@[simp] theorem Unit.later_tvec (un : Unit) (due rank : Nat) (eff : Eff) : (un.later due rank eff).tvec = un.tvec := rfl
@[simp] theorem Unit.later_tstat (un : Unit) (due rank : Nat) (eff : Eff) : (un.later due rank eff).tstat = un.tstat := rfl
@[simp] theorem Unit.later_flagCnt (un : Unit) (due rank : Nat) (eff : Eff) : (un.later due rank eff).flagCnt = un.flagCnt := rfl
@[simp] theorem Unit.later_acc (un : Unit) (due rank : Nat) (eff : Eff) : (un.later due rank eff).acc = un.acc := rfl
@[simp] theorem Unit.later_ska (un : Unit) (due rank : Nat) (eff : Eff) : (un.later due rank eff).ska = un.ska := rfl
@[simp] theorem Unit.later_skb (un : Unit) (due rank : Nat) (eff : Eff) : (un.later due rank eff).skb = un.skb := rfl
@[simp] theorem Unit.later_active (un : Unit) (due rank : Nat) (eff : Eff) : (un.later due rank eff).active = un.active := rfl
@[simp] theorem Unit.later_shadow (un : Unit) (due rank : Nat) (eff : Eff) : (un.later due rank eff).shadow = un.shadow := rfl
@[simp] theorem Unit.later_mult (un : Unit) (due rank : Nat) (eff : Eff) : (un.later due rank eff).mult = un.mult := rfl
@[simp] theorem Unit.later_ksteps (un : Unit) (due rank : Nat) (eff : Eff) : (un.later due rank eff).ksteps = un.ksteps := rfl
@[simp] theorem Unit.later_mfree (un : Unit) (due rank : Nat) (eff : Eff) : (un.later due rank eff).mfree = un.mfree := rfl
@[simp] theorem Unit.later_mland (un : Unit) (due rank : Nat) (eff : Eff) : (un.later due rank eff).mland = un.mland := rfl
@[simp] theorem Unit.later_v (un : Unit) (due rank : Nat) (eff : Eff) : (un.later due rank eff).v = un.v := rfl
@[simp] theorem Unit.later_k (un : Unit) (due rank : Nat) (eff : Eff) : (un.later due rank eff).k = un.k := rfl
@[simp] theorem Unit.later_masks (un : Unit) (due rank : Nat) (eff : Eff) : (un.later due rank eff).masks = un.masks := rfl
@[simp] theorem Unit.later_vfree (un : Unit) (due rank : Nat) (eff : Eff) : (un.later due rank eff).vfree = un.vfree := rfl
@[simp] theorem Unit.later_chans (un : Unit) (due rank : Nat) (eff : Eff) : (un.later due rank eff).chans = un.chans := rfl
@[simp] theorem Unit.later_beats (un : Unit) (due rank : Nat) (eff : Eff) : (un.later due rank eff).beats = un.beats := rfl
@[simp] theorem Unit.later_banks (un : Unit) (due rank : Nat) (eff : Eff) : (un.later due rank eff).banks = un.banks := rfl
@[simp] theorem Unit.later_cache (un : Unit) (due rank : Nat) (eff : Eff) : (un.later due rank eff).cache = un.cache := rfl
@[simp] theorem Unit.later_phases (un : Unit) (due rank : Nat) (eff : Eff) : (un.later due rank eff).phases = un.phases := rfl
@[simp] theorem Unit.later_bars (un : Unit) (due rank : Nat) (eff : Eff) : (un.later due rank eff).bars = un.bars := rfl
@[simp] theorem Unit.later_barCnt (un : Unit) (due rank : Nat) (eff : Eff) : (un.later due rank eff).barCnt = un.barCnt := rfl
@[simp] theorem Unit.later_outbox (un : Unit) (due rank : Nat) (eff : Eff) : (un.later due rank eff).outbox = un.outbox := rfl
@[simp] theorem Unit.later_snap (un : Unit) (due rank : Nat) (eff : Eff) : (un.later due rank eff).snap = un.snap := rfl
@[simp] theorem Unit.later_seen (un : Unit) (due rank : Nat) (eff : Eff) : (un.later due rank eff).seen = un.seen := rfl
@[simp] theorem Unit.later_trigs (un : Unit) (due rank : Nat) (eff : Eff) : (un.later due rank eff).trigs = un.trigs := rfl
@[simp] theorem Unit.later_trigs0 (un : Unit) (due rank : Nat) (eff : Eff) : (un.later due rank eff).trigs0 = un.trigs0 := rfl
@[simp] theorem Unit.later_trace (un : Unit) (due rank : Nat) (eff : Eff) : (un.later due rank eff).trace = un.trace := rfl
@[simp] theorem Unit.later_traceN (un : Unit) (due rank : Nat) (eff : Eff) : (un.later due rank eff).traceN = un.traceN := rfl
@[simp] theorem Unit.later_lat (un : Unit) (due rank : Nat) (eff : Eff) : (un.later due rank eff).lat = un.lat := rfl
@[simp] theorem Unit.later_stop (un : Unit) (due rank : Nat) (eff : Eff) : (un.later due rank eff).stop = un.stop := rfl
@[simp] theorem Unit.later_ctx (un : Unit) (due rank : Nat) (eff : Eff) : (un.later due rank eff).ctx = un.ctx := rfl
@[simp] theorem Unit.later_request (un : Unit) (due rank : Nat) (eff : Eff) : (un.later due rank eff).request = un.request := rfl
@[simp] theorem Unit.later_p0 (un : Unit) (due rank : Nat) (eff : Eff) : (un.later due rank eff).p0 = un.p0 := rfl
@[simp] theorem Unit.later_yieldAt (un : Unit) (due rank : Nat) (eff : Eff) : (un.later due rank eff).yieldAt = un.yieldAt := rfl
@[simp] theorem Unit.later_haltAt (un : Unit) (due rank : Nat) (eff : Eff) : (un.later due rank eff).haltAt = un.haltAt := rfl
@[simp] theorem Unit.later_started (un : Unit) (due rank : Nat) (eff : Eff) : (un.later due rank eff).started = un.started := rfl
@[simp] theorem Unit.later_word0 (un : Unit) (due rank : Nat) (eff : Eff) : (un.later due rank eff).word0 = un.word0 := rfl
@[simp] theorem Unit.later_wdog (un : Unit) (due rank : Nat) (eff : Eff) : (un.later due rank eff).wdog = un.wdog := rfl
@[simp] theorem Unit.later_fired (un : Unit) (due rank : Nat) (eff : Eff) : (un.later due rank eff).fired = un.fired := rfl
@[simp] theorem Unit.later_redo (un : Unit) (due rank : Nat) (eff : Eff) : (un.later due rank eff).redo = un.redo := rfl
@[simp] theorem Unit.later_saveSeq (un : Unit) (due rank : Nat) (eff : Eff) : (un.later due rank eff).saveSeq = un.saveSeq := rfl
@[simp] theorem Unit.later_cut (un : Unit) (due rank : Nat) (eff : Eff) : (un.later due rank eff).cut = un.cut := rfl

@[simp] theorem Unit.enter_run (un : Unit) (k due : Nat) (eff : Eff) : (un.enter k due eff).run = un.run := rfl
@[simp] theorem Unit.enter_region (un : Unit) (k due : Nat) (eff : Eff) : (un.enter k due eff).region = un.region := rfl
@[simp] theorem Unit.enter_kernel (un : Unit) (k due : Nat) (eff : Eff) : (un.enter k due eff).kernel = un.kernel := rfl
@[simp] theorem Unit.enter_place (un : Unit) (k due : Nat) (eff : Eff) : (un.enter k due eff).place = un.place := rfl
@[simp] theorem Unit.enter_part (un : Unit) (k due : Nat) (eff : Eff) : (un.enter k due eff).part = un.part := rfl
@[simp] theorem Unit.enter_steers (un : Unit) (k due : Nat) (eff : Eff) : (un.enter k due eff).steers = un.steers := rfl
@[simp] theorem Unit.enter_queues (un : Unit) (k due : Nat) (eff : Eff) : (un.enter k due eff).queues = un.queues := rfl
@[simp] theorem Unit.enter_istore (un : Unit) (k due : Nat) (eff : Eff) : (un.enter k due eff).istore = un.istore := rfl
@[simp] theorem Unit.enter_store (un : Unit) (k due : Nat) (eff : Eff) : (un.enter k due eff).store = un.store := rfl
@[simp] theorem Unit.enter_badWords (un : Unit) (k due : Nat) (eff : Eff) : (un.enter k due eff).badWords = un.badWords := rfl
@[simp] theorem Unit.enter_cause (un : Unit) (k due : Nat) (eff : Eff) : (un.enter k due eff).cause = un.cause := rfl
@[simp] theorem Unit.enter_slipw (un : Unit) (k due : Nat) (eff : Eff) : (un.enter k due eff).slipw = un.slipw := rfl
@[simp] theorem Unit.enter_ftv (un : Unit) (k due : Nat) (eff : Eff) : (un.enter k due eff).ftv = un.ftv := rfl
@[simp] theorem Unit.enter_div (un : Unit) (k due : Nat) (eff : Eff) : (un.enter k due eff).div = un.div := rfl
@[simp] theorem Unit.enter_divNext (un : Unit) (k due : Nat) (eff : Eff) : (un.enter k due eff).divNext = un.divNext := rfl
@[simp] theorem Unit.enter_mpc (un : Unit) (k due : Nat) (eff : Eff) : (un.enter k due eff).mpc = un.mpc := rfl
@[simp] theorem Unit.enter_baroff (un : Unit) (k due : Nat) (eff : Eff) : (un.enter k due eff).baroff = un.baroff := rfl
@[simp] theorem Unit.enter_late (un : Unit) (k due : Nat) (eff : Eff) : (un.enter k due eff).late = un.late := rfl
@[simp] theorem Unit.enter_ctxn (un : Unit) (k due : Nat) (eff : Eff) : (un.enter k due eff).ctxn = un.ctxn := rfl
@[simp] theorem Unit.enter_tvec (un : Unit) (k due : Nat) (eff : Eff) : (un.enter k due eff).tvec = un.tvec := rfl
@[simp] theorem Unit.enter_tstat (un : Unit) (k due : Nat) (eff : Eff) : (un.enter k due eff).tstat = un.tstat := rfl
@[simp] theorem Unit.enter_flagCnt (un : Unit) (k due : Nat) (eff : Eff) : (un.enter k due eff).flagCnt = un.flagCnt := rfl
@[simp] theorem Unit.enter_acc (un : Unit) (k due : Nat) (eff : Eff) : (un.enter k due eff).acc = un.acc := rfl
@[simp] theorem Unit.enter_ska (un : Unit) (k due : Nat) (eff : Eff) : (un.enter k due eff).ska = un.ska := rfl
@[simp] theorem Unit.enter_skb (un : Unit) (k due : Nat) (eff : Eff) : (un.enter k due eff).skb = un.skb := rfl
@[simp] theorem Unit.enter_active (un : Unit) (k due : Nat) (eff : Eff) : (un.enter k due eff).active = un.active := rfl
@[simp] theorem Unit.enter_shadow (un : Unit) (k due : Nat) (eff : Eff) : (un.enter k due eff).shadow = un.shadow := rfl
@[simp] theorem Unit.enter_mult (un : Unit) (k due : Nat) (eff : Eff) : (un.enter k due eff).mult = un.mult := rfl
@[simp] theorem Unit.enter_ksteps (un : Unit) (k due : Nat) (eff : Eff) : (un.enter k due eff).ksteps = un.ksteps := rfl
@[simp] theorem Unit.enter_mfree (un : Unit) (k due : Nat) (eff : Eff) : (un.enter k due eff).mfree = un.mfree := rfl
@[simp] theorem Unit.enter_mland (un : Unit) (k due : Nat) (eff : Eff) : (un.enter k due eff).mland = un.mland := rfl
@[simp] theorem Unit.enter_v (un : Unit) (k due : Nat) (eff : Eff) : (un.enter k due eff).v = un.v := rfl
@[simp] theorem Unit.enter_k (un : Unit) (k due : Nat) (eff : Eff) : (un.enter k due eff).k = un.k := rfl
@[simp] theorem Unit.enter_masks (un : Unit) (k due : Nat) (eff : Eff) : (un.enter k due eff).masks = un.masks := rfl
@[simp] theorem Unit.enter_vfree (un : Unit) (k due : Nat) (eff : Eff) : (un.enter k due eff).vfree = un.vfree := rfl
@[simp] theorem Unit.enter_chans (un : Unit) (k due : Nat) (eff : Eff) : (un.enter k due eff).chans = un.chans := rfl
@[simp] theorem Unit.enter_beats (un : Unit) (k due : Nat) (eff : Eff) : (un.enter k due eff).beats = un.beats := rfl
@[simp] theorem Unit.enter_banks (un : Unit) (k due : Nat) (eff : Eff) : (un.enter k due eff).banks = un.banks := rfl
@[simp] theorem Unit.enter_cache (un : Unit) (k due : Nat) (eff : Eff) : (un.enter k due eff).cache = un.cache := rfl
@[simp] theorem Unit.enter_pend (un : Unit) (k due : Nat) (eff : Eff) : (un.enter k due eff).pend = un.pend := rfl
@[simp] theorem Unit.enter_phases (un : Unit) (k due : Nat) (eff : Eff) : (un.enter k due eff).phases = un.phases := rfl
@[simp] theorem Unit.enter_bars (un : Unit) (k due : Nat) (eff : Eff) : (un.enter k due eff).bars = un.bars := rfl
@[simp] theorem Unit.enter_barCnt (un : Unit) (k due : Nat) (eff : Eff) : (un.enter k due eff).barCnt = un.barCnt := rfl
@[simp] theorem Unit.enter_outbox (un : Unit) (k due : Nat) (eff : Eff) : (un.enter k due eff).outbox = un.outbox := rfl
@[simp] theorem Unit.enter_snap (un : Unit) (k due : Nat) (eff : Eff) : (un.enter k due eff).snap = un.snap := rfl
@[simp] theorem Unit.enter_seen (un : Unit) (k due : Nat) (eff : Eff) : (un.enter k due eff).seen = un.seen := rfl
@[simp] theorem Unit.enter_trigs (un : Unit) (k due : Nat) (eff : Eff) : (un.enter k due eff).trigs = un.trigs := rfl
@[simp] theorem Unit.enter_trigs0 (un : Unit) (k due : Nat) (eff : Eff) : (un.enter k due eff).trigs0 = un.trigs0 := rfl
@[simp] theorem Unit.enter_trace (un : Unit) (k due : Nat) (eff : Eff) : (un.enter k due eff).trace = un.trace := rfl
@[simp] theorem Unit.enter_traceN (un : Unit) (k due : Nat) (eff : Eff) : (un.enter k due eff).traceN = un.traceN := rfl
@[simp] theorem Unit.enter_lat (un : Unit) (k due : Nat) (eff : Eff) : (un.enter k due eff).lat = un.lat := rfl
@[simp] theorem Unit.enter_stop (un : Unit) (k due : Nat) (eff : Eff) : (un.enter k due eff).stop = un.stop := rfl
@[simp] theorem Unit.enter_ctx (un : Unit) (k due : Nat) (eff : Eff) : (un.enter k due eff).ctx = un.ctx := rfl
@[simp] theorem Unit.enter_request (un : Unit) (k due : Nat) (eff : Eff) : (un.enter k due eff).request = un.request := rfl
@[simp] theorem Unit.enter_p0 (un : Unit) (k due : Nat) (eff : Eff) : (un.enter k due eff).p0 = un.p0 := rfl
@[simp] theorem Unit.enter_yieldAt (un : Unit) (k due : Nat) (eff : Eff) : (un.enter k due eff).yieldAt = un.yieldAt := rfl
@[simp] theorem Unit.enter_haltAt (un : Unit) (k due : Nat) (eff : Eff) : (un.enter k due eff).haltAt = un.haltAt := rfl
@[simp] theorem Unit.enter_started (un : Unit) (k due : Nat) (eff : Eff) : (un.enter k due eff).started = un.started := rfl
@[simp] theorem Unit.enter_word0 (un : Unit) (k due : Nat) (eff : Eff) : (un.enter k due eff).word0 = un.word0 := rfl
@[simp] theorem Unit.enter_wdog (un : Unit) (k due : Nat) (eff : Eff) : (un.enter k due eff).wdog = un.wdog := rfl
@[simp] theorem Unit.enter_fired (un : Unit) (k due : Nat) (eff : Eff) : (un.enter k due eff).fired = un.fired := rfl
@[simp] theorem Unit.enter_redo (un : Unit) (k due : Nat) (eff : Eff) : (un.enter k due eff).redo = un.redo := rfl
@[simp] theorem Unit.enter_saveSeq (un : Unit) (k due : Nat) (eff : Eff) : (un.enter k due eff).saveSeq = un.saveSeq := rfl
@[simp] theorem Unit.enter_cut (un : Unit) (k due : Nat) (eff : Eff) : (un.enter k due eff).cut = un.cut := rfl

@[simp] theorem Unit.qReserve_run (un : Unit) (q : Nat) : (un.qReserve q).run = un.run := rfl
@[simp] theorem Unit.qReserve_region (un : Unit) (q : Nat) : (un.qReserve q).region = un.region := rfl
@[simp] theorem Unit.qReserve_kernel (un : Unit) (q : Nat) : (un.qReserve q).kernel = un.kernel := rfl
@[simp] theorem Unit.qReserve_place (un : Unit) (q : Nat) : (un.qReserve q).place = un.place := rfl
@[simp] theorem Unit.qReserve_part (un : Unit) (q : Nat) : (un.qReserve q).part = un.part := rfl
@[simp] theorem Unit.qReserve_walkers (un : Unit) (q : Nat) : (un.qReserve q).walkers = un.walkers := rfl
@[simp] theorem Unit.qReserve_steers (un : Unit) (q : Nat) : (un.qReserve q).steers = un.steers := rfl
@[simp] theorem Unit.qReserve_istore (un : Unit) (q : Nat) : (un.qReserve q).istore = un.istore := rfl
@[simp] theorem Unit.qReserve_store (un : Unit) (q : Nat) : (un.qReserve q).store = un.store := rfl
@[simp] theorem Unit.qReserve_badWords (un : Unit) (q : Nat) : (un.qReserve q).badWords = un.badWords := rfl
@[simp] theorem Unit.qReserve_cause (un : Unit) (q : Nat) : (un.qReserve q).cause = un.cause := rfl
@[simp] theorem Unit.qReserve_slipw (un : Unit) (q : Nat) : (un.qReserve q).slipw = un.slipw := rfl
@[simp] theorem Unit.qReserve_ftv (un : Unit) (q : Nat) : (un.qReserve q).ftv = un.ftv := rfl
@[simp] theorem Unit.qReserve_div (un : Unit) (q : Nat) : (un.qReserve q).div = un.div := rfl
@[simp] theorem Unit.qReserve_divNext (un : Unit) (q : Nat) : (un.qReserve q).divNext = un.divNext := rfl
@[simp] theorem Unit.qReserve_mpc (un : Unit) (q : Nat) : (un.qReserve q).mpc = un.mpc := rfl
@[simp] theorem Unit.qReserve_baroff (un : Unit) (q : Nat) : (un.qReserve q).baroff = un.baroff := rfl
@[simp] theorem Unit.qReserve_late (un : Unit) (q : Nat) : (un.qReserve q).late = un.late := rfl
@[simp] theorem Unit.qReserve_ctxn (un : Unit) (q : Nat) : (un.qReserve q).ctxn = un.ctxn := rfl
@[simp] theorem Unit.qReserve_tvec (un : Unit) (q : Nat) : (un.qReserve q).tvec = un.tvec := rfl
@[simp] theorem Unit.qReserve_tstat (un : Unit) (q : Nat) : (un.qReserve q).tstat = un.tstat := rfl
@[simp] theorem Unit.qReserve_flagCnt (un : Unit) (q : Nat) : (un.qReserve q).flagCnt = un.flagCnt := rfl
@[simp] theorem Unit.qReserve_acc (un : Unit) (q : Nat) : (un.qReserve q).acc = un.acc := rfl
@[simp] theorem Unit.qReserve_ska (un : Unit) (q : Nat) : (un.qReserve q).ska = un.ska := rfl
@[simp] theorem Unit.qReserve_skb (un : Unit) (q : Nat) : (un.qReserve q).skb = un.skb := rfl
@[simp] theorem Unit.qReserve_active (un : Unit) (q : Nat) : (un.qReserve q).active = un.active := rfl
@[simp] theorem Unit.qReserve_shadow (un : Unit) (q : Nat) : (un.qReserve q).shadow = un.shadow := rfl
@[simp] theorem Unit.qReserve_mult (un : Unit) (q : Nat) : (un.qReserve q).mult = un.mult := rfl
@[simp] theorem Unit.qReserve_ksteps (un : Unit) (q : Nat) : (un.qReserve q).ksteps = un.ksteps := rfl
@[simp] theorem Unit.qReserve_mfree (un : Unit) (q : Nat) : (un.qReserve q).mfree = un.mfree := rfl
@[simp] theorem Unit.qReserve_mland (un : Unit) (q : Nat) : (un.qReserve q).mland = un.mland := rfl
@[simp] theorem Unit.qReserve_v (un : Unit) (q : Nat) : (un.qReserve q).v = un.v := rfl
@[simp] theorem Unit.qReserve_k (un : Unit) (q : Nat) : (un.qReserve q).k = un.k := rfl
@[simp] theorem Unit.qReserve_masks (un : Unit) (q : Nat) : (un.qReserve q).masks = un.masks := rfl
@[simp] theorem Unit.qReserve_vfree (un : Unit) (q : Nat) : (un.qReserve q).vfree = un.vfree := rfl
@[simp] theorem Unit.qReserve_chans (un : Unit) (q : Nat) : (un.qReserve q).chans = un.chans := rfl
@[simp] theorem Unit.qReserve_beats (un : Unit) (q : Nat) : (un.qReserve q).beats = un.beats := rfl
@[simp] theorem Unit.qReserve_banks (un : Unit) (q : Nat) : (un.qReserve q).banks = un.banks := rfl
@[simp] theorem Unit.qReserve_cache (un : Unit) (q : Nat) : (un.qReserve q).cache = un.cache := rfl
@[simp] theorem Unit.qReserve_pend (un : Unit) (q : Nat) : (un.qReserve q).pend = un.pend := rfl
@[simp] theorem Unit.qReserve_seq (un : Unit) (q : Nat) : (un.qReserve q).seq = un.seq := rfl
@[simp] theorem Unit.qReserve_phases (un : Unit) (q : Nat) : (un.qReserve q).phases = un.phases := rfl
@[simp] theorem Unit.qReserve_bars (un : Unit) (q : Nat) : (un.qReserve q).bars = un.bars := rfl
@[simp] theorem Unit.qReserve_barCnt (un : Unit) (q : Nat) : (un.qReserve q).barCnt = un.barCnt := rfl
@[simp] theorem Unit.qReserve_outbox (un : Unit) (q : Nat) : (un.qReserve q).outbox = un.outbox := rfl
@[simp] theorem Unit.qReserve_snap (un : Unit) (q : Nat) : (un.qReserve q).snap = un.snap := rfl
@[simp] theorem Unit.qReserve_seen (un : Unit) (q : Nat) : (un.qReserve q).seen = un.seen := rfl
@[simp] theorem Unit.qReserve_trigs (un : Unit) (q : Nat) : (un.qReserve q).trigs = un.trigs := rfl
@[simp] theorem Unit.qReserve_trigs0 (un : Unit) (q : Nat) : (un.qReserve q).trigs0 = un.trigs0 := rfl
@[simp] theorem Unit.qReserve_trace (un : Unit) (q : Nat) : (un.qReserve q).trace = un.trace := rfl
@[simp] theorem Unit.qReserve_traceN (un : Unit) (q : Nat) : (un.qReserve q).traceN = un.traceN := rfl
@[simp] theorem Unit.qReserve_lat (un : Unit) (q : Nat) : (un.qReserve q).lat = un.lat := rfl
@[simp] theorem Unit.qReserve_stop (un : Unit) (q : Nat) : (un.qReserve q).stop = un.stop := rfl
@[simp] theorem Unit.qReserve_ctx (un : Unit) (q : Nat) : (un.qReserve q).ctx = un.ctx := rfl
@[simp] theorem Unit.qReserve_request (un : Unit) (q : Nat) : (un.qReserve q).request = un.request := rfl
@[simp] theorem Unit.qReserve_p0 (un : Unit) (q : Nat) : (un.qReserve q).p0 = un.p0 := rfl
@[simp] theorem Unit.qReserve_yieldAt (un : Unit) (q : Nat) : (un.qReserve q).yieldAt = un.yieldAt := rfl
@[simp] theorem Unit.qReserve_haltAt (un : Unit) (q : Nat) : (un.qReserve q).haltAt = un.haltAt := rfl
@[simp] theorem Unit.qReserve_started (un : Unit) (q : Nat) : (un.qReserve q).started = un.started := rfl
@[simp] theorem Unit.qReserve_word0 (un : Unit) (q : Nat) : (un.qReserve q).word0 = un.word0 := rfl
@[simp] theorem Unit.qReserve_wdog (un : Unit) (q : Nat) : (un.qReserve q).wdog = un.wdog := rfl
@[simp] theorem Unit.qReserve_fired (un : Unit) (q : Nat) : (un.qReserve q).fired = un.fired := rfl
@[simp] theorem Unit.qReserve_redo (un : Unit) (q : Nat) : (un.qReserve q).redo = un.redo := rfl
@[simp] theorem Unit.qReserve_saveSeq (un : Unit) (q : Nat) : (un.qReserve q).saveSeq = un.saveSeq := rfl
@[simp] theorem Unit.qReserve_cut (un : Unit) (q : Nat) : (un.qReserve q).cut = un.cut := rfl

@[simp] theorem Unit.qPop_run (un : Unit) (q : Nat) : (un.qPop q).run = un.run := rfl
@[simp] theorem Unit.qPop_region (un : Unit) (q : Nat) : (un.qPop q).region = un.region := rfl
@[simp] theorem Unit.qPop_kernel (un : Unit) (q : Nat) : (un.qPop q).kernel = un.kernel := rfl
@[simp] theorem Unit.qPop_place (un : Unit) (q : Nat) : (un.qPop q).place = un.place := rfl
@[simp] theorem Unit.qPop_part (un : Unit) (q : Nat) : (un.qPop q).part = un.part := rfl
@[simp] theorem Unit.qPop_walkers (un : Unit) (q : Nat) : (un.qPop q).walkers = un.walkers := rfl
@[simp] theorem Unit.qPop_steers (un : Unit) (q : Nat) : (un.qPop q).steers = un.steers := rfl
@[simp] theorem Unit.qPop_istore (un : Unit) (q : Nat) : (un.qPop q).istore = un.istore := rfl
@[simp] theorem Unit.qPop_store (un : Unit) (q : Nat) : (un.qPop q).store = un.store := rfl
@[simp] theorem Unit.qPop_badWords (un : Unit) (q : Nat) : (un.qPop q).badWords = un.badWords := rfl
@[simp] theorem Unit.qPop_cause (un : Unit) (q : Nat) : (un.qPop q).cause = un.cause := rfl
@[simp] theorem Unit.qPop_slipw (un : Unit) (q : Nat) : (un.qPop q).slipw = un.slipw := rfl
@[simp] theorem Unit.qPop_ftv (un : Unit) (q : Nat) : (un.qPop q).ftv = un.ftv := rfl
@[simp] theorem Unit.qPop_div (un : Unit) (q : Nat) : (un.qPop q).div = un.div := rfl
@[simp] theorem Unit.qPop_divNext (un : Unit) (q : Nat) : (un.qPop q).divNext = un.divNext := rfl
@[simp] theorem Unit.qPop_mpc (un : Unit) (q : Nat) : (un.qPop q).mpc = un.mpc := rfl
@[simp] theorem Unit.qPop_baroff (un : Unit) (q : Nat) : (un.qPop q).baroff = un.baroff := rfl
@[simp] theorem Unit.qPop_late (un : Unit) (q : Nat) : (un.qPop q).late = un.late := rfl
@[simp] theorem Unit.qPop_ctxn (un : Unit) (q : Nat) : (un.qPop q).ctxn = un.ctxn := rfl
@[simp] theorem Unit.qPop_tvec (un : Unit) (q : Nat) : (un.qPop q).tvec = un.tvec := rfl
@[simp] theorem Unit.qPop_tstat (un : Unit) (q : Nat) : (un.qPop q).tstat = un.tstat := rfl
@[simp] theorem Unit.qPop_flagCnt (un : Unit) (q : Nat) : (un.qPop q).flagCnt = un.flagCnt := rfl
@[simp] theorem Unit.qPop_acc (un : Unit) (q : Nat) : (un.qPop q).acc = un.acc := rfl
@[simp] theorem Unit.qPop_ska (un : Unit) (q : Nat) : (un.qPop q).ska = un.ska := rfl
@[simp] theorem Unit.qPop_skb (un : Unit) (q : Nat) : (un.qPop q).skb = un.skb := rfl
@[simp] theorem Unit.qPop_active (un : Unit) (q : Nat) : (un.qPop q).active = un.active := rfl
@[simp] theorem Unit.qPop_shadow (un : Unit) (q : Nat) : (un.qPop q).shadow = un.shadow := rfl
@[simp] theorem Unit.qPop_mult (un : Unit) (q : Nat) : (un.qPop q).mult = un.mult := rfl
@[simp] theorem Unit.qPop_ksteps (un : Unit) (q : Nat) : (un.qPop q).ksteps = un.ksteps := rfl
@[simp] theorem Unit.qPop_mfree (un : Unit) (q : Nat) : (un.qPop q).mfree = un.mfree := rfl
@[simp] theorem Unit.qPop_mland (un : Unit) (q : Nat) : (un.qPop q).mland = un.mland := rfl
@[simp] theorem Unit.qPop_v (un : Unit) (q : Nat) : (un.qPop q).v = un.v := rfl
@[simp] theorem Unit.qPop_k (un : Unit) (q : Nat) : (un.qPop q).k = un.k := rfl
@[simp] theorem Unit.qPop_masks (un : Unit) (q : Nat) : (un.qPop q).masks = un.masks := rfl
@[simp] theorem Unit.qPop_vfree (un : Unit) (q : Nat) : (un.qPop q).vfree = un.vfree := rfl
@[simp] theorem Unit.qPop_chans (un : Unit) (q : Nat) : (un.qPop q).chans = un.chans := rfl
@[simp] theorem Unit.qPop_beats (un : Unit) (q : Nat) : (un.qPop q).beats = un.beats := rfl
@[simp] theorem Unit.qPop_banks (un : Unit) (q : Nat) : (un.qPop q).banks = un.banks := rfl
@[simp] theorem Unit.qPop_cache (un : Unit) (q : Nat) : (un.qPop q).cache = un.cache := rfl
@[simp] theorem Unit.qPop_pend (un : Unit) (q : Nat) : (un.qPop q).pend = un.pend := rfl
@[simp] theorem Unit.qPop_seq (un : Unit) (q : Nat) : (un.qPop q).seq = un.seq := rfl
@[simp] theorem Unit.qPop_phases (un : Unit) (q : Nat) : (un.qPop q).phases = un.phases := rfl
@[simp] theorem Unit.qPop_bars (un : Unit) (q : Nat) : (un.qPop q).bars = un.bars := rfl
@[simp] theorem Unit.qPop_barCnt (un : Unit) (q : Nat) : (un.qPop q).barCnt = un.barCnt := rfl
@[simp] theorem Unit.qPop_outbox (un : Unit) (q : Nat) : (un.qPop q).outbox = un.outbox := rfl
@[simp] theorem Unit.qPop_snap (un : Unit) (q : Nat) : (un.qPop q).snap = un.snap := rfl
@[simp] theorem Unit.qPop_seen (un : Unit) (q : Nat) : (un.qPop q).seen = un.seen := rfl
@[simp] theorem Unit.qPop_trigs (un : Unit) (q : Nat) : (un.qPop q).trigs = un.trigs := rfl
@[simp] theorem Unit.qPop_trigs0 (un : Unit) (q : Nat) : (un.qPop q).trigs0 = un.trigs0 := rfl
@[simp] theorem Unit.qPop_trace (un : Unit) (q : Nat) : (un.qPop q).trace = un.trace := rfl
@[simp] theorem Unit.qPop_traceN (un : Unit) (q : Nat) : (un.qPop q).traceN = un.traceN := rfl
@[simp] theorem Unit.qPop_lat (un : Unit) (q : Nat) : (un.qPop q).lat = un.lat := rfl
@[simp] theorem Unit.qPop_stop (un : Unit) (q : Nat) : (un.qPop q).stop = un.stop := rfl
@[simp] theorem Unit.qPop_ctx (un : Unit) (q : Nat) : (un.qPop q).ctx = un.ctx := rfl
@[simp] theorem Unit.qPop_request (un : Unit) (q : Nat) : (un.qPop q).request = un.request := rfl
@[simp] theorem Unit.qPop_p0 (un : Unit) (q : Nat) : (un.qPop q).p0 = un.p0 := rfl
@[simp] theorem Unit.qPop_yieldAt (un : Unit) (q : Nat) : (un.qPop q).yieldAt = un.yieldAt := rfl
@[simp] theorem Unit.qPop_haltAt (un : Unit) (q : Nat) : (un.qPop q).haltAt = un.haltAt := rfl
@[simp] theorem Unit.qPop_started (un : Unit) (q : Nat) : (un.qPop q).started = un.started := rfl
@[simp] theorem Unit.qPop_word0 (un : Unit) (q : Nat) : (un.qPop q).word0 = un.word0 := rfl
@[simp] theorem Unit.qPop_wdog (un : Unit) (q : Nat) : (un.qPop q).wdog = un.wdog := rfl
@[simp] theorem Unit.qPop_fired (un : Unit) (q : Nat) : (un.qPop q).fired = un.fired := rfl
@[simp] theorem Unit.qPop_redo (un : Unit) (q : Nat) : (un.qPop q).redo = un.redo := rfl
@[simp] theorem Unit.qPop_saveSeq (un : Unit) (q : Nat) : (un.qPop q).saveSeq = un.saveSeq := rfl
@[simp] theorem Unit.qPop_cut (un : Unit) (q : Nat) : (un.qPop q).cut = un.cut := rfl

@[simp] theorem State.unit?_setUnit_self (s : State) (u : Nat) (un : Unit) : (s.setUnit u un).unit? u = some un := by
  simp [State.unit?, State.setUnit]

theorem State.unit?_setUnit (s : State) (u j : Nat) (un : Unit) :
    (s.setUnit u un).unit? j = if j = u then some un else s.unit? j := by
  simp only [State.unit?, State.setUnit, find_put]

@[simp] theorem State.setUnit_setUnit (s : State) (u : Nat) (a b : Unit) : (s.setUnit u a).setUnit u b = s.setUnit u b := by
  simp [State.setUnit]

@[simp] theorem State.unit?_setRegion (s : State) (r j : Nat) (f : Region → Region) : (s.setRegion r f).unit? j = s.unit? j := rfl

@[simp] theorem State.region_setUnit (s : State) (u r : Nat) (un : Unit) : (s.setUnit u un).region r = s.region r := rfl

@[simp] theorem State.now_setUnit (s : State) (u : Nat) (a b : Unit) : (s.setUnit u a).now b = s.now b := rfl

theorem State.modUnit_of_some {s : State} {u : Nat} {un : Unit} (f : Unit → Unit) (h : s.unit? u = some un) :
    s.modUnit u f = s.setUnit u (f un) := by
  simp [State.modUnit, h]

@[simp] theorem State.modUnit_setUnit (s : State) (u : Nat) (un : Unit) (f : Unit → Unit) :
    (s.setUnit u un).modUnit u f = s.setUnit u (f un) := by
  simp [State.modUnit]

theorem State.region_setRegion (s : State) (r j : Nat) (f : Region → Region) :
    (s.setRegion r f).region j = if j = r ∧ r < s.regions.length then f (s.region r) else s.region j := by
  simp only [State.region, State.setRegion, modify_getD]

theorem Unit.wk_setWk (un : Unit) (k j : Nat) (f : Walker → Walker) :
    (un.setWk k f).wk j = if j = k ∧ k < un.walkers.length then f (un.wk k) else un.wk j := by
  simp only [Unit.wk, Unit.setWk, modify_getD]

theorem Unit.wk_setWk_ne (un : Unit) {k j : Nat} (f : Walker → Walker) (h : j ≠ k) : (un.setWk k f).wk j = un.wk j := by
  simp [Unit.wk_setWk, h]

theorem Unit.wk_setWk_self (un : Unit) {k : Nat} (f : Walker → Walker) (h : k < un.walkers.length) :
    (un.setWk k f).wk k = f (un.wk k) := by
  simp [Unit.wk_setWk, h]

@[simp] theorem Unit.setWk_count (un : Unit) (k : Nat) (f : Walker → Walker) : (un.setWk k f).walkers.length = un.walkers.length := by
  simp [Unit.setWk]

@[simp] theorem Unit.enter_count (un : Unit) (k due : Nat) (eff : Eff) : (un.enter k due eff).walkers.length = un.walkers.length := by
  simp [Unit.enter, Unit.setWk]

@[simp] theorem Unit.later_wk (un : Unit) (due rank j : Nat) (eff : Eff) : (un.later due rank eff).wk j = un.wk j := rfl

@[simp] theorem Unit.qReserve_wk (un : Unit) (q j : Nat) : (un.qReserve q).wk j = un.wk j := rfl

@[simp] theorem Unit.qPop_wk (un : Unit) (q j : Nat) : (un.qPop q).wk j = un.wk j := rfl

/-- A walker's in-flight list after a result has entered it (R25). -/
theorem Unit.wk_enter (un : Unit) (k j due : Nat) (eff : Eff) :
    (un.enter k due eff).wk j =
      if j = k ∧ k < un.walkers.length then
        { un.wk k with inflight := (un.wk k).inflight ++ [⟨due, 1, un.seq, eff⟩] } else un.wk j := by
  have : (un.enter k due eff).wk j = (un.setWk k fun w => { w with inflight := w.inflight ++ [⟨due, 1, un.seq, eff⟩] }).wk j := rfl
  rw [this, Unit.wk_setWk]

/-- `x0` reads as zero (R10). -/
@[simp] theorem Walker.reg_zero (w : Walker) : w.reg 0 = Val.zero := by simp [Walker.reg]

/-- A write to `x0` is discarded (R10). -/
@[simp] theorem Walker.setReg_zero (w : Walker) (v : Val) : w.setReg 0 v = w := by simp [Walker.setReg]

@[simp] theorem Walker.setReg_length (w : Walker) (p : Nat) (v : Val) : (w.setReg p v).x.length = w.x.length := by
  unfold Walker.setReg; split <;> simp

end Sys2Proof.Machine
end

