-- ==== Sys2Proof/Laws/Frame.lean ====
section
/-! SUPPORT. What the shared operations of words and faults leave alone: taking a fault and running a word never touch a memory beyond the
units (R87, R274). -/

namespace Sys2Proof.Machine

/-- Two states agree in device memory, host memory, the cluster and die stores and the keys under which memory was written. -/
structure State.MemoryAlike (s t : State) : Prop where
  dram     : t.dram = s.dram
  host     : t.host = s.host
  clusters : t.clusters = s.clusters
  dies     : t.dies = s.dies
  sealed   : t.sealed = s.sealed

theorem State.MemoryAlike.refl (s : State) : s.MemoryAlike s := by constructor <;> rfl

theorem State.MemoryAlike.trans {r s t : State} (h : r.MemoryAlike s) (g : s.MemoryAlike t) : r.MemoryAlike t :=
  ⟨g.dram.trans h.dram, g.host.trans h.host, g.clusters.trans h.clusters, g.dies.trans h.dies, g.sealed.trans h.sealed⟩

theorem State.MemoryAlike.ite {s a b : State} {c : Prop} [Decidable c] (h : s.MemoryAlike a) (g : s.MemoryAlike b) :
    s.MemoryAlike (if c then a else b) := by
  split
  · exact h
  · exact g

theorem State.setUnit_memory (s : State) (u : Nat) (un : Unit) : s.MemoryAlike (s.setUnit u un) := by constructor <;> rfl

theorem State.setRegion_memory (s : State) (r : Nat) (f : Region → Region) : s.MemoryAlike (s.setRegion r f) := by constructor <;> rfl

theorem State.modUnit_memory (s : State) (u : Nat) (f : Unit → Unit) : s.MemoryAlike (s.modUnit u f) := by
  unfold State.modUnit
  split
  · exact s.setUnit_memory u _
  · exact .refl s

theorem State.close_memory (s : State) (u k cls : Nat) (flag : Option Nat) : s.MemoryAlike (s.close u k cls flag) := s.modUnit_memory u _

theorem State.tell_memory (s : State) (ty pkg param unit : Nat) (bs : List Byte) : s.MemoryAlike (s.tell ty pkg param unit bs) := by
  constructor <;> rfl

theorem State.foldl_memory {α : Type} (f : State → α → State) (h : ∀ (s : State) a, s.MemoryAlike (f s a)) (l : List α) (s : State) :
    s.MemoryAlike (l.foldl f s) := by
  induction l generalizing s with
  | nil => exact .refl s
  | cons a l ih => exact (h s a).trans (ih (f s a))

theorem State.tellJob_memory (s : State) (ty job unit : Nat) (bs : List Byte) : s.MemoryAlike (s.tellJob ty job unit bs) :=
  State.foldl_memory _ (fun s p => s.tell_memory ty p job unit bs) _ s

theorem State.startWave_memory (s : State) (job pkg u : Nat) (t0 : Frac) (cause : W64) (lag : Nat → Option Nat) :
    s.MemoryAlike (s.startWave job pkg u t0 cause lag) := by
  unfold State.startWave
  split
  · exact .refl s
  · constructor <;> rfl

theorem State.sendWave_memory (s : State) (job u : Nat) (t0 : Frac) (cause : W64) : s.MemoryAlike (s.sendWave job u t0 cause) :=
  (s.startWave_memory job s.boot.pkgNo u t0 cause _).trans (State.foldl_memory _ (fun s _ => s.tellJob_memory ..) _ _)

theorem State.countStop_memory (s : State) (un : Unit) (cls : FaultClass) : s.MemoryAlike (s.countStop un cls) := by
  unfold State.countStop
  dsimp only
  split
  · split
    · constructor <;> rfl
    · exact .refl s
  · exact .refl s

theorem State.stopOne_memory (s : State) (u : Nat) (c : Cause) (cls : FaultClass) (wk info : Nat) (d : Detail) (own : Bool) :
    s.MemoryAlike (s.stopOne u c cls wk info d own) := by
  unfold State.stopOne
  split
  · exact .refl s
  · dsimp only
    split
    · split
      · split
        · exact s.setUnit_memory u _
        · split
          · exact s.setUnit_memory u _
          · exact .refl s
      · exact .refl s
    · split
      · exact s.setUnit_memory u _
      · exact .refl s

theorem State.spread_memory (s : State) (u : Nat) (c : Cause) : s.MemoryAlike (s.spread u c) := by
  unfold State.spread
  split
  · exact .refl s
  · dsimp only
    have h (b : Prop) [Decidable b] (j : Nat) (t0 : Frac) (w : W64) : s.MemoryAlike (if b then s.sendWave j u t0 w else s) :=
      .ite (s.sendWave_memory ..) (.refl s)
    exact .ite ((h ..).trans (State.setRegion_memory ..)) (h ..)

/-- Taking a fault touches no memory. -/
theorem State.takeFault_memory (s : State) (u : Nat) (c : Cause) (cls : FaultClass) (wk info : Nat) (d : Detail) :
    s.MemoryAlike (s.takeFault u c cls wk info d) := by
  unfold State.takeFault
  split
  · exact .refl s
  · dsimp only
    split
    · exact .refl s
    · have h1 := (s.countStop_memory ‹Unit› cls).trans ((s.countStop ‹Unit› cls).stopOne_memory u c cls wk info d true)
      split
      · exact (h1.trans (State.stopOne_memory ..)).trans (State.spread_memory ..)
      · exact h1.trans (State.spread_memory ..)

theorem State.missed_memory (s : State) (un : Unit) (u k flag : Nat) : s.MemoryAlike (s.missed un u k flag) := by
  unfold State.missed
  split
  · exact s.takeFault_memory ..
  · exact s.close_memory ..

/-- A word whose body touches no memory touches none. -/
theorem runWord_memory (f : WordInfo) (body : State → Nat → Nat → Act) (s : State)
    (hgo : ∀ (s : State) u k t n, body s u k = .go t n → s.MemoryAlike t) (hst : ∀ (s : State) u k t c g, body s u k = .stand t c g → s.MemoryAlike t) :
    s.MemoryAlike (runWord f body s) := by
  unfold runWord
  dsimp only
  cases hu : s.unit? s.focus.1 with
  | none => exact .refl s
  | some un =>
    dsimp only
    cases (un.wk s.focus.2).slot with
    | done a b => exact .refl s
    | walking n =>
      dsimp only
      refine .ite (s.close_memory ..) (.ite ((s.setUnit_memory ..).trans (State.close_memory ..)) (.ite (s.close_memory ..)
        (.ite (s.close_memory ..) (.ite (s.close_memory ..) (.ite (s.takeFault_memory ..) (.ite (s.close_memory ..)
          (.ite (s.missed_memory ..) (.ite (s.setUnit_memory ..) ?_))))))))
      refine (s.setUnit_memory s.focus.1 (un.setWk s.focus.2 fun w => { w with since := some (w.since.getD (s.now un)) })).trans ?_
      generalize s.setUnit s.focus.1 (un.setWk s.focus.2 fun w => { w with since := some (w.since.getD (s.now un)) }) = s'
      refine .ite (s'.close_memory ..) (.ite (s'.modUnit_memory ..) ?_)
      cases h : body s' s.focus.1 s.focus.2 with
      | wait c g => exact s'.close_memory ..
      | stand t c g => exact (hst _ _ _ _ _ _ h).trans (State.close_memory ..)
      | miss g => exact s'.missed_memory ..
      | fault c i => exact s'.takeFault_memory ..
      | engine c d => exact s'.takeFault_memory ..
      | go t m => exact (hgo _ _ _ _ _ h).trans (State.modUnit_memory ..)

end Sys2Proof.Machine
end

