-- ==== Sys2Proof/Laws/Memory.lean ====
section
/-! SUPPORT. Byte memories: a read after a write, and the canonical form, which every memory operation keeps and the memory at reset has. -/

namespace Sys2Proof.Machine

@[simp] theorem Mem.read_nil (x : Nat) : Mem.read [] x = 0 := rfl

/-- The canonical form of a memory with a first entry: the entry is not 0, and the rest lies above it. -/
theorem Mem.wf_cons (a : Nat) (b : Byte) (m : Mem) :
    Mem.wf ((a, b) :: m) = true ↔ b ≠ 0 ∧ (∀ e ∈ m.head?, a < e.1) ∧ Mem.wf m = true := by
  cases m with
  | nil => simp [Mem.wf]
  | cons e m =>
    obtain ⟨a', b'⟩ := e
    simp [Mem.wf, and_assoc]

/-- Below its first address a canonical memory reads as 0. -/
theorem Mem.read_below {m : Mem} {x : Nat} (h : ∀ e ∈ m.head?, x < e.1) : m.read x = 0 := by
  cases m with
  | nil => rfl
  | cons e m => obtain ⟨a, b⟩ := e; have := h (a, b) (by simp); simp [Mem.read, this]

theorem Mem.head?_write (m : Mem) (x : Nat) (v : Byte) {a : Nat} (hm : ∀ e ∈ m.head?, a < e.1) (hw : m.wf = true) (hx : a < x) :
    ∀ e ∈ (m.write x v).head?, a < e.1 := by
  cases m with
  | nil => unfold Mem.write; split <;> simp [hx]
  | cons e m =>
    obtain ⟨c, b⟩ := e
    have hc : a < c := hm (c, b) (by simp)
    have hrest := ((Mem.wf_cons c b m).mp hw).2.1
    unfold Mem.write
    split
    · split <;> simp [hc, hx]
    · split
      · split
        · intro e he; exact lt_trans hc (hrest e he)
        · simp [hx]
      · simp [hc]

/-- A write keeps the canonical form. -/
theorem Mem.wf_write {m : Mem} (h : m.wf = true) (x : Nat) (v : Byte) : (m.write x v).wf = true := by
  induction m with
  | nil =>
    unfold Mem.write
    split
    · rfl
    · rename_i hv; simpa [Mem.wf] using hv
  | cons e m ih =>
    obtain ⟨a, b⟩ := e
    obtain ⟨hb, hh, hm⟩ := (Mem.wf_cons a b m).mp h
    unfold Mem.write
    split
    · split
      · exact h
      · rename_i hlt hv; exact (Mem.wf_cons _ _ _).mpr ⟨hv, by simpa using hlt, h⟩
    · split
      · rename_i hxa
        subst hxa
        split
        · exact hm
        · rename_i hv; exact (Mem.wf_cons _ _ _).mpr ⟨hv, hh, hm⟩
      · rename_i h1 h2
        exact (Mem.wf_cons _ _ _).mpr ⟨hb, Mem.head?_write m x v hh hm (by omega), ih hm⟩

/-- A read after a write of one byte. -/
theorem Mem.read_write {m : Mem} (h : m.wf = true) (x y : Nat) (v : Byte) :
    (m.write x v).read y = if y = x then v else m.read y := by
  induction m with
  | nil =>
    unfold Mem.write
    split
    · rename_i hv; simp [hv]
    · simp only [Mem.read]; split <;> split <;> simp_all
  | cons e m ih =>
    obtain ⟨a, b⟩ := e
    obtain ⟨hb, hh, hm⟩ := (Mem.wf_cons a b m).mp h
    unfold Mem.write
    split
    · rename_i hlt
      split
      · rename_i hv
        split
        · rename_i hy; subst hy; simp [Mem.read, hlt, hv]
        · rfl
      · rename_i hv
        by_cases hy : y = x
        · subst hy; simp [Mem.read]
        · simp only [hy, if_false]
          by_cases hyx : y < x
          · simp [Mem.read, hyx, show y < a by omega]
          · rw [Mem.read]; simp [hyx, hy]
    · split
      · rename_i hxa
        subst hxa
        split
        · rename_i hv
          by_cases hy : y = x
          · subst hy; simp [hv, Mem.read_below hh]
          · simp only [hy, if_false]
            by_cases hyx : y < x
            · rw [Mem.read_below (fun e he => by have := hh e he; omega)]; simp [Mem.read, hyx]
            · conv_rhs => rw [Mem.read]
              simp [hyx, hy]
        · by_cases hy : y = x <;> by_cases hyx : y < x <;> simp [Mem.read, hy, hyx]
      · rename_i h1 h2
        conv_lhs => rw [Mem.read]
        rw [ih hm]
        by_cases hy : y = x
        · subst hy; simp [h1, h2]
        · simp only [hy, if_false]; conv_rhs => rw [Mem.read]

/-- A write of bytes keeps the canonical form. -/
theorem Mem.wf_writes {m : Mem} (h : m.wf = true) (x : Nat) (bs : List Byte) : (m.writes x bs).wf = true := by
  induction bs generalizing m x with
  | nil => exact h
  | cons b bs ih => exact ih (Mem.wf_write h x b) (x + 1)

/-- A read after a write of bytes. -/
theorem Mem.read_writes {m : Mem} (h : m.wf = true) (x y : Nat) (bs : List Byte) :
    (m.writes x bs).read y = if x ≤ y ∧ y < x + bs.length then bs.getD (y - x) 0 else m.read y := by
  induction bs generalizing m x with
  | nil =>
    have : ¬ (x ≤ y ∧ y < x + ([] : List Byte).length) := by simp
    rw [Mem.writes, if_neg this]
  | cons b bs ih =>
    rw [Mem.writes, ih (Mem.wf_write h x b), Mem.read_write h]
    by_cases h1 : y = x
    · subst h1; simp
    · by_cases h2 : x + 1 ≤ y ∧ y < x + 1 + bs.length
      · have h3 : x ≤ y ∧ y < x + (b :: bs).length := by simp; omega
        rw [if_pos h2, if_pos h3]
        obtain ⟨n, rfl⟩ : ∃ n, y = x + 1 + n := ⟨y - (x + 1), by omega⟩
        rw [show x + 1 + n - (x + 1) = n by omega, show x + 1 + n - x = n + 1 by omega]
        simp
      · have h3 : ¬ (x ≤ y ∧ y < x + (b :: bs).length) := by simp; omega
        rw [if_neg h2, if_neg h3, if_neg h1]

/-- A masked byte keeps the canonical form. -/
theorem Mem.wf_put {m : Mem} (h : m.wf = true) (c : WCell) : (m.put c).wf = true := Mem.wf_write h _ _

theorem Mem.wf_foldl_put {m : Mem} (h : m.wf = true) (cs : List WCell) : (cs.foldl Mem.put m).wf = true := by
  induction cs generalizing m with
  | nil => exact h
  | cons c cs ih => exact ih (Mem.wf_put h c)

/-- A whole write keeps the canonical form. -/
theorem Mem.wf_apply {m : Mem} (h : m.wf = true) (w : WriteRec) : (m.apply w).wf = true := Mem.wf_foldl_put h w.cells

/-- What a whole write leaves at an address. -/
theorem Mem.read_apply {m : Mem} (h : m.wf = true) (w : WriteRec) (a : Nat) : (m.apply w).read a = w.over a (m.read a) := by
  unfold Mem.apply WriteRec.over
  induction w.cells generalizing m with
  | nil => rfl
  | cons c cs ih =>
    rw [List.foldl_cons, List.foldl_cons, ih (Mem.wf_put h c)]
    congr 1
    rw [Mem.put, Mem.read_write h]
    by_cases hc : a = c.addr
    · subst hc; simp
    · rw [if_neg hc, if_neg (fun e => hc e.symm)]

/-- Settling keeps the canonical form. -/
theorem settle_wf (old : WriteRec → Bool) {m : Mem} (h : m.wf = true) (ws : List WriteRec) : (settle old m ws).base.wf = true := by
  induction ws generalizing m with
  | nil => exact h
  | cons w ws ih =>
    unfold settle
    split
    · exact ih (Mem.wf_apply h w)
    · exact h

/-- The writes of a store, applied to its settled bytes, keep the canonical form. -/
theorem foldl_apply_wf {m : Mem} (h : m.wf = true) (ws : List WriteRec) : (ws.foldl Mem.apply m).wf = true := by
  induction ws generalizing m with
  | nil => exact h
  | cons w ws ih => exact ih (Mem.wf_apply h w)

/-- Settling changes no byte that a reader of every write sees. -/
theorem settle_read (old : WriteRec → Bool) {m : Mem} (h : m.wf = true) (ws : List WriteRec) (a : Nat) :
    (settle old m ws).read a = Store.read ⟨m, ws⟩ a := by
  induction ws generalizing m with
  | nil => rfl
  | cons w ws ih =>
    unfold settle
    split
    · rw [ih (Mem.wf_apply h w)]
      simp only [Store.read, Store.readBy, List.foldl_cons, if_true, Mem.read_apply h]
    · rfl

@[simp] theorem Store.perform_base (s : Store) (w : WriteRec) : (s.perform w).base = s.base := rfl
@[simp] theorem Store.append_base (s : Store) (w : WriteRec) : (s.append w).base = s.base := rfl

/-- The memories of the machine at reset are canonical. -/
theorem State.reset_mem_wf : State.reset.dram.base.wf = true ∧ State.reset.host.base.wf = true := by decide

end Sys2Proof.Machine
end

