-- ==== Sys2Proof/Laws/Walk.lean ====
section
/-! SUPPORT. What the walk does with a word that nothing keeps from issuing, and what issuing a word leaves of its unit. -/

namespace Sys2Proof.Machine

/-- Where nothing keeps the word from issuing, its body decides. -/
theorem runWord_ready {f : WordInfo} {body : State → Nat → Nat → Act} {s : State} {u k : Nat} {un : Unit} (h : Stands f s u k un) :
    runWord f body s =
      (match body (s.setUnit u (un.standing k (s.now un))) u k with
      | .wait cls flag => (s.setUnit u (un.standing k (s.now un))).close u k cls flag
      | .stand s' cls flag => s'.close u k cls flag
      | .miss flag => (s.setUnit u (un.standing k (s.now un))).missed un u k flag
      | .fault c info => (s.setUnit u (un.standing k (s.now un))).takeFault u c .p k info Detail.walker
      | .engine c d => (s.setUnit u (un.standing k (s.now un))).takeFault u c .i k 0 d
      | .go s' n => s'.modUnit u fun v => (v.occupy (s.now un) f).retire (s.now un) k (un.wk k).idx f n) := by
  obtain ⟨m, hm, hm8⟩ := h.walking
  have hq : (k != 0 && un.quietWord) = false := by
    rcases h.noQuiet with h0 | h0
    · subst h0; simp
    · simp [h0]
  have hd : (un.draining (s.now un) && (un.wk k).inner.isNone) = false := by
    rcases h.kept with h0 | h0
    · simp [h0]
    · cases hi : (un.wk k).inner <;> simp_all
  have hs : ¬ ((un.wk k).countsAt (un.wk k).idx = true ∧ un.slips k f.words = true) := by
    rcases h.within with h0 | h0 <;> simp [h0]
  unfold runWord
  rw [h.focus]
  simp only [h.here, hm, h.going, hd, h.loose, Nat.not_lt.mpr h.time, h.noHalt, hq, Nat.not_le.mpr h.inText, Nat.not_lt.mpr hm8, hs, h.named, h.free,
    h.live, Bool.false_eq_true, if_false, Option.isSome_none, Bool.false_or, Bool.not_true, Bool.false_and]
  rfl

/-- A word that issues. -/
theorem runWord_go {f : WordInfo} {body : State → Nat → Nat → Act} {s s1 : State} {u k : Nat} {un : Unit} {n : Next}
    (h : Stands f s u k un) (hb : body (s.setUnit u (un.standing k (s.now un))) u k = .go s1 n) :
    runWord f body s = s1.modUnit u fun v => (v.occupy (s.now un) f).retire (s.now un) k (un.wk k).idx f n := by
  rw [runWord_ready h, hb]

/-- A word that faults (R55, R275). -/
theorem runWord_fault {f : WordInfo} {body : State → Nat → Nat → Act} {s : State} {u k : Nat} {un : Unit} {c : Cause} {info : Nat}
    (h : Stands f s u k un) (hb : body (s.setUnit u (un.standing k (s.now un))) u k = .fault c info) :
    runWord f body s = (s.setUnit u (un.standing k (s.now un))).takeFault u c .p k info Detail.walker := by
  rw [runWord_ready h, hb]

/-! ### A walker's place -/

theorem Walker.Alike.refl (w : Walker) : w.Alike w := by constructor <;> rfl

theorem Walker.Alike.trans {a b c : Walker} (h : a.Alike b) (g : b.Alike c) : a.Alike c := by
  constructor
  · exact h.x.trans g.x
  · exact h.wp.trans g.wp
  · exact h.res.trans g.res
  · exact h.ras.trans g.ras
  · exact h.spilln.trans g.spilln
  · exact h.spillb.trans g.spillb
  · exact h.spilll.trans g.spilll
  · exact h.flags.trans g.flags
  · exact h.epc.trans g.epc
  · exact h.inflight.trans g.inflight
  · exact h.extLast.trans g.extLast
  · exact h.head.trans g.head
  · exact h.held.trans g.held
  · exact h.ic.trans g.ic
  · exact h.beat.trans g.beat
  · exact h.was.trans g.was

theorem Walker.countSteer_alike (w : Walker) (i : Nat) (r : Option Nat) : (w.countSteer i r).Alike w := by
  cases r <;> constructor <;> rfl

theorem Walker.countCopy_eq (w : Walker) (i : Nat) (c : Option Nat) : ∃ cs, w.countCopy i c = { w with copies := cs } := by
  cases c with
  | none => exact ⟨w.copies, rfl⟩
  | some c =>
    by_cases h : w.liveAt i = true
    · exact ⟨_, if_pos h⟩
    · exact ⟨w.copies, if_neg h⟩

theorem Walker.countSteer_eq (w : Walker) (i : Nat) (r : Option Nat) : ∃ a b, w.countSteer i r = { w with steers := a, bodyN := b } := by
  cases r with
  | none => exact ⟨w.steers, w.bodyN, rfl⟩
  | some r => exact ⟨_, _, rfl⟩

theorem Walker.countCopy_alike (w : Walker) (i : Nat) (c : Option Nat) : (w.countCopy i c).Alike w := by
  obtain ⟨cs, h⟩ := Walker.countCopy_eq w i c
  rw [h]; constructor <;> rfl

/-- Passing a word changes a walker's place alone. -/
theorem Walker.cross_alike (w : Walker) (now i : Nat) (f : WordInfo) : (w.cross now i f).Alike w :=
  have h : (w.cross now i f).Alike ((w.countSteer i f.steer).countCopy i f.chan) := by constructor <;> rfl
  h.trans ((Walker.countCopy_alike _ _ _).trans (Walker.countSteer_alike _ _ _))

theorem Walker.wrap1_alike (w : Walker) : w.wrap1.1.Alike w := by
  unfold Walker.wrap1
  split
  · exact Walker.Alike.refl _
  · split
    · dsimp only
      split
      · constructor <;> rfl
      · split
        · split <;> constructor <;> rfl
        · constructor <;> rfl
    · exact Walker.Alike.refl _

/-- The ends of loop levels change a walker's place alone. -/
theorem Walker.wrap_alike (w : Walker) : w.wrap.1.Alike w := by
  unfold Walker.wrap
  dsimp only
  split
  · exact Walker.wrap1_alike w
  · split
    · exact Walker.Alike.trans (by constructor <;> rfl) ((Walker.wrap1_alike _).trans (Walker.wrap1_alike w))
    · exact (Walker.wrap1_alike _).trans (Walker.wrap1_alike w)

theorem Walker.skipTo_alike (store : List W32) (now : Nat) (copies : Bool) (target fuel i : Nat) (w : Walker) :
    (Walker.skipTo store now copies target fuel i w).Alike w := by
  induction fuel generalizing i w with
  | zero => exact Walker.Alike.refl _
  | succ n ih =>
    unfold Walker.skipTo
    split
    · exact Walker.Alike.refl _
    · exact (ih _ _).trans (Walker.cross_alike _ _ _ _)

/-- Outside every loop a walker has nothing to settle. -/
theorem Walker.wrap_none {w : Walker} (h : w.inner = none) :
    w.wrap.1.idx = w.idx ∧ w.wrap.1.ready = w.ready ∧ w.wrap.1.inner = none ∧ w.wrap.1.outer = w.outer ∧ w.wrap.1.slot = w.slot ∧
      w.wrap.1.since = w.since ∧ w.wrap.2 = [] := by
  have h1 : w.wrap1 = (w, []) := by unfold Walker.wrap1; rw [h]
  unfold Walker.wrap
  rw [h1]
  simp [h]

theorem Walker.wrap1_slot (w : Walker) : w.wrap1.1.slot = w.slot ∧ w.wrap1.1.since = w.since := by
  unfold Walker.wrap1
  split
  · exact ⟨rfl, rfl⟩
  · split
    · dsimp only
      split
      · exact ⟨rfl, rfl⟩
      · split
        · split <;> exact ⟨rfl, rfl⟩
        · exact ⟨rfl, rfl⟩
    · exact ⟨rfl, rfl⟩

theorem Walker.wrap_slot (w : Walker) : w.wrap.1.slot = w.slot ∧ w.wrap.1.since = w.since := by
  unfold Walker.wrap
  dsimp only
  split
  · exact Walker.wrap1_slot w
  · have h1 := Walker.wrap1_slot w
    have h2 := Walker.wrap1_slot w.wrap1.1
    split
    · exact ⟨h2.1.trans h1.1, h2.2.trans h1.2⟩
    · exact ⟨h2.1.trans h1.1, h2.2.trans h1.2⟩

/-! ### Issue -/

/-- The ends of loop levels enter as results, and change nothing else. -/
theorem Unit.closeLevels_spec (un : Unit) (now k : Nat) (cs : List Nat) :
    ∃ ps, un.closeLevels now k cs = { un with pend := un.pend ++ ps, seq := un.seq + ps.length } ∧
      ps.map (fun p => (p.due, p.rank, p.eff)) = cs.map fun c => (now, 3, .close k c) := by
  induction cs generalizing un with
  | nil => exact ⟨[], by simp [Unit.closeLevels], rfl⟩
  | cons c cs ih =>
    obtain ⟨ps, he, hp⟩ := ih (un.later now 3 (.close k c))
    refine ⟨⟨now, 3, un.seq, .close k c⟩ :: ps, ?_, by simp [hp]⟩
    have : un.closeLevels now k (c :: cs) = (un.later now 3 (.close k c)).closeLevels now k cs := rfl
    have hq : (un.later now 3 (.close k c)).seq + ps.length = un.seq + ((⟨now, 3, un.seq, .close k c⟩ : Pend) :: ps).length := by
      simp only [Unit.later, List.length_cons]; omega
    rw [this, he, hq]
    simp [Unit.later]

theorem Walker.cross_levels (w : Walker) (now i : Nat) (f : WordInfo) :
    (w.cross now i f).inner = w.inner ∧ (w.cross now i f).outer = w.outer ∧ (w.cross now i f).slot = w.slot ∧
      (w.cross now i f).since = w.since ∧ (w.cross now i f).idx = i + f.words := by
  obtain ⟨a, b, h⟩ := Walker.countSteer_eq w i f.steer
  obtain ⟨cs, h'⟩ := Walker.countCopy_eq (w.countSteer i f.steer) i f.chan
  have e : ∀ v : Walker, (w.countSteer i f.steer).countCopy i f.chan = v →
      (w.cross now i f).inner = v.inner ∧ (w.cross now i f).outer = v.outer ∧ (w.cross now i f).slot = v.slot ∧ (w.cross now i f).since = v.since := by
    rintro v rfl; exact ⟨rfl, rfl, rfl, rfl⟩
  obtain ⟨e1, e2, e3, e4⟩ := e _ h'
  rw [e1, e2, e3, e4, h]
  exact ⟨rfl, rfl, rfl, rfl, rfl⟩

theorem Walker.skipTo_levels (store : List W32) (now : Nat) (copies : Bool) (target fuel i : Nat) (w : Walker) :
    (Walker.skipTo store now copies target fuel i w).inner = w.inner ∧ (Walker.skipTo store now copies target fuel i w).outer = w.outer ∧
      (Walker.skipTo store now copies target fuel i w).slot = w.slot ∧ (Walker.skipTo store now copies target fuel i w).since = w.since := by
  induction fuel generalizing i w with
  | zero => exact ⟨rfl, rfl, rfl, rfl⟩
  | succ n ih =>
    unfold Walker.skipTo
    split
    · exact ⟨rfl, rfl, rfl, rfl⟩
    · dsimp only
      obtain ⟨h1, h2, h3, h4⟩ := ih (i + (1 + literalCount (store.getD i 0).toNat)) (w.cross now i _)
      obtain ⟨g1, g2, g3, g4, -⟩ := Walker.cross_levels w now i
        { who := fun _ => false, words := 1 + literalCount (store.getD i 0).toNat, steer := steerWriteReg (store.getD i 0).toNat
          chan := if copies then copyCommandChannel (store.getD i 0).toNat else none, vocc := 0, mocc := 0, held := false, early := false, vheld := false, mult := none
          sync := fld (store.getD i 0).toNat 31 1 == 0 && fld (store.getD i 0).toNat 22 5 == 24 && fld (store.getD i 0).toNat 10 2 == 3 }
      exact ⟨h1.trans g1, h2.trans g2, h3.trans g3, h4.trans g4⟩

theorem Walker.skipTo_stopped (store : List W32) (now : Nat) (copies : Bool) (target fuel i : Nat) (w : Walker) :
    (Walker.skipTo store now copies target fuel i w).stopped = w.stopped ∧ (Walker.skipTo store now copies target fuel i w).matched = w.matched := by
  induction fuel generalizing i w with
  | zero => exact ⟨rfl, rfl⟩
  | succ n ih =>
    unfold Walker.skipTo
    split
    · exact ⟨rfl, rfl⟩
    · dsimp only
      obtain ⟨h1, h2⟩ := ih (i + (1 + literalCount (store.getD i 0).toNat)) (w.cross now i (passedInfo (store.getD i 0).toNat copies))
      have g : ∀ (x : Walker) (f : WordInfo), (x.cross now i f).stopped = x.stopped ∧ (x.cross now i f).matched = x.matched := by
        intro x f
        obtain ⟨a, b, h⟩ := Walker.countSteer_eq x i f.steer
        obtain ⟨cs, h'⟩ := Walker.countCopy_eq (x.countSteer i f.steer) i f.chan
        have e : ∀ v : Walker, (x.countSteer i f.steer).countCopy i f.chan = v →
            (x.cross now i f).stopped = v.stopped ∧ (x.cross now i f).matched = v.matched := by rintro v rfl; exact ⟨rfl, rfl⟩
        obtain ⟨e1, e2⟩ := e _ h'
        rw [e1, e2, h]; exact ⟨rfl, rfl⟩
      exact ⟨h1.trans (g _ _).1, h2.trans (g _ _).2⟩

/-- The walker that has passed its word, before it goes where the word sends it. -/
def Walker.gone (w : Walker) (now i : Nat) (f : WordInfo) : Walker :=
  { w.cross now i f with
    since := none, matched := false, slot := .done 0 none, ready := (w.cross now i f).ic + 1
    inner := (w.cross now i f).inner.map fun l => if l.holds i then { l with after := (w.cross now i f).ic + 1 } else l
    outer := (w.cross now i f).outer.map fun l => if l.holds i then { l with after := (w.cross now i f).ic + 1 } else l }

theorem Walker.gone_spec (w : Walker) (now i : Nat) (f : WordInfo) :
    (w.gone now i f).Alike w ∧ (w.gone now i f).slot = .done 0 none ∧ (w.gone now i f).since = none ∧ (w.gone now i f).idx = i + f.words ∧
      (w.gone now i f).ready = w.ic + 1 ∧ (w.inner = none → (w.gone now i f).inner = none) ∧ (w.outer = none → (w.gone now i f).outer = none) := by
  have h := Walker.cross_alike w now i f
  obtain ⟨g1, g2, -, -, g6⟩ := Walker.cross_levels w now i f
  have ha : (w.gone now i f).Alike (w.cross now i f) := by constructor <;> rfl
  refine ⟨ha.trans h, rfl, rfl, g6, congrArg (· + 1) h.ic, fun hi => ?_, fun ho => ?_⟩
  · show Option.map _ _ = none
    rw [g1, hi]; rfl
  · show Option.map _ _ = none
    rw [g2, ho]; rfl

/-- The walker after it has issued its word, before its loop levels are settled. -/
def Walker.issued (w : Walker) (store : List W32) (now i : Nat) (f : WordInfo) (n : Next) : Walker :=
  let w := w.gone now i f
  match n with
  | .seq => w
  | .jump t a => { w with idx := t, ready := w.ic + a }
  | .skip t a c => { Walker.skipTo store now c t 65536 w.idx w with idx := t, ready := w.ic + a }
  | .abandon t a => { w with idx := t, ready := w.ic + a, inner := none, outer := none, bodySeq := [], bodyN := [] }

theorem Walker.issued_alike (w : Walker) (store : List W32) (now i : Nat) (f : WordInfo) (n : Next) : (w.issued store now i f n).Alike w := by
  have h := (Walker.gone_spec w now i f).1
  cases n with
  | seq => exact h
  | jump t a => exact Walker.Alike.trans (b := w.gone now i f) (by constructor <;> rfl) h
  | abandon t a => exact Walker.Alike.trans (b := w.gone now i f) (by constructor <;> rfl) h
  | skip t a c =>
    exact Walker.Alike.trans (b := Walker.skipTo store now c t 65536 (w.gone now i f).idx (w.gone now i f)) (by constructor <;> rfl)
      ((Walker.skipTo_alike _ _ _ _ _ _ _).trans h)

theorem Walker.issued_slot (w : Walker) (store : List W32) (now i : Nat) (f : WordInfo) (n : Next) :
    (w.issued store now i f n).slot = .done 0 none ∧ (w.issued store now i f n).since = none ∧
      (w.issued store now i f n).idx = n.target i f.words ∧ (w.issued store now i f n).ready = w.ic + n.after ∧
      (w.inner = none → (w.issued store now i f n).inner = none) ∧ (w.outer = none → (w.issued store now i f n).outer = none) := by
  obtain ⟨ha, h1, h2, h3, h4, h5, h6⟩ := Walker.gone_spec w now i f
  cases n with
  | seq => exact ⟨h1, h2, h3, h4, h5, h6⟩
  | jump t a => exact ⟨h1, h2, rfl, congrArg (· + a) ha.ic, h5, h6⟩
  | abandon t a => exact ⟨h1, h2, rfl, congrArg (· + a) ha.ic, fun _ => rfl, fun _ => rfl⟩
  | skip t a c =>
    obtain ⟨g1, g2, g3, g4⟩ := Walker.skipTo_levels store now c t 65536 (w.gone now i f).idx (w.gone now i f)
    exact ⟨g3.trans h1, g4.trans h2, rfl, congrArg (· + a) ha.ic, fun h => g1.trans (h5 h), fun h => g2.trans (h6 h)⟩

/-! ### Counts (R9, R14, R111, R116) -/

theorem Walker.countsAt_iff (w : Walker) (i : Nat) : w.countsAt i = true ↔ ∀ l ∈ w.levels, l.holds i = true → l.pass = l.first := by
  unfold Walker.countsAt
  rw [List.all_eq_true]
  refine forall₂_congr fun l _ => ?_
  cases l.holds i <;> simp

theorem bodyNum_keepNum (l : List (Nat × Nat × Nat)) (reg word n r j : Nat) :
    bodyNum (keepNum l reg word n) r j = if reg = r ∧ word = j then some n else bodyNum l r j := by
  unfold bodyNum keepNum
  by_cases h : reg = r ∧ word = j
  · simp [h]
  · rw [if_neg h, List.find?_cons_of_neg (by simpa using h)]
    congr 1
    induction l with
    | nil => rfl
    | cons e l ih =>
      have key : (e.1 == r && e.2.1 == j) = true → (!(e.1 == reg && e.2.1 == word)) = true := by
        intro he
        simp only [Bool.and_eq_true, beq_iff_eq] at he
        rw [Bool.not_eq_true', Bool.and_eq_false_iff]
        by_contra hc
        rw [not_or] at hc
        simp only [Bool.not_eq_false, beq_iff_eq] at hc
        exact h ⟨hc.1.symm.trans he.1, hc.2.symm.trans he.2⟩
      rw [List.filter_cons]
      cases hq : (e.1 == r && e.2.1 == j) with
      | true => rw [if_pos (key hq)]; simp only [List.find?_cons, hq]
      | false =>
        split
        · simp only [List.find?_cons, hq, ih]
        · simp only [List.find?_cons, hq, ih]

theorem Walker.cross_parts (w : Walker) (now i : Nat) (f : WordInfo) :
    (w.cross now i f).count = (if w.countsAt i then w.count + f.words else w.count) ∧
      (w.cross now i f).steers = (w.countSteer i f.steer).steers ∧ (w.cross now i f).bodyN = (w.countSteer i f.steer).bodyN ∧
      (w.cross now i f).copies = (w.countCopy i f.chan).copies := by
  have e : ∀ v : Walker, (w.countSteer i f.steer).countCopy i f.chan = v →
      (w.cross now i f).count = (if w.countsAt i then v.count + f.words else v.count) ∧ (w.cross now i f).steers = v.steers ∧
        (w.cross now i f).bodyN = v.bodyN ∧ (w.cross now i f).copies = v.copies := by
    rintro v rfl; exact ⟨rfl, rfl, rfl, rfl⟩
  have hc : ((w.countSteer i f.steer).countCopy i f.chan).copies = (w.countCopy i f.chan).copies := by
    cases f.chan with
    | none => cases f.steer <;> rfl
    | some c =>
      cases f.steer
      · rfl
      · show (if w.liveAt i = true then _ else _ : Walker).copies = (if w.liveAt i = true then _ else _ : Walker).copies
        split <;> rfl
  obtain ⟨cs, h'⟩ := Walker.countCopy_eq (w.countSteer i f.steer) i f.chan
  obtain ⟨a, b, h⟩ := Walker.countSteer_eq w i f.steer
  obtain ⟨e1, e2, e3, e4⟩ := e _ rfl
  refine ⟨?_, ?_, ?_, e4.trans hc⟩
  · rw [e1, h', h]
  · rw [e2, h']
  · rw [e3, h']

/-- Passing a word counts it. -/
theorem Walker.cross_counted (w : Walker) (now i : Nat) (f : WordInfo) : Counted i f w (w.cross now i f) := by
  obtain ⟨h1, h2, h3, h4⟩ := Walker.cross_parts w now i f
  obtain ⟨g1, g2, -, -, -⟩ := Walker.cross_levels w now i f
  constructor
  · unfold Walker.levels; rw [g1, g2]
  · rw [h1]; simp only [← Walker.countsAt_iff]
  · intro r hr hf
    rw [h2, hf]
    refine ⟨⟨_, i, true, w.passes i⟩, by simp only [Walker.countSteer]; rw [List.getElem?_set_self hr], rfl, rfl, rfl, ?_⟩
    simp only [← Walker.countsAt_iff]
  · intro r hf
    rw [h2]
    cases hs : f.steer with
    | none => rfl
    | some q =>
      have hq : q ≠ r := by rintro rfl; exact hf hs
      simp only [Walker.countSteer]
      rw [List.getElem?_set_ne hq]
  · intro r j hr
    rw [h3, h2]
    cases hs : f.steer with
    | none => simp [Walker.countSteer]
    | some q =>
      simp only [Walker.countSteer]
      by_cases hp : w.passes i = []
      · simp [hp]
      · have hp' : (w.passes i).isEmpty = false := by simpa using hp
        rw [hp', if_neg (by simp), bodyNum_keepNum]
        by_cases hq : q = r ∧ i = j
        · obtain ⟨rfl, rfl⟩ := hq
          simp [hp, List.getElem?_set_self hr]
        · rw [if_neg hq, if_neg]
          rintro ⟨a, b, -⟩
          exact hq ⟨by simpa using a, b.symm⟩
  · intro c
    rw [h4]
    cases hc : f.chan with
    | none => simp [Walker.countCopy]
    | some q =>
      simp only [Walker.countCopy, Option.some.injEq]
      by_cases hl : w.liveAt i = true
      · rw [if_pos hl]
        simp only [modify_getElem?, hl, and_true]
        by_cases e : c = q
        · subst e; simp
        · simp [e, Ne.symm e]
      · simp [hl]

/-- Skipping words passes them one by one. -/
theorem Walker.skipTo_skipped (store : List W32) (now : Nat) (copies : Bool) (t fuel i : Nat) (w : Walker) (h : t ≤ i + fuel) :
    Skipped store copies t i w (Walker.skipTo store now copies t fuel i w) := by
  induction fuel generalizing i w with
  | zero => exact .arrived i w h
  | succ n ih =>
    unfold Walker.skipTo
    by_cases hi : t ≤ i
    · rw [if_pos hi]; exact .arrived i w hi
    · rw [if_neg hi]
      refine .word i w _ _ (by omega) (Walker.cross_counted w now i _) ?_
      show Skipped store copies t (i + 1 + literalCount (store.getD i 0).toNat) _
        (Walker.skipTo store now copies t n (i + (1 + literalCount (store.getD i 0).toNat)) (w.cross now i (passedInfo (store.getD i 0).toNat copies)))
      rw [Nat.add_assoc]
      exact ih _ _ (by omega)

/-- Two walkers whose counts agree, and whose levels agree but for when they go on. -/
structure Walker.Counts (v w : Walker) : Prop where
  count  : v.count = w.count
  steers : v.steers = w.steers
  copies : v.copies = w.copies
  bodyN  : v.bodyN = w.bodyN
  inner  : v.inner.map (fun l => { l with after := 0 }) = w.inner.map fun l => { l with after := 0 }
  outer  : v.outer.map (fun l => { l with after := 0 }) = w.outer.map fun l => { l with after := 0 }

theorem Walker.Counts.levels {v w : Walker} (h : v.Counts w) :
    v.levels.map (fun l => { l with after := 0 }) = w.levels.map fun l => { l with after := 0 } := by
  unfold Walker.levels
  rw [List.map_append, List.map_append]
  congr 1
  · have := h.outer; cases hv : v.outer <;> cases hw : w.outer <;> simp_all
  · have := h.inner; cases hv : v.inner <;> cases hw : w.inner <;> simp_all

theorem Walker.Counts.countsAt {v w : Walker} (h : v.Counts w) (i : Nat) : v.countsAt i = w.countsAt i := by
  have e : ∀ x : Walker, x.countsAt i = (x.levels.map fun l => { l with after := 0 }).all fun l => !(l.holds i) || l.pass == l.first := by
    intro x; rw [List.all_map]; rfl
  rw [e v, e w, h.levels]

theorem Walker.Counts.passes {v w : Walker} (h : v.Counts w) (i : Nat) : v.passes i = w.passes i := by
  have e : ∀ x : Walker, x.passes i =
      ((x.levels.map fun l => { l with after := 0 }).filter (·.holds i)).map fun l => (l.word, l.pass) := by
    intro x
    unfold Walker.passes
    induction x.levels with
    | nil => rfl
    | cons l ls ih =>
      have hl : Level.holds { l with after := 0 } i = l.holds i := rfl
      simp only [List.map_cons, List.filter_cons, hl]
      cases l.holds i <;> simp [ih]
  rw [e v, e w, h.levels]

theorem Walker.Counts.liveAt {v w : Walker} (h : v.Counts w) (i : Nat) : v.liveAt i = w.liveAt i := by
  have e : ∀ x : Walker, x.liveAt i =
      (match x.inner.map (fun l => { l with after := 0 }) with
        | some l => !(l.holds i) || l.live (l.stage i)
        | none => true) := by
    intro x; unfold Walker.liveAt; cases x.inner <;> rfl
  rw [e v, e w, h.inner]

theorem Walker.Counts.cross {v w : Walker} (h : v.Counts w) (now i : Nat) (f : WordInfo) : (v.cross now i f).Counts (w.cross now i f) := by
  obtain ⟨a1, a2, a3, a4⟩ := Walker.cross_parts v now i f
  obtain ⟨b1, b2, b3, b4⟩ := Walker.cross_parts w now i f
  obtain ⟨c1, c2, -⟩ := Walker.cross_levels v now i f
  obtain ⟨d1, d2, -⟩ := Walker.cross_levels w now i f
  constructor
  · rw [a1, b1, h.countsAt, h.count]
  · rw [a2, b2]; cases f.steer <;> simp only [Walker.countSteer, h.countsAt, h.steers, h.bodyN, h.passes]
  · rw [a4, b4]
    cases f.chan with
    | none => exact h.copies
    | some c => simp only [Walker.countCopy, h.liveAt]; split <;> simp [h.copies]
  · rw [a3, b3]; cases f.steer <;> simp only [Walker.countSteer, h.countsAt, h.steers, h.bodyN, h.passes]
  · rw [c1, d1]; exact h.inner
  · rw [c2, d2]; exact h.outer

theorem Walker.Counts.skipTo {v w : Walker} (h : v.Counts w) (store : List W32) (now : Nat) (copies : Bool) (t fuel i : Nat) :
    (Walker.skipTo store now copies t fuel i v).Counts (Walker.skipTo store now copies t fuel i w) := by
  induction fuel generalizing i v w with
  | zero => exact h
  | succ n ih =>
    unfold Walker.skipTo
    split
    · exact h
    · exact ih (h.cross _ _ _) _

theorem Walker.gone_counts (w : Walker) (now i : Nat) (f : WordInfo) : (w.gone now i f).Counts (w.cross now i f) := by
  have h : ∀ (o : Option Level) (c : Nat),
      (o.map fun l => if l.holds i then { l with after := c } else l).map (fun l => { l with after := 0 }) = o.map fun l => { l with after := 0 } := by
    intro o c; cases o with
    | none => rfl
    | some l => simp only [Option.map_some]; split <;> rfl
  exact ⟨rfl, rfl, rfl, rfl, h _ _, h _ _⟩

/-- The counts after issue (R9, R14, R111, R116). -/
theorem Walker.issued_counts (w : Walker) (store : List W32) (now i : Nat) (f : WordInfo) (n : Next)
    (hn : ∀ t a c, n = .skip t a c → t ≤ i + f.words + 65536) : CountsOn store f n i w (w.issued store now i f n) := by
  have hg := Walker.gone_counts w now i f
  have hi : (w.gone now i f).idx = i + f.words := (Walker.gone_spec w now i f).2.2.2.1
  cases n with
  | seq => exact ⟨_, _, Walker.cross_counted w now i f, rfl, hg.count, hg.steers, hg.copies⟩
  | jump t a => exact ⟨_, _, Walker.cross_counted w now i f, rfl, hg.count, hg.steers, hg.copies⟩
  | abandon t a => exact ⟨_, _, Walker.cross_counted w now i f, rfl, hg.count, hg.steers, hg.copies⟩
  | skip t a c =>
    have hs := hg.skipTo store now c t 65536 (w.gone now i f).idx
    refine ⟨_, _, Walker.cross_counted w now i f, Walker.skipTo_skipped store now c t 65536 (i + f.words) _ (hn t a c rfl), ?_⟩
    rw [hi] at hs
    have e : w.issued store now i f (.skip t a c) =
        { Walker.skipTo store now c t 65536 (w.gone now i f).idx (w.gone now i f) with idx := t, ready := (w.gone now i f).ic + a } := rfl
    rw [e, hi]
    exact ⟨hs.count, hs.steers, hs.copies⟩

/-! ### Loop levels (R107-R110, R114, R125) -/

/-- What one look at the inner level does. -/
theorem Walker.wrap1_settles (w : Walker) :
    (∃ b, Settles w.spot w.wrap1.1.spot b w.wrap1.2 ∧ w.wrap1.1.stopped = (w.stopped || b) ∧ (w.wrap1.2 = [] ∨ b = true)) ∨
    (∃ l, w.wrap1.2 = [l] ∧ w.wrap1.1.stopped = w.stopped ∧ w.wrap1.1.outer = none ∧
      (w.outer = none → w.wrap1.1.inner = none) ∧ ∀ q b cs, Settles w.wrap1.1.spot q b cs → Settles w.spot q b (l :: cs)) := by
  unfold Walker.wrap1
  cases hi : w.inner with
  | none => exact .inl ⟨false, .free _ hi, by simp, .inl rfl⟩
  | some l =>
    dsimp only
    by_cases hl : l.started = true ∧ l.last < w.idx
    · rw [if_pos hl]
      by_cases hr : l.runs (l.pass + 1) = true
      · rw [if_pos hr]
        have hr' : l.from_ < l.limit ∧ l.pass + 3 ≤ l.limit + l.stages := by
          simpa [Level.runs, Nat.add_assoc, Nat.add_comm 1 2] using hr
        exact .inl ⟨false, .again w.spot l hi hl.1 hl.2 hr'.1 hr'.2, by simp, .inl rfl⟩
      · rw [if_neg hr]
        have hr' : l.limit ≤ l.from_ ∨ l.limit + l.stages < l.pass + 3 := by
          simp only [Level.runs, Bool.and_eq_true, decide_eq_true_eq] at hr; omega
        cases hd : l.drain with
        | none =>
          refine .inr ⟨l.word, rfl, rfl, rfl, fun ho => by simp [ho], fun q b cs hq => ?_⟩
          exact .ends w.spot q l b cs hi hl.1 hl.2 hr' hd hq
        | some pd =>
          dsimp only
          by_cases hp : pd < l.trip
          · rw [if_pos hp]
            exact .inl ⟨true, .drained w.spot l pd hi hl.1 hl.2 hr' hd hp, by simp, .inr rfl⟩
          · rw [if_neg hp]
            exact .inl ⟨true, .stops w.spot l pd hi hl.1 hl.2 hr' hd (by omega), by simp, .inr rfl⟩
    · rw [if_neg hl]
      refine .inl ⟨false, .inside w.spot l hi ?_, by simp, .inl rfl⟩
      cases hs : l.started with
      | false => exact .inl rfl
      | true => exact .inr (Nat.le_of_not_lt fun h => hl ⟨hs, h⟩)

theorem Walker.wrap1_counts (w : Walker) : w.wrap1.1.count = w.count ∧ w.wrap1.1.steers = w.steers ∧ w.wrap1.1.copies = w.copies ∧
    w.wrap1.1.matched = w.matched := by
  unfold Walker.wrap1
  split
  · exact ⟨rfl, rfl, rfl, rfl⟩
  · split
    · dsimp only
      split
      · exact ⟨rfl, rfl, rfl, rfl⟩
      · split
        · split <;> exact ⟨rfl, rfl, rfl, rfl⟩
        · exact ⟨rfl, rfl, rfl, rfl⟩
    · exact ⟨rfl, rfl, rfl, rfl⟩

/-- The ends of loop levels leave the counts. -/
theorem Walker.wrap_counts (w : Walker) : w.wrap.1.count = w.count ∧ w.wrap.1.steers = w.steers ∧ w.wrap.1.copies = w.copies ∧
    w.wrap.1.matched = w.matched := by
  have h1 := Walker.wrap1_counts w
  have h2 := Walker.wrap1_counts w.wrap1.1
  have h3 : w.wrap1.1.wrap1.1.count = w.count ∧ w.wrap1.1.wrap1.1.steers = w.steers ∧ w.wrap1.1.wrap1.1.copies = w.copies ∧
      w.wrap1.1.wrap1.1.matched = w.matched :=
    ⟨h2.1.trans h1.1, h2.2.1.trans h1.2.1, h2.2.2.1.trans h1.2.2.1, h2.2.2.2.trans h1.2.2.2⟩
  unfold Walker.wrap
  dsimp only
  split
  · exact h1
  · split
    · exact h3
    · exact h3

/-- A walker after its word goes on as `Settles` says. -/
theorem Walker.wrap_settles (w : Walker) (h : w.stopped = false ∨ w.inner = none) :
    ∃ b, Settles w.spot w.wrap.1.spot b w.wrap.2 ∧ w.wrap.1.stopped = (w.stopped || b) := by
  rcases Walker.wrap1_settles w with ⟨b, h1, h2, h3⟩ | ⟨l, h1, h2, ho, -, h3⟩
  · have e : w.wrap = w.wrap1 := by
      unfold Walker.wrap
      dsimp only
      rw [if_pos]
      rcases h3 with h3 | h3
      · simp [h3]
      · simp [h2, h3]
    rw [e]; exact ⟨b, h1, h2⟩
  · have hs : w.stopped = false := by
      rcases h with h | h
      · exact h
      · unfold Walker.wrap1 at h1; rw [h] at h1; simp at h1
    have e : w.wrap = (if w.wrap1.1.wrap1.1.inner.isNone then { w.wrap1.1.wrap1.1 with bodySeq := [], bodyN := [] } else w.wrap1.1.wrap1.1,
        w.wrap1.2 ++ w.wrap1.1.wrap1.2) := by
      unfold Walker.wrap
      dsimp only
      rw [if_neg (by simp [h1, h2, hs])]
    have hp : ∀ c : Bool, Walker.spot (if c then { w.wrap1.1.wrap1.1 with bodySeq := [], bodyN := [] } else w.wrap1.1.wrap1.1) =
        w.wrap1.1.wrap1.1.spot ∧
        (if c then { w.wrap1.1.wrap1.1 with bodySeq := [], bodyN := [] } else w.wrap1.1.wrap1.1).stopped = w.wrap1.1.wrap1.1.stopped := by
      intro c; cases c <;> exact ⟨rfl, rfl⟩
    rw [e, h1]
    dsimp only
    rw [(hp _).1, (hp _).2]
    rcases Walker.wrap1_settles w.wrap1.1 with ⟨b, g1, g2, -⟩ | ⟨l', g1, g2, -, gi, g3⟩
    · exact ⟨b, h3 _ _ _ g1, by rw [g2, h2]⟩
    · refine ⟨false, h3 _ _ _ ?_, by rw [g2, h2, hs]; rfl⟩
      rw [g1]
      exact g3 _ _ _ (.free _ (gi ho))

/-- Where the word sends the walker, its levels not yet considered. -/
theorem Walker.issued_spot (w : Walker) (store : List W32) (now : Nat) (f : WordInfo) (n : Next) :
    (w.issued store now w.idx f n).spot = n.spot f w ∧ (w.issued store now w.idx f n).stopped = w.stopped ∧
      (w.issued store now w.idx f n).matched = false := by
  have hc : (w.cross now w.idx f).ic = w.ic ∧ (w.cross now w.idx f).stopped = w.stopped := by
    obtain ⟨a, b, h⟩ := Walker.countSteer_eq w w.idx f.steer
    obtain ⟨cs, h'⟩ := Walker.countCopy_eq (w.countSteer w.idx f.steer) w.idx f.chan
    have e : ∀ v : Walker, (w.countSteer w.idx f.steer).countCopy w.idx f.chan = v →
        (w.cross now w.idx f).ic = v.ic ∧ (w.cross now w.idx f).stopped = v.stopped := by rintro v rfl; exact ⟨rfl, rfl⟩
    obtain ⟨e1, e2⟩ := e _ h'
    rw [e1, e2, h]; exact ⟨rfl, rfl⟩
  obtain ⟨g1, g2, -, -, g5⟩ := Walker.cross_levels w now w.idx f
  have hg : (w.gone now w.idx f).spot = ⟨w.idx + f.words, w.ic + 1, w.inner.map fun l => l.touched w.idx w.ic, w.outer.map fun l => l.touched w.idx w.ic⟩ := by
    unfold Walker.gone Walker.spot
    simp only [g1, g2, g5, hc.1]
    rfl
  have hgs : (w.gone now w.idx f).stopped = w.stopped := hc.2
  have hgi : (w.gone now w.idx f).ic = w.ic := hc.1
  have hin : (w.gone now w.idx f).inner = w.inner.map fun l => l.touched w.idx w.ic := congrArg Spot.inner hg
  have hou : (w.gone now w.idx f).outer = w.outer.map fun l => l.touched w.idx w.ic := congrArg Spot.outer hg
  cases n with
  | seq => exact ⟨hg, hgs, rfl⟩
  | jump t a =>
    refine ⟨?_, hgs, rfl⟩
    show Spot.mk t ((w.gone now w.idx f).ic + a) (w.gone now w.idx f).inner (w.gone now w.idx f).outer = _
    rw [hgi, hin, hou]; rfl
  | abandon t a =>
    refine ⟨?_, hgs, rfl⟩
    show Spot.mk t ((w.gone now w.idx f).ic + a) none none = _
    rw [hgi]; rfl
  | skip t a c =>
    obtain ⟨k1, k2, -, -⟩ := Walker.skipTo_levels store now c t 65536 (w.gone now w.idx f).idx (w.gone now w.idx f)
    obtain ⟨s1, s2⟩ := Walker.skipTo_stopped store now c t 65536 (w.gone now w.idx f).idx (w.gone now w.idx f)
    refine ⟨?_, s1.trans hgs, s2.trans rfl⟩
    show Spot.mk t ((w.gone now w.idx f).ic + a) (Walker.skipTo store now c t 65536 (w.gone now w.idx f).idx (w.gone now w.idx f)).inner
      (Walker.skipTo store now c t 65536 (w.gone now w.idx f).idx (w.gone now w.idx f)).outer = _
    rw [hgi, k1, k2, hin, hou]; rfl

/-! ### Issue -/

/-- The unit after issue, as its parts. -/
theorem Unit.retire_eq (un : Unit) (now k i : Nat) (f : WordInfo) (n : Next) (_h : i = (un.wk k).idx) :
    un.retire now k i f n =
      ({ un.setWk k (fun w => w.issued un.istore now i f n) with
        trigs := un.trigs.map fun (g : Trigger) => g.note now 2 k i }.closeLevels now k (n.left (un.wk k))).wrapWalker now k := by
  cases n <;> rfl

/-- Issue changes what `Passed` says and nothing else. -/
theorem Passed.of_retire {f : WordInfo} {n : Next} {now k : Nat} {un : Unit} (hk : k < un.walkers.length)
    (hs : (un.wk k).stopped = false ∨ (un.wk k).inner = none) (hn : ∀ t a c, n = .skip t a c → t ≤ (un.wk k).idx + f.words + 65536) :
    Passed f n now k un ((un.occupy now f).retire now k (un.wk k).idx f n) := by
  rw [Unit.retire_eq (un.occupy now f) now k (un.wk k).idx f n rfl]
  generalize hA : ({ (un.occupy now f).setWk k (fun w => w.issued (un.occupy now f).istore now (un.wk k).idx f n) with
    trigs := (un.occupy now f).trigs.map fun (g : Trigger) => g.note now 2 k (un.wk k).idx } : Unit) = A
  have hleft : n.left ((un.occupy now f).wk k) = n.left (un.wk k) := rfl
  rw [hleft]
  obtain ⟨ps, hB, hps⟩ := Unit.closeLevels_spec A now k (n.left (un.wk k))
  rw [hB]
  generalize hB' : ({ A with pend := A.pend ++ ps, seq := A.seq + ps.length } : Unit) = B
  have hAk : A.wk k = (un.wk k).issued un.istore now (un.wk k).idx f n := by
    rw [← hA]; exact Unit.wk_setWk_self (un.occupy now f) _ hk
  have hAj : ∀ j, j ≠ k → A.wk j = un.wk j := by
    intro j hj; rw [← hA]; exact Unit.wk_setWk_ne (un.occupy now f) _ hj
  have hAl : A.walkers.length = un.walkers.length := by rw [← hA]; exact Unit.setWk_count _ _ _
  have hBk : B.wk k = (un.wk k).issued un.istore now (un.wk k).idx f n := by rw [← hB']; exact hAk
  have hBj : ∀ j, j ≠ k → B.wk j = un.wk j := by intro j hj; rw [← hB']; exact hAj j hj
  have hBl : k < B.walkers.length := by rw [← hB']; exact hAl ▸ hk
  obtain ⟨ps2, hC, hps2⟩ := Unit.closeLevels_spec (B.setWk k fun _ => (B.wk k).wrap.1) now k (B.wk k).wrap.2
  have hW : B.wrapWalker now k =
      { B.setWk k (fun _ => (B.wk k).wrap.1) with pend := B.pend ++ ps2, seq := B.seq + ps2.length } := hC
  rw [hW]
  have hwk : ∀ j, ({ B.setWk k (fun _ => (B.wk k).wrap.1) with pend := B.pend ++ ps2, seq := B.seq + ps2.length } : Unit).wk j =
      if j = k then (B.wk k).wrap.1 else un.wk j := by
    intro j
    show (B.setWk k (fun _ => (B.wk k).wrap.1)).wk j = _
    rw [Unit.wk_setWk]
    by_cases hj : j = k
    · subst hj; simp [hBl]
    · simp [hj, hBj j hj]
  obtain ⟨i1, i2, -⟩ := Walker.issued_slot (un.wk k) un.istore now (un.wk k).idx f n
  obtain ⟨p1, p2, p3⟩ := Walker.issued_spot (un.wk k) un.istore now f n
  have hw := Walker.wrap_slot (B.wk k)
  have hc := Walker.wrap_counts (B.wk k)
  have hpend : B.pend ++ ps2 = un.pend ++ (ps ++ ps2) := by rw [← hB', ← hA]; simp [Unit.occupy]
  have hinner : (B.wk k).stopped = false ∨ (B.wk k).inner = none := by
    rw [hBk, p2]
    refine hs.imp_right fun hi => ?_
    have hsp := congrArg Spot.inner p1
    show ((un.wk k).issued un.istore now (un.wk k).idx f n).spot.inner = none
    rw [hsp]
    cases n <;> simp [Next.spot, hi]
  obtain ⟨b, q1, q2⟩ := Walker.wrap_settles (B.wk k) hinner
  constructor
  · rw [← hB', ← hA]; rfl
  · show B.trigs = _
    rw [← hB', ← hA]; rfl
  · show B.vfree = _
    rw [← hB', ← hA]; rfl
  · show B.mfree = _
    rw [← hB', ← hA]; rfl
  · intro j hj; rw [hwk]; simp [hj]
  · rw [hwk, if_pos rfl]
    exact (Walker.wrap_alike _).trans (hBk ▸ Walker.issued_alike _ _ _ _ _ _)
  · rw [hwk, if_pos rfl, hw.1, hBk]; exact i1
  · rw [hwk, if_pos rfl, hw.2, hBk]; exact i2
  · rw [hwk, if_pos rfl, hc.2.2.2, hBk]; exact p3
  · rw [hwk, if_pos rfl]
    obtain ⟨w1, w2, c1, c2, c3, c4, c5⟩ := Walker.issued_counts (un.wk k) un.istore now (un.wk k).idx f n hn
    rw [← hBk] at c3 c4 c5
    exact ⟨w1, w2, c1, c2, hc.1.trans c3, hc.2.1.trans c4, hc.2.2.1.trans c5⟩
  · refine ⟨b, (B.wk k).wrap.2, ps ++ ps2, ?_, ?_, hpend, ?_⟩
    · rw [hwk, if_pos rfl, ← p1, ← hBk]; exact q1
    · rw [hwk, if_pos rfl, q2, hBk, p2]
    · rw [List.map_append, hps, hps2, List.map_append]
  · show B.seq + ps2.length = un.seq + ((B.pend ++ ps2).length - un.pend.length)
    rw [hpend, ← hB', ← hA]
    simp [Unit.occupy, Nat.add_assoc]

@[simp] theorem State.now_standing (s : State) (un : Unit) (k now : Nat) : s.now (un.standing k now) = s.now un := rfl

@[simp] theorem Unit.standing_idx (un : Unit) (k now : Nat) : ((un.standing k now).wk k).idx = (un.wk k).idx := by
  rw [Unit.standing, Unit.wk_setWk]; split <;> rfl

@[simp] theorem Unit.standing_count (un : Unit) (k now : Nat) : (un.standing k now).walkers.length = un.walkers.length := Unit.setWk_count _ _ _

/-- A word that nothing keeps from issuing and whose body issues it, leaving unit `v1` in the state `s1`. -/
theorem runWord_passed {f : WordInfo} {body : State → Nat → Nat → Act} {s s1 : State} {u k : Nat} {v v1 : Unit} {n : Next}
    (h : Ready f s u k v) (hb : body (s.setUnit u v) u k = .go (s1.setUnit u v1) n)
    (hw : v1.walkers.length = v.walkers.length) (hi : (v1.wk k).idx = (v.wk k).idx) (hst : (v1.wk k).stopped = false ∨ (v1.wk k).inner = none)
    (hn : ∀ t a c, n = .skip t a c → t ≤ (v1.wk k).idx + f.words + 65536) :
    ∃ un', runWord f body s = s1.setUnit u un' ∧ Passed f n (s.now v) k v1 un' := by
  obtain ⟨un, hs, rfl⟩ := h
  have hl : k < v1.walkers.length := by rw [hw, Unit.standing_count, hs.four]; exact hs.walker
  refine ⟨_, ?_, Passed.of_retire hl hst hn⟩
  rw [runWord_go hs hb, State.modUnit_setUnit, hi, Unit.standing_idx, State.now_standing]

/-- An instruction that is a word, whose body issues it. -/
theorem IssuesIn.of_body {f : WordInfo} {body : State → Nat → Nat → Act} {i : Instr} {s s1 : State} {u k : Nat} {v v1 : Unit} {n : Next}
    (h : Ready f s u k v) (he : exec i s = .next (runWord f body s)) (hb : body (s.setUnit u v) u k = .go (s1.setUnit u v1) n)
    (hw : v1.walkers.length = v.walkers.length) (hi : (v1.wk k).idx = (v.wk k).idx) (hst : (v1.wk k).stopped = false ∨ (v1.wk k).inner = none)
    (hn : ∀ t a c, n = .skip t a c → t ≤ (v1.wk k).idx + f.words + 65536) : IssuesIn f n i s s1 u k (s.now v) v1 := by
  obtain ⟨un', h1, h2⟩ := runWord_passed h hb hw hi hst hn
  exact ⟨un', by rw [he, h1], h2⟩

/-- An instruction that is a word, whose body faults. -/
theorem Faults.of_body {f : WordInfo} {body : State → Nat → Nat → Act} {i : Instr} {s : State} {u k : Nat} {v : Unit} {c : Cause} {info : Nat}
    (h : Ready f s u k v) (he : exec i s = .next (runWord f body s)) (hb : body (s.setUnit u v) u k = .fault c info) :
    Faults i s u k v c info := by
  obtain ⟨un, hs, rfl⟩ := h
  unfold Faults
  rw [he, runWord_fault hs hb]

/-- A word whose stage is not live is squashed (R108). -/
theorem Squashes.of_word {f : WordInfo} {body : State → Nat → Nat → Act} {i : Instr} {s : State} {u k : Nat} {v : Unit} (h : Dead f s u k v)
    (he : exec i s = .next (runWord f body s)) : Squashes f i s u k v := by
  obtain ⟨un, hs, hl, rfl⟩ := h
  have hfree := hs.free
  obtain ⟨m, hm, hm8⟩ := hs.walking
  have hq : (k != 0 && un.quietWord) = false := by
    rcases hs.noQuiet with h0 | h0
    · subst h0; simp
    · simp [h0]
  have hd : (un.draining (s.now un) && (un.wk k).inner.isNone) = false := by
    rcases hs.kept with h0 | h0
    · simp [h0]
    · cases hi : (un.wk k).inner <;> simp_all
  have hw : ¬ ((un.wk k).countsAt (un.wk k).idx = true ∧ un.slips k f.words = true) := by
    rcases hs.within with h0 | h0 <;> simp [h0]
  have hr : runWord f body s = (s.setUnit u (un.standing k (s.now un))).modUnit u fun v =>
      (((v.holdDead (s.now un) f).squashSteer k (un.wk k).idx (s.now un) f).occupy (s.now un) f).retire (s.now un) k (un.wk k).idx f .seq := by
    unfold runWord
    rw [hs.focus]
    simp only [hs.here, hm, hs.going, hd, hs.loose, Nat.not_lt.mpr hs.time, hs.noHalt, hq, Nat.not_le.mpr hs.inText, Nat.not_lt.mpr hm8, hw, hs.named,
      hfree, hl, Bool.false_eq_true, if_false, Option.isSome_none, Bool.false_or, Bool.not_true, Bool.false_and, Bool.not_false, if_true]
    rfl
  have hsq : ∀ x : Unit, (x.squashSteer k (un.wk k).idx (s.now un) f).walkers = x.walkers := by
    intro x; unfold Unit.squashSteer; split
    · split <;> rfl
    · rfl
  have hst : ∀ j, ((un.standing k (s.now un)).wk j).stopped = (un.wk j).stopped := by
    intro j; unfold Unit.standing; rw [Unit.wk_setWk]; split
    · rename_i hj; rw [hj.1]
    · rfl
  have hwd : ∀ x : Unit, (x.holdDead (s.now un) f).walkers = x.walkers := by
    intro x; unfold Unit.holdDead; split <;> rfl
  refine ⟨(un.standing k (s.now un)).holdDead (s.now un) f, ((un.standing k (s.now un)).holdDead (s.now un) f).squashSteer k (un.wk k).idx (s.now un) f,
    ?_, ?_, ?_, ?_, ?_, ?_⟩
  · intro h0; unfold Unit.holdDead; rw [h0]
  · intro c h0; unfold Unit.holdDead; rw [h0]; rfl
  · intro h0; unfold Unit.squashSteer; rw [h0]
  · intro j r h0 hj hw; unfold Unit.squashSteer; rw [h0]
    have : (List.range k).any f.who = true := List.any_eq_true.mpr ⟨j, List.mem_range.mpr hj, hw⟩
    simp [this]
  · intro r h0 hno
    have : (List.range k).any f.who = false := by
      rw [List.any_eq_false]; intro j hj; simpa using hno j (List.mem_range.mp hj)
    unfold Unit.squashSteer
    rw [h0]
    simp only [this, Bool.false_eq_true, if_false]
    exact ⟨_, rfl, (Unit.standing_idx un k (s.now un)).symm, rfl, rfl, rfl⟩
  · unfold Issues IssuesIn
    rw [he, hr]
    have hwk : ∀ j, (((un.standing k (s.now un)).holdDead (s.now un) f).squashSteer k (un.wk k).idx (s.now un) f).wk j = (un.standing k (s.now un)).wk j := by
      intro j; show List.getD _ _ _ = List.getD _ _ _; rw [hsq, hwd]
    refine ⟨_, congrArg _ (State.modUnit_setUnit ..), ?_⟩
    have hp := Passed.of_retire (f := f) (n := .seq) (now := s.now un) (k := k) (un := ((un.standing k (s.now un)).holdDead (s.now un) f).squashSteer k (un.wk k).idx (s.now un) f)
      (by rw [hsq, hwd, Unit.standing_count, hs.four]; exact hs.walker) (.inl (by rw [hwk, hst]; exact hs.going)) (fun _ _ _ h => by cases h)
    rw [hwk, Unit.standing_idx] at hp
    exact hp

/-- Reading the unit that the word's body finds. -/
theorem Ready.unit {f : WordInfo} {s : State} {u k : Nat} {v : Unit} (_ : Ready f s u k v) : (s.setUnit u v).unit? u = some v :=
  State.unit?_setUnit_self s u v

end Sys2Proof.Machine
end

