-- ==== Sys2Proof/Laws/Operands.lean ====
section
/-! SUPPORT. What reading operands and entering results do to a unit. -/

namespace Sys2Proof.Machine

/-- Reading operands pops queues and changes nothing else (R12, R82). -/
theorem fetch_unit {k : Nat} {v v1 : Unit} {fs : List Nat} {vs : List Val} (h : fetch k v fs = .ok (vs, v1)) :
    ∃ qs, v1 = { v with queues := qs } := by
  induction fs generalizing v vs v1 with
  | nil => simp [fetch] at h; exact ⟨v.queues, by rw [← h.2]⟩
  | cons f fs ih =>
    simp only [fetch] at h
    split at h
    · split at h
      · cases h
      · split at h
        · rename_i h'; cases h; obtain ⟨qs, e⟩ := ih h'; exact ⟨qs, e⟩
        · cases h
    · split at h
      · rename_i h'; cases h; exact ih h'
      · cases h

/-- One value for each operand. -/
theorem fetch_length {k : Nat} {v v1 : Unit} {fs : List Nat} {vs : List Val} (h : fetch k v fs = .ok (vs, v1)) : vs.length = fs.length := by
  induction fs generalizing v vs v1 with
  | nil => simp [fetch] at h; simp [← h.1]
  | cons f fs ih =>
    simp only [fetch] at h
    split at h
    · split at h
      · cases h
      · split at h
        · rename_i h'; cases h; simp [ih h']
        · cases h
    · split at h
      · rename_i h'; cases h; simp [ih h']
      · cases h

/-- Operands that are registers are read where they stand. -/
theorem fetch_regs (k : Nat) (v : Unit) {fs : List Nat} (h : ∀ f ∈ fs, isPort f = false) :
    fetch k v fs = .ok (fs.map (v.wk k).reg, v) := by
  induction fs with
  | nil => rfl
  | cons f fs ih =>
    have hf := h f (by simp)
    have ih' := ih fun g hg => h g (by simp [hg])
    simp [fetch, hf, ih']

/-- A unit's walkers as far as an effect that is no walker's own place may change them. -/
structure SameWalkers (v w : Unit) (k : Nat) : Prop where
  count : w.walkers.length = v.walkers.length
  idx   : (w.wk k).idx = (v.wk k).idx

theorem SameWalkers.refl (v : Unit) (k : Nat) : SameWalkers v v k := ⟨rfl, rfl⟩

theorem SameWalkers.trans {a b c : Unit} {k : Nat} (h : SameWalkers a b k) (g : SameWalkers b c k) : SameWalkers a c k :=
  ⟨g.count.trans h.count, g.idx.trans h.idx⟩

theorem SameWalkers.of_fetch {k j : Nat} {v v1 : Unit} {fs : List Nat} {vs : List Val} (h : fetch k v fs = .ok (vs, v1)) : SameWalkers v v1 j := by
  obtain ⟨qs, rfl⟩ := fetch_unit h; exact ⟨rfl, rfl⟩

theorem SameWalkers.of_enter (v : Unit) (k j due : Nat) (e : Eff) : SameWalkers v (v.enter k due e) j :=
  ⟨by simp, by rw [Unit.wk_enter]; split <;> simp_all⟩

theorem SameWalkers.of_later (v : Unit) (j due rank : Nat) (e : Eff) : SameWalkers v (v.later due rank e) j := ⟨rfl, rfl⟩

theorem SameWalkers.of_landReg (v : Unit) (k j d now lat : Nat) (x : Val) : SameWalkers v (v.landReg k d now lat x) j := by
  unfold Unit.landReg
  split
  · exact SameWalkers.trans (b := v.qReserve _) ⟨rfl, rfl⟩ (SameWalkers.of_enter _ _ _ _ _)
  · exact SameWalkers.of_enter _ _ _ _ _

theorem SameWalkers.of_landExt (v : Unit) (k j d due : Nat) (x : Val) : SameWalkers v (v.landExt k d due x) j := by
  unfold Unit.landExt
  split <;> exact ⟨rfl, rfl⟩

theorem SameWalkers.of_raise (v : Unit) (k j due : Nat) (f : W64) : SameWalkers v (v.raise k due f) j := by
  unfold Unit.raise
  split <;> exact ⟨rfl, rfl⟩

theorem SameWalkers.of_writeSteer (v : Unit) (k i j now reg : Nat) (c : Option (Bool × Bool)) (t : Option (Nat × Bool)) :
    SameWalkers v (v.writeSteer k i now reg c t) j := SameWalkers.of_enter _ _ _ _ _

theorem SameWalkers.of_setWk (v : Unit) (k j : Nat) (f : Walker → Walker) (h : ∀ w, (f w).idx = w.idx) : SameWalkers v (v.setWk k f) j :=
  ⟨by simp, by rw [Unit.wk_setWk]; split <;> simp_all⟩

/-- The body of a word that reads registers and lands a value of them (R82). -/
theorem regBody_go {lat d : Nat} {srcs : List Nat} {f : List Val → Val} {s : State} {u k : Nat} {v v1 : Unit} {vs : List Val}
    (hp : ownPort k (d :: srcs) = false) (hf : v.full k = false) (h : fetch k v srcs = .ok (vs, v1)) (hr : v1.room k d = true) :
    regBody true lat d srcs f (s.setUnit u v) u k = .go (s.setUnit u (v1.landReg k d (s.now v) lat (f vs))) .seq := by
  simp [regBody, hp, hf, h, hr]

end Sys2Proof.Machine
end

