-- ==== Sys2Proof/Laws/PerInstr.lean ====
section
/-! SUPPORT. The family `Coded`, one lemma per instruction: each word that spells it fits 32 bits, and as many literal words follow the
first as its own bits say (R33, R40, R41); an event is spelled by no word. -/

namespace Sys2Proof.Laws.Coded

/-- The words of `i` fit 32 bits, and the first says how many follow. -/
def Statement (i : Instr) : Prop :=
  ∀ w ws, encodeNat i = w :: ws → w < 2 ^ 32 ∧ (∀ l ∈ ws, l < 2 ^ 32) ∧ ws.length = literalCount w

theorem of_event {i : Instr} (h : encodeNat i = []) : Statement i := by
  intro w ws e; rw [h] at e; cases e

theorem of_word {i : Instr} {w : Nat} (h : encodeNat i = [w]) (hw : w < 2 ^ 32) (h1 : ¬(fld w 31 1 = 0 ∧ fld w 22 5 = 9))
    (h2 : ¬(fld w 28 4 = 10 ∧ fld w 22 6 = 45)) : Statement i := by
  intro v ws e
  rw [h] at e
  cases e
  refine ⟨hw, by simp, ?_⟩
  unfold literalCount
  rw [if_neg h1, if_neg h2]
  rfl

theorem bit_cases (b : BitVec 1) : b = 0 ∨ b = 1 := by revert b; decide

/-- `li.lit` (R86). -/
theorem lit_control {w d : Nat} (hw : w < 16) (hd : d < 32) {n : Nat} (hn : n < 2) {v : Nat}
    (hv : v = w * 2 ^ 27 + (d * 2 ^ 17 + (n * 2 ^ 0 + 0x02400000))) : v < 2 ^ 32 ∧ literalCount v = 1 + n := by
  refine ⟨by omega, ?_⟩
  unfold literalCount
  rw [if_pos (by unfold fld; omega)]
  unfold fld; omega

/-- `vfmal` (R132). -/
theorem lit_vector {d a k : Nat} (hd : d < 64) (ha : a < 64) (hk : k < 2) {n : Nat} (hn : n < 2) {v : Nat}
    (hv : v = d * 2 ^ 16 + (a * 2 ^ 10 + (n * 2 ^ 4 + (k * 2 ^ 3 + 0xAB400000)))) : v < 2 ^ 32 ∧ literalCount v = 1 + n := by
  refine ⟨by omega, ?_⟩
  unfold literalCount
  rw [if_neg (by unfold fld; omega), if_pos (by unfold fld; omega)]
  unfold fld; omega

theorem nop (w : BitVec 4) : Statement (.nop w) := by
  have h0 := w.isLt
  refine of_word rfl ?_ ?_ ?_ <;> simp only [putFields, fld] <;> omega
theorem add (w : BitVec 4) (d : BitVec 5) (a : BitVec 5) (b : BitVec 5) : Statement (.add w d a b) := by
  have h0 := w.isLt; have h1 := d.isLt; have h2 := a.isLt; have h3 := b.isLt
  refine of_word rfl ?_ ?_ ?_ <;> simp only [putFields, fld] <;> omega
theorem sub (w : BitVec 4) (d : BitVec 5) (a : BitVec 5) (b : BitVec 5) : Statement (.sub w d a b) := by
  have h0 := w.isLt; have h1 := d.isLt; have h2 := a.isLt; have h3 := b.isLt
  refine of_word rfl ?_ ?_ ?_ <;> simp only [putFields, fld] <;> omega
theorem and (w : BitVec 4) (d : BitVec 5) (a : BitVec 5) (b : BitVec 5) : Statement (.and w d a b) := by
  have h0 := w.isLt; have h1 := d.isLt; have h2 := a.isLt; have h3 := b.isLt
  refine of_word rfl ?_ ?_ ?_ <;> simp only [putFields, fld] <;> omega
theorem or (w : BitVec 4) (d : BitVec 5) (a : BitVec 5) (b : BitVec 5) : Statement (.or w d a b) := by
  have h0 := w.isLt; have h1 := d.isLt; have h2 := a.isLt; have h3 := b.isLt
  refine of_word rfl ?_ ?_ ?_ <;> simp only [putFields, fld] <;> omega
theorem xor (w : BitVec 4) (d : BitVec 5) (a : BitVec 5) (b : BitVec 5) : Statement (.xor w d a b) := by
  have h0 := w.isLt; have h1 := d.isLt; have h2 := a.isLt; have h3 := b.isLt
  refine of_word rfl ?_ ?_ ?_ <;> simp only [putFields, fld] <;> omega
theorem andn (w : BitVec 4) (d : BitVec 5) (a : BitVec 5) (b : BitVec 5) : Statement (.andn w d a b) := by
  have h0 := w.isLt; have h1 := d.isLt; have h2 := a.isLt; have h3 := b.isLt
  refine of_word rfl ?_ ?_ ?_ <;> simp only [putFields, fld] <;> omega
theorem orn (w : BitVec 4) (d : BitVec 5) (a : BitVec 5) (b : BitVec 5) : Statement (.orn w d a b) := by
  have h0 := w.isLt; have h1 := d.isLt; have h2 := a.isLt; have h3 := b.isLt
  refine of_word rfl ?_ ?_ ?_ <;> simp only [putFields, fld] <;> omega
theorem sll (w : BitVec 4) (d : BitVec 5) (a : BitVec 5) (b : BitVec 5) : Statement (.sll w d a b) := by
  have h0 := w.isLt; have h1 := d.isLt; have h2 := a.isLt; have h3 := b.isLt
  refine of_word rfl ?_ ?_ ?_ <;> simp only [putFields, fld] <;> omega
theorem srl (w : BitVec 4) (d : BitVec 5) (a : BitVec 5) (b : BitVec 5) : Statement (.srl w d a b) := by
  have h0 := w.isLt; have h1 := d.isLt; have h2 := a.isLt; have h3 := b.isLt
  refine of_word rfl ?_ ?_ ?_ <;> simp only [putFields, fld] <;> omega
theorem sra (w : BitVec 4) (d : BitVec 5) (a : BitVec 5) (b : BitVec 5) : Statement (.sra w d a b) := by
  have h0 := w.isLt; have h1 := d.isLt; have h2 := a.isLt; have h3 := b.isLt
  refine of_word rfl ?_ ?_ ?_ <;> simp only [putFields, fld] <;> omega
theorem rol (w : BitVec 4) (d : BitVec 5) (a : BitVec 5) (b : BitVec 5) : Statement (.rol w d a b) := by
  have h0 := w.isLt; have h1 := d.isLt; have h2 := a.isLt; have h3 := b.isLt
  refine of_word rfl ?_ ?_ ?_ <;> simp only [putFields, fld] <;> omega
theorem mul (w : BitVec 4) (d : BitVec 5) (a : BitVec 5) (b : BitVec 5) : Statement (.mul w d a b) := by
  have h0 := w.isLt; have h1 := d.isLt; have h2 := a.isLt; have h3 := b.isLt
  refine of_word rfl ?_ ?_ ?_ <;> simp only [putFields, fld] <;> omega
theorem mulh (w : BitVec 4) (d : BitVec 5) (a : BitVec 5) (b : BitVec 5) : Statement (.mulh w d a b) := by
  have h0 := w.isLt; have h1 := d.isLt; have h2 := a.isLt; have h3 := b.isLt
  refine of_word rfl ?_ ?_ ?_ <;> simp only [putFields, fld] <;> omega
theorem mulhu (w : BitVec 4) (d : BitVec 5) (a : BitVec 5) (b : BitVec 5) : Statement (.mulhu w d a b) := by
  have h0 := w.isLt; have h1 := d.isLt; have h2 := a.isLt; have h3 := b.isLt
  refine of_word rfl ?_ ?_ ?_ <;> simp only [putFields, fld] <;> omega
theorem divu (w : BitVec 4) (d : BitVec 5) (a : BitVec 5) (b : BitVec 5) : Statement (.divu w d a b) := by
  have h0 := w.isLt; have h1 := d.isLt; have h2 := a.isLt; have h3 := b.isLt
  refine of_word rfl ?_ ?_ ?_ <;> simp only [putFields, fld] <;> omega
theorem remu (w : BitVec 4) (d : BitVec 5) (a : BitVec 5) (b : BitVec 5) : Statement (.remu w d a b) := by
  have h0 := w.isLt; have h1 := d.isLt; have h2 := a.isLt; have h3 := b.isLt
  refine of_word rfl ?_ ?_ ?_ <;> simp only [putFields, fld] <;> omega
theorem min (w : BitVec 4) (d : BitVec 5) (a : BitVec 5) (b : BitVec 5) : Statement (.min w d a b) := by
  have h0 := w.isLt; have h1 := d.isLt; have h2 := a.isLt; have h3 := b.isLt
  refine of_word rfl ?_ ?_ ?_ <;> simp only [putFields, fld] <;> omega
theorem max (w : BitVec 4) (d : BitVec 5) (a : BitVec 5) (b : BitVec 5) : Statement (.max w d a b) := by
  have h0 := w.isLt; have h1 := d.isLt; have h2 := a.isLt; have h3 := b.isLt
  refine of_word rfl ?_ ?_ ?_ <;> simp only [putFields, fld] <;> omega
theorem minu (w : BitVec 4) (d : BitVec 5) (a : BitVec 5) (b : BitVec 5) : Statement (.minu w d a b) := by
  have h0 := w.isLt; have h1 := d.isLt; have h2 := a.isLt; have h3 := b.isLt
  refine of_word rfl ?_ ?_ ?_ <;> simp only [putFields, fld] <;> omega
theorem maxu (w : BitVec 4) (d : BitVec 5) (a : BitVec 5) (b : BitVec 5) : Statement (.maxu w d a b) := by
  have h0 := w.isLt; have h1 := d.isLt; have h2 := a.isLt; have h3 := b.isLt
  refine of_word rfl ?_ ?_ ?_ <;> simp only [putFields, fld] <;> omega
theorem clz (w : BitVec 4) (d : BitVec 5) (a : BitVec 5) : Statement (.clz w d a) := by
  have h0 := w.isLt; have h1 := d.isLt; have h2 := a.isLt
  refine of_word rfl ?_ ?_ ?_ <;> simp only [putFields, fld] <;> omega
theorem popc (w : BitVec 4) (d : BitVec 5) (a : BitVec 5) : Statement (.popc w d a) := by
  have h0 := w.isLt; have h1 := d.isLt; have h2 := a.isLt
  refine of_word rfl ?_ ?_ ?_ <;> simp only [putFields, fld] <;> omega
theorem addi (w : BitVec 4) (d : BitVec 5) (a : BitVec 5) (im : BitVec 12) : Statement (.addi w d a im) := by
  have h0 := w.isLt; have h1 := d.isLt; have h2 := a.isLt; have h3 := im.isLt
  refine of_word rfl ?_ ?_ ?_ <;> simp only [putFields, fld] <;> omega
theorem andi (w : BitVec 4) (d : BitVec 5) (a : BitVec 5) (im : BitVec 12) : Statement (.andi w d a im) := by
  have h0 := w.isLt; have h1 := d.isLt; have h2 := a.isLt; have h3 := im.isLt
  refine of_word rfl ?_ ?_ ?_ <;> simp only [putFields, fld] <;> omega
theorem ori (w : BitVec 4) (d : BitVec 5) (a : BitVec 5) (im : BitVec 12) : Statement (.ori w d a im) := by
  have h0 := w.isLt; have h1 := d.isLt; have h2 := a.isLt; have h3 := im.isLt
  refine of_word rfl ?_ ?_ ?_ <;> simp only [putFields, fld] <;> omega
theorem xori (w : BitVec 4) (d : BitVec 5) (a : BitVec 5) (im : BitVec 12) : Statement (.xori w d a im) := by
  have h0 := w.isLt; have h1 := d.isLt; have h2 := a.isLt; have h3 := im.isLt
  refine of_word rfl ?_ ?_ ?_ <;> simp only [putFields, fld] <;> omega
theorem slli (w : BitVec 4) (d : BitVec 5) (a : BitVec 5) (st : BitVec 6) : Statement (.slli w d a st) := by
  have h0 := w.isLt; have h1 := d.isLt; have h2 := a.isLt; have h3 := st.isLt
  refine of_word rfl ?_ ?_ ?_ <;> simp only [putFields, fld] <;> omega
theorem srli (w : BitVec 4) (d : BitVec 5) (a : BitVec 5) (st : BitVec 6) : Statement (.srli w d a st) := by
  have h0 := w.isLt; have h1 := d.isLt; have h2 := a.isLt; have h3 := st.isLt
  refine of_word rfl ?_ ?_ ?_ <;> simp only [putFields, fld] <;> omega
theorem srai (w : BitVec 4) (d : BitVec 5) (a : BitVec 5) (st : BitVec 6) : Statement (.srai w d a st) := by
  have h0 := w.isLt; have h1 := d.isLt; have h2 := a.isLt; have h3 := st.isLt
  refine of_word rfl ?_ ?_ ?_ <;> simp only [putFields, fld] <;> omega
theorem li (w : BitVec 4) (d : BitVec 5) (im : BitVec 17) : Statement (.li w d im) := by
  have h0 := w.isLt; have h1 := d.isLt; have h2 := im.isLt
  refine of_word rfl ?_ ?_ ?_ <;> simp only [putFields, fld] <;> omega
theorem lui (w : BitVec 4) (d : BitVec 5) (im : BitVec 17) : Statement (.lui w d im) := by
  have h0 := w.isLt; have h1 := d.isLt; have h2 := im.isLt
  refine of_word rfl ?_ ?_ ?_ <;> simp only [putFields, fld] <;> omega
theorem liLit (w : BitVec 4) (d : BitVec 5) (two : BitVec 1) (l0 l1 : BitVec 32) : Statement (.liLit w d two l0 l1) := by
  intro v ws e
  obtain ⟨h1, h2⟩ := lit_control w.isLt d.isLt two.isLt rfl
  rcases bit_cases two with rfl | rfl
  · cases e; exact ⟨h1, fun l hl => by simp at hl; subst hl; exact l0.isLt, h2.symm⟩
  · cases e; exact ⟨h1, fun l hl => by simp at hl; rcases hl with rfl | rfl; exacts [l0.isLt, l1.isLt], h2.symm⟩
theorem ldB (w : BitVec 4) (d : BitVec 5) (a : BitVec 5) (o : BitVec 9) : Statement (.ldB w d a o) := by
  have h0 := w.isLt; have h1 := d.isLt; have h2 := a.isLt; have h3 := o.isLt
  refine of_word rfl ?_ ?_ ?_ <;> simp only [putFields, fld] <;> omega
theorem ldBu (w : BitVec 4) (d : BitVec 5) (a : BitVec 5) (o : BitVec 9) : Statement (.ldBu w d a o) := by
  have h0 := w.isLt; have h1 := d.isLt; have h2 := a.isLt; have h3 := o.isLt
  refine of_word rfl ?_ ?_ ?_ <;> simp only [putFields, fld] <;> omega
theorem ldH (w : BitVec 4) (d : BitVec 5) (a : BitVec 5) (o : BitVec 9) : Statement (.ldH w d a o) := by
  have h0 := w.isLt; have h1 := d.isLt; have h2 := a.isLt; have h3 := o.isLt
  refine of_word rfl ?_ ?_ ?_ <;> simp only [putFields, fld] <;> omega
theorem ldHu (w : BitVec 4) (d : BitVec 5) (a : BitVec 5) (o : BitVec 9) : Statement (.ldHu w d a o) := by
  have h0 := w.isLt; have h1 := d.isLt; have h2 := a.isLt; have h3 := o.isLt
  refine of_word rfl ?_ ?_ ?_ <;> simp only [putFields, fld] <;> omega
theorem ldW (w : BitVec 4) (d : BitVec 5) (a : BitVec 5) (o : BitVec 9) : Statement (.ldW w d a o) := by
  have h0 := w.isLt; have h1 := d.isLt; have h2 := a.isLt; have h3 := o.isLt
  refine of_word rfl ?_ ?_ ?_ <;> simp only [putFields, fld] <;> omega
theorem ldWu (w : BitVec 4) (d : BitVec 5) (a : BitVec 5) (o : BitVec 9) : Statement (.ldWu w d a o) := by
  have h0 := w.isLt; have h1 := d.isLt; have h2 := a.isLt; have h3 := o.isLt
  refine of_word rfl ?_ ?_ ?_ <;> simp only [putFields, fld] <;> omega
theorem ldD (w : BitVec 4) (d : BitVec 5) (a : BitVec 5) (o : BitVec 9) : Statement (.ldD w d a o) := by
  have h0 := w.isLt; have h1 := d.isLt; have h2 := a.isLt; have h3 := o.isLt
  refine of_word rfl ?_ ?_ ?_ <;> simp only [putFields, fld] <;> omega
theorem stB (w : BitVec 4) (d : BitVec 5) (a : BitVec 5) (o : BitVec 9) : Statement (.stB w d a o) := by
  have h0 := w.isLt; have h1 := d.isLt; have h2 := a.isLt; have h3 := o.isLt
  refine of_word rfl ?_ ?_ ?_ <;> simp only [putFields, fld] <;> omega
theorem stH (w : BitVec 4) (d : BitVec 5) (a : BitVec 5) (o : BitVec 9) : Statement (.stH w d a o) := by
  have h0 := w.isLt; have h1 := d.isLt; have h2 := a.isLt; have h3 := o.isLt
  refine of_word rfl ?_ ?_ ?_ <;> simp only [putFields, fld] <;> omega
theorem stW (w : BitVec 4) (d : BitVec 5) (a : BitVec 5) (o : BitVec 9) : Statement (.stW w d a o) := by
  have h0 := w.isLt; have h1 := d.isLt; have h2 := a.isLt; have h3 := o.isLt
  refine of_word rfl ?_ ?_ ?_ <;> simp only [putFields, fld] <;> omega
theorem stD (w : BitVec 4) (d : BitVec 5) (a : BitVec 5) (o : BitVec 9) : Statement (.stD w d a o) := by
  have h0 := w.isLt; have h1 := d.isLt; have h2 := a.isLt; have h3 := o.isLt
  refine of_word rfl ?_ ?_ ?_ <;> simp only [putFields, fld] <;> omega
theorem cmpEq (w : BitVec 4) (d : BitVec 5) (a : BitVec 5) (b : BitVec 5) : Statement (.cmpEq w d a b) := by
  have h0 := w.isLt; have h1 := d.isLt; have h2 := a.isLt; have h3 := b.isLt
  refine of_word rfl ?_ ?_ ?_ <;> simp only [putFields, fld] <;> omega
theorem cmpNe (w : BitVec 4) (d : BitVec 5) (a : BitVec 5) (b : BitVec 5) : Statement (.cmpNe w d a b) := by
  have h0 := w.isLt; have h1 := d.isLt; have h2 := a.isLt; have h3 := b.isLt
  refine of_word rfl ?_ ?_ ?_ <;> simp only [putFields, fld] <;> omega
theorem cmpLt (w : BitVec 4) (d : BitVec 5) (a : BitVec 5) (b : BitVec 5) : Statement (.cmpLt w d a b) := by
  have h0 := w.isLt; have h1 := d.isLt; have h2 := a.isLt; have h3 := b.isLt
  refine of_word rfl ?_ ?_ ?_ <;> simp only [putFields, fld] <;> omega
theorem cmpGe (w : BitVec 4) (d : BitVec 5) (a : BitVec 5) (b : BitVec 5) : Statement (.cmpGe w d a b) := by
  have h0 := w.isLt; have h1 := d.isLt; have h2 := a.isLt; have h3 := b.isLt
  refine of_word rfl ?_ ?_ ?_ <;> simp only [putFields, fld] <;> omega
theorem cmpLtu (w : BitVec 4) (d : BitVec 5) (a : BitVec 5) (b : BitVec 5) : Statement (.cmpLtu w d a b) := by
  have h0 := w.isLt; have h1 := d.isLt; have h2 := a.isLt; have h3 := b.isLt
  refine of_word rfl ?_ ?_ ?_ <;> simp only [putFields, fld] <;> omega
theorem cmpGeu (w : BitVec 4) (d : BitVec 5) (a : BitVec 5) (b : BitVec 5) : Statement (.cmpGeu w d a b) := by
  have h0 := w.isLt; have h1 := d.isLt; have h2 := a.isLt; have h3 := b.isLt
  refine of_word rfl ?_ ?_ ?_ <;> simp only [putFields, fld] <;> omega
theorem cmpiEq (w : BitVec 4) (d : BitVec 5) (a : BitVec 5) (im : BitVec 9) : Statement (.cmpiEq w d a im) := by
  have h0 := w.isLt; have h1 := d.isLt; have h2 := a.isLt; have h3 := im.isLt
  refine of_word rfl ?_ ?_ ?_ <;> simp only [putFields, fld] <;> omega
theorem cmpiNe (w : BitVec 4) (d : BitVec 5) (a : BitVec 5) (im : BitVec 9) : Statement (.cmpiNe w d a im) := by
  have h0 := w.isLt; have h1 := d.isLt; have h2 := a.isLt; have h3 := im.isLt
  refine of_word rfl ?_ ?_ ?_ <;> simp only [putFields, fld] <;> omega
theorem cmpiLt (w : BitVec 4) (d : BitVec 5) (a : BitVec 5) (im : BitVec 9) : Statement (.cmpiLt w d a im) := by
  have h0 := w.isLt; have h1 := d.isLt; have h2 := a.isLt; have h3 := im.isLt
  refine of_word rfl ?_ ?_ ?_ <;> simp only [putFields, fld] <;> omega
theorem cmpiGe (w : BitVec 4) (d : BitVec 5) (a : BitVec 5) (im : BitVec 9) : Statement (.cmpiGe w d a im) := by
  have h0 := w.isLt; have h1 := d.isLt; have h2 := a.isLt; have h3 := im.isLt
  refine of_word rfl ?_ ?_ ?_ <;> simp only [putFields, fld] <;> omega
theorem cmpiLtu (w : BitVec 4) (d : BitVec 5) (a : BitVec 5) (im : BitVec 9) : Statement (.cmpiLtu w d a im) := by
  have h0 := w.isLt; have h1 := d.isLt; have h2 := a.isLt; have h3 := im.isLt
  refine of_word rfl ?_ ?_ ?_ <;> simp only [putFields, fld] <;> omega
theorem cmpiGeu (w : BitVec 4) (d : BitVec 5) (a : BitVec 5) (im : BitVec 9) : Statement (.cmpiGeu w d a im) := by
  have h0 := w.isLt; have h1 := d.isLt; have h2 := a.isLt; have h3 := im.isLt
  refine of_word rfl ?_ ?_ ?_ <;> simp only [putFields, fld] <;> omega
theorem stAnd (w : BitVec 4) (d : BitVec 5) (a : BitVec 5) (b : BitVec 5) : Statement (.stAnd w d a b) := by
  have h0 := w.isLt; have h1 := d.isLt; have h2 := a.isLt; have h3 := b.isLt
  refine of_word rfl ?_ ?_ ?_ <;> simp only [putFields, fld] <;> omega
theorem stOr (w : BitVec 4) (d : BitVec 5) (a : BitVec 5) (b : BitVec 5) : Statement (.stOr w d a b) := by
  have h0 := w.isLt; have h1 := d.isLt; have h2 := a.isLt; have h3 := b.isLt
  refine of_word rfl ?_ ?_ ?_ <;> simp only [putFields, fld] <;> omega
theorem stNot (w : BitVec 4) (d : BitVec 5) (a : BitVec 5) : Statement (.stNot w d a) := by
  have h0 := w.isLt; have h1 := d.isLt; have h2 := a.isLt
  refine of_word rfl ?_ ?_ ?_ <;> simp only [putFields, fld] <;> omega
theorem mvst (w : BitVec 4) (d : BitVec 5) (a : BitVec 5) : Statement (.mvst w d a) := by
  have h0 := w.isLt; have h1 := d.isLt; have h2 := a.isLt
  refine of_word rfl ?_ ?_ ?_ <;> simp only [putFields, fld] <;> omega
theorem mvfst (w : BitVec 4) (d : BitVec 5) (a : BitVec 5) : Statement (.mvfst w d a) := by
  have h0 := w.isLt; have h1 := d.isLt; have h2 := a.isLt
  refine of_word rfl ?_ ?_ ?_ <;> simp only [putFields, fld] <;> omega
theorem sel (w : BitVec 4) (d : BitVec 5) (a : BitVec 5) (b : BitVec 5) (st : BitVec 4) : Statement (.sel w d a b st) := by
  have h0 := w.isLt; have h1 := d.isLt; have h2 := a.isLt; have h3 := b.isLt; have h4 := st.isLt
  refine of_word rfl ?_ ?_ ?_ <;> simp only [putFields, fld] <;> omega
theorem prep (w : BitVec 4) (st : BitVec 4) (o : BitVec 18) : Statement (.prep w st o) := by
  have h0 := w.isLt; have h1 := st.isLt; have h2 := o.isLt
  refine of_word rfl ?_ ?_ ?_ <;> simp only [putFields, fld] <;> omega
theorem br (w : BitVec 4) (st : BitVec 4) (o : BitVec 18) : Statement (.br w st o) := by
  have h0 := w.isLt; have h1 := st.isLt; have h2 := o.isLt
  refine of_word rfl ?_ ?_ ?_ <;> simp only [putFields, fld] <;> omega
theorem brT (w : BitVec 4) (st : BitVec 4) : Statement (.brT w st) := by
  have h0 := w.isLt; have h1 := st.isLt
  refine of_word rfl ?_ ?_ ?_ <;> simp only [putFields, fld] <;> omega
theorem brn (w : BitVec 4) (st : BitVec 4) (o : BitVec 18) : Statement (.brn w st o) := by
  have h0 := w.isLt; have h1 := st.isLt; have h2 := o.isLt
  refine of_word rfl ?_ ?_ ?_ <;> simp only [putFields, fld] <;> omega
theorem brnT (w : BitVec 4) (st : BitVec 4) : Statement (.brnT w st) := by
  have h0 := w.isLt; have h1 := st.isLt
  refine of_word rfl ?_ ?_ ?_ <;> simp only [putFields, fld] <;> omega
theorem j (w : BitVec 4) (o : BitVec 18) : Statement (.j w o) := by
  have h0 := w.isLt; have h1 := o.isLt
  refine of_word rfl ?_ ?_ ?_ <;> simp only [putFields, fld] <;> omega
theorem jT (w : BitVec 4) (st : BitVec 4) : Statement (.jT w st) := by
  have h0 := w.isLt; have h1 := st.isLt
  refine of_word rfl ?_ ?_ ?_ <;> simp only [putFields, fld] <;> omega
theorem call (w : BitVec 4) (o : BitVec 18) : Statement (.call w o) := by
  have h0 := w.isLt; have h1 := o.isLt
  refine of_word rfl ?_ ?_ ?_ <;> simp only [putFields, fld] <;> omega
theorem callT (w : BitVec 4) (st : BitVec 4) : Statement (.callT w st) := by
  have h0 := w.isLt; have h1 := st.isLt
  refine of_word rfl ?_ ?_ ?_ <;> simp only [putFields, fld] <;> omega
theorem jr (w : BitVec 4) (a : BitVec 5) : Statement (.jr w a) := by
  have h0 := w.isLt; have h1 := a.isLt
  refine of_word rfl ?_ ?_ ?_ <;> simp only [putFields, fld] <;> omega
theorem callr (w : BitVec 4) (a : BitVec 5) : Statement (.callr w a) := by
  have h0 := w.isLt; have h1 := a.isLt
  refine of_word rfl ?_ ?_ ?_ <;> simp only [putFields, fld] <;> omega
theorem ret (w : BitVec 4) : Statement (.ret w) := by
  have h0 := w.isLt
  refine of_word rfl ?_ ?_ ?_ <;> simp only [putFields, fld] <;> omega
theorem pclr (w : BitVec 4) : Statement (.pclr w) := by
  have h0 := w.isLt
  refine of_word rfl ?_ ?_ ?_ <;> simp only [putFields, fld] <;> omega
theorem loop (w : BitVec 4) (st : BitVec 4) (a : BitVec 5) (im : BitVec 8) (g : BitVec 3) : Statement (.loop w st a im g) := by
  have h0 := w.isLt; have h1 := st.isLt; have h2 := a.isLt; have h3 := im.isLt; have h4 := g.isLt
  refine of_word rfl ?_ ?_ ?_ <;> simp only [putFields, fld] <;> omega
theorem lbrk (w : BitVec 4) (st : BitVec 4) : Statement (.lbrk w st) := by
  have h0 := w.isLt; have h1 := st.isLt
  refine of_word rfl ?_ ?_ ?_ <;> simp only [putFields, fld] <;> omega
theorem waits (w : BitVec 4) : Statement (.waits w) := by
  have h0 := w.isLt
  refine of_word rfl ?_ ?_ ?_ <;> simp only [putFields, fld] <;> omega
theorem waitc (w : BitVec 4) (a : BitVec 5) : Statement (.waitc w a) := by
  have h0 := w.isLt; have h1 := a.isLt
  refine of_word rfl ?_ ?_ ?_ <;> simp only [putFields, fld] <;> omega
theorem waitx (w : BitVec 4) (c : BitVec 2) (k : BitVec 8) : Statement (.waitx w c k) := by
  have h0 := w.isLt; have h1 := c.isLt; have h2 := k.isLt
  refine of_word rfl ?_ ?_ ?_ <;> simp only [putFields, fld] <;> omega
theorem wsync (w : BitVec 4) (st : BitVec 4) : Statement (.wsync w st) := by
  have h0 := w.isLt; have h1 := st.isLt
  refine of_word rfl ?_ ?_ ?_ <;> simp only [putFields, fld] <;> omega
theorem phase (w : BitVec 4) (st : BitVec 4) : Statement (.phase w st) := by
  have h0 := w.isLt; have h1 := st.isLt
  refine of_word rfl ?_ ?_ ?_ <;> simp only [putFields, fld] <;> omega
theorem bar (w : BitVec 4) (st : BitVec 4) (im : BitVec 8) : Statement (.bar w st im) := by
  have h0 := w.isLt; have h1 := st.isLt; have h2 := im.isLt
  refine of_word rfl ?_ ?_ ?_ <;> simp only [putFields, fld] <;> omega
theorem sendc (w : BitVec 4) (u : BitVec 3) (a : BitVec 5) : Statement (.sendc w u a) := by
  have h0 := w.isLt; have h1 := u.isLt; have h2 := a.isLt
  refine of_word rfl ?_ ?_ ?_ <;> simp only [putFields, fld] <;> omega
theorem recvc (w : BitVec 4) (d : BitVec 5) (u : BitVec 3) : Statement (.recvc w d u) := by
  have h0 := w.isLt; have h1 := d.isLt; have h2 := u.isLt
  refine of_word rfl ?_ ?_ ?_ <;> simp only [putFields, fld] <;> omega
theorem check (w : BitVec 4) (o : BitVec 18) : Statement (.check w o) := by
  have h0 := w.isLt; have h1 := o.isLt
  refine of_word rfl ?_ ?_ ?_ <;> simp only [putFields, fld] <;> omega
theorem vadd (d : BitVec 6) (a : BitVec 6) (b : BitVec 6) (k : BitVec 1) (t : BitVec 3) : Statement (.vadd d a b k t) := by
  have h0 := d.isLt; have h1 := a.isLt; have h2 := b.isLt; have h3 := k.isLt; have h4 := t.isLt
  refine of_word rfl ?_ ?_ ?_ <;> simp only [putFields, fld] <;> omega
theorem vsub (d : BitVec 6) (a : BitVec 6) (b : BitVec 6) (k : BitVec 1) (t : BitVec 3) : Statement (.vsub d a b k t) := by
  have h0 := d.isLt; have h1 := a.isLt; have h2 := b.isLt; have h3 := k.isLt; have h4 := t.isLt
  refine of_word rfl ?_ ?_ ?_ <;> simp only [putFields, fld] <;> omega
theorem vmul (d : BitVec 6) (a : BitVec 6) (b : BitVec 6) (k : BitVec 1) (t : BitVec 3) : Statement (.vmul d a b k t) := by
  have h0 := d.isLt; have h1 := a.isLt; have h2 := b.isLt; have h3 := k.isLt; have h4 := t.isLt
  refine of_word rfl ?_ ?_ ?_ <;> simp only [putFields, fld] <;> omega
theorem vfma (d : BitVec 6) (a : BitVec 6) (b : BitVec 6) (k : BitVec 1) (t : BitVec 3) : Statement (.vfma d a b k t) := by
  have h0 := d.isLt; have h1 := a.isLt; have h2 := b.isLt; have h3 := k.isLt; have h4 := t.isLt
  refine of_word rfl ?_ ?_ ?_ <;> simp only [putFields, fld] <;> omega
theorem vfms (d : BitVec 6) (a : BitVec 6) (b : BitVec 6) (k : BitVec 1) (t : BitVec 3) : Statement (.vfms d a b k t) := by
  have h0 := d.isLt; have h1 := a.isLt; have h2 := b.isLt; have h3 := k.isLt; have h4 := t.isLt
  refine of_word rfl ?_ ?_ ?_ <;> simp only [putFields, fld] <;> omega
theorem vfnma (d : BitVec 6) (a : BitVec 6) (b : BitVec 6) (k : BitVec 1) (t : BitVec 3) : Statement (.vfnma d a b k t) := by
  have h0 := d.isLt; have h1 := a.isLt; have h2 := b.isLt; have h3 := k.isLt; have h4 := t.isLt
  refine of_word rfl ?_ ?_ ?_ <;> simp only [putFields, fld] <;> omega
theorem vmin (d : BitVec 6) (a : BitVec 6) (b : BitVec 6) (k : BitVec 1) (t : BitVec 3) : Statement (.vmin d a b k t) := by
  have h0 := d.isLt; have h1 := a.isLt; have h2 := b.isLt; have h3 := k.isLt; have h4 := t.isLt
  refine of_word rfl ?_ ?_ ?_ <;> simp only [putFields, fld] <;> omega
theorem vmax (d : BitVec 6) (a : BitVec 6) (b : BitVec 6) (k : BitVec 1) (t : BitVec 3) : Statement (.vmax d a b k t) := by
  have h0 := d.isLt; have h1 := a.isLt; have h2 := b.isLt; have h3 := k.isLt; have h4 := t.isLt
  refine of_word rfl ?_ ?_ ?_ <;> simp only [putFields, fld] <;> omega
theorem vabs (d : BitVec 6) (a : BitVec 6) (k : BitVec 1) (t : BitVec 3) : Statement (.vabs d a k t) := by
  have h0 := d.isLt; have h1 := a.isLt; have h2 := k.isLt; have h3 := t.isLt
  refine of_word rfl ?_ ?_ ?_ <;> simp only [putFields, fld] <;> omega
theorem vneg (d : BitVec 6) (a : BitVec 6) (k : BitVec 1) (t : BitVec 3) : Statement (.vneg d a k t) := by
  have h0 := d.isLt; have h1 := a.isLt; have h2 := k.isLt; have h3 := t.isLt
  refine of_word rfl ?_ ?_ ?_ <;> simp only [putFields, fld] <;> omega
theorem vcmpEq (d : BitVec 6) (a : BitVec 6) (b : BitVec 6) (k : BitVec 1) (t : BitVec 3) : Statement (.vcmpEq d a b k t) := by
  have h0 := d.isLt; have h1 := a.isLt; have h2 := b.isLt; have h3 := k.isLt; have h4 := t.isLt
  refine of_word rfl ?_ ?_ ?_ <;> simp only [putFields, fld] <;> omega
theorem vcmpNe (d : BitVec 6) (a : BitVec 6) (b : BitVec 6) (k : BitVec 1) (t : BitVec 3) : Statement (.vcmpNe d a b k t) := by
  have h0 := d.isLt; have h1 := a.isLt; have h2 := b.isLt; have h3 := k.isLt; have h4 := t.isLt
  refine of_word rfl ?_ ?_ ?_ <;> simp only [putFields, fld] <;> omega
theorem vcmpLt (d : BitVec 6) (a : BitVec 6) (b : BitVec 6) (k : BitVec 1) (t : BitVec 3) : Statement (.vcmpLt d a b k t) := by
  have h0 := d.isLt; have h1 := a.isLt; have h2 := b.isLt; have h3 := k.isLt; have h4 := t.isLt
  refine of_word rfl ?_ ?_ ?_ <;> simp only [putFields, fld] <;> omega
theorem vcmpLe (d : BitVec 6) (a : BitVec 6) (b : BitVec 6) (k : BitVec 1) (t : BitVec 3) : Statement (.vcmpLe d a b k t) := by
  have h0 := d.isLt; have h1 := a.isLt; have h2 := b.isLt; have h3 := k.isLt; have h4 := t.isLt
  refine of_word rfl ?_ ?_ ?_ <;> simp only [putFields, fld] <;> omega
theorem vand (d : BitVec 6) (a : BitVec 6) (b : BitVec 6) (k : BitVec 1) : Statement (.vand d a b k) := by
  have h0 := d.isLt; have h1 := a.isLt; have h2 := b.isLt; have h3 := k.isLt
  refine of_word rfl ?_ ?_ ?_ <;> simp only [putFields, fld] <;> omega
theorem vor (d : BitVec 6) (a : BitVec 6) (b : BitVec 6) (k : BitVec 1) : Statement (.vor d a b k) := by
  have h0 := d.isLt; have h1 := a.isLt; have h2 := b.isLt; have h3 := k.isLt
  refine of_word rfl ?_ ?_ ?_ <;> simp only [putFields, fld] <;> omega
theorem vxor (d : BitVec 6) (a : BitVec 6) (b : BitVec 6) (k : BitVec 1) : Statement (.vxor d a b k) := by
  have h0 := d.isLt; have h1 := a.isLt; have h2 := b.isLt; have h3 := k.isLt
  refine of_word rfl ?_ ?_ ?_ <;> simp only [putFields, fld] <;> omega
theorem vnot (d : BitVec 6) (a : BitVec 6) (k : BitVec 1) : Statement (.vnot d a k) := by
  have h0 := d.isLt; have h1 := a.isLt; have h2 := k.isLt
  refine of_word rfl ?_ ?_ ?_ <;> simp only [putFields, fld] <;> omega
theorem vshl (d : BitVec 6) (a : BitVec 6) (b : BitVec 6) (k : BitVec 1) : Statement (.vshl d a b k) := by
  have h0 := d.isLt; have h1 := a.isLt; have h2 := b.isLt; have h3 := k.isLt
  refine of_word rfl ?_ ?_ ?_ <;> simp only [putFields, fld] <;> omega
theorem vshr (d : BitVec 6) (a : BitVec 6) (b : BitVec 6) (k : BitVec 1) : Statement (.vshr d a b k) := by
  have h0 := d.isLt; have h1 := a.isLt; have h2 := b.isLt; have h3 := k.isLt
  refine of_word rfl ?_ ?_ ?_ <;> simp only [putFields, fld] <;> omega
theorem vsra (d : BitVec 6) (a : BitVec 6) (b : BitVec 6) (k : BitVec 1) : Statement (.vsra d a b k) := by
  have h0 := d.isLt; have h1 := a.isLt; have h2 := b.isLt; have h3 := k.isLt
  refine of_word rfl ?_ ?_ ?_ <;> simp only [putFields, fld] <;> omega
theorem vcvt (d : BitVec 6) (a : BitVec 6) (c : BitVec 6) (k : BitVec 1) (x : BitVec 1) (r : BitVec 2) : Statement (.vcvt d a c k x r) := by
  have h0 := d.isLt; have h1 := a.isLt; have h2 := c.isLt; have h3 := k.isLt; have h4 := x.isLt; have h5 := r.isLt
  refine of_word rfl ?_ ?_ ?_ <;> simp only [putFields, fld] <;> omega
theorem vsel (d : BitVec 6) (a : BitVec 6) (b : BitVec 6) : Statement (.vsel d a b) := by
  have h0 := d.isLt; have h1 := a.isLt; have h2 := b.isLt
  refine of_word rfl ?_ ?_ ?_ <;> simp only [putFields, fld] <;> omega
theorem vperm (d : BitVec 6) (a : BitVec 6) (b : BitVec 6) (k : BitVec 1) : Statement (.vperm d a b k) := by
  have h0 := d.isLt; have h1 := a.isLt; have h2 := b.isLt; have h3 := k.isLt
  refine of_word rfl ?_ ?_ ?_ <;> simp only [putFields, fld] <;> omega
theorem vrcpe (d : BitVec 6) (a : BitVec 6) (k : BitVec 1) : Statement (.vrcpe d a k) := by
  have h0 := d.isLt; have h1 := a.isLt; have h2 := k.isLt
  refine of_word rfl ?_ ?_ ?_ <;> simp only [putFields, fld] <;> omega
theorem vrsqe (d : BitVec 6) (a : BitVec 6) (k : BitVec 1) : Statement (.vrsqe d a k) := by
  have h0 := d.isLt; have h1 := a.isLt; have h2 := k.isLt
  refine of_word rfl ?_ ?_ ?_ <;> simp only [putFields, fld] <;> omega
theorem vrcp (d : BitVec 6) (a : BitVec 6) (k : BitVec 1) : Statement (.vrcp d a k) := by
  have h0 := d.isLt; have h1 := a.isLt; have h2 := k.isLt
  refine of_word rfl ?_ ?_ ?_ <;> simp only [putFields, fld] <;> omega
theorem vrsq (d : BitVec 6) (a : BitVec 6) (k : BitVec 1) : Statement (.vrsq d a k) := by
  have h0 := d.isLt; have h1 := a.isLt; have h2 := k.isLt
  refine of_word rfl ?_ ?_ ?_ <;> simp only [putFields, fld] <;> omega
theorem vsqrt (d : BitVec 6) (a : BitVec 6) (k : BitVec 1) : Statement (.vsqrt d a k) := by
  have h0 := d.isLt; have h1 := a.isLt; have h2 := k.isLt
  refine of_word rfl ?_ ?_ ?_ <;> simp only [putFields, fld] <;> omega
theorem vdiv (d : BitVec 6) (a : BitVec 6) (b : BitVec 6) (k : BitVec 1) : Statement (.vdiv d a b k) := by
  have h0 := d.isLt; have h1 := a.isLt; have h2 := b.isLt; have h3 := k.isLt
  refine of_word rfl ?_ ?_ ?_ <;> simp only [putFields, fld] <;> omega
theorem vexp2 (d : BitVec 6) (a : BitVec 6) (k : BitVec 1) : Statement (.vexp2 d a k) := by
  have h0 := d.isLt; have h1 := a.isLt; have h2 := k.isLt
  refine of_word rfl ?_ ?_ ?_ <;> simp only [putFields, fld] <;> omega
theorem vlog2 (d : BitVec 6) (a : BitVec 6) (k : BitVec 1) : Statement (.vlog2 d a k) := by
  have h0 := d.isLt; have h1 := a.isLt; have h2 := k.isLt
  refine of_word rfl ?_ ?_ ?_ <;> simp only [putFields, fld] <;> omega
theorem vsinpi (d : BitVec 6) (a : BitVec 6) (k : BitVec 1) : Statement (.vsinpi d a k) := by
  have h0 := d.isLt; have h1 := a.isLt; have h2 := k.isLt
  refine of_word rfl ?_ ?_ ?_ <;> simp only [putFields, fld] <;> omega
theorem vtanh (d : BitVec 6) (a : BitVec 6) (k : BitVec 1) : Statement (.vtanh d a k) := by
  have h0 := d.isLt; have h1 := a.isLt; have h2 := k.isLt
  refine of_word rfl ?_ ?_ ?_ <;> simp only [putFields, fld] <;> omega
theorem vbcast (d : BitVec 6) (a : BitVec 5) (k : BitVec 1) : Statement (.vbcast d a k) := by
  have h0 := d.isLt; have h1 := a.isLt; have h2 := k.isLt
  refine of_word rfl ?_ ?_ ?_ <;> simp only [putFields, fld] <;> omega
theorem vredAdd (d : BitVec 6) (a : BitVec 6) (k : BitVec 1) (t : BitVec 3) : Statement (.vredAdd d a k t) := by
  have h0 := d.isLt; have h1 := a.isLt; have h2 := k.isLt; have h3 := t.isLt
  refine of_word rfl ?_ ?_ ?_ <;> simp only [putFields, fld] <;> omega
theorem vredMax (d : BitVec 6) (a : BitVec 6) (k : BitVec 1) (t : BitVec 3) : Statement (.vredMax d a k t) := by
  have h0 := d.isLt; have h1 := a.isLt; have h2 := k.isLt; have h3 := t.isLt
  refine of_word rfl ?_ ?_ ?_ <;> simp only [putFields, fld] <;> omega
theorem vmov (d : BitVec 6) (a : BitVec 6) (k : BitVec 1) : Statement (.vmov d a k) := by
  have h0 := d.isLt; have h1 := a.isLt; have h2 := k.isLt
  refine of_word rfl ?_ ?_ ?_ <;> simp only [putFields, fld] <;> omega
theorem vmovxIn (d : BitVec 6) (k : BitVec 1) : Statement (.vmovxIn d k) := by
  have h0 := d.isLt; have h1 := k.isLt
  refine of_word rfl ?_ ?_ ?_ <;> simp only [putFields, fld] <;> omega
theorem vmovxOut (a : BitVec 6) (k : BitVec 1) : Statement (.vmovxOut a k) := by
  have h0 := a.isLt; have h1 := k.isLt
  refine of_word rfl ?_ ?_ ?_ <;> simp only [putFields, fld] <;> omega
theorem vql8 (d : BitVec 6) (a : BitVec 6) (b : BitVec 6) (k : BitVec 1) : Statement (.vql8 d a b k) := by
  have h0 := d.isLt; have h1 := a.isLt; have h2 := b.isLt; have h3 := k.isLt
  refine of_word rfl ?_ ?_ ?_ <;> simp only [putFields, fld] <;> omega
theorem vdl8 (d : BitVec 6) (a : BitVec 6) (b : BitVec 6) (k : BitVec 1) : Statement (.vdl8 d a b k) := by
  have h0 := d.isLt; have h1 := a.isLt; have h2 := b.isLt; have h3 := k.isLt
  refine of_word rfl ?_ ?_ ?_ <;> simp only [putFields, fld] <;> omega
theorem vld (d : BitVec 6) (a : BitVec 5) (b : BitVec 6) (k : BitVec 1) (t : BitVec 3) : Statement (.vld d a b k t) := by
  have h0 := d.isLt; have h1 := a.isLt; have h2 := b.isLt; have h3 := k.isLt; have h4 := t.isLt
  refine of_word rfl ?_ ?_ ?_ <;> simp only [putFields, fld] <;> omega
theorem vst (d : BitVec 6) (a : BitVec 5) (b : BitVec 6) (k : BitVec 1) (t : BitVec 3) : Statement (.vst d a b k t) := by
  have h0 := d.isLt; have h1 := a.isLt; have h2 := b.isLt; have h3 := k.isLt; have h4 := t.isLt
  refine of_word rfl ?_ ?_ ?_ <;> simp only [putFields, fld] <;> omega
theorem vldk (d : BitVec 6) (a : BitVec 5) (c : BitVec 6) : Statement (.vldk d a c) := by
  have h0 := d.isLt; have h1 := a.isLt; have h2 := c.isLt
  refine of_word rfl ?_ ?_ ?_ <;> simp only [putFields, fld] <;> omega
theorem vfmak (d : BitVec 6) (a : BitVec 6) (n : BitVec 6) (k : BitVec 1) : Statement (.vfmak d a n k) := by
  have h0 := d.isLt; have h1 := a.isLt; have h2 := n.isLt; have h3 := k.isLt
  refine of_word rfl ?_ ?_ ?_ <;> simp only [putFields, fld] <;> omega
theorem vfmal (d a : BitVec 6) (two k : BitVec 1) (l0 l1 : BitVec 32) : Statement (.vfmal d a two k l0 l1) := by
  intro v ws e
  obtain ⟨h1, h2⟩ := lit_vector d.isLt a.isLt k.isLt two.isLt rfl
  rcases bit_cases two with rfl | rfl
  · cases e; exact ⟨h1, fun l hl => by simp at hl; subst hl; exact l0.isLt, h2.symm⟩
  · cases e; exact ⟨h1, fun l hl => by simp at hl; rcases hl with rfl | rfl; exacts [l0.isLt, l1.isLt], h2.symm⟩
theorem vpush (a : BitVec 6) : Statement (.vpush a) := by
  have h0 := a.isLt
  refine of_word rfl ?_ ?_ ?_ <;> simp only [putFields, fld] <;> omega
theorem vinv  : Statement .vinv := by
  refine of_word rfl ?_ ?_ ?_ <;> simp only [putFields, fld] <;> omega
theorem vpop  : Statement .vpop := by
  refine of_word rfl ?_ ?_ ?_ <;> simp only [putFields, fld] <;> omega
theorem vskip (o : BitVec 18) : Statement (.vskip o) := by
  have h0 := o.isLt
  refine of_word rfl ?_ ?_ ?_ <;> simp only [putFields, fld] <;> omega
theorem vmovi (d : BitVec 6) (im : BitVec 20) : Statement (.vmovi d im) := by
  have h0 := d.isLt; have h1 := im.isLt
  refine of_word rfl ?_ ?_ ?_ <;> simp only [putFields, fld] <;> omega
theorem vaddi (d : BitVec 6) (im : BitVec 20) : Statement (.vaddi d im) := by
  have h0 := d.isLt; have h1 := im.isLt
  refine of_word rfl ?_ ?_ ?_ <;> simp only [putFields, fld] <;> omega
theorem vmuli (d : BitVec 6) (im : BitVec 20) : Statement (.vmuli d im) := by
  have h0 := d.isLt; have h1 := im.isLt
  refine of_word rfl ?_ ?_ ?_ <;> simp only [putFields, fld] <;> omega
theorem vmaxi (d : BitVec 6) (im : BitVec 20) : Statement (.vmaxi d im) := by
  have h0 := d.isLt; have h1 := im.isLt
  refine of_word rfl ?_ ?_ ?_ <;> simp only [putFields, fld] <;> omega
theorem msetFmt (g : BitVec 2) (b : BitVec 4) (a : BitVec 4) : Statement (.msetFmt g b a) := by
  have h0 := g.isLt; have h1 := b.isLt; have h2 := a.isLt
  refine of_word rfl ?_ ?_ ?_ <;> simp only [putFields, fld] <;> omega
theorem msetShape (n : BitVec 6) (m : BitVec 6) : Statement (.msetShape n m) := by
  have h0 := n.isLt; have h1 := m.isLt
  refine of_word rfl ?_ ?_ ?_ <;> simp only [putFields, fld] <;> omega
theorem msetScale (a : BitVec 5) : Statement (.msetScale a) := by
  have h0 := a.isLt
  refine of_word rfl ?_ ?_ ?_ <;> simp only [putFields, fld] <;> omega
theorem msetZp (a : BitVec 5) : Statement (.msetZp a) := by
  have h0 := a.isLt
  refine of_word rfl ?_ ?_ ?_ <;> simp only [putFields, fld] <;> omega
theorem msetSparse (st : BitVec 1) : Statement (.msetSparse st) := by
  have h0 := st.isLt
  refine of_word rfl ?_ ?_ ?_ <;> simp only [putFields, fld] <;> omega
theorem mma (c : BitVec 4) (n : BitVec 12) (q : BitVec 1) (l : BitVec 1) (st : BitVec 4) : Statement (.mma c n q l st) := by
  have h0 := c.isLt; have h1 := n.isLt; have h2 := q.isLt; have h3 := l.isLt; have h4 := st.isLt
  refine of_word rfl ?_ ?_ ?_ <;> simp only [putFields, fld] <;> omega
theorem mmaS (c : BitVec 4) (n : BitVec 12) (q : BitVec 1) (l : BitVec 1) (st : BitVec 4) : Statement (.mmaS c n q l st) := by
  have h0 := c.isLt; have h1 := n.isLt; have h2 := q.isLt; have h3 := l.isLt; have h4 := st.isLt
  refine of_word rfl ?_ ?_ ?_ <;> simp only [putFields, fld] <;> omega
theorem mmaQ (c : BitVec 4) (n : BitVec 12) (q : BitVec 1) (l : BitVec 1) (st : BitVec 4) : Statement (.mmaQ c n q l st) := by
  have h0 := c.isLt; have h1 := n.isLt; have h2 := q.isLt; have h3 := l.isLt; have h4 := st.isLt
  refine of_word rfl ?_ ?_ ?_ <;> simp only [putFields, fld] <;> omega
theorem mmaL8 (c : BitVec 4) (n : BitVec 12) (q : BitVec 1) (l : BitVec 1) (st : BitVec 4) : Statement (.mmaL8 c n q l st) := by
  have h0 := c.isLt; have h1 := n.isLt; have h2 := q.isLt; have h3 := l.isLt; have h4 := st.isLt
  refine of_word rfl ?_ ?_ ?_ <;> simp only [putFields, fld] <;> omega
theorem mmaPair (c : BitVec 4) (n : BitVec 12) (q : BitVec 1) (l : BitVec 1) (st : BitVec 4) : Statement (.mmaPair c n q l st) := by
  have h0 := c.isLt; have h1 := n.isLt; have h2 := q.isLt; have h3 := l.isLt; have h4 := st.isLt
  refine of_word rfl ?_ ?_ ?_ <;> simp only [putFields, fld] <;> omega
theorem mclr (c : BitVec 4) : Statement (.mclr c) := by
  have h0 := c.isLt
  refine of_word rfl ?_ ?_ ?_ <;> simp only [putFields, fld] <;> omega
theorem maccLd (c : BitVec 4) (a : BitVec 5) : Statement (.maccLd c a) := by
  have h0 := c.isLt; have h1 := a.isLt
  refine of_word rfl ?_ ?_ ?_ <;> simp only [putFields, fld] <;> omega
theorem maccSt (c : BitVec 4) (a : BitVec 5) : Statement (.maccSt c a) := by
  have h0 := c.isLt; have h1 := a.isLt
  refine of_word rfl ?_ ?_ ?_ <;> simp only [putFields, fld] <;> omega
theorem maccCvt (c : BitVec 4) (a : BitVec 5) (v : BitVec 6) (t : BitVec 4) (st : BitVec 1) (r : BitVec 2) : Statement (.maccCvt c a v t st r) := by
  have h0 := c.isLt; have h1 := a.isLt; have h2 := v.isLt; have h3 := t.isLt; have h4 := st.isLt; have h5 := r.isLt
  refine of_word rfl ?_ ?_ ?_ <;> simp only [putFields, fld] <;> omega
theorem mprog (d : BitVec 5) : Statement (.mprog d) := by
  have h0 := d.isLt
  refine of_word rfl ?_ ?_ ?_ <;> simp only [putFields, fld] <;> omega
theorem mwait  : Statement .mwait := by
  refine of_word rfl ?_ ?_ ?_ <;> simp only [putFields, fld] <;> omega
theorem cmov (h : BitVec 2) (d : BitVec 5) (a : BitVec 5) (b : BitVec 5) (q : BitVec 1) (l : BitVec 1) (st : BitVec 4) : Statement (.cmov h d a b q l st) := by
  have h0 := h.isLt; have h1 := d.isLt; have h2 := a.isLt; have h3 := b.isLt; have h4 := q.isLt; have h5 := l.isLt; have h6 := st.isLt
  refine of_word rfl ?_ ?_ ?_ <;> simp only [putFields, fld] <;> omega
theorem cfillA (h : BitVec 2) (f : BitVec 1) (a : BitVec 5) (b : BitVec 5) (q : BitVec 1) (l : BitVec 1) (st : BitVec 4) : Statement (.cfillA h f a b q l st) := by
  have h0 := h.isLt; have h1 := f.isLt; have h2 := a.isLt; have h3 := b.isLt; have h4 := q.isLt; have h5 := l.isLt; have h6 := st.isLt
  refine of_word rfl ?_ ?_ ?_ <;> simp only [putFields, fld] <;> omega
theorem cfillB (h : BitVec 2) (f : BitVec 1) (a : BitVec 5) (b : BitVec 5) (q : BitVec 1) (l : BitVec 1) (st : BitVec 4) : Statement (.cfillB h f a b q l st) := by
  have h0 := h.isLt; have h1 := f.isLt; have h2 := a.isLt; have h3 := b.isLt; have h4 := q.isLt; have h5 := l.isLt; have h6 := st.isLt
  refine of_word rfl ?_ ?_ ?_ <;> simp only [putFields, fld] <;> omega
theorem cbfx (h : BitVec 2) (a : BitVec 5) : Statement (.cbfx h a) := by
  have h0 := h.isLt; have h1 := a.isLt
  refine of_word rfl ?_ ?_ ?_ <;> simp only [putFields, fld] <;> omega
theorem cgat (h : BitVec 2) (d : BitVec 5) (a : BitVec 5) (b : BitVec 5) (q : BitVec 1) (l : BitVec 1) (st : BitVec 4) : Statement (.cgat h d a b q l st) := by
  have h0 := h.isLt; have h1 := d.isLt; have h2 := a.isLt; have h3 := b.isLt; have h4 := q.isLt; have h5 := l.isLt; have h6 := st.isLt
  refine of_word rfl ?_ ?_ ?_ <;> simp only [putFields, fld] <;> omega
theorem csct (h : BitVec 2) (d : BitVec 5) (a : BitVec 5) (b : BitVec 5) (q : BitVec 1) (l : BitVec 1) (st : BitVec 4) : Statement (.csct h d a b q l st) := by
  have h0 := h.isLt; have h1 := d.isLt; have h2 := a.isLt; have h3 := b.isLt; have h4 := q.isLt; have h5 := l.isLt; have h6 := st.isLt
  refine of_word rfl ?_ ?_ ?_ <;> simp only [putFields, fld] <;> omega
theorem catomAdd (h : BitVec 2) (d : BitVec 5) (a : BitVec 5) (b : BitVec 5) (q : BitVec 1) (l : BitVec 1) (st : BitVec 4) : Statement (.catomAdd h d a b q l st) := by
  have h0 := h.isLt; have h1 := d.isLt; have h2 := a.isLt; have h3 := b.isLt; have h4 := q.isLt; have h5 := l.isLt; have h6 := st.isLt
  refine of_word rfl ?_ ?_ ?_ <;> simp only [putFields, fld] <;> omega
theorem catomMin (h : BitVec 2) (d : BitVec 5) (a : BitVec 5) (b : BitVec 5) (q : BitVec 1) (l : BitVec 1) (st : BitVec 4) : Statement (.catomMin h d a b q l st) := by
  have h0 := h.isLt; have h1 := d.isLt; have h2 := a.isLt; have h3 := b.isLt; have h4 := q.isLt; have h5 := l.isLt; have h6 := st.isLt
  refine of_word rfl ?_ ?_ ?_ <;> simp only [putFields, fld] <;> omega
theorem catomMax (h : BitVec 2) (d : BitVec 5) (a : BitVec 5) (b : BitVec 5) (q : BitVec 1) (l : BitVec 1) (st : BitVec 4) : Statement (.catomMax h d a b q l st) := by
  have h0 := h.isLt; have h1 := d.isLt; have h2 := a.isLt; have h3 := b.isLt; have h4 := q.isLt; have h5 := l.isLt; have h6 := st.isLt
  refine of_word rfl ?_ ?_ ?_ <;> simp only [putFields, fld] <;> omega
theorem catomXchg (h : BitVec 2) (d : BitVec 5) (a : BitVec 5) (b : BitVec 5) (q : BitVec 1) (l : BitVec 1) (st : BitVec 4) : Statement (.catomXchg h d a b q l st) := by
  have h0 := h.isLt; have h1 := d.isLt; have h2 := a.isLt; have h3 := b.isLt; have h4 := q.isLt; have h5 := l.isLt; have h6 := st.isLt
  refine of_word rfl ?_ ?_ ?_ <;> simp only [putFields, fld] <;> omega
theorem catomCas (h : BitVec 2) (d : BitVec 5) (a : BitVec 5) (b : BitVec 5) (q : BitVec 1) (l : BitVec 1) (st : BitVec 4) : Statement (.catomCas h d a b q l st) := by
  have h0 := h.isLt; have h1 := d.isLt; have h2 := a.isLt; have h3 := b.isLt; have h4 := q.isLt; have h5 := l.isLt; have h6 := st.isLt
  refine of_word rfl ?_ ?_ ?_ <;> simp only [putFields, fld] <;> omega
theorem catomFadd (h : BitVec 2) (d : BitVec 5) (a : BitVec 5) (b : BitVec 5) (q : BitVec 1) (l : BitVec 1) (st : BitVec 4) : Statement (.catomFadd h d a b q l st) := by
  have h0 := h.isLt; have h1 := d.isLt; have h2 := a.isLt; have h3 := b.isLt; have h4 := q.isLt; have h5 := l.isLt; have h6 := st.isLt
  refine of_word rfl ?_ ?_ ?_ <;> simp only [putFields, fld] <;> omega
theorem cinv (a : BitVec 5) (b : BitVec 5) : Statement (.cinv a b) := by
  have h0 := a.isLt; have h1 := b.isLt
  refine of_word rfl ?_ ?_ ?_ <;> simp only [putFields, fld] <;> omega
theorem cmark (h : BitVec 2) (a : BitVec 5) : Statement (.cmark h a) := by
  have h0 := h.isLt; have h1 := a.isLt
  refine of_word rfl ?_ ?_ ?_ <;> simp only [putFields, fld] <;> omega
theorem cxrd (h : BitVec 2) (d : BitVec 5) (x : BitVec 4) : Statement (.cxrd h d x) := by
  have h0 := h.isLt; have h1 := d.isLt; have h2 := x.isLt
  refine of_word rfl ?_ ?_ ?_ <;> simp only [putFields, fld] <;> omega
theorem cxwr (h : BitVec 2) (d : BitVec 5) (x : BitVec 4) : Statement (.cxwr h d x) := by
  have h0 := h.isLt; have h1 := d.isLt; have h2 := x.isLt
  refine of_word rfl ?_ ?_ ?_ <;> simp only [putFields, fld] <;> omega
theorem trap (c : BitVec 13) : Statement (.trap c) := by
  have h0 := c.isLt
  refine of_word rfl ?_ ?_ ?_ <;> simp only [putFields, fld] <;> omega
theorem eret  : Statement .eret := by
  refine of_word rfl ?_ ?_ ?_ <;> simp only [putFields, fld] <;> omega
theorem csrr (d : BitVec 5) (r : BitVec 13) : Statement (.csrr d r) := by
  have h0 := d.isLt; have h1 := r.isLt
  refine of_word rfl ?_ ?_ ?_ <;> simp only [putFields, fld] <;> omega
theorem csrw (a : BitVec 5) (r : BitVec 13) : Statement (.csrw a r) := by
  have h0 := a.isLt; have h1 := r.isLt
  refine of_word rfl ?_ ?_ ?_ <;> simp only [putFields, fld] <;> omega
theorem clkdiv (e : BitVec 2) (v : BitVec 4) : Statement (.clkdiv e v) := by
  have h0 := e.isLt; have h1 := v.isLt
  refine of_word rfl ?_ ?_ ?_ <;> simp only [putFields, fld] <;> omega
theorem hint (k : BitVec 2) : Statement (.hint k) := by
  have h0 := k.isLt
  refine of_word rfl ?_ ?_ ?_ <;> simp only [putFields, fld] <;> omega
theorem bkpt (c : BitVec 13) : Statement (.bkpt c) := by
  have h0 := c.isLt
  refine of_word rfl ?_ ?_ ?_ <;> simp only [putFields, fld] <;> omega
theorem trig (a : BitVec 5) (n : BitVec 4) : Statement (.trig a n) := by
  have h0 := a.isLt; have h1 := n.isLt
  refine of_word rfl ?_ ?_ ?_ <;> simp only [putFields, fld] <;> omega
theorem yield  : Statement .yield := by
  refine of_word rfl ?_ ?_ ?_ <;> simp only [putFields, fld] <;> omega
theorem halt  : Statement .halt := by
  refine of_word rfl ?_ ?_ ?_ <;> simp only [putFields, fld] <;> omega
theorem ctxs (a : BitVec 5) : Statement (.ctxs a) := by
  have h0 := a.isLt
  refine of_word rfl ?_ ?_ ?_ <;> simp only [putFields, fld] <;> omega
theorem ctxl (a : BitVec 5) : Statement (.ctxl a) := by
  have h0 := a.isLt
  refine of_word rfl ?_ ?_ ?_ <;> simp only [putFields, fld] <;> omega
theorem resultLand (u : Nat) : Statement (.resultLand u) := of_event rfl
theorem loopPassStart (u : Nat) (wk : Nat) : Statement (.loopPassStart u wk) := of_event rfl
theorem phaseComplete (u : Nat) (wk : Nat) : Statement (.phaseComplete u wk) := of_event rfl
theorem barrierComplete (b : Nat) : Statement (.barrierComplete b) := of_event rfl
theorem barrierRelease (u : Nat) : Statement (.barrierRelease u) := of_event rfl
theorem messageArrival (u : Nat) : Statement (.messageArrival u) := of_event rfl
theorem kStepStart (u : Nat) : Statement (.kStepStart u) := of_event rfl
theorem kStepEnd (u : Nat) : Statement (.kStepEnd u) := of_event rfl
theorem kStepLand (u : Nat) : Statement (.kStepLand u) := of_event rfl
theorem translationStep (u : Nat) (ch : Nat) : Statement (.translationStep u ch) := of_event rfl
theorem tableWalkComplete (c : Nat) : Statement (.tableWalkComplete c) := of_event rfl
theorem copyBeatIssue (u : Nat) (ch : Nat) : Statement (.copyBeatIssue u ch) := of_event rfl
theorem copyReadDataReady (u : Nat) : Statement (.copyReadDataReady u) := of_event rfl
theorem copyWritePerform (u : Nat) : Statement (.copyWritePerform u) := of_event rfl
theorem offcoreWriteComplete (u : Nat) : Statement (.offcoreWriteComplete u) := of_event rfl
theorem atomicPerform (u : Nat) : Statement (.atomicPerform u) := of_event rfl
theorem atomicResultLand (u : Nat) : Statement (.atomicResultLand u) := of_event rfl
theorem copyCommandComplete (u : Nat) : Statement (.copyCommandComplete u) := of_event rfl
theorem crossingSampleEnter (d : Nat) (x : Nat) : Statement (.crossingSampleEnter d x) := of_event rfl
theorem lateDataPoison (u : Nat) : Statement (.lateDataPoison u) := of_event rfl
theorem lateDataArrival (u : Nat) : Statement (.lateDataArrival u) := of_event rfl
theorem residentRewalk (u : Nat) : Statement (.residentRewalk u) := of_event rfl
theorem ctxsComplete (u : Nat) : Statement (.ctxsComplete u) := of_event rfl
theorem ctxlComplete (u : Nat) : Statement (.ctxlComplete u) := of_event rfl
theorem bindOff (u : Nat) : Statement (.bindOff u) := of_event rfl
theorem compositeRecordWrite (u : Nat) : Statement (.compositeRecordWrite u) := of_event rfl
theorem actionResume (u : Nat) : Statement (.actionResume u) := of_event rfl
theorem actionAbort (u : Nat) : Statement (.actionAbort u) := of_event rfl
theorem preemptionRequest (k : Nat) : Statement (.preemptionRequest k) := of_event rfl
theorem preemptionStop (u : Nat) : Statement (.preemptionStop u) := of_event rfl
theorem preemptionSave (u : Nat) : Statement (.preemptionSave u) := of_event rfl
theorem contextRestore (k : Nat) : Statement (.contextRestore k) := of_event rfl
theorem haltWaveArrival (r : Nat) : Statement (.haltWaveArrival r) := of_event rfl
theorem jobStep (j : Nat) : Statement (.jobStep j) := of_event rfl
theorem jobResume (j : Nat) : Statement (.jobResume j) := of_event rfl
theorem resumeAtTr (j : Nat) : Statement (.resumeAtTr j) := of_event rfl
theorem triggerWindowOpen (u : Nat) (n : Nat) : Statement (.triggerWindowOpen u n) := of_event rfl
theorem triggerWindowClose (u : Nat) (n : Nat) : Statement (.triggerWindowClose u n) := of_event rfl
theorem watchReport (u : Nat) (n : Nat) : Statement (.watchReport u n) := of_event rfl
theorem arm (j : Nat) : Statement (.arm j) := of_event rfl
theorem jobRetire (j : Nat) : Statement (.jobRetire j) := of_event rfl
theorem watchedWordWrite (d : Nat) (a : Nat) : Statement (.watchedWordWrite d a) := of_event rfl
theorem kernelCastOn (k : Nat) : Statement (.kernelCastOn k) := of_event rfl
theorem kernelStart (k : Nat) : Statement (.kernelStart k) := of_event rfl
theorem nodeRetire (k : Nat) : Statement (.nodeRetire k) := of_event rfl
theorem cond (n : Nat) : Statement (.cond n) := of_event rfl
theorem loopNode (n : Nat) : Statement (.loopNode n) := of_event rfl
theorem switch (n : Nat) : Statement (.switch n) := of_event rfl
theorem join (n : Nat) : Statement (.join n) := of_event rfl
theorem watchNode (n : Nat) : Statement (.watchNode n) := of_event rfl
theorem sourceSample (k : Nat) (n : Nat) : Statement (.sourceSample k n) := of_event rfl
theorem sampleMissed (r : Nat) : Statement (.sampleMissed r) := of_event rfl
theorem gaugeLock (r : Nat) : Statement (.gaugeLock r) := of_event rfl
theorem gaugeClamp (r : Nat) : Statement (.gaugeClamp r) := of_event rfl
theorem gaugeUnclamp (r : Nat) : Statement (.gaugeUnclamp r) := of_event rfl
theorem holdoverEntry (r : Nat) : Statement (.holdoverEntry r) := of_event rfl
theorem holdoverRelock (r : Nat) : Statement (.holdoverRelock r) := of_event rfl
theorem sampleBoundary (r : Nat) : Statement (.sampleBoundary r) := of_event rfl
theorem holdoverExpiry (r : Nat) : Statement (.holdoverExpiry r) := of_event rfl
theorem regionFreeze (r : Nat) : Statement (.regionFreeze r) := of_event rfl
theorem thaw (r : Nat) : Statement (.thaw r) := of_event rfl
theorem watchdog (u : Nat) : Statement (.watchdog u) := of_event rfl
theorem powerControlInterval (ma : Nat) (mc : Nat) (mw : Nat) : Statement (.powerControlInterval ma mc mw) := of_event rfl
theorem shedSave (r : Nat) : Statement (.shedSave r) := of_event rfl
theorem shedClear (r : Nat) : Statement (.shedClear r) := of_event rfl
theorem regionReadmit (r : Nat) : Statement (.regionReadmit r) := of_event rfl
theorem capLeaseExpiry : Statement .capLeaseExpiry := of_event rfl
theorem capmsg (q : BitVec 32) (p : BitVec 32) (l : BitVec 32) : Statement (.capmsg q p l) := of_event rfl
theorem patrolScrubError (d : Nat) (a : Nat) : Statement (.patrolScrubError d a) := of_event rfl
theorem jregRegister (f : Nat) (j : Nat) (v : BitVec 64) : Statement (.jregRegister f j v) := of_event rfl
theorem jobRegistration (f : Nat) (j : Nat) : Statement (.jobRegistration f j) := of_event rfl
theorem jregFree (f : Nat) (j : Nat) : Statement (.jregFree f j) := of_event rfl
theorem ilen (f : Nat) (v : BitVec 64) : Statement (.ilen f v) := of_event rfl
theorem invalidationDone (f : Nat) : Statement (.invalidationDone f) := of_event rfl
theorem ptroot (f : Nat) (v : BitVec 64) : Statement (.ptroot f v) := of_event rfl
theorem checkpointSave : Statement .checkpointSave := of_event rfl
theorem checkpointRestore : Statement .checkpointRestore := of_event rfl
theorem checkpointDone : Statement .checkpointDone := of_event rfl
theorem registerWrite (q : Tlp) (o : Nat) (v : BitVec 64) : Statement (.registerWrite q o v) := of_event rfl
theorem bar2Write (q : Tlp) (a : Nat) (bs : List Byte) : Statement (.bar2Write q a bs) := of_event rfl
theorem bar2Read (q : ReadTlp) (a : Nat) (n : Nat) : Statement (.bar2Read q a n) := of_event rfl
theorem tdiExit (f : Nat) : Statement (.tdiExit f) := of_event rfl
theorem samplesFrame (p : Nat) (fr : Frame) : Statement (.samplesFrame p fr) := of_event rfl
theorem keepAliveRx (p : Nat) (fr : Frame) : Statement (.keepAliveRx p fr) := of_event rfl
theorem creditRx (p : Nat) (fr : Frame) : Statement (.creditRx p fr) := of_event rfl
theorem endOfStreamRx (p : Nat) (fr : Frame) : Statement (.endOfStreamRx p fr) := of_event rfl
theorem keepAliveTx (f : Nat) (k : Nat) : Statement (.keepAliveTx f k) := of_event rfl
theorem creditTx (f : Nat) (k : Nat) : Statement (.creditTx f k) := of_event rfl
theorem linkTimeout (f : Nat) (k : Nat) : Statement (.linkTimeout f k) := of_event rfl
theorem transmit (f : Nat) (k : Nat) (n : SampleTime) : Statement (.transmit f k n) := of_event rfl
theorem ptpMessage (g : Int) : Statement (.ptpMessage g) := of_event rfl
theorem hostCadenceSample (f : Nat) (k : Nat) (n : Nat) : Statement (.hostCadenceSample f k n) := of_event rfl
theorem linkTraining (p : Nat) (n : Nat) : Statement (.linkTraining p n) := of_event rfl
theorem readRequest (p : Nat) (fl : Flit) : Statement (.readRequest p fl) := of_event rfl
theorem write (p : Nat) (fl : Flit) : Statement (.write p fl) := of_event rfl
theorem atomic (p : Nat) (fl : Flit) : Statement (.atomic p fl) := of_event rfl
theorem readResponse (p : Nat) (fl : Flit) : Statement (.readResponse p fl) := of_event rfl
theorem atomicResponse (p : Nat) (fl : Flit) : Statement (.atomicResponse p fl) := of_event rfl
theorem gauge (p : Nat) (fl : Flit) : Statement (.gauge p fl) := of_event rfl
theorem haltWave (p : Nat) (fl : Flit) : Statement (.haltWave p fl) := of_event rfl
theorem resume (p : Nat) (fl : Flit) : Statement (.resume p fl) := of_event rfl
theorem step (p : Nat) (fl : Flit) : Statement (.step p fl) := of_event rfl
theorem watchReportFlit (p : Nat) (fl : Flit) : Statement (.watchReportFlit p fl) := of_event rfl
theorem time (p : Nat) (fl : Flit) : Statement (.time p fl) := of_event rfl
theorem flitFailure (p : Nat) : Statement (.flitFailure p) := of_event rfl
theorem portDown (p : Nat) : Statement (.portDown p) := of_event rfl
theorem keyUpdate (e : KeySession) : Statement (.keyUpdate e) := of_event rfl
theorem boot (im : BootImage) : Statement (.boot im) := of_event rfl
theorem getVersion (f : Nat) : Statement (.getVersion f) := of_event rfl
theorem getCapabilities (f : Nat) : Statement (.getCapabilities f) := of_event rfl
theorem negotiateAlgorithms (f : Nat) (al : Nat) : Statement (.negotiateAlgorithms f al) := of_event rfl
theorem getDigests (f : Nat) : Statement (.getDigests f) := of_event rfl
theorem getCertificate (f : Nat) (sl : Nat) : Statement (.getCertificate f sl) := of_event rfl
theorem challenge (f : Nat) (no : BitVec 256) : Statement (.challenge f no) := of_event rfl
theorem getMeasurements (f : Nat) (ix : Nat) : Statement (.getMeasurements f ix) := of_event rfl
theorem keyExchange (f : Nat) (sid : Nat) (psk : Bool) : Statement (.keyExchange f sid psk) := of_event rfl
theorem finish (f : Nat) (sid : Nat) : Statement (.finish f sid) := of_event rfl
theorem endSession (f : Nat) (sid : Nat) : Statement (.endSession f sid) := of_event rfl
theorem setKey (f : Nat) (part : Nat) (key : BitVec 512) : Statement (.setKey f part key) := of_event rfl
theorem regionCycle (r : Nat) : Statement (.regionCycle r) := of_event rfl
theorem compositeRecordComplete (u : Nat) : Statement (.compositeRecordComplete u) := of_event rfl
theorem tdispMessage (f : Nat) (rq : TdispRequest) : Statement (.tdispMessage f rq) := of_event rfl

end Sys2Proof.Laws.Coded
end

