-- ==== Sys2Proof/Tests/Slice0.lean ====
section
/-! SUPPORT. The model's own tests: an ill-formed term for each check of WellFormed, each word's decoding by words written out from the
spec's encodings, single steps whose results the spec gives, and for each statement a state and operands that meet its hypotheses. -/

namespace Sys2Proof.Tests

open Sys2Proof.Machine

/-! ### WellFormed: each check refuses a term that breaks it -/

theorem test_ill_formed_literals : wellFormed (.liLit 1 3 0 5 7) = false ∧ wellFormed (.vfmal 1 2 0 0 5 7) = false := by decide
theorem test_ill_formed_steer_destination :
    wellFormed (.cmpEq 1 12 0 0) = false ∧ wellFormed (.cmpNe 1 31 0 0) = false ∧ wellFormed (.cmpLt 1 16 0 0) = false ∧
      wellFormed (.cmpGe 1 12 0 0) = false ∧ wellFormed (.cmpLtu 1 12 0 0) = false ∧ wellFormed (.cmpGeu 1 12 0 0) = false ∧
      wellFormed (.cmpiEq 1 12 0 0) = false ∧ wellFormed (.cmpiNe 1 12 0 0) = false ∧ wellFormed (.cmpiLt 1 12 0 0) = false ∧
      wellFormed (.cmpiGe 1 12 0 0) = false ∧ wellFormed (.cmpiLtu 1 12 0 0) = false ∧ wellFormed (.cmpiGeu 1 12 0 0) = false ∧
      wellFormed (.mvst 1 12 0) = false ∧ wellFormed (.stAnd 1 12 0 0) = false ∧ wellFormed (.stOr 1 12 0 0) = false ∧
      wellFormed (.stNot 1 12 0) = false := by decide
theorem test_ill_formed_steer_source :
    wellFormed (.stAnd 1 0 12 0) = false ∧ wellFormed (.stOr 1 0 0 15) = false ∧ wellFormed (.stNot 1 0 24) = false ∧
      wellFormed (.mvfst 1 0 24) = false ∧ wellFormed (.sel 1 0 0 0 12) = false ∧ wellFormed (.prep 1 12 1) = false ∧
      wellFormed (.br 1 12 1) = false ∧ wellFormed (.brT 1 12) = false ∧ wellFormed (.brn 1 12 1) = false ∧ wellFormed (.brnT 1 12) = false ∧
      wellFormed (.jT 1 12) = false ∧ wellFormed (.callT 1 12) = false ∧ wellFormed (.lbrk 1 12) = false := by decide
theorem test_ill_formed_offset :
    wellFormed (.br 1 0 0) = false ∧ wellFormed (.brn 1 0 0) = false ∧ wellFormed (.j 1 0) = false ∧ wellFormed (.call 1 0) = false ∧
      wellFormed (.check 1 0) = false ∧ wellFormed (.vskip 0) = false := by decide
theorem test_ill_formed_loop :
    wellFormed (.loop 1 12 1 1 0) = false ∧ wellFormed (.loop 1 0 0 1 0) = false ∧ wellFormed (.loop 1 0 12 1 0) = false ∧
      wellFormed (.loop 1 0 1 0 0) = false := by decide
theorem test_ill_formed_scope :
    wellFormed (.wsync 1 0) = false ∧ wellFormed (.phase 1 12) = false ∧ wellFormed (.bar 1 12 0) = false ∧ wellFormed (.bar 1 0 0) = false := by decide
theorem test_ill_formed_vector_type :
    wellFormed (.vadd 0 0 0 0 3) = false ∧ wellFormed (.vsub 0 0 0 0 3) = false ∧ wellFormed (.vmul 0 0 0 0 3) = false ∧
      wellFormed (.vfma 0 0 0 0 3) = false ∧ wellFormed (.vfms 0 0 0 0 3) = false ∧ wellFormed (.vfnma 0 0 0 0 3) = false ∧
      wellFormed (.vmin 0 0 0 0 3) = false ∧ wellFormed (.vmax 0 0 0 0 3) = false ∧ wellFormed (.vabs 0 0 0 2) = false ∧
      wellFormed (.vneg 0 0 0 2) = false ∧ wellFormed (.vcmpEq 0 0 0 0 3) = false ∧ wellFormed (.vcmpNe 0 0 0 0 3) = false ∧
      wellFormed (.vcmpLt 0 0 0 0 3) = false ∧ wellFormed (.vcmpLe 0 0 0 0 3) = false ∧ wellFormed (.vredAdd 0 0 0 3) = false ∧
      wellFormed (.vredMax 0 0 0 3) = false := by decide
theorem test_ill_formed_vcvt : wellFormed (.vcvt 0 0 0 0 0 0) = false ∧ wellFormed (.vcvt 0 0 1 0 1 0) = false := by decide
theorem test_ill_formed_lanes :
    wellFormed (.vld 0 0 0 0 6) = false ∧ wellFormed (.vld 0 0 32 0 1) = false ∧ wellFormed (.vld 0 0 1 0 0) = false ∧
      wellFormed (.vst 0 0 0 0 6) = false ∧ wellFormed (.vst 0 0 32 0 1) = false ∧ wellFormed (.vst 0 0 1 0 5) = false ∧
      wellFormed (.vldk 63 0 1) = false := by decide
theorem test_ill_formed_format : wellFormed (.msetFmt 0 0 0) = false ∧ wellFormed (.msetFmt 1 4 4) = false ∧ wellFormed (.msetFmt 3 9 9) = false := by decide
theorem test_ill_formed_multiply :
    wellFormed (.mma 0 0 0 0 0) = false ∧ wellFormed (.mma 0 1 0 0 1) = false ∧ wellFormed (.mma 0 1 1 0 12) = false ∧
      wellFormed (.mmaS 0 0 0 0 0) = false ∧ wellFormed (.mmaQ 0 0 0 0 0) = false ∧ wellFormed (.mmaL8 0 0 0 0 0) = false ∧
      wellFormed (.mmaPair 0 0 0 0 0) = false := by decide
theorem test_ill_formed_convert :
    wellFormed (.maccCvt 0 0 0 11 0 0) = false ∧ wellFormed (.maccCvt 0 0 0 0 1 0) = false ∧ wellFormed (.maccCvt 0 0 49 0 0 0) = false := by decide
theorem test_ill_formed_ordering :
    wellFormed (.cmov 0 0 0 0 0 0 1) = false ∧ wellFormed (.cmov 0 0 0 0 1 0 12) = false ∧ wellFormed (.cfillA 0 0 0 0 0 0 1) = false ∧
      wellFormed (.cfillB 0 0 0 0 0 0 1) = false ∧ wellFormed (.cgat 0 0 0 0 0 0 1) = false ∧ wellFormed (.csct 0 0 0 0 0 0 1) = false ∧
      wellFormed (.catomAdd 0 0 0 0 0 0 1) = false ∧ wellFormed (.catomMin 0 0 0 0 0 0 1) = false ∧ wellFormed (.catomMax 0 0 0 0 0 0 1) = false ∧
      wellFormed (.catomXchg 0 0 0 0 0 0 1) = false ∧ wellFormed (.catomCas 0 0 0 0 0 0 1) = false ∧ wellFormed (.catomFadd 0 0 0 0 0 0 1) = false := by decide
theorem test_ill_formed_system :
    wellFormed (.csrr 0 0x0C) = false ∧ wellFormed (.csrw 0 0x112) = false ∧ wellFormed (.clkdiv 3 0) = false ∧ wellFormed (.hint 3) = false := by decide
theorem test_ill_formed_event :
    wellFormed (.resultLand 160) = false ∧ wellFormed (.loopPassStart 0 4) = false ∧ wellFormed (.translationStep 0 4) = false ∧
      wellFormed (.tableWalkComplete 20) = false ∧ wellFormed (.crossingSampleEnter 2 0) = false ∧ wellFormed (.crossingSampleEnter 0 16) = false ∧
      wellFormed (.triggerWindowOpen 0 16) = false ∧ wellFormed (.watchedWordWrite 2 0) = false ∧ wellFormed (.patrolScrubError 2 0) = false ∧
      wellFormed (.ilen 65 0) = false ∧ wellFormed (.tdispMessage 65 .lock) = false ∧ wellFormed (.getVersion 65) = false := by decide

/-! ### Decoding: words from the opcode table's match values with the fields put at the places it gives; the literal words of R86 and R132 -/

theorem test_decode_literals :
    decode [0x0A460001, 0x23456789, 1, 9] = some (.ok (.liLit 1 3 1 0x23456789 1), [9]) ∧
      decode [0x0A460000, 0x80000000, 9] = some (.ok (.liLit 1 3 0 0x80000000 0), [9]) ∧
      decode [0xAB420418, 0x3F800000, 0x40000000, 9] = some (.ok (.vfmal 2 1 1 1 0x3F800000 0x40000000), [9]) ∧
      decode [0xAB420408, 0x3F800000, 9] = some (.ok (.vfmal 2 1 0 1 0x3F800000 0), [9]) :=
  ⟨rfl, rfl, rfl, rfl⟩
/-- Unused fields, reserved kinds and reserved opcodes are refused, not read as a neighbour (R43, R55). -/
theorem test_decode_refuses :
    (decodeTableWord 32 0x08000001).isNone = true ∧ (decodeTableWord 32 0x0F800000).isNone = true ∧
      (decodeTableWord 32 0x0840007F).isNone = true ∧ (decodeTableWord 32 0xAF000000).isNone = true ∧
      (decodeTableWord 32 0x9F800000).isNone = true ∧ (decodeTableWord 32 0xC3800000).isNone = true ∧
      (decodeTableWord 32 0xE6000000).isNone = true ∧ (decodeTableWord 32 0x0A800E00).isNone = true := by
  decide

theorem test_decode_arithmetic_1 :
    decodeNat 0x28000000 0 0 = .ok (.nop 5) ∧
    decodeNat 0x305B4D80 0 0 = .ok (.add 6 13 20 27) ∧
    decodeNat 0x385D5E01 0 0 = .ok (.sub 7 14 21 28) ∧
    decodeNat 0x405F6E82 0 0 = .ok (.and 8 15 22 29) ∧
    decodeNat 0x48617F03 0 0 = .ok (.or 9 16 23 30) ∧
    decodeNat 0x50638F84 0 0 = .ok (.xor 10 17 24 31) ∧
    decodeNat 0x58659085 0 0 = .ok (.andn 11 18 25 1) ∧
    decodeNat 0x6067A086 0 0 = .ok (.orn 12 19 26 1) ∧
    decodeNat 0x6869B107 0 0 = .ok (.sll 13 20 27 2) ∧
    decodeNat 0x706BC188 0 0 = .ok (.srl 14 21 28 3) ∧
    decodeNat 0x786DD209 0 0 = .ok (.sra 15 22 29 4) ∧
    decodeNat 0x086FE28A 0 0 = .ok (.rol 1 23 30 5) ∧
    decodeNat 0x0871F30B 0 0 = .ok (.mul 1 24 31 6) ∧
    decodeNat 0x1072138C 0 0 = .ok (.mulh 2 25 1 7) :=
  ⟨rfl, rfl, rfl, rfl, rfl, rfl, rfl, rfl, rfl, rfl, rfl, rfl, rfl, rfl⟩

theorem test_decode_arithmetic_2 :
    decodeNat 0x1874140D 0 0 = .ok (.mulhu 3 26 1 8) ∧
    decodeNat 0x2076248E 0 0 = .ok (.divu 4 27 2 9) ∧
    decodeNat 0x2878350F 0 0 = .ok (.remu 5 28 3 10) ∧
    decodeNat 0x307A4590 0 0 = .ok (.min 6 29 4 11) ∧
    decodeNat 0x387C5611 0 0 = .ok (.max 7 30 5 12) ∧
    decodeNat 0x407E6692 0 0 = .ok (.minu 8 31 6 13) ∧
    decodeNat 0x48427713 0 0 = .ok (.maxu 9 1 7 14) ∧
    decodeNat 0x50428014 0 0 = .ok (.clz 10 1 8) ∧
    decodeNat 0x58449015 0 0 = .ok (.popc 11 2 9) ∧
    decodeNat 0x6086A031 0 0 = .ok (.addi 12 3 10 49) ∧
    decodeNat 0x68C8B032 0 0 = .ok (.andi 13 4 11 50) ∧
    decodeNat 0x710AC033 0 0 = .ok (.ori 14 5 12 51) ∧
    decodeNat 0x794CD034 0 0 = .ok (.xori 15 6 13 52) ∧
    decodeNat 0x098EE035 0 0 = .ok (.slli 1 7 14 53) :=
  ⟨rfl, rfl, rfl, rfl, rfl, rfl, rfl, rfl, rfl, rfl, rfl, rfl, rfl, rfl⟩

theorem test_decode_arithmetic_3 :
    decodeNat 0x0990F076 0 0 = .ok (.srli 1 8 15 54) ∧
    decodeNat 0x119300B7 0 0 = .ok (.srai 2 9 16 55) ∧
    decodeNat 0x19D40031 0 0 = .ok (.li 3 10 49) ∧
    decodeNat 0x22160032 0 0 = .ok (.lui 4 11 50) :=
  ⟨rfl, rfl, rfl, rfl⟩

theorem test_decode_memory :
    decodeNat 0x2A99303A 0 0 = .ok (.ldB 5 12 19 58) ∧
    decodeNat 0x329B423B 0 0 = .ok (.ldBu 6 13 20 59) ∧
    decodeNat 0x3A9D543C 0 0 = .ok (.ldH 7 14 21 60) ∧
    decodeNat 0x429F663D 0 0 = .ok (.ldHu 8 15 22 61) ∧
    decodeNat 0x4AA1783E 0 0 = .ok (.ldW 9 16 23 62) ∧
    decodeNat 0x52A38A3F 0 0 = .ok (.ldWu 10 17 24 63) ∧
    decodeNat 0x5AA59C40 0 0 = .ok (.ldD 11 18 25 64) ∧
    decodeNat 0x62E7A041 0 0 = .ok (.stB 12 19 26 65) ∧
    decodeNat 0x6AE9B442 0 0 = .ok (.stH 13 20 27 66) ∧
    decodeNat 0x72EBC843 0 0 = .ok (.stW 14 21 28 67) ∧
    decodeNat 0x7AEDDC44 0 0 = .ok (.stD 15 22 29 68) :=
  ⟨rfl, rfl, rfl, rfl, rfl, rfl, rfl, rfl, rfl, rfl, rfl⟩

theorem test_decode_steer_1 :
    decodeNat 0x0B2FE280 0 0 = .ok (.cmpEq 1 23 30 5) ∧
    decodeNat 0x0B31F301 0 0 = .ok (.cmpNe 1 24 31 6) ∧
    decodeNat 0x13321382 0 0 = .ok (.cmpLt 2 25 1 7) ∧
    decodeNat 0x1B341403 0 0 = .ok (.cmpGe 3 26 1 8) ∧
    decodeNat 0x23362484 0 0 = .ok (.cmpLtu 4 27 2 9) ∧
    decodeNat 0x2B383505 0 0 = .ok (.cmpGeu 5 28 3 10) ∧
    decodeNat 0x337A404B 0 0 = .ok (.cmpiEq 6 29 4 75) ∧
    decodeNat 0x3B7C524C 0 0 = .ok (.cmpiNe 7 30 5 76) ∧
    decodeNat 0x437E644D 0 0 = .ok (.cmpiLt 8 31 6 77) ∧
    decodeNat 0x4B42764E 0 0 = .ok (.cmpiGe 9 1 7 78) ∧
    decodeNat 0x5342884F 0 0 = .ok (.cmpiLtu 10 1 8 79) ∧
    decodeNat 0x5B449A50 0 0 = .ok (.cmpiGeu 11 2 9 80) ∧
    decodeNat 0x6386A880 0 0 = .ok (.stAnd 12 3 10 17) ∧
    decodeNat 0x6B88B901 0 0 = .ok (.stOr 13 4 11 18) :=
  ⟨rfl, rfl, rfl, rfl, rfl, rfl, rfl, rfl, rfl, rfl, rfl, rfl, rfl, rfl⟩

theorem test_decode_steer_2 :
    decodeNat 0x738AC002 0 0 = .ok (.stNot 14 5 12) ∧
    decodeNat 0x7B8CD003 0 0 = .ok (.mvst 15 6 13) ∧
    decodeNat 0x0B8EE004 0 0 = .ok (.mvfst 1 7 14) ∧
    decodeNat 0x0BD0FB0D 0 0 = .ok (.sel 1 8 15 22 13) ∧
    decodeNat 0x14240050 0 0 = .ok (.prep 2 9 80) :=
  ⟨rfl, rfl, rfl, rfl, rfl⟩

theorem test_decode_control_1 :
    decodeNat 0x1C680051 0 0 = .ok (.br 3 10 81) ∧
    decodeNat 0x246C0000 0 0 = .ok (.brT 4 11) ∧
    decodeNat 0x2CB00053 0 0 = .ok (.brn 5 12 83) ∧
    decodeNat 0x34B40000 0 0 = .ok (.brnT 6 13) ∧
    decodeNat 0x3CC0004E 0 0 = .ok (.j 7 78) ∧
    decodeNat 0x44FC0000 0 0 = .ok (.jT 8 15) ∧
    decodeNat 0x4D000050 0 0 = .ok (.call 9 80) ∧
    decodeNat 0x55040000 0 0 = .ok (.callT 10 1) ∧
    decodeNat 0x5D412000 0 0 = .ok (.jr 11 18) ∧
    decodeNat 0x65413001 0 0 = .ok (.callr 12 19) ∧
    decodeNat 0x6D400002 0 0 = .ok (.ret 13) ∧
    decodeNat 0x75400003 0 0 = .ok (.pclr 14) ∧
    decodeNat 0x7D9BAC8C 0 0 = .ok (.loop 15 6 29 100 3) ∧
    decodeNat 0x0DDC0000 0 0 = .ok (.lbrk 1 7) :=
  ⟨rfl, rfl, rfl, rfl, rfl, rfl, rfl, rfl, rfl, rfl, rfl, rfl, rfl, rfl⟩

theorem test_decode_control_2 :
    decodeNat 0x0E000000 0 0 = .ok (.waits 1) ∧
    decodeNat 0x16019400 0 0 = .ok (.waitc 2 25) ∧
    decodeNat 0x1E000A61 0 0 = .ok (.waitx 3 2 97) ∧
    decodeNat 0x26000C0B 0 0 = .ok (.wsync 4 11) ∧
    decodeNat 0x2E40000C 0 0 = .ok (.phase 5 12) ∧
    decodeNat 0x36800D64 0 0 = .ok (.bar 6 13 100) ∧
    decodeNat 0x3ECC5000 0 0 = .ok (.sendc 7 6 5) ∧
    decodeNat 0x46FE6001 0 0 = .ok (.recvc 8 31 6) ∧
    decodeNat 0x4F000060 0 0 = .ok (.check 9 96) :=
  ⟨rfl, rfl, rfl, rfl, rfl, rfl, rfl, rfl, rfl⟩

theorem test_decode_vector_1 :
    decodeNat 0xA01A868E 0 0 = .ok (.vadd 26 33 40 1 6) ∧
    decodeNat 0xA05B8A9F 0 0 = .ok (.vsub 27 34 41 1 7) ∧
    decodeNat 0xA09C8EA9 0 0 = .ok (.vmul 28 35 42 1 1) ∧
    decodeNat 0xA0DD92B9 0 0 = .ok (.vfma 29 36 43 1 1) ∧
    decodeNat 0xA11E96CA 0 0 = .ok (.vfms 30 37 44 1 2) ∧
    decodeNat 0xA15F9ADB 0 0 = .ok (.vfnma 31 38 45 1 3) ∧
    decodeNat 0xA1A09EEC 0 0 = .ok (.vmin 32 39 46 1 4) ∧
    decodeNat 0xA1E1A2FD 0 0 = .ok (.vmax 33 40 47 1 5) ∧
    decodeNat 0xA222A40F 0 0 = .ok (.vabs 34 41 1 7) ∧
    decodeNat 0xA263A809 0 0 = .ok (.vneg 35 42 1 1) ∧
    decodeNat 0xA2A4AF29 0 0 = .ok (.vcmpEq 36 43 50 1 1) ∧
    decodeNat 0xA2E5B339 0 0 = .ok (.vcmpNe 37 44 51 1 1) ∧
    decodeNat 0xA326B74A 0 0 = .ok (.vcmpLt 38 45 52 1 2) ∧
    decodeNat 0xA367BB5B 0 0 = .ok (.vcmpLe 39 46 53 1 3) :=
  ⟨rfl, rfl, rfl, rfl, rfl, rfl, rfl, rfl, rfl, rfl, rfl, rfl, rfl, rfl⟩

theorem test_decode_vector_2 :
    decodeNat 0xA3A8BF68 0 0 = .ok (.vand 40 47 54 1) ∧
    decodeNat 0xA3E9C378 0 0 = .ok (.vor 41 48 55 1) ∧
    decodeNat 0xA42AC788 0 0 = .ok (.vxor 42 49 56 1) ∧
    decodeNat 0xA46BC808 0 0 = .ok (.vnot 43 50 1) ∧
    decodeNat 0xA4ACCFA8 0 0 = .ok (.vshl 44 51 58 1) ∧
    decodeNat 0xA4EDD3B8 0 0 = .ok (.vshr 45 52 59 1) ∧
    decodeNat 0xA52ED7C8 0 0 = .ok (.vsra 46 53 60 1) ∧
    decodeNat 0xA56FDBDE 0 0 = .ok (.vcvt 47 54 61 1 1 2) ∧
    decodeNat 0xA5B0DFE0 0 0 = .ok (.vsel 48 55 62) ∧
    decodeNat 0xA5F1E3F8 0 0 = .ok (.vperm 49 56 63 1) ∧
    decodeNat 0xA632E408 0 0 = .ok (.vrcpe 50 57 1) ∧
    decodeNat 0xA673E808 0 0 = .ok (.vrsqe 51 58 1) ∧
    decodeNat 0xA6B4EC08 0 0 = .ok (.vrcp 52 59 1) ∧
    decodeNat 0xA6F5F008 0 0 = .ok (.vrsq 53 60 1) :=
  ⟨rfl, rfl, rfl, rfl, rfl, rfl, rfl, rfl, rfl, rfl, rfl, rfl, rfl, rfl⟩

theorem test_decode_vector_3 :
    decodeNat 0xA736F408 0 0 = .ok (.vsqrt 54 61 1) ∧
    decodeNat 0xA777F858 0 0 = .ok (.vdiv 55 62 5 1) ∧
    decodeNat 0xA7B8FC08 0 0 = .ok (.vexp2 56 63 1) ∧
    decodeNat 0xA7F90408 0 0 = .ok (.vlog2 57 1 1) ∧
    decodeNat 0xA83A0408 0 0 = .ok (.vsinpi 58 1 1) ∧
    decodeNat 0xA87B0808 0 0 = .ok (.vtanh 59 2 1) ∧
    decodeNat 0xA8BC0C08 0 0 = .ok (.vbcast 60 3 1) ∧
    decodeNat 0xA8FD100A 0 0 = .ok (.vredAdd 61 4 1 2) ∧
    decodeNat 0xA93E140B 0 0 = .ok (.vredMax 62 5 1 3) ∧
    decodeNat 0xA97F1808 0 0 = .ok (.vmov 63 6 1) ∧
    decodeNat 0xA9810008 0 0 = .ok (.vmovxIn 1 1) ∧
    decodeNat 0xA9800409 0 0 = .ok (.vmovxOut 1 1) ∧
    decodeNat 0xA9C22508 0 0 = .ok (.vql8 2 9 16 1) ∧
    decodeNat 0xAA032918 0 0 = .ok (.vdl8 3 10 17 1) :=
  ⟨rfl, rfl, rfl, rfl, rfl, rfl, rfl, rfl, rfl, rfl, rfl, rfl, rfl, rfl⟩

theorem test_decode_vector_4 :
    decodeNat 0xAA442D29 0 0 = .ok (.vld 4 11 18 1 1) ∧
    decodeNat 0xAA853139 0 0 = .ok (.vst 5 12 19 1 1) ∧
    decodeNat 0xAAC63540 0 0 = .ok (.vldk 6 13 20) ∧
    decodeNat 0xAB073958 0 0 = .ok (.vfmak 7 14 21 1) ∧
    decodeNat 0xAB802000 0 0 = .ok (.vpush 8) ∧
    decodeNat 0xABC00000 0 0 = .ok (.vinv) ∧
    decodeNat 0xAC000000 0 0 = .ok (.vpop) ∧
    decodeNat 0xAC4008B0 0 0 = .ok (.vskip 139) :=
  ⟨rfl, rfl, rfl, rfl, rfl, rfl, rfl, rfl⟩

theorem test_decode_vector_immediate :
    decodeNat 0xB0C00093 0 0 = .ok (.vmovi 12 147) ∧
    decodeNat 0xB4D00094 0 0 = .ok (.vaddi 13 148) ∧
    decodeNat 0xB8E00095 0 0 = .ok (.vmuli 14 149) ∧
    decodeNat 0xBCF00096 0 0 = .ok (.vmaxi 15 150) :=
  ⟨rfl, rfl, rfl, rfl⟩

theorem test_decode_matrix_1 :
    decodeNat 0x8000017E 0 0 = .ok (.msetFmt 1 7 14) ∧
    decodeNat 0x80800458 0 0 = .ok (.msetShape 17 24) ∧
    decodeNat 0x81024000 0 0 = .ok (.msetScale 18) ∧
    decodeNat 0x81826000 0 0 = .ok (.msetZp 19) ∧
    decodeNat 0x82000001 0 0 = .ok (.msetSparse 1) ∧
    decodeNat 0x84284E62 0 0 = .ok (.mma 5 156 1 1 1) ∧
    decodeNat 0x84B04EE4 0 0 = .ok (.mmaS 6 157 1 1 2) ∧
    decodeNat 0x85384F66 0 0 = .ok (.mmaQ 7 158 1 1 3) ∧
    decodeNat 0x85C04FE8 0 0 = .ok (.mmaL8 8 159 1 1 4) ∧
    decodeNat 0x8648506A 0 0 = .ok (.mmaPair 9 160 1 1 5) ∧
    decodeNat 0x88500000 0 0 = .ok (.mclr 10) ∧
    decodeNat 0x88D88000 0 0 = .ok (.maccLd 11 2) ∧
    decodeNat 0x8960C000 0 0 = .ok (.maccSt 12 3) ∧
    decodeNat 0x89E92B2A 0 0 = .ok (.maccCvt 13 4 43 2 1 1) :=
  ⟨rfl, rfl, rfl, rfl, rfl, rfl, rfl, rfl, rfl, rfl, rfl, rfl, rfl, rfl⟩

theorem test_decode_matrix_2 :
    decodeNat 0x8C780000 0 0 = .ok (.mprog 30) ∧
    decodeNat 0x8C800000 0 0 = .ok (.mwait) :=
  ⟨rfl, rfl⟩

theorem test_decode_copy_1 :
    decodeNat 0xC027757A 0 0 = .ok (.cmov 1 7 14 21 1 1 10) ∧
    decodeNat 0xC0A17DBB 0 0 = .ok (.cfillA 1 1 15 22 1 1 11) ∧
    decodeNat 0xC14185FC 0 0 = .ok (.cfillB 2 1 16 23 1 1 12) ∧
    decodeNat 0xC1E05000 0 0 = .ok (.cbfx 3 10) ∧
    decodeNat 0xC22B967E 0 0 = .ok (.cgat 1 11 18 25 1 1 14) ∧
    decodeNat 0xC2AC9EBF 0 0 = .ok (.csct 1 12 19 26 1 1 15) ∧
    decodeNat 0xC44DA6F1 0 0 = .ok (.catomAdd 2 13 20 27 1 1 1) ∧
    decodeNat 0xC4EEAF31 0 0 = .ok (.catomMin 3 14 21 28 1 1 1) ∧
    decodeNat 0xC52FB772 0 0 = .ok (.catomMax 1 15 22 29 1 1 2) ∧
    decodeNat 0xC5B0BFB3 0 0 = .ok (.catomXchg 1 16 23 30 1 1 3) ∧
    decodeNat 0xC651C7F4 0 0 = .ok (.catomCas 2 17 24 31 1 1 4) ∧
    decodeNat 0xC6F2C875 0 0 = .ok (.catomFadd 3 18 25 1 1 1 5) ∧
    decodeNat 0xC80064C0 0 0 = .ok (.cinv 12 19) ∧
    decodeNat 0xC8A0A000 0 0 = .ok (.cmark 1 20) :=
  ⟨rfl, rfl, rfl, rfl, rfl, rfl, rfl, rfl, rfl, rfl, rfl, rfl, rfl, rfl⟩

theorem test_decode_copy_2 :
    decodeNat 0xCC550300 0 0 = .ok (.cxrd 2 21 12) ∧
    decodeNat 0xCCF60340 0 0 = .ok (.cxwr 3 22 13) :=
  ⟨rfl, rfl⟩

theorem test_decode_system :
    decodeNat 0xE00000B0 0 0 = .ok (.trap 176) ∧
    decodeNat 0xE0800000 0 0 = .ok (.eret) ∧
    decodeNat 0xE14800B9 0 0 = .ok (.csrr 18 185) ∧
    decodeNat 0xE18260BA 0 0 = .ok (.csrw 19 186) ∧
    decodeNat 0xE200080B 0 0 = .ok (.clkdiv 1 11) ∧
    decodeNat 0xE2800001 0 0 = .ok (.hint 1) ∧
    decodeNat 0xE30000B6 0 0 = .ok (.bkpt 182) ∧
    decodeNat 0xE382E00E 0 0 = .ok (.trig 23 14) ∧
    decodeNat 0xE4000000 0 0 = .ok (.yield) ∧
    decodeNat 0xE4800000 0 0 = .ok (.halt) ∧
    decodeNat 0xE5034000 0 0 = .ok (.ctxs 26) ∧
    decodeNat 0xE5836000 0 0 = .ok (.ctxl 27) :=
  ⟨rfl, rfl, rfl, rfl, rfl, rfl, rfl, rfl, rfl, rfl, rfl, rfl⟩
/-! ### Small states -/

/-- Unit 0 as a cast-on leaves it, running, with walker `k` at word 0 in cycle 0. -/
def unit (k : Nat) : Machine.Unit :=
  let un := State.reset.freshUnit 0 (fetchKernel 0) 0 0 []
  { un with run := .running, started := true, word0 := some 0, walkers := modify un.walkers k fun w => { w with slot := .walking 0, ic := 1 } }

/-- One region, whose cycle 0 is open, with that unit; walker `k` is in focus. -/
def bench (k : Nat) (un : Machine.Unit) : State :=
  { State.reset with regions := [fetchRegion], kernels := [fetchKernel 0], units := [(0, un)], stage := stageIssue, focus := (0, k) }

/-- The conditions of `Stands` on the bench. -/
def fit (f : WordInfo) (k : Nat) (un : Machine.Unit) : Bool :=
  un.walkers.length == 4 && decide (k < 4) && (un.wk k).slot == .walking 0 && decide (f.words ≤ 8) && !(un.wk k).stopped && !(un.wk k).held &&
    (un.p0 == none) && decide ((un.wk k).ready ≤ (un.wk k).ic) && un.haltAt == none && (k == 0 || !un.quietWord) && decide ((un.wk k).idx < 65536) &&
    !un.slips k f.words && f.who k && !un.busy ((bench k un).now un) f && (un.wk k).liveAt (un.wk k).idx

theorem ready_bench {f : WordInfo} {k : Nat} {un : Machine.Unit} (h : fit f k un = true) :
    Ready f (bench k un) 0 k (un.standing k ((bench k un).now un)) := by
  simp only [fit, Bool.and_eq_true, Bool.or_eq_true, beq_iff_eq, decide_eq_true_eq, Bool.not_eq_true'] at h
  obtain ⟨⟨⟨⟨⟨⟨⟨⟨⟨⟨⟨⟨⟨⟨h1, h2⟩, h3⟩, h4⟩, h5⟩, h6⟩, h7⟩, h8⟩, h9⟩, h10⟩, h11⟩, h12⟩, h13⟩, h14⟩, h15⟩ := h
  refine ⟨un, ⟨⟨rfl, rfl, h1, h2, ⟨0, h3, by omega⟩, h5, h6, .inl ?_, h8, h9, h10, h11, .inr h12, h13, h14⟩, h15⟩, rfl⟩
  simp [Unit.draining, h7]

/-- The unit as a word's body finds it on the bench. -/
abbrev stood (k : Nat) (un : Machine.Unit) : Machine.Unit := un.standing k ((bench k un).now un)

/-- That unit with registers of walker `k` set. -/
def unitX (k : Nat) (l : List (Nat × Val)) : Machine.Unit :=
  (unit k).setWk k fun w => { w with x := l.foldl (fun x e => x.set e.1 e.2) w.x }

/-- An entry whose C or T is set. -/
def entry (c tv pc : Bool) (t : Nat) : SteerEntry := { SteerEntry.reset with c, tv, pc, t, seq := 1 }

/-- That unit with one landed write of `st2`, which walker `k` has passed. -/
def unitS (k : Nat) (un : Machine.Unit) (e : SteerEntry) : Machine.Unit :=
  { un.setWk k fun w => { w with steers := w.steers.set 2 ⟨1, 0, true, []⟩ } with steers := un.steers.set 2 ⟨[e], 1⟩ }

/-- A level whose body is the words 0 to 7. -/
def level : Level :=
  { word := 0, trip := 3, stages := 2, ii := 4, len := 8, last := 7, from_ := 0, reg := 3, pass := 0, started := true, began := 1, after := 2, first := 0
    drain := none }

/-- The bench in cycle `c`. -/
def benchAt (c : Nat) (un : Machine.Unit) : State := { bench 0 un with regions := [{ fetchRegion with rcc := c }] }

/-- A page of 1 GiB at device virtual address 2^30 and physical address 0, readable and writable, for partition 0. -/
def page : Page :=
  { va := 2 ^ 30, size := 2 ^ 30, space := 0, pa := 0, pkg := 0, part := 0, fmt := 0, group := 32, spo := 0, zpo := 0, r := true, w := true, at_ := false }

/-- Tables that map that page: the root at 0x10000, whose entry 0 points to itself and whose entry 1, read at level 2, is the page's. -/
def paged (s : State) : State :=
  { s with dram := ⟨[(0x10000, 1), (0x10002, 1), (0x10010, 0x0F)], []⟩, vfs := [(0, { Vf.zero with ptroot := 0x10000 })] }

/-- A move of 64 bytes from address 0 to address 64 of the unit store, under transfer ID 0 of channel 0. -/
def move : Cmd := { newCmd (unit 3) .cmov 0 0 64 0 64 with beats := 1 }

/-- Unit 0 with that command in channel 0. -/
def moving (x : Cmd) : Machine.Unit := { unit 3 with chans := (unit 3).chans.set 0 ⟨1, 0, 0, [x], 0, none⟩ }

/-- Its beat, issued in cycle 97. -/
def beat : Beat :=
  { chan := 0, tid := 0, k := 0, u := 97, plan := move.plan 0 0, readAt := 98, late := false, got := false, data := [], writeAt := 99, performAt := 99
    performed := false, doneAt := 99, order := 0, flags := 0, resp := [], lateAt := none, ue := false, snap := ⟨0, 0, 1, 0, 0, 0, []⟩, watch := [] }

/-- Crossing 0 of die 0, armed, unit 0 its producer and its consumer. -/
def crossing : Crossing :=
  { armed := true, desc := 0, part := 0, prodK := 0, consK := 0, prod := 0, cons := 0, z := 64, efmt := 0, replay := false, tlen := 1, trace := 0, w := []
    hist := [], sp0 := 0, sc0 := 0, wrN := 0, rdN := 0, entered := 0, drops := 0, repeats := 0, lastOut := none, disc := false, inbox := [], parts := [] }


/-- An RCB of partition 0 that is its own region. -/
def rcb : Rcb :=
  { job := 0, va := 2 ^ 30, parent := 0, region := 0, gv := true, pattern := 0, mem := 0, energy := 0, units := 8, prio := 0, strict := false, admitted := false
    part := 0, policy := 0, boost := 0, miss := 0, hold := 0, spacing := 0, course := [], handler := 0, save0 := 2 ^ 30 + 2 ^ 20, save1 := 2 ^ 30 + 2 ^ 24, wdog := 0
    crec := 2 ^ 30 + 2 ^ 26, homePkg := 0, homeDie := 0, p := 64, q := 1, src := 16, synA := 3, synB := 2 }

/-- A stop in cycle 0. -/
def stopped : Stop :=
  { cycle := 0, cls := .p, eng := 0, chan := 0, trigger := 0, tid := 0, beat := 0, addr := 0, origin := 0, jobNs := 0, wrote := false, recNs := none
    complete := false, image := [], blocks := [], rsc := 0, busy := false, nA := 0, nB := 0, action := none }

/-- Walkers with nothing in flight have nothing that is due at once. -/
theorem settled_of {un : Machine.Unit} (h : (un.walkers.all fun w => w.inflight.isEmpty) = true) : ∀ j, (un.wk j).settled := by
  intro j p hp
  have e : (un.wk j).inflight = [] := by
    rw [Unit.wk, List.getD_eq_getElem?_getD]
    by_cases hj : j < un.walkers.length
    · rw [List.getElem?_eq_getElem hj]
      exact List.isEmpty_iff.mp (List.all_eq_true.mp h _ (List.getElem_mem hj))
    · rw [List.getElem?_eq_none (by omega)]
      rfl
  rw [e] at hp
  cases hp

/-- The blocks whose writes fall in cycle 99, of a save whose beats begin in cycle 18 and complete in the next cycle. -/
theorem writesAt_one {c : Ctx} (hf : c.first = 18) (hl : c.lo = 1) {low : Nat} (h : low ≤ 81) : c.writesAt low 1 99 = [81] := by
  simp [Ctx.writesAt, hf, hl, List.range_succ, Nat.mod_one, Config.ctxBlocks, h]

/-! ### A state and operands that meet the hypotheses of each statement, for each of its clauses -/

theorem witness_IntegerWordsIssue :
    integerWord (.add 1 5 1 2) = some (.two 1 5 1 2 1 fun x y => BitVec.ofNat 64 (x.toNat + y.toNat)) ∧
      Ready (ctl 1) (bench 0 (unit 0)) 0 0 (stood 0 (unit 0)) ∧ ownPort 0 [5, 1, 2] = false ∧ (stood 0 (unit 0)).full 0 = false ∧
      fetch 0 (stood 0 (unit 0)) [1, 2] = .ok ([Val.zero, Val.zero], stood 0 (unit 0)) ∧ (stood 0 (unit 0)).room 0 5 = true :=
  ⟨rfl, ready_bench rfl, rfl, rfl, rfl, rfl⟩

/-- A poisoned base, a base one word below the end of the store (inside), at the end (outside), misaligned; a register and a port. -/
theorem witness_LoadsIssue :
    loadWord (.ldW 1 7 1 0) = some ⟨1, 7, 1, 0, 4, true⟩ ∧ loadWord (.ldW 1 13 1 0) = some ⟨1, 13, 1, 0, 4, true⟩ ∧
      (∀ x ∈ [(⟨8, true⟩ : Val), ⟨0x3FFFFC, false⟩, ⟨0x400000, false⟩, ⟨2, false⟩], ∃ v, v = stood 0 (unitX 0 [(1, x)]) ∧
        Ready (ctl 1) (bench 0 (unitX 0 [(1, x)])) 0 0 v ∧ fetch 0 v [1] = .ok ([x], v) ∧ v.full 0 = false ∧ v.room 0 7 = true ∧ v.room 0 13 = true ∧
          v.banksFree (bankUse 0 0 x.bits.toNat 4) = true) ∧
      ownPort 0 [7, 1] = false ∧ ownPort 0 [13, 1] = false ∧
      MemWord.addr ⟨1, 7, 1, 0, 4, true⟩ 0x3FFFFC < Config.unitStoreBytes ∧ MemWord.addr ⟨1, 7, 1, 0, 4, true⟩ 0x3FFFFC % 4 = 0 ∧
      Config.unitStoreBytes ≤ MemWord.addr ⟨1, 7, 1, 0, 4, true⟩ 0x400000 ∧ MemWord.addr ⟨1, 7, 1, 0, 4, true⟩ 2 % 4 ≠ 0 := by
  refine ⟨rfl, rfl, ?_, rfl, rfl, by decide, by decide, by decide, by decide⟩
  intro x hx
  simp only [List.mem_cons, List.not_mem_nil, or_false] at hx
  rcases hx with rfl | rfl | rfl | rfl <;> exact ⟨_, rfl, ready_bench rfl, rfl, rfl, rfl, rfl, rfl⟩

theorem witness_StoresIssue :
    storeWord (.stW 1 7 1 0) = some ⟨1, 7, 1, 0, 4, false⟩ ∧
      (∀ x ∈ [(⟨8, true⟩ : Val), ⟨0x3FFFFC, false⟩, ⟨0x400000, false⟩], ∀ y ∈ [(⟨5, false⟩ : Val), ⟨5, true⟩], ∃ v, v = stood 0 (unitX 0 [(1, x), (7, y)]) ∧
        Ready (ctl 1) (bench 0 (unitX 0 [(1, x), (7, y)])) 0 0 v ∧ fetch 0 v [1, 7] = .ok ([x, y], v) ∧
          v.banksFree (bankUse 1 0 x.bits.toNat 4) = true) ∧
      ownPort 0 [7, 1] = false ∧ MemWord.addr ⟨1, 7, 1, 0, 4, false⟩ 0x3FFFFC < Config.unitStoreBytes ∧
      MemWord.addr ⟨1, 7, 1, 0, 4, false⟩ 0x3FFFFC % 4 = 0 ∧ Config.unitStoreBytes ≤ MemWord.addr ⟨1, 7, 1, 0, 4, false⟩ 0x400000 := by
  refine ⟨rfl, ?_, rfl, by decide, by decide, by decide⟩
  intro x hx y hy
  simp only [List.mem_cons, List.not_mem_nil, or_false] at hx hy
  rcases hx with rfl | rfl | rfl <;> rcases hy with rfl | rfl <;> exact ⟨_, rfl, ready_bench rfl, rfl, rfl⟩

theorem witness_SteerWordsIssue :
    (steerWord (.cmpEq 1 2 1 3)).isSome = true ∧ wellFormed (.cmpEq 1 2 1 3) = true ∧ Ready (ctlSteer 1 2) (bench 0 (unit 0)) 0 0 (stood 0 (unit 0)) ∧
      ownPort 0 [1, 3] = false ∧ (stood 0 (unit 0)).full 0 = false ∧
      fetch 0 (stood 0 (unit 0)) [1, 3] = .ok ([Val.zero, Val.zero], stood 0 (unit 0)) ∧
      (steerLogic (.stAnd 1 2 3 16)).isSome = true ∧ wellFormed (.stAnd 1 2 3 16) = true ∧
      [(3 : BitVec 5), 16].map (fun a => (stood 0 (unit 0)).steerSource 0 a.toNat) = [SteerEntry.reset, SteerEntry.reset].map .entry ∧
      wellFormed (.prep 1 2 5) = true ∧ ((5 : Nat) : Int) = ((((stood 0 (unit 0)).wk 0).idx : Nat) : Int) + (5 : BitVec 18).toInt :=
  ⟨rfl, rfl, ready_bench rfl, rfl, rfl, rfl, rfl, rfl, rfl, rfl, rfl⟩

theorem witness_SteerReadersIssue :
    wellFormed (.mvfst 1 5 2) = true ∧ wellFormed (.sel 1 5 1 3 2) = true ∧
      ∀ c ∈ [true, false], ∃ v, v = stood 0 (unitS 0 (unit 0) (entry c true false 9)) ∧
        Ready (ctl 1) (bench 0 (unitS 0 (unit 0) (entry c true false 9))) 0 0 v ∧ ownPort 0 [5, 1, 3] = false ∧ v.full 0 = false ∧
          v.steerSource 0 2 = .entry (entry c true false 9) ∧ v.room 0 5 = true ∧ fetch 0 v [1, 3] = .ok ([Val.zero, Val.zero], v) := by
  refine ⟨rfl, rfl, ?_⟩
  intro c hc
  simp only [List.mem_cons, List.not_mem_nil, or_false] at hc
  rcases hc with rfl | rfl <;> exact ⟨_, rfl, ready_bench rfl, rfl, rfl, rfl, rfl, rfl⟩

/-- An entry that is gone, and one that has not landed, in a lenient and a strict region. -/
theorem witness_SteerReadSlips :
    branchWord (.br 1 2 6) = some (1, 2, true, some 6) ∧ wellFormed (.br 1 2 6) = true ∧
      (∃ un, un = unitS 0 (unit 0) { entry true true false 9 with word := 4 } ∧ Ready (ctl 1) (bench 0 un) 0 0 (stood 0 un) ∧
        (stood 0 un).steerSource 0 2 = .slip) ∧
      (∃ un, un = { unitS 0 (unit 0) (entry true true false 9) with steers := (unit 0).steers } ∧ Ready (ctl 1) (bench 0 un) 0 0 (stood 0 un) ∧
        (stood 0 un).steerSource 0 2 = .notLanded ∧ ((bench 0 un).region (stood 0 un).region).strict = false) ∧
      (∃ un, un = { unitS 0 (unit 0) (entry true true false 9) with steers := (unit 0).steers, region := 1 } ∧
        Ready (ctl 1) { bench 0 un with regions := [fetchRegion, { fetchRegion with strict := true }] } 0 0 (stood 0 un) ∧
        (stood 0 un).steerSource 0 2 = .notLanded ∧
        (({ bench 0 un with regions := [fetchRegion, { fetchRegion with strict := true }] } : State).region (stood 0 un).region).strict = true) := by
  refine ⟨rfl, rfl, ⟨_, rfl, ready_bench rfl, rfl⟩, ⟨_, rfl, ready_bench rfl, rfl, rfl⟩, ⟨_, rfl, ?_, rfl, rfl⟩⟩
  exact ⟨_, ⟨⟨rfl, rfl, rfl, by decide, ⟨0, rfl, by decide⟩, rfl, rfl, .inl rfl, by decide, rfl, .inl rfl, by decide, .inr rfl, rfl, rfl⟩, rfl⟩, rfl⟩

/-- The entries of a branch: poisoned C; C against the branch; C with it, without a target, with a poisoned target, with a target. -/
theorem witness_TransfersIssue :
    branchWord (.br 1 2 6) = some (1, 2, true, some 6) ∧ branchWord (.brT 1 2) = some (1, 2, true, none) ∧ wellFormed (.br 1 2 6) = true ∧
      wellFormed (.brT 1 2) = true ∧ wellFormed (.j 1 6) = true ∧ wellFormed (.jT 1 2) = true ∧
      (∀ e ∈ [entry true true true 9, entry false true false 9, entry true false false 9, { entry true true false 9 with pt := true },
          entry true true false 65535],
        ∃ v, v = stood 0 (unitS 0 (unit 0) e) ∧ Ready (ctl 1) (bench 0 (unitS 0 (unit 0) e)) 0 0 v ∧ v.steerSource 0 2 = .entry e ∧
          (v.wk 0).inner = none ∧ (v.wk 0).idx = 0) ∧
      (∃ un, un = unitS 0 ((unit 0).setWk 0 fun w => { w with inner := some level }) (entry true true false 9) ∧ (stood 0 un).steerSource 0 2 =
        .entry (entry true true false 9) ∧ Ready (ctl 1) (bench 0 un) 0 0 (stood 0 un) ∧ ((stood 0 un).wk 0).inner.isSome = true) ∧
      (∀ x ∈ [(⟨8, true⟩ : Val), ⟨65535, false⟩], ∃ v, v = stood 0 (unitX 0 [(1, x)]) ∧ Ready (ctl 1) (bench 0 (unitX 0 [(1, x)])) 0 0 v ∧
        fetch 0 v [1] = .ok ([x], v) ∧ ownPort 0 [1] = false) := by
  refine ⟨rfl, rfl, rfl, rfl, rfl, rfl, ?_, ⟨_, rfl, rfl, ready_bench rfl, rfl⟩, ?_⟩
  · intro e he
    simp only [List.mem_cons, List.not_mem_nil, or_false] at he
    rcases he with rfl | rfl | rfl | rfl | rfl <;> exact ⟨_, rfl, ready_bench rfl, rfl, rfl, rfl⟩
  · intro x hx
    simp only [List.mem_cons, List.not_mem_nil, or_false] at hx
    rcases hx with rfl | rfl <;> exact ⟨_, rfl, ready_bench rfl, rfl, rfl⟩

/-- Seven frames resident, eight with room in the spill area, eight without; one frame with none spilled, one with a spilled frame, two. -/
theorem witness_CallsAndReturnsIssue :
    wellFormed (.call 1 6) = true ∧ wellFormed (.callT 1 2) = true ∧ ((6 : Nat) : Int) = ((((unit 0).wk 0).idx : Nat) : Int) + (6 : BitVec 18).toInt ∧
      (∀ r ∈ [(7, (0 : W64), (0 : W64)), (8, 0, 256), (8, 0, 255), (1, 0, 256), (1, 1, 256), (2, 0, 256)],
        ∃ un v, un = (unit 0).setWk 0 (fun w => { w with res := r.1, spilln := r.2.1, spilll := r.2.2 }) ∧ v = stood 0 un ∧
          Ready (ctl 1) (bench 0 un) 0 0 v ∧ (v.wk 0).res = r.1 ∧ (v.wk 0).spilln = r.2.1 ∧ (v.wk 0).spilll = r.2.2 ∧ (v.wk 0).inner = none ∧
          fetch 0 v [1] = .ok ([Val.zero], v) ∧ v.banksFree (bankUse 1 0 0 256) = true ∧ v.banksFree (bankUse 0 0 0 256) = true ∧
          (v.wk 0).ras.getD (v.wk 0).wp 0 < 65536) ∧
      (∃ v, v = stood 0 (unitS 0 (unit 0) (entry true true false 65535)) ∧ Ready (ctl 1) (bench 0 (unitS 0 (unit 0) (entry true true false 65535))) 0 0 v ∧
        v.steerSource 0 2 = .entry (entry true true false 65535) ∧ (v.wk 0).inner = none) := by
  refine ⟨rfl, rfl, rfl, ?_, ⟨_, rfl, ready_bench rfl, rfl, rfl⟩⟩
  intro r hr
  simp only [List.mem_cons, List.not_mem_nil, or_false] at hr
  rcases hr with rfl | rfl | rfl | rfl | rfl | rfl <;> exact ⟨_, _, rfl, rfl, ready_bench rfl, rfl, rfl, rfl, rfl, rfl, rfl, rfl, by decide⟩

/-- `PS` set and clear. -/
theorem witness_PlainControlWordsIssue :
    wellFormed (.check 1 40) = true ∧ ∀ f ∈ [(0 : W64), 0x8000],
      ∃ un, un = (unit 0).setWk 0 (fun w => { w with flags := f }) ∧ Ready (ctl 1) (bench 0 un) 0 0 (stood 0 un) ∧
        ((stood 0 un).wk 0).flags.getLsbD 15 = decide (f ≠ 0) ∧ ((40 : Nat) : Int) = ((((stood 0 un).wk 0).idx : Nat) : Int) + (40 : BitVec 18).toInt := by
  refine ⟨rfl, ?_⟩
  intro f hf
  simp only [List.mem_cons, List.not_mem_nil, or_false] at hf
  rcases hf with rfl | rfl <;> exact ⟨_, rfl, ready_bench rfl, rfl, rfl⟩

/-- A trip count of 0 and of 2^32 - 1, in a body of the largest length. -/
theorem witness_LoopIssues :
    wellFormed (.loop 1 2 3 4 1) = true ∧ ∀ x ∈ [(0 : W64), 0xFFFFFFFF],
      ∃ un v, un = unitS 0 (unitX 0 [(3, ⟨x, false⟩)]) (entry true true false 4096) ∧ v = stood 0 un ∧ Ready (ctl 1) (bench 0 un) 0 0 v ∧
        v.steerSource 0 2 = .entry (entry true true false 4096) ∧ (v.wk 0).idx < 4096 ∧ 4096 ≤ (v.wk 0).idx + 4096 ∧ (4096 - (v.wk 0).idx) % (1 + 1) = 0 ∧
        (v.wk 0).outer = none ∧ (∀ l, (v.wk 0).inner = some l → l.stages = 1 ∧ 4096 ≤ l.last) ∧ ((v.wk 0).reg 3).poison = false ∧
        ((v.wk 0).reg 3).bits = x ∧ x.toNat < 2 ^ 32 := by
  refine ⟨rfl, ?_⟩
  intro x hx
  simp only [List.mem_cons, List.not_mem_nil, or_false] at hx
  rcases hx with rfl | rfl <;>
    exact ⟨_, _, rfl, rfl, ready_bench rfl, rfl, by decide, by decide, by decide, rfl, fun l h => (by cases h), rfl, rfl, by decide⟩

theorem witness_LbrkIssues :
    wellFormed (.lbrk 1 2) = true ∧ (∃ v, v = stood 0 (unitS 0 (unit 0) (entry true true false 9)) ∧ (v.wk 0).inner = none ∧
        Ready (ctl 1) (bench 0 (unitS 0 (unit 0) (entry true true false 9))) 0 0 v ∧ v.steerSource 0 2 = .entry (entry true true false 9)) ∧
      ∀ e ∈ [entry true true true 9, entry false true false 9, entry true true false 9],
        ∃ un v, un = unitS 0 ((unit 0).setWk 0 fun w => { w with inner := some level }) e ∧ v = stood 0 un ∧ Ready (ctl 1) (bench 0 un) 0 0 v ∧
          v.steerSource 0 2 = .entry e ∧ (v.wk 0).inner = some level := by
  refine ⟨rfl, ⟨_, rfl, rfl, ready_bench rfl, rfl⟩, ?_⟩
  intro e he
  simp only [List.mem_cons, List.not_mem_nil, or_false] at he
  rcases he with rfl | rfl | rfl <;> exact ⟨_, _, rfl, rfl, ready_bench rfl, rfl, rfl⟩

/-- Cycle 0 is a sample boundary; `waitc` for cycle 0 and for cycle 1; channel 1 with nothing outstanding; a set of the walker itself. -/
theorem witness_WaitsIssue :
    Ready (ctl 1) (bench 0 (unit 0)) 0 0 (stood 0 (unit 0)) ∧ ((stood 0 (unit 0)).wk 0).since = some 0 ∧
      0 % max 1 ((bench 0 (unit 0)).region (stood 0 (unit 0)).region).p = 0 ∧
      (∀ x ∈ [(⟨0, false⟩ : Val), ⟨1, false⟩, ⟨1, true⟩], ∃ v, v = stood 0 (unitX 0 [(1, x)]) ∧ Ready (ctl 1) (bench 0 (unitX 0 [(1, x)])) 0 0 v ∧
        fetch 0 v [1] = .ok ([x], v)) ∧
      (stood 0 (unit 0)).chans[1]? = some ⟨0, 0, 0, [], 0, none⟩ ∧
      ((((0 : Nat) : Int) - (((stood 0 (unit 0)).wk 0).copies.getD 1 0 : Int) + ((255 : Nat) : Int)) % 2 ^ 32) < 2 ^ 31 ∧
      wellFormed (.wsync 1 1) = true ∧ Ready { ctl 1 with sync := true } (bench 0 (unit 0)) 0 0 (stood 0 (unit 0)) ∧
      ∀ j, j < 4 → (1 : BitVec 4).toNat.testBit j = true → (stood 0 (unit 0)).syncView 0 0 j ((1 : BitVec 4).toNat.testBit j) = .arrived := by
  refine ⟨ready_bench rfl, rfl, rfl, ?_, rfl, by decide, rfl, ready_bench rfl, ?_⟩
  · intro x hx
    simp only [List.mem_cons, List.not_mem_nil, or_false] at hx
    rcases hx with rfl | rfl | rfl <;> exact ⟨_, rfl, ready_bench rfl, rfl⟩
  · decide +kernel

/-- A `phase` that comes first and one that another walker has opened; a `bar` that comes first, one whose unit is released and one that waits. -/
theorem witness_PhaseAndBarIssue :
    wellFormed (.phase 1 4) = true ∧ wellFormed (.bar 1 2 7) = true ∧ Ready (ctl 1) (bench 0 (unit 0)) 0 0 (stood 0 (unit 0)) ∧
      (stood 0 (unit 0)).bars.find? (fun b => b.word == ((stood 0 (unit 0)).wk 0).idx && b.ws.contains 0) = none ∧
      (∀ j, j < 4 → (1 : BitVec 4).toNat.testBit j = true → ((stood 0 (unit 0)).wk j).idx = ((stood 0 (unit 0)).wk 0).idx ∧ (stood 0 (unit 0)).stands j = true) ∧
      (∀ r ∈ [true, false], ∃ un b, un = { unit 0 with bars := [b] } ∧ b.released = r ∧ Ready (ctl 1) (bench 0 un) 0 0 (stood 0 un) ∧
        (stood 0 un).bars.find? (fun b => b.word == ((stood 0 un).wk 0).idx && b.ws.contains 0) = some b) ∧
      (stood 0 (unit 0)).phases.find? (fun q : PhaseState => q.waitsFor ((stood 0 (unit 0)).wk 0).idx 0) = none ∧
      ∃ un p, un = { unit 0 with phases := [p] } ∧ Ready (ctl 3) (bench 0 un) 0 0 (stood 0 un) ∧
        (stood 0 un).phases.find? (fun q : PhaseState => q.waitsFor ((stood 0 un).wk 0).idx 0) = some p := by
  refine ⟨rfl, rfl, ready_bench rfl, rfl, by decide +kernel, ?_, rfl,
    ⟨_, ⟨0, 4, [0, 1], [1], none, ⟨[], 0⟩, [1], false⟩, rfl, ready_bench rfl, rfl⟩⟩
  intro r hr
  simp only [List.mem_cons, List.not_mem_nil, or_false] at hr
  rcases hr with rfl | rfl <;> exact ⟨_, ⟨0, 7, 2, 0, 0, (unit 0).coverNow 0, [0], none, _⟩, rfl, rfl, ready_bench rfl, rfl⟩

theorem witness_MessagesIssue :
    Ready (ctl 1) (bench 0 (unit 0)) 0 0 (stood 0 (unit 0)) ∧ ownPort 0 [1] = false ∧
      fetch 0 (stood 0 (unit 0)) [1] = .ok ([Val.zero], stood 0 (unit 0)) ∧ ((stood 0 (unit 0)).wk 0).matched = false ∧
      ∃ un, un = (unit 0).setWk 0 (fun w => { w with matched := true }) ∧ Ready (ctl 1) (bench 0 un) 0 0 (stood 0 un) ∧ ((stood 0 un).wk 0).matched = true :=
  ⟨ready_bench rfl, rfl, rfl, rfl, _, rfl, ready_bench rfl, rfl⟩

/-- A lane-wise word; a function with `FTV` 1 and 0. -/
theorem witness_VectorWordsIssue :
    (vectorWord (.vadd 3 1 2 0 0)).isSome = true ∧ wellFormed (.vadd 3 1 2 0 0) = true ∧ (vectorWord (.vtanh 3 1 0)).map (·.fn) = some true ∧
      wellFormed (.vtanh 3 1 0) = true ∧ Ready { vecWord 2 with words := 1 } (bench 2 (unit 2)) 0 2 (stood 2 (unit 2)) ∧
      (stood 2 (unit 2)).full 2 = false ∧ Ready { vecWord 8 with words := 1 } (bench 2 (unit 2)) 0 2 (stood 2 (unit 2)) ∧ (stood 2 (unit 2)).ftv = 1 ∧
      ∃ un, un = { unit 2 with ftv := 0 } ∧ Ready { vecWord 8 with words := 1 } (bench 2 un) 0 2 (stood 2 un) ∧ (stood 2 un).ftv ≠ 1 :=
  ⟨rfl, rfl, rfl, rfl, ready_bench rfl, rfl, ready_bench rfl, rfl, _, rfl, ready_bench rfl, by decide⟩

theorem witness_VectorMovesIssue :
    wellFormed (.vbcast 3 1 0) = true ∧ Ready (vecWord 2) (bench 2 (unit 2)) 0 2 (stood 2 (unit 2)) ∧ ownPort 2 [1] = false ∧
      fetch 2 (stood 2 (unit 2)) [1] = .ok ([Val.zero], stood 2 (unit 2)) ∧ (stood 2 (unit 2)).qFull 8 = false ∧
      ∃ un v1, un = { unit 2 with queues := (unit 2).queues.set 2 ([⟨7, false⟩], 0) } ∧ Ready (vecWord 2) (bench 2 un) 0 2 (stood 2 un) ∧
        fetch 2 (stood 2 un) [12] = .ok ([⟨7, false⟩], v1) ∧ (stood 2 un).full 2 = false :=
  ⟨rfl, ready_bench rfl, rfl, rfl, rfl, _, _, rfl, ready_bench rfl, rfl, rfl⟩

/-- Seven and eight entries on the mask stack, none, and one; a mask with a lane and one without. -/
theorem witness_MaskWordsIssue :
    wellFormed (.vskip 5) = true ∧
      (∀ n ∈ [0, 1, 7, 8], ∃ un, un = { unit 2 with masks := List.replicate n (List.replicate 256 true) } ∧ Ready (vecWord 1) (bench 2 un) 0 2 (stood 2 un) ∧
        (stood 2 un).masks.length = n ∧ ((stood 2 un).vec 1).poison = false ∧ (stood 2 un).topMask.any id = true) ∧
      (∃ un, un = { unit 2 with v := (unit 2).v.set 1 ⟨List.replicate 256 1, true⟩ } ∧ Ready (vecWord 1) (bench 2 un) 0 2 (stood 2 un) ∧
        (stood 2 un).masks.length < 8 ∧ ((stood 2 un).vec 1).poison = true) ∧
      ∃ un, un = { unit 2 with masks := [List.replicate 256 false] } ∧ Ready (vecWord 1) (bench 2 un) 0 2 (stood 2 un) ∧
        (stood 2 un).topMask.any id = false ∧ ((stood 2 un).wk 2).idx + 5 < 65536 ∧ ((stood 2 un).wk 2).inner = none ∧
        (stood 2 un).slips 2 ((Walker.skipTo (stood 2 un).istore 0 true (((stood 2 un).wk 2).idx + 5) 65536 (((stood 2 un).wk 2).idx + 1)
          ((stood 2 un).wk 2)).count - ((stood 2 un).wk 2).count + 1) = false := by
  refine ⟨rfl, ?_, ⟨_, rfl, ready_bench rfl, by decide, rfl⟩, ⟨_, rfl, ready_bench rfl, by decide +kernel, by decide, rfl, by decide +kernel⟩⟩
  intro n hn
  simp only [List.mem_cons, List.not_mem_nil, or_false] at hn
  rcases hn with rfl | rfl | rfl | rfl <;> exact ⟨_, rfl, ready_bench rfl, rfl, rfl, by decide +kernel⟩

/-- Unit-stride lanes at 0, whose last lane ends at 1,024; a poisoned base; a poisoned data register; constants that end at the store's end. -/
theorem witness_VectorMemoryWordsIssue :
    wellFormed (.vld 3 1 0 0 0) = true ∧ wellFormed (.vst 3 1 0 0 0) = true ∧ wellFormed (.vldk 0 1 63) = true ∧ ownPort 2 (laneSources 0 1 0) = false ∧
      (∃ v use use', v = stood 2 (unit 2) ∧ Ready { vecWord 2 with early := true } (bench 2 (unit 2)) 0 2 v ∧ v.full 2 = false ∧
        fetch 2 v (laneSources 0 1 0) = .ok ([Val.zero], v) ∧ v.lanesPoison 0 [Val.zero] 0 0 = false ∧
        v.lanesGo v 0 0 0 (v.lanesAt 0 [Val.zero] 0 0) use ∧ v.lanesGo v 1 0 0 (v.lanesAt 0 [Val.zero] 0 0) use' ∧ (v.vec 3).poison = false) ∧
      (∃ un v, un = unitX 2 [(1, ⟨0, true⟩)] ∧ v = stood 2 un ∧ Ready { vecWord 2 with early := true } (bench 2 un) 0 2 v ∧
        fetch 2 v (laneSources 0 1 0) = .ok ([⟨0, true⟩], v) ∧ v.lanesPoison 0 [⟨0, true⟩] 0 0 = true) ∧
      (∃ un v, un = { unit 2 with v := (unit 2).v.set 3 ⟨List.replicate 256 0, true⟩ } ∧ v = stood 2 un ∧
        Ready { vecWord 2 with early := true } (bench 2 un) 0 2 v ∧ (v.vec 3).poison = true ∧ v.lanesAt 0 [Val.zero] 0 0 ≠ []) ∧
      ∀ x ∈ [(⟨0, true⟩ : Val), ⟨0x3FFF00, false⟩, ⟨0x3FFF04, false⟩], ∃ un v, un = unitX 2 [(1, x)] ∧ v = stood 2 un ∧ Ready (vecWord 2) (bench 2 un) 0 2 v ∧
        fetch 2 v [1] = .ok ([x], v) ∧ v.banksFree (bankUse 0 0 x.bits.toNat (4 * (63 + 1))) = true := by
  refine ⟨rfl, rfl, rfl, rfl, ⟨_, _, _, rfl, ready_bench rfl, rfl, rfl, rfl, ⟨by decide +kernel, by decide +kernel, rfl, by decide +kernel⟩,
    ⟨by decide +kernel, by decide +kernel, rfl, by decide +kernel⟩, rfl⟩, ⟨_, _, rfl, rfl, ready_bench rfl, rfl, rfl⟩,
    ⟨_, _, rfl, rfl, ready_bench rfl, rfl, by decide +kernel⟩, ?_⟩
  intro x hx
  simp only [List.mem_cons, List.not_mem_nil, or_false] at hx
  rcases hx with rfl | rfl | rfl <;> exact ⟨_, _, rfl, rfl, ready_bench rfl, rfl, rfl⟩

/-- A dense multiply with an acquire, and with none where the entries are there, in a lenient region; one without either in a strict region, and one
that waits for the entry of a fill that runs again; a form that the reset configuration does not fit. -/
theorem witness_MultipliesIssue :
    multiplyWord (.mma 0 2 1 0 2) = some (8, 0, 2, 1, 0, 2) ∧ multiplyWord (.mma 0 4095 0 0 0) = some (8, 0, 4095, 0, 0, 0) ∧
      wellFormed (.mma 0 2 1 0 2) = true ∧ wellFormed (.mma 0 4095 0 0 0) = true ∧ multiplyWord (.mmaQ 0 1 0 0 0) = some (10, 0, 1, 0, 0, 0) ∧
      wellFormed (.mmaQ 0 1 0 0 0) = true ∧ Ready (matWord 0 true) (bench 1 (unit 1)) 0 1 (stood 1 (unit 1)) ∧
      (stood 1 (unit 1)).shadow.accepts 8 = true ∧ (stood 1 (unit 1)).shadow.accepts 10 = false ∧
      ((bench 1 (unit 1)).region (stood 1 (unit 1)).region).strict = false ∧ (stood 1 (unit 1)).available 8 = false ∧
      (∃ un, un = { unit 1 with ska := [⟨[], [], false, false, false, 0, 0, 0, 0, true⟩] } ∧ Ready (matWord 0 true) (bench 1 un) 0 1 (stood 1 un) ∧
        (stood 1 un).refilling 8 = true) ∧
      ∃ un s, un = { unit 1 with region := 1 } ∧ s = { bench 1 un with regions := [fetchRegion, { fetchRegion with strict := true }] } ∧
        Ready (matWord 0 true) s 0 1 (stood 1 un) ∧ (s.region (stood 1 un).region).strict = true ∧ (stood 1 un).available 8 = false ∧
        (stood 1 un).refilling 8 = false := by
  refine ⟨rfl, rfl, rfl, rfl, rfl, rfl, ready_bench rfl, rfl, rfl, rfl, rfl, ⟨_, rfl, ready_bench rfl, rfl⟩, _, _, rfl, rfl, ?_, rfl, rfl, rfl⟩
  exact ⟨_, ⟨⟨rfl, rfl, rfl, by decide, ⟨0, rfl, by decide⟩, rfl, rfl, .inl rfl, by decide, rfl, .inr rfl, by decide, .inr rfl, rfl, rfl⟩, rfl⟩, rfl⟩

theorem witness_MatrixSettingWordsIssue :
    (msetWord (.msetFmt 0 4 4)).isSome = true ∧ wellFormed (.msetFmt 0 4 4) = true ∧ (msetRegWord (.msetScale 7)).isSome = true ∧
      wellFormed (.msetScale 7) = true ∧ wellFormed (.mprog 5) = true ∧ Ready (matWord 0 false) (bench 1 (unit 1)) 0 1 (stood 1 (unit 1)) ∧
      ownPort 1 [7] = false ∧ fetch 1 (stood 1 (unit 1)) [7] = .ok ([Val.zero], stood 1 (unit 1)) ∧ ownPort 1 [5] = false ∧
      (stood 1 (unit 1)).room 1 5 = true ∧ (stood 1 (unit 1)).mult = none ∧ (stood 1 (unit 1)).ksteps = [] ∧ (stood 1 (unit 1)).mland ≤ 0 ∧
      ∃ un, un = { unit 1 with mland := 1 } ∧ Ready (matWord 0 false) (bench 1 un) 0 1 (stood 1 un) ∧ (bench 1 un).now (stood 1 un) < (stood 1 un).mland :=
  ⟨rfl, rfl, rfl, rfl, rfl, ready_bench rfl, rfl, rfl, rfl, rfl, rfl, rfl, by decide, _, rfl, ready_bench rfl, by decide⟩

/-- An image that ends at the end of the store, one that begins 256 bytes later, and a poisoned address; a poisoned window. -/
theorem witness_AccumulatorWordsIssue :
    wellFormed (.mclr 3) = true ∧ wellFormed (.maccLd 3 1) = true ∧ wellFormed (.maccSt 3 1) = true ∧ wellFormed (.maccCvt 3 1 48 3 1 0) = true ∧
      Ready (matWord 1 true) (bench 1 (unit 1)) 0 1 (stood 1 (unit 1)) ∧ Ready (matWord 16 true) (bench 1 (unit 1)) 0 1 (stood 1 (unit 1)) ∧
      ownPort 1 [1] = false ∧
      (∀ x ∈ [(⟨0x3FC000, false⟩ : Val), ⟨0x3FC100, false⟩, ⟨0, true⟩], ∃ un v, un = unitX 1 [(1, x)] ∧ v = stood 1 un ∧
        Ready (matWord 64 true) (bench 1 un) 0 1 v ∧ fetch 1 v [1] = .ok ([x], v) ∧ v.banksFree (rowUse 0 0 (v.divisor 1) x.bits.toNat) = true ∧
        v.banksFree (rowUse 1 0 (v.divisor 1) x.bits.toNat) = true ∧ (v.window 3).poison = false) ∧
      ∃ un, un = { unit 1 with acc := (unit 1).acc.set 3 ⟨List.replicate 4096 0, true⟩ } ∧ Ready (matWord 64 true) (bench 1 un) 0 1 (stood 1 un) ∧
        ((stood 1 un).window 3).poison = true := by
  refine ⟨rfl, rfl, rfl, rfl, ready_bench rfl, ready_bench rfl, rfl, ?_, _, rfl, ready_bench rfl, rfl⟩
  intro x hx
  simp only [List.mem_cons, List.not_mem_nil, or_false] at hx
  rcases hx with rfl | rfl | rfl <;> exact ⟨_, _, rfl, rfl, ready_bench rfl, rfl, by decide +kernel, by decide +kernel, rfl⟩

/-- A move of 64 bytes whose source ends at the store's end, one that begins there, and one of a poisoned address. -/
theorem witness_CopyWordsIssue :
    moveWord (.cmov 0 4 5 6 0 0 0) = some (.cmov, 0, [4, 5, 6], 0, 0, 0) ∧ wellFormed (.cmov 0 4 5 6 0 0 0) = true ∧
      ownPort 3 [4, 5, 6] = false ∧
      (∀ a ∈ [(⟨0x3FFFC0, false⟩ : Val), ⟨0x400000, false⟩, ⟨0x3FFFC0, true⟩], ∃ un v x, un = unitX 3 [(4, ⟨0, false⟩), (5, a), (6, ⟨64, false⟩)] ∧ v = stood 3 un ∧
        Ready (cpyWord (some 0)) (bench 3 un) 0 3 v ∧ v.chans.length = 4 ∧ v.chFull 0 = false ∧ fetch 3 v [4, 5, 6] = .ok ([⟨0, false⟩, a, ⟨64, false⟩], v) ∧
        x = newCmd v .cmov 0 0 0 a.bits 64 ∧ x.valuesOk 0 = decide (a.bits.toNat < 0x400000) ∧ x.spanOk = true) ∧
      fillWord (.cfillA 0 0 4 5 0 0 0) = some (false, 0, 0, 4, 5, 0, 0, 0) ∧ wellFormed (.cfillA 0 0 4 5 0 0 0) = true ∧
      ∃ v x, v = stood 3 (unit 3) ∧ Ready (cpyWord (some 0)) (bench 3 (unit 3)) 0 3 v ∧ v.chans.length = 4 ∧ ownPort 3 [4, 5] = false ∧
        v.chFull 0 = false ∧ fetch 3 v [4, 5] = .ok ([Val.zero, Val.zero], v) ∧ x = { newCmd v .cfillA 0 0 0 0 0 with pattern := none } ∧
        ((bench 3 (unit 3)).region v.region).strict = false ∧ x.valuesOk 0 = true ∧ x.spanOk = true ∧
        (((bench 3 (unit 3)).setUnit 0 v).withPages 0 v x).groupsOk = true := by
  refine ⟨rfl, rfl, rfl, ?_, rfl, rfl, ⟨_, _, rfl, ready_bench rfl, rfl, rfl, rfl, rfl, rfl, rfl, by decide +kernel, by decide +kernel, by decide +kernel⟩⟩
  intro a ha
  simp only [List.mem_cons, List.not_mem_nil, or_false] at ha
  rcases ha with rfl | rfl | rfl <;> exact ⟨_, _, _, rfl, rfl, ready_bench rfl, rfl, rfl, rfl, rfl, by decide +kernel, by decide +kernel⟩

/-- Address 0 of the cluster store, one of the unit store, which an atomic may not name, and a poisoned operand; the result in a register
and, for `cas`, with its third operand. -/
theorem witness_AtomicWordsIssue :
    atomicWord (.catomAdd 0 4 5 6 0 0 0) = some (8, 0, 4, 5, 6, 0, 0, 0) ∧ atomicWord (.catomCas 0 4 5 6 0 0 0) = some (12, 0, 4, 5, 6, 0, 0, 0) ∧
      wellFormed (.catomAdd 0 4 5 6 0 0 0) = true ∧ wellFormed (.catomCas 0 4 5 6 0 0 0) = true ∧ ownPort 3 [4, 5, 6] = false ∧
      ∀ a ∈ [(⟨0x10000000, false⟩ : Val), ⟨0, false⟩, ⟨0x10000000, true⟩], ∃ un v x, un = unitX 3 [(5, a)] ∧ v = stood 3 un ∧
        Ready (cpyWord (some 0)) (bench 3 un) 0 3 v ∧ v.chans.length = 4 ∧ v.chFull 0 = false ∧ v.room 3 4 = true ∧
        fetch 3 v [5, 6] = .ok ([a, Val.zero], v) ∧ fetch 3 v [4, 5, 6] = .ok ([Val.zero, a, Val.zero], v) ∧
        x = newCmd v (.catom 8) 0 0 0 a.bits 0 ∧ x.valuesOk 0 = decide (a.bits ≠ 0) ∧ x.spanOk = true := by
  refine ⟨rfl, rfl, rfl, rfl, rfl, ?_⟩
  intro a ha
  simp only [List.mem_cons, List.not_mem_nil, or_false] at ha
  rcases ha with rfl | rfl | rfl <;>
    exact ⟨_, _, _, rfl, rfl, ready_bench rfl, rfl, rfl, rfl, rfl, rfl, rfl, by decide +kernel, by decide +kernel⟩

theorem witness_OtherCopyWordsIssue :
    wellFormed (.cbfx 0 4) = true ∧ wellFormed (.cinv 4 5) = true ∧ wellFormed (.cmark 0 4) = true ∧ wellFormed (.cxrd 0 4 0) = true ∧
      wellFormed (.cxwr 0 4 0) = true ∧ ownPort 3 [4] = false ∧ ownPort 3 [4, 5] = false ∧
      (∀ x ∈ [(⟨0x8000000000000000, false⟩ : Val), ⟨0, false⟩, ⟨0, true⟩, ⟨0x8000000000000000, true⟩], ∃ un v, un = unitX 3 [(4, x)] ∧ v = stood 3 un ∧
        Ready (cpyWord none) (bench 3 un) 0 3 v ∧ fetch 3 v [4] = .ok ([x], v) ∧ fetch 3 v [4, 5] = .ok ([x, Val.zero], v)) ∧
      patternOk 0x8000000000000000 = false ∧ patternOk 0 = true ∧
      ∃ s v, s = { bench 3 (unit 3) with crossings := [(0, crossing)] } ∧ v = stood 3 (unit 3) ∧ Ready (cpyWord (some 0)) s 0 3 v ∧
        v.chans.length = 4 ∧ v.chFull 0 = false ∧ fetch 3 v [4] = .ok ([Val.zero], v) ∧ find s.crossings (16 * dieOf 0 + 0) = some crossing ∧
        crossing.armed = true ∧ crossing.cons = 0 ∧ crossing.prod = 0 ∧
        ({ newCmd v .cxrd 0 0 0 0 0 with cross := 0, sample := 0, z := 64 } : Cmd).valuesOk 0 = true ∧
        ({ newCmd v .cxrd 0 0 0 0 0 with cross := 0, sample := 0, z := 64 } : Cmd).spanOk = true ∧
        ({ newCmd v .cxwr 0 0 0 0 0 with cross := 0, sample := 0, z := 64 } : Cmd).valuesOk 0 = true ∧
        ({ newCmd v .cxwr 0 0 0 0 0 with cross := 0, sample := 0, z := 64 } : Cmd).spanOk = true := by
  refine ⟨rfl, rfl, rfl, rfl, rfl, rfl, rfl, ?_, by decide +kernel, by decide +kernel, ⟨_, _, rfl, rfl, ?_, rfl, rfl, rfl, rfl, rfl, rfl, rfl, by decide +kernel,
    by decide +kernel, by decide +kernel, by decide +kernel⟩⟩
  · intro x hx
    simp only [List.mem_cons, List.not_mem_nil, or_false] at hx
    rcases hx with rfl | rfl | rfl | rfl <;> exact ⟨_, _, rfl, rfl, ready_bench rfl, rfl, rfl⟩
  · exact ⟨_, ⟨⟨rfl, rfl, rfl, by decide, ⟨0, rfl, by decide⟩, rfl, rfl, .inl rfl, by decide, rfl, .inr rfl, by decide, .inr rfl, rfl, rfl⟩, rfl⟩, rfl⟩

/-- `RCC`, an address that no register has, a port, `SLIPW` with a value at each end of its range and outside it, a read-only register. -/
theorem witness_SystemRegisterWordsIssue :
    csrListed 0x200 = true ∧ csrListed 0x112 = false ∧ csrWritable 0x101 = true ∧ csrWritable 0x103 = false ∧ wellFormed (.csrw 3 0x101) = true ∧
      wellFormed (.csrw 3 0x103) = true ∧ Ready sysWord (bench 0 (unit 0)) 0 0 (stood 0 (unit 0)) ∧ ownPort 0 [5] = false ∧ ownPort 0 [13] = false ∧
      isPort 13 = true ∧ isPort 5 = false ∧ (stood 0 (unit 0)).full 0 = false ∧ (stood 0 (unit 0)).room 0 13 = true ∧
      ∀ x ∈ [(⟨8, false⟩ : Val), ⟨1024, false⟩, ⟨1025, false⟩, ⟨8, true⟩], ∃ un v, un = unitX 0 [(3, x)] ∧ v = stood 0 un ∧ Ready sysWord (bench 0 un) 0 0 v ∧
        ownPort 0 [3] = false ∧ fetch 0 v [3] = .ok ([x], v) ∧ v.csrOk 0x101 x.bits = decide (x.bits.toNat ≤ 1024) := by
  refine ⟨rfl, rfl, rfl, rfl, rfl, rfl, ready_bench rfl, rfl, rfl, rfl, rfl, rfl, rfl, ?_⟩
  intro x hx
  simp only [List.mem_cons, List.not_mem_nil, or_false] at hx
  rcases hx with rfl | rfl | rfl | rfl <;> exact ⟨_, _, rfl, rfl, ready_bench rfl, rfl, rfl, by decide +kernel⟩

/-- In a loop; without a vector; within a trap; with a vector and none in progress; a return within a trap, to the last word and past it. -/
theorem witness_TrapAndReturn :
    (∃ v, v = stood 0 ((unit 0).setWk 0 fun w => { w with inner := some level }) ∧
      Ready sysWord (bench 0 ((unit 0).setWk 0 fun w => { w with inner := some level })) 0 0 v ∧ (v.wk 0).inner.isSome = true) ∧
      (∀ c ∈ [((0 : W64), (0 : W64)), (0x8000000000000040, 0x10000), (0x8000000000000040, 0)], ∃ un v, un = { unit 0 with tvec := c.1, tstat := c.2 } ∧
        v = stood 0 un ∧ Ready sysWord (bench 0 un) 0 0 v ∧ (v.wk 0).inner = none ∧ v.tvec = c.1 ∧ v.tstat = c.2) ∧
      ∀ e ∈ [(65535 : W64), 65536], ∃ un v, un = { unit 0 with tstat := 0x10000 }.setWk 0 (fun w => { w with epc := e }) ∧ v = stood 0 un ∧
        Ready sysWord (bench 0 un) 0 0 v ∧ v.tstat.getLsbD 16 = true ∧ (v.wk 0).inner = none ∧ (v.wk 0).epc = e := by
  refine ⟨⟨_, rfl, ready_bench rfl, rfl⟩, ?_, ?_⟩
  · intro c hc
    simp only [List.mem_cons, List.not_mem_nil, or_false] at hc
    rcases hc with rfl | rfl | rfl <;> exact ⟨_, _, rfl, rfl, ready_bench rfl, rfl, rfl, rfl⟩
  · intro e he
    simp only [List.mem_cons, List.not_mem_nil, or_false] at he
    rcases he with rfl | rfl <;> exact ⟨_, _, rfl, rfl, ready_bench rfl, rfl, rfl, rfl⟩

/-- A request of the cycle before, one of this cycle; a level that is active; a quiescent unit and one with a move under way. -/
theorem witness_UnitControlWordsIssue :
    wellFormed (.clkdiv 1 1) = true ∧ wellFormed (.hint 2) = true ∧
      (∃ un v, un = { unit 0 with request := some 0 } ∧ v = un.standing 0 1 ∧
        Ready sysWord { bench 0 un with regions := [{ fetchRegion with rcc := 1 }] } 0 0 v ∧ v.request = some 0 ∧ ∀ w ∈ v.walkers, w.inner = none) ∧
      (∃ un v, un = { unit 0 with request := some 0 } ∧ v = stood 0 un ∧ Ready sysWord (bench 0 un) 0 0 v ∧ v.request = some 0 ∧ (bench 0 un).now v ≤ 0) ∧
      (∃ un v, un = (unit 0).setWk 0 (fun w => { w with inner := some level }) ∧ v = stood 0 un ∧ Ready sysWord (bench 0 un) 0 0 v ∧
        (v.wk 0).inner.isSome = true ∧ ∃ w ∈ v.walkers, w.inner.isSome = true) ∧
      Ready sysWord (bench 0 (unit 0)) 0 0 (stood 0 (unit 0)) ∧ ((stood 0 (unit 0)).wk 0).inner = none ∧ (stood 0 (unit 0)).quiescent 0 = true ∧
      ∃ un v, un = { unit 0 with mland := 9 } ∧ v = stood 0 un ∧ Ready sysWord (bench 0 un) 0 0 v ∧ (v.wk 0).inner = none ∧ v.quiescent 0 = false := by
  refine ⟨rfl, rfl, ⟨_, _, rfl, rfl, ?_, rfl, ?_⟩, ⟨_, _, rfl, rfl, ready_bench rfl, rfl, by decide⟩, ⟨_, _, rfl, rfl, ready_bench rfl, rfl, ?_⟩, ready_bench rfl, rfl,
    by decide +kernel, ⟨_, _, rfl, rfl, ready_bench rfl, rfl, by decide +kernel⟩⟩
  · exact ⟨_, ⟨⟨rfl, rfl, rfl, by decide, ⟨0, rfl, by decide⟩, rfl, rfl, .inl rfl, by decide, rfl, .inl rfl, by decide, .inr rfl, rfl, rfl⟩, rfl⟩, rfl⟩
  · decide +kernel
  · exact ⟨_, List.mem_cons_self, rfl⟩

/-- A running unit; under policy 1; one that stopped a cycle ago; `bkpt`; a word that breaks a limit and
ones that spell nothing, the vector engine free and held. -/
theorem witness_FaultsStop :
    ((bench 0 (unit 0)).unit? 0 = some (unit 0) ∧ (unit 0).run = .running ∧ (unit 0).stop = none) ∧
      (∃ s : State, ∃ un, s = { bench 0 { unit 0 with run := .stopped, stop := some stopped } with regions := [{ fetchRegion with rcc := 1 }] } ∧
        s.unit? 0 = some un ∧ un.run = .stopped ∧ un.stop = some stopped ∧ stopped.cycle ≠ s.now un) ∧
      (Ready sysWord (bench 0 (unit 0)) 0 0 (stood 0 (unit 0)) ∧ (stood 0 (unit 0)).run = .running ∧ (stood 0 (unit 0)).stop = none ∧
        ((stood 0 (unit 0)).wk 0).inner = none) ∧
      Ready (rawInfo 0x0B180000) (bench 0 (unit 0)) 0 0 (stood 0 (unit 0)) ∧ decodeNat 0x0B180000 0 0 = .ok (.cmpEq 1 12 0 0) ∧
      wellFormed (.cmpEq 1 12 0 0) = false ∧ (stood 0 (unit 0)).vfree ≤ 0 ∧ (stood 0 (unit 0)).mfree ≤ 0 ∧ (stood 0 (unit 0)).mult = none ∧
      (Ready (rawInfo 0x0FC00000) (bench 0 (unit 0)) 0 0 (stood 0 (unit 0)) ∧ (∃ e, decodeNat 0x0FC00000 0 0 = .error e) ∧
        (stood 0 (unit 0)).busy 0 (undecodedInfo 0x0FC00000) = false) ∧
      (∃ un, un = { unit 2 with vfree := 1 } ∧ Ready (rawInfo 0xAF000000) (bench 2 un) 0 2 (stood 2 un) ∧ (∃ e, decodeNat 0xAF000000 0 0 = .error e) ∧
        (stood 2 un).busy 0 (undecodedInfo 0xAF000000) = true) ∧
      ∃ s : State, s = { bench 0 (unit 0) with rcbs := [{ rcb with policy := 1 }] } ∧ s.unit? 0 = some (unit 0) ∧
        (s.rcbOf (unit 0)).map (·.policy) = some 1 ∧ (unit 0).region < s.regions.length ∧ (s.region (unit 0).region).stopAt = none :=
  ⟨⟨rfl, rfl, rfl⟩, ⟨_, _, rfl, rfl, rfl, rfl, by decide⟩, ⟨ready_bench rfl, rfl, rfl, rfl⟩, ready_bench rfl, rfl, rfl, by decide, by decide, rfl,
    ⟨ready_bench rfl, ⟨_, rfl⟩, rfl⟩, ⟨_, rfl, ready_bench rfl, ⟨_, rfl⟩, rfl⟩, ⟨_, rfl, rfl, rfl, by decide, rfl⟩⟩

/-- A descriptor of zeros, which leaves its trigger unarmed, in the last 32 bytes of the store; the address behind it; a poisoned one;
a word of it in error. -/
theorem witness_TrigIssues :
    ownPort 0 [1] = false ∧
      (∀ x ∈ [(⟨0x3FFFE0, false⟩ : Val), ⟨0x400000, false⟩, ⟨0x3FFFE0, true⟩], ∃ un v, un = unitX 0 [(1, x)] ∧ v = stood 0 un ∧ Ready sysWord (bench 0 un) 0 0 v ∧
        fetch 0 v [1] = .ok ([x], v) ∧ v.trigs.length = 16 ∧ v.banksFree [(1, 0, x.bits.toNat / 64)] = true ∧
        v.badAt x.bits.toNat 32 = false ∧
        [(0 : W64), 0, 0, 0] = (List.range 4).map (fun i => BitVec.ofNat 64 (leNat ((List.range 8).map fun b =>
          (v.storeNow 0).readBy (seesLoad 0) (x.bits.toNat + 8 * i + b))))) ∧
      (∃ un v, un = { unitX 0 [(1, ⟨0x3FFFE0, false⟩)] with badWords := [0x7FFFF] } ∧ v = stood 0 un ∧ Ready sysWord (bench 0 un) 0 0 v ∧
        v.badAt 0x3FFFE0 32 = true) ∧
      condOk 0 = true ∧ (0 : W64).toNat < 2 ^ 21 ∧ (0 : W64).toNat / 2 ^ 19 % 4 ≠ 3 ∧ trigAddrOk 0 (0 : W64).toNat = true := by
  refine ⟨rfl, ?_, ⟨_, _, rfl, rfl, ready_bench rfl, by decide⟩, rfl, by decide, by decide, by decide +kernel⟩
  intro x hx
  simp only [List.mem_cons, List.not_mem_nil, or_false] at hx
  rcases hx with rfl | rfl | rfl <;> exact ⟨_, _, rfl, rfl, ready_bench rfl, rfl, rfl, rfl, rfl, by decide +kernel⟩

/-- The address of a block, one of another kind, one between blocks and a poisoned one; a unit that is not quiescent. -/
theorem witness_ContextWordsFreeze :
    (∀ x ∈ [(⟨0x8000000000010000, false⟩ : Val), ⟨0x10000, false⟩, ⟨0x8000000000010040, false⟩, ⟨0, true⟩], ∃ un v, un = unitX 0 [(1, x)] ∧ v = stood 0 un ∧
        Ready sysWord (bench 0 un) 0 0 v ∧ fetch 0 v [1] = .ok ([x], v) ∧ v.quiescent 0 = true ∧ (∀ w ∈ v.walkers, w.inner = none) ∧ v.run = .running ∧
        v.stop = none) ∧
      (∃ un v, un = { unit 0 with mland := 9 } ∧ v = stood 0 un ∧ Ready sysWord (bench 0 un) 0 0 v ∧ v.quiescent 0 = false) ∧
    ∃ un v, un = unitX 0 [(1, ⟨0x8000000000010000, false⟩)] ∧ v = stood 0 un ∧ Ready sysWord (bench 0 un) 0 0 v ∧ ownPort 0 [1] = false ∧
      fetch 0 v [1] = .ok ([⟨0x8000000000010000, false⟩], v) ∧ v.quiescent 0 = true ∧ (∀ w ∈ v.walkers, w.inner = none) ∧
      (0x8000000000010000 : W64).toNat / 2 ^ 48 = 2 ^ 15 ∧ (0x8000000000010000 : W64).toNat % 65536 = 0 :=
  ⟨fun x hx => by
      simp only [List.mem_cons, List.not_mem_nil, or_false] at hx
      rcases hx with rfl | rfl | rfl | rfl <;> exact ⟨_, _, rfl, rfl, ready_bench rfl, rfl, by decide +kernel, by decide +kernel, rfl, rfl⟩,
    ⟨_, _, rfl, rfl, ready_bench rfl, by decide +kernel⟩, ⟨_, _, rfl, rfl, ready_bench rfl, rfl, rfl, by decide +kernel, by decide +kernel, by decide, by decide⟩⟩

/-- Unit 0 with one result that is due in cycle 0. -/
def landing (e : Eff) : Machine.Unit := { unit 0 with pend := [⟨0, 1, 0, e⟩] }

theorem landing_meets (e : Eff) : ∃ un v p, (bench 0 (landing e)).unit? 0 = some un ∧ un.nextLanding ((bench 0 (landing e)).now un) = some p ∧
    v = un.unlist p ∧ p.eff = e ∧ v.steers = (unit 0).steers ∧ v.v = (unit 0).v ∧ v.store = Store.zero ∧ v.badWords = [] :=
  ⟨_, _, ⟨0, 1, 0, e⟩, rfl, rfl, rfl, rfl, rfl, rfl, rfl, rfl⟩

/-- Each kind of result, a load of the last byte of the store among them; no load of a word in error. -/
theorem witness_ResultsLand :
    (landing (.x 0 5 ⟨1, false⟩)).loadUe 0 = none ∧ (landing (.ext 0 0 ⟨1, false⟩)).loadUe 0 = none ∧ (landing (.push 1 ⟨1, true⟩ false)).loadUe 0 = none ∧
      (landing (.load 0 5 none 0x3FFFFF 1 true 0)).loadUe 0 = none ∧ (unit 0).badAt 0x3FFFFF 1 = false ∧ (landing (.flags 0 flagPS)).loadUe 0 = none ∧
      (landing (.pclr 0)).loadUe 0 = none :=
  ⟨rfl, rfl, rfl, rfl, rfl, rfl, rfl⟩

theorem witness_StoresArePerformed :
    (landing (.store 0 0 (cellsAt 0x3FFFFC [1, 2, 3, 4]))).loadUe 0 = none ∧ (∀ w ∈ Store.zero.log, w.at_ < 0) := ⟨rfl, by decide⟩

/-- A steer write of C whose T is copied, on an empty history; lanes 0 and 255; the others without operands. -/
theorem witness_SharedResultsLand :
    (∃ w : SteerWrite, w = ⟨2, 5, 0, some (true, false), none, 0, [], none, false, false⟩ ∧ (landing (.steer w)).loadUe 0 = none ∧
        (unit 0).steers[w.reg]? = some ⟨[], 0⟩ ∧ w.seq = none ∧ w.squashed = false ∧ w.inBody = false ∧ w.tag = []) ∧
      ((unit 0).v[3]? = some ⟨List.replicate 256 0, false⟩ ∧ (List.replicate 256 (0 : W32)).length = 256 ∧
        ([(0, 5), (255, 6)].map (fun e : Nat × W32 => e.1)).Nodup ∧ ∀ e ∈ [((0 : Nat), (5 : W32)), (255, 6)], e.1 < 256) ∧
      (landing (.latch Cfg.reset)).loadUe 0 = none ∧ (landing (.probe 0 4)).loadUe 0 = none ∧ (landing (.mclr 3)).loadUe 0 = none ∧ (landing (.trapIn 5 8191)).loadUe 0 = none ∧ (landing .trapOut).loadUe 0 = none :=
  ⟨⟨_, rfl, rfl, rfl, rfl, rfl, rfl, rfl⟩, ⟨rfl, List.length_replicate, by decide, by decide⟩, rfl, rfl, rfl, rfl, rfl⟩

/-- A word of a stage that is not live; a pass about to start; one that does not run, in a level that drains from pass 1. -/
theorem witness_LoopPassesStart :
    (∃ un v, un = (unit 0).setWk 0 (fun w => { w with idx := 1, inner := some { level with pass := 9 } }) ∧ v = un.standing 0 0 ∧
        (plainInfo (.add 1 5 1 2)).isSome = true ∧ Dead (ctl 1) (bench 0 un) 0 0 v) ∧
      (∃ un l, un = (unit 0).setWk 0 (fun w => { w with inner := some l }) ∧ l = { level with started := false } ∧ (bench 0 un).unit? 0 = some un ∧
        un.walkers.length = 4 ∧ (un.wk 0).slot = .walking 0 ∧ (un.wk 0).inner = some l ∧ l.started = false ∧ (un.wk 0).ready ≤ (un.wk 0).ic ∧
        (un.wk 0).stopped = false ∧ un.run = .running ∧ un.request = none ∧ un.p0 = none ∧ l.drain = none) ∧
      ∃ un l, un = { (unit 0).setWk 0 (fun w => { w with inner := some l }) with p0 := some 0 } ∧
        l = { level with started := false, pass := 2, drain := some 1 } ∧ (bench 0 un).unit? 0 = some un ∧ (un.wk 0).inner = some l ∧
        un.p0 = some 0 ∧ 0 ≤ (bench 0 un).now un ∧ 1 < l.trip ∧ l.runs l.pass = false :=
  ⟨⟨_, _, rfl, rfl, rfl, _, ⟨rfl, rfl, rfl, by decide, ⟨0, rfl, by decide⟩, rfl, rfl, .inl rfl, by decide, rfl, .inl rfl, by decide, .inl rfl, rfl, rfl⟩, by decide, rfl⟩,
    ⟨_, _, rfl, rfl, rfl, rfl, rfl, rfl, rfl, by decide, rfl, rfl, rfl, rfl, rfl⟩, ⟨_, _, rfl, rfl, rfl, rfl, rfl, by decide, by decide, by decide⟩⟩

theorem witness_BoundariesComplete :
    (∃ un p, un = { unit 0 with phases := [p] } ∧ p = ⟨0, 0, [0], [0], some 0, ⟨[], 0⟩, [0], false⟩ ∧ (benchAt 99 un).unit? 0 = some un ∧ p ∈ un.phases ∧ 0 ∈ p.held ∧
        p.done = false ∧ p.at_ = some 0 ∧ un.settled p.cover = true ∧ max 0 p.cover.last + un.lsc p.scope ≤ (benchAt 99 un).now un ∧
        ∀ q ∈ un.phases, 0 ∈ q.held → q = p) ∧
      (∃ un a, un = { unit 0 with bars := [a] } ∧ a = ⟨0, 7, 0, 0, 0, ⟨[], 0⟩, [0], none, false⟩ ∧ (benchAt 99 un).unit? 0 = some un ∧
        (un.bars.filter fun a => a.id == 7 && a.tb.isNone) = [a] ∧ (benchAt 99 un).barrierDone 0 un a = some (un.lsc 0, [(0, a)]) ∧ un.lsc 0 ≤ (benchAt 99 un).now un) ∧
      (∃ un a, un = { unit 0 with bars := [a] } ∧ a = ⟨0, 7, 2, 0, 0, ⟨[], 0⟩, [0], some 0, false⟩ ∧ (benchAt 99 un).unit? 0 = some un ∧ a.tb = some 0 ∧
        (un.bars.find? fun a => !a.released && (match a.tb with | some t => decide (t + un.baroff ≤ (benchAt 99 un).now un) | none => false)) = some a) ∧
      ∃ s snd un x, s = { bench 0 (unit 0) with units := [(0, un), (1, snd)] } ∧ x = ⟨0, 0, ⟨7, false⟩, 0⟩ ∧ snd = { unit 0 with outbox := [x] } ∧
        un = { (unit 0) with istore := [0x08000000 ||| 0x06C00001 ||| (5 <<< 17) ||| (1 <<< 12)] } ∧ s.unit? 1 = some snd ∧ clusterOf 1 = clusterOf 0 ∧
        (snd.outbox.filter fun x => x.dst == 0 && decide (x.arrive ≤ s.now snd)) = [x] ∧ un.region = snd.region ∧ un.run = .running ∧
        un.receives 0 (inCluster 1) = some 5 := by
  refine ⟨⟨_, _, rfl, rfl, rfl, List.mem_cons_self, List.mem_cons_self, rfl, rfl, rfl, by decide, ?_⟩, ⟨_, _, rfl, rfl, rfl, rfl, rfl, by decide⟩,
    ⟨_, _, rfl, rfl, rfl, rfl, rfl⟩, ⟨_, _, _, _, rfl, rfl, rfl, rfl, rfl, rfl, rfl, rfl, rfl, rfl⟩⟩
  intro q hq _
  exact List.mem_singleton.mp hq

/-- An entry that has landed. -/
def skein : SkEntry := ⟨[], [], false, false, true, 0, 0, 0, 0, false⟩

/-- A multiply of one dense k-step. -/
def mult : Mult :=
  { op := 8, acc := 0, n := 1, d := 1, acq := false, rel := false, scope := 0, cfg := Cfg.reset, next := 0, startAt := 99, resumed := false, seq := 0
    waiting := false, freeAt := 0, relBase := none, cover := ⟨[], 0⟩, relAt := none }

/-- A k-step in flight. -/
def kstep (endAt landAt : Nat) (ended : Bool) : KStep :=
  { op := 8, acc := 0, j := 0, d := 1, cfg := Cfg.reset, a := [skein], b := [skein], pa := [], pb := [], start := 0, endAt, landAt, seq := 0, ended, paired := false }

theorem witness_KStepsRun :
    (∃ un, un = { unit 1 with mult := some mult, ska := [skein], skb := [skein] } ∧ (benchAt 99 un).unit? 0 = some un ∧ un.unmatched 99 = none ∧
        un.mult = some mult ∧ mult.next < mult.n ∧ mult.startAt ≤ (benchAt 99 un).now un ∧ mult.waiting = false ∧ un.run = .running ∧
        ((benchAt 99 un).region un.region).openCyc = true ∧ un.available mult.op = true) ∧
      (∃ un, un = { unit 1 with mult := some mult, ksteps := [kstep 99 107 false] } ∧ (benchAt 99 un).unit? 0 = some un ∧
        (un.ksteps.find? fun k => !k.ended && decide (k.endAt ≤ (benchAt 99 un).now un)) = some (kstep 99 107 false)) ∧
      ∃ un, un = { unit 1 with ksteps := [kstep 91 99 true] } ∧ (benchAt 99 un).unit? 0 = some un ∧
        un.kLanding ((benchAt 99 un).now un) = some (kstep 91 99 true) ∧ (kstep 91 99 true).acc < un.acc.length :=
  ⟨⟨_, rfl, rfl, rfl, rfl, by decide, by decide, rfl, rfl, rfl, rfl⟩, ⟨_, rfl, rfl, rfl⟩, ⟨_, rfl, rfl, rfl, by decide⟩⟩

/-- A translation that succeeds and one that fails, on channel 1; a walk and a resident re-walk that find a page. -/
theorem witness_TranslationsEnd :
    (∀ f ∈ [none, some (Cause.xlate, 64)], ∃ un x, un = { unit 3 with chans := (unit 3).chans.set 1 ⟨1, 0, 0, [x], 0, none⟩ } ∧
        x = { move with chan := 1, xlAt := some 99, xlFault := f } ∧ (benchAt 99 un).unit? 0 = some un ∧
        ((un.ch 1).cmds.find? fun x => x.xlAt == some ((benchAt 99 un).now un)) = some x ∧ x.xlFault = f) ∧
      (∃ s w, s = { paged (benchAt 99 (unit 3)) with walks := [(0, w)] } ∧ w = ⟨0, 2 ^ 30, false, 0, some 0, 99⟩ ∧ s.unit? w.unit = some (unit 3) ∧
        (s.walks.filter fun w => w.1 == 0 && (match s.unit? w.2.unit with | some un => decide (w.2.ends ≤ s.now un) | none => true)) = [(0, w)] ∧
        (s.walk (unit 3).part w.va).2 = some page ∧ (unit 3).cache = []) ∧
      ∃ s w, s = { paged (benchAt 99 (unit 3)) with walks := [(0, w)] } ∧ w = ⟨0, 2 ^ 30, true, 0, some 0, 99⟩ ∧ s.unit? 0 = some (unit 3) ∧
        (s.walks.find? fun w => w.2.unit == 0 && w.2.resident && decide (w.2.ends ≤ s.now (unit 3))) = some (0, w) ∧
        (s.walk (unit 3).part w.va).2 = some page := by
  refine ⟨?_, ⟨_, _, rfl, rfl, rfl, rfl, by decide +kernel, rfl⟩, ⟨_, _, rfl, rfl, rfl, rfl, by decide +kernel⟩⟩
  intro f hf
  simp only [List.mem_cons, List.not_mem_nil, or_false] at hf
  rcases hf with rfl | rfl <;> exact ⟨_, _, rfl, rfl, rfl, rfl, rfl⟩

theorem witness_BeatsIssue :
    ∃ un p, un = moving move ∧ p = move.plan 0 move.next ∧ (benchAt 99 un).unit? 0 = some un ∧ 0 < un.chans.length ∧ un.run = .running ∧
      (benchAt 99 un).stage ≠ stageFault ∧ ((benchAt 99 un).region un.region).openCyc = true ∧ isIssue (un.divisor 3) ((benchAt 99 un).now un) = true ∧ un.ctx = none ∧
      (un.ch 0).current = some move ∧ move.chan = 0 ∧ move.from_ ≤ 99 ∧ move.xlFault = none ∧ (un.ch 0).held 99 move = false ∧
      ((benchAt 99 un).region un.region).steps = 0 ∧ move.op ≠ .cfillA ∧ move.op ≠ .cfillB ∧ un.fits 99 p = true ∧
      un.banksFree (p.banks 99 (un.readyAt 0 99 p)) = true ∧ ∀ t, (benchAt 99 un).tryBeat 0 0 = .issued t → t.tryBeat 0 0 = .stop := by
  refine ⟨_, _, rfl, rfl, rfl, by decide, rfl, by decide, rfl, rfl, rfl, rfl, rfl, by decide, rfl, rfl, rfl, by decide, by decide, by decide +kernel, by decide +kernel, ?_⟩
  intro t h
  have g : (match (benchAt 99 (moving move)).tryBeat 0 0 with
    | .issued t => (match t.tryBeat 0 0 with | .stop => true | _ => false)
    | _ => true) = true := by decide +kernel
  rw [h] at g
  dsimp only at g
  split at g
  · assumption
  · cases g

/-- Where no channel is held, every hold has its owner. -/
theorem owned_of {s : State} (h : (s.units.all fun e => e.2.chans.all fun ch => ch.hold.isNone) = true) : s.holdsOwned := by
  intro e he ch hc x hx
  have := List.all_eq_true.mp (List.all_eq_true.mp h e he) ch hc
  rw [hx] at this
  cases this

/-- A beat whose data is ready; one that has it; the same late; one whose data is late and one that waits for it. -/
theorem witness_BeatsMoveBytes :
    (∃ un q, un = { unit 3 with beats := [beat] } ∧ (benchAt 99 un).unit? 0 = some un ∧ (benchAt 99 un).ueDue 0 un = none ∧ un.samplingDue 99 = [] ∧
        (un.beats.filter fun b => b.plain && !b.got && !b.late && !b.unanswered && decide (b.readAt ≤ 99)) = [beat] ∧ beat.plan.reads = [q] ∧
        q.space = .unit ∧ beat.plan.shape = .raw ∧ q.n = beat.plan.n ∧ un.badAt q.addr q.n = false ∧ beat.ue = false) ∧
      (∀ l ∈ [true, false], ∃ un b q, un = { unit 3 with beats := [b] } ∧ b = { beat with got := true, data := List.replicate 64 7, late := l } ∧
        (benchAt 99 un).unit? 0 = some un ∧ un.writesDue 99 = [b] ∧ b.plan.sink = .mem q ∧ q.space = .unit ∧ b.watch = [] ∧ b.late = l ∧ b.ue = false ∧ (benchAt 99 un).holdsOwned) ∧
      ∃ un b, un = { unit 3 with beats := [b] } ∧ b = { beat with late := true } ∧ (benchAt 99 un).unit? 0 = some un ∧
        (un.beats.filter fun b => b.plain && !b.got && (b.late || b.unanswered) && decide (b.readAt ≤ 99)) = [b] := by
  refine ⟨⟨_, _, rfl, rfl, rfl, rfl, by decide +kernel, rfl, rfl, rfl, rfl, by decide +kernel, rfl⟩, ?_, ⟨_, _, rfl, rfl, rfl, by decide +kernel⟩⟩
  intro l hl
  simp only [List.mem_cons, List.not_mem_nil, or_false] at hl
  rcases hl with rfl | rfl <;> exact ⟨_, _, _, rfl, rfl, rfl, by decide +kernel, rfl, rfl, rfl, rfl, rfl, owned_of rfl⟩

/-- An atomic add of 8 bytes at the start of cluster store 0, due to be performed; performed, its result due; a move that has ended; a
crossing whose sample is in. -/
theorem witness_AtomicsAndCompletion :
    (∃ un b q x, un = { moving x with beats := [b] } ∧ x = { move with op := .catom 8, a := 0x10000000, b := 1 } ∧
        b = { beat with plan := ⟨[], .atomic q, .raw, 8, []⟩ } ∧ q = ⟨.cluster 0, 0, 8, 0⟩ ∧ (benchAt 99 un).unit? 0 = some un ∧
        (un.beats.filter fun b => !b.plain && !b.performed && decide (b.performAt ≤ 99)) = [b] ∧ b.plan.sink = .atomic q ∧ un.cmdOf b = some x ∧
        (benchAt 99 un).badIn (.cluster 0) q.addr q.n = false ∧
        atomNew x.atomOp (leNat (((benchAt 99 un).storeOf (.cluster 0)).bytes q.addr q.n)) x.d x.b = (some 1, 0) ∧
        (∀ w ∈ ((benchAt 99 un).storeOf (.cluster 0)).log, w.at_ < 99)) ∧
      (∃ un b q x, un = { moving x with beats := [b] } ∧ x = { move with op := .catom 8, a := 0x10000000, b := 1, dest := some (.inl 5) } ∧
        b = { beat with plan := ⟨[], .atomic q, .raw, 8, []⟩, performed := true, data := List.replicate 8 0 } ∧ q = ⟨.cluster 0, 0, 8, 0⟩ ∧
        (benchAt 99 un).unit? 0 = some un ∧
        (un.beats.filter fun b => !b.plain && b.performed && !b.got && decide (b.readAt ≤ 99)) = [b] ∧ (∀ p, q.space ≠ .remote p) ∧ un.cmdOf b = some x ∧
        x.dest = some (.inl 5) ∧ b.late = false ∧ b.ue = false ∧ b.flags = 0) ∧
      (∃ un x, un = moving x ∧ x = { move with next := 1 } ∧ (benchAt 99 un).unit? 0 = some un ∧ (un.ch 0).cmds = [x] ∧ x.chan = 0 ∧ x.complete = false ∧
        x.compAt = none ∧ x.poison = false ∧ x.beats ≤ x.next ∧ x.rel = false ∧ x.xlFault = none ∧ x.op = .cmov ∧ x.doneAt ≤ 99) ∧
      ∃ (s : State) (xr : Crossing), s = { benchAt 99 (unit 3) with crossings := [(0, xr)] } ∧ xr.inbox = [(0, 99, List.replicate 64 7, false)] ∧ xr.entered = 0 ∧
        find s.crossings (16 * 0 + 0) = some xr ∧ s.unit? xr.prod = some (unit 3) ∧
        (xr.inbox.find? fun e => e.1 == xr.entered && decide (e.2.1 ≤ 99)) = some (0, 99, List.replicate 64 7, false) := by
  refine ⟨⟨_, _, _, _, rfl, rfl, rfl, rfl, rfl, by decide +kernel, rfl, by decide +kernel, by decide +kernel, by decide +kernel, by decide +kernel⟩,
    ⟨_, _, _, _, rfl, rfl, rfl, rfl, rfl, by decide +kernel, fun p => by simp, by decide +kernel, rfl, rfl, rfl, rfl⟩,
    ⟨_, _, rfl, rfl, rfl, rfl, rfl, rfl, rfl, rfl, by decide, rfl, rfl, rfl, by decide⟩, ?_⟩
  exact ⟨_, { crossing with inbox := [(0, 99, List.replicate 64 7, false)], wrN := 1 }, rfl, rfl, rfl, rfl, rfl, rfl⟩

/-- A context load, and a save, of the unit's context at 2^30 + 2^20, which ends in cycle 99. -/
def context (load : Bool) : Ctx :=
  { load, t := 0, va := 2 ^ 30 + 2 ^ 20, xlAt := none, xlFault := none, pages := [page], checkAt := none, endAt := 99, first := 18, lo := 1, seed := 0, image := [], bad := [], resp := []
    ue := false }

/-- A context header at PA 2^20: magic, version 1, kind 1, size, sequence number 1. -/
def headed : Store :=
  ⟨[(0x10000, 1), (0x10002, 1), (0x10010, 0x0F), (2 ^ 20, 0x7C), (2 ^ 20 + 1, 0x0C), (2 ^ 20 + 2, 0x16), (2 ^ 20 + 3, 0x0D), (2 ^ 20 + 4, 1), (2 ^ 20 + 6, 1),
    (2 ^ 20 + 10, 0x50), (2 ^ 20 + 56, 1)], []⟩

/-- A frozen unit with that command. -/
def frozen (c : Ctx) : Machine.Unit := { unit 0 with run := .frozen, ctx := some c }

/-- Its log being empty, no write is newer than the unit's. -/
theorem newest_of {s : State} (h : s.dram.log = []) (u : Nat) (un : Machine.Unit) : s.newest u un := by
  intro w hw
  rw [h] at hw
  cases hw

theorem resumed_inflight {un : Machine.Unit} (k : Nat) (l : Level) (h : ∀ w ∈ un.walkers, w.inflight = []) :
    ∀ w ∈ (if l.started then un.goOn k else un.reopen k l).walkers, w.inflight = [] := by
  have hm : ∀ (ws : List Walker) (k : Nat) (f : Walker → Walker), (∀ w, w.inflight = [] → (f w).inflight = []) → (∀ w ∈ ws, w.inflight = []) →
      ∀ w ∈ modify ws k f, w.inflight = [] := by
    intro ws
    induction ws with
    | nil => intro k f _ _ w hw; exact absurd (show w ∈ ([] : List Walker) from hw) List.not_mem_nil
    | cons a t ih =>
      intro k f hf hw w hx
      cases k with
      | zero =>
        rcases List.mem_cons.mp hx with rfl | hx
        · exact hf _ (hw a List.mem_cons_self)
        · exact hw w (List.mem_cons_of_mem _ hx)
      | succ k =>
        rcases List.mem_cons.mp hx with rfl | hx
        · exact hw w List.mem_cons_self
        · exact ih k f hf (fun w hw' => hw w (List.mem_cons_of_mem _ hw')) w hx
  split
  · refine hm _ k (fun _ => (un.wk k).wrap.1) (fun w _ => ?_) h
    show (un.wk k).wrap.1.inflight = []
    rw [(Walker.wrap_alike (un.wk k)).inflight]
    by_cases hk : k < un.walkers.length
    · rw [Unit.wk, List.getD_eq_getElem?_getD, List.getElem?_eq_getElem hk]
      exact h _ (List.getElem_mem hk)
    · rw [Unit.wk, List.getD_eq_getElem?_getD, List.getElem?_eq_none (by omega)]
      rfl
  · exact hm _ k _ (fun _ h => h) h

/-- The walkers of a record whose places of results in flight are all empty have nothing in flight. -/
theorem load_settled (m : Img) (un : Machine.Unit) (kind : Nat) (h : ∀ a, 64 ≤ a → m.get a 1 = 0) : ∀ j, ((m.load un kind).wk j).settled := by
  have hw : ∀ a k old is sq, (m.walker (0x100 + a) k old is sq).inflight = [] := by
    intro a k old is sq
    simp only [Img.walker, List.filterMap_eq_nil_iff]
    intro i _
    rw [if_pos (by rw [h _ (by omega)])]
  have hr : ∀ (l : List Nat) (un : Machine.Unit), (∀ w ∈ un.walkers, w.inflight = []) →
      ∀ w ∈ (l.foldl (fun (un : Machine.Unit) k => match (un.wk k).inner with
          | some l => if l.started then un.goOn k else un.reopen k l | none => un) un).walkers, w.inflight = [] := by
    intro l
    induction l with
    | nil => intro un h; exact h
    | cons k l ih =>
      intro un h
      refine ih _ ?_
      dsimp only
      split
      · exact resumed_inflight _ _ h
      · exact h
  refine settled_of (List.all_eq_true.mpr fun w hx => List.isEmpty_iff.mpr ?_)
  refine hr _ _ ?_ w hx
  intro w hx
  obtain ⟨k, _, rfl⟩ := List.mem_map.mp hx
  exact hw _ _ _ _ _

/-- A save that ends, its block 81 and its block 0; a header that is checked, right and wrong; a load that ends; a unit that has halted. -/
theorem witness_ContextsAndBindOff :
    (∃ s un, s = benchAt 99 un ∧ un = frozen (context false) ∧ s.unit? 0 = some un ∧ un.ctx = some (context false) ∧ un.run = .frozen ∧
        (context false).endAt ≤ s.now un ∧ (context false).xlAt = none ∧ (context false).checkAt = none ∧ (context false).ue = false ∧
        s.strikes un (context false) 0 = false ∧ (∀ j, (un.wk j).settled) ∧ ((context false).piece 0 64).space = .dram ∧ s.newest 0 un ∧
        s.stage ≠ stageFault ∧ (context false).writesAt 1 (un.divisor 3) (s.now un) = [81] ∧ ((context false).piece (64 * 81) 64).space = .dram) ∧
      (∃ s c un, s = { benchAt 99 un with dram := headed } ∧ c = { context true with checkAt := some 99 } ∧ un = frozen c ∧ s.unit? 0 = some un ∧
        un.run = .frozen ∧ 99 ≤ s.now un ∧ headerOk (s.readBlocks 0 un c [0]).1 = true) ∧
      (∃ s c un, s = benchAt 99 un ∧ c = { context true with checkAt := some 99 } ∧ un = frozen c ∧ s.unit? 0 = some un ∧
        headerOk (s.readBlocks 0 un c [0]).1 = false) ∧
      (∃ s c un m, s = benchAt 99 un ∧ c = context true ∧ un = frozen c ∧ s.unit? 0 = some un ∧ un.run = .frozen ∧ c.xlAt = none ∧
        c.checkAt = none ∧ c.endAt ≤ s.now un ∧ c.bad = [] ∧ m = (⟨c.image, []⟩ : Img) ∧ m.get 6 1 = 0 ∧ ∀ j, ((m.load un 0).wk j).settled) ∧
      ∃ s un, s = benchAt 99 un ∧ un = { unit 0 with haltAt := some 99 } ∧ s.unit? 0 = some un ∧ 99 ≤ s.now un ∧
        s.kernels[un.kernel]? = some (fetchKernel 0) :=
  ⟨⟨_, _, rfl, rfl, rfl, rfl, rfl, by decide, rfl, rfl, rfl, by decide, settled_of rfl, rfl, newest_of rfl _ _, by decide,
      writesAt_one rfl rfl (by decide), rfl⟩,
    ⟨_, _, _, rfl, rfl, rfl, rfl, rfl, by decide, by decide +kernel⟩, ⟨_, _, _, rfl, rfl, rfl, rfl, by decide +kernel⟩,
    ⟨_, _, _, _, rfl, rfl, rfl, rfl, rfl, rfl, rfl, by decide, rfl, rfl, rfl, load_settled _ _ _ fun _ _ => rfl⟩,
    ⟨_, _, rfl, rfl, rfl, by decide, rfl⟩⟩

/-- The cast-on of unit 0 with its composite record's page locked. -/
def recorded (un : Machine.Unit) : State :=
  { benchAt 99 un with kernels := [{ fetchKernel 0 with lockedP := [page] }], rcbs := [rcb] }

/-- A record to write, with its block 81 to come; a record complete; an ACTION of 1 to take, one taken, and an abort. -/
theorem witness_RecordsAndActions :
    (∃ s un, s = recorded un ∧ un = { unit 0 with run := .stopped, stop := some stopped } ∧ s.unit? 0 = some un ∧ stopped.wrote = false ∧
        (s.region un.region).openCyc = true ∧ stopped.cycle < s.now un ∧ un.made (s.now un) = true ∧ s.recordPages un = some [page, page] ∧
        0 < un.ctxLat 0 [page, page]) ∧
      (∃ s un st, s = recorded un ∧ un = { unit 0 with run := .stopped, stop := some st } ∧
        st = { stopped with wrote := true, recNs := some (5, 1), blocks := [80, 81] } ∧
        s.unit? 0 = some un ∧ s.recordPages un = some [page, page] ∧ st.complete = false ∧ st.recNs.isSome = true ∧ 81 ∈ st.blocks ∧ s.newest 0 un ∧
        ∀ b ∈ [0, 64 * 81, 56], ((Ctx.place (s.recordVa un) [page, page]).piece b 64).space = .dram) ∧
      (∃ s un st, s = recorded un ∧ un = { unit 0 with run := .stopped, stop := some st } ∧
        st = { stopped with wrote := true, recNs := some (5, 1), complete := true } ∧ s.unit? 0 = some un ∧ st.action = none ∧ s.isPaired un = false ∧
        (s.region un.region).halted = false ∧ (s.region un.region).still ≠ .policy) ∧
      ∀ v ∈ [1, 2], ∃ s un st, s = recorded un ∧ un = { unit 0 with run := .stopped, stop := some st } ∧
        st = { stopped with wrote := true, recNs := some (5, 1), complete := true, action := some (v, 9, 1) } ∧ s.unit? 0 = some un ∧
        un.stop = some st ∧ st.action.isSome = true ∧ s.isPaired un = false ∧ ∀ k, (un.wk k).settled := by
  refine ⟨⟨_, _, rfl, rfl, rfl, rfl, rfl, by decide, by decide +kernel, by decide, by decide⟩,
    ⟨_, _, _, rfl, rfl, rfl, rfl, by decide, rfl, rfl, by decide, newest_of rfl _ _, by decide⟩, ⟨_, _, _, rfl, rfl, rfl, rfl, rfl, rfl, rfl, by decide⟩, ?_⟩
  intro v hv
  simp only [List.mem_cons, List.not_mem_nil, or_false] at hv
  rcases hv with rfl | rfl <;> exact ⟨_, _, _, rfl, rfl, rfl, rfl, rfl, rfl, rfl, settled_of rfl⟩

/-- Blocks of which none is in error and only block 0 holds anything are read as that. -/
theorem blocks_read {s : State} (h : s.bad = []) (f : Nat → Piece) (g : Nat → List Byte) (l : List Nat)
    (hg : ∀ b ∈ l, (g b).length = 64 ∧ (b ≠ 0 → ∀ i, (g b).getD i 0 = 0)) :
    ∀ m : Img, m.bad = [] → m.bytes.wf = true → (∀ a, 64 ≤ a → m.bytes.read a = 0) →
      ∃ r, r = l.foldl (fun (m : Img) b => if s.badIn (f b).space (f b).addr 64 then ⟨m.bytes, b :: m.bad⟩ else ⟨m.bytes.writes (64 * b) (g b), m.bad⟩) m ∧
        r.bad = [] ∧ ∀ a, 64 ≤ a → r.get a 1 = 0 := by
  have hb : ∀ sp a n, s.badIn sp a n = false := by
    intro sp a n
    rw [State.badIn, h, List.any_eq_false]
    intro i _
    split <;> simp
  induction l with
  | nil =>
    intro m hm _ hr
    exact ⟨m, rfl, hm, fun a ha => by simp [Img.get, Mem.nat, Mem.bytes, leNat, hr a ha]⟩
  | cons b l ih =>
    intro m hm hw hr
    rw [List.foldl_cons, hb, if_neg Bool.false_ne_true]
    refine ih (fun b hb => hg b (List.mem_cons_of_mem _ hb)) ⟨m.bytes.writes (64 * b) (g b), m.bad⟩ hm (Mem.wf_writes hw _ _) fun a ha => ?_
    obtain ⟨hl, hz⟩ := hg b List.mem_cons_self
    rw [Mem.read_writes hw]
    split
    · exact hz (by omega) _
    · exact hr a ha

/-- The state of a pre-empted kernel whose record stands in its first save area. -/
def saved : State :=
  { paged (benchAt 99 (unit 0)) with
    dram := headed, units := [], rcbs := [rcb], kernels := [{ fetchKernel 0 with state := .preempted, parked := [(0, ⟨0, 0, 1, 0, 0, 0, []⟩, [])] }] }

theorem saved_plain (a : Nat) (bs : List Byte) : saved.decipher .dram 0 a bs = bs := by
  rw [State.decipher, if_pos ⟨rfl, by decide⟩]
  have : ∀ (l : List Byte) n, ((l.zipIdx n).map fun e => if saved.foreignKey (a + e.2) 0 then saved.noiseAt 0 (a + e.2) else e.1) = l := by
    intro l
    induction l with
    | nil => intro n; rfl
    | cons b l ih => intro n; rw [List.zipIdx_cons, List.map_cons, ih]; rfl
  exact this bs 0

/-- Its record is read whole, and holds nothing behind its header. -/
theorem restores (ker : Kernel) (hk : ker = { fetchKernel 0 with state := .preempted, parked := [(0, ⟨0, 0, 1, 0, 0, 0, []⟩, [])] }) :
    ∃ m, saved.savedRecord 0 ker 0 = some m ∧ m.bad = [] ∧ ∀ a, 64 ≤ a → m.get a 1 = 0 := by
  subst hk
  have hq : saved.savedSeq 0 0 (2 ^ 30 + 2 ^ 20) = 1 ∧ saved.savedSeq 0 0 (2 ^ 30 + 2 ^ 24) = 0 ∧ saved.pagesOf 0 0 (2 ^ 30 + 2 ^ 20) = [page] := by
    decide +kernel
  have hp : ∀ b, b < Config.ctxBlocks → (Ctx.place (2 ^ 30 + 2 ^ 20) [page]).piece (64 * b) 64 = ⟨.dram, 2 ^ 20 + 64 * b, 64, 0⟩ := by
    intro b hb
    have hc : page.covers (2 ^ 30 + 2 ^ 20 + 64 * b) = true := by
      have hb : b < 81920 := hb
      rw [Page.covers, Bool.and_eq_true, decide_eq_true_eq, decide_eq_true_eq]
      show 2 ^ 30 ≤ _ ∧ _ < 2 ^ 30 + 2 ^ 30
      omega
    simp only [Ctx.piece, Ctx.place, List.find?_cons, hc]
    show (⟨.dram, 0 + (2 ^ 30 + 2 ^ 20 + 64 * b - 2 ^ 30), 64, 0⟩ : Piece) = _
    rw [show 0 + (2 ^ 30 + 2 ^ 20 + 64 * b - 2 ^ 30) = 2 ^ 20 + 64 * b by omega]
  have hz : ∀ x, 2 ^ 20 + 64 ≤ x → headed.read x = 0 := by
    intro x hx
    simp only [headed, Store.read, Store.readBy, List.foldl_nil, Mem.read]
    iterate 22 rw [if_neg (by omega)]
  have hr := blocks_read (s := saved) rfl (fun b => (Ctx.place (2 ^ 30 + 2 ^ 20) [page]).piece (64 * b) 64)
    (fun b => saved.decipher ((Ctx.place (2 ^ 30 + 2 ^ 20) [page]).piece (64 * b) 64).space ((Ctx.place (2 ^ 30 + 2 ^ 20) [page]).piece (64 * b) 64).part
      ((Ctx.place (2 ^ 30 + 2 ^ 20) [page]).piece (64 * b) 64).addr
      ((saved.storeOf ((Ctx.place (2 ^ 30 + 2 ^ 20) [page]).piece (64 * b) 64).space).bytes ((Ctx.place (2 ^ 30 + 2 ^ 20) [page]).piece (64 * b) 64).addr 64))
    (List.range Config.ctxBlocks) ?_ ⟨[], []⟩ rfl rfl fun _ _ => rfl
  · obtain ⟨m, hm, h1, h2⟩ := hr
    refine ⟨m, ?_, h1, h2⟩
    have ha : ∀ k : Kernel, k.rcb = 0 → saved.saveAreas k 0 = (2 ^ 30 + 2 ^ 20, 2 ^ 30 + 2 ^ 24) := by
      intro k hk
      rw [State.saveAreas, hk]
      rfl
    rw [State.savedRecord, ha _ rfl]
    simp only
    rw [show (fetchKernel 0).part = 0 from rfl, hq.1, hq.2.1, if_neg (by decide), if_neg (by decide), hq.2.2, hm]
  · intro b hb
    rw [hp b (List.mem_range.mp hb)]
    simp only
    rw [saved_plain]
    refine ⟨by simp [Store.bytes], fun h0 i => ?_⟩
    rw [List.getD_eq_getElem?_getD]
    by_cases hi : i < 64
    · simp only [Store.bytes, List.getElem?_map, List.getElem?_range hi, Option.map_some, Option.getD_some]
      exact hz _ (by omega)
    · rw [List.getElem?_eq_none (by simp [Store.bytes]; omega)]
      rfl

/-- A request; a unit that has yielded; one that has stopped, its save to begin; a block of the save; its commit; and a restore. -/
theorem witness_PreemptionsRun :
    (∃ s : State, s = benchAt 99 (unit 0) ∧ s.kernels[0]? = some (fetchKernel 0) ∧ 0 ∈ (fetchKernel 0).live ∧ 1 ∉ (fetchKernel 0).live ∧
        s.unit? 0 = some (unit 0) ∧ (unit 0).run = .running ∧ (unit 0).request = none) ∧
      (∃ s un, s = benchAt 99 un ∧ un = { unit 0 with request := some 90, yieldAt := some 98 } ∧ s.unit? 0 = some un ∧ un.preemptible = true ∧
        s.isPaired un = false) ∧
      (∃ s un, s = benchAt 99 un ∧ un = { unit 0 with run := .preempted } ∧ s.unit? 0 = some un ∧ s.kernels[un.kernel]? = some (fetchKernel 0) ∧
        un.ctx = none ∧ un.made (s.now un) = true) ∧
      (∃ s un, s = benchAt 99 un ∧ un = { frozen (context false) with run := .preempted } ∧ s.unit? 0 = some un ∧ un.ctx = some (context false) ∧
        s.kernels[un.kernel]? = some (fetchKernel 0) ∧ s.stage ≠ stageFault ∧ (context false).writesAt 0 (un.divisor 3) (s.now un) = [81] ∧
        s.newest 0 un ∧ (context false).endAt ≤ s.now un ∧ (context false).ue = false ∧ s.strikes un (context false) 0 = false) ∧
      ∃ (ker : Kernel) (snap : Snapshot) (m : Img), saved.kernels[0]? = some ker ∧ ker.state = .preempted ∧ ker.live = [0] ∧ ker.parked = [(0, snap, [])] ∧
        ker.startAt.isSome = true ∧ saved.savedRecord 0 ker 0 = some m ∧ m.bad = [] ∧
        ∀ j, ((m.load ((saved.freshUnit 0 ker 0 0 []).loadResident ker.resident) 1).wk j).settled := by
  refine ⟨⟨_, rfl, rfl, by decide, by decide, rfl, rfl, rfl⟩, ⟨_, _, rfl, rfl, rfl, rfl, rfl⟩, ⟨_, _, rfl, rfl, rfl, rfl, rfl, by decide +kernel⟩,
    ⟨_, _, rfl, rfl, rfl, rfl, rfl, by decide, writesAt_one rfl rfl (by decide), newest_of rfl _ _, by decide, rfl, by decide⟩, ?_⟩
  obtain ⟨m, h1, h2, h3⟩ := restores _ rfl
  exact ⟨_, _, m, rfl, rfl, rfl, rfl, rfl, h1, h2, load_settled _ _ _ h3⟩

/-- The bench with another region and RCB. -/
def withRegion (r : Region) : State := { benchAt 99 (unit 0) with regions := [r], rcbs := [rcb] }

/-- The region of the bench, the cycle 99 over. -/
def still : Region := { fetchRegion with rcc := 99, openCyc := false }

/-- The bench of a booted package, with port 0 up and job 0 as given. -/
def linked (x : Job) (r : Region) : State :=
  { withRegion r with jobs := [(0, x)], boot := ⟨5, false, [], 1, [], 900, 100, 1200⟩, ports := ⟨8, 0, 0, 0, 0, 0, 1, 0, 0, 0⟩ :: State.reset.ports.tail }

/-- A flit of package 2 for package 1. -/
def flit (type : BitVec 4) (param : W32) (payload : List Byte) : Flit :=
  { type, vc := 0, dpkg := 1, spkg := 2, hops := 1, unit := 0, chan := 0, part := 0, xid := 0, lseq := 0, param, payload }

/-- A wave's arrival; a step and one in a job of several regions; a resume in time and one too late; TR; the three flits. -/
theorem witness_HaltsStepAndResume :
    (∃ s, s = linked { Job.zero with jstate := 1 } { still with haltAt := some ⟨0, 1⟩ } ∧ 0 < s.regions.length ∧ (s.region 0).haltDue = true ∧
        ∃ x, find s.jobs (s.region 0).job = some x ∧ x.jstate ≠ 4) ∧
      (∃ s x, s = linked x { still with halted := true } ∧ x = { Job.zero with jstate := 2, jfocus := 2 ^ 30 } ∧ find s.jobs 0 = some x ∧
        s.rcbs[(s.region 0).rcb]? = some rcb ∧ 0 < s.regions.length ∧ (s.region 0).job = 0 ∧ rcb.va = x.jfocus.toNat ∧ (s.region 0).halted = true ∧
        { s.region 0 with halted := false }.runs = true) ∧
      (∀ v ∈ [(0, false), (10000, true)], ∃ s x, s = linked x { still with halted := true } ∧ x = { Job.zero with jstate := 2, jtres := v.1 } ∧
        find s.jobs 0 = some x ∧ (s.time.add (Frac.ofNat (150 + 450 * s.jobHops 0))).le (Frac.ofNat x.jtres.toNat) = v.2) ∧
      (∃ s x, s = linked x { still with halted := true } ∧ x = { Job.zero with jstate := 4 } ∧ find s.jobs 0 = some x ∧ x.jstate = 4) ∧
      (∃ s fl, s = linked Job.zero still ∧ fl = flit 7 0 (leBytes 8 500 ++ leBytes 8 1 ++ leBytes 8 0x41 ++ leBytes 8 (2 ^ 30) ++ leBytes 8 1) ∧
        Accepts 7 s 0 fl ∧ find s.jobs fl.param.toNat = some Job.zero ∧ 0 < s.regions.length ∧ (s.region 0).job = fl.param.toNat ∧ (s.region 0).halted = false ∧
        (s.regionRcb 0).map (·.va) = some (fl.nat 24 8)) ∧
      ∀ v ∈ [((8 : BitVec 4), 2), (9, 2)], ∃ s x, s = linked x still ∧ x = { Job.zero with jstate := v.2 } ∧
        Accepts v.1.toNat s 0 (flit v.1 0 []) ∧ find s.jobs (flit v.1 0 []).param.toNat = some x ∧ x.jstate = 2 := by
  refine ⟨⟨_, rfl, by decide, by decide, { Job.zero with jstate := 1 }, rfl, by decide⟩, ⟨_, _, rfl, rfl, rfl, rfl, by decide, rfl, rfl, rfl, rfl⟩, ?_, ⟨_, _, rfl, rfl, rfl, rfl⟩,
    ⟨_, _, rfl, rfl, ⟨rfl, by decide, rfl, rfl, rfl⟩, rfl, by decide, rfl, rfl, by decide⟩, ?_⟩ <;>
    intro v hv <;> simp only [List.mem_cons, List.not_mem_nil, or_false] at hv
  · rcases hv with rfl | rfl <;> exact ⟨_, _, rfl, rfl, rfl, by decide⟩
  · rcases hv with rfl | rfl <;> exact ⟨_, _, rfl, rfl, ⟨rfl, by decide, rfl, rfl, rfl⟩, rfl, rfl⟩

/-- An armed trigger, whose START holds. -/
def armedT (kind act : Nat) (isOpen : Bool) : Trigger :=
  { armed := true, isOpen, fired := false, start := BitVec.ofNat 64 kind, stop := 0, addr := 0, mode := BitVec.ofNat 64 (2 ^ 19 * act), from_ := 0, openAt := 0
    xlAt := none, pa := none, xlFault := none, seenS := !isOpen, seenP := isOpen, stopDue := none, struck := [], serial := 0 }

/-- The unit with it as trigger 0. -/
def triggered (g : Trigger) : Machine.Unit := { unit 0 with trigs := (unit 0).trigs.set 0 g }

/-- Windows that open: one that only marks, ones that stop the unit, and a memory-side report's; one that closes; a report's flit. -/
theorem witness_TriggersOpenAndClose :
    (∀ v ∈ [(1, 0), (1, 1), (3, 1), (4, 0)], ∃ s un g, s = benchAt 99 un ∧ un = triggered g ∧ g = armedT v.1 v.2 false ∧ s.unit? 0 = some un ∧
        un.trigs[0]? = some g ∧ g.stopDue ≠ some (s.now un) ∧ g.armed = true ∧ g.isOpen = false ∧ g.seenS = true ∧ g.from_ ≤ s.now un ∧ g.act = v.2 ∧
        g.kind = v.1) ∧
      (∃ s un g, s = benchAt 99 un ∧ un = triggered g ∧ g = armedT 1 0 true ∧ s.unit? 0 = some un ∧ un.trigs[0]? = some g ∧ g.armed = true ∧
        g.isOpen = true ∧ g.seenP = true ∧ un.trace.length ≤ 255) ∧
      ∃ s un g, s = { linked Job.zero still with units := [(0, un)] } ∧ un = triggered g ∧ g = armedT 4 0 false ∧ Accepts 10 s 0 (flit 10 0 []) ∧
        s.unit? ((flit 10 0 []).param.toNat / 16 % 256) = some un ∧ un.trigs[(flit 10 0 []).param.toNat % 16]? = some g ∧ g.armed = true := by
  refine ⟨?_, ⟨_, _, _, rfl, rfl, rfl, rfl, rfl, rfl, rfl, rfl, by decide⟩, ⟨_, _, _, rfl, rfl, rfl, ⟨rfl, by decide, rfl, rfl, rfl⟩, rfl, rfl, rfl⟩⟩
  intro v hv
  simp only [List.mem_cons, List.not_mem_nil, or_false] at hv
  rcases hv with rfl | rfl | rfl | rfl <;> exact ⟨_, _, _, rfl, rfl, rfl, rfl, rfl, by decide, rfl, rfl, rfl, by decide, by decide, by decide⟩

theorem met {α : Type} {o : Option α} {p : α → Bool} (h : o.any p = true) : ∃ x, o = some x ∧ p x = true := by
  cases o with
  | none => cases h
  | some x => exact ⟨x, rfl, h⟩

/-- Job 0, registered, with its root RCB at `v`; its arm word at PA 0x3000. -/
def job (v : W64) : Job := { Job.zero with jreg := v, jslot := 1, armPa := 0x3000 }

/-- The bench with that job and memory of tables, an arm word of 1 and a root RCB of one unit and GAUGE 64/1, source 0, at 2^30 + 0x20000. -/
def arming (x : Job) : State :=
  { paged (benchAt 99 (unit 0)) with
    jobs := [(0, x)]
    dram := ⟨[(0x3000, 1), (0x10000, 1), (0x10002, 1), (0x10010, 0x0F), (0x20011, 1), (0x20014, 0x40), (0x20017, 0x80), (0x20034, 1)], []⟩ }

/-- A kernel that waits for a unit, and the state in which it waits. -/
def waiting : Kernel := { fetchKernel 0 with state := .ready, units := [], live := [], textVa := 2 ^ 30 + 0x40000 }

/-- An arm whose tree is refused, and one that is taken; a job that has ended; a write of its arm word, of 1 and of 0; a cast-on; a start; a retire. -/
theorem witness_PatternsAdvance :
    (∃ s x, s = arming x ∧ x = job 1 ∧ find s.jobs 0 = some x ∧ x.jslot = 1 ∧ x.armed = false ∧ s.armWord 0 = 1 ∧
        (s.forgetJob 0).readTree 0 (partOf 0) 16384 [(x.jreg.toNat, none)] [] = none) ∧
      (∃ s x, s = arming x ∧ x = job (2 ^ 30 + 0x20000) ∧ find s.jobs 0 = some x ∧ x.jslot = 1 ∧ x.armed = false ∧ s.armWord 0 = 1 ∧
        ∃ l, (s.forgetJob 0).readTree 0 (partOf 0) 16384 [(x.jreg.toNat, none)] [] = some l ∧ budgetsOk s.rcbs.length l = true) ∧
      (∃ s x, s = { arming x with regions := [{ fetchRegion with gauge := .off }] } ∧ x = { job 1 with armed := true } ∧ find s.jobs 0 = some x ∧
        x.armed = true ∧ ∀ r ∈ s.regions, r.job = 0 → r.gauge = .off) ∧
      (∀ v ∈ [((1 : Byte), true), (0, false)], ∃ s, s = { arming (job 1) with watched := [(0x3000, .arm 0)], dram := ⟨[(0x3000, v.1)].filter (·.2 != 0), []⟩ } ∧
        (s.watched.filter fun e => e.1 == 2 ^ 38 * 0 + 0x3000) = [(2 ^ 38 * 0 + 0x3000, .arm 0)] ∧ (s.armWord 0 == 1) = v.2) ∧
      (∃ s : State, s = { paged (benchAt 99 (unit 0)) with units := [], kernels := [waiting], rcbs := [{ rcb with save0 := 0, save1 := 0 }] } ∧
        s.kernels[0]? = some waiting ∧ waiting.state = .ready ∧ s.waiters = [0] ∧ s.budgetFits waiting = true ∧
        placeUnits waiting.shape waiting.n (s.freeFor waiting) = some [0] ∧ (∃ l, s.loadOf waiting = some l ∧ (l.text == [0]) = true) ∧ [0].Nodup) ∧
      (∃ (s : State) (ker : Kernel), s = { benchAt 128 { unit 0 with run := .cast, started := false, word0 := none } with kernels := [ker] } ∧
        ker = { fetchKernel 0 with state := .loaded } ∧ s.kernels[0]? = some ker ∧ (s.region ker.region).openCyc = true ∧
        (s.region ker.region).rcc % (s.region ker.region).p = 0 ∧ (s.region ker.region).gauge ≠ .draining ∧ ker.live.Nodup ∧ 0 ∈ ker.live ∧
        (s.unit? 0).isSome) ∧
      ∃ (s : State) (ker : Kernel), s = { benchAt 99 (unit 0) with units := [], kernels := [ker] } ∧ ker = { fetchKernel 0 with state := .retiring, live := [] } ∧
        s.kernels[0]? = some ker ∧ ker.state = .retiring := by
  refine ⟨⟨_, _, rfl, rfl, rfl, rfl, rfl, by decide +kernel, by decide +kernel⟩,
    ⟨_, _, rfl, rfl, rfl, rfl, rfl, by decide +kernel, met (by decide +kernel)⟩, ⟨_, _, rfl, rfl, rfl, rfl, by decide⟩, ?_,
    ⟨_, rfl, rfl, rfl, by decide +kernel, by decide +kernel, by decide +kernel, met (by decide +kernel), by decide⟩,
    ⟨_, _, rfl, rfl, rfl, rfl, by decide, by decide, by decide, by decide, rfl⟩, ⟨_, _, rfl, rfl, rfl, rfl⟩⟩
  intro v hv
  simp only [List.mem_cons, List.not_mem_nil, or_false] at hv
  rcases hv with rfl | rfl <;> exact ⟨_, rfl, by decide, by decide +kernel⟩

/-- The bench with a ready node of type `typ` at 2^30 + 0x20000 whose bytes from 2 on and from 40 on begin with `c` and `v`, and whose word is at
2^30 + 0x30000, where 5 stands; `tab` gives bytes of the table address of a SWITCH. -/
def noded (typ c v m : Byte) (tab : List Host.Cell) : State :=
  { paged (benchAt 99 (unit 0)) with
    rcbs := [rcb], nodes := [⟨2 ^ 30 + 0x20000, 0, .ready, 0, 0, Acq.zero, Acq.zero⟩]
    dram := ⟨[(0x10000, 1), (0x10002, 1), (0x10010, 0x0F), (0x20000, typ)] ++ [(0x20002, c)].filter (·.2 != 0) ++ [(0x20022, 3), (0x20023, 0x40)] ++
      [(0x20028, v)].filter (·.2 != 0) ++ tab ++ [(0x20030, m)].filter (·.2 != 0) ++ [(0x30000, 5)], []⟩ }

/-- Its hypotheses, and the clause's own, as a test. -/
def chooses (s : State) (p : NodeInfo → Nat → Bool) : Bool :=
  (s.nodes.find? fun n => n.addr == 2 ^ 30 + 0x20000 && n.region == 0) == some ⟨2 ^ 30 + 0x20000, 0, .ready, 0, 0, Acq.zero, Acq.zero⟩ && !s.jobHalted 0 && s.regionRcb 0 == some rcb &&
    match s.nodeInfo 0 (2 ^ 30 + 0x20000) with
    | some x => (match s.readVa 0 (x.get 32 8) 8 with | some w => p x w | none => false)
    | none => false

theorem chooses_met {s : State} {p : NodeInfo → Nat → Bool} (h : chooses s p = true) :
    ∃ nd x b w, (s.nodes.find? fun n => n.addr == 2 ^ 30 + 0x20000 && n.region == 0) = some nd ∧ nd.state = .ready ∧ s.jobHalted 0 = false ∧
      s.nodeInfo 0 (2 ^ 30 + 0x20000) = some x ∧ s.regionRcb 0 = some b ∧ s.readVa b.part (x.get 32 8) 8 = some w ∧ p x w = true := by
  simp only [chooses, Bool.and_eq_true, beq_iff_eq, Bool.not_eq_true'] at h
  obtain ⟨⟨⟨h1, h2⟩, h3⟩, h4⟩ := h
  split at h4
  · split at h4
    · exact ⟨_, _, _, _, h1, rfl, h2, by assumption, h3, by assumption, h4⟩
    · cases h4
  · cases h4

/-- COND, both ways; LOOP before its first turn, below its limit and at it; SWITCH beyond its table and within it; JOIN before its last arrival and at it; WATCH, both ways. -/
theorem witness_NodesChoose :
    chooses (noded 2 0 0xFF 5 []) (fun x w => w &&& x.get 40 8 == x.get 48 8) = true ∧
      chooses (noded 2 0 0xFF 4 []) (fun x w => !(w &&& x.get 40 8 == x.get 48 8)) = true ∧
      chooses (noded 3 0 9 0 []) (fun _ w => decide (0 < w) && !(noded 3 0 9 0 []).loops.contains (nodeKey 0 (2 ^ 30 + 0x20000))) = true ∧
      chooses { noded 3 0 2 0 [] with loops := [nodeKey 0 (2 ^ 30 + 0x20000)] } (fun x w => decide (x.get 40 8 < w)) = true ∧
      chooses { noded 3 0 5 0 [] with loops := [nodeKey 0 (2 ^ 30 + 0x20000)] } (fun x w => decide (w ≤ x.get 40 8)) = true ∧
      chooses (noded 4 0 0 4 [(0x2002A, 2), (0x2002B, 0x40)]) (fun x w => decide (x.get 48 1 < w)) = true ∧
      chooses (noded 4 0 0 5 [(0x2002A, 2), (0x2002B, 0x40)]) (fun x w => decide (w ≤ x.get 48 1) &&
        ((noded 4 0 0 5 [(0x2002A, 2), (0x2002B, 0x40)]).readVa 0 (x.get 40 8 + 8 * w) 8).isSome) = true ∧
      chooses (noded 5 1 0 0 []) (fun x _ => 0 + 1 == x.get 2 2) = true ∧ chooses (noded 5 2 0 0 []) (fun x _ => 0 + 1 != x.get 2 2) = true ∧
      chooses (noded 6 0 4 0 []) (fun x w => w != x.get 40 8 && (noded 6 0 4 0 []).tableWaiters == [] && ((noded 6 0 4 0 []).locate 0 (x.get 32 8)).isSome) = true ∧
      chooses (noded 6 0 5 0 []) (fun x w => w == x.get 40 8 && (noded 6 0 5 0 []).tableWaiters == [] && ((noded 6 0 5 0 []).locate 0 (x.get 32 8)).any fun p =>
        (noded 6 0 5 0 []).tableFree (p.2 / 2 ^ 38) != 0) = true := by
  decide +kernel

/-- A live source, 0, with one sample; its period is the nominal one. -/
def sourced : Region := { fetchRegion with rcc := 99, src := 0, stamps := [(0, ⟨0, 1⟩)], srcN := 5, onTime := 64 }

/-- A sample; a missed one; a lock; a clamp, an unclamp, a holdover from either state, a relock, and holdover's end. -/
theorem witness_GaugesFollowTheirSources :
    (∃ s, s = withRegion sourced ∧ 0 < s.regions.length ∧ s.sourceKey (s.region 0) = 0 ∧ (s.region 0).gauge = .locked ∧ (s.region 0).stamps ≠ [] ∧
        (s.region 0).far = false ∧ (s.region 0).halted = false ∧ (s.region 0).srcN < 6 ∧ (s.samples.find? fun e => e.1 == 0 && e.2.1 == 6) = none) ∧
      (∃ s, s = { withRegion sourced with time := ⟨1000000, 1⟩ } ∧ 0 < s.regions.length ∧
        (∃ t0, (s.region 0).missAt = some t0 ∧ (!s.time.lt t0) = true) ∧ (s.region 0).halted = false) ∧
      (∃ s, s = withRegion { sourced with gauge := .acquire } ∧ 0 < s.regions.length ∧ (s.region 0).gauge = .acquire ∧ isSynthetic (s.region 0).src = false ∧
        64 ≤ (s.region 0).onTime ∧ clockOk ((Frac.ofNat (s.region 0).p).div ((s.region 0).srcPeriod.scale (s.region 0).q)) = true) ∧
      (∃ s, s = withRegion { sourced with drift := 1024 } ∧ 0 < s.regions.length ∧ (s.region 0).gauge = .locked ∧ 1024 ≤ (s.region 0).drift) ∧
      (∃ s, s = withRegion { sourced with gauge := .clamped, steady := 1024 } ∧ 0 < s.regions.length ∧ (s.region 0).gauge = .clamped ∧ 1024 ≤ (s.region 0).steady) ∧
      (∀ g ∈ [Gauge.locked, .clamped], ∃ s, s = withRegion { sourced with gauge := g, missed := 4 } ∧ 0 < s.regions.length ∧
        ((s.region 0).gauge = .locked ∨ (s.region 0).gauge = .clamped) ∧ s.missOf 0 ≤ (s.region 0).missed) ∧
      (∃ s, s = withRegion { sourced with gauge := .holdover, good := 8 } ∧ 0 < s.regions.length ∧ (s.region 0).gauge = .holdover ∧ 8 ≤ (s.region 0).good) ∧
      ∃ s, s = withRegion { sourced with gauge := .holdover, rcc := 128, rsc := 100 } ∧ 0 < s.regions.length ∧ (s.region 0).gauge = .holdover ∧
        (s.region 0).openCyc = true ∧ (s.region 0).rcc % (s.region 0).p = 0 ∧ (s.region 0).holdRsc + s.holdOf 0 ≤ (s.region 0).rsc ∧
        s.unit? 0 = some (unit 0) ∧ (unit 0).region = 0 ∧ (unit 0).run = .running ∧ (unit 0).p0 = none := by
  refine ⟨⟨_, rfl, by decide, rfl, rfl, by decide, rfl, rfl, by decide, rfl⟩, ⟨_, rfl, by decide, met (by decide), rfl⟩,
    ⟨_, rfl, by decide, rfl, by decide, by decide, by decide⟩, ⟨_, rfl, by decide, rfl, by decide⟩, ⟨_, rfl, by decide, rfl, by decide⟩, ?_,
    ⟨_, rfl, by decide, rfl, by decide⟩, ⟨_, rfl, by decide, rfl, rfl, by decide, by decide, rfl, rfl, rfl, rfl⟩⟩
  intro g hg
  simp only [List.mem_cons, List.not_mem_nil, or_false] at hg
  rcases hg with rfl | rfl
  · exact ⟨_, rfl, by decide, .inl rfl, by decide⟩
  · exact ⟨_, rfl, by decide, .inr rfl, by decide⟩

/-- A cycle, with a unit of the region and one of another; boundaries 0 and 128; a freeze by policy and after a drain; a thaw with no jump and with
one; the watchdog's last count and one before it; a shed region's save, its mark cleared, and its return. -/
theorem witness_RegionsRunFreezeAndThaw :
    (∃ s un, s = { withRegion still with units := [(0, unit 0), (1, un)] } ∧ un = { unit 0 with region := 1 } ∧ 0 < s.regions.length ∧ (s.region 0).runs = true ∧
        (s.region 0).openCyc = false ∧ s.freezeDue 0 = false ∧ (s.region 0).haltDue = false ∧ s.unit? 0 = some (unit 0) ∧ (unit 0).region = 0 ∧
        (unit 0).run = .running ∧ (unit 0).walkers.length = 4 ∧ s.unit? 1 = some un ∧ un.region ≠ 0 ∧ (s.units.map (·.1)).Nodup) ∧
      (∀ c ∈ [0, 128], ∃ s, s = withRegion { fetchRegion with rcc := c } ∧ 0 < s.regions.length ∧ (s.region 0).openCyc = true ∧
        (s.region 0).rcc % (s.region 0).p = 0 ∧ (s.region 0).thawAt = none ∧ (s.region 0).jump = none ∧ (s.region 0).shedding = false) ∧
      (∃ s, s = withRegion { still with stopAt := some 100 } ∧ 0 < s.regions.length ∧ s.freezeDue 0 = true ∧ (s.units.map (·.1)).Nodup ∧
        ∀ e ∈ s.units, e.2.fired = false) ∧
      (∃ s, s = { withRegion { still with gauge := .draining } with units := [] } ∧ s.freezeDue 0 = true) ∧
      (∀ v ∈ [1, 9], ∃ s, s = withRegion { still with gauge := .frozen, still := .drained, thawAt := some (⟨5, 1⟩, v) } ∧ 0 < s.regions.length ∧
        (s.region 0).gauge = .frozen ∧ (s.region 0).thawAt = some (⟨5, 1⟩, v) ∧ (s.region 0).halted = false ∧
        s.time.lt (s.region 0).anchor = false) ∧
      (∀ w ∈ [1, 2], ∃ s : State, s = { benchAt 128 (unit 0) with rcbs := [{ rcb with wdog := w }] } ∧ s.unit? 0 = some (unit 0) ∧ (unit 0).region < s.regions.length ∧
        s.wdogOf (unit 0) = w ∧ (s.region (unit 0).region).openCyc = true ∧ (s.region (unit 0).region).rcc % (s.region (unit 0).region).p = 0 ∧
        (unit 0).run = .running ∧ (unit 0).word0 = some 0 ∧ 0 < (s.region (unit 0).region).rcc ∧ ∀ w ∈ (unit 0).walkers, w.beat = false) ∧
      (∃ s : State, s = { withRegion { still with gauge := .frozen, still := .drained, shedding := true } with units := [] } ∧ 0 < s.regions.length ∧
        (s.region 0).gauge = .frozen ∧ (s.region 0).shedding = true ∧ (s.region 0).still = .drained ∧ (s.units.map (·.1)).Nodup ∧
        ∀ u un, s.unit? u = some un → un.region ≠ 0) ∧
      (∃ s, s = withRegion { still with shed := true } ∧ 0 < s.regions.length ∧ (s.region 0).shed = true) ∧
      ∃ s : State, s = { withRegion { still with gauge := .frozen, still := .shed } with kernels := [] } ∧ 0 < s.regions.length ∧ (s.region 0).gauge = .frozen ∧
        (s.region 0).still = .shed ∧ (s.region 0).shed = false ∧ (∀ b, s.regionRcb 0 = some b → b.admitted = false) ∧
        (∀ ker ∈ s.kernels, ker.region = 0 → ker.state ≠ .preempted) ∧ (s.region 0).good < 8 := by
  refine ⟨⟨_, _, rfl, rfl, by decide, rfl, rfl, by decide, rfl, rfl, rfl, rfl, rfl, rfl, by decide, by decide⟩, ?_,
    ⟨_, rfl, by decide, by decide, by decide, by decide⟩, ⟨_, rfl, by decide⟩, ?_, ?_, ⟨_, rfl, by decide, rfl, rfl, rfl, by decide, fun u un h => by cases h⟩,
    ⟨_, rfl, by decide, rfl⟩, ⟨_, rfl, by decide, rfl, rfl, rfl, fun b h => by cases h; rfl, by decide, by decide⟩⟩ <;>
    intro v hv <;> simp only [List.mem_cons, List.not_mem_nil, or_false] at hv <;> rcases hv with rfl | rfl
  · exact ⟨_, rfl, by decide, rfl, rfl, rfl, rfl, rfl⟩
  · exact ⟨_, rfl, by decide, rfl, rfl, rfl, rfl, rfl⟩
  · exact ⟨_, rfl, by decide, rfl, rfl, rfl, by decide⟩
  · exact ⟨_, rfl, by decide, rfl, rfl, rfl, by decide⟩
  · exact ⟨_, rfl, rfl, by decide, rfl, rfl, rfl, rfl, rfl, by decide, by decide⟩
  · exact ⟨_, rfl, rfl, by decide, rfl, rfl, rfl, rfl, rfl, by decide, by decide⟩

/-- Too much current, too hot, too much power, none of them; a first cap and a later one; a repeated SEQ and one half the circle away; the end of a
lease; an error in die 1. -/
theorem witness_PowerAndHealth :
    (∃ s g, s = { linked Job.zero still with gens := [(0, g)], power := ⟨none, 0, none, 1600, some ⟨5, 1⟩⟩, time := ⟨5, 1⟩ } ∧ s.power.next = some ⟨5, 1⟩ ∧
        s.time.lt ⟨5, 1⟩ = false ∧ g = (⟨true, 3, 2, 256, 256, 0, false, ⟨0, 1⟩, 0⟩ : Gen) ∧
        (s.gens.map (·.1)).Pairwise (· < ·) ∧ find s.gens 0 = some g ∧ 1000 * s.boot.curLimit < 900001 ∧
        (900000 ≤ 1000 * s.boot.curLimit ∧ 1000 * s.boot.thermal < 100001) ∧ 1000 * s.powerCap < 1200001 ∧
        855000 ≤ 950 * s.boot.curLimit ∧ 95000 ≤ 950 * s.boot.thermal ∧ 0 ≤ 950 * s.powerCap) ∧
      (∀ v ∈ [(none, (7 : BitVec 32)), (some 5, 6)], ∃ s : State, s = { State.reset with power := ⟨v.1, 0, none, 1600, none⟩ } ∧
        ∀ old, s.power.seq = some old → 1 ≤ (v.2 - old).toNat ∧ (v.2 - old).toNat < 2 ^ 31) ∧
      (∀ q ∈ [(5 : BitVec 32), 2 ^ 31 + 5], ∃ s : State, s = { State.reset with power := ⟨some 5, 0, none, 1600, none⟩ } ∧ s.power.seq = some 5 ∧
        (q = 5 ∨ 2 ^ 31 ≤ (q - 5).toNat)) ∧
      (∃ s : State, s = { State.reset with power := ⟨some 5, 0, some ⟨3, 1⟩, 1600, none⟩, time := ⟨4, 1⟩ } ∧ s.power.leaseTo = some ⟨3, 1⟩ ∧ Frac.le ⟨3, 1⟩ s.time = true) ∧
      1 < State.reset.uec.length := by
  refine ⟨⟨_, _, rfl, rfl, by decide, rfl, by decide, rfl, by decide, by decide, by decide, by decide, by decide, by decide⟩, ?_, ?_, ⟨_, rfl, rfl, by decide⟩, by decide⟩ <;>
    intro v hv <;> simp only [List.mem_cons, List.not_mem_nil, or_false] at hv <;> rcases hv with rfl | rfl
  · exact ⟨_, rfl, fun o h => by cases h⟩
  · exact ⟨_, rfl, fun o h => by cases h; decide⟩
  · exact ⟨_, rfl, rfl, by decide⟩
  · exact ⟨_, rfl, rfl, by decide⟩

/-- A booted package whose partition 0 has the tables and the page of `paged`, with job slot 0 as given. -/
def hosted (x : Job) (v : Vf) (cells : List Host.Cell) : State :=
  { linked x still with
    vfs := [(0, { v with ptroot := 0x10000 })]
    dram := ⟨[(0x10000, 1), (0x10002, 1), (0x10010, 0x0F)] ++ cells, []⟩ }

/-- A registration that starts, one that finds its words and one that does not; a slot that is freed, refused or retired; an invalidation that
starts, ends, and meets a locked translation; a table root in the grant. -/
theorem witness_JobSlotsAndTables :
    (∃ s, s = hosted Job.zero Vf.zero [] ∧ (5 : W64) ≠ 0 ∧ (s.slot 0 0).jslot = 0 ∧ (s.slot 0 0).pending = false) ∧
      (∃ s, s = hosted { Job.zero with jreg := 2 ^ 30 + 0x20000, pending := true } Vf.zero [(0x200B9, 0x30), (0x200BB, 0x40)] ∧ (s.slot 0 0).pending = true ∧
        s.usable 0 (s.slot 0 0).jreg.toNat = some 0x20000 ∧ s.readVa 0 ((s.slot 0 0).jreg.toNat + 0x38) 1 = some 0 ∧
        s.readVa 0 ((s.slot 0 0).jreg.toNat + 0xB8) 8 = some (2 ^ 30 + 0x3000) ∧ (2 ^ 30 + 0x3000) % 8 = 0 ∧ s.usable 0 (2 ^ 30 + 0x3000) = some 0x3000 ∧
        s.tableFree (0x3000 / 2 ^ 38) ≠ 0) ∧
      (∃ s, s = hosted { Job.zero with jreg := 8, pending := true } Vf.zero [] ∧ (s.slot 0 0).pending = true ∧ s.usable 0 (s.slot 0 0).jreg.toNat = none) ∧
      (∃ s, s = hosted { Job.zero with jslot := 2 } Vf.zero [] ∧ (s.slot 0 0).jslot = 2) ∧
      (∃ s, s = hosted { job 8 with armPa := 0x30000 } Vf.zero [(0x30000, 3)] ∧ (s.slot 0 0).jslot = 1 ∧ s.armWord (16 * 0 + 0) = 3) ∧
      (∃ s, s = hosted Job.zero Vf.zero [] ∧ (s.vf 0).istBusy = false ∧ s.hasJob 0 = false ∧
        State.granted { s with grants := [(0, 0, 0x100000, 0, 0)] } 0 (0x10000 : W64).toNat = true) ∧
      (∀ l ∈ [false, true], ∃ s : State, s = { hosted Job.zero { Vf.zero with istBusy := true, iva := 2 ^ 30, ilen := 0x10000 } [] with
          locks := if l then [(0, page, [0])] else [] } ∧ (s.vf 0).istBusy = true ∧
        l = (s.locks.any fun l => l.2.1.part == 0 && decide (0 < (s.vf 0).ilen.toNat) && decide (l.2.1.va < (s.vf 0).iva.toNat + (s.vf 0).ilen.toNat) &&
          decide ((s.vf 0).iva.toNat < l.2.1.va + l.2.1.size)) ∧ s.unit? 0 = some (unit 0) ∧ (unit 0).part = 0) := by
  refine ⟨⟨_, rfl, by decide, rfl, rfl⟩,
    ⟨_, rfl, rfl, by decide +kernel, by decide +kernel, by decide +kernel, by decide, by decide +kernel, by decide⟩, ⟨_, rfl, rfl, by decide +kernel⟩,
    ⟨_, rfl, rfl⟩, ⟨_, rfl, rfl, by decide +kernel⟩, ⟨_, rfl, rfl, by decide, by decide⟩, ?_⟩
  intro l hl
  simp only [List.mem_cons, List.not_mem_nil, or_false] at hl
  rcases hl with rfl | rfl <;> exact ⟨_, rfl, rfl, by decide, rfl, rfl⟩

/-- An open port; a write and a read of mapped bytes, and a read beyond the aperture; a checkpoint refused and one that starts; a save and a
restore that end; a TDI unlocked, locked, and running, and to exit. -/
theorem witness_HostAccessesAct :
    (∃ s, s = hosted Job.zero Vf.zero [] ∧ s.hostOpen = true ∧ s.dropsTlp ⟨0, false⟩ = false ∧ s.ckBusy = false ∧ (2 ^ 30 + 0x50000) / 64 = (2 ^ 30 + 0x50000 + [(1 : Byte), 2].length - 1) / 64 ∧
        2 ^ 30 + 0x50000 + [(1 : Byte), 2].length ≤ 2 ^ 40 ∧ (s.walk 0 (2 ^ 30 + 0x50000)).2 = some page ∧ page.part = 0 ∧ page.w = true ∧ page.r = true ∧
        page.space = 0 ∧ page.va ≤ 2 ^ 30 + 0x50000 ∧ (page.pa + (2 ^ 30 + 0x50000 - page.va)) % 64 = (2 ^ 30 + 0x50000) % 64 ∧
        (∀ j, s.foreignKey (page.pa + (2 ^ 30 + 0x50000 - page.va) + j) 0 = false) ∧ (∀ w ∈ s.dram.log, w.who.unit = 200 → w.key ≤ s.nextId) ∧
        2 ^ 40 < 2 ^ 40 - 1 + 2) ∧
      (∀ v ∈ [((64 : W64), true), (4096, false)], ∃ s : State, s = { hosted Job.zero Vf.zero [] with ckbuf := v.1 } ∧ s.ckRefuses = v.2) ∧
      (∀ r ∈ [false, true], ∃ s m, s = { hosted Job.zero Vf.zero [] with ckbuf := 4096, ckBusy := true, ckRestore := r, images := [(4096, m)] } ∧
        m = (⟨true, Store.zero, [], false⟩ : Image) ∧ s.ckBusy = true ∧ s.ckRestore = r ∧ find s.images s.ckbuf.toNat = some m ∧ m.whole = true) ∧
      (∃ s, s = hosted Job.zero Vf.zero [] ∧ (s.vf 0).tdi = 0) ∧
      (∃ s, s = hosted Job.zero { Vf.zero with tdi := 2 } [] ∧ (s.vf 0).tdi = 2 ∧ s.dropsTlp ⟨0, true⟩ = false) ∧
      ∃ s, s = hosted Job.zero { Vf.zero with tdi := 1 } [] ∧ (s.vf 0).tdi = 1 ∧ s.unit? 0 = some (unit 0) ∧ (unit 0).part = 0 := by
  refine ⟨⟨_, rfl, rfl, rfl, rfl, by decide, by decide, by decide +kernel, rfl, rfl, rfl, rfl, by decide, by decide, fun j => rfl, by decide, by decide⟩, ?_, ?_,
    ⟨_, rfl, rfl⟩, ⟨_, rfl, rfl, rfl⟩, ⟨_, rfl, rfl, rfl, rfl⟩⟩ <;>
    intro v hv <;> simp only [List.mem_cons, List.not_mem_nil, or_false] at hv <;> rcases hv with rfl | rfl
  · exact ⟨_, rfl, by decide⟩
  · exact ⟨_, rfl, by decide⟩
  · exact ⟨_, _, rfl, rfl, rfl, rfl, rfl, rfl⟩
  · exact ⟨_, _, rfl, rfl, rfl, rfl, rfl, rfl⟩

/-- A descriptor of source 0: valid, two slots, samples of 4 bytes, stream 7, UDP port 9, ring at 2^30 + 0x20000; `tx` makes it a transmitter. -/
def desc (tx : Bool) : List W64 :=
  [BitVec.ofNat 64 (2 ^ 48 * 9 + 2 ^ 32 * 7 + 2 ^ 16 * 4 + 2 ^ 8 + (if tx then 4 else 0) + 1), 2 ^ 30 + 0x20000, 2 ^ 30 + 0x20000, 0, 0]

/-- A package whose source 0 belongs to partition 0 and has that descriptor, and cadence 0 is on. -/
def streaming (tx : Bool) (x : Source) : State :=
  { hosted Job.zero { Vf.zero with streams := desc tx :: Vf.zero.streams.tail, cadence := [0, 128, 1] :: Vf.zero.cadence.tail } [] with
    srcown := 128 :: State.reset.srcown.tail, sources := [(0, x)] }

/-- A frame for it of that type, of one sample. -/
def frame (type count pad : Byte) : Frame :=
  ⟨9, [0x44, 0x56, 1, type, 7, 0, count, 0, 3, 0, 0, 0, 0, 0, 0, 0] ++ List.replicate 14 0 ++ [pad, 0, 1, 2, 3, 4]⟩

def source : Source := { high := none, link := true, drops := 0, lastTs := 0, period := 0, kaAt := ⟨0, 1⟩, credit := none, sent := [] }

/-- The four types of frame, right; a wrong header; a descriptor's own frames; a ring slot that is mapped; a link that times out and one that does
not; cadence 0, with a region on it. -/
theorem witness_StreamsCarry :
    (∀ v ∈ [(0, 1), (1, 0), (2, 0), (3, 0)], ∃ s fr d, s = streaming false source ∧ fr = frame (BitVec.ofNat 8 v.1) (BitVec.ofNat 8 v.2) 0 ∧ d = desc false ∧
        s.hostOpen = true ∧ s.matchFrame 0 fr = some (0, 0, d) ∧ fr.headerOk (descSsz d) = true ∧ fr.nat 3 1 = v.1 ∧ fr.nat 6 2 = v.2 ∧
        (find s.sources 0).bind (·.high) = none ∧ s.haltedOn 0 = []) ∧
      (∃ s fr d, s = streaming false source ∧ fr = frame 0 1 1 ∧ d = desc false ∧ s.hostOpen = true ∧ s.matchFrame 0 fr = some (0, 0, d) ∧
        fr.headerOk (descSsz d) = false ∧ fr.headerOk 0 ≠ true ∧ find s.sources 0 = some source) ∧
      (∃ s d g, s = streaming true source ∧ d = desc true ∧ s.streamOf 0 = some (0, d) ∧ (d.getD 0 0).getLsbD 2 = true ∧
        s.locate 0 ((d.getD 2 0).toNat + slotBytes d * (1 % descSlots d)) = some g ∧ ∀ j, s.foreignKey (g.2 + j) 0 = false) ∧
      (∀ v ∈ [(50000000, true), (49999999, false)], ∃ s : State, s = { streaming false source with time := ⟨v.1, 1⟩ } ∧ find s.sources 0 = some source ∧
        (source.kaAt.add (Frac.ofNat 50000000)).le s.time = v.2) ∧
      ∃ s : State, s = { streaming false source with regions := [{ sourced with src := 8 }] } ∧ ((((s.vf 0).cadence.getD 0 []).getD 2 0).getLsbD 0) = true ∧
        0 < s.regions.length ∧ s.sourceKey (s.region 0) = 64 * (0 + 1) + 8 + 0 ∧ (s.region 0).gauge = .locked ∧ (s.region 0).stamps ≠ [] ∧ (s.region 0).srcN < 6 := by
  refine ⟨?_, ⟨_, _, _, rfl, rfl, rfl, rfl, by decide, by decide, by decide, rfl⟩, ⟨_, _, (page, 0x20080), rfl, rfl, by decide, by decide, by decide +kernel, fun j => rfl⟩, ?_,
    ⟨_, rfl, by decide, by decide, by decide, rfl, by decide, by decide⟩⟩ <;>
    intro v hv <;> simp only [List.mem_cons, List.not_mem_nil, or_false] at hv
  · rcases hv with rfl | rfl | rfl | rfl <;> exact ⟨_, _, _, rfl, rfl, rfl, rfl, by decide, by decide, by decide, by decide, rfl, by decide⟩
  · rcases hv with rfl | rfl <;> exact ⟨_, rfl, rfl, by decide⟩

/-- A payload: an address, eight bytes of `op`, and from byte 32 on eight bytes of `x` and eight of `y`. -/
def payload (pa op x y : Nat) : List Byte := leBytes 8 pa ++ leBytes 8 op ++ leBytes 16 1 ++ leBytes 8 x ++ leBytes 8 y

/-- A read, a write and an atomic of memory; the answers to a beat and to a host read; a gauge flit; a time flit of package 0; training to eight, four
and no lanes; a failure, the first and the sixteenth; a port that is down at last. -/
theorem witness_FlitsAct :
    (∀ ty ∈ [(1 : BitVec 4), 2, 3], ∃ s fl, s = linked Job.zero still ∧ fl = flit ty 8 (payload 0x50000 3 9 8) ∧ Accepts ty.toNat s 0 fl ∧
        inMemory fl.pa (min fl.param.toNat 64) = true ∧ inMemory fl.pa fl.data.length = true ∧ inMemory fl.pa (min fl.param.toNat 8) = true ∧
        s.badIn .dram fl.pa (min fl.param.toNat 64) = false ∧ s.badIn .dram fl.pa (min fl.param.toNat 8) = false ∧
        (∀ j, s.foreignKey (fl.pa + j) fl.part.toNat = false) ∧ (∀ w ∈ s.dram.log, w.who.unit = 202 → w.key ≤ s.nextId) ∧
        atomNew (leNat ((fl.payload.drop 40).take 8)) (leNat (s.dram.bytes fl.pa (min fl.param.toNat 8))) (BitVec.ofNat 64 (fl.nat 32 8))
          (BitVec.ofNat 64 (fl.nat 8 8)) = (some 3, 0)) ∧
      (∃ s fl un b q, s = { linked Job.zero still with units := [(0, un)] } ∧ fl = flit 4 8 (payload 0x50000 3 9 8) ∧ un = { unit 0 with beats := [b] } ∧
        b = { beat with plan := ⟨[q], .mem q, .raw, 8, []⟩ } ∧ q = ⟨.remote 2, 0x50000, 8, 0⟩ ∧ fl.unit ≠ 200 ∧ Accepts 4 s 0 fl ∧
        s.unit? fl.unit.toNat = some un ∧ b ∈ un.beats ∧ b.chan = fl.chan.toNat ∧ b.tid = fl.xid.toNat ∧ b.got = false ∧ q ∈ b.plan.reads ∧
        q.space = .remote fl.spkg.toNat ∧ q.addr = fl.pa) ∧
      (∃ s fl un b q, s = { linked Job.zero still with units := [(0, un)] } ∧ fl = flit 5 8 (payload 0x50000 3 9 8) ∧ un = { unit 0 with beats := [b] } ∧
        b = { beat with plan := ⟨[], .atomic q, .raw, 8, []⟩ } ∧ q = ⟨.remote 2, 0x50000, 8, 0⟩ ∧ Accepts 5 s 0 fl ∧ s.unit? fl.unit.toNat = some un ∧
        b ∈ un.beats ∧ b.chan = fl.chan.toNat ∧ b.tid = fl.xid.toNat ∧ b.got = false ∧ b.plan.sink = .atomic q ∧ q.space = .remote fl.spkg.toNat ∧
        q.addr = fl.pa) ∧
      (∃ s fl, s = { linked Job.zero still with hostReads := [(0, 0, 5, 8)] } ∧ fl = { flit 4 8 (payload 5 3 9 8) with unit := 200 } ∧ Accepts 4 s 0 fl ∧
        fl.unit = 200 ∧ (s.hostReads.find? fun h => h.1 == fl.xid.toNat) = some (fl.xid.toNat, 0, 5, 8)) ∧
      (∃ s fl t0, s = linked Job.zero still ∧ fl = flit 6 3 (payload 6 500 0 0) ∧ t0 = Frac.norm ⟨fl.nat 8 8, max 1 (fl.nat 16 8)⟩ ∧ Accepts 6 s 0 fl ∧
        (t0.add (Frac.ofNat 1000)).lt s.time = false) ∧
      (∃ s fl, s = { linked Job.zero still with boot := ⟨5, false, [], 1, [(0, 1), (0, 0), (0, 1)], 900, 100, 1200⟩ } ∧ fl = { flit 11 0 (payload 77 0 0 0) with spkg := 0 } ∧ Accepts 11 s 0 fl ∧
        fl.spkg.toNat = s.lowest ∧ s.lowest ≠ s.boot.pkgNo) ∧
      ∀ v ∈ [0, 15], ∃ s : State, s = { linked Job.zero still with ports := ⟨4, 0, 0, 0, 0, v, 1, 0, 0, 0⟩ :: State.reset.ports.tail } ∧ 0 < s.ports.length ∧
        s.boot.step = 5 ∧ (s.port 0).lanes ≠ 0 ∧ (16 ≤ (s.port 0).fails + 1 ∨ v = 0) ∧ 16 ≤ ({ s.port 0 with fails := 16 } : Port).fails := by
  refine ⟨?_, ⟨_, _, _, _, _, rfl, rfl, rfl, rfl, rfl, by decide, ⟨rfl, by decide, rfl, rfl, rfl⟩, rfl, by decide, rfl, rfl, rfl, by decide, rfl, by decide⟩,
    ⟨_, _, _, _, _, rfl, rfl, rfl, rfl, rfl, ⟨rfl, by decide, rfl, rfl, rfl⟩, rfl, by decide, rfl, rfl, rfl, rfl, rfl, by decide⟩,
    ⟨_, _, rfl, rfl, ⟨rfl, by decide, rfl, rfl, rfl⟩, rfl, rfl⟩, ⟨_, _, _, rfl, rfl, rfl, ⟨rfl, by decide, rfl, rfl, rfl⟩, by decide⟩,
    ⟨_, _, rfl, rfl, ⟨rfl, by decide, rfl, rfl, rfl⟩, by decide, by decide⟩, ?_⟩ <;>
    intro v hv <;> simp only [List.mem_cons, List.not_mem_nil, or_false] at hv
  · rcases hv with rfl | rfl | rfl <;> exact ⟨_, _, rfl, rfl, ⟨rfl, by decide, rfl, rfl, rfl⟩, by decide, by decide, by decide, by decide, by decide, fun j => rfl,
      by decide, by decide +kernel⟩
  · rcases hv with rfl | rfl <;> exact ⟨_, rfl, by decide, rfl, by decide, by decide, by decide⟩

/-- A port whose sixteenth failure in a row has come. -/
theorem witness_FlitsAct_down : ∃ s : State, s = { linked Job.zero still with ports := ⟨4, 0, 0, 0, 0, 16, 1, 0, 0, 0⟩ :: State.reset.ports.tail } ∧
    0 < s.ports.length ∧ (s.port 0).lanes ≠ 0 ∧ 16 ≤ (s.port 0).fails :=
  ⟨_, rfl, by decide, by decide, by decide⟩

/-- Firmware images of which every check passes but those named. -/
def firmware (a b c d : Bool) : BootImage := ⟨a, b, c, d, [1, 2, 3, 4], 1, [], 900, 100, 1200⟩

/-- Boot that passes and one that fails at each check; a responder in each stage; a session open, set up and to end; a key set and refused. -/
theorem witness_BootAndAttest :
    (State.reset.boot.step = 0 ∧ State.reset.boot.failed = false ∧ (firmware true true true true).configOk = true ∧ (firmware false true true true).loaderOk = false) ∧
      (∀ n ∈ [0, 1, 2, 3], ∃ s : State, s = { linked Job.zero still with spdm := [(0, ⟨n, [(7, false, 0), (8, true, 0)]⟩)] } ∧ s.responds 0 = true ∧
        (s.spdmOf 0).stage = n ∧ find (s.spdmOf 0).sessions 7 = some (false, 0) ∧ find (s.spdmOf 0).sessions 8 = some (true, 0) ∧
        s.measurement 0 5 = some (0 :: leBytes 8 0)) ∧
      ∀ n ∈ [0, 1], ∃ s : State, s = { hosted Job.zero { Vf.zero with tdi := n } [] with spdm := [(64, ⟨3, [(8, true, 0)]⟩)] } ∧ s.responds 64 = true ∧
        find (s.spdmOf 64).sessions 8 = some (true, 0) ∧ (s.vf 0).tdi = n := by
  refine ⟨⟨rfl, rfl, rfl, rfl⟩, ?_, ?_⟩ <;> intro v hv <;> simp only [List.mem_cons, List.not_mem_nil, or_false] at hv
  · rcases hv with rfl | rfl | rfl | rfl <;> exact ⟨_, rfl, rfl, rfl, rfl, rfl, rfl⟩
  · rcases hv with rfl | rfl <;> exact ⟨_, rfl, rfl, rfl, rfl⟩

/-- A walker whose turn has come, at a word that decodes and at one that does not, and before a pass of its loop; an input and a timer that come first. -/
theorem witness_StepRunsDecoded :
    (∀ w ∈ [((0x084A1100 : W32), true), (0x0FC00000, false)], ∃ (s : State) (un : Machine.Unit), s = { bench 0 un with agenda := [(0, 0)] } ∧
        un = { unit 0 with istore := [w.1] } ∧ s.stage = stageIssue ∧ s.unit? 0 = some un ∧ un.run = .running ∧ (un.wk 0).slot = .walking 0 ∧
        un.startsPass (s.now un) 0 = false ∧ (decodeNat (un.word 0) (un.istore.getD ((un.wk 0).idx + 1) 0).toNat (un.istore.getD ((un.wk 0).idx + 2) 0).toNat).isOk = w.2) ∧
      (∃ (s : State) (un : Machine.Unit), s = { bench 0 un with agenda := [(0, 0)] } ∧
        un = (unit 0).setWk 0 (fun w => { w with idx := 1, inner := some { level with started := false } }) ∧ s.stage = stageIssue ∧ s.unit? 0 = some un ∧
        un.run = .running ∧ (un.wk 0).slot = .walking 0 ∧ un.startsPass (s.now un) 0 = true) ∧
      (∃ s : State, s = { State.reset with inputs := [(⟨5, 1⟩, .jobStep 0)] } ∧ s.stage = 0 ∧ s.unwritten = none ∧ s.earliest = some (⟨5, 1⟩, .input 0) ∧
        s.inputs[0]? = some (⟨5, 1⟩, .jobStep 0)) ∧
      ∃ s : State, s = { State.reset with timers := [(⟨5, 1⟩, .event (.jobStep 0))] } ∧ s.stage = 0 ∧ s.unwritten = none ∧
        s.earliest = some (⟨5, 1⟩, .timer 0) ∧ s.timers[0]? = some (⟨5, 1⟩, .event (.jobStep 0)) := by
  refine ⟨?_, ⟨_, _, rfl, rfl, rfl, rfl, rfl, rfl, by decide⟩, ⟨_, rfl, rfl, rfl, rfl, rfl⟩, ⟨_, rfl, rfl, rfl, rfl, rfl⟩⟩
  intro v hv
  simp only [List.mem_cons, List.not_mem_nil, or_false] at hv
  rcases hv with rfl | rfl <;> exact ⟨_, _, rfl, rfl, rfl, rfl, rfl, rfl, by decide, by decide⟩

/-- A word and one with two literal words. -/
theorem witness_EncodeDecode : (wellFormed (.add 1 5 1 2) = true ∧ encode (.add 1 5 1 2) ≠ []) ∧
    wellFormed (.liLit 1 3 1 0x23456789 1) = true ∧ encode (.liLit 1 3 1 0x23456789 1) ≠ [] := by decide

/-- The cast-on of `witness_PatternsAdvance`, and the start of a kernel whose unit is as it leaves it. -/
theorem witness_CastOnState :
    (∃ s : State, s = { paged (benchAt 99 (unit 0)) with units := [], kernels := [waiting], rcbs := [{ rcb with save0 := 0, save1 := 0 }] } ∧
        s.kernels[0]? = some waiting ∧ waiting.state = .ready ∧ s.waiters = [0] ∧ s.budgetFits waiting = true ∧
        placeUnits waiting.shape waiting.n (s.freeFor waiting) = some [0] ∧ (∃ l, s.loadOf waiting = some l ∧ (l.text == [0]) = true) ∧ [0].Nodup) ∧
      ∃ (s : State) (ker : Kernel) (un : Machine.Unit), s = { benchAt 128 un with kernels := [ker] } ∧ un = State.reset.freshUnit 0 (fetchKernel 0) 0 0 [7] ∧
        ker = { fetchKernel 0 with state := .loaded } ∧ s.kernels[0]? = some ker ∧ ker.live = [0] ∧ ker.live.Nodup ∧ s.unit? 0 = some un ∧ AsCastOn [7] un := by
  refine ⟨⟨_, rfl, rfl, rfl, by decide +kernel, by decide +kernel, by decide +kernel, met (by decide +kernel), by decide⟩,
    ⟨_, _, _, rfl, rfl, rfl, rfl, rfl, by decide, rfl, ?_⟩⟩
  exact ⟨rfl, by decide, by decide, by decide, by decide, by decide, by decide, rfl, rfl, rfl, rfl, ⟨rfl, rfl⟩, rfl, rfl, rfl, by decide, fun a => rfl, fun i => rfl, by decide⟩

/-- `add` on the bench. -/
theorem witness_WordsStayInTheUnit : encode (.add 1 5 1 2) ≠ [] ∧ (∃ t, exec (.add 1 5 1 2) (bench 0 (unit 0)) = .next t) ∧
    (bench 0 (unit 0)).unit? (bench 0 (unit 0)).focus.1 = some (unit 0) := by
  exact ⟨by decide, ⟨_, rfl⟩, rfl⟩

/-! ### States and operands for the clauses that the theorems above do not reach -/

/-- Targets before the text and just behind it; a word in a loop. -/
theorem witness_TransfersIssue_illegal :
    wellFormed (.br 1 2 (-1)) = true ∧ wellFormed (.br 1 2 0x10000) = true ∧ wellFormed (.j 1 (-1)) = true ∧ wellFormed (.j 1 0x10000) = true ∧
      ((0 : Nat) : Int) + (-1 : BitVec 18).toInt < 0 ∧ 65536 ≤ ((0 : Nat) : Int) + (0x10000 : BitVec 18).toInt ∧
      (∃ e v, e = entry true true false 65536 ∧ v = stood 0 (unitS 0 (unit 0) e) ∧ Ready (ctl 1) (bench 0 (unitS 0 (unit 0) e)) 0 0 v ∧
        v.steerSource 0 2 = .entry e ∧ (v.wk 0).idx = 0 ∧ e.c = true ∧ e.tv = true ∧ e.pt = false ∧ e.pc = false ∧ 65536 ≤ e.t) ∧
      (∃ v, v = stood 0 (unitX 0 [(1, ⟨65536, false⟩)]) ∧ Ready (ctl 1) (bench 0 (unitX 0 [(1, ⟨65536, false⟩)])) 0 0 v ∧
        fetch 0 v [1] = .ok ([⟨65536, false⟩], v) ∧ ownPort 0 [1] = false) ∧
      ∃ un, un = (unit 0).setWk 0 (fun w => { w with inner := some level }) ∧ Ready (ctl 1) (bench 0 un) 0 0 (stood 0 un) ∧
        ((stood 0 un).wk 0).inner.isSome = true ∧ fetch 0 (stood 0 un) [1] = .ok ([Val.zero], stood 0 un) :=
  ⟨rfl, rfl, rfl, rfl, by decide, by decide, ⟨_, _, rfl, rfl, ready_bench rfl, rfl, rfl, rfl, rfl, rfl, rfl, by decide⟩, ⟨_, rfl, ready_bench rfl, rfl, rfl⟩,
    ⟨_, rfl, ready_bench rfl, rfl, rfl⟩⟩

/-- A `ret` in a loop. -/
theorem witness_CallsAndReturnsIssue_loop : ∃ un, un = (unit 0).setWk 0 (fun w => { w with inner := some level }) ∧ Ready (ctl 1) (bench 0 un) 0 0 (stood 0 un) ∧
    ((stood 0 un).wk 0).inner.isSome = true := ⟨_, rfl, ready_bench rfl, rfl⟩

/-- A `bar` of walker 0 beside an instance in which walker 1 still stands. -/
theorem witness_PhaseAndBarIssue_anew : ∃ un, un = { unit 0 with bars := [⟨0, 7, 2, 0, 0, ⟨[], 0⟩, [1], some 0, true⟩] } ∧
    Ready (ctl 1) (bench 0 un) 0 0 (stood 0 un) ∧ (stood 0 un).bars.find? (fun b => b.word == ((stood 0 un).wk 0).idx && b.ws.contains 0) = none ∧
    ∀ j, j < 4 → (1 : BitVec 4).toNat.testBit j = true → ((stood 0 un).wk j).idx = ((stood 0 un).wk 0).idx ∧ (stood 0 un).stands j = true ∧
      ∀ b ∈ (stood 0 un).bars, b.word = ((stood 0 un).wk 0).idx → j ∉ b.ws :=
  ⟨_, rfl, ready_bench rfl, rfl, by decide +kernel⟩

/-- A matched message toward a queue with seven entries, and with eight. -/
theorem witness_MessagesIssue_queue : ∀ n ∈ [7, 8], ∃ un, un = { (unit 0).setWk 0 (fun w => { w with matched := true }) with
      queues := (unit 0).queues.set 1 (List.replicate n Val.zero, 1) } ∧ Ready (ctl 1) (bench 0 un) 0 0 (stood 0 un) ∧ ((stood 0 un).wk 0).matched = true ∧
    ownPort 0 [13] = false ∧ isPort 13 = true ∧ ((stood 0 un).queue (outQueue 0 13)).1.length + ((stood 0 un).queue (outQueue 0 13)).2 = n + 1 := by
  intro n hn
  simp only [List.mem_cons, List.not_mem_nil, or_false] at hn
  rcases hn with rfl | rfl <;> exact ⟨_, rfl, ready_bench rfl, rfl, rfl, rfl, rfl⟩

/-- A descriptor with START of kind 1 and of kind 0 and ADDR 2^30, device virtual; and one whose ADDR is 8. -/
theorem witness_TrigIssues_dva :
    (∀ k ∈ [(1 : W64), 0], ∃ un v, un = { unitX 0 [(1, ⟨0x3FFFE0, false⟩)] with
          store := ⟨(if k = 1 then [(0x3FFFE0, 1)] else []) ++ [(0x3FFFF3, 0x40), (0x3FFFF7, 0x80)], []⟩ } ∧ v = stood 0 un ∧ Ready sysWord (bench 0 un) 0 0 v ∧
        fetch 0 v [1] = .ok ([⟨0x3FFFE0, false⟩], v) ∧ v.trigs.length = 16 ∧ v.badAt 0x3FFFE0 32 = false ∧
        [k, 0, 0x8000000040000000, 0] = (List.range 4).map (fun i => BitVec.ofNat 64 (leNat ((List.range 8).map fun b =>
          (v.storeNow 0).readBy (seesLoad 0) (0x3FFFE0 + 8 * i + b))))) ∧
      (∃ un v, un = { unitX 0 [(1, ⟨0x3FFFE0, false⟩)] with store := ⟨[(0x3FFFF0, 8)], []⟩ } ∧ v = stood 0 un ∧ Ready sysWord (bench 0 un) 0 0 v ∧
        [0, 0, (8 : W64), 0] = (List.range 4).map (fun i => BitVec.ofNat 64 (leNat ((List.range 8).map fun b =>
          (v.storeNow 0).readBy (seesLoad 0) (0x3FFFE0 + 8 * i + b))))) ∧
      condOk 1 = true ∧ trigAddrOk 0 0x8000000040000000 = true ∧ copyPlace 0 0x8000000040000000 = some (.dva (2 ^ 30)) ∧ trigAddrOk 0 8 = false := by
  refine ⟨?_, ⟨_, _, rfl, rfl, ready_bench rfl, by decide +kernel⟩, rfl, by decide +kernel, by decide +kernel, by decide +kernel⟩
  intro k hk
  simp only [List.mem_cons, List.not_mem_nil, or_false] at hk
  rcases hk with rfl | rfl <;> exact ⟨_, _, rfl, rfl, ready_bench rfl, rfl, rfl, rfl, by decide +kernel⟩

/-- A message to a full queue; a load to a queue; a refill of the last window; a write of the first and of the last system register that can be written. -/
theorem witness_ResultsLand_queues :
    (∃ un v p, un = { landing (.push 1 ⟨1, true⟩ true) with queues := (unit 0).queues.set 1 (List.replicate 8 Val.zero, 1) } ∧ (bench 0 un).unit? 0 = some un ∧
        un.loadUe 0 = none ∧ un.nextLanding 0 = some p ∧ v = un.unlist p ∧ p.eff = .push 1 ⟨1, true⟩ true ∧ 8 ≤ (v.queue 1).1.length) ∧
      (landing (.load 0 13 (some 1) 0x3FFFF8 8 false 0)).loadUe 0 = none ∧
      ((landing (.refill 0 7 0x3FFF00 0)).loadUe 0 = none ∧ 0 < (unit 0).walkers.length ∧ ((unit 0).wk 0).x.length = 144 ∧ ((unit 0).wk 0).ras.length = 8) ∧
      ((∀ r ∈ [0, 0x4FF], (landing (.csr r 1)).loadUe 0 = none) ∧ csrWritable 0 = true ∧ csrWritable 0x426 = true ∧ (unit 0).walkers.length = 4 ∧
        (∀ w ∈ (unit 0).walkers, w.head.length = 4) ∧ (unit 0).flagCnt.length = 256) := by
  refine ⟨⟨_, _, ⟨0, 1, 0, _⟩, rfl, rfl, rfl, rfl, rfl, rfl, by decide⟩, rfl, ⟨rfl, by decide, rfl, rfl⟩, ⟨?_, rfl, rfl, rfl, by decide, List.length_replicate⟩⟩
  intro r hr
  simp only [List.mem_cons, List.not_mem_nil, or_false] at hr
  rcases hr with rfl | rfl <;> rfl

/-- Loaded lanes of each width; constants at both ends of their file; each field of the shadow configuration; an image of a window, poisoned or not; an
acquire for which a command waits. -/
theorem witness_SharedResultsLand_loads :
    ((landing (.vload 3 [(0, 0x3FFFFC, 4, 0), (1, 0, 2, 0), (2, 0, 1, 0), (3, 0, 0, 0), (255, 0, 8, 0)] true)).loadUe 0 = none ∧
        ([(0, 0x3FFFFC, 4, 0), (1, 0, 2, 0), (2, 0, 1, 0), (3, 0, 0, 0), (255, 0, 8, 0)].map (fun e : Nat × Nat × Nat × Nat => e.1)).Nodup) ∧
      ((landing (.kload 0 64 0 0)).loadUe 0 = none ∧ 0 + 64 ≤ (unit 0).k.length) ∧ ((landing (.kset 63 1 true)).loadUe 0 = none ∧ 63 + 1 ≤ (unit 0).k.length) ∧
      (∀ f ∈ [CfgField.fmt, .shape, .scale, .zp, .sparse], (landing (.cfg f 1 true)).loadUe 0 = none) ∧
      (∀ b ∈ [true, false], (landing (.accLoad 15 0x3FC000 0 1 b)).loadUe 0 = none) ∧
      ∃ un x, un = { moving x with pend := [⟨0, 3, 0, .acquire 2⟩] } ∧ x = { move with acq := true, scope := 2 } ∧ un.loadUe 0 = none ∧ x ∈ (un.ch 0).cmds ∧
        x.snap = none ∧ x.t + max 1 (un.lat.lsc.getD 2 1) ≤ 0 + 1 + 63 := by
  refine ⟨⟨rfl, by decide⟩, ⟨rfl, by decide⟩, ⟨rfl, by decide⟩, ?_, ?_, ⟨_, _, rfl, rfl, rfl, List.mem_cons_self, rfl, by decide +kernel⟩⟩ <;>
    intro f hf <;> simp only [List.mem_cons, List.not_mem_nil, or_false] at hf
  · rcases hf with rfl | rfl | rfl | rfl | rfl <;> rfl
  · rcases hf with rfl | rfl <;> rfl

/-- A multiply of a stage that is not live, dense and of a pair, with its acquire and its release; passes that start while the level drains, one that runs
and one behind the last; requests that meet the start of a pass that runs and of one that does not. -/
theorem witness_LoopPassesStart_drain :
    (∀ i ∈ [Instr.mma 0 2 1 1 2, .mmaPair 0 2 0 0 0], ∃ f un v, plainInfo i = some f ∧
        un = (unit 1).setWk 1 (fun w => { w with idx := 1, inner := some { level with pass := 9 } }) ∧ v = un.standing 1 0 ∧ Dead f (bench 1 un) 0 1 v) ∧
      (∀ d ∈ [(0, some 3, 3), (0, some 2, 2)], ∃ un l, un = { (unit 0).setWk 0 (fun w => { w with inner := some l }) with p0 := some d.1 } ∧
        l = { level with started := false, pass := d.2.2, drain := d.2.1 } ∧ (bench 0 un).unit? 0 = some un ∧ un.p0 = some 0 ∧
        (l.trip ≤ l.drain.getD l.pass ∨ l.runs l.pass = true)) ∧
      ∀ p ∈ [0, 2], ∃ un l, un = { (unit 0).setWk 0 (fun w => { w with inner := some l }) with request := some 0 } ∧
        l = { level with started := false, pass := p } ∧ (bench 0 un).unit? 0 = some un ∧ un.p0 = none ∧ un.request = some 0 ∧ l.drain.getD l.pass = p := by
  refine ⟨?_, ?_, ?_⟩ <;> intro i hi <;> simp only [List.mem_cons, List.not_mem_nil, or_false] at hi
  · rcases hi with rfl | rfl <;> exact ⟨_, _, _, rfl, rfl, rfl, _, ⟨rfl, rfl, rfl, by decide, ⟨0, rfl, by decide⟩, rfl, rfl, .inl rfl, by decide, rfl, .inr rfl, by decide,
      .inl rfl, rfl, rfl⟩, by decide, rfl⟩
  · rcases hi with rfl | rfl <;> exact ⟨_, _, rfl, rfl, rfl, rfl, by decide⟩
  · rcases hi with rfl | rfl <;> exact ⟨_, _, rfl, rfl, rfl, rfl, rfl, rfl⟩

/-- A message of unit 1 to a `recvc` of unit 0 whose destination is a register, a queue with room and a full queue. -/
theorem witness_BoundariesComplete_message : ∀ d ∈ [(5, 0, true), (13, 7, true), (13, 8, false)], ∃ s s1 snd un x, s = { bench 0 (unit 0) with units := [(0, un), (1, snd)] } ∧
    x = ⟨0, 0, ⟨7, false⟩, 0⟩ ∧ snd = { unit 0 with outbox := [x] } ∧
    un = { unit 0 with istore := [0x08000000 ||| 0x06C00001 ||| (BitVec.ofNat 32 d.1 <<< 17) ||| (1 <<< 12)], queues := (unit 0).queues.set 1 (List.replicate d.2.1 Val.zero, 0) } ∧
    s.unit? 1 = some snd ∧ clusterOf 1 = clusterOf 0 ∧ (snd.outbox.filter fun x => x.dst == 0 && decide (x.arrive ≤ s.now snd)) = [x] ∧
    (∀ e ∈ s.units, e.1 ≠ 1 → e.2.outbox = []) ∧
    s1 = s.setUnit 1 { snd with outbox := snd.outbox.filter fun y => !(y.dst == 0 && decide (y.arrive ≤ s.now snd)) } ∧ s1.unit? 0 = some un ∧
    un.region = snd.region ∧ un.run = .running ∧ un.receives 0 (inCluster 1) = some d.1 ∧ (∀ j < 0, un.receives j (inCluster 1) = none) ∧ un.room 0 d.1 = d.2.2 := by
  intro d hd
  simp only [List.mem_cons, List.not_mem_nil, or_false] at hd
  rcases hd with rfl | rfl | rfl <;> refine ⟨_, _, _, _, _, rfl, rfl, rfl, rfl, rfl, rfl, rfl, ?_, rfl, rfl, rfl, rfl, rfl, fun j h => absurd h (Nat.not_lt_zero j), rfl⟩ <;>
    intro e he hn <;> simp only [List.mem_cons, List.not_mem_nil, or_false] at he <;> rcases he with rfl | rfl <;> first | rfl | exact absurd rfl hn

/-- Results of an atomic add that has been performed, in time and late, with a flag. -/
theorem witness_AtomicsAndCompletion_late : ∀ l ∈ [true, false], ∃ un b q x, un = { moving x with beats := [b] } ∧
    x = { move with op := .catom 13, a := 0x10000000, b := 1, dest := some (.inl 5) } ∧
    b = { beat with plan := ⟨[], .atomic q, .raw, 4, []⟩, performed := true, late := l, data := List.replicate 4 0, flags := flagNX } ∧ q = ⟨.cluster 0, 0, 4, 0⟩ ∧
    (benchAt 99 un).unit? 0 = some un ∧ (un.beats.filter fun b => !b.plain && (b.performed || b.late) && !b.got && decide (b.readAt ≤ 99)) = [b] ∧
    b.plan.sink = .atomic q ∧ (∀ p, q.space ≠ .remote p) ∧ un.cmdOf b = some x ∧ x.dest = some (.inl 5) ∧ b.performed = true ∧ b.ue = false ∧ b.late = l := by
  intro l hl
  simp only [List.mem_cons, List.not_mem_nil, or_false] at hl
  rcases hl with rfl | rfl <;> exact ⟨_, _, _, _, rfl, rfl, rfl, rfl, rfl, by decide +kernel, rfl, fun p => by simp, by decide +kernel, rfl, rfl, rfl, rfl⟩

/-- A match by a walker's store, by a beat and at the memory side. -/
def hit (c : FaultClass) : Hit := ⟨0, 1, c, 0, 0, 0, 15, 7, false⟩

/-- Windows that stop the unit in the next cycle, and the stop; a watched range that is met in each class; a report of an earlier arming, of a trigger that
is disarmed and of one as it is armed. -/
theorem witness_TriggersOpenAndClose_stops :
    (∀ k ∈ [2, 5], ∃ un g, un = triggered g ∧ g = armedT k 1 false ∧ (benchAt 99 un).unit? 0 = some un ∧ un.trigs[0]? = some g ∧ g.stopDue ≠ some 99 ∧
        g.armed = true ∧ g.isOpen = false ∧ g.seenS = true ∧ g.from_ ≤ 99 ∧ g.act = 1 ∧ g.kind = k) ∧
      (∃ un g, un = triggered g ∧ g = { armedT 2 1 false with armed := false, stopDue := some 99 } ∧ (benchAt 99 un).unit? 0 = some un ∧ un.trigs[0]? = some g ∧
        g.stopDue = some ((benchAt 99 un).now un)) ∧
      (∀ c ∈ [FaultClass.p, .i, .u], ∃ un g, un = triggered g ∧ g = { armedT 4 1 false with struck := [hit c] } ∧ (benchAt 99 un).unit? 0 = some un ∧
        un.trigs[0]? = some g ∧ g.stopDue ≠ some 99 ∧ g.armed = true ∧ g.isOpen = false ∧ g.seenS = true ∧ g.from_ ≤ 99 ∧ g.act = 1 ∧ g.kind = 4 ∧
        hit c ∈ g.struck ∧ ((benchAt 99 un).region un.region).serves 99 (hit c) = true) ∧
      ∀ a ∈ [(true, 0), (true, 5), (false, 0)], ∃ s un g, s = { linked Job.zero still with units := [(0, un)] } ∧ un = triggered g ∧
        g = { armedT 4 0 false with armed := a.1, serial := a.2 } ∧ Accepts 10 s 0 (flit 10 0 []) ∧ s.unit? ((flit 10 0 []).param.toNat / 16 % 256) = some un ∧
        un.trigs[(flit 10 0 []).param.toNat % 16]? = some g ∧ g.armed = a.1 ∧ ((g.serial == (flit 10 0 []).nat 16 8) = (a.2 == 0)) := by
  refine ⟨?_, ⟨_, _, rfl, rfl, rfl, rfl, rfl⟩, ?_, ?_⟩ <;> intro v hv <;> simp only [List.mem_cons, List.not_mem_nil, or_false] at hv
  · rcases hv with rfl | rfl <;> exact ⟨_, _, rfl, rfl, rfl, rfl, by decide, rfl, rfl, rfl, by decide, by decide, by decide⟩
  · rcases hv with rfl | rfl | rfl <;> exact ⟨_, _, rfl, rfl, rfl, rfl, by decide, rfl, rfl, rfl, by decide, by decide, by decide, List.mem_cons_self, by decide⟩
  · rcases hv with rfl | rfl | rfl <;> exact ⟨_, _, _, rfl, rfl, rfl, ⟨rfl, by decide, rfl, rfl, rfl⟩, rfl, rfl, rfl, by decide⟩

/-- The bench with partition 0's page, RCB 0 and region `r`, and in memory, at 0x30000, the word `v`, which `w` watches. -/
def watching (w : Watched) (rs : List Region) (v : Nat) : State :=
  { noded 6 0 4 0 [] with
    regions := rs, watched := [(0x30000, w)]
    dram := ⟨([v % 256, v / 256 % 256].zipIdx.filter (·.1 != 0)).map fun e => (0x30000 + e.2, BitVec.ofNat 8 e.1), []⟩ }

/-- A word nobody watches; a watched word of a WATCH node, changed and not; a STATUS without its region, of a far region, of a shed region with bit 9
clear, and else; the STATUS of a refused root, as it was put and not; an ACTION word of a unit and of none. -/
theorem witness_PatternsAdvance_watched :
    (∃ s, s = noded 6 0 4 0 [] ∧ ∀ e ∈ s.watched, e.1 ≠ 2 ^ 38 * 0 + 0x30000) ∧
      (∀ v ∈ [((4 : Byte), true), (5, false)], ∃ s nd x, s = { noded 6 0 v.1 0 [] with watched := [(0x30000, .node (2 ^ 30 + 0x20000) 0)], nodes := [nd] } ∧
        nd = (⟨2 ^ 30 + 0x20000, 0, .waiting, 0, 0, Acq.zero, Acq.zero⟩ : Node) ∧
        (s.watched.filter fun e => e.1 == 2 ^ 38 * 0 + 0x30000) = [(2 ^ 38 * 0 + 0x30000, .node (2 ^ 30 + 0x20000) 0)] ∧
        (s.nodes.find? fun n => n.addr == 2 ^ 30 + 0x20000 && n.region == 0) = some nd ∧ nd.state ≠ .cast ∧ nd.state = .waiting ∧ s.jobHalted 0 = false ∧
        s.regionRcb 0 = some rcb ∧ s.nodeInfo 0 (2 ^ 30 + 0x20000) = some x ∧
        ((s.locate 0 (x.get 32 8)).isSome && (s.readVa 0 (x.get 32 8) 8).any fun w => (w != x.get 40 8) == v.2) = true) ∧
      (∀ v ∈ [([], 0), ([], 1), ([{ fetchRegion with far := true }], 5), ([{ fetchRegion with shed := true }], 7), ([{ fetchRegion with shed := true }], 512),
          ([fetchRegion], 0)], ∃ s, s = watching (.status 0) v.1 v.2 ∧
        (s.watched.filter fun e => e.1 == 2 ^ 38 * 0 + 0x30000) = [(2 ^ 38 * 0 + 0x30000, .status 0)] ∧ s.rcbs[0]? = some rcb ∧
        v.2 = leNat (s.decipher .dram rcb.part 0x30000 (s.dram.bytes 0x30000 8)) ∧
        (s.regions.findIdx? fun r => r.rcb == 0 && r.job == rcb.job) = if v.1 = [] then none else some 0) ∧
      (∀ v ∈ [2 ^ 11 + 2 ^ 13, 0], ∃ s, s = watching (.refused 0) [] v ∧
        (s.watched.filter fun e => e.1 == 2 ^ 38 * 0 + 0x30000) = [(2 ^ 38 * 0 + 0x30000, .refused 0)] ∧
        leNat (s.decipher .dram (partOf 0) 0x30000 (s.dram.bytes 0x30000 8)) = v) ∧
      ∀ u ∈ [(0, true), (1, false)], ∃ s, s = watching (.action u.1) [] 1 ∧
        (s.watched.filter fun e => e.1 == 2 ^ 38 * 0 + 0x30000) = [(2 ^ 38 * 0 + 0x30000, .action u.1)] ∧ (s.unit? u.1).isSome = u.2 := by
  refine ⟨⟨_, rfl, by decide⟩, ?_, ?_, ?_, ?_⟩ <;> intro v hv <;> simp only [List.mem_cons, List.not_mem_nil, or_false] at hv
  · rcases hv with rfl | rfl <;>
      exact have ⟨x, h, k⟩ := met (o := State.nodeInfo _ 0 (2 ^ 30 + 0x20000)) (by decide +kernel)
        ⟨_, _, x, rfl, rfl, rfl, rfl, by decide, rfl, by decide +kernel, rfl, h, k⟩
  · rcases hv with rfl | rfl | rfl | rfl | rfl | rfl <;> exact ⟨_, rfl, rfl, rfl, by decide +kernel, by decide +kernel⟩
  · rcases hv with rfl | rfl <;> exact ⟨_, rfl, rfl, by decide +kernel⟩
  · rcases hv with rfl | rfl <;> exact ⟨_, rfl, rfl, rfl⟩

/-- A kernel that has retired, of node `node`, whose first successor is the node at 2^30 + 0x20000, and the nodes of its pattern. -/
def retiring (node : Nat) (ns : List Node) : State :=
  { noded 6 0 4 0 [] with
    units := [], nodes := ns, kernels := [{ fetchKernel 0 with state := .retiring, live := [], node, next0 := 2 ^ 30 + 0x20000 }] }

/-- Its retire with the successor new, there already, and the node itself, and with its node there and not its own successor. -/
theorem witness_PatternsAdvance_successors :
    ∀ v ∈ [(0, []), (0, [(⟨2 ^ 30 + 0x20000, 0, .waiting, 0, 0, Acq.zero, Acq.zero⟩ : Node)]), (2 ^ 30 + 0x20000, [⟨2 ^ 30 + 0x20000, 0, .cast, 0, 0, Acq.zero, Acq.zero⟩]),
        (2 ^ 30 + 0x30000, [⟨2 ^ 30 + 0x30000, 0, .cast, 0, 0, Acq.zero, Acq.zero⟩])], ∃ s ker, s = retiring v.1 v.2 ∧ s.kernels[0]? = some ker ∧
      ker.state = .retiring ∧ (∀ a, a = ker.next0 ∨ a = ker.next1 → a = 0 ∨ (s.nodeInfo ker.region a).isSome) ∧ ker.next0 ≠ 0 ∧
      (v.1 ≠ 2 ^ 30 + 0x20000 → ker.next0 ≠ ker.node) ∧ (v.1 = 0 → v.2 = [] → ∀ n ∈ s.nodes, n.addr = ker.next0 → n.region ≠ ker.region) ∧
      (v.1 = 2 ^ 30 + 0x20000 → ker.node ≠ 0 ∧ ker.node = ker.next0) ∧
      (v.1 = 2 ^ 30 + 0x30000 → ∀ n ∈ s.nodes, n.addr = ker.node → n.region = ker.region → n.queued = 0 ∧ ker.node ≠ ker.next0 ∧ ker.node ≠ ker.next1) := by
  intro v hv
  simp only [List.mem_cons, List.not_mem_nil, or_false] at hv
  rcases hv with rfl | rfl | rfl | rfl <;>
    refine ⟨_, _, rfl, rfl, rfl, ?_, by decide, by decide, by decide, by decide, by decide⟩ <;>
    · rintro a (rfl | rfl)
      · exact .inr (by decide +kernel)
      · exact .inl rfl

/-- TLPs dropped; a page read; a write behind one that waits, and behind one that is not yet performed; words of a cadence. -/
theorem witness_HostAccessesAct_order :
    (∃ s, s = hosted Job.zero { Vf.zero with tdi := 2 } [] ∧ (s.vf 0).tdi = 2) ∧
      (∃ s, s = hosted Job.zero Vf.zero [] ∧ s.hostOpen = true ∧ s.dropsTlp ⟨0, false⟩ = false ∧ (s.vf 0).waiting = [] ∧ (s.vf 0).posted.le s.time = true ∧
        2 < ((s.vf 0).cadence.getD 7 []).length) ∧
      ∀ x ∈ [{ Vf.zero with waiting := [.write 0 [1]] }, { Vf.zero with posted := ⟨1, 1⟩ }], ∃ s, s = hosted Job.zero x [] ∧ s.hostOpen = true ∧
        s.dropsTlp ⟨0, false⟩ = false ∧ s.ckBusy = false ∧ ((s.vf 0).waiting ≠ [] ∨ (s.vf 0).posted.le s.time = false) := by
  refine ⟨⟨_, rfl, rfl⟩, ⟨_, rfl, rfl, rfl, rfl, by decide, by decide⟩, ?_⟩
  intro x hx
  simp only [List.mem_cons, List.not_mem_nil, or_false] at hx
  rcases hx with rfl | rfl <;> refine ⟨_, rfl, rfl, rfl, rfl, ?_⟩
  · exact .inl (by decide)
  · exact .inr (by decide)

/-- Frames of two samples after samples 2, 4 and 5 of a ring of two slots, with and without a halted job on the source; a frame that matches the SID
alone and one that matches nothing; a slot that can be read and one that cannot. -/
theorem witness_StreamsCarry_samples :
    (∀ v ∈ [((2 : Nat), false), (4, false), (5, false), (4, true)], ∃ s fr d, s = { streaming false { source with high := some v.1 } with
          regions := [{ fetchRegion with src := 0, halted := v.2 }] } ∧ fr = { frame 0 2 0 with bytes := (frame 0 2 0).bytes ++ [5, 6, 7, 8] } ∧ d = desc false ∧
        s.hostOpen = true ∧ s.matchFrame 0 fr = some (0, 0, d) ∧ fr.headerOk (descSsz d) = true ∧ fr.nat 3 1 = 0 ∧ (s.jobs.map (·.1)).Pairwise (· < ·) ∧
        s.haltedOn 0 = if v.2 then [0] else []) ∧
      (∀ v ∈ [(8 : BitVec 16), 1], ∃ s fr, s = streaming false source ∧ fr = { frame 0 1 0 with udp := v, bytes := (frame 0 1 0).bytes.set 4 (if v = 8 then 7 else 6) } ∧
        s.hostOpen = true ∧ s.matchFrame 0 fr = none ∧ (fr.headerOk 0 = true → fr.nat 3 1 = 0) ∧ s.nearest 0 fr = some (0, 0) ∧
        find s.sources 0 = some source) ∧
      ∀ v ∈ [((2 ^ 30 + 0x20000 : W64), true), (2 ^ 33, false)], ∃ s d, d = (desc true).set 2 v.1 ∧
        s = { streaming true source with vfs := [(0, { Vf.zero with ptroot := 0x10000, streams := d :: Vf.zero.streams.tail })] } ∧ s.streamOf 0 = some (0, d) ∧
        (d.getD 0 0).getLsbD 2 = true ∧ (s.readBytes 0 ((d.getD 2 0).toNat + slotBytes d * (1 % descSlots d)) (descSsz d)).isSome = v.2 := by
  refine ⟨?_, ?_, ?_⟩ <;> intro v hv <;> simp only [List.mem_cons, List.not_mem_nil, or_false] at hv
  · rcases hv with rfl | rfl | rfl | rfl <;> exact ⟨_, _, _, rfl, rfl, rfl, rfl, by decide, by decide, by decide, by decide, by decide⟩
  · rcases hv with rfl | rfl <;> exact ⟨_, _, rfl, rfl, rfl, by decide, by decide, by decide, rfl⟩
  · rcases hv with rfl | rfl <;> exact ⟨_, _, rfl, rfl, by decide, by decide, by decide +kernel⟩
/-! ### Single steps and values that the spec writes out -/

/-- The last result in flight after walker 0 runs a word in cycle 0. -/
def lastEff (i : Instr) (l : List (Nat × Val)) : Option (Nat × Eff) :=
  match exec i (bench 0 (unitX 0 l)) with
  | .next t => ((t.unit? 0).bind fun un => (un.wk 0).inflight.getLast?).map fun p => (p.due, p.eff)
  | _ => none

/-- "Example: `divu` of 0x64 by 0 …" (04_control.md, under R84). -/
theorem test_divu_by_zero : (lastEff (.divu 1 5 1 2) [(1, ⟨0x64, false⟩)]).map (·.2) = some (.x 0 5 ⟨0xFFFFFFFFFFFFFFFF, false⟩) := by decide
theorem test_remu_by_zero : (lastEff (.remu 1 5 1 2) [(1, ⟨0x64, false⟩)]).map (·.2) = some (.x 0 5 ⟨0x64, false⟩) := by decide
theorem test_sra_by_65 :
    lastEff (.sra 1 5 1 2) [(1, ⟨0x8000000000000000, false⟩), (2, ⟨0x41, false⟩)] = some (0, .x 0 5 ⟨0xC000000000000000, false⟩) := by decide
theorem test_mulh_minus_one : (lastEff (.mulh 1 5 1 2) [(1, ⟨-1, false⟩), (2, ⟨-1, false⟩)]).map (·.2) = some (.x 0 5 ⟨0, false⟩) := by decide
/-- R84: the sum modulo 2^64. -/
theorem test_add_wraps : lastEff (.add 1 5 1 2) [(1, ⟨-1, false⟩), (2, ⟨3, true⟩)] = some (0, .x 0 5 ⟨2, true⟩) := by decide
/-- The first example of 04_control.md on constants. -/
theorem test_li_literals : (lastEff (.liLit 1 3 1 0x23456789 1) []).map (·.2) = some (.x 0 3 ⟨0x123456789, false⟩) ∧
    (lastEff (.liLit 1 3 0 0x80000000 0) []).map (·.2) = some (.x 0 3 ⟨0xFFFFFFFF80000000, false⟩) := by decide

/-- "Consider conversions from FP32 to E4M3" (03_numbers.md, under R68). -/
theorem test_e4m3_conversions :
    cvtLane 0 3 .rne false 0x43E40000 = (0x7E, flagNX) ∧ cvtLane 0 3 .rne false 0x43E80000 = (0x7E, flagNX) ∧
      cvtLane 0 3 .rne false 0x43EB0000 = (0x7F, flagOF + flagNX) ∧ cvtLane 0 3 .rne true 0x43EB0000 = (0x7E, flagSAT + flagNX) ∧
      cvtLane 0 3 .rz false 0x43EB0000 = (0x7E, flagNX) ∧ cvtLane 0 3 .rz false 0x43FA0000 = (0x7E, flagOF + flagNX) := by decide +kernel
/-- The example of 06_vector.md on conversions (R142). -/
theorem test_integer_conversions :
    cvtLane 0 5 .rne false 0xC348B333 = (0xFFFFFF80, flagSAT + flagNX) ∧ cvtLane 6 0 .rne false 9 = (0xC0E00000, 0) := by decide +kernel
/-- The example of 06_vector.md on the reduction tree (R144). -/
theorem test_reduction_tree :
    reduce (laneAdd 0) 8 ((List.range 256).map fun l =>
      if l = 0 then 0x4B800000 else if l = 64 ∨ l = 128 then 0x3F800000 else if l = 192 then 0xCB800000 else 0) 0 = ([0x3F800000], flagNX) := by decide +kernel
/-- The examples of 03_numbers.md on functions (R79): exact results raise no NX. -/
theorem test_exact_functions :
    fn32 log2Num 0x3F800000 = (0, 0) ∧ fn32 sqrtNum 0x40800000 = (0x40000000, 0) ∧ fn32 exp2Num 0xC0400000 = (0x3E000000, 0) := by decide +kernel
/-- The example of 03_numbers.md on the estimates' table (R80). -/
theorem test_rsqrt_table : rsqTable 32 = 103 := by decide +kernel
/-- The example of 03_numbers.md on L8 quantisation (R75). -/
theorem test_l8_quantises :
    l8Quantise [0x3F200000, 0x3EC00000, 0xBE800000, 0x3F600000, 0x3E000000, 0x3E800000, 0xBF400000, 0x3FA00000] (List.replicate 8 true) 0x3C00 =
      (0x15CE, 0) := by decide +kernel
/-- The example of 03_numbers.md on k-step summation (R76). -/
theorem test_kstep_sum :
    ksum ([(0x78, 0x78), (0x78, 0xF8), (0x1D, 0x19), (0x14, 0x14)].map fun p => mulNum (decodeNum e5m2 p.1) (decodeNum e5m2 p.2)) = (0x37400000, flagNX) ∧
      (add32 (decodeNum f32 0x3F800000) (decodeNum f32 0x37400000)).1 = 0x3F800060 := by decide +kernel
/-- The example of 08_copy.md on bit-field patterns (R192). -/
theorem test_pattern : patternOk 0x000C491F = true ∧
    patBytes 0x000C491F 0 10 0 [0xBB, 0, 0, 0] = [3, 0xFF, 2, 0, 0, 0, 0, 0, 0, 0] ∧ patBit 0x000C491F 10 = 32 := by decide +kernel
/-- R194: the greater of two signed numbers. -/
theorem test_atomic_max : atomNew 10 5 0 (-1) = (some 5, 0) ∧ atomNew 12 5 5 9 = (some 9, 0) ∧ atomNew 12 5 4 9 = (none, 0) := by decide
/-- R6: 900 ns at 1.75 and 1.40 GHz. -/
theorem test_region_cycles : toRc ⟨7, 4⟩ 900 = 1575 ∧ toRc ⟨7, 5⟩ 900 = 1260 := by decide

end Sys2Proof.Tests
end

