-- ==== Sys2Proof/Proofs/Issue.lean ====
section
/-! PROOFS. What every word's issue needs: the walker it finds, and the ways in which its body can answer. -/

namespace Sys2Proof.Machine

/-! ### The walker that a word's body finds -/

/-- From `v` to `w` an effect has left the unit its walkers, and walker `k` its word and its readiness to go on. -/
structure SamePlace (v w : Unit) (k : Nat) : Prop extends SameWalkers v w k where
  stopped : (w.wk k).stopped = (v.wk k).stopped

theorem SamePlace.refl (v : Unit) (k : Nat) : SamePlace v v k := ⟨.refl v k, rfl⟩

theorem SamePlace.trans {a b c : Unit} {k : Nat} (h : SamePlace a b k) (g : SamePlace b c k) : SamePlace a c k :=
  ⟨h.toSameWalkers.trans g.toSameWalkers, g.stopped.trans h.stopped⟩

/-- An effect beyond the walkers moves none. -/
theorem SamePlace.of_walkers {v w : Unit} (k : Nat) (h : w.walkers = v.walkers) : SamePlace v w k := by
  have hk : w.wk k = v.wk k := by unfold Unit.wk; rw [h]
  exact ⟨⟨by rw [h], by rw [hk]⟩, by rw [hk]⟩

/-- Operands that are read move no walker. -/
theorem SamePlace.of_fetch {k j : Nat} {v v1 : Unit} {fs : List Nat} {vs : List Val} (h : fetch k v fs = .ok (vs, v1)) : SamePlace v v1 j := by
  obtain ⟨qs, rfl⟩ := fetch_unit h; exact .of_walkers j rfl

section
variable {v w : Unit} {j : Nat} (h : SamePlace v w j)
include h

theorem SamePlace.withWalkers {w' : Unit} (e : w'.walkers = w.walkers) : SamePlace v w' j := h.trans (.of_walkers j e)

theorem SamePlace.setWk (k : Nat) (f : Walker → Walker) (hi : ∀ x, (f x).idx = x.idx := by intro _; rfl)
    (hs : ∀ x, (f x).stopped = x.stopped := by intro _; rfl) : SamePlace v (w.setWk k f) j :=
  h.trans ⟨.of_setWk w k j f hi, by rw [Unit.wk_setWk]; split <;> simp_all⟩

theorem SamePlace.enter (k due : Nat) (e : Eff) : SamePlace v (w.enter k due e) j :=
  (h.setWk k fun x => { x with inflight := x.inflight ++ [⟨due, 1, w.seq, e⟩] }).withWalkers rfl

theorem SamePlace.later (due rank : Nat) (e : Eff) : SamePlace v (w.later due rank e) j := h.withWalkers rfl

theorem SamePlace.reserve (use : List (Nat × Nat × Nat)) : SamePlace v (w.reserve use) j := h.withWalkers rfl

theorem SamePlace.raise (k due : Nat) (f : W64) : SamePlace v (w.raise k due f) j := by
  unfold Unit.raise; split
  · exact h
  · exact h.later ..

theorem SamePlace.steerFrom (who : Nat → Bool) (k now d : Nat) (c : Option (Bool × Bool)) (t : Option (Nat × Bool)) :
    SamePlace v (w.steerFrom who k now d c t) j := by
  unfold Unit.steerFrom; split
  · exact h.enter ..
  · exact h

theorem SamePlace.pushFrame (k : Nat) : SamePlace v (w.pushFrame k) j := h.setWk ..

end

/-- A change of walker `k` matters only as far as it goes for that walker. -/
theorem Unit.setWk_congr (v : Unit) (k : Nat) {f g : Walker → Walker} (h : f (v.wk k) = g (v.wk k)) : v.setWk k f = v.setWk k g := by
  have e : modify v.walkers k f = modify v.walkers k g := by
    refine List.ext_getElem? fun j => ?_
    rw [modify_getElem?, modify_getElem?]
    split
    · rename_i hj; subst hj
      unfold Unit.wk at h
      rw [List.getD_eq_getElem?_getD] at h
      cases hw : v.walkers[j]? with
      | none => rfl
      | some w => rw [hw] at h; exact congrArg some h
    · rfl
  unfold Unit.setWk; rw [e]

theorem Ready.stopped {f : WordInfo} {s : State} {u k : Nat} {v : Unit} (h : Ready f s u k v) : (v.wk k).stopped = false := by
  obtain ⟨un, hs, rfl⟩ := h
  unfold Unit.standing
  rw [Unit.wk_setWk]; split <;> exact hs.going

theorem Ready.walker {f : WordInfo} {s : State} {u k : Nat} {v : Unit} (h : Ready f s u k v) : k < v.walkers.length := by
  obtain ⟨un, hs, rfl⟩ := h
  rw [Unit.standing_count, hs.four]; exact hs.walker

/-! ### What the body answers -/

/-- A word whose body issues it with an effect on its own unit alone. -/
theorem Issues.of_body {f : WordInfo} {body : State → Nat → Nat → Act} {i : Instr} {s : State} {u k : Nat} {v v1 : Unit} {n : Next}
    (h : Ready f s u k v) (he : exec i s = .next (runWord f body s)) (hb : body (s.setUnit u v) u k = .go (s.setUnit u v1) n)
    (hp : SamePlace v v1 k) (hn : ∀ t a c, n = .skip t a c → t ≤ (v.wk k).idx + f.words + 65536) : Issues f n i s u k v v1 :=
  IssuesIn.of_body h he hb hp.count hp.idx (.inl (hp.stopped.trans h.stopped)) (by rw [hp.idx]; exact hn)

/-- The same for a word that skips nothing. -/
theorem Issues.of_seq {f : WordInfo} {body : State → Nat → Nat → Act} {i : Instr} {s : State} {u k : Nat} {v v1 : Unit}
    (h : Ready f s u k v) (he : exec i s = .next (runWord f body s)) (hb : body (s.setUnit u v) u k = .go (s.setUnit u v1) .seq)
    (hp : SamePlace v v1 k) : Issues f .seq i s u k v v1 :=
  .of_body h he hb hp nofun

/-- The same for a transfer. -/
theorem Issues.of_jump {f : WordInfo} {body : State → Nat → Nat → Act} {i : Instr} {s : State} {u k t a : Nat} {v v1 : Unit}
    (h : Ready f s u k v) (he : exec i s = .next (runWord f body s)) (hb : body (s.setUnit u v) u k = .go (s.setUnit u v1) (.jump t a))
    (hp : SamePlace v v1 k) : Issues f (.jump t a) i s u k v v1 :=
  .of_body h he hb hp nofun

/-- A word that waits in both modes. -/
theorem exec_wait {f : WordInfo} {body : State → Nat → Nat → Act} {i : Instr} {s : State} {u k cls : Nat} {flag : Option Nat} {v : Unit}
    (h : Ready f s u k v) (he : exec i s = .next (runWord f body s)) (hb : body (s.setUnit u v) u k = .wait cls flag) :
    exec i s = .next ((s.setUnit u v).close u k cls flag) := by
  obtain ⟨un, hs, rfl⟩ := h
  rw [he, runWord_ready hs, hb]

/-- A word that lacks an operand: a wait in lenient mode, `SCHEDULE-MISS` in strict mode (R28). -/
theorem exec_miss {f : WordInfo} {body : State → Nat → Nat → Act} {i : Instr} {s : State} {u k flag : Nat} {v : Unit}
    (h : Ready f s u k v) (he : exec i s = .next (runWord f body s)) (hb : body (s.setUnit u v) u k = .miss flag) :
    exec i s = .next (if (s.region v.region).strict then (s.setUnit u v).takeFault u .scheduleMiss .p k 0 Detail.walker
      else (s.setUnit u v).close u k 1 (some flag)) := by
  obtain ⟨un, hs, rfl⟩ := h
  rw [he, runWord_ready hs, hb]; rfl

end Sys2Proof.Machine
end

