-- ==== Sys2Proof/Proofs/Words.lean ====
section
/-! PROOFS. Steer words, and the conditional branches that read them (O4, O6). -/

namespace Sys2Proof.Machine

/-! ### Words that write a steer entry (R14, R91-R96) -/

theorem lowest_iff (who : Nat → Bool) (k : Nat) : lowest who k = true ↔ ∀ j < k, who j = false := by
  simp [lowest]

/-- The body's write is that of the lowest walker named (R14). -/
theorem ite_lowest_eq_steerFrom (v : Unit) (who : Nat → Bool) (k now d : Nat) (c : Option (Bool × Bool)) (t : Option (Nat × Bool)) :
    (if lowest who k then v.writeSteer k (v.wk k).idx now d c t else v) = v.steerFrom who k now d c t := by
  unfold Unit.steerFrom
  by_cases h : lowest who k = true
  · rw [if_pos h, if_pos ((lowest_iff who k).mp h)]
  · rw [if_neg h, if_neg fun g => h ((lowest_iff who k).mpr g)]

/-- Where its sources can be read, the body of a steer-writing word enters its write. -/
theorem steerBody_go {who : Nat → Bool} {d : Nat} {srcs : List Nat} {f : List Val → Option (Bool × Bool) × Option (Nat × Bool)} {s : State}
    {u k : Nat} {v v1 : Unit} {vs : List Val} (hp : ownPort k srcs = false) (hf : v.full k = false) (h : fetch k v srcs = .ok (vs, v1)) :
    steerBody who true d srcs f (s.setUnit u v) u k =
      .go (s.setUnit u (v1.steerFrom who k (s.now v) d (f vs).1 (f vs).2)) .seq := by
  simp only [steerBody, State.unit?_setUnit_self, hp, hf, h, Bool.not_true, Bool.or_self, Bool.false_eq_true, if_false, State.setUnit_setUnit,
    State.now_setUnit, ← ite_lowest_eq_steerFrom, (SamePlace.of_fetch (j := k) h).idx]

/-- The operands' values, one by one. -/
theorem getD_map_bits (vs : List Val) (n : Nat) : (vs.map Val.bits).getD n 0 = (arg vs n).bits := by
  simp only [arg, List.getD_eq_getElem?_getD, List.getElem?_map]
  cases vs[n]? <;> rfl

/-- What a steer word gives of its operands' values: each half with the poison of them all. -/
def SteerWord.given (r : SteerWord) (vs : List Val) : Option (Bool × Bool) × Option (Nat × Bool) :=
  ((r.c (vs.map Val.bits)).map fun c => (c, poisonOf vs), (r.t (vs.map Val.bits)).map fun t => (t, poisonOf vs))

/-- The meaning of a compare of two registers, or of one and an immediate, or of `mvst`. -/
def SteerWord.MeansBody (r : SteerWord) (i : Instr) : Prop :=
  ∃ f, (∀ s, exec i s = .next (runWord (ctlSteer r.w r.d.toNat) (steerBody (ctl r.w).who (wellFormed i) r.d.toNat r.srcs f) s)) ∧
    ∀ vs : List Val, vs.length = r.srcs.length → f vs = r.given vs

theorem cmp_given (w : BitVec 4) (d a b : BitVec 5) {f g : W64 → W64 → Bool} (hg : ∀ x y, g x y = f x y) (vs : List Val) :
    cmpC g vs = (SteerWord.cmp w d a b f).given vs := by
  simp only [cmpC, SteerWord.given, SteerWord.cmp, getD_map_bits, hg, Option.map_some, Option.map_none]

theorem cmpi_given (w : BitVec 4) (d a : BitVec 5) (im : BitVec 9) {f g : W64 → W64 → Bool} (hg : ∀ x y, g x y = f x y) (vs : List Val)
    (h : vs.length = 1) : cmpC g (vs ++ [⟨im.signExtend 64, false⟩]) = (SteerWord.cmpi w d a im f).given vs := by
  obtain ⟨x, rfl⟩ := List.length_eq_one_iff.mp h
  simp [cmpC, SteerWord.given, SteerWord.cmpi, arg, poisonOf, hg, BitVec.signExtend]

theorem word_bne {n : Nat} (x y : BitVec n) : (x != y) = decide (x ≠ y) := by
  rw [bne, decide_not]; rfl

theorem word_sge (x y : W64) : (!x.slt y) = decide (y.toInt ≤ x.toInt) := by
  rw [BitVec.slt, ← decide_not]; exact decide_eq_decide.mpr not_lt

theorem word_uge (x y : W64) : (!x.ult y) = decide (y.toNat ≤ x.toNat) := by
  rw [BitVec.ult, ← decide_not]; exact decide_eq_decide.mpr not_lt

/-- Every compare and `mvst` has the meaning that R92 and R94 state over whole numbers. -/
theorem steerWord_means {i : Instr} {r : SteerWord} (h : steerWord i = some r) : r.MeansBody i := by
  unfold steerWord at h
  split at h <;> cases h
  case h_1 => exact ⟨_, fun _ => rfl, fun vs _ => cmp_given _ _ _ _ (fun _ _ => rfl) vs⟩
  case h_2 => exact ⟨_, fun _ => rfl, fun vs _ => cmp_given _ _ _ _ word_bne vs⟩
  case h_3 => exact ⟨_, fun _ => rfl, fun vs _ => cmp_given _ _ _ _ (fun _ _ => rfl) vs⟩
  case h_4 => exact ⟨_, fun _ => rfl, fun vs _ => cmp_given _ _ _ _ word_sge vs⟩
  case h_5 => exact ⟨_, fun _ => rfl, fun vs _ => cmp_given _ _ _ _ (fun _ _ => rfl) vs⟩
  case h_6 => exact ⟨_, fun _ => rfl, fun vs _ => cmp_given _ _ _ _ word_uge vs⟩
  case h_7 => exact ⟨_, fun _ => rfl, cmpi_given _ _ _ _ fun _ _ => rfl⟩
  case h_8 => exact ⟨_, fun _ => rfl, cmpi_given _ _ _ _ word_bne⟩
  case h_9 => exact ⟨_, fun _ => rfl, cmpi_given _ _ _ _ fun _ _ => rfl⟩
  case h_10 => exact ⟨_, fun _ => rfl, cmpi_given _ _ _ _ word_sge⟩
  case h_11 => exact ⟨_, fun _ => rfl, cmpi_given _ _ _ _ fun _ _ => rfl⟩
  case h_12 => exact ⟨_, fun _ => rfl, cmpi_given _ _ _ _ word_uge⟩
  case h_13 w d a =>
    refine ⟨_, fun _ => rfl, fun vs hv => ?_⟩
    obtain ⟨x, rfl⟩ := List.length_eq_one_iff.mp hv
    simp [SteerWord.given, arg, poisonOf, BitVec.getLsbD, BitVec.extractLsb'_toNat]

/-! ### Steer logic (R93) -/

theorem withSteer_entry {v : Unit} {k f : Nat} {e : SteerEntry} (g : SteerEntry → Act) (h : v.steerSource k f = .entry e) :
    v.withSteer k f g = g e := by
  unfold Unit.withSteer; rw [h]

/-- Where its sources can be read, the body of a steer-logic word enters its write; it reads one source or two. -/
theorem logicBody_go {who : Nat → Bool} {d : Nat} {srcs : List Nat} {f : List SteerEntry → Bool} {s : State} {u k : Nat} {v : Unit}
    {es : List SteerEntry} (hf : v.full k = false) (hn : srcs.length = 1 ∨ srcs.length = 2)
    (h : srcs.map (fun a => v.steerSource k a) = es.map .entry) :
    logicBody who true d srcs f (s.setUnit u v) u k =
      .go (s.setUnit u (v.steerFrom who k (s.now v) d (some (f es, es.any (·.pc))) none)) .seq := by
  have hl : srcs.length = es.length := by simpa using congrArg List.length h
  match srcs, es, hn, hl with
  | [a], [x], _, _ =>
    simp only [List.map_cons, List.map_nil, List.cons.injEq, and_true] at h
    simp [logicBody, hf, withSteer_entry _ h, ← ite_lowest_eq_steerFrom]
  | [a, b], [x, y], _, _ =>
    simp only [List.map_cons, List.map_nil, List.cons.injEq, and_true] at h
    simp [logicBody, hf, withSteer_entry _ h.1, withSteer_entry _ h.2, ← ite_lowest_eq_steerFrom]

/-- What a steer-logic word means, over the C of the entries that it reads. -/
theorem steerLogic_means {i : Instr} {w : BitVec 4} {d : BitVec 5} {srcs : List (BitVec 5)} {f : List Bool → Bool}
    (h : steerLogic i = some (w, d, srcs, f)) :
    ∃ g : List SteerEntry → Bool, (srcs.length = 1 ∨ srcs.length = 2) ∧
      (∀ s, exec i s = .next (runWord (ctlSteer w d.toNat) (logicBody (ctl w).who (wellFormed i) d.toNat (srcs.map (·.toNat)) g) s)) ∧
      ∀ es : List SteerEntry, es.length = srcs.length → g es = f (es.map (·.c)) := by
  unfold steerLogic at h
  split at h <;> cases h
  case h_1 =>
    refine ⟨_, .inr rfl, fun _ => rfl, fun es he => ?_⟩
    obtain ⟨x, y, rfl⟩ := List.length_eq_two.mp he
    simp
  case h_2 =>
    refine ⟨_, .inr rfl, fun _ => rfl, fun es he => ?_⟩
    obtain ⟨x, y, rfl⟩ := List.length_eq_two.mp he
    simp
  case h_3 =>
    refine ⟨_, .inl rfl, fun _ => rfl, fun es he => ?_⟩
    obtain ⟨x, rfl⟩ := List.length_eq_one_iff.mp he
    simp

/-! ### Targets (R37, R96) -/

/-- A relative target that lies in the text. -/
theorem relTarget_inText {i t : Nat} {o : BitVec 18} (h : (t : Int) = (i : Int) + o.toInt) (ht : t < 65536) :
    targetOk (relTarget i o) = true ∧ (relTarget i o).toNat = t := by
  unfold relTarget targetOk
  rw [← h]; simp [ht]

/-! ### Conditional branches (R97) -/

/-- A conditional branch means the body of R97. -/
theorem branchWord_means {i : Instr} {w st : BitVec 4} {on : Bool} {o : Option (BitVec 18)} (h : branchWord i = some (w, st, on, o)) (s : State) :
    exec i s = .next (runWord (ctl w) (brBody (wellFormed i) on st o) s) := by
  unfold branchWord at h
  split at h <;> cases h <;> rfl

/-- The body of a branch that stands in unit `v` reads the steer register, and goes on as the entry says. -/
theorem brBody_eq (on : Bool) (st : BitVec 4) (o : Option (BitVec 18)) (s : State) (u k : Nat) (v : Unit) :
    ∃ g, brBody true on st o (s.setUnit u v) u k = v.withSteer k st.toNat g := by
  unfold brBody
  rw [State.unit?_setUnit_self]
  exact ⟨_, rfl⟩

/-- A steer source that has not landed, or is gone, decides for the word that reads it (R15, R28). -/
theorem withSteer_notLanded {v : Unit} {k f : Nat} (g : SteerEntry → Act) (h : v.steerSource k f = .notLanded) :
    v.withSteer k f g = .miss (0x10 + f) := by
  unfold Unit.withSteer; rw [h]

theorem withSteer_slip {v : Unit} {k f : Nat} (g : SteerEntry → Act) (h : v.steerSource k f = .slip) : v.withSteer k f g = .fault .slip 0 := by
  unfold Unit.withSteer; rw [h]

end Sys2Proof.Machine

open Sys2Proof Sys2Proof.Machine

/-- Settles O4: each steer word's body enters the write that its table entry gives, of which `lowest` is R14's rule. -/
theorem steerWordsIssue : Obligations.SteerWordsIssue := by
  refine ⟨?_, ?_, ?_⟩
  · intro i r s u k v v1 vs hi hw hr hp hf h
    obtain ⟨f, he, hg⟩ := steerWord_means hi
    have hb := steerBody_go (who := (ctl r.w).who) (d := r.d.toNat) (f := f) (s := s) (u := u) hp hf h
    rw [hg vs (fetch_length h)] at hb
    exact .of_seq hr (hw ▸ he s) hb ((SamePlace.of_fetch h).steerFrom ..)
  · intro i w d srcs f s u k v es hi hw hr hf h
    obtain ⟨g, hn, he, hg⟩ := steerLogic_means hi
    have hb := logicBody_go (who := (ctl w).who) (d := d.toNat) (srcs := srcs.map (·.toNat)) (f := g) (s := s) (u := u) hf (by simpa using hn)
      (by rw [List.map_map]; exact h)
    rw [hg es (by simpa using (congrArg List.length h).symm)] at hb
    exact .of_seq hr (hw ▸ he s) hb ((SamePlace.refl v k).steerFrom ..)
  · intro w st o s u k v t hw hr hf ht hlt
    obtain ⟨h1, h2⟩ := relTarget_inText ht hlt
    refine .of_seq hr rfl ?_ ((SamePlace.refl v k).steerFrom ..)
    simp [hw, h1, h2, hf, ite_lowest_eq_steerFrom]

/-- Settles O6: a branch reads its steer register before anything else, and the read's outcome decides. -/
theorem steerReadSlips : Obligations.SteerReadSlips := by
  intro i w st on o s u k v hi hw hr
  have he := branchWord_means hi s
  rw [hw] at he
  obtain ⟨g, hb⟩ := brBody_eq on st o s u k v
  refine ⟨fun h => ?_, fun h hs => ?_, fun h hs => ?_⟩
  · exact .of_body hr he (hb.trans (withSteer_slip _ h))
  · unfold Faults; rw [exec_miss hr he (hb.trans (withSteer_notLanded _ h)), if_pos hs]
  · rw [exec_miss hr he (hb.trans (withSteer_notLanded _ h)), hs]; rfl
end

