-- ==== Sys2Proof/Proofs/Words2.lean ====
section
/-! PROOFS. Calls and returns, loops, cluster messages and the mask stack (O8, O10, O14, O17). -/

namespace Sys2Proof.Machine

/-! ### Calls (R101, R102, R104) -/

/-- A word whose body, its target `t` resolved, calls from unit `v1`. -/
theorem CallsTo.of_body {f : WordInfo} {body : State → Nat → Nat → Act} {i : Instr} {s : State} {u k t a : Nat} {v v1 : Unit}
    (h : Ready f s u k v) (he : exec i s = .next (runWord f body s)) (hp : SamePlace v v1 k) (hr : v1.region = v.region)
    (hb : body (s.setUnit u v) u k = (s.setUnit u v).call u k v1 t a) : CallsTo i f s u k v v1 t a := by
  have hnow : (s.setUnit u v).now v1 = s.now v := by simp [State.now, hr]
  unfold State.call at hb
  rw [hnow] at hb
  refine ⟨fun h8 => ?_, fun h8 hl hs hbk => ?_, fun h8 ho => ?_⟩
  · rw [if_neg (Nat.ne_of_lt h8), State.setUnit_setUnit] at hb
    exact .of_jump h he hb (hp.pushFrame k)
  · unfold bankUse at hbk
    dsimp only at hb
    rw [if_pos h8, if_neg (by omega), hbk, State.setUnit_setUnit] at hb
    refine .of_jump h he hb ((((hp.reserve _).later _ _ _).setWk k _).pushFrame k)
  · dsimp only at hb
    rw [if_pos h8, if_pos ho] at hb
    exact .of_body h he hb

/-- A taken transfer outside every loop to a word of the text (R37, R110). -/
theorem take_inText {v : Unit} {k t a : Nat} {i : Int} (hi : (v.wk k).inner = none) (ht : targetOk i = true) (h : i.toNat = t) :
    v.take k i a = .to t a := by
  simp [Unit.take, Unit.inLoop, hi, ht, h]

theorem targetOk_index {t : Nat} (h : t < 65536) : targetOk (t : Int) = true := by simp [targetOk, h]

/-- The same for an index. -/
theorem take_index {v : Unit} {k t a : Nat} (hi : (v.wk k).inner = none) (ht : t < 65536) : v.take k (t : Int) a = .to t a :=
  take_inText hi (targetOk_index ht) rfl

theorem tDelay_eq (e : SteerEntry) (now : Nat) : tDelay e now = if ∃ c, e.tAt = some c ∧ c + 3 ≤ now then 1 else 3 := by
  unfold tDelay
  cases e.tAt <;> simp

/-- A transfer through an entry with a clean target in the text (R97, R98, R100). -/
theorem takeT_inText {v : Unit} {k now : Nat} {e : SteerEntry} (hi : (v.wk k).inner = none) (hv : e.tv = true) (hp : e.pt = false)
    (ht : e.t < 65536) : v.takeT k now e = .to e.t (if ∃ c, e.tAt = some c ∧ c + 3 ≤ now then 1 else 3) := by
  simp only [Unit.takeT, hv, hp, Bool.not_true, Bool.false_eq_true, if_false, take_index hi ht, tDelay_eq]

/-- A transfer through a clean register (R99). -/
theorem takeReg_inText {v : Unit} {k : Nat} {x : Val} (hi : (v.wk k).inner = none) (hp : x.poison = false) (ht : x.bits.toNat < 65536) :
    v.takeReg k x = .to x.bits.toNat 3 := by
  simp only [Unit.takeReg, hp, Bool.false_eq_true, if_false, take_index hi ht]

/-- The walkers that reading operands leaves. -/
theorem fetch_wk {k j : Nat} {v v1 : Unit} {fs : List Nat} {vs : List Val} (h : fetch k v fs = .ok (vs, v1)) : v1.wk j = v.wk j := by
  obtain ⟨qs, rfl⟩ := fetch_unit h; rfl

theorem fetch_region {k : Nat} {v v1 : Unit} {fs : List Nat} {vs : List Val} (h : fetch k v fs = .ok (vs, v1)) : v1.region = v.region := by
  obtain ⟨qs, rfl⟩ := fetch_unit h; rfl

end Sys2Proof.Machine

open Sys2Proof Sys2Proof.Machine

/-- Settles O8: a resolved call is `State.call` in every form (`CallsTo.of_body`), and `ret` goes by the frames left. -/
theorem callsAndReturnsIssue : Obligations.CallsAndReturnsIssue := by
  refine ⟨?_, ?_, ?_, ?_, ?_⟩
  · intro w o s u k v t hw hr ht hlt hi
    obtain ⟨h1, h2⟩ := relTarget_inText ht hlt
    refine .of_body hr rfl (.refl v k) rfl ?_
    simp [hw, take_inText hi h1 h2, State.followCall]
  · intro w st s u k v e hw hr hs hv hp ht hi
    refine .of_body hr rfl (.refl v k) rfl ?_
    simp [hw, withSteer_entry _ hs, takeT_inText hi hv hp ht, State.followCall]
  · intro w a s u k v v1 x hr ho hf hp ht hi
    refine .of_body hr rfl (.of_fetch hf) (fetch_region hf) ?_
    have hi' : (v1.wk k).inner = none := by rw [fetch_wk hf]; exact hi
    simp [ho, hf, arg, takeReg_inText hi' hp ht, State.followCall]
  · intro w s u k v hr hi
    refine .of_body hr rfl ?_
    simp [Unit.inLoop, hi]
  · intro w s u k v hr hi
    refine ⟨fun h1 h0 => ?_, fun h1 ht => ?_, fun h1 h0 ht hb => ?_⟩
    · refine .of_body hr rfl ?_
      simp [Unit.inLoop, hi, h1, h0]
    · refine .of_jump hr rfl ?_ ((SamePlace.refl v k).setWk k _)
      simp only [State.unit?_setUnit_self, Unit.inLoop, hi, Nat.ne_of_gt h1, false_and, targetOk_index ht, Option.isSome_none,
        Bool.false_eq_true, if_false, Bool.not_true, State.setUnit_setUnit]
      exact congrArg (fun x => Act.go (s.setUnit u x) _) (v.setWk_congr k rfl)
    · refine .of_jump hr rfl ?_ ((((SamePlace.refl v k).setWk k _).reserve _).later _ _ _)
      unfold bankUse at hb
      simp only [State.unit?_setUnit_self, Unit.inLoop, hi, h1, h0, and_false, targetOk_index ht, Option.isSome_none, Bool.false_eq_true, if_false,
        Bool.not_true, State.setUnit_setUnit, State.now_setUnit, if_true, hb]
      exact congrArg (fun x => Act.go (s.setUnit u ((Unit.reserve x _).later _ _ _)) _) (v.setWk_congr k rfl)

/-- Settles O10: with its entry and nesting as R106 asks, the body of `loop` reaches the trip count, which decides. -/
theorem loopIssues : Obligations.LoopIssues := by
  intro w st a im g s u k v e hw hr hs hv hp hlt hle hmod ho hn hpo hb
  have hnest : (v.wk k).inner = none ∨ ∃ l, (v.wk k).inner = some l ∧ l.stages = 1 ∧ e.t ≤ l.last := by
    cases hi : (v.wk k).inner with
    | none => exact .inl rfl
    | some l => exact .inr ⟨l, rfl, hn l hi⟩
  have hlen : ¬(e.t ≤ (v.wk k).idx ∨ 4096 < e.t - (v.wk k).idx) := by omega
  have hbig : ¬4294967296 ≤ ((v.wk k).reg a.toNat).bits.toNat := Nat.not_le.mpr hb
  refine ⟨fun h0 => ?_, fun h0 => ?_⟩
  · refine .of_body hr rfl (n := .skip (e.t + 1) 1 false) ?_ (.refl v k) ?_
    · rcases hnest with hi | ⟨l, hi, hl⟩
      · simp [hw, withSteer_entry _ hs, hv, hp, hmod, ho, hlen, hi, hpo, h0]
      · simp [hw, withSteer_entry _ hs, hv, hp, hmod, ho, hlen, hi, hl, hpo, h0]
    · rintro t b c ⟨⟩; omega
  · have h0' : ((v.wk k).reg a.toNat).bits.toNat ≠ 0 := fun h => h0 (BitVec.eq_of_toNat_eq h)
    refine .of_seq hr rfl ?_ ((SamePlace.refl v k).setWk k _)
    rcases hnest with hi | ⟨l, hi, hl⟩
    · simp [hw, withSteer_entry _ hs, hv, hp, hmod, ho, hlen, hi, hpo, h0', hbig]
      exact congrArg (s.setUnit u) (v.setWk_congr k rfl)
    · simp [hw, withSteer_entry _ hs, hv, hp, hmod, ho, hlen, hi, hl, Nat.not_lt.mpr hl.2, hpo, h0', hbig]
      exact congrArg (s.setUnit u) (v.setWk_congr k rfl)

/-- Settles O14: the bodies of `sendc` and `recvc`, once their operands and queue are known. -/
theorem messagesIssue : Obligations.MessagesIssue := by
  refine ⟨?_, ?_⟩
  · intro w n a s u k v v1 x hr ho hf
    refine .of_seq hr rfl ?_ ((SamePlace.of_fetch hf).withWalkers rfl)
    simp [ho, hf, arg, clusterOf, Nat.mul_comm]
  · intro w d n s u k v hr ho
    refine ⟨fun hm hq => ?_, fun hm hp hq => ?_, fun hm => ?_⟩
    · refine .of_seq hr rfl ?_ (.refl v k)
      have : v.overflows k d.toNat = false := by
        unfold Unit.overflows
        rcases hq with hq | hq
        · simp [hq]
        · simp [Nat.not_lt.mpr hq]
      simp [ho, hm, this]
    · refine exec_wait hr rfl ?_
      simp [ho, hm, Unit.overflows, hp, hq]
    · refine exec_wait hr rfl ?_
      simp [ho, hm]

/-- A step of the mask stack that its condition allows issues; one that it does not is `ILLEGAL` (R136). -/
theorem maskOp_issues {ok : Machine.Unit → Bool} {f : Machine.Unit → Nat → Machine.Unit} {i : Instr} {s : State} {u : Nat} {v : Machine.Unit} (hr : Ready (vecWord 1) s u 2 v)
    (he : exec i s = maskOp ok f s) :
    (ok v = false → Faults i s u 2 v .illegal 0) ∧
      (ok v = true → SamePlace v (f v (s.now v)) 2 → Issues (vecWord 1) .seq i s u 2 v (f v (s.now v))) := by
  refine ⟨fun h => ?_, fun h hp => ?_⟩
  · refine .of_body hr he ?_
    simp [h]
  · refine .of_seq hr he ?_ hp
    simp [h]

/-- Settles O17: `maskOp` for the stack's words, and the body of `vskip`. -/
theorem maskWordsIssue : Obligations.MaskWordsIssue := by
  refine ⟨?_, ?_, ?_⟩
  · intro a s u v hr
    obtain ⟨hbad, hgo⟩ := maskOp_issues hr (show exec (.vpush a) s = execVpush a s from rfl)
    refine ⟨fun h => hbad (by simpa using h), fun h hp => ?_, fun h hp => ?_⟩
    · have := hgo (by simpa using h)
      simp only [hp, Bool.false_eq_true, if_false, word_bne] at this
      exact this (.of_walkers 2 rfl)
    · have := hgo (by simpa using h)
      simp only [hp, if_true] at this
      exact this (((SamePlace.refl v 2).raise _ _ _).withWalkers rfl)
  · intro s u v hr
    obtain ⟨hbad, hgo⟩ := maskOp_issues hr (show exec .vinv s = execVinv s from rfl)
    obtain ⟨hbad', hgo'⟩ := maskOp_issues hr (show exec .vpop s = execVpop s from rfl)
    refine ⟨fun h => ⟨hbad (by simp [h]), hbad' (by simp [h])⟩, fun top rest h => ⟨?_, ?_⟩⟩
    · have := hgo (by simp [h])
      simp only [h] at this
      exact this (.of_walkers 2 rfl)
    · have := hgo' (by simp [h])
      simp only [h] at this
      exact this (.of_walkers 2 rfl)
  · intro o s u v hw hr
    refine ⟨fun h => ?_, fun h ht hi hs => ?_⟩
    · refine .of_seq hr rfl ?_ (.refl v 2)
      simp [hw, h]
    · refine .of_body hr rfl (n := .skip ((v.wk 2).idx + o.toNat) 3 true) ?_ (.refl v 2) ?_
      · simp [hw, h, Nat.not_le.mpr ht, hi, hs]
      · rintro t a c ⟨⟩; omega
end

