-- ==== Sys2Proof/Proofs/Landing.lean ====
section
/-! PROOFS. The landing of a result: which result it is, and what its value and its place are (O31). -/

namespace Sys2Proof.Machine

/-! ### The step (R24) -/

/-- Where no load has met a word in error, the first result due lands. -/
theorem resultLand_eq {s : State} {u : Nat} {un : Unit} {p : Pend} (hu : s.unit? u = some un) (he : un.loadUe (s.now un) = none)
    (hn : un.nextLanding (s.now un) = some p) : exec (.resultLand u) s = .next (s.landEff u (un.unlist p) p.eff) := by
  show execResultLand u s = _
  unfold execResultLand
  simp only [hu, he, hn]

/-! ### Entries of a list that are written one after another -/

/-- An entry that none of the writes names stays. -/
theorem foldl_set_notMem {α : Type} (ls : List (Nat × α)) (l : List α) {i : Nat} (h : i ∉ ls.map (·.1)) :
    (ls.foldl (fun x e => x.set e.1 e.2) l)[i]? = l[i]? := by
  induction ls generalizing l with
  | nil => rfl
  | cons e ls ih =>
    rw [List.map_cons, List.mem_cons, not_or] at h
    rw [List.foldl_cons, ih _ h.2, List.getElem?_set_ne (Ne.symm h.1)]

/-- An entry that one of the writes names takes its value. -/
theorem foldl_set_mem {α : Type} (ls : List (Nat × α)) (l : List α) (hn : (ls.map (·.1)).Nodup) {e : Nat × α} (he : e ∈ ls) (hl : e.1 < l.length) :
    (ls.foldl (fun x e => x.set e.1 e.2) l)[e.1]? = some e.2 := by
  induction ls generalizing l with
  | nil => cases he
  | cons d ls ih =>
    rw [List.map_cons, List.nodup_cons] at hn
    rw [List.foldl_cons]
    rcases List.mem_cons.mp he with rfl | he
    · rw [foldl_set_notMem ls _ hn.1, List.getElem?_set_self hl]
    · exact ih _ hn.2 he (by rw [List.length_set]; exact hl)

/-- The writes of a run of entries from place `o` on. -/
theorem foldl_set_run {α : Type} (f : Nat → α) (o n : Nat) (l : List α) :
    (List.range n).foldl (fun x j => x.set (o + j) (f j)) l = ((List.range n).map fun j => (o + j, f j)).foldl (fun x e => x.set e.1 e.2) l := by
  rw [List.foldl_map]

theorem foldl_set_run_mem {α : Type} (f : Nat → α) {o n j : Nat} {l : List α} (hj : j < n) (hl : o + n ≤ l.length) :
    ((List.range n).foldl (fun x j => x.set (o + j) (f j)) l)[o + j]? = some (f j) := by
  rw [foldl_set_run]
  refine foldl_set_mem _ l ?_ (e := (o + j, f j)) (List.mem_map_of_mem (List.mem_range.mpr hj)) (by dsimp only; omega)
  rw [List.map_map]
  exact List.nodup_range.map fun a b h => Nat.add_left_cancel h

theorem foldl_set_run_notMem {α : Type} (f : Nat → α) {o n i : Nat} {l : List α} (hi : i < o ∨ o + n ≤ i) :
    ((List.range n).foldl (fun x j => x.set (o + j) (f j)) l)[i]? = l[i]? := by
  rw [foldl_set_run]
  refine foldl_set_notMem _ l ?_
  simp only [List.map_map, List.mem_map, List.mem_range, Function.comp_apply, not_exists, not_and]
  omega

/-! ### Loaded bytes (R4, R87) -/

theorem leNat_lt (bs : List Byte) : leNat bs < 2 ^ (8 * bs.length) := by
  induction bs with
  | nil => simp [leNat]
  | cons b bs ih =>
    have hb := b.isLt
    have hp : 2 ^ (8 * (b :: bs).length) = 256 * 2 ^ (8 * bs.length) := by
      rw [List.length_cons, Nat.mul_succ, Nat.pow_add]; omega
    rw [leNat, hp]; omega

@[simp] theorem Unit.loadBytes_length (un : Unit) (v a n : Nat) : (un.loadBytes v a n).length = n := by simp [Unit.loadBytes]

/-- Bytes out of the middle of what has been read are the bytes there. -/
theorem Unit.loadBytes_slice (un : Unit) (v a : Nat) {n o m : Nat} (h : o + m ≤ n) :
    ((un.loadBytes v a n).drop o).take m = un.loadBytes v (a + o) m := by
  refine List.ext_getElem (by simp; omega) fun i h1 h2 => ?_
  simp [Unit.loadBytes, Nat.add_assoc]

/-- The number that loaded bytes are, as a load's form extends it (R87). -/
def loadedInt (signed : Bool) (bs : List Byte) : Int := if signed then (BitVec.ofNat (8 * bs.length) (leNat bs)).toInt else leNat bs

theorem extend_eq_ofInt (signed : Bool) (bs : List Byte) : extend signed bs = BitVec.ofInt 64 (loadedInt signed bs) := by
  unfold extend loadedInt
  cases signed with
  | true => rfl
  | false =>
    rw [if_neg (by decide), if_neg (by decide), BitVec.ofInt_natCast]
    refine BitVec.eq_of_toNat_eq ?_
    simp [Nat.mod_eq_of_lt (leNat_lt bs)]

theorem loadedInt_emod (signed : Bool) (bs : List Byte) : loadedInt signed bs % 2 ^ (8 * bs.length) = leNat bs := by
  have hlt : (leNat bs : Int) < 2 ^ (8 * bs.length) := by exact_mod_cast leNat_lt bs
  have hm : (leNat bs : Int) % 2 ^ (8 * bs.length) = leNat bs := Int.emod_eq_of_lt (by omega) hlt
  unfold loadedInt
  cases signed with
  | false => exact hm
  | true =>
    have hb := Int.bmod_emod (x := (leNat bs : Int)) (m := 2 ^ (8 * bs.length))
    push_cast at hb
    rw [if_pos rfl, BitVec.toInt_eq_toNat_bmod, BitVec.toNat_ofNat, Nat.mod_eq_of_lt (leNat_lt bs), hb, hm]

/-! ### A load (R87, R89) -/

/-- What a load finds, extended as its form says (R87). -/
theorem exists_loaded (un : Unit) (c a n : Nat) (sg : Bool) : ∃ b : Int, extend sg (un.loadBytes c a n) = BitVec.ofInt 64 b ∧
    b % 2 ^ (8 * n) = leNat (un.loadBytes c a n) ∧ (sg = false → 0 ≤ b ∧ b < 2 ^ (8 * n)) ∧
    (sg = true → -2 ^ (8 * n - 1) ≤ b ∧ b < 2 ^ (8 * n - 1)) := by
  have he := loadedInt_emod sg (un.loadBytes c a n)
  have hlt := leNat_lt (un.loadBytes c a n)
  rw [Unit.loadBytes_length] at he hlt
  refine ⟨loadedInt sg (un.loadBytes c a n), extend_eq_ofInt _ _, he, ?_, ?_⟩
  · rintro rfl
    exact ⟨Int.natCast_nonneg _, by rw [show loadedInt false _ = (leNat (un.loadBytes c a n) : Int) from rfl]; exact_mod_cast hlt⟩
  · rintro rfl
    have h1 := BitVec.le_toInt (BitVec.ofNat (8 * (un.loadBytes c a n).length) (leNat (un.loadBytes c a n)))
    have h2 := BitVec.toInt_lt (x := BitVec.ofNat (8 * (un.loadBytes c a n).length) (leNat (un.loadBytes c a n)))
    unfold loadedInt
    rw [Unit.loadBytes_length] at h1 h2 ⊢
    exact ⟨h1, h2⟩

/-! ### A refill (R103) -/

/-- The registers of a walker with the frame at `a` restored to window `win`. -/
def Unit.refilled (un : Unit) (win a c : Nat) (x : List Val) : List Val :=
  (List.range 16).foldl (fun x j => x.set (16 + 16 * win + j)
    ⟨BitVec.ofNat 64 (leNat (un.loadBytes c (a + 8 * j) 8)), (leNat (un.loadBytes c (a + 136) 2)).testBit j || un.badAt (a + 8 * j) 8⟩) x

theorem Unit.landRefill_eq (un : Unit) (k win a c : Nat) :
    un.landRefill k win a c = un.setWk k fun w =>
      { w with x := un.refilled win a c w.x, ras := w.ras.set win (leNat (un.loadBytes c (a + 128) 8)) } := by
  unfold Unit.landRefill Unit.refilled
  have hx : ∀ x : List Val, ((List.range 16).foldl (fun x j => x.set (16 + 16 * win + j)
        (⟨BitVec.ofNat 64 (leNat (((un.loadBytes c a 256).drop (8 * j)).take 8)),
          (leNat (((un.loadBytes c a 256).drop 136).take 2)).testBit j || un.badAt (a + 8 * j) 8⟩ : Val)) x) =
      (List.range 16).foldl (fun x j => x.set (16 + 16 * win + j)
        ⟨BitVec.ofNat 64 (leNat (un.loadBytes c (a + 8 * j) 8)), (leNat (un.loadBytes c (a + 136) 2)).testBit j || un.badAt (a + 8 * j) 8⟩) x := by
    intro x
    refine List.foldl_ext _ _ _ fun y j hj => ?_
    have : j < 16 := List.mem_range.mp hj
    rw [un.loadBytes_slice c a (by omega), un.loadBytes_slice c a (by omega)]
  simp only [hx, un.loadBytes_slice c a (show 128 + 8 ≤ 256 by omega)]

/-! ### System registers (R204, R206) -/

/-- Two units whose places for the registers that `csrw` writes agree as far as register `q` goes, and which agree elsewhere, read `q` alike. -/
theorem State.csrRead_congr (s : State) (u : Nat) {v w : Unit} {q : Nat}
    (h : w = { v with
      walkers := w.walkers, cause := w.cause, slipw := w.slipw, ftv := w.ftv, late := w.late, tvec := w.tvec, tstat := w.tstat, flagCnt := w.flagCnt })
    (hw : q < 0x40 → w.wkReg (q / 16) (q % 16) = v.wkReg (q / 16) (q % 16))
    (hh : 0x300 ≤ q → q < 0x310 → (w.wk ((q - 0x300) / 4)).head.getD (q % 4) 0 = (v.wk ((q - 0x300) / 4)).head.getD (q % 4) 0)
    (hf : 0x400 ≤ q → w.flagCnt.getD (q - 0x400) 0 = v.flagCnt.getD (q - 0x400) 0) (hc : q = 0x100 → w.cause = v.cause)
    (hs : q = 0x101 → w.slipw = v.slipw) (ht : q = 0x102 → w.ftv = v.ftv) (hl : q = 0x107 → w.late = v.late) :
    s.csrRead u w q = s.csrRead u v q := by
  have hr : w.region = v.region := by rw [h]
  have hch : w.chans = v.chans := by rw [h]
  have htr : w.trigs0 = v.trigs0 := by rw [h]
  have hd : w.div = v.div := by rw [h]
  have hm : w.mpc = v.mpc := by rw [h]
  have hb : w.baroff = v.baroff := by rw [h]
  have hk : w.masks = v.masks := by rw [h]
  have hx : w.ctxn = v.ctxn := by rw [h]
  unfold State.csrRead Unit.ch
  simp only [hr, hch, htr, hd, hm, hb, hk, hx]
  split
  · exact hw ‹_›
  split
  · rfl
  split
  · rfl
  split
  · rfl
  split
  · exact hh (by omega) (by omega)
  split
  · rw [hf (by omega)]
  split
  · exact hc rfl
  · exact hs rfl
  · exact ht rfl
  · rfl
  · rfl
  · rfl
  · rfl
  · exact hl rfl
  all_goals rfl

/-- A walker's register at index `i`, the trap registers of its unit given (R204). -/
def Walker.sysReg (w : Walker) (tvec tstat : W64) : Nat → W64
  | 0 => w.flags
  | 1 => w.epc
  | 2 => BitVec.ofNat 64 w.wp
  | 3 => BitVec.ofNat 64 w.res
  | 4 => w.spillb
  | 5 => w.spilll
  | 6 => w.spilln
  | 7 => BitVec.ofNat 64 ((w.inner.map Level.shown).getD 0)
  | 8 => BitVec.ofNat 64 ((w.outer.map Level.shown).getD 0)
  | 9 => BitVec.ofNat 64 w.was
  | 10 => tvec
  | _ => tstat

/-- A walker with the register at index `i` written. -/
def Walker.sysSet (w : Walker) (i : Nat) (x : W64) : Walker :=
  match i with
  | 0 => { w with flags := x }
  | 1 => { w with epc := x }
  | 4 => { w with spillb := x }
  | 5 => { w with spilll := x }
  | _ => w

theorem Unit.wkReg_eq (v : Unit) (k i : Nat) : v.wkReg k i = (v.wk k).sysReg v.tvec v.tstat i := rfl

theorem Walker.sysReg_sysSet_self (w : Walker) (a b x : W64) {i : Nat} (h : i = 0 ∨ i = 1 ∨ i = 4 ∨ i = 5) :
    (w.sysSet i x).sysReg a b i = x := by
  rcases h with rfl | rfl | rfl | rfl <;> rfl

theorem Walker.sysReg_sysSet_ne (w : Walker) (a b x : W64) {i j : Nat} (h : j ≠ i) : (w.sysSet i x).sysReg a b j = w.sysReg a b j := by
  unfold Walker.sysSet
  split
  case h_5 => rfl
  all_goals unfold Walker.sysReg; split <;> simp_all

/-- The trap registers are no walker's own. -/
theorem Walker.sysReg_traps (w : Walker) (a b a' b' : W64) {i : Nat} (ha : i ≠ 10 ∨ a' = a) (hb : i < 11 ∨ b' = b) :
    w.sysReg a' b' i = w.sysReg a b i := by
  unfold Walker.sysReg
  split
  case h_11 => exact ha.resolve_left (absurd rfl)
  case h_12 => exact hb.resolve_left fun hi => by interval_cases i <;> simp_all
  all_goals rfl

theorem Walker.sysSet_head (w : Walker) (i : Nat) (x : W64) : (w.sysSet i x).head = w.head := by
  unfold Walker.sysSet; split <;> rfl

/-- What `csrw` of a register that it may write changes (R204). -/
theorem Unit.csrWrite_cases (v : Unit) {r : Nat} (x : W64) (h : csrWritable r = true) :
    (r = 0x00A ∧ v.csrWrite r x = { v with tvec := x }) ∨ (r = 0x00B ∧ v.csrWrite r x = { v with tstat := x }) ∨
    (r < 0x40 ∧ (r % 16 = 0 ∨ r % 16 = 1 ∨ r % 16 = 4 ∨ r % 16 = 5) ∧ v.csrWrite r x = v.setWk (r / 16) fun w => w.sysSet (r % 16) x) ∨
    (0x300 ≤ r ∧ r < 0x310 ∧ v.csrWrite r x = v.setWk ((r - 0x300) / 4) fun w => { w with head := w.head.set (r % 4) x }) ∨
    (0x400 ≤ r ∧ r < 0x500 ∧ flagListed (r - 0x400) = true ∧ v.csrWrite r x = { v with flagCnt := v.flagCnt.set (r - 0x400) x }) ∨
    (r = 0x100 ∧ v.csrWrite r x = { v with cause := x }) ∨ (r = 0x101 ∧ v.csrWrite r x = { v with slipw := x }) ∨
    (r = 0x102 ∧ v.csrWrite r x = { v with ftv := x }) ∨ (r = 0x107 ∧ v.csrWrite r x = { v with late := x }) := by
  have hc : (r < 0x40 ∧ (r % 16 = 0 ∨ r % 16 = 1 ∨ r % 16 = 4 ∨ r % 16 = 5)) ∨ r = 0x00A ∨ r = 0x00B ∨ r = 0x100 ∨ r = 0x101 ∨ r = 0x102 ∨
      r = 0x107 ∨ (0x300 ≤ r ∧ r < 0x310) ∨ (0x400 ≤ r ∧ r < 0x500 ∧ flagListed (r - 0x400) = true) := by
    simpa [csrWritable, or_assoc, and_assoc] using h
  rcases hc with ⟨hr, hm⟩ | rfl | rfl | rfl | rfl | rfl | rfl | ⟨h1, h2⟩ | ⟨h1, h2, h3⟩
  · refine .inr (.inr (.inl ⟨hr, hm, ?_⟩))
    unfold Unit.csrWrite
    rw [if_neg (by omega), if_neg (by omega), if_pos hr]
    rfl
  · exact .inl ⟨rfl, rfl⟩
  · exact .inr (.inl ⟨rfl, rfl⟩)
  · exact .inr (.inr (.inr (.inr (.inr (.inl ⟨rfl, rfl⟩)))))
  · exact .inr (.inr (.inr (.inr (.inr (.inr (.inl ⟨rfl, rfl⟩))))))
  · exact .inr (.inr (.inr (.inr (.inr (.inr (.inr (.inl ⟨rfl, rfl⟩)))))))
  · exact .inr (.inr (.inr (.inr (.inr (.inr (.inr (.inr ⟨rfl, rfl⟩)))))))
  · refine .inr (.inr (.inr (.inl ⟨h1, h2, ?_⟩)))
    unfold Unit.csrWrite
    rw [if_neg (by omega), if_neg (by omega), if_neg (by omega), if_pos ⟨h1, h2⟩]
  · refine .inr (.inr (.inr (.inr (.inl ⟨h1, h2, h3, ?_⟩))))
    unfold Unit.csrWrite
    rw [if_neg (by omega), if_neg (by omega), if_neg (by omega), if_neg (by omega), if_pos h1]

/-- `csrw` changes the registers that it may write, and nothing else of the unit. -/
theorem Unit.csrWrite_frame (v : Unit) {r : Nat} (x : W64) (h : csrWritable r = true) :
    v.csrWrite r x = { v with
      walkers := (v.csrWrite r x).walkers, cause := (v.csrWrite r x).cause, slipw := (v.csrWrite r x).slipw, ftv := (v.csrWrite r x).ftv
      late := (v.csrWrite r x).late, tvec := (v.csrWrite r x).tvec, tstat := (v.csrWrite r x).tstat, flagCnt := (v.csrWrite r x).flagCnt } := by
  rcases v.csrWrite_cases x h with ⟨-, e⟩ | ⟨-, e⟩ | ⟨-, -, e⟩ | ⟨-, -, e⟩ | ⟨-, -, -, e⟩ | ⟨-, e⟩ | ⟨-, e⟩ | ⟨-, e⟩ | ⟨-, e⟩ <;> rw [e] <;> rfl

theorem Walker.sysSet_frame (w : Walker) (i : Nat) (x : W64) :
    w.sysSet i x = { w with
      flags := (w.sysSet i x).flags, epc := (w.sysSet i x).epc, spillb := (w.sysSet i x).spillb, spilll := (w.sysSet i x).spilll
      head := (w.sysSet i x).head } := by
  unfold Walker.sysSet; split <;> rfl

/-- What `csrw` changes of a walker. -/
theorem Unit.csrWrite_wk (v : Unit) {r : Nat} (x : W64) (h : csrWritable r = true) (k : Nat) :
    (v.csrWrite r x).wk k = { v.wk k with
      flags := ((v.csrWrite r x).wk k).flags, epc := ((v.csrWrite r x).wk k).epc, spillb := ((v.csrWrite r x).wk k).spillb
      spilll := ((v.csrWrite r x).wk k).spilll, head := ((v.csrWrite r x).wk k).head } := by
  have hset : ∀ (j : Nat) (f : Walker → Walker), (∀ w, f w = { w with
        flags := (f w).flags, epc := (f w).epc, spillb := (f w).spillb, spilll := (f w).spilll, head := (f w).head }) →
      (v.setWk j f).wk k = { v.wk k with
        flags := ((v.setWk j f).wk k).flags, epc := ((v.setWk j f).wk k).epc, spillb := ((v.setWk j f).wk k).spillb
        spilll := ((v.setWk j f).wk k).spilll, head := ((v.setWk j f).wk k).head } := by
    intro j f hf
    rw [Unit.wk_setWk]
    split
    · rename_i hk; rw [hk.1]; exact hf _
    · rfl
  rcases v.csrWrite_cases x h with ⟨-, e⟩ | ⟨-, e⟩ | ⟨-, -, e⟩ | ⟨-, -, e⟩ | ⟨-, -, -, e⟩ | ⟨-, e⟩ | ⟨-, e⟩ | ⟨-, e⟩ | ⟨-, e⟩
  case inr.inr.inl => rw [e]; exact hset _ _ fun w => w.sysSet_frame _ x
  case inr.inr.inr.inl => rw [e]; exact hset _ _ fun w => rfl
  all_goals rw [e]; rfl

/-- A `csrw` leaves its value in its register, and every other register as it reads (R206). -/
theorem State.csrRead_csrWrite (s : State) (u : Nat) {v : Unit} {r : Nat} (x : W64) (h : csrWritable r = true) (h4 : v.walkers.length = 4)
    (hh : ∀ w ∈ v.walkers, w.head.length = 4) (hf : v.flagCnt.length = 256) :
    s.csrRead u (v.csrWrite r x) r = x ∧ ∀ q, q ≠ r → csrListed q = true → s.csrRead u (v.csrWrite r x) q = s.csrRead u v q := by
  have hframe := v.csrWrite_frame x h
  have hlisted : ∀ q, csrListed q = true → q < 0x40 → q % 16 < 10 ∨ q = 10 ∨ q = 11 := by
    intro q hq hlt
    simp only [csrListed, Bool.or_eq_true, decide_eq_true_eq] at hq
    omega
  rcases v.csrWrite_cases x h with ⟨rfl, e⟩ | ⟨rfl, e⟩ | ⟨hr, hm, e⟩ | ⟨h1, h2, e⟩ | ⟨h1, h2, h3, e⟩ | ⟨rfl, e⟩ | ⟨rfl, e⟩ | ⟨rfl, e⟩ | ⟨rfl, e⟩ <;>
    rw [e] at hframe ⊢
  · refine ⟨rfl, fun q hq hl => s.csrRead_congr u hframe (fun hlt => ?_) (fun _ _ => rfl) (fun _ => rfl) (fun _ => rfl) (fun _ => rfl) (fun _ => rfl)
      fun _ => rfl⟩
    have := hlisted q hl hlt
    exact Walker.sysReg_traps _ _ _ _ _ (.inl (by omega)) (.inr rfl)
  · refine ⟨rfl, fun q hq hl => s.csrRead_congr u hframe (fun hlt => ?_) (fun _ _ => rfl) (fun _ => rfl) (fun _ => rfl) (fun _ => rfl) (fun _ => rfl)
      fun _ => rfl⟩
    have := hlisted q hl hlt
    exact Walker.sysReg_traps _ _ _ _ _ (.inr rfl) (.inl (by omega))
  · have hk : r / 16 < v.walkers.length := by omega
    refine ⟨?_, fun q hq hl => s.csrRead_congr u hframe (fun hlt => ?_) (fun _ _ => ?_) (fun _ => rfl) (fun _ => rfl) (fun _ => rfl) (fun _ => rfl)
      fun _ => rfl⟩
    · unfold State.csrRead
      simp only [hr, if_true]
      rw [Unit.wkReg_eq, Unit.wk_setWk_self _ _ hk]
      exact Walker.sysReg_sysSet_self _ _ _ _ hm
    · rw [Unit.wkReg_eq, Unit.wkReg_eq]
      by_cases hj : q / 16 = r / 16
      · rw [hj, Unit.wk_setWk_self _ _ hk]
        exact Walker.sysReg_sysSet_ne _ _ _ _ (by omega)
      · rw [Unit.wk_setWk_ne _ _ hj]; rfl
    · rw [Unit.wk_setWk]
      split
      · rename_i hj; rw [hj.1, Walker.sysSet_head]
      · rfl
  · have hk : (r - 0x300) / 4 < v.walkers.length := by omega
    have hlen : (v.wk ((r - 0x300) / 4)).head.length = 4 := by
      unfold Unit.wk; rw [List.getD_eq_getElem _ _ hk]; exact hh _ (List.getElem_mem hk)
    refine ⟨?_, fun q hq hl => s.csrRead_congr u hframe (fun _ => ?_) (fun _ _ => ?_) (fun _ => rfl) (fun _ => rfl) (fun _ => rfl) (fun _ => rfl)
      fun _ => rfl⟩
    · unfold State.csrRead
      simp only [show ¬ r < 0x40 by omega, show ¬(0x108 ≤ r ∧ r < 0x10C) by omega, show ¬(0x10C ≤ r ∧ r < 0x110) by omega,
        show ¬(0x120 ≤ r ∧ r < 0x130) by omega, show 0x300 ≤ r ∧ r < 0x310 from ⟨h1, h2⟩, and_self, if_true, if_false]
      rw [Unit.wk_setWk_self _ _ hk, List.getD_eq_getElem?_getD, List.getElem?_set_self (by omega)]; rfl
    · rw [Unit.wkReg_eq, Unit.wkReg_eq, Unit.wk_setWk]
      split
      · rename_i hj; rw [hj.1]; rfl
      · rfl
    · by_cases hj : (q - 0x300) / 4 = (r - 0x300) / 4
      · rw [hj, Unit.wk_setWk_self _ _ hk, List.getD_eq_getElem?_getD, List.getD_eq_getElem?_getD, List.getElem?_set_ne (by omega)]
      · rw [Unit.wk_setWk_ne _ _ hj]
  · refine ⟨?_, fun q hq hl => s.csrRead_congr u hframe (fun _ => rfl) (fun _ _ => rfl) (fun hge => ?_) (fun _ => rfl) (fun _ => rfl) (fun _ => rfl)
      fun _ => rfl⟩
    · unfold State.csrRead
      simp only [show ¬ r < 0x40 by omega, show ¬(0x108 ≤ r ∧ r < 0x10C) by omega, show ¬(0x10C ≤ r ∧ r < 0x110) by omega,
        show ¬(0x120 ≤ r ∧ r < 0x130) by omega, show ¬(0x300 ≤ r ∧ r < 0x310) by omega, show 0x400 ≤ r ∧ r < 0x500 from ⟨h1, h2⟩, h3, if_true, if_false]
      rw [List.getD_eq_getElem?_getD, List.getElem?_set_self (by omega)]; rfl
    · rw [List.getD_eq_getElem?_getD, List.getD_eq_getElem?_getD, List.getElem?_set_ne (by omega)]
  · exact ⟨rfl, fun q hq _ => s.csrRead_congr u hframe (fun _ => rfl) (fun _ _ => rfl) (fun _ => rfl) (fun h => absurd h hq) (fun _ => rfl)
      (fun _ => rfl) fun _ => rfl⟩
  · exact ⟨rfl, fun q hq _ => s.csrRead_congr u hframe (fun _ => rfl) (fun _ _ => rfl) (fun _ => rfl) (fun _ => rfl) (fun h => absurd h hq)
      (fun _ => rfl) fun _ => rfl⟩
  · exact ⟨rfl, fun q hq _ => s.csrRead_congr u hframe (fun _ => rfl) (fun _ _ => rfl) (fun _ => rfl) (fun _ => rfl) (fun _ => rfl)
      (fun h => absurd h hq) fun _ => rfl⟩
  · exact ⟨rfl, fun q hq _ => s.csrRead_congr u hframe (fun _ => rfl) (fun _ _ => rfl) (fun _ => rfl) (fun _ => rfl) (fun _ => rfl) (fun _ => rfl)
      fun h => absurd h hq⟩

end Sys2Proof.Machine

open Sys2Proof Sys2Proof.Machine

/-- Settles O31: what `State.landEff` leaves of the first result due, effect by effect. -/
theorem resultsLand : Obligations.ResultsLand := by
  rintro s u un v p hu hue hn rfl
  have hex := resultLand_eq hu hue hn
  refine ⟨?_, ?_, ?_, ?_, ?_, ?_, ?_, ?_, ?_, ?_⟩
  · intro k r x he
    rw [hex, he]; rfl
  · intro k r x he
    rw [hex, he]
    refine congrArg (fun y => Host.Outcome.next (s.setUnit u y)) (Unit.setWk_congr _ k ?_)
    unfold Walker.setReg
    split <;> rfl
  · intro q x e he hq
    have hroom : (e && (un.unlist p).qOver q) = false := by
      rcases hq with rfl | hq
      · rfl
      · rw [Unit.qOver, decide_eq_false (Nat.not_le.mpr hq), Bool.and_false]
    rw [hex, he]
    simp only [State.landEff, Unit.resolve, hroom]; rfl
  · intro q x he hq
    have hfull : (un.unlist p).qOver q = true := decide_eq_true hq
    rw [hex, he]
    simp only [State.landEff, Unit.resolve, hfull]; rfl
  · intro k r a n c sg he _ hbad
    obtain ⟨b, hb, hrest⟩ := exists_loaded (un.unlist p) c a n sg
    refine ⟨b, ?_, hrest⟩
    rw [hex, he]
    simp only [State.landEff, Unit.resolve, hb, hbad]
  · intro k r q a n c sg he _
    obtain ⟨b, hb, hrest⟩ := exists_loaded (un.unlist p) c a n sg
    refine ⟨b, ?_, hrest⟩
    rw [hex, he]
    simp only [State.landEff, Unit.resolve, hb]; rfl
  · intro k win a c he hk hx hras hwin
    refine ⟨(un.unlist p).refilled win a c ((un.unlist p).wk k).x, ((un.unlist p).wk k).ras.set win (leNat ((un.unlist p).loadBytes c (a + 128) 8)),
      ?_, fun j hj => foldl_set_run_mem _ hj (by omega), fun r hr => foldl_set_run_notMem _ (by omega), List.getElem?_set_self (by omega),
      fun r hr => List.getElem?_set_ne (Ne.symm hr)⟩
    rw [hex, he]
    refine congrArg (fun y => Host.Outcome.next (s.setUnit u y)) ?_
    exact ((un.unlist p).landRefill_eq k win a c).trans (Unit.setWk_congr _ k rfl)
  · intro r x he hr h4 hh hf
    obtain ⟨hself, hne⟩ := s.csrRead_csrWrite u x hr h4 hh hf
    exact ⟨(un.unlist p).csrWrite r x, by rw [hex, he]; rfl, hself, hne, (un.unlist p).csrWrite_frame x hr, (un.unlist p).csrWrite_wk x hr⟩
  · intro k f he
    exact ⟨_, by rw [hex, he]; rfl, rfl⟩
  · intro k he
    rw [hex, he]; rfl
end

