-- ==== Sys2Proof/Proofs/Places.lean ====
section
/-! PROOFS. What drawing the place of a boundary between regions changes of the state: places only (R120, R247). -/

namespace Sys2Proof.Machine

/-! ### A unit whose places have moved -/

/-- The unit with the place of each of its snapshots changed by `m`. -/
def Unit.moved (m : Snapshot → Nat) (un : Unit) : Unit :=
  { un with
    snap := { un.snap with place := m un.snap }
    chans := un.chans.map fun ch => { ch with cmds := ch.cmds.map fun x => { x with snap := x.snap.map fun z => { z with place := m z } } } }

@[simp] theorem Unit.moved_place (un : Unit) : un.moved (·.place) = un := by
  simp [Unit.moved]

theorem Unit.moved_moved (m n : Snapshot → Nat) (un : Unit) : (un.moved m).moved n = un.moved fun z => n { z with place := m z } := by
  simp [Unit.moved, Function.comp_def]

@[simp] theorem Unit.unplaced_moved (m : Snapshot → Nat) (un : Unit) : (un.moved m).unplaced = un.unplaced := by
  simp [Unit.unplaced, Unit.moved, Function.comp_def]

/-- A command that has no snapshot has no place to move. -/
theorem Unit.mem_moved_cmds {m : Snapshot → Nat} {un : Unit} {c : Nat} {x : Cmd} (h : x ∈ (un.ch c).cmds) (hx : x.snap = none) :
    x ∈ ((un.moved m).ch c).cmds := by
  have hself : ({ x with snap := x.snap.map fun z => { z with place := m z } } : Cmd) = x := by rw [hx]; cases x; cases hx; rfl
  unfold Unit.ch at h ⊢
  rw [List.getD_eq_getElem?_getD] at h ⊢
  rw [Unit.moved, List.getElem?_map]
  cases hc : un.chans[c]? with
  | none => rw [hc] at h; exact h
  | some ch =>
    rw [hc] at h
    exact List.mem_map.mpr ⟨x, h, hself⟩

/-! ### Tables -/

theorem find_map {α : Type} (f : α → α) (l : List (Nat × α)) (k : Nat) : find (l.map fun e => (e.1, f e.2)) k = (find l k).map f := by
  induction l with
  | nil => rfl
  | cons e l ih =>
    obtain ⟨j, a⟩ := e
    rw [List.map_cons, find, find]
    split
    · rfl
    · exact ih

/-! ### The state with moved places -/

/-- From `s` to `t` only places have moved: of the units' snapshots, and of the releases of performed writes. -/
structure State.Replaced (s t : State) : Prop where
  units   : ∃ m : Unit → Snapshot → Nat, ∀ v, t.unit? v = (s.unit? v).map fun w => w.moved (m w)
  writes  : ∃ f : WriteRec → WriteRec, (∀ w, (f w).id = w.id) ∧ t.writes = s.writes.map f
  dram    : ∀ a, t.dram.read a = s.dram.read a

theorem State.Replaced.refl (s : State) : s.Replaced s :=
  ⟨⟨fun _ => (·.place), fun v => by simp⟩, ⟨id, fun _ => rfl, (List.map_id _).symm⟩, fun _ => rfl⟩

theorem State.Replaced.trans {r s t : State} (h : r.Replaced s) (g : s.Replaced t) : r.Replaced t := by
  obtain ⟨⟨m, hm⟩, ⟨f, hf, hfw⟩, hd⟩ := h
  obtain ⟨⟨n, hn⟩, ⟨e, he, hew⟩, hd'⟩ := g
  refine ⟨⟨fun w z => n (w.moved (m w)) { z with place := m w z }, fun v => ?_⟩, ⟨e ∘ f, fun w => (he _).trans (hf w), ?_⟩, fun a => (hd' a).trans (hd a)⟩
  · rw [hn, hm, Option.map_map]
    refine congrArg (Option.map · (r.unit? v)) (funext fun w => ?_)
    rw [Function.comp_apply, Unit.moved_moved]
  · rw [hew, hfw, List.map_map]

/-- A change beyond units and stores moves no place. -/
theorem State.Replaced.of_alike {s t : State} (h : s.MemoryAlike t) (hu : t.units = s.units) : s.Replaced t := by
  have hw : t.writes = s.writes := by unfold State.writes; rw [h.dram, h.host, h.clusters, h.dies]
  refine ⟨⟨fun _ => (·.place), fun v => ?_⟩, ⟨id, fun _ => rfl, by rw [hw, List.map_id]⟩, fun a => by rw [h.dram]⟩
  unfold State.unit?; rw [hu]; simp

theorem State.mapWrites_writes (s : State) (f : WriteRec → WriteRec) : (s.mapWrites f).writes = s.writes.map f := by
  simp [State.writes, State.mapWrites, List.map_flatMap, List.flatMap_map]

/-- What a byte reads as depends on the bytes of the writes alone. -/
theorem Store.read_map (st : Store) {f : WriteRec → WriteRec} (hf : ∀ w, (f w).cells = w.cells) (a : Nat) :
    Store.read { st with log := st.log.map f } a = st.read a := by
  simp only [Store.read, Store.readBy, if_true, List.foldl_map]
  refine List.foldl_ext _ _ _ fun b w _ => ?_
  simp only [WriteRec.over, hf]

/-- Writes whose releases change move no unit's place. -/
theorem State.Replaced.mapWrites (s : State) {f : WriteRec → WriteRec} (hi : ∀ w, (f w).id = w.id) (hc : ∀ w, (f w).cells = w.cells) :
    s.Replaced (s.mapWrites f) :=
  ⟨⟨fun _ => (·.place), fun v => by rw [show (s.mapWrites f).unit? v = s.unit? v from rfl]; simp⟩, ⟨f, hi, s.mapWrites_writes f⟩, Store.read_map s.dram hc⟩

/-- The units of region `i` with their places changed. -/
theorem State.Replaced.mapUnits (s : State) (i : Nat) {move : Snapshot → Snapshot} {m : Snapshot → Nat} (h : move = fun z => { z with place := m z }) :
    s.Replaced { s with units := s.units.map fun (e : Nat × Unit) => if e.2.region = i then (e.1, { e.2 with
      snap := move e.2.snap
      chans := e.2.chans.map fun ch => { ch with cmds := ch.cmds.map fun x => { x with snap := x.snap.map move } } }) else e } := by
  subst h
  refine ⟨⟨fun w => if w.region = i then m else (·.place), fun v => ?_⟩, ⟨id, fun _ => rfl, (List.map_id _).symm⟩, fun _ => rfl⟩
  refine Eq.trans (congrArg (find · v) (List.map_congr_left fun e _ => ?_)) (find_map (fun w => w.moved (if w.region = i then m else (·.place))) s.units v)
  split
  · rfl
  · rw [Unit.moved_place]

/-- Drawing a place moves places, and nothing else of the units or of what has been written. -/
theorem State.placeAt_replaced (s : State) (i : Nat) (t : Frac) (lo : Nat) : s.Replaced (s.placeAt i t lo).2 := by
  unfold State.placeAt
  dsimp only
  split
  · exact .refl s
  · generalize max lo _ + _ = p
    refine State.Replaced.trans ?_ (.of_alike (State.setRegion_memory _ i _) rfl)
    refine State.Replaced.trans ?_ (.mapUnits _ i (m := fun z => if t.le ⟨z.num, z.den⟩ then p else z.place) (funext fun z => ?_))
    · refine State.Replaced.trans ?_ (.mapWrites _ (fun _ => rfl) fun _ => rfl)
      exact .of_alike ⟨rfl, rfl, rfl, rfl, rfl⟩ rfl
    · split <;> rfl

theorem State.Replaced.unit {s t : State} (h : s.Replaced t) {u : Nat} {un : Unit} (hu : s.unit? u = some un) : ∃ m, t.unit? u = some (un.moved m) := by
  obtain ⟨m, hm⟩ := h.units
  exact ⟨m un, by rw [hm, hu]; rfl⟩

/-- Moved places are all that a unit but `us` may have changed in. -/
theorem State.Replaced.keepsUnits {s t : State} (h : s.Replaced t) (us : List Nat) : s.keepsUnits t us := by
  obtain ⟨m, hm⟩ := h.units
  intro v _
  rw [hm, Option.map_map]
  exact congrArg (Option.map · (s.unit? v)) (funext fun w => Unit.unplaced_moved _ w)

end Sys2Proof.Machine
end

