-- ==== Sys2Proof/Proofs/Shared.lean ====
section
/-! PROOFS. The landing of a result in the state that the walkers of a unit share (O33). -/

namespace Sys2Proof.Machine

/-- A change of an entry that the list has sets it. -/
theorem modify_eq_set {α : Type} {l : List α} {k : Nat} {a : α} (h : l[k]? = some a) (f : α → α) : modify l k f = l.set k (f a) := by
  refine List.ext_getElem? fun j => ?_
  rw [modify_getElem?]
  split
  · rename_i hj; subst hj
    rw [h, List.getElem?_set_self (List.getElem?_eq_some_iff.mp h).1]; rfl
  · rw [List.getElem?_set_ne (Ne.symm ‹_›)]

theorem eq_of_getElem?_set_self {α : Type} {l : List α} {k : Nat} {a x : α} (h : (l.set k a)[k]? = some x) : x = a := by
  rw [List.getElem?_set] at h
  simp at h
  exact h.2.symm

/-! ### A steer write (R14, R91) -/

/-- No number lies below itself (R14). -/
theorem seqBelow_self (n : Nat) : seqBelow n n = false := by
  have h : (n + 65536 - n % 65536) % 65536 = 0 := by omega
  simp [seqBelow, h]

/-- An entry with a number above every one in the history stands first. -/
theorem insertEntry_newest {e : SteerEntry} {hist : List SteerEntry} (h : ∀ x ∈ hist, seqBelow x.seq e.seq = true) : insertEntry e hist = e :: hist := by
  cases hist with
  | nil => rfl
  | cons x xs =>
    have hx := h x List.mem_cons_self
    have hne : x.seq ≠ e.seq := by
      intro hs
      rw [hs, seqBelow_self] at hx
      exact absurd hx (by decide)
    rw [insertEntry, if_neg hne, if_pos hx]

/-- The entry that a walker's steer write outside every loop makes, what it does not write copied from the latest entry (R14, R91). -/
def Steer.newEntry (st : Steer) (w : SteerWrite) : SteerEntry :=
  let src := st.hist.head?.getD SteerEntry.reset
  { seq := (st.count + 1) % 65536, word := w.word, wk := w.wk, tag := w.tag
    c := (w.c.map (·.1)).getD src.c, pc := (w.c.map (·.2)).getD src.pc
    t := (w.t.map (·.1)).getD src.t, tv := w.t.isSome || src.tv, pt := (w.t.map (·.2)).getD src.pt
    tAt := if w.t.isSome then some w.issued else src.tAt }

theorem Steer.newEntry_written {st : Steer} {w : SteerWrite} :
    (∀ c, w.c = some c → (st.newEntry w).c = c.1 ∧ (st.newEntry w).pc = c.2) ∧
    (∀ t, w.t = some t → (st.newEntry w).t = t.1 ∧ (st.newEntry w).pt = t.2 ∧ (st.newEntry w).tv = true) := by
  constructor
  · intro c h; simp [Steer.newEntry, h]
  · intro t h; simp [Steer.newEntry, h]

theorem Steer.newEntry_copied {st : Steer} {w : SteerWrite} {l : SteerEntry} (hl : st.hist.head?.getD SteerEntry.reset = l) :
    (w.c = none → (st.newEntry w).c = l.c ∧ (st.newEntry w).pc = l.pc) ∧
    (w.t = none → (st.newEntry w).t = l.t ∧ (st.newEntry w).pt = l.pt ∧ (st.newEntry w).tv = l.tv) := by
  constructor
  · intro h; simp [Steer.newEntry, h, hl]
  · intro h; simp [Steer.newEntry, h, hl]

theorem Unit.landSteer_newest {v : Unit} {w : SteerWrite} {st : Steer} (hst : v.steers[w.reg]? = some st) (hs : w.seq = none) (hq : w.squashed = false)
    (hb : w.inBody = false) (ht : w.tag = []) (hn : ∀ e ∈ st.hist, seqBelow e.seq ((st.count + 1) % 65536) = true) :
    v.landSteer w = { v with steers := v.steers.set w.reg { hist := (st.newEntry w :: st.hist).take 4, count := (st.count + 1) % 65536 } } := by
  have hget : v.steers.getD w.reg ⟨[], 0⟩ = st := by rw [List.getD_eq_getElem?_getD, hst]; rfl
  have hland : st.land w = (⟨(st.newEntry w :: st.hist).take 4, (st.count + 1) % 65536⟩, (st.count + 1) % 65536) := by
    rw [← insertEntry_newest (e := st.newEntry w) hn]
    simp only [Steer.land, Steer.newEntry, hs, hq]
    rfl
  cases w
  dsimp only at hs hb ht hget
  subst hs hb ht
  unfold Unit.landSteer
  simp only [List.map_nil, hget, hland]
  rfl

/-! ### Vector lanes (R128, R145) -/

theorem VReg.write_lane_mem {r : VReg} {ls : List (Nat × W32)} (poison all : Bool) (hlen : r.lanes.length = 256) (hn : (ls.map (·.1)).Nodup)
    (hb : ∀ e ∈ ls, e.1 < 256) {l : Nat} {x : W32} (he : (l, x) ∈ ls) : (r.write ls poison all).lanes.getD l 0 = x := by
  rw [List.getD_eq_getElem?_getD]
  have h := foldl_set_mem ls r.lanes hn he (by rw [hlen]; exact hb _ he)
  exact congrArg (·.getD 0) h

theorem VReg.write_lane_notMem {r : VReg} {ls : List (Nat × W32)} (poison all : Bool) {l : Nat} (h : l ∉ ls.map (·.1)) :
    (r.write ls poison all).lanes.getD l 0 = r.lanes.getD l 0 := by
  rw [List.getD_eq_getElem?_getD, List.getD_eq_getElem?_getD]
  exact congrArg (·.getD 0) (foldl_set_notMem ls r.lanes h)

/-- The values of the lanes of a vector load. -/
def Unit.loadedLanes (v : Unit) (ls : List (Nat × Nat × Nat × Nat)) : List (Nat × W32) := ls.map fun e => (e.1, v.laneLoad e.2.1 e.2.2.1 e.2.2.2)

@[simp] theorem Unit.loadedLanes_keys (v : Unit) (ls : List (Nat × Nat × Nat × Nat)) : (v.loadedLanes ls).map (·.1) = ls.map (·.1) := by
  rw [Unit.loadedLanes, List.map_map]; rfl

theorem Unit.laneLoad_whole (v : Unit) {n : Nat} (a c : Nat) (hn : n = 1 ∨ n = 2 ∨ n = 4) :
    v.laneLoad a n c = BitVec.ofNat 32 (leNat (v.loadBytes c a n)) := by
  rw [Unit.laneLoad, if_neg (by omega)]

/-! ### A window's image (R166) -/

/-- Entry `j` of row `i` of rows of `n` entries that stand one behind another. -/
theorem flatMap_row {α : Type} (f : Nat → Nat → α) (m : Nat) {n i j : Nat} (hi : i < m) (hj : j < n) :
    ((List.range m).flatMap fun b => (List.range n).map (f b))[n * i + j]? = some (f i j) := by
  induction m with
  | zero => omega
  | succ m ih =>
    have hlen : ((List.range m).flatMap fun b => (List.range n).map (f b)).length = n * m := by
      simp [List.length_flatMap, Nat.mul_comm]
    rw [List.range_succ, List.flatMap_append, List.getElem?_append, hlen]
    rcases Nat.lt_or_ge i m with h | h
    · have : n * i + j < n * m := by
        calc n * i + j < n * i + n := by omega
          _ = n * (i + 1) := (Nat.mul_succ n i).symm
          _ ≤ n * m := Nat.mul_le_mul_left n h
      rw [if_pos this, ih h]
    · obtain rfl : i = m := by omega
      simp [hj]

theorem Unit.loadWindow_length (v : Unit) (a t d : Nat) : (v.loadWindow a t d).length = 4096 := by
  simp [Unit.loadWindow, List.length_flatMap]

theorem Unit.loadWindow_getD (v : Unit) (a t d : Nat) {i j : Nat} (hi : i < 64) (hj : j < 64) :
    (v.loadWindow a t d).getD (64 * i + j) 0 = BitVec.ofNat 32 (leNat (v.loadBytes (t + i * d) (a + 256 * i + 4 * j) 4)) := by
  rw [List.getD_eq_getElem?_getD]
  exact congrArg (·.getD 0) (flatMap_row (fun b j => BitVec.ofNat 32 (leNat (v.loadBytes (t + b * d) (a + 256 * b + 4 * j) 4))) 64 hi hj)

/-! ### An acquire (R120, R185) -/

/-- The unit's snapshot after an acquire at time `t` in place `p`. -/
theorem State.takeSnap_eq {s : State} {u : Nat} {un : Unit} (hu : s.unit? u = some un) (bar scope : Nat) (t : Frac) :
    ∃ s' m p, s.Replaced s' ∧ s'.unit? u = some (un.moved m) ∧ s.takeSnap u bar scope t = s'.setUnit u { un.moved m with
      snap := s'.snapshot (s.agentOf u un) (un.moved m).snap scope bar t p (·.byHost scope (s.agentOf u un)) } := by
  have hr := s.placeAt_replaced un.region t 0
  obtain ⟨m, hm⟩ := hr.unit hu
  refine ⟨_, m, (s.placeAt un.region t 0).1, hr, hm, ?_⟩
  unfold State.takeSnap
  simp only [hu]
  exact State.modUnit_of_some _ hm

/-- A snapshot goes on holding what the earlier one held (R120). -/
theorem State.mem_snapshot_held {s : State} {me : Agent} {old : Snapshot} {scope bar p : Nat} {t : Frac} {more : WriteRec → Bool} {w : WriteRec}
    (hw : w ∈ s.writes) (hh : w.id ∈ old.held) (hb : old.base ≤ w.id) : w.id ∈ (s.snapshot me old scope bar t p more).held := by
  refine List.mem_map.mpr ⟨w, List.mem_filter.mpr ⟨hw, ?_⟩, rfl⟩
  simp [Snapshot.holds, hb, hh]

/-- The commands that waited for an acquire keep its snapshot (R185). -/
theorem Unit.mem_acquired_cmds {v : Unit} {c scope now : Nat} {x : Cmd} (h : x ∈ (v.ch c).cmds) (ha : x.acq = true) (hs : x.scope = scope)
    (hx : x.snap = none) (ht : x.t + max 1 (v.lat.lsc.getD scope 1) ≤ now + 1) : { x with snap := some v.snap } ∈ ((v.acquired scope now).ch c).cmds := by
  unfold Unit.ch at h ⊢
  rw [List.getD_eq_getElem?_getD] at h ⊢
  rw [Unit.acquired, List.getElem?_map]
  cases hc : v.chans[c]? with
  | none => rw [hc] at h; cases h
  | some ch =>
    rw [hc] at h
    refine List.mem_map.mpr ⟨x, h, ?_⟩
    rw [if_pos ⟨ha, hs, by rw [hx]; rfl, ht⟩]

end Sys2Proof.Machine

open Sys2Proof Sys2Proof.Machine

/-- Settles O33: what `State.landEff` leaves of the first result due in the shared state, effect by effect. -/
theorem sharedResultsLand : Obligations.SharedResultsLand := by
  rintro s u un v p hu hue hn rfl
  have hex := resultLand_eq hu hue hn
  refine ⟨?_, ?_, ?_, ?_, ?_, ?_, ?_, ?_, ?_, ?_, ?_, ?_, ?_⟩
  · intro w st he hst hs hq hb ht hnew
    have hhead : ∀ l, st.hist.head? = some l → st.hist.head?.getD SteerEntry.reset = l := fun l hl => by rw [hl]; rfl
    refine ⟨st.newEntry w, ?_, rfl, rfl, rfl, Steer.newEntry_written.1, Steer.newEntry_written.2,
      fun l hl => Steer.newEntry_copied (hhead l (Option.mem_def.mp hl)), fun hnil => ?_⟩
    · rw [hex, he, ← Unit.landSteer_newest hst hs hq hb ht hnew]; rfl
    · obtain ⟨hc, ht⟩ := Steer.newEntry_copied (w := w) (show st.hist.head?.getD SteerEntry.reset = SteerEntry.reset by rw [hnil]; rfl)
      exact ⟨hc, fun h => (ht h).2.2⟩
  · intro reg ls poison all r he hr hlen hnd hb
    refine ⟨r.write ls poison all, ?_, fun e h => VReg.write_lane_mem poison all hlen hnd hb h, fun l h => VReg.write_lane_notMem poison all h, rfl⟩
    rw [hex, he]
    exact congrArg (fun y => Host.Outcome.next (s.setUnit u { un.unlist p with v := y })) (modify_eq_set hr fun x => x.write ls poison all)
  · intro reg ls all r he hr hlen hnd hb
    have hmem : ∀ l a n c, (l, a, n, c) ∈ ls → (r.write ((un.unlist p).loadedLanes ls) (ls.any fun e => (un.unlist p).badAt e.2.1 1) all).lanes.getD l 0 =
        (un.unlist p).laneLoad a n c := by
      intro l a n c h
      refine VReg.write_lane_mem _ all hlen (by rwa [Unit.loadedLanes_keys]) ?_ (List.mem_map_of_mem h)
      intro e he
      obtain ⟨d, hd, rfl⟩ := List.mem_map.mp he
      exact hb d hd
    refine ⟨r.write ((un.unlist p).loadedLanes ls) (ls.any fun e => (un.unlist p).badAt e.2.1 1) all, ?_, fun l a c n hw h => ?_, fun l a c h => ?_,
      fun l a c h => ?_, fun l h => VReg.write_lane_notMem _ all (by rwa [Unit.loadedLanes_keys]), rfl⟩
    · rw [hex, he]
      exact congrArg (fun y => Host.Outcome.next (s.setUnit u { un.unlist p with v := y })) (modify_eq_set hr _)
    · rw [hmem l a n c h, Unit.laneLoad_whole _ a c hw]
    · rw [hmem l a 0 c h]; rfl
    · rw [hmem l a 8 c h]; rfl
  · intro f n a c he hlen
    exact ⟨_, by rw [hex, he]; rfl, fun i hi => foldl_set_run_mem _ hi hlen, fun i hi => foldl_set_run_notMem _ hi⟩
  · intro f n b he hlen
    refine ⟨_, by rw [hex, he]; rfl, fun i hi => ?_, fun i hi => foldl_set_run_notMem _ hi⟩
    rw [foldl_set_run_mem (fun i => ((Config.freeWord (s.free + i)).setWidth 32, b)) hi hlen]; rfl
  · intro f x b he
    refine ⟨(un.unlist p).shadow.set f x b, by rw [hex, he]; rfl, ?_, ?_, ?_, ?_, ?_⟩ <;> rintro rfl <;> rfl
  · intro c a t d b he
    cases b with
    | true =>
      refine ⟨_, 4096, by rw [hex, he]; rfl, fun w hw => List.getElem?_set_ne (Ne.symm hw), fun x hx => ?_⟩
      obtain rfl := eq_of_getElem?_set_self hx
      exact ⟨by rw [List.length_map, List.length_range], fun _ => rfl, nofun⟩
    | false =>
      refine ⟨_, 0, by rw [hex, he]; rfl, fun w hw => List.getElem?_set_ne (Ne.symm hw), fun x hx => ?_⟩
      obtain rfl := eq_of_getElem?_set_self hx
      exact ⟨Unit.loadWindow_length _ a t d, nofun, fun _ => ⟨rfl, rfl, fun i j hi hj => Unit.loadWindow_getD _ a t d hi hj⟩⟩
  · intro sc he
    obtain ⟨s', m, q, hr, hm, hsnap⟩ := State.takeSnap_eq (State.unit?_setUnit_self s u (un.unlist p)) 0 sc ((s.region un.region).cycleTime (s.now un + 1))
    have hland : exec (.resultLand u) s = .next (((s.setUnit u (un.unlist p)).takeSnap u 0 sc
        ((s.region un.region).cycleTime (s.now un + 1))).modUnit u (·.acquired sc (s.now un))) := by rw [hex, he]; rfl
    rw [hsnap, State.modUnit_setUnit] at hland
    refine ⟨_, _, hland, State.unit?_setUnit_self _ u _, rfl, rfl, rfl, rfl, rfl, fun w hw hheld hbase => ?_, rfl, fun c x hx ha hs hn ht => ?_, fun j hj => ?_,
      fun a => hr.dram a⟩
    · obtain ⟨f, hf, hfw⟩ := hr.writes
      rw [← hf w] at hheld hbase ⊢
      exact State.mem_snapshot_held (hfw ▸ List.mem_map_of_mem hw) hheld hbase
    · exact Unit.mem_acquired_cmds (v := { (un.unlist p).moved m with snap := _ }) (Unit.mem_moved_cmds hx hn) ha hs hn ht
    · rw [State.unit?_setUnit, if_neg (by simpa using hj), hr.keepsUnits [u] j hj, State.unit?_setUnit, if_neg (by simpa using hj)]
  · intro c he
    rw [hex, he]; rfl
  · intro a n he
    rw [hex, he]; rfl
  · intro c he
    refine ⟨_, by rw [hex, he]; rfl, fun w hw => List.getElem?_set_ne (Ne.symm hw), fun x hx => ?_⟩
    obtain rfl := eq_of_getElem?_set_self hx
    exact ⟨rfl, List.length_replicate, fun y hy => List.eq_of_mem_replicate hy⟩
  · intro epc code he
    rw [hex, he]; rfl
  · intro he
    rw [hex, he]; rfl
end

