-- ==== Sys2Proof/Proofs/CastOn.lean ====
section
/-! PROOFS. A unit as its cast-on leaves it, until its first word (O59). -/

namespace Sys2Proof.Machine

/-! ### What of a unit R31 does not speak of -/

/-- A unit that differs in nothing R31 lists is as its cast-on left it where the other is. -/
theorem AsCastOn.of_kept {text : List W32} {un w : Unit} (h : AsCastOn text un)
    (hw : w = { un with
      walkers := w.walkers, chans := w.chans, run := w.run, started := w.started, word0 := w.word0, snap := w.snap, cache := w.cache, seq := w.seq })
    (hl : w.walkers.length = un.walkers.length) (hwk : ∀ x ∈ w.walkers, ∃ y ∈ un.walkers, x = { y with ic := x.ic, slot := x.slot })
    (hch : ∀ x ∈ w.chans, ∃ y ∈ un.chans, x = { y with cmds := x.cmds }) : AsCastOn text w := by
  have hwalk : ∀ {Q : Walker → Prop}, (∀ y ic slot, Q y → Q { y with ic, slot }) → (∀ y ∈ un.walkers, Q y) → ∀ x ∈ w.walkers, Q x := by
    intro Q hq hall x hx
    obtain ⟨y, hy, e⟩ := hwk x hx
    rw [e]; exact hq _ _ _ (hall y hy)
  have hchan : ∀ c ∈ w.chans, c.tid = 0 ∧ c.wm = 0 ∧ c.pattern = 0 := by
    intro x hx
    obtain ⟨y, hy, e⟩ := hch x hx
    rw [e]; exact h.channels y hy
  have hwalks := @hwalk
  clear hwalk hwk hch
  generalize w.walkers = ws, w.chans = cs, w.run = r, w.started = st, w.word0 = w0, w.snap = sn, w.cache = ca, w.seq = sq at hw hl hwalks hchan
  subst hw
  exact {
    four := hl.trans h.four
    x := hwalks (fun _ _ _ => id) h.x
    windows := hwalks (fun _ _ _ => id) h.windows
    queues := h.queues
    steers := h.steers
    counts := hwalks (fun _ _ _ => id) h.counts
    loops := hwalks (fun _ _ _ => id) h.loops
    v := h.v
    k := h.k
    acc := h.acc
    masks := h.masks
    skeins := h.skeins
    active := h.active
    shadow := h.shadow
    mpc := h.mpc
    channels := hchan
    store := h.store
    text := h.text
    place := hwalks (fun _ _ _ => id) h.place }

theorem AsCastOn.freshUnit (s : State) (k : Nat) (ker : Kernel) (place u : Nat) (text : List W32) : AsCastOn text (s.freshUnit k ker place u text) := by
  have hwk : ∀ w ∈ (s.freshUnit k ker place u text).walkers, ∃ a b, w = Walker.fresh a b := by
    intro w hw
    obtain ⟨j, -, rfl⟩ := List.mem_map.mp hw
    exact ⟨_, _, rfl⟩
  have hzero : ∀ a ∈ (Walker.zero).ras, a = 0 := by decide
  have hcount : ∀ c ∈ (Walker.zero).steers, c.n = 0 := by decide
  constructor
  case four => rfl
  case x => intro w hw; obtain ⟨a, b, rfl⟩ := hwk w hw; rfl
  case windows => intro w hw; obtain ⟨a, b, rfl⟩ := hwk w hw; exact ⟨rfl, rfl, hzero⟩
  case queues => exact fun q hq => List.eq_of_mem_replicate hq
  case steers => exact fun r hr => List.eq_of_mem_replicate hr
  case counts => intro w hw; obtain ⟨a, b, rfl⟩ := hwk w hw; exact hcount
  case loops => intro w hw; obtain ⟨a, b, rfl⟩ := hwk w hw; exact ⟨rfl, rfl⟩
  case skeins => exact ⟨rfl, rfl⟩
  case channels => intro c hc; rw [List.eq_of_mem_replicate hc]; exact ⟨rfl, rfl, rfl⟩
  case store => exact fun a => rfl
  case place => intro w hw; obtain ⟨a, b, rfl⟩ := hwk w hw; rfl
  case text => exact fun _ => rfl
  all_goals rfl

/-! ### The steps of a cast-on and of a start, on one unit -/

/-- A translation that enters the cache. -/
theorem AsCastOn.fillCache {text : List W32} {un : Unit} (h : AsCastOn text un) (g : Page) (resident : Bool) (ready : Nat) :
    AsCastOn text (un.fillCache g resident ready) := by
  have keep : ∀ cache seq, AsCastOn text { un with cache, seq } := fun _ _ =>
    h.of_kept rfl rfl (fun x hx => ⟨x, hx, rfl⟩) fun x hx => ⟨x, hx, rfl⟩
  unfold Unit.fillCache
  dsimp only
  split
  · exact h
  · split
    · exact keep _ _
    · split
      · exact keep _ _
      · exact h

theorem AsCastOn.loadResident {text : List W32} {un : Unit} (h : AsCastOn text un) (pages : List Page) : AsCastOn text (un.loadResident pages) := by
  unfold Unit.loadResident
  induction pages generalizing un with
  | nil => exact h
  | cons g pages ih => exact ih (h.fillCache g true 0)

/-- Places that move. -/
theorem AsCastOn.moved {text : List W32} {un : Unit} (h : AsCastOn text un) (m : Snapshot → Nat) : AsCastOn text (un.moved m) := by
  refine h.of_kept rfl rfl (fun x hx => ⟨x, hx, rfl⟩) fun x hx => ?_
  obtain ⟨y, hy, rfl⟩ := List.mem_map.mp hx
  exact ⟨y, hy, rfl⟩

/-- The first cycle of a running unit. -/
theorem AsCastOn.begin {text : List W32} {un : Unit} (h : AsCastOn text un) (run : Run) (started : Bool) (word0 : Option Nat) (snap : Snapshot) (now : Nat) :
    AsCastOn text (Unit.beginCycle { un with run, started, word0, snap } now) := by
  refine h.of_kept rfl (by simp [Unit.beginCycle]) (fun x hx => ?_) fun x hx => ⟨x, hx, rfl⟩
  obtain ⟨⟨y, j⟩, hy, rfl⟩ := List.mem_map.mp hx
  refine ⟨y, (List.mem_zipIdx' hy).2 ▸ List.getElem_mem _, ?_⟩
  dsimp only
  split <;> rfl

/-! ### A step over several units -/

/-- Unit `u` of the state is as its cast-on left it. -/
def State.Casts (text : List W32) (s : State) (u : Nat) : Prop := ∃ un, s.unit? u = some un ∧ AsCastOn text un

theorem State.Casts.of_units {text : List W32} {s t : State} {u : Nat} (h : s.Casts text u) (e : t.units = s.units) : t.Casts text u := by
  obtain ⟨un, hu, ha⟩ := h
  exact ⟨un, by unfold State.unit?; rw [e]; exact hu, ha⟩

/-- A unit that is entered leaves `u` so, unless it is `u` and is not as a cast-on leaves it. -/
theorem State.Casts.setUnit {text : List W32} {s : State} {u : Nat} (h : s.Casts text u) (j : Nat) {un : Unit} (ha : u = j → AsCastOn text un) :
    (s.setUnit j un).Casts text u := by
  obtain ⟨v, hv, hc⟩ := h
  by_cases e : u = j
  · exact ⟨un, by rw [State.unit?_setUnit, if_pos e], ha e⟩
  · exact ⟨v, by rw [State.unit?_setUnit, if_neg e]; exact hv, hc⟩

theorem State.Casts.replaced {text : List W32} {s t : State} {u : Nat} (h : s.Casts text u) (r : s.Replaced t) : t.Casts text u := by
  obtain ⟨un, hu, ha⟩ := h
  obtain ⟨m, hm⟩ := r.unit hu
  exact ⟨_, hm, ha.moved m⟩

/-- Steps that each leave unit `u` as its cast-on left it. -/
theorem State.Casts.foldl {α : Type} {text : List W32} {u : Nat} {f : State → α → State} (hf : ∀ s a, s.Casts text u → (f s a).Casts text u)
    (l : List α) {s : State} (h : s.Casts text u) : (l.foldl f s).Casts text u := by
  induction l generalizing s with
  | nil => exact h
  | cons a l ih => exact ih (hf s a h)

/-- Steps that each enter a unit so, and leave the others so. -/
theorem State.foldl_casts {α : Type} {text : List W32} {f : State → α → State} (key : α → Nat) (hset : ∀ s a, (f s a).Casts text (key a))
    (hf : ∀ s a u, s.Casts text u → (f s a).Casts text u) (l : List α) (s : State) : ∀ a ∈ l, (l.foldl f s).Casts text (key a) := by
  induction l generalizing s with
  | nil => exact fun _ h => absurd h List.not_mem_nil
  | cons b l ih =>
    intro a ha
    rcases List.mem_cons.mp ha with rfl | ha
    · exact State.Casts.foldl (fun s b => hf s b _) l (hset s a)
    · exact ih _ a ha

/-! ### What of a cast-on leaves the units alone -/

theorem foldl_units {α : Type} {f : State → α → State} (hf : ∀ s a, (f s a).units = s.units) (l : List α) (s : State) :
    (l.foldl f s).units = s.units := by
  induction l generalizing s with
  | nil => rfl
  | cons a l ih => exact (ih _).trans (hf s a)

theorem State.queueBlocks_units (s : State) (pa n : Nat) (t : Frac) : (s.queueBlocks pa n t).2.units = s.units := by
  unfold State.queueBlocks
  generalize List.range _ = l
  generalize hb : (false, s) = acc
  rw [show s.units = acc.2.units by rw [← hb]]
  clear hb
  induction l generalizing acc with
  | nil => rfl
  | cons i l ih => exact ih _

theorem State.queueBytes_units (s : State) (part va n : Nat) : (s.queueBytes part va n).units = s.units := by
  refine foldl_units (fun s i => ?_) _ s
  dsimp only [State.queueVa]
  split
  · exact s.queueBlocks_units _ _ _
  · rfl

theorem State.claim_units (s : State) (part u : Nat) : (s.claim part u).units = s.units := by
  unfold State.claim
  dsimp only
  split <;> split <;> rfl

theorem State.Casts.queueBytes {text : List W32} {s : State} {u : Nat} (h : s.Casts text u) (part va n : Nat) :
    (s.queueBytes part va n).Casts text u :=
  h.of_units (s.queueBytes_units part va n)

/-- The table of a job's crossings is read, and crossings are armed. What a descriptor leads to is a lemma of its own, over whatever has been read:
checked in place, the sizes of the reads would be counted up one by one. -/
theorem State.Casts.armCrossings {text : List W32} {s : State} {u : Nat} (h : s.Casts text u) (job k : Nat) : (s.armCrossings job k).Casts text u := by
  unfold State.armCrossings
  cases find s.jobs job with
  | none => exact h
  | some x =>
    refine State.Casts.foldl (fun s i hs => ?_) _ h
    extract_lets va q
    have hq : q.Casts text u := hs.queueBytes (partOf job) va 1088
    clear_value q va
    generalize q.readBytes (partOf job) va 1088 = r
    clear hs h
    as_aux_lemma =>
      split
      · exact hq
      · extract_lets d f
        split
        · split
          · split
            · extract_lets no taken
              split
              · exact hq
              · exact hq.of_units rfl
            · exact hq
          · exact hq
        · exact hq

/-! ### A cast-on and a start (R264) -/

/-- The units of a kernel whose cast-on loads. -/
theorem State.castOn_casts {s : State} {k : Nat} {ker : Kernel} {us : List Nat} {l : Load} (hl : s.loadOf ker = some l) :
    ∀ u ∈ us, (s.castOn k ker us).Casts l.text u := by
  intro u hu
  unfold State.castOn
  simp only [hl]
  refine State.Casts.armCrossings ?_ ker.job k
  obtain ⟨i, hi⟩ := List.mem_iff_getElem?.mp hu
  exact State.foldl_casts (·.1) (fun s e => ⟨_, State.unit?_setUnit_self _ _ _, (AsCastOn.freshUnit _ k ker e.2 e.1 l.text).loadResident l.resident⟩)
    (fun s e v hv => (hv.of_units (s.claim_units ker.part e.1)).setUnit e.1 fun _ => (AsCastOn.freshUnit _ k ker e.2 e.1 l.text).loadResident l.resident)
    us.zipIdx _ (u, i) (List.mk_mem_zipIdx_iff_getElem?.mpr hi)

/-- A unit that the start of a kernel finds as its cast-on left it. -/
theorem State.kernelStart_casts {text : List W32} {s t : State} {k u : Nat} (h : exec (.kernelStart k) s = .next t) (hc : s.Casts text u) :
    t.Casts text u := by
  rw [show exec (.kernelStart k) s = execKernelStart k s from rfl, execKernelStart] at h
  obtain rfl := Host.Outcome.next.inj h
  split
  · exact hc
  · dsimp only
    split
    · exact hc
    · refine State.Casts.foldl (fun s j hs => ?_) _ (hc.of_units rfl)
      split
      · exact hs
      · rename_i un hun
        refine (hs.replaced (s.placeAt_replaced _ _ _)).setUnit j fun e => ?_
        obtain ⟨v, hv, hc⟩ := hs
        obtain rfl : v = un := Option.some.inj (hv.symm.trans (e ▸ hun))
        exact hc.begin ..

end Sys2Proof.Machine

open Sys2Proof Sys2Proof.Machine

/-- Settles O59: the cast-on enters fresh units, and neither it nor the start changes anything else that R31 lists. -/
theorem castOnState : Obligations.CastOnState := by
  constructor
  · intro s k ker us l hk hready hwait hfits hplace hload _
    have hgrant : s.grant k = s.castOn k ker us := by
      unfold State.grant
      simp only [hk, hfits, hplace, hready]
      rfl
    refine ⟨s.castOn k ker us, ?_, State.castOn_casts hload⟩
    show execKernelCastOn k s = _
    unfold execKernelCastOn
    simp only [hk, hready, hwait, true_or, if_true, List.foldl_cons, List.foldl_nil, hgrant]
  · intro s k ker text _ _ hlive
    exact ⟨_, rfl, fun u hu => State.kernelStart_casts rfl (hlive u hu)⟩
end

