-- ==== Sys2Proof/Proofs/Cycles.lean ====
section
/-! PROOFS. A region's cycle where one unit number is listed twice (O49). -/

namespace Sys2Proof.Machine

/-- A multiply that runs no k-step and whose release completes in cycle 1 of its unit's region. -/
def releasingMult : Mult :=
  { op := 0, acc := 0, n := 0, d := 1, acq := false, rel := true, scope := 0, cfg := Cfg.reset, next := 0, startAt := 0, resumed := false, seq := 0
    waiting := false, freeAt := 0, relBase := some 0, cover := ⟨[], 0⟩, relAt := none }

/-- A state in which the list of units gives number 0 twice: in region 1, with a release about to complete, and in region 0, whose next cycle begins. -/
def doubleListed : State :=
  { State.reset with
    units := [(0, { State.reset.freshUnit 0 (fetchKernel 1) 0 0 [] with mult := some releasingMult }), (0, State.reset.freshUnit 0 (fetchKernel 0) 0 0 [])]
    regions := [{ fetchRegion with openCyc := false }, { Region.zero with rcc := 1 }] }

/-- The first of the two units is the one that number 0 finds, so that its release is published in the cycle of region 0, and draws a place in region 1. -/
theorem doubleListed_place : ((outcomeState doubleListed (exec (.regionCycle 0) doubleListed)).region 1).placed.1 = ⟨1, 1⟩ := by
  rfl

end Sys2Proof.Machine

open Sys2Proof Sys2Proof.Machine

/-- Refutes O49: its first clause, that a region's cycle leaves every other region as it was, fails in `doubleListed`, where the list of units gives one
number twice, which no hypothesis of that clause rules out: the cycle of region 0 publishes a release that completes in region 1, whose latest place is
then that of another time. -/
theorem not_regionsRunFreezeAndThaw : ¬ Obligations.RegionsRunFreezeAndThaw := by
  rintro ⟨hcycle, -⟩
  obtain ⟨t, ht, -, -, -, -, hother, -⟩ := hcycle doubleListed 0 (by decide) rfl rfl rfl rfl
  have hplaced := doubleListed_place
  rw [ht] at hplaced
  have hkept : (t.region 1).placed.1 = ⟨0, 1⟩ := by rw [hother 1 (by decide)]; rfl
  rw [show outcomeState doubleListed (Host.Outcome.next t) = t from rfl, hkept] at hplaced
  exact absurd hplaced (by decide)
end

