-- ==== Sys2Proof/Proofs/Crossings.lean ====
section
/-! PROOFS. The history of a crossing when a producer's sample enters it (O40). -/

namespace Sys2Proof.Machine

/-- A history grows with every sample until it holds 128: the newest 64 of R260, and those that can have entered after an instant of sampling. -/
theorem Crossing.enter_hist_length (x : Crossing) (e : XSample) : (x.enter e).hist.length = min (x.hist.length + 1) 128 := by
  have hdrop : (x.enter e).hist.length = x.hist.length + 1 - (x.hist.length - 127) := by simp [Crossing.enter]
  omega

/-- The sample that waits for its turn enters the history with the cycle after this one as its time (R198). -/
theorem crossingSampleEnter_hist {s t : State} {d x n c : Nat} {un : Unit} {xr xr' : Crossing} {bs : List Byte} {p : Bool}
    (hx : find s.crossings (16 * d + x) = some xr) (hu : s.unit? xr.prod = some un) (hk : un.kernel = xr.prodK)
    (hin : (xr.inbox.find? fun e => e.1 == xr.entered && decide (e.2.1 ≤ s.now un)) = some (n, c, bs, p))
    (ht : exec (.crossingSampleEnter d x) s = .next t) (hx' : find t.crossings (16 * d + x) = some xr') :
    xr'.hist = (xr.enter ⟨n, bs, p, (s.region un.region).cycleTime (s.now un + 1)⟩).hist := by
  have hprod : (s.unit? xr.prod).filter (fun un => un.kernel == xr.prodK) = some un := by simp [hu, hk]
  have hexec : exec (.crossingSampleEnter d x) s = execCrossingSampleEnter d x s := rfl
  rw [hexec, execCrossingSampleEnter] at ht
  simp only [hx, hprod, hin] at ht
  obtain rfl := Host.Outcome.next.inj ht
  rw [State.setUnit_crossings, find_put_self] at hx'
  obtain rfl := Option.some.inj hx'
  dsimp only

/-- An armed crossing of unit 0 whose history holds its first 64 samples, and whose sample 64 waits for its turn. -/
def filledCrossing : Crossing :=
  { armed := true, desc := 0, part := 0, prodK := 0, consK := 0, prod := 0, cons := 0, z := 64, efmt := 0, replay := false, tlen := 1, trace := 0, w := []
    hist := (List.range 64).map fun n => ⟨n, List.replicate 64 1, false, ⟨n, 1⟩⟩
    sp0 := 0, sc0 := 0, wrN := 65, rdN := 0, entered := 64, drops := 0, repeats := 0, lastOut := none, disc := false
    inbox := [(64, 99, List.replicate 64 1, false)], parts := [] }

/-- Unit 0 as a cast-on leaves it, the producer of that crossing, in cycle 99 of its region. -/
def filledState : State :=
  { State.reset with
    units := [(0, State.reset.freshUnit 0 (fetchKernel 0) 0 0 [])], regions := [{ fetchRegion with rcc := 99 }], kernels := [fetchKernel 0]
    crossings := [(0, filledCrossing)] }

end Sys2Proof.Machine

open Sys2Proof Sys2Proof.Machine

/-- Refutes O40: its last clause, that the history holds at most 64 samples after one has entered, fails in `filledState`, where sample 64 enters behind
64 others. The model keeps up to 128 and cuts them to the newest 64 only where it samples the crossing (`Crossing.histAt`). -/
theorem not_atomicsAndCompletion : ¬ Obligations.AtomicsAndCompletion := by
  rintro ⟨-, -, -, henter⟩
  obtain ⟨t, xr', ht, hx', -, -, hle⟩ := henter filledState 0 0 64 99 _ filledCrossing (List.replicate 64 1) false rfl rfl rfl rfl
  have hlength : xr'.hist.length = 65 := by
    rw [crossingSampleEnter_hist rfl rfl rfl rfl ht hx', Crossing.enter_hist_length]
    rfl
  omega
end

