-- ==== Sys2Proof/Proofs/Waits.lean ====
section
/-! PROOFS. Loop breaks, waits, phases and barriers as their words issue (O11, O12, O13). -/

namespace Sys2Proof.Machine

/-! ### Waits (R115, R116) -/

/-- Of the multiples of `p` up to `n` the last is the greatest. -/
theorem le_div_mul_of_multiple {b n p : Nat} (hb : b ≤ n) (hp : b % p = 0) : b ≤ n / p * p := by
  obtain ⟨q, rfl⟩ := Nat.dvd_of_mod_eq_zero hp
  rw [Nat.mul_comm p q] at hb ⊢
  rcases Nat.eq_zero_or_pos p with rfl | h0
  · simp
  · exact Nat.mul_le_mul_right p ((Nat.le_div_iff_mul_le h0).mpr hb)

/-- The condition of `waitx` over the integers, as R116 writes it. -/
theorem waitxHolds_iff (wm kk im : Nat) : waitxHolds wm kk im = true ↔ ((wm : Int) - kk + im) % 2 ^ 32 < 2 ^ 31 := by
  unfold waitxHolds
  rw [decide_eq_true_eq]
  omega

/-- K of R116 where the channel is there. -/
theorem Unit.copyCount_of_chan {v : Unit} {k c : Nat} {ch : Chan} (h : v.chans[c]? = some ch) :
    v.copyCount k c = if k = 3 then ch.tid else (v.wk k).copies.getD c 0 := by
  simp only [Unit.copyCount, List.getD_eq_getElem?_getD, h, Option.getD_some]

/-- Where every walker of a set has arrived, none is on another path (R117). -/
theorem SyncView.all_arrived {vs : List SyncView} (h : ∀ x ∈ vs, x = .arrived) : vs.contains .elsewhere = false ∧ (vs.all fun x => x == .arrived) = true := by
  refine ⟨?_, List.all_eq_true.mpr fun x hx => beq_iff_eq.mpr (h x hx)⟩
  rw [← Bool.not_eq_true, List.contains_iff_mem]
  exact fun hmem => nomatch h _ hmem

/-! ### Phases (R118) -/

/-- The phase that walker `k` comes to at word `i`: the one that waits for it there, or else a new one. -/
def Unit.phaseAt (v : Unit) (k scope : Nat) (ws : List Nat) : PhaseState :=
  (v.phases.find? fun q : PhaseState => q.waitsFor (v.wk k).idx k).getD ⟨(v.wk k).idx, scope, ws, [], none, ⟨[], 0⟩, [], false⟩

theorem Unit.phaseAt_cases (v : Unit) (k scope : Nat) (ws : List Nat) :
    v.phases.find? (fun q : PhaseState => q.waitsFor (v.wk k).idx k) = some (v.phaseAt k scope ws) ∨
      v.phases.find? (fun q : PhaseState => q.waitsFor (v.wk k).idx k) = none ∧
        v.phaseAt k scope ws = ⟨(v.wk k).idx, scope, ws, [], none, ⟨[], 0⟩, [], false⟩ := by
  unfold Unit.phaseAt
  cases v.phases.find? fun q : PhaseState => q.waitsFor (v.wk k).idx k with
  | some p => exact .inl rfl
  | none => exact .inr ⟨rfl, rfl⟩

/-- The boundary is taken with the last of the walkers needed. -/
theorem PhaseState.join_eq (p : PhaseState) (v : Unit) (k now : Nat) : p.join v k now =
    { p with
      got := p.got ++ [k], held := p.held ++ [k], at_ := if p.need.all (p.got ++ [k]).contains then some now else none
      cover := if p.need.all (p.got ++ [k]).contains then v.coverNow now else p.cover } := by
  unfold PhaseState.join
  by_cases h : ∀ j ∈ p.need, j ∈ p.got ++ [k]
  · have h' : p.need.all (p.got ++ [k]).contains = true := by simpa using h
    rw [if_pos h, if_pos h', if_pos h']
  · have h' : ¬p.need.all (p.got ++ [k]).contains = true := by simpa using h
    rw [if_neg h, if_neg h', if_neg h']

/-! ### Barriers (R121) -/

/-- A word that waits in both modes, and whose standing there changes its unit. -/
theorem exec_stand {f : WordInfo} {body : State → Nat → Nat → Act} {i : Instr} {s : State} {u k cls : Nat} {flag : Option Nat} {v v1 : Unit}
    (h : Ready f s u k v) (he : exec i s = .next (runWord f body s)) (hb : body (s.setUnit u v) u k = .stand (s.setUnit u v1) cls flag) :
    exec i s = .next ((s.setUnit u v1).close u k cls flag) := by
  obtain ⟨un, hs, rfl⟩ := h
  rw [he, runWord_ready hs, hb]

theorem append_ite_nil {α : Type} (c : Prop) [Decidable c] (l m : List α) : (l ++ if c then [] else m) = if c then l else l ++ m := by
  split
  · exact List.append_nil l
  · rfl

theorem mem_maskWalkers {w : BitVec 4} {j : Nat} : j ∈ maskWalkers w ↔ j < 4 ∧ w.toNat.testBit j = true := by
  simp [maskWalkers]

end Sys2Proof.Machine

open Sys2Proof Sys2Proof.Machine

/-- Settles O11: the inner level and the steer entry decide what the body of `lbrk` does. -/
theorem lbrkIssues : Obligations.LbrkIssues := by
  intro w st s u k v e hw hr hs
  refine ⟨fun hi => ?_, fun l hi => ⟨fun hp => ?_, fun hp hc => ?_, fun hp hc => ?_⟩⟩
  · refine .of_body hr rfl ?_
    simp [hw, hi]
  · refine .of_seq hr rfl ?_ ((SamePlace.refl v k).raise ..)
    simp [hw, hi, withSteer_entry _ hs, hp]
  · refine .of_seq hr rfl ?_ (.refl v k)
    simp [hw, hi, withSteer_entry _ hs, hp, hc]
  · refine .of_seq hr rfl ?_ ((SamePlace.refl v k).setWk ..)
    simp [hw, hi, withSteer_entry _ hs, hp, hc]
    exact congrArg (s.setUnit u) (v.setWk_congr k rfl)

/-- Settles O12: each wait's body issues it where its condition holds. -/
theorem waitsIssue : Obligations.WaitsIssue := by
  refine ⟨?_, ?_, ?_, ?_⟩
  · rintro w s u k c v hr hc ⟨b, hcb, hbn, hb⟩
    refine .of_seq hr rfl ?_ ((SamePlace.refl v k).setWk ..)
    have hle : v.standsFrom k (s.now v) ≤ s.now v / max 1 (s.region v.region).p * max 1 (s.region v.region).p := by
      simp only [Unit.standsFrom, hc, Option.getD_some]
      exact hcb.trans (le_div_mul_of_multiple hbn hb)
    unfold State.now at hle
    simp [hle]
  · intro w a s u k v v1 x hr ho hf
    have hp1 : SamePlace v v1 k := .of_fetch hf
    refine ⟨fun hp => ?_, fun hp hx => ?_, fun hp hx => ?_⟩
    · refine .of_seq hr rfl ?_ (hp1.raise ..)
      simp [ho, hf, poisonOf, hp]
    · refine .of_seq hr rfl ?_ hp1
      simp [ho, hf, poisonOf, arg, hp, hx]
    · refine exec_wait hr rfl ?_
      simp [ho, hf, poisonOf, arg, hp, Nat.not_le.mpr hx]
  · intro w c n s u k v ch hr hch hcond
    refine .of_seq hr rfl ?_ (.refl v k)
    have hgo : waitxHolds (v.chans.getD c.toNat ⟨0, 0, 0, [], 0, none⟩).wm (v.copyCount k c.toNat) n.toNat = true := by
      rw [waitxHolds_iff, Unit.copyCount_of_chan hch, List.getD_eq_getElem?_getD, hch]
      split at hcond <;> simp_all
    simp only [State.unit?_setUnit_self, hgo, if_true]
  · intro w st s u k v hw hr harr
    refine .of_seq hr rfl ?_ (.refl v k)
    have hall : ∀ x ∈ ((List.range 4).filter fun j => st.toNat.testBit j).map fun j => v.syncView (s.now v) k j ((ctl w).who j), x = SyncView.arrived := by
      intro x hx
      obtain ⟨j, hj, rfl⟩ := List.mem_map.mp hx
      obtain ⟨hj4, hbit⟩ := List.mem_filter.mp hj
      exact harr j (List.mem_range.mp hj4) hbit
    obtain ⟨hno, hyes⟩ := SyncView.all_arrived hall
    simp only [State.unit?_setUnit_self, State.now_setUnit, hw, hno, hyes, Bool.not_true, Bool.false_eq_true, if_false, if_true]

/-- Settles O13: the phase that the body of `phase` enters is `PhaseState.join`, and the unit's arrival decides what `bar` does. -/
theorem phaseAndBarIssue : Obligations.PhaseAndBarIssue := by
  refine ⟨?_, ?_⟩
  · intro w st s u k v hw hr
    refine ⟨v.phaseAt k st.toNat (maskWalkers w), v.phaseAt_cases .., .of_seq hr rfl ?_ (((SamePlace.refl v k).setWk k fun x => { x with held := true }).withWalkers rfl)⟩
    simp only [State.unit?_setUnit_self, hw, Bool.not_true, Bool.false_eq_true, if_false, State.setUnit_setUnit, PhaseState.join_eq]
    rfl
  · intro w st im s u k v hw hr
    refine ⟨fun b hb hrel => ?_, fun b hb hrel => ?_, fun hb hall => ?_⟩
    · refine .of_seq hr rfl ?_ (.of_walkers k rfl)
      simp only [State.unit?_setUnit_self, hw, hb, hrel, Bool.not_true, Bool.false_eq_true, if_false, if_true, State.setUnit_setUnit, List.isEmpty_iff,
        append_ite_nil]
    · refine exec_wait hr rfl ?_
      simp only [State.unit?_setUnit_self, hw, hb, hrel, Bool.not_true, Bool.false_eq_true, if_false]
    · have hanew : ((maskWalkers w).all fun j => (v.wk j).idx == (v.wk k).idx && v.stands j &&
          !(v.bars.any fun b => b.word == (v.wk k).idx && b.ws.contains j)) = true := by
        rw [List.all_eq_true]
        intro j hj
        obtain ⟨hj4, hbit⟩ := mem_maskWalkers.mp hj
        obtain ⟨hidx, hst, hfree⟩ := hall j hj4 hbit
        simpa [hidx, hst] using hfree
      refine exec_stand hr rfl ?_
      simp only [State.unit?_setUnit_self, State.now_setUnit, hw, hb, hanew, Bool.not_true, Bool.false_eq_true, if_false, if_true, State.setUnit_setUnit]
end

