-- ==== Sys2Proof/Proofs/Loops.lean ====
section
/-! PROOFS. Squashed words, and the start of a loop pass (O34). -/

namespace Sys2Proof.Machine

/-! ### Words of plain shape (R108) -/

/-- Instruction `i` is a word of which the walk reads `f`. -/
def IsWord (i : Instr) (f : WordInfo) : Prop := ∃ body, ∀ s, exec i s = .next (runWord f body s)

theorem IsWord.of_integerWord {i : Instr} {r : RegWord} (h : integerWord i = some r) : IsWord i r.info := by
  unfold integerWord at h
  split at h <;> cases h <;> exact ⟨_, fun _ => rfl⟩

theorem IsWord.of_loadWord {i : Instr} {m : MemWord} (h : loadWord i = some m) : IsWord i (ctl m.w) := by
  unfold loadWord at h
  split at h <;> cases h <;> exact ⟨_, fun _ => rfl⟩

theorem IsWord.of_storeWord {i : Instr} {m : MemWord} (h : storeWord i = some m) : IsWord i (ctl m.w) := by
  unfold storeWord at h
  split at h <;> cases h <;> exact ⟨_, fun _ => rfl⟩

theorem IsWord.of_branchWord {i : Instr} {b : BitVec 4 × BitVec 4 × Bool × Option (BitVec 18)} (h : branchWord i = some b) : IsWord i (ctl b.1) :=
  ⟨_, branchWord_means h⟩

theorem IsWord.of_steerWord {i : Instr} {r : SteerWord} (h : steerWord i = some r) : IsWord i (ctlSteer r.w r.d.toNat) := by
  obtain ⟨f, he, -⟩ := steerWord_means h
  exact ⟨_, he⟩

/-- The word of a `vfmal`: its literal words decide its length and its occupancy (R132). -/
theorem IsWord.of_vfmal (d a : BitVec 6) (two m : BitVec 1) (l0 l1 : W32) {r : VecWord} (h : vectorWord (.vfmal d a two m l0 l1) = some r) :
    IsWord (.vfmal d a two m l0 l1) { vecWord r.occ with words := r.words } := by
  obtain rfl := Option.some.inj h
  by_cases h2 : two = 0
  · subst h2; exact ⟨_, fun _ => rfl⟩
  · rw [if_neg h2]
    exact ⟨_, fun s => (if_neg h2 : execVfmal d a two m l0 l1 s = _)⟩

theorem IsWord.of_vectorWord {i : Instr} {r : VecWord} (h : vectorWord i = some r) : IsWord i { vecWord r.occ with words := r.words } := by
  unfold vectorWord at h
  split at h
  case h_41 => exact .of_vfmal _ _ _ _ _ _ h
  all_goals cases h <;> exact ⟨_, fun _ => rfl⟩

/-- The engine's hold after a squashed multiply, as R108 adds it up. -/
theorem multFree_eq (op n : Nat) (acq rel : Bool) (scope : Nat) (un : Unit) (now : Nat) :
    multFree op n acq rel scope un now = freeAfter op n acq rel (un.lsc scope) (un.divisor 1) now := by
  have hd : 0 < un.divisor 1 := by unfold Unit.divisor; rw [if_neg (by decide)]; omega
  have hissue : ∀ c, nextIssue (un.divisor 1) c = c + (un.divisor 1 - c % un.divisor 1) % un.divisor 1 := by
    intro c
    have hlt := Nat.mod_lt c hd
    unfold nextIssue
    split
    · rename_i h0; rw [h0, Nat.sub_zero, Nat.mod_self, Nat.add_zero]
    · rw [Nat.mod_eq_of_lt (a := un.divisor 1 - _) (by omega)]
  have hland : ∀ c, n ≠ 0 → c + 32 * un.divisor 1 * n + (if op = 12 then 16 else 8) * un.divisor 1 - 1 =
      c + 32 * un.divisor 1 * (n - 1) + (if op = 12 then 48 else 40) * un.divisor 1 - 1 := by
    intro c hn
    obtain ⟨k, rfl⟩ := Nat.exists_eq_succ_of_ne_zero hn
    rw [Nat.succ_sub_one, Nat.mul_succ]
    split <;> omega
  simp only [multFree, freeAfter, hissue]
  cases rel with
  | false => rfl
  | true =>
    by_cases hn : n = 0
    · simp [hn]
    · simp only [if_true, if_neg hn, hland _ hn]

theorem IsWord.of_multiplyWord {i : Instr} {m : Nat × BitVec 4 × BitVec 12 × BitVec 1 × BitVec 1 × BitVec 4} (h : multiplyWord i = some m) :
    IsWord i { matWord 0 true with
      mult := if wellFormed i then some fun un t => freeAfter m.1 m.2.2.1.toNat (m.2.2.2.1 == 1) (m.2.2.2.2.1 == 1) (un.lsc m.2.2.2.2.2.toNat) (un.divisor 1) t
              else none } := by
  simp only [← multFree_eq]
  unfold multiplyWord at h
  split at h <;> cases h <;> exact ⟨_, fun _ => rfl⟩

theorem IsWord.of_moveWord {i : Instr} {m : CopyOp × BitVec 2 × List (BitVec 5) × BitVec 1 × BitVec 1 × BitVec 4} (h : moveWord i = some m) :
    IsWord i (cpyWord (some m.2.1.toNat)) := by
  unfold moveWord at h
  split at h <;> cases h <;> exact ⟨_, fun _ => rfl⟩

theorem IsWord.of_fillWord {i : Instr} {m : Bool × BitVec 2 × BitVec 1 × BitVec 5 × BitVec 5 × BitVec 1 × BitVec 1 × BitVec 4} (h : fillWord i = some m) :
    IsWord i (cpyWord (some m.2.1.toNat)) := by
  unfold fillWord at h
  split at h <;> cases h <;> exact ⟨_, fun _ => rfl⟩

theorem IsWord.of_atomicWord {i : Instr} {m : Nat × BitVec 2 × BitVec 5 × BitVec 5 × BitVec 5 × BitVec 1 × BitVec 1 × BitVec 4} (h : atomicWord i = some m) :
    IsWord i (cpyWord (some m.2.1.toNat)) := by
  unfold atomicWord at h
  split at h <;> cases h <;> exact ⟨_, fun _ => rfl⟩

theorem IsWord.of_map {α : Type} {i : Instr} {o : Option α} {g : α → WordInfo} {f : WordInfo} (ho : ∀ a, o = some a → IsWord i (g a))
    (h : o.map g = some f) : IsWord i f := by
  obtain ⟨a, ha, rfl⟩ := Option.map_eq_some_iff.mp h
  exact ho a ha

theorem IsWord.of_orElse {i : Instr} {o p : Option WordInfo} {f : WordInfo} (ho : o = some f → IsWord i f) (hp : p = some f → IsWord i f)
    (h : (o <|> p) = some f) : IsWord i f := by
  cases o with
  | none => exact hp h
  | some g => exact ho h

/-- What `plainInfo` gives for an instruction is what the walk reads of it. -/
theorem IsWord.of_plainInfo {i : Instr} {f : WordInfo} (h : plainInfo i = some f) : IsWord i f := by
  unfold plainInfo at h
  refine of_orElse (of_map fun _ => of_integerWord) (of_orElse (of_map fun _ => of_loadWord) (of_orElse (of_map fun _ => of_storeWord)
    (of_orElse (of_map fun _ => of_branchWord) (of_orElse (of_map fun _ => of_steerWord) (of_orElse (of_map fun _ => of_vectorWord)
    (of_orElse (of_map fun _ => of_multiplyWord) (of_orElse (of_map fun _ => of_moveWord) (of_orElse (of_map fun _ => of_fillWord)
    (of_map fun _ => of_atomicWord))))))))) h

/-! ### The stop point of a request (R284) -/

theorem State.unit?_modUnit (s : State) (u j : Nat) (f : Unit → Unit) : (s.modUnit u f).unit? j = if j = u then (s.unit? u).map f else s.unit? j := by
  cases hu : s.unit? u with
  | some un => rw [State.modUnit_of_some f hu, State.unit?_setUnit]; rfl
  | none =>
    have hsame : s.modUnit u f = s := by unfold State.modUnit; rw [hu]
    rw [hsame]
    split
    · rename_i hj; rw [hj, hu]; rfl
    · rfl

theorem State.isPaired_modUnit (s : State) (u : Nat) (f : Unit → Unit) (un : Unit) : (s.modUnit u f).isPaired un = s.isPaired un := by
  unfold State.modUnit
  split <;> rfl

/-- Pair partners lie in two clusters (R3). -/
theorem partner_ne (u : Nat) : partner u ≠ u := by
  unfold partner pairCluster clusterOf inCluster
  split <;> omega

/-- The state in which a request that has reached unit `u` sets its stop point, and its pair partner's with it. -/
def State.setStop (s : State) (u : Nat) (un : Unit) : State :=
  let t := s.modUnit u fun v => v.stopPoint (s.now un)
  if t.isPaired un then t.modUnit (partner u) fun v => v.stopPoint (s.now un) else t

theorem State.setStop_self {s : State} {u : Nat} {un : Unit} (h : s.unit? u = some un) : (s.setStop u un).unit? u = some (un.stopPoint (s.now un)) := by
  have hself : (s.modUnit u fun v => v.stopPoint (s.now un)).unit? u = some (un.stopPoint (s.now un)) := by
    rw [State.unit?_modUnit, if_pos rfl, h]; rfl
  unfold State.setStop
  dsimp only
  split
  · rw [State.unit?_modUnit, if_neg (partner_ne u).symm, hself]
  · exact hself

theorem State.setStop_other (s : State) {u v : Nat} (un : Unit) (hv : v ≠ u) (hp : v ≠ partner u ∨ s.isPaired un = false) :
    (s.setStop u un).unit? v = s.unit? v := by
  have hkeep : (s.modUnit u fun v => v.stopPoint (s.now un)).unit? v = s.unit? v := by rw [State.unit?_modUnit, if_neg hv]
  unfold State.setStop
  dsimp only
  split
  · rename_i hpair
    rw [State.isPaired_modUnit] at hpair
    rw [State.unit?_modUnit, if_neg (hp.resolve_right (by simp [hpair])), hkeep]
  · exact hkeep

/-- Every walker outside a level stops at the stop point. -/
theorem Unit.stopPoint_wk {un : Unit} (h4 : un.walkers.length = 4) (hp : un.p0 = none) (now : Nat) {j : Nat} (hj : j < 4) :
    (un.stopPoint now).wk j = if (un.wk j).inner = none then { un.wk j with stopped := true } else un.wk j := by
  have hlt : j < un.walkers.length := h4 ▸ hj
  unfold Unit.stopPoint Unit.wk
  simp only [hp, List.getD_eq_getElem?_getD, List.getElem?_map, List.getElem?_eq_getElem hlt, Option.map_some, Option.getD_some, Option.isNone_iff_eq_none]

@[simp] theorem Unit.stopPoint_count (un : Unit) (now : Nat) : (un.stopPoint now).walkers.length = un.walkers.length := by
  unfold Unit.stopPoint
  split
  · rfl
  · exact List.length_map _

theorem Unit.draining_eq_true {un : Unit} {now c : Nat} (h : un.p0 = some c) (hc : c ≤ now) : un.draining now = true := by
  unfold Unit.draining
  rw [h]
  exact decide_eq_true hc

theorem Unit.draining_eq_false {un : Unit} {now : Nat} (h : ∀ c, un.p0 = some c → now < c) : un.draining now = false := by
  unfold Unit.draining
  cases hp : un.p0 with
  | none => rfl
  | some c => exact decide_eq_false (Nat.not_le.mpr (h c hp))

theorem Unit.asked_eq_true {un : Unit} {now c : Nat} (h : un.request = some c) (hc : c ≤ now) : un.asked now = true := by
  unfold Unit.asked
  rw [h]
  exact decide_eq_true hc

theorem Unit.asked_eq_false {un : Unit} {now : Nat} (h : ∀ c, un.request = some c → now < c) : un.asked now = false := by
  unfold Unit.asked
  cases hp : un.request with
  | none => rfl
  | some c => exact decide_eq_false (Nat.not_le.mpr (h c hp))

/-! ### The start of a pass (R109, R114) -/

/-- Walker `w` in the first cycle of the pass of its level `l` that begins. -/
def Walker.inPass (w : Walker) (now : Nat) (l : Level) : Walker :=
  let v := { w with inner := some { l with started := true, began := w.ic, after := w.ic } }
  if v.extLast.contains (256 * (now - 1) + l.reg) then v else v.setReg l.reg ⟨BitVec.ofNat 64 l.pass, false⟩

/-- The pass number is in the loop's register, unless a write from outside landed there in the cycle before, or `x0` is named. -/
theorem Walker.inPass_eq (w : Walker) (now : Nat) (l : Level) : w.inPass now l =
    { w with
      inner := some { l with started := true, began := w.ic, after := w.ic }
      x := if l.reg = 0 ∨ w.extLast.contains (256 * (now - 1) + l.reg) then w.x else w.x.set l.reg ⟨BitVec.ofNat 64 l.pass, false⟩ } := by
  unfold Walker.inPass Walker.setReg
  dsimp only
  by_cases h0 : l.reg = 0
  · rw [if_pos h0, ite_self, if_pos (.inl h0)]
  · by_cases hx : w.extLast.contains (256 * (now - 1) + l.reg) = true
    · rw [if_pos hx, if_pos (.inr hx)]
    · rw [if_neg hx, if_neg h0, if_neg (not_or.mpr ⟨h0, hx⟩)]

/-- The unit after `LOOP_PASS_START` of walker `k`, whose level is `l`. -/
def Unit.passStart (un : Unit) (now k : Nat) (l : Level) : Unit :=
  let l := if un.draining now && l.drain.isNone then { l with drain := some l.pass } else l
  let pd := l.drain.getD l.trip
  if un.draining now && decide (pd < l.trip) && !l.runs l.pass then
    { un.setWk k fun w => { w.drained l pd with slot := .done 3 none } with steers := un.steers.map (closeTags k l.word) }
  else un.setWk k (·.inPass now l)

/-- A level that may begin its pass does so after the stop point that a request sets. -/
theorem loopPassStart_eq {s : State} {u k n : Nat} {un : Unit} {l : Level} (hu : s.unit? u = some un) (hw : (un.wk k).slot = .walking n)
    (hi : (un.wk k).inner = some l) (hs : l.started = false) (hr : (un.wk k).ready ≤ (un.wk k).ic) (hst : (un.wk k).stopped = false) (hrun : un.run = .running) :
    exec (.loopPassStart u k) s =
      .next ((if un.asked (s.now un) ∧ un.p0.isNone then s.setStop u un else s).modUnit u (·.passStart (s.now un) k l)) := by
  show execLoopPassStart u k s = _
  unfold execLoopPassStart
  rw [hu]
  have hgo : ¬(l.started = true ∨ (un.wk k).ic < (un.wk k).ready ∨ (un.wk k).stopped = true ∨ un.run ≠ .running) := by
    simp [hs, hst, hrun, Nat.not_lt.mpr hr]
  simp only [hw, hi, hgo, if_false]
  rfl

/-- The level as it drains from the pass that it starts first after the stop point. -/
def Level.draining (l : Level) : Level := { l with drain := some (l.drain.getD l.pass) }

theorem Level.draining_eq (l : Level) : (if l.drain.isNone then { l with drain := some l.pass } else l) = l.draining := by
  unfold Level.draining
  cases l
  rename_i drain
  cases drain <;> rfl

section
variable {un : Unit} {now : Nat} (k : Nat) {l : Level}

/-- Before a stop point the level begins its pass. -/
theorem Unit.passStart_begins (h : un.draining now = false) : un.passStart now k l = un.setWk k (·.inPass now l) := by
  unfold Unit.passStart
  simp only [h, Bool.false_and, Bool.false_eq_true, if_false]

/-- From a stop point on the level drains: its pass begins unless it has passes left of which none has started. -/
theorem Unit.passStart_draining (h : un.draining now = true) : un.passStart now k l =
    if l.drain.getD l.pass < l.trip ∧ l.draining.runs l.pass = false then
      { un.setWk k fun w => { w.drained l (l.drain.getD l.pass) with slot := .done 3 none } with steers := un.steers.map (closeTags k l.word) }
    else un.setWk k (·.inPass now l.draining) := by
  have hcond : (decide (l.draining.drain.getD l.draining.trip < l.draining.trip) && !l.draining.runs l.draining.pass) = true ↔
      l.drain.getD l.pass < l.trip ∧ l.draining.runs l.pass = false := by
    rw [Bool.and_eq_true, decide_eq_true_eq, Bool.not_eq_true']; exact Iff.rfl
  unfold Unit.passStart
  simp only [h, Bool.true_and, Level.draining_eq, hcond]
  rfl

/-- The pass begins where what has started still runs in it. -/
theorem Unit.passStart_runs (h : un.draining now = true) (hr : l.trip ≤ l.drain.getD l.pass ∨ l.draining.runs l.pass = true) :
    un.passStart now k l = un.setWk k (·.inPass now l.draining) := by
  rw [Unit.passStart_draining k h, if_neg]
  rintro ⟨hlt, hno⟩
  rcases hr with hr | hr
  · exact absurd hlt (Nat.not_lt.mpr hr)
  · exact absurd hr (Bool.not_eq_true _ ▸ hno)

theorem Unit.passStart_wk_ne (un : Unit) (now : Nat) (l : Level) {j : Nat} (h : j ≠ k) : (un.passStart now k l).wk j = un.wk j := by
  cases hd : un.draining now with
  | false => rw [Unit.passStart_begins k hd]; exact Unit.wk_setWk_ne un _ h
  | true => rw [Unit.passStart_draining k hd]; split <;> exact Unit.wk_setWk_ne un _ h

theorem Unit.passStart_p0 (un : Unit) (now : Nat) (l : Level) : (un.passStart now k l).p0 = un.p0 := by
  cases hd : un.draining now with
  | false => rw [Unit.passStart_begins k hd]; rfl
  | true => rw [Unit.passStart_draining k hd]; split <;> rfl

variable {k}

theorem Unit.passStart_runs_inner (hk : k < un.walkers.length) (h : un.draining now = true) (hr : l.trip ≤ l.drain.getD l.pass ∨ l.draining.runs l.pass = true) :
    ((un.passStart now k l).wk k).inner = some { l.draining with started := true, began := (un.wk k).ic, after := (un.wk k).ic } := by
  rw [Unit.passStart_runs k h hr, Unit.wk_setWk_self un _ hk, Walker.inPass_eq]

/-- With nothing left to run the walker goes back to its `loop` word, to resume from the pass at which it drained. -/
theorem Unit.passStart_drains (hk : k < un.walkers.length) (h : un.draining now = true) (hp : l.drain.getD l.pass < l.trip)
    (hr : l.draining.runs l.pass = false) :
    (un.passStart now k l).wk k = { (un.wk k).drained l (l.drain.getD l.pass) with slot := .done 3 none } := by
  rw [Unit.passStart_draining k h, if_pos ⟨hp, hr⟩]
  exact Unit.wk_setWk_self un _ hk

end

end Sys2Proof.Machine

open Sys2Proof Sys2Proof.Machine

/-- Settles O34: every word of plain shape is run by `runWord`, which squashes a dead one, and the stop point decides what `Unit.passStart` does. -/
theorem loopPassesStart : Obligations.LoopPassesStart := by
  refine ⟨?_, ?_⟩
  · intro i f s u k v hf hd
    obtain ⟨body, he⟩ := IsWord.of_plainInfo hf
    exact .of_word hd (he s)
  · intro s u k n un l hu hk h4 hw hi hs hr hst hrun
    have hlen : k < un.walkers.length := h4 ▸ hk
    have hex := loopPassStart_eq hu hw hi hs hr hst hrun
    refine ⟨fun hp0 hreq => ?_, ?_, ?_, ?_⟩
    · rw [hex, if_neg (by simp [Unit.asked_eq_false hreq]), State.modUnit_of_some _ hu, Unit.passStart_begins k (Unit.draining_eq_false hp0)]
      simp only [Walker.inPass_eq]
    · rintro c pd hp hc rfl hruns
      rw [hex, if_neg (by simp [hp]), State.modUnit_of_some _ hu, Unit.passStart_runs k (Unit.draining_eq_true hp hc) hruns]
      simp only [Walker.inPass_eq]
      rfl
    · rintro c pd hp hc rfl hlt hdead
      have hwk := Unit.passStart_drains hlen (Unit.draining_eq_true hp hc) hlt hdead
      rw [hex, if_neg (by simp [hp]), State.modUnit_of_some _ hu]
      refine ⟨_, rfl, ?_, ?_, ?_, ?_, fun j hj => un.passStart_wk_ne k _ l hj⟩ <;> rw [hwk] <;> rfl
    · rintro c pd hp hreq hc rfl
      have hself := State.setStop_self hu
      have hp0 : (un.stopPoint (s.now un)).p0 = some (s.now un) := by unfold Unit.stopPoint; rw [hp]
      have hdr := Unit.draining_eq_true hp0 le_rfl
      have hwk : ∀ j < 4, (un.stopPoint (s.now un)).wk j = if (un.wk j).inner = none then { un.wk j with stopped := true } else un.wk j :=
        fun j hj => Unit.stopPoint_wk h4 hp _ hj
      have hk' : (un.stopPoint (s.now un)).wk k = un.wk k := by rw [hwk k hk, hi]; exact if_neg nofun
      have hlen' : k < (un.stopPoint (s.now un)).walkers.length := by rw [Unit.stopPoint_count]; exact hlen
      rw [hex, if_pos ⟨Unit.asked_eq_true hreq hc, by rw [hp]; rfl⟩, State.modUnit_of_some _ hself]
      refine ⟨_, _, rfl, State.unit?_setUnit_self .., ?_, fun j hj hne => ?_, fun hruns => ?_, fun hlt hdead => ?_, fun v hv hpart => ?_⟩
      · rw [Unit.passStart_p0, hp0]
      · rw [Unit.passStart_wk_ne k _ _ _ hne, hwk j hj]
      · rw [Unit.passStart_runs_inner hlen' hdr hruns, hk']; rfl
      · rw [Unit.passStart_drains hlen' hdr hlt hdead, hk']
        exact ⟨rfl, rfl, rfl⟩
      · rw [State.unit?_setUnit, if_neg hv, State.setStop_other s un hv hpart]
end

