-- ==== Sys2Proof/Proofs/Boundaries.lean ====
section
/-! PROOFS. Phases, barriers and cluster messages as they complete (O35). -/

namespace Sys2Proof.Machine

/-! ### Tables and folds -/

theorem mem_of_find {α : Type} {l : List (Nat × α)} {k : Nat} {a : α} (h : find l k = some a) : (k, a) ∈ l := by
  induction l with
  | nil => cases h
  | cons e l ih =>
    obtain ⟨j, b⟩ := e
    rw [find] at h
    split at h
    · rename_i hj
      cases h
      exact hj ▸ List.mem_cons_self
    · exact List.mem_cons_of_mem _ (ih h)

theorem foldl_eq_self {α β : Type} {f : β → α → β} {s : β} {l : List α} (h : ∀ a ∈ l, f s a = s) : l.foldl f s = s := by
  induction l with
  | nil => rfl
  | cons a l ih => rw [List.foldl_cons, h a List.mem_cons_self, ih fun c hc => h c (List.mem_cons_of_mem a hc)]

/-- A fold of which the first element that counts does everything: it reaches `P`, and what is in `P` stays as it is. -/
theorem foldl_reaches {α β : Type} {P : β → Prop} {f : β → α → β} {s : β} {l : List α} {hit : α → Prop} (hex : ∃ a ∈ l, hit a)
    (hskip : ∀ a ∈ l, ¬hit a → f s a = s) (hhit : ∀ a ∈ l, hit a → P (f s a)) (hdone : ∀ t, P t → ∀ a ∈ l, f t a = t) : P (l.foldl f s) := by
  induction l with
  | nil => obtain ⟨a, ha, -⟩ := hex; cases ha
  | cons a l ih =>
    have hmem : ∀ c ∈ l, c ∈ a :: l := fun c hc => List.mem_cons_of_mem a hc
    rw [List.foldl_cons]
    by_cases ha : hit a
    · have hP := hhit a List.mem_cons_self ha
      rw [foldl_eq_self fun c hc => hdone _ hP c (hmem c hc)]
      exact hP
    · rw [hskip a List.mem_cons_self ha]
      refine ih ?_ (fun c hc => hskip c (hmem c hc)) (fun c hc => hhit c (hmem c hc)) fun t ht c hc => hdone t ht c (hmem c hc)
      obtain ⟨c, hc, hit⟩ := hex
      rcases List.mem_cons.mp hc with rfl | hc
      · exact absurd hit ha
      · exact ⟨c, hc, hit⟩

theorem find?_eq_some_of_unique {α : Type} {l : List α} {p : α → Bool} {a : α} (ha : a ∈ l) (hp : p a = true) (hu : ∀ b ∈ l, p b = true → b = a) :
    l.find? p = some a := by
  cases hf : l.find? p with
  | none => exact absurd hp (List.find?_eq_none.mp hf a ha)
  | some b => rw [hu b (List.mem_of_find?_eq_some hf) (List.find?_some hf)]

/-! ### Releases (R118, R120) -/

/-- What only attaches releases to a write, and moves the places of those that it has. -/
structure WriteRec.Keeps (w w' : WriteRec) : Prop where
  id    : w'.id = w.id
  cells : w'.cells = w.cells
  cmd   : w'.cmd = w.cmd
  who   : w'.who = w.who
  rels  : ∀ r ∈ w.rels, ∃ r' ∈ w'.rels, r'.scope = r.scope ∧ r'.who = r.who

theorem WriteRec.Keeps.refl (w : WriteRec) : w.Keeps w := ⟨rfl, rfl, rfl, rfl, fun r h => ⟨r, h, rfl, rfl⟩⟩

theorem WriteRec.Keeps.trans {a b c : WriteRec} (h : a.Keeps b) (g : b.Keeps c) : a.Keeps c := by
  refine ⟨g.id.trans h.id, g.cells.trans h.cells, g.cmd.trans h.cmd, g.who.trans h.who, fun r hr => ?_⟩
  obtain ⟨r1, hr1, hs1, hw1⟩ := h.rels r hr
  obtain ⟨r2, hr2, hs2, hw2⟩ := g.rels r1 hr1
  exact ⟨r2, hr2, hs2.trans hs1, hw2.trans hw1⟩

theorem WriteRec.Keeps.coveredBy {w w' : WriteRec} (h : w.Keeps w') (me : Agent) (cv : Cover) : w'.coveredBy me cv = w.coveredBy me cv := by
  unfold WriteRec.coveredBy
  rw [h.cmd, h.who]

theorem WriteRec.Keeps.attach (w : WriteRec) (r : Release) : w.Keeps (w.attach r) := by
  unfold WriteRec.attach
  split
  · exact .refl w
  · exact ⟨rfl, rfl, rfl, rfl, fun q hq => ⟨q, List.mem_cons_of_mem r hq, rfl, rfl⟩⟩

/-- A write that a release has been attached to has one of its scope and its agent. -/
theorem WriteRec.attach_has (w : WriteRec) (r : Release) : ∃ q ∈ (w.attach r).rels, q.scope = r.scope ∧ q.who = r.who := by
  unfold WriteRec.attach
  split
  · rename_i h
    obtain ⟨q, hq, hsame⟩ := List.any_eq_true.mp h
    exact ⟨q, hq, by simpa using hsame⟩
  · exact ⟨r, List.mem_cons_self, rfl, rfl⟩

/-- Every write to device memory stands in `t` as in `s`, with what it has been released by. -/
def State.KeepsWrites (s t : State) : Prop := ∀ w ∈ s.dram.log, ∃ w' ∈ t.dram.log, w.Keeps w'

theorem State.KeepsWrites.of_dram {s t : State} (h : t.dram = s.dram) : s.KeepsWrites t := fun w hw => ⟨w, h ▸ hw, .refl w⟩

theorem State.KeepsWrites.trans {r s t : State} (h : r.KeepsWrites s) (g : s.KeepsWrites t) : r.KeepsWrites t := by
  intro w hw
  obtain ⟨w1, hw1, h1⟩ := h w hw
  obtain ⟨w2, hw2, h2⟩ := g w1 hw1
  exact ⟨w2, hw2, h1.trans h2⟩

theorem State.KeepsWrites.mapWrites (s : State) {f : WriteRec → WriteRec} (hf : ∀ w : WriteRec, w.Keeps (f w)) : s.KeepsWrites (s.mapWrites f) :=
  fun w hw => ⟨f w, List.mem_map_of_mem hw, hf w⟩

/-- Drawing a place keeps every release. -/
theorem State.placeAt_keepsWrites (s : State) (i : Nat) (t : Frac) (lo : Nat) : s.KeepsWrites (s.placeAt i t lo).2 := by
  unfold State.placeAt
  dsimp only
  split
  · exact .of_dram rfl
  · refine State.KeepsWrites.trans (.of_dram rfl) (State.KeepsWrites.trans (.mapWrites _ fun w => ?_) (.of_dram rfl))
    refine ⟨rfl, rfl, rfl, rfl, fun r hr => ⟨_, List.mem_map_of_mem hr, ?_⟩⟩
    split <;> exact ⟨rfl, rfl⟩

theorem State.takeSnap_keepsWrites (s : State) (u bar scope : Nat) (t : Frac) : s.KeepsWrites (s.takeSnap u bar scope t) := by
  unfold State.takeSnap
  split
  · exact .of_dram rfl
  · exact (s.placeAt_keepsWrites _ t 0).trans (.of_dram (State.modUnit_memory ..).dram)

/-- A release moves places and attaches itself to writes, and changes nothing else of the units or of what has been written. -/
theorem State.publish_replaced (s : State) (u bar scope : Nat) (cv : Cover) (t : Frac) : s.Replaced (s.publish u bar scope cv t) := by
  unfold State.publish
  split
  · exact .refl s
  · refine (s.placeAt_replaced _ t 0).trans (.mapWrites _ (fun w => ?_) fun w => ?_)
    · split
      · exact (WriteRec.Keeps.attach w _).id
      · rfl
    · split
      · exact (WriteRec.Keeps.attach w _).cells
      · rfl

/-- Every write of device memory that a release covers has it (R120). -/
theorem State.publish_covers {s : State} {u : Nat} {un : Unit} (hu : s.unit? u = some un) (bar scope : Nat) {cv : Cover} (t : Frac) {w : WriteRec}
    (hw : w ∈ s.dram.log) (hc : w.coveredBy (s.agentOf u un) cv = true) :
    ∃ w' ∈ (s.publish u bar scope cv t).dram.log, w.Keeps w' ∧ ∃ r ∈ w'.rels, r.scope = scope ∧ r.who = s.agentOf u un := by
  obtain ⟨w1, hw1, hk⟩ := s.placeAt_keepsWrites un.region t 0 w hw
  unfold State.publish
  simp only [hu]
  refine ⟨_, List.mem_map_of_mem hw1, ?_⟩
  rw [if_pos (by rw [hk.coveredBy, hc]; rfl)]
  exact ⟨hk.trans (.attach w1 _), w1.attach_has _⟩

/-! ### A unit with moved places -/

section
variable (un : Unit) (m : Snapshot → Nat)

/-- What is said up to places holds of a unit whose places have moved. -/
theorem Unit.unplaced_moved_phases (z : Snapshot) (k : Nat) (f : Walker → Walker) (ps : List PhaseState) :
    Unit.unplaced { Unit.setWk { un.moved m with snap := z } k f with phases := ps } =
      Unit.unplaced { un.setWk k f with phases := ps, snap := z } := by
  simp [Unit.unplaced, Unit.moved, Unit.setWk, Function.comp_def]

theorem Unit.unplaced_moved_bars (z : Snapshot) (bs : List Arrival) :
    Unit.unplaced { un.moved m with snap := z, bars := bs } = Unit.unplaced { un with bars := bs, snap := z } := by
  simp [Unit.unplaced, Unit.moved, Function.comp_def]

end

/-- An acquire of unit `u` moves places and takes the unit's snapshot, and changes nothing else of the units or of device memory. -/
theorem State.takeSnap_snap {s : State} {u : Nat} {un : Unit} (hu : s.unit? u = some un) (bar scope : Nat) (t : Frac) :
    ∃ s' m z, s.Replaced s' ∧ s.takeSnap u bar scope t = s'.setUnit u { un.moved m with snap := z } ∧ z.scope = scope ∧ z.bar = bar ∧ z.num = t.num ∧
      z.den = t.den := by
  obtain ⟨s', m, p, hr, -, he⟩ := State.takeSnap_eq hu bar scope t
  exact ⟨s', m, _, hr, he, rfl, rfl, rfl, rfl⟩

/-! ### Phases (R118) -/

/-- The phase whose boundary completes for walker `k` in cycle `now`. -/
def Unit.phaseReady (un : Unit) (k now : Nat) (p : PhaseState) : Bool :=
  p.held.contains k && (p.done || (match p.at_ with
    | some b => (match un.boundary b p.cover p.scope with | some c => decide (c ≤ now) | none => false)
    | none => false))

/-- The unit's phases once `p` has completed and let walker `k` go. -/
def Unit.phasesAfter (un : Unit) (k : Nat) (p : PhaseState) : List PhaseState :=
  let p' := { p with done := true, held := p.held.filter (· != k) }
  if p'.held.isEmpty then un.phases.filter (· != p) else un.phases.filter (· != p) ++ [p']

theorem phaseComplete_eq {s : State} {u k : Nat} {un : Unit} {p : PhaseState} (hu : s.unit? u = some un)
    (hp : un.phases.find? (un.phaseReady k (s.now un)) = some p) (hd : p.done = false) :
    exec (.phaseComplete u k) s = .next (((s.publish u 0 p.scope p.cover ((s.region un.region).cycleTime (s.now un))).takeSnap u 0 p.scope
      ((s.region un.region).cycleTime (s.now un))).modUnit u fun v =>
        { v.setWk k fun w => { w with held := false } with phases := v.phasesAfter k p }) := by
  show execPhaseComplete u k s = _
  unfold execPhaseComplete
  simp only [hu]
  split
  · rename_i hno
    exact nomatch hno.symm.trans hp
  · rename_i q hq
    obtain rfl := Option.some.inj (hq.symm.trans hp)
    simp only [hd, Bool.false_eq_true, if_false]
    rfl

theorem Unit.phaseReady_of_boundary {un : Unit} {k now b : Nat} {p : PhaseState} (hk : k ∈ p.held) (hb : p.at_ = some b) (hs : un.settled p.cover = true)
    (ht : max b p.cover.last + un.lsc p.scope ≤ now) : un.phaseReady k now p = true := by
  simp [Unit.phaseReady, Unit.boundary, hk, hb, hs, ht]

/-- Walker `k` is held by none of the phases left. -/
theorem Unit.phasesAfter_held {un : Unit} {k : Nat} {p : PhaseState} (hu : ∀ q ∈ un.phases, k ∈ q.held → q = p) : ∀ q ∈ un.phasesAfter k p, k ∉ q.held := by
  have hrest : ∀ q ∈ un.phases.filter (· != p), k ∉ q.held := by
    intro q hq hk
    obtain ⟨hq, hne⟩ := List.mem_filter.mp hq
    exact bne_iff_ne.mp hne (hu q hq hk)
  unfold Unit.phasesAfter
  dsimp only
  split
  · exact hrest
  · intro q hq
    rcases List.mem_append.mp hq with hq | hq
    · exact hrest q hq
    · rw [List.mem_singleton.mp hq]
      simp

/-! ### Barriers (R121, R122) -/

/-- The arrival of the unit that is let go in cycle `now`. -/
def Unit.releases (un : Unit) (now : Nat) (a : Arrival) : Bool :=
  !a.released && (match a.tb with | some t => decide (t + un.baroff ≤ now) | none => false)

theorem Unit.baroff_of_releases {un : Unit} {now t : Nat} {a : Arrival} (h : un.releases now a = true) (ht : a.tb = some t) : t + un.baroff ≤ now := by
  unfold Unit.releases at h
  rw [ht] at h
  exact of_decide_eq_true (Bool.and_eq_true_iff.mp h).2

/-- The unit's arrivals with the round of `a` (the arrivals of its number at its barrier) released. -/
def Unit.barsReleased (un : Unit) (a : Arrival) : List Arrival := un.bars.map fun q => if q.id == a.id && q.inst == a.inst then { q with released := true } else q

theorem Unit.barsReleased_released {un : Unit} {a : Arrival} : ∀ q ∈ un.barsReleased a, q.id = a.id → q.inst = a.inst → q.released = true := by
  intro q hq hid hinst
  obtain ⟨r, -, rfl⟩ := List.mem_map.mp hq
  split
  · rfl
  · rename_i hne
    rw [if_neg hne] at hid hinst
    simp [hid, hinst] at hne

theorem barrierRelease_eq {s : State} {u : Nat} {un : Unit} {a : Arrival} (hu : s.unit? u = some un)
    (ha : un.bars.find? (un.releases (s.now un)) = some a) :
    exec (.barrierRelease u) s = .next ((s.takeSnap u a.number a.scope ((s.region un.region).cycleTime (s.now un))).modUnit u fun v =>
      { v with bars := v.barsReleased a }) := by
  show execBarrierRelease u s = _
  unfold execBarrierRelease
  simp only [hu]
  split
  · rename_i hno
    exact nomatch hno.symm.trans ha
  · rename_i q hq
    obtain rfl := Option.some.inj (hq.symm.trans ha)
    rfl

/-- The unit after the round of `a` has completed at `t`. -/
def Unit.completed (un : Unit) (a : Arrival) (t : Nat) : Unit :=
  { un with bars := un.bars.map fun q => if q.id == a.id && q.inst == a.inst && q.tb.isNone then { q with tb := some t } else q }

theorem Unit.completed_moved (un : Unit) (a : Arrival) (t : Nat) (m : Snapshot → Nat) : (un.moved m).completed a t = (un.completed a t).moved m := rfl

theorem Unit.completed_completed (un : Unit) (a : Arrival) (t : Nat) : (un.completed a t).completed a t = un.completed a t := by
  unfold Unit.completed
  dsimp only
  rw [List.map_map]
  refine congrArg (fun bs => { un with bars := bs }) (List.map_congr_left fun q _ => ?_)
  rw [Function.comp_apply]
  split
  · rw [if_neg (by simp)]
  · rfl

/-- The unit's arrivals at barrier `b` whose round has not completed. -/
def Unit.openBars (un : Unit) (b : Nat) : List Arrival := un.bars.filter fun a => a.id == b && a.tb.isNone

theorem Unit.mem_openBars {un : Unit} {b : Nat} {a : Arrival} : a ∈ un.openBars b ↔ a ∈ un.bars ∧ a.id = b ∧ a.tb = none := by
  simp [Unit.openBars]

/-- With its only one completed, a unit has no open arrival left. -/
theorem Unit.openBars_completed {un : Unit} {b t : Nat} {a : Arrival} (h : ∀ c ∈ un.openBars b, c.inst = a.inst) (hb : a.id = b) :
    (un.completed a t).openBars b = [] := by
  rw [List.eq_nil_iff_forall_not_mem]
  intro q hq
  obtain ⟨hq, hid, htb⟩ := Unit.mem_openBars.mp hq
  obtain ⟨c, hc, rfl⟩ := List.mem_map.mp hq
  split at htb
  · cases htb
  · rename_i hne
    rw [if_neg hne] at hid
    simp [hid, hb, htb, h c (Unit.mem_openBars.mpr ⟨hc, hid, htb⟩)] at hne

/-- The round of `a` completes at `t` for one participant: its release, and its Tb. -/
def State.completeFor (a : Arrival) (r t : Nat) (s : State) (g : Nat × Arrival) : State :=
  (s.publish g.1 a.number a.scope g.2.cover ((s.region r).cycleTime t)).modUnit g.1 (·.completed a t)

/-- What `BARRIER_COMPLETE` of barrier `b` does on coming to unit `u`. -/
def State.completeAt (b : Nat) (s : State) (u : Nat) : State :=
  match s.unit? u with
  | none => s
  | some un => (un.openBars b).foldl (fun s' a =>
      match s'.barrierDone u un a with
      | some (t, got) => if t ≤ s.now un then got.foldl (State.completeFor a un.region t) s' else s'
      | none => s') s

theorem barrierComplete_eq (b : Nat) (s : State) : exec (.barrierComplete b) s = .next (s.units.foldl (fun s e => s.completeAt b e.1) s) := rfl

/-- On coming to a unit that has no open arrival at the barrier nothing happens. -/
theorem State.completeAt_of_none {b : Nat} {s : State} {u : Nat} (h : ∀ w, s.unit? u = some w → w.openBars b = []) : s.completeAt b u = s := by
  unfold State.completeAt
  cases hu : s.unit? u with
  | none => rfl
  | some w => simp only [h w hu, List.foldl_nil]

/-- On coming to the first participant of a round that completes, it completes for every participant. -/
theorem State.completeAt_of_done {b : Nat} {s : State} {u t : Nat} {w : Unit} {a : Arrival} {got : List (Nat × Arrival)} (hu : s.unit? u = some w)
    (ha : w.openBars b = [a]) (hd : s.barrierDone u w a = some (t, got)) (ht : t ≤ s.now w) :
    s.completeAt b u = got.foldl (State.completeFor a w.region t) s := by
  unfold State.completeAt
  simp only [hu, ha, List.foldl_cons, List.foldl_nil, hd, if_pos ht]

theorem State.completeFor_unit (a : Arrival) (r t v : Nat) (s : State) (g : Nat × Arrival) :
    ∃ m, (s.completeFor a r t g).unit? v = (s.unit? v).map fun w => (if v = g.1 then w.completed a t else w).moved m := by
  obtain ⟨m, hm⟩ := (s.publish_replaced g.1 a.number a.scope g.2.cover ((s.region r).cycleTime t)).units
  unfold State.completeFor
  cases hu : s.unit? v with
  | none =>
    refine ⟨(·.place), ?_⟩
    rw [State.unit?_modUnit, hm, hm, hu]
    split
    · rename_i hv; rw [← hv, hu]; rfl
    · rfl
  | some w =>
    refine ⟨m w, ?_⟩
    rw [State.unit?_modUnit, hm, hm, hu]
    split
    · rename_i hv; rw [← hv, hu]; rfl
    · rfl

/-- The completion of a round completes the arrivals of its participants, and moves places. -/
theorem State.foldl_completeFor_unit (a : Arrival) (r t v : Nat) (got : List (Nat × Arrival)) (s : State) :
    ∃ m, (got.foldl (State.completeFor a r t) s).unit? v = (s.unit? v).map fun w => (if v ∈ got.map (·.1) then w.completed a t else w).moved m := by
  induction got generalizing s with
  | nil => exact ⟨(·.place), by simp⟩
  | cons g got ih =>
    obtain ⟨m, hm⟩ := State.completeFor_unit a r t v s g
    obtain ⟨n, hn⟩ := ih (s.completeFor a r t g)
    refine ⟨fun z => n { z with place := m z }, ?_⟩
    rw [List.foldl_cons, hn, hm, Option.map_map]
    refine congrArg (Option.map · (s.unit? v)) (funext fun w => ?_)
    rw [Function.comp_apply, ← Unit.moved_moved m n, List.map_cons]
    by_cases hv : v = g.1 <;> by_cases hg : v ∈ got.map (·.1)
    · rw [if_pos hv, if_pos hg, if_pos (List.mem_cons.mpr (.inl hv)), Unit.completed_moved, Unit.completed_completed]
    · rw [if_pos hv, if_neg hg, if_pos (List.mem_cons.mpr (.inl hv))]
    · rw [if_neg hv, if_pos hg, if_pos (List.mem_cons.mpr (.inr hg)), Unit.completed_moved]
    · rw [if_neg hv, if_neg hg, if_neg fun h => (List.mem_cons.mp h).elim hv hg]

/-- The arrivals of a round are those of its number at its barrier (R121). -/
theorem State.barrierDone_inst {s : State} {u t : Nat} {un : Unit} {a : Arrival} {got : List (Nat × Arrival)}
    (h : s.barrierDone u un a = some (t, got)) : ∀ g ∈ got, g.2.id = a.id ∧ g.2.inst = a.inst := by
  have hinst : s.instanceOf u un a = some got := by
    unfold State.barrierDone at h
    split at h
    · cases h
    · rename_i got' hgot
      split at h
      · cases h; exact hgot
      · cases h
  intro g hg
  unfold State.instanceOf at hinst
  dsimp only at hinst
  split at hinst
  · cases hinst
    obtain ⟨v, -, hv⟩ := List.mem_filterMap.mp hg
    obtain ⟨w, -, hw⟩ := Option.bind_eq_some_iff.mp hv
    obtain ⟨c, hc, rfl⟩ := Option.map_eq_some_iff.mp hw
    simpa using List.find?_some hc
  · cases hinst

/-- Once its round has completed, no participant has an arrival left at the barrier, and no other unit had one. -/
theorem State.completeAt_after {s : State} {b r t : Nat} {a : Arrival} {got : List (Nat × Arrival)} (hb : a.id = b)
    (hgot : ∀ g ∈ got, ∀ w, s.unit? g.1 = some w → ∀ c ∈ w.openBars b, c.inst = a.inst)
    (hout : ∀ v w, s.unit? v = some w → ∀ c ∈ w.openBars b, (v, c) ∈ got) (u : Nat) :
    (got.foldl (State.completeFor a r t) s).completeAt b u = got.foldl (State.completeFor a r t) s := by
  refine State.completeAt_of_none fun w hw => ?_
  obtain ⟨m, hm⟩ := State.foldl_completeFor_unit a r t u got s
  rw [hm] at hw
  obtain ⟨w0, hw0, rfl⟩ := Option.map_eq_some_iff.mp hw
  show Unit.openBars (if u ∈ got.map (·.1) then w0.completed a t else w0) b = []
  split
  · rename_i hmem
    obtain ⟨g, hg, rfl⟩ := List.mem_map.mp hmem
    exact Unit.openBars_completed (hgot g hg w0 hw0) hb
  · rename_i hmem
    exact List.eq_nil_iff_forall_not_mem.mpr fun c hc => hmem (List.mem_map.mpr ⟨(u, c), hout u w0 hw0 c hc, rfl⟩)

/-! ### Cluster messages (R123, R124) -/

/-- No message of `un` for unit `u` arrives by cycle `now`. -/
def Unit.sendsNone (un : Unit) (u now : Nat) : Prop := ∀ y ∈ un.outbox, y.dst = u → now < y.arrive

theorem Unit.sendsNone.of_same {s : State} {un un' : Unit} {u : Nat} (h : un.sendsNone u (s.now un)) (ho : un'.outbox = un.outbox)
    (hr : un'.region = un.region) : un'.sendsNone u (s.now un') := by
  unfold State.now at h ⊢
  rw [hr]
  intro y hy
  exact h y (ho ▸ hy)

/-- The unit without its messages for unit `u` that arrive by cycle `now`. -/
def Unit.sent (un : Unit) (u now : Nat) : Unit := { un with outbox := un.outbox.filter fun y => !(y.dst == u && decide (y.arrive ≤ now)) }

theorem Unit.sent_sendsNone (un : Unit) (u now : Nat) : (un.sent u now).sendsNone u now := by
  intro y hy hdst
  have := (List.mem_filter.mp hy).2
  simpa [hdst] using this

/-- What `MESSAGE_ARRIVAL` at unit `u` does on coming to sending unit `v`. -/
def State.arriveFrom (u : Nat) (s : State) (v : Nat) : State :=
  match s.unit? v with
  | none => s
  | some snd =>
    let now := s.now snd
    let msgs := (snd.outbox.filter fun x => x.dst == u && decide (x.arrive ≤ now)).mergeSort fun a b => decide (a.wk ≤ b.wk)
    if msgs.isEmpty then s
    else
      let s := s.setUnit v (snd.sent u now)
      match s.unit? u with
      | some un =>
        if un.region ≠ snd.region then s.takeFault v .timing .u 0 0 Detail.walker
        else if un.run = .running then
          let (un', left) := Sys2Proof.Machine.deliver now v msgs [0, 1, 2, 3] un
          let s := s.setUnit u un'
          if left = 0 then s else s.takeFault u .timing .u 0 0 Detail.walker
        else if un.run = .off ∨ un.run = .cast then s.takeFault v .timing .u 0 0 Detail.walker
        else s.takeFault u .timing .u 0 0 Detail.walker
      | none => s.takeFault v .timing .u 0 0 Detail.walker

theorem messageArrival_eq (u : Nat) (s : State) :
    exec (.messageArrival u) s = .next ((s.units.filter fun e => clusterOf e.1 == clusterOf u).foldl (fun s e => s.arriveFrom u e.1) s) := rfl

/-- Unit `v` sends nothing that arrives at unit `u` by now. -/
def State.SendsNone (s : State) (u v : Nat) : Prop := ∀ w, s.unit? v = some w → w.sendsNone u (s.now w)

theorem State.SendsNone.setUnit {s : State} {u v j : Nat} {un : Unit} (hj : v = j → un.sendsNone u (s.now un)) (h : v ≠ j → s.SendsNone u v) :
    (s.setUnit j un).SendsNone u v := by
  intro w hw
  rw [State.unit?_setUnit] at hw
  split at hw
  · rename_i he
    cases hw
    exact hj he
  · rename_i he
    exact h he w hw

theorem State.arriveFrom_of_sendsNone {s : State} {u v : Nat} (h : s.SendsNone u v) : s.arriveFrom u v = s := by
  unfold State.arriveFrom
  cases hv : s.unit? v with
  | none => rfl
  | some w =>
    have hnil : (w.outbox.filter fun x => x.dst == u && decide (x.arrive ≤ s.now w)) = [] := by
      refine List.filter_eq_nil_iff.mpr fun y hy hmine => ?_
      obtain ⟨hdst, harr⟩ := Bool.and_eq_true_iff.mp hmine
      exact absurd (h w hv y hy (beq_iff_eq.mp hdst)) (Nat.not_lt.mpr (of_decide_eq_true harr))
    simp only [hnil, List.mergeSort_nil, List.isEmpty_nil, if_true]

/-! How messages are handed out, one walker at a time. -/

theorem deliver_nil (m v : Nat) (ks : List Nat) (un : Unit) : deliver m v [] ks un = (un, 0) := by rw [deliver.eq_def]

theorem deliver_some {m v k d : Nat} {x : Msg} {xs : List Msg} {ks : List Nat} {un : Unit} (h : un.receives k (inCluster v) = some d) :
    deliver m v (x :: xs) (k :: ks) un = deliver m v xs ks ((un.receive k d m x.v).setWk k fun w => { w with matched := true }) := by
  rw [deliver.eq_def]
  simp only [h]

theorem deliver_none {m v k : Nat} {x : Msg} {xs : List Msg} {ks : List Nat} {un : Unit} (h : un.receives k (inCluster v) = none) :
    deliver m v (x :: xs) (k :: ks) un = deliver m v (x :: xs) ks un := by
  rw [deliver.eq_def]
  simp only [h]

/-- A message reaches the lowest-numbered walker that stands at its `recvc` (R124). -/
theorem deliver_one {m v k d : Nat} {x : Msg} {un : Unit} {pre post : List Nat} (hk : un.receives k (inCluster v) = some d)
    (hpre : ∀ j ∈ pre, un.receives j (inCluster v) = none) :
    deliver m v [x] (pre ++ k :: post) un = ((un.receive k d m x.v).setWk k fun w => { w with matched := true }, 0) := by
  induction pre with
  | nil => rw [List.nil_append, deliver_some hk, deliver_nil]
  | cons j pre ih =>
    rw [List.cons_append, deliver_none (hpre j List.mem_cons_self)]
    exact ih fun i hi => hpre i (List.mem_cons_of_mem j hi)

theorem walkers_split {k : Nat} (hk : k < 4) : ∃ post, [0, 1, 2, 3] = List.range k ++ k :: post := by
  match k, hk with
  | 0, _ => exact ⟨_, rfl⟩
  | 1, _ => exact ⟨_, rfl⟩
  | 2, _ => exact ⟨_, rfl⟩
  | 3, _ => exact ⟨_, rfl⟩

/-- The only message that arrives goes to the walker that receives it. -/
theorem State.arriveFrom_of_one {s : State} {u v k d : Nat} {un snd : Unit} {x : Msg} (hv : s.unit? v = some snd)
    (hx : (snd.outbox.filter fun x => x.dst == u && decide (x.arrive ≤ s.now snd)) = [x]) (hu : (s.setUnit v (snd.sent u (s.now snd))).unit? u = some un)
    (hreg : un.region = snd.region) (hrun : un.run = .running) (hk4 : k < 4) (hk : un.receives k (inCluster v) = some d)
    (hlow : ∀ j < k, un.receives j (inCluster v) = none) :
    s.arriveFrom u v = (s.setUnit v (snd.sent u (s.now snd))).setUnit u ((un.receive k d (s.now snd) x.v).setWk k fun w => { w with matched := true }) := by
  obtain ⟨post, hsplit⟩ := walkers_split hk4
  have hdel := deliver_one (m := s.now snd) (x := x) (post := post) hk fun j hj => hlow j (List.mem_range.mp hj)
  unfold State.arriveFrom
  simp only [hv, hx, List.mergeSort_singleton, List.isEmpty_cons, Bool.false_eq_true, if_false, hu, hreg, ne_eq, not_true_eq_false, hrun, if_true, hsplit, hdel]

/-- A message on its way leaves the receiving unit's own messages and its region. -/
theorem Unit.receive_frame (un : Unit) (k d m : Nat) (v : Val) : (un.receive k d m v).outbox = un.outbox ∧ (un.receive k d m v).region = un.region := by
  unfold Unit.receive
  split
  · unfold Unit.landExt
    split <;> exact ⟨rfl, rfl⟩
  · exact ⟨rfl, rfl⟩

end Sys2Proof.Machine

open Sys2Proof Sys2Proof.Machine

/-- Settles O35. A phase's release reaches every write that it covers (`publish_covers`), and the acquire after it drops none
(`takeSnap_keepsWrites`). Of the units that a barrier and a message's arrival go through, the first that counts does everything, and leaves nothing for the
others (`foldl_reaches`). -/
theorem boundariesComplete : Obligations.BoundariesComplete := by
  refine ⟨?_, ?_, ?_, ?_⟩
  · intro s u k b un p hu hp hk hd hb hs ht huniq
    have hfind : un.phases.find? (un.phaseReady k (s.now un)) = some p := by
      refine find?_eq_some_of_unique hp (Unit.phaseReady_of_boundary hk hb hs ht) fun q hq hready => huniq q hq ?_
      simpa using (Bool.and_eq_true_iff.mp hready).1
    have hr1 := s.publish_replaced u 0 p.scope p.cover ((s.region un.region).cycleTime (s.now un))
    obtain ⟨m1, hu1⟩ := hr1.unit hu
    obtain ⟨s2, m2, z, hr2, hsnap, hscope, hbar, hnum, hden⟩ := State.takeSnap_snap hu1 0 p.scope ((s.region un.region).cycleTime (s.now un))
    have hr := hr1.trans hr2
    have hex := phaseComplete_eq hu hfind hd
    have hkeep := State.takeSnap_keepsWrites (s.publish u 0 p.scope p.cover ((s.region un.region).cycleTime (s.now un))) u 0 p.scope
      ((s.region un.region).cycleTime (s.now un))
    rw [hsnap] at hex hkeep
    rw [State.modUnit_setUnit] at hex
    refine ⟨_, _, hex, State.unit?_setUnit_self .., ?_, hscope, hbar, hnum, hden, Unit.phasesAfter_held huniq, fun v hv => ?_, hr.dram, fun w hw hc => ?_⟩
    · rw [Unit.moved_moved]
      exact Unit.unplaced_moved_phases ..
    · rw [State.unit?_setUnit, if_neg (by simpa using hv)]
      exact hr.keepsUnits [u] v hv
    · obtain ⟨w1, hw1, hk1, r, hrel, hrs, hrw⟩ := State.publish_covers hu 0 p.scope ((s.region un.region).cycleTime (s.now un)) hw hc
      obtain ⟨w2, hw2, hk2⟩ := hkeep w1 hw1
      obtain ⟨r', hr', hs', hw'⟩ := hk2.rels r hrel
      exact ⟨w2, hw2, hk2.id.trans hk1.id, hk2.cells.trans hk1.cells, r', hr', hs'.trans hrs, hw'.trans hrw⟩
  · intro s b t got hne hgot hout
    have hopen : ∀ v w, s.unit? v = some w → ∀ c ∈ w.openBars b, (v, c) ∈ got := by
      intro v w hw c hc
      obtain ⟨hc, hid, htb⟩ := Unit.mem_openBars.mp hc
      exact hout v w c hw hc hid htb
    have hone : ∀ g ∈ got, ∀ w, s.unit? g.1 = some w → w.openBars b = [g.2] := by
      intro g hg w hw
      obtain ⟨w', hw', hbars, -⟩ := hgot g hg
      obtain rfl := Option.some.inj (hw.symm.trans hw')
      exact hbars
    have hid : ∀ g ∈ got, g.2.id = b := by
      intro g hg
      obtain ⟨w, hw, -⟩ := hgot g hg
      have hmem : g.2 ∈ w.openBars b := by rw [hone g hg w hw]; exact List.mem_singleton_self g.2
      exact (Unit.mem_openBars.mp hmem).2.1
    have hinst : ∀ g ∈ got, ∀ h ∈ got, h.2.inst = g.2.inst := by
      intro g hg h hh
      obtain ⟨w, -, -, hdone, -⟩ := hgot g hg
      exact (State.barrierDone_inst hdone h hh).2
    have hreach : ∃ g ∈ got, ∃ r, s.units.foldl (fun s e => s.completeAt b e.1) s = got.foldl (State.completeFor g.2 r t) s := by
      refine foldl_reaches (P := fun s' => ∃ g ∈ got, ∃ r, s' = got.foldl (State.completeFor g.2 r t) s) (hit := fun e => e.1 ∈ got.map (·.1)) ?_ ?_ ?_ ?_
      · obtain ⟨g, hg⟩ := List.exists_mem_of_ne_nil got hne
        obtain ⟨w, hw, -⟩ := hgot g hg
        exact ⟨_, mem_of_find hw, List.mem_map_of_mem hg⟩
      · intro e _ hno
        refine State.completeAt_of_none fun w hw => List.eq_nil_iff_forall_not_mem.mpr fun c hc => hno ?_
        exact List.mem_map.mpr ⟨_, hopen e.1 w hw c hc, rfl⟩
      · intro e _ hmem
        obtain ⟨g, hg, he⟩ := List.mem_map.mp hmem
        obtain ⟨w, hw, hbars, hdone, hle⟩ := hgot g hg
        exact ⟨g, hg, w.region, he ▸ State.completeAt_of_done hw hbars hdone hle⟩
      · rintro _ ⟨g, hg, r, rfl⟩ e _
        refine State.completeAt_after (hid g hg) (fun h hh w hw c hc => ?_) hopen e.1
        rw [hone h hh w hw] at hc
        rw [List.mem_singleton.mp hc, hinst g hg h hh]
    obtain ⟨g0, hg0, r, he⟩ := hreach
    refine ⟨_, (barrierComplete_eq b s).trans (congrArg _ he), fun g hg => ?_⟩
    obtain ⟨w, hw, -⟩ := hgot g hg
    obtain ⟨m, hm⟩ := State.foldl_completeFor_unit g0.2 r t g.1 got s
    rw [hw, Option.map_some, if_pos (List.mem_map_of_mem hg)] at hm
    refine ⟨w, _, hw, hm, ?_⟩
    rw [Unit.unplaced_moved, Unit.completed, hid g0 hg0, ← hinst g0 hg0 g hg]
  · intro s u t un a hu ha ht
    have hrel : un.releases (s.now un) a = true := List.find?_some ha
    obtain ⟨s2, m, z, hr, hsnap, hscope, hbar, -, -⟩ := State.takeSnap_snap hu a.number a.scope ((s.region un.region).cycleTime (s.now un))
    have hex := barrierRelease_eq hu ha
    rw [hsnap, State.modUnit_setUnit] at hex
    refine ⟨_, _, hex, State.unit?_setUnit_self .., un.unplaced_moved_bars m z _, hscope, hbar, Unit.barsReleased_released, Unit.baroff_of_releases hrel ht,
      fun v hv => ?_, hr.dram⟩
    rw [State.unit?_setUnit, if_neg (by simpa using hv)]
    exact hr.keepsUnits [u] v hv
  · rintro s s1 u v k d un snd x hv hcl hx hother rfl hu hreg hrun hk4 hk hlow
    have hex : exec (.messageArrival u) s = .next ((s.setUnit v (snd.sent u (s.now snd))).setUnit u
        ((un.receive k d (s.now snd) x.v).setWk k fun w => { w with matched := true })) := by
      refine (messageArrival_eq u s).trans (congrArg _ ?_)
      refine foldl_reaches (P := (· = _)) (hit := fun e => e.1 = v) ?_ ?_ ?_ ?_
      · exact ⟨(v, snd), List.mem_filter.mpr ⟨mem_of_find hv, beq_iff_eq.mpr hcl⟩, rfl⟩
      · intro e he hne
        refine State.arriveFrom_of_sendsNone fun w hw => hother e.1 w hw hne (beq_iff_eq.mp (List.mem_filter.mp he).2)
      · intro e _ he
        rw [he]
        exact State.arriveFrom_of_one hv hx hu hreg hrun hk4 hk hlow
      · rintro _ rfl e he
        have hclear : (s.setUnit v (snd.sent u (s.now snd))).SendsNone u e.1 :=
          .setUnit (fun _ => snd.sent_sendsNone u _) fun hne w hw => hother e.1 w hw hne (beq_iff_eq.mp (List.mem_filter.mp he).2)
        refine State.arriveFrom_of_sendsNone (.setUnit (fun heu => ?_) fun _ => hclear)
        obtain ⟨hout, hregion⟩ := un.receive_frame k d (s.now snd) x.v
        exact (hclear un (heu ▸ hu)).of_same hout hregion
    refine ⟨fun hroom => ?_, fun hroom => ?_⟩
    · rw [hex, Unit.receive, if_pos hroom]; rfl
    · rw [hex, Unit.receive, if_neg (by simp [hroom])]; rfl
end

