-- ==== Sys2Proof/Proofs/Vectors.lean ====
section
/-! PROOFS. Vector words with a register result, and moves between scalar and vector (O15, O16). -/

namespace Sys2Proof.Machine

/-! ### Lane operations over whole numbers (R130, R133, R135, R138) -/

theorem laneAdd_eq_arith (t : BitVec 3) (x y : W32) : laneAdd t x y = arith t (laneAdd 0) (· + ·) x y := by
  by_cases h : t = 0
  · subst h; rfl
  · rw [laneAdd, arith, if_neg h, if_neg h, BitVec.ofInt_add, BitVec.ofInt_toInt, BitVec.ofInt_toInt]; rfl

theorem laneSub_eq_arith (t : BitVec 3) (x y : W32) : laneSub t x y = arith t (laneSub 0) (· - ·) x y := by
  by_cases h : t = 0
  · subst h; rfl
  · rw [laneSub, arith, if_neg h, if_neg h, show x - y = BitVec.ofInt 32 (x.toInt - y.toInt) from BitVec.eq_of_toInt_eq (by simp)]; rfl

theorem laneMul_eq_arith (t : BitVec 3) (x y : W32) : laneMul t x y = arith t (laneMul 0) (· * ·) x y := by
  by_cases h : t = 0
  · subst h; rfl
  · rw [laneMul, arith, if_neg h, if_neg h, BitVec.ofInt_mul, BitVec.ofInt_toInt, BitVec.ofInt_toInt]; rfl

theorem laneMin_eq_pickLane (t : BitVec 3) (x y : W32) : laneMin t x y = pickLane t (laneMin 0) (· ≤ ·) x y := by
  by_cases h : t = 0
  · subst h; rfl
  · simp only [laneMin, pickLane, byType, h, if_false, quiet, intLane, BitVec.slt, BitVec.ult, decide_eq_true_eq, ← not_le, ite_not,
      Nat.cast_le]
    exact apply_ite (·, 0) _ _ _

theorem laneMax_eq_pickLane (t : BitVec 3) (x y : W32) : laneMax t x y = pickLane t (laneMax 0) (· ≥ ·) x y := by
  by_cases h : t = 0
  · subst h; rfl
  · simp only [laneMax, pickLane, byType, h, if_false, quiet, intLane, BitVec.slt, BitVec.ult, decide_eq_true_eq, ← not_le, ite_not, ge_iff_le,
      Nat.cast_le]
    exact apply_ite (·, 0) _ _ _

theorem laneCmp_byType (t : BitVec 3) (num : Int → Bool) (nan loud : Bool) (sg us : W32 → W32 → Bool) (x y : W32) :
    laneCmp t num nan loud sg us x y =
      if t = 0 then laneCmp 0 num nan loud sg us x y else intLane (truth (if t = 1 then sg x y else us x y)) := by
  by_cases h : t = 0
  · subst h; rfl
  · simp only [laneCmp, byType, h, if_false]; rfl

theorem shiftLeft_eq_ofNat {n : Nat} (x : BitVec n) (k : Nat) : x <<< k = BitVec.ofNat n (x.toNat * 2 ^ k) :=
  BitVec.eq_of_toNat_eq (by simp [Nat.shiftLeft_eq])

theorem ushiftRight_eq_ofNat {n : Nat} (x : BitVec n) (k : Nat) : x >>> k = BitVec.ofNat n (x.toNat / 2 ^ k) := by
  rw [← Nat.shiftRight_eq_div_pow, ← BitVec.toNat_ushiftRight, BitVec.ofNat_toNat, BitVec.setWidth_eq]

theorem sshiftRight_eq_ofInt {n : Nat} (x : BitVec n) (k : Nat) : x.sshiftRight k = BitVec.ofInt n (x.toInt / 2 ^ k) := by
  rw [BitVec.sshiftRight, Int.shiftRight_eq_div_pow]; rfl

/-! ### Words with a register result (R127, R128, R143) -/

/-- The body of a vector word as its table entry has it: a function needs `FTV` 1. -/
def VecWord.body (r : VecWord) (i : Instr) : State → Nat → Nat → Act :=
  vecBody (fun v => wellFormed i && (!r.fn || v.ftv == 1)) r.lat r.d r.out

/-- Instruction `i` means what the table entry `r` says. -/
def VecWord.Means (r : VecWord) (i : Instr) : Prop :=
  ∀ s, exec i s = .next (runWord { vecWord r.occ with words := r.words } (r.body i) s)

/-- A word that needs no `FTV`. -/
theorem VecWord.Means.plain {i : Instr} {r : VecWord} (hn : r.fn = false)
    (he : ∀ s, exec i s = .next (runWord { vecWord r.occ with words := r.words } (vecBody (fun _ => wellFormed i) r.lat r.d r.out) s)) : r.Means i := by
  intro s
  rw [he, VecWord.body, hn]
  simp only [Bool.not_false, Bool.true_or, Bool.and_true]

/-- The same for one without literal words, its lanes under another name. -/
theorem VecWord.Means.op {i : Instr} {lat occ : Nat} {d : BitVec 6} {f g : Unit → VOut}
    (he : ∀ s, exec i s = vecOp (wellFormed i) lat occ d f s) (hf : ∀ v, f v = g v) : (VecWord.mk occ 1 lat d.toNat false g).Means i := by
  obtain rfl : f = g := funext hf
  exact .plain rfl he

/-- A lane-wise word of two operands, its lanes under another name. -/
theorem VecWord.Means.two {i : Instr} {lat : Nat} {d a b : BitVec 6} {m : BitVec 1} {f g : W32 → W32 → W32 × Nat}
    (he : ∀ s, exec i s = vecOp (wellFormed i) lat 2 d (lanes2 f a.toNat b.toNat m) s) (hf : ∀ x y, f x y = g x y) :
    (VecWord.two lat d a b m g).Means i := by
  obtain rfl : f = g := funext₂ hf
  exact .op he fun _ => rfl

/-- A word that needs `FTV` 1 (R143). -/
theorem VecWord.Means.fn {i : Instr} {lat occ : Nat} {d : BitVec 6} {f : Unit → VOut}
    (he : ∀ s, exec i s = fnOp (wellFormed i) lat occ d f s) : (VecWord.mk occ 1 lat d.toNat true f).Means i := by
  intro s
  rw [he, fnOp, VecWord.body]
  simp only [Bool.not_true, Bool.false_or]
  rfl

/-- `vfmal` takes one literal word or two (R132). -/
theorem vfmal_means {d a : BitVec 6} {two m : BitVec 1} {l0 l1 : BitVec 32} {r : VecWord} (h : vectorWord (.vfmal d a two m l0 l1) = some r) :
    r.Means (.vfmal d a two m l0 l1) := by
  cases h
  by_cases ht : two = 0
  · rw [if_pos ht]
    exact .plain rfl fun _ => if_pos ht
  · rw [if_neg ht]
    exact .plain rfl fun _ => if_neg ht

/-- Every vector word with a register result has the meaning that its rule gives (R130-R144, R149-R151). -/
theorem vectorWord_means {i : Instr} {r : VecWord} (h : vectorWord i = some r) : r.Means i := by
  unfold vectorWord at h
  split at h
  case h_41 => exact vfmal_means h
  all_goals cases h
  -- Arithmetic, choices, compares and shifts, which the table states over whole numbers (R130, R133, R135, R138).
  case h_1 => exact .two (fun _ => rfl) (laneAdd_eq_arith _)
  case h_2 => exact .two (fun _ => rfl) (laneSub_eq_arith _)
  case h_3 => exact .two (fun _ => rfl) (laneMul_eq_arith _)
  case h_7 => exact .two (fun _ => rfl) (laneMin_eq_pickLane _)
  case h_8 => exact .two (fun _ => rfl) (laneMax_eq_pickLane _)
  case h_11 => exact .two (fun _ => rfl) fun x y => by rw [laneCmp_byType, ite_self]; rfl
  case h_12 => exact .two (fun _ => rfl) fun x y => by rw [laneCmp_byType, ite_self, word_bne]
  case h_13 => exact .two (fun _ => rfl) (laneCmp_byType _ _ _ _ _ _)
  case h_14 => exact .two (fun _ => rfl) (laneCmp_byType _ _ _ _ _ _)
  case h_19 => exact .two (fun _ => rfl) fun x y => congrArg quiet (shiftLeft_eq_ofNat x _)
  case h_20 => exact .two (fun _ => rfl) fun x y => congrArg quiet (ushiftRight_eq_ofNat x _)
  case h_21 => exact .two (fun _ => rfl) fun x y => congrArg quiet (sshiftRight_eq_ofInt x _)
  -- `vsel` (R139).
  case h_23 => exact .op (fun _ => rfl) fun v => by simp only [List.not_all_eq_any_not]; rfl
  -- The functions (R143).
  case h_25 | h_26 | h_27 | h_28 | h_29 | h_30 | h_31 | h_32 | h_33 | h_34 => exact .fn fun _ => rfl
  -- The table gives the model's own lanes.
  all_goals exact .op (fun _ => rfl) fun _ => rfl

/-- A vector word that its condition allows enters its lanes. -/
theorem vecBody_go {ok : Unit → Bool} {lat d : Nat} {f : Unit → VOut} {s : State} {u k : Nat} {v : Unit} (ho : ok v = true) (hf : v.full 2 = false) :
    vecBody ok lat d f (s.setUnit u v) u k = .go (s.setUnit u (v.landVec d (s.now v) lat (f v))) .seq := by
  simp [vecBody, ho, hf]

theorem vecBody_fault {ok : Unit → Bool} {lat d : Nat} {f : Unit → VOut} {s : State} {u k : Nat} {v : Unit} (ho : ok v = false) :
    vecBody ok lat d f (s.setUnit u v) u k = .fault .illegal 0 := by
  simp [vecBody, ho]

theorem SamePlace.landVec {v w : Unit} {j : Nat} (h : SamePlace v w j) (d now lat : Nat) (o : VOut) : SamePlace v (w.landVec d now lat o) j := h.enter ..

/-! ### The lowest active lane (R140) -/

/-- The search of `vmovx.out` finds the lowest lane of a mask that is on, lane 0 numbered `i`. -/
theorem find?_zipIdx_lowest {act : List Bool} {l : Nat} (i : Nat) (hl : act.getD l false = true) (hlow : ∀ j < l, act.getD j false = false) :
    (act.zipIdx i).find? (·.1) = some (true, i + l) := by
  induction act generalizing i l with
  | nil => simp at hl
  | cons b act ih =>
    cases l with
    | zero =>
      obtain rfl : b = true := hl
      rfl
    | succ l =>
      obtain rfl : b = false := hlow 0 l.succ_pos
      rw [List.zipIdx_cons, List.find?_cons_of_neg Bool.false_ne_true, ih (i + 1) hl fun j hj => hlow (j + 1) (Nat.succ_lt_succ hj)]
      congr 2; omega

theorem find?_zipIdx_allOff {act : List Bool} (h : act.any id = false) : act.zipIdx.find? (·.1) = none := by
  rw [List.find?_eq_none]
  intro e he
  exact List.any_eq_false.mp h e.1 (List.fst_mem_of_mem_zipIdx he)

end Sys2Proof.Machine

open Sys2Proof Sys2Proof.Machine

/-- Settles O15: each word's body enters the lanes of its table entry, where `FTV` allows it. -/
theorem vectorWordsIssue : Obligations.VectorWordsIssue := by
  intro i r s u v hi hw hr hf
  have he := vectorWord_means hi s
  refine ⟨fun h => .of_seq hr he (vecBody_go ?_ hf) ((SamePlace.refl v 2).landVec ..), fun hn h => .of_body hr he (vecBody_fault ?_)⟩
  · cases hn : r.fn
    · simp [hw]
    · simp [hw, h hn]
  · simpa [hn, hw] using h

/-- Settles O16: the bodies with their operand read, and for `vmovx.out` by whether a lane is active. -/
theorem vectorMovesIssue : Obligations.VectorMovesIssue := by
  refine ⟨?_, ?_, ?_⟩
  · intro d a m s u v v1 x hw hr ho hf h
    refine .of_seq hr rfl ?_ ((SamePlace.of_fetch h).landVec ..)
    simp only [State.unit?_setUnit_self, hw, ho, hf, h, Bool.not_true, Bool.or_false, Bool.false_eq_true, if_false, State.setUnit_setUnit,
      State.now_setUnit, poisonOf, List.any_cons, List.any_nil]
    rfl
  · intro d m s u v v1 x hr hf h
    refine .of_seq hr rfl ?_ ((SamePlace.of_fetch h).landVec ..)
    simp only [State.unit?_setUnit_self, hf, h, Bool.false_eq_true, if_false, State.setUnit_setUnit, State.now_setUnit, poisonOf, List.any_cons,
      List.any_nil, Bool.or_false]
    rfl
  · intro a m s u v hr hq
    cases hx : (v.lanesOn m).zipIdx.find? (·.1) with
    | none =>
      refine ⟨Val.zero, .of_seq hr rfl ?_ (.of_walkers 2 rfl), fun l _ hl hlow => ?_, fun _ => rfl⟩
      · simp [outQueue, hq, hx]
      · rw [find?_zipIdx_lowest 0 hl hlow] at hx; cases hx
    | some e =>
      refine ⟨⟨((v.vec a.toNat).lanes.getD e.2 0).zeroExtend 64, (v.vec a.toNat).poison⟩,
        .of_seq hr rfl ?_ (.of_walkers 2 rfl), fun l _ hl hlow => ?_, fun hoff => ?_⟩
      · simp [outQueue, hq, hx]
      · rw [find?_zipIdx_lowest 0 hl hlow] at hx; cases hx; rw [Nat.zero_add]
      · rw [find?_zipIdx_allOff hoff] at hx; cases hx
end

