-- ==== Sys2Proof/Proofs/VectorMemory.lean ====
section
/-! PROOFS. Vector loads and stores (O18). -/

namespace Sys2Proof.Machine

/-! ### What a read of operands leaves of the vector state -/

/-- A unit that has the vector registers, the mask stack and the clock of another. -/
structure SameLanes (v w : Unit) : Prop where
  region : w.region = v.region
  div    : w.div = v.div
  vecs   : w.v = v.v
  masks  : w.masks = v.masks

theorem SameLanes.of_fetch {k : Nat} {v v1 : Unit} {fs : List Nat} {vs : List Val} (h : fetch k v fs = .ok (vs, v1)) : SameLanes v v1 := by
  obtain ⟨qs, rfl⟩ := fetch_unit h; exact ⟨rfl, rfl, rfl, rfl⟩

section
variable {v w : Unit} (h : SameLanes v w)
include h

theorem SameLanes.reserve (use : List (Nat × Nat × Nat)) : SameLanes v (w.reserve use) := ⟨h.region, h.div, h.vecs, h.masks⟩

theorem SameLanes.later (due rank : Nat) (e : Eff) : SameLanes v (w.later due rank e) := ⟨h.region, h.div, h.vecs, h.masks⟩

theorem SameLanes.now (s : State) : s.now w = s.now v := by rw [State.now, State.now, h.region]

theorem SameLanes.divisor (k : Nat) : w.divisor k = v.divisor k := by rw [Unit.divisor, Unit.divisor, h.div]

theorem SameLanes.vec (r : Nat) : w.vec r = v.vec r := by rw [Unit.vec, Unit.vec, h.vecs]

theorem SameLanes.lanesOn (m : BitVec 1) : w.lanesOn m = v.lanesOn m := by simp only [Unit.lanesOn, Unit.topMask, h.masks]

end

/-! ### The access of `vld` and `vst` (R145-R147) -/

/-- The vector engine is free for a vector word that issues (R127). -/
theorem Ready.engineFree {f : WordInfo} {s : State} {u k : Nat} {v : Unit} (h : Ready f s u k v) (hf : 0 < f.vocc) : ¬ s.now v < v.vfree := by
  obtain ⟨un, hs, rfl⟩ := h
  have := hs.free
  simp only [Unit.busy, hf, decide_true, Bool.or_true, Bool.true_and, Bool.or_eq_false_iff, decide_eq_false_iff_not] at this
  exact this.1

/-- A word that changes the state beyond its unit, and goes on to the next word. -/
theorem IssuesIn.of_seq {f : WordInfo} {body : State → Nat → Nat → Act} {i : Instr} {s s1 : State} {u k : Nat} {v v1 : Unit}
    (h : Ready f s u k v) (he : exec i s = .next (runWord f body s)) (hb : body (s.setUnit u v) u k = .go (s1.setUnit u v1) .seq)
    (hp : SamePlace v v1 k) : IssuesIn f .seq i s s1 u k (s.now v) v1 :=
  .of_body h he hb hp.count hp.idx (.inl (hp.stopped.trans h.stopped)) nofun

section
variable {port kind : Nat} {a : BitVec 5} {b : BitVec 6} {m : BitVec 1} {enters : Bool} {g : State → Unit → Option (List (Nat × Nat)) → Act}
  {s : State} {u : Nat} {v v1 : Unit} {vs : List Val} {use : List (Nat × Nat × Nat)} (hfree : ¬ s.now v < v.vfree)
  (ho : ownPort 2 (laneSources kind a b) = false) (hf : (enters && v.full 2) = false) (h : fetch 2 v (laneSources kind a b) = .ok (vs, v1))
include hfree ho hf h

/-- A `vld` or `vst` with a poisoned address operand goes on without an address (R146). -/
theorem vmem_poison (hp : v.lanesPoison kind vs b m = true) :
    vmem port true a.toNat b.toNat kind m enters g (s.setUnit u v) u = g (s.setUnit u v) v1 none := by
  unfold laneSources at ho h
  unfold Unit.lanesPoison at hp
  simp only [vmem, State.unit?_setUnit_self, State.now_setUnit, hfree, decide_false, Bool.not_true, Bool.false_or, ho, Bool.false_eq_true, if_false,
    hf, Bool.not_false, Bool.and_true, h, hp, if_true]

/-- One that is not poisoned and that nothing keeps goes on with its lanes' addresses and its ports reserved (R230-R232). -/
theorem vmem_go (hp : v.lanesPoison kind vs b m = false) (hgo : v.lanesGo v1 port kind (s.now v) (v.lanesAt kind vs b m) use) :
    vmem port true a.toNat b.toNat kind m enters g (s.setUnit u v) u = g (s.setUnit u v) (v1.reserve use) (some (v.lanesAt kind vs b m)) := by
  obtain ⟨hin, hconf, rfl, hbanks⟩ := hgo
  have hany : (v.lanesAt kind vs b m).any (fun e => decide (Config.unitStoreBytes ≤ e.2) || e.2 % laneBytes kind != 0) = false := by
    rw [List.any_eq_false]
    intro e he
    simp [Nat.not_le.mpr (hin e he).1, (hin e he).2]
  unfold laneSources at ho h
  unfold Unit.lanesPoison at hp
  unfold Unit.lanesAt at hany hconf hbanks
  simp only [vmem, State.unit?_setUnit_self, State.now_setUnit, hfree, decide_false, Bool.not_true, Bool.false_or, ho, Bool.false_eq_true, if_false,
    hf, Bool.not_false, Bool.and_true, h, hp, hany, Nat.not_lt.mpr hconf, hbanks]
  rfl

end

/-- What a poisoned `vld` lands: its active lanes, with bits that nothing fixes, from `n` of the open values on (R146). -/
def Unit.openLanes (v : Unit) (m : BitVec 1) (n : Nat) : List (Nat × W32) :=
  ((v.lanesOn m).zipIdx.filter (·.1)).map fun e => (e.2, (Config.freeWord (n + e.2)).setWidth 32)

theorem getD_of_mem_filter_zipIdx {act : List Bool} {e : Bool × Nat} (h : e ∈ act.zipIdx.filter (·.1)) : act.getD e.2 false = true := by
  obtain ⟨hmem, hon⟩ := List.mem_filter.mp h
  rw [List.getD_eq_getElem?_getD, List.mem_zipIdx_iff_getElem?.mp hmem]
  exact hon

theorem Unit.openLanes_on {v : Unit} {m : BitVec 1} {n : Nat} {e : Nat × W32} (h : e ∈ v.openLanes m n) : (v.lanesOn m).getD e.1 false = true := by
  obtain ⟨x, hx, rfl⟩ := List.mem_map.mp h
  exact getD_of_mem_filter_zipIdx hx

end Sys2Proof.Machine

open Sys2Proof Sys2Proof.Machine

/-- Settles O18: `vld` and `vst` go on from `vmem`, without an address or with the lanes' addresses and the ports reserved; `vldk` reads its base. -/
theorem vectorMemoryWordsIssue : Obligations.VectorMemoryWordsIssue := by
  refine ⟨?_, ?_, ?_⟩
  · intro d a b m t s u v v1 vs hw hr ho hf h
    have hfree := hr.engineFree (Nat.succ_pos 1)
    have hsame := SameLanes.of_fetch h
    refine ⟨fun hp => ?_, fun hp use hgo => ?_⟩
    · refine ⟨v.openLanes m s.free, .of_seq hr rfl ?_ ((SamePlace.of_fetch h).enter ..), fun e => Unit.openLanes_on⟩
      rw [hw, vldBody, vmem_poison hfree ho (by rw [hf]; rfl) h hp]
      simp only [State.now_setUnit, hsame.now, hsame.divisor, hsame.lanesOn]
      exact congrArg (Act.go · .seq) (State.setUnit_setUnit { s with free := s.free + 256 } u v _)
    · refine .of_seq hr rfl ?_ (((SamePlace.of_fetch h).reserve use).enter ..)
      rw [hw, vldBody, vmem_go hfree ho (by rw [hf]; rfl) h hp hgo]
      simp only [State.now_setUnit, (hsame.reserve use).now, (hsame.reserve use).divisor, (hsame.reserve use).lanesOn, State.setUnit_setUnit]
  · intro d a b m t s u v v1 vs hw hr ho h
    have hfree := hr.engineFree (Nat.succ_pos 1)
    have hsame := SameLanes.of_fetch h
    refine ⟨fun hp => ?_, fun hp use hgo => ⟨fun hd hne => ?_, fun hd => ?_⟩⟩
    · refine .of_seq hr rfl ?_ ((SamePlace.of_fetch h).raise ..)
      rw [hw, vstBody, vmem_poison hfree ho rfl h hp]
      simp only [State.now_setUnit, hsame.now, State.setUnit_setUnit]
    · refine .of_seq hr rfl ?_ (((SamePlace.of_fetch h).reserve use).raise ..)
      rw [hw, vstBody, vmem_go hfree ho rfl h hp hgo]
      simp [(hsame.reserve use).now, (hsame.reserve use).vec, hd, hne]
    · refine .of_seq hr rfl ?_ ((((SamePlace.of_fetch h).reserve use).later ..).later ..)
      rw [hw, vstBody, vmem_go hfree ho rfl h hp hgo]
      simp only [State.now_setUnit, (hsame.reserve use).now, ((hsame.reserve use).later _ _ _).divisor, (hsame.reserve use).vec, hd, Bool.false_and,
        Bool.false_eq_true, if_false, State.setUnit_setUnit]
      rfl
  · intro f a c s u v v1 x hw hr ho hf h
    refine ⟨fun hp => .of_seq hr rfl ?_ ((SamePlace.of_fetch h).enter ..), fun hp hbad => .of_body hr rfl ?_, fun hp hal hin hbanks =>
      .of_seq hr rfl ?_ (((SamePlace.of_fetch h).reserve _).enter ..)⟩
    · simp [vldkBody, hw, ho, hf, h, poisonOf, hp]
    · simp [vldkBody, hw, ho, hf, h, arg, poisonOf, hp, hbad]
    · unfold bankUse at hbanks
      simp [vldkBody, hw, ho, hf, h, arg, poisonOf, hp, hal, Nat.not_lt.mpr hin, hbanks, bankUse]
end

