-- ==== Sys2Proof/Proofs/Matrix.lean ====
section
/-! PROOFS. Matrix words as they issue (O19, O20, O21). -/

namespace Sys2Proof.Machine

/-! ### Effects that move no walker -/

section
variable {v w : Unit} {j : Nat} (h : SamePlace v w j)
include h

theorem SamePlace.landsBy (c : Nat) : SamePlace v (w.landsBy c) j := h.withWalkers rfl

theorem SamePlace.landExt (k d due : Nat) (x : Val) : SamePlace v (w.landExt k d due x) j := by
  unfold Unit.landExt
  split <;> exact h.withWalkers rfl

end

/-! ### Multiplies (R158, R159, R168) -/

/-- How long a squashed word holds its engine is nothing to one that is live. -/
theorem runWord_mult {f : WordInfo} {body : State → Nat → Nat → Act} {s : State} {u k : Nat} {v : Unit} (h : Ready f s u k v)
    (m : Option (Unit → Nat → Nat)) : runWord { f with mult := m } body s = runWord f body s := by
  obtain ⟨un, hs, -⟩ := h
  have hs' : Stands { f with mult := m } s u k un :=
    ⟨⟨hs.focus, hs.here, hs.four, hs.walker, hs.walking, hs.going, hs.loose, hs.kept, hs.time, hs.noHalt, hs.noQuiet, hs.inText, hs.within, hs.named, hs.free⟩,
      hs.live⟩
  rw [runWord_ready hs, runWord_ready hs']
  rfl

/-- A multiply that stands at its word is run by its body. -/
theorem multiplyWord_means {i : Instr} {op : Nat} {c : BitVec 4} {n : BitVec 12} {q l : BitVec 1} {st : BitVec 4} {s : State} {u : Nat} {v : Unit}
    (h : multiplyWord i = some (op, c, n, q, l, st)) (hw : wellFormed i = true) (hr : Ready (matWord 0 true) s u 1 v) :
    exec i s = .next (runWord (matWord 0 true) (mmaBody op true c.toNat n.toNat (q == 1) (l == 1) st.toNat) s) := by
  have hop : exec i s = mmaOp op (wellFormed i) c n q l st s := by
    unfold multiplyWord at h
    split at h <;> cases h <;> rfl
  rw [hop, hw, mmaOp, mmaInfo, runWord_mult hr]

/-- The multiply that issues in cycle `now` (R159, R160). -/
def Unit.newMult (v : Unit) (op acc n : Nat) (acq rel : Bool) (scope now : Nat) : Mult :=
  { op, acc, n, d := v.divisor 1, acq, rel, scope, cfg := v.shadow, next := 0
    startAt := if acq then nextIssue (v.divisor 1) (now + v.lsc scope) else now
    resumed := false, seq := v.seq, waiting := false, freeAt := now, relBase := none, cover := ⟨[], 0⟩, relAt := none }

/-- The unit with that multiply running: its configuration latches, and its acquire, where it has one, completes. -/
def Unit.multiplies (v : Unit) (m : Mult) (now : Nat) : Unit :=
  if m.acq then ({ v with mult := some m }.later now 1 (.latch v.shadow)).later (now + v.lsc m.scope - 1) 3 (.acquire m.scope)
  else { v with mult := some m }.later now 1 (.latch v.shadow)

theorem SamePlace.multiplies (v : Unit) (m : Mult) (now j : Nat) : SamePlace v (v.multiplies m now) j := by
  unfold Unit.multiplies
  split <;> exact .of_walkers j rfl

section
variable {op acc n scope : Nat} {acq rel : Bool} {s : State} {u k : Nat} {v : Unit}

theorem mmaBody_illegal (h : v.shadow.accepts op = false) : mmaBody op true acc n acq rel scope (s.setUnit u v) u k = .fault .illegal 0 := by
  simp [mmaBody, h]

/-- A strict region stops a multiply whose first k-step lacks entries, but for a fill that runs again (R200). -/
theorem mmaBody_miss (h : v.shadow.accepts op = true) (hs : (s.region v.region).strict = true) (ha : acq = false) (hav : v.available op = false)
    (hre : v.refilling op = false) (hn : n ≠ 0) :
    mmaBody op true acc n acq rel scope (s.setUnit u v) u k = .engine .scheduleMiss ⟨1, 0, 0, 0, 0, 0, 0⟩ := by
  simp [mmaBody, h, hs, ha, hav, hre, hn]

theorem mmaBody_go (h : v.shadow.accepts op = true)
    (hgo : (s.region v.region).strict = false ∨ acq = true ∨ v.available op = true ∨ v.refilling op = true ∨ n = 0) :
    mmaBody op true acc n acq rel scope (s.setUnit u v) u k =
      .go (s.setUnit u (v.multiplies (v.newMult op acc n acq rel scope (s.now v)) (s.now v))) .seq := by
  have hno : ((s.region v.region).strict && !acq && !v.available op && !v.refilling op && n != 0) = false := by
    rcases hgo with hgo | hgo | hgo | hgo | hgo <;> simp [hgo]
  simp only [mmaBody, State.unit?_setUnit_self, State.region_setUnit, State.now_setUnit, h, hno, Bool.not_true, Bool.or_self, Bool.false_eq_true, if_false,
    State.setUnit_setUnit]
  rfl

end

/-! ### Configuration words (R156) -/

theorem msetWord_means {i : Instr} {f : CfgField} {x : W32} (h : msetWord i = some (f, x)) (s : State) : exec i s = msetOp (wellFormed i) f x s := by
  unfold msetWord at h
  split at h <;> cases h
  case h_3 st => rw [BitVec.ofNat_toNat]; rfl
  all_goals rfl

theorem msetRegWord_means {i : Instr} {f : CfgField} {a : BitVec 5} {g : W64 → W32} (h : msetRegWord i = some (f, a, g)) (s : State) :
    exec i s = msetReg (wellFormed i) f a g s := by
  unfold msetRegWord at h
  split at h <;> cases h
  case h_1 => simp only [BitVec.ofNat_toNat]; rfl
  case h_2 =>
    have hlow : ∀ x : W64, BitVec.ofNat 32 (x.toNat % 65536) = x.setWidth 32 &&& 0xFFFF := by
      intro x
      refine BitVec.eq_of_toNat_eq ?_
      have hand : (x.toNat % 2 ^ 32) &&& 0xFFFF = x.toNat % 2 ^ 32 % 2 ^ 16 := Nat.and_two_pow_sub_one_eq_mod _ 16
      rw [BitVec.toNat_and, BitVec.toNat_setWidth, BitVec.toNat_ofNat, show (0xFFFF : W32).toNat = 0xFFFF from rfl, hand]
      omega
    simp only [hlow]; rfl

/-! ### Effects that enter one after another -/

/-- The unit with the results `ps` entered behind its own. -/
def Unit.withPend (v : Unit) (ps : List Pend) (seq : Nat) : Unit := { v with pend := v.pend ++ ps, seq }

@[simp] theorem Unit.withPend_withPend (v : Unit) (ps qs : List Pend) (a b : Nat) : (v.withPend ps a).withPend qs b = v.withPend (ps ++ qs) b := by
  simp [Unit.withPend]

theorem SamePlace.withPend {v w : Unit} {j : Nat} (h : SamePlace v w j) (ps : List Pend) (seq : Nat) : SamePlace v (w.withPend ps seq) j :=
  h.withWalkers rfl

theorem Unit.later_eq_withPend (v : Unit) (due rank : Nat) (e : Eff) : v.later due rank e = v.withPend [⟨due, rank, v.seq, e⟩] (v.seq + 1) := rfl

/-- Effects that enter one after another stand behind the unit's own in their order. -/
theorem Unit.foldl_later {α : Type} (due : α → Nat) (rank : Nat) (eff : α → Eff) (l : List α) (v : Unit) :
    ∃ ps seq, l.foldl (fun w a => w.later (due a) rank (eff a)) v = v.withPend ps seq ∧
      ps.map (fun p => (p.due, p.eff)) = l.map fun a => (due a, eff a) := by
  induction l generalizing v with
  | nil => exact ⟨[], v.seq, by simp [Unit.withPend], rfl⟩
  | cons a l ih =>
    obtain ⟨ps, seq, he, hp⟩ := ih (v.later (due a) rank (eff a))
    refine ⟨⟨due a, rank, v.seq, eff a⟩ :: ps, seq, ?_, by simp [hp]⟩
    rw [List.foldl_cons, he, Unit.later_eq_withPend, Unit.withPend_withPend, List.singleton_append]

/-- A raise of flags enters at most their effect. -/
theorem Unit.raise_eq_withPend (v : Unit) (k due : Nat) (f : W64) :
    ∃ ps seq, v.raise k due f = v.withPend ps seq ∧ ∀ p ∈ ps, ∃ g, p.eff = .flags k g := by
  unfold Unit.raise
  split
  · exact ⟨[], v.seq, by simp [Unit.withPend], by simp⟩
  · exact ⟨_, _, v.later_eq_withPend due 4 (.flags k f), by simp⟩

theorem pieces_map {α β : Type} (f : α → β) (k n : Nat) (l : List α) : pieces k n (l.map f) = (pieces k n l).map (List.map f) := by
  induction n generalizing l with
  | zero => rfl
  | succ n ih => rw [pieces, pieces, ← List.map_drop, ih, List.map_cons, List.map_take]

/-! ### Accumulator words (R166, R167) -/

theorem accOk_eq_false {a : Nat} (h : a % 256 ≠ 0 ∨ Config.unitStoreBytes < a + 16384) : accOk a = false := by
  unfold accOk
  rcases h with h | h
  · simp [h]
  · simp [Nat.not_le.mpr h]

theorem accOk_eq_true {a : Nat} (h : a % 256 = 0) (hin : a + 16384 ≤ Config.unitStoreBytes) : accOk a = true := by
  simp [accOk, h, hin]

/-- What `macc.cvt` gives for an element, with the flags that it raises (R167). -/
def cvtElem (t : Nat) (sat : Bool) (rnd : Rnd) (scale : W64) (e : W32) : W32 × Nat :=
  let p := mulNum (if (cvtCode t).2 then numOfInt e.toInt else decodeNum f32 e.toNat) (decodeNum f32 (scale.toNat % 2 ^ 32))
  let x := writeSel (selOf (cvtCode t).1) rnd sat p.1
  (x.1, orFlags p.2 x.2)

/-- The results of a `macc.cvt` of window `w` with scale `x`, due in cycle `due`: its sixteen registers from `d` on, and the flags (R167). -/
theorem Unit.cvtEnters (v : Unit) (w : Acc) (x : Val) (d t : Nat) (sat : Bool) (rnd : Rnd) (due : Nat) :
    ∃ regs n flags seq, ((pieces 256 16 (w.el.map (cvtElem t sat rnd x.bits))).zipIdx.foldl (fun v p =>
        v.later due 2 (.lanes (d + p.2) (p.1.zipIdx.map fun e => (e.2, e.1.1)) (w.poison || x.poison) true 0 true)) v).raise 1 due
          (flagBits ((w.el.map (cvtElem t sat rnd x.bits)).foldl (fun f e => orFlags f e.2) 0)) =
        (v.withPend regs n).withPend flags seq ∧
      regs.map (fun p => (p.due, p.eff)) = (pieces 256 16 (w.el.map fun e => (cvtElem t sat rnd x.bits e).1)).zipIdx.map (fun p =>
        (due, Eff.lanes (d + p.2) (p.1.zipIdx.map fun e => (e.2, e.1)) (w.poison || x.poison) true 0 true)) ∧
      ∀ p ∈ flags, ∃ f, p.eff = .flags 1 f := by
  obtain ⟨regs, n, hregs, hmap⟩ := Unit.foldl_later (fun _ => due) 2
    (fun p : List (W32 × Nat) × Nat => Eff.lanes (d + p.2) (p.1.zipIdx.map fun e => (e.2, e.1.1)) (w.poison || x.poison) true 0 true)
    (pieces 256 16 (w.el.map (cvtElem t sat rnd x.bits))).zipIdx v
  obtain ⟨flags, seq, hraise, hflags⟩ := (v.withPend regs n).raise_eq_withPend 1 due
    (flagBits ((w.el.map (cvtElem t sat rnd x.bits)).foldl (fun f e => orFlags f e.2) 0))
  refine ⟨regs, n, flags, seq, ?_, ?_, hflags⟩
  · rw [hregs, hraise]
  · rw [hmap, pieces_map, pieces_map, List.zipIdx_map, List.zipIdx_map, List.map_map, List.map_map]
    refine List.map_congr_left fun ⟨l, n⟩ _ => ?_
    simp only [Function.comp_apply, Prod.map_apply, id_eq, List.zipIdx_map, List.map_map]
    rfl

end Sys2Proof.Machine

open Sys2Proof Sys2Proof.Machine

/-- Settles O19: the body of a multiply, by whether its configuration fits and whether a strict region finds its entries. -/
theorem multipliesIssue : Obligations.MultipliesIssue := by
  intro i op c n q l st s u v hi hw hr
  have he := multiplyWord_means hi hw hr
  refine ⟨fun h => .of_body hr he (mmaBody_illegal h), fun h hs hq hav hre hn => ?_, fun h hgo => ?_⟩
  · have hn' : n.toNat ≠ 0 := fun h0 => hn (BitVec.eq_of_toNat_eq h0)
    have hb := mmaBody_miss (acc := c.toNat) (rel := l == 1) (scope := st.toNat) (u := u) (k := 1) h hs (by simp [hq] : (q == 1) = false) hav hre hn'
    obtain ⟨un, hst, rfl⟩ := hr
    rw [he, runWord_ready hst, hb]
  · have hgo' : (s.region v.region).strict = false ∨ (q == 1) = true ∨ v.available op = true ∨ v.refilling op = true ∨ n.toNat = 0 := by
      simpa [BitVec.toNat_eq] using hgo
    refine ⟨v.newMult op c.toNat n.toNat (q == 1) (l == 1) st.toNat (s.now v), rfl, rfl, rfl, rfl, rfl, rfl, rfl, rfl, rfl, ?_, ?_⟩
    · simp [Unit.newMult]
    · have hissue := Issues.of_seq hr he (mmaBody_go (acc := c.toNat) (rel := l == 1) (scope := st.toNat) (u := u) (k := 1) h hgo') (.multiplies ..)
      simpa [Unit.multiplies, Unit.newMult] using hissue

/-- Settles O20: the bodies of the setting words, and the condition of `mwait`. -/
theorem matrixSettingWordsIssue : Obligations.MatrixSettingWordsIssue := by
  refine ⟨?_, ?_, ?_, ?_⟩
  · intro i f x s u v hi hw hr
    refine .of_seq hr (msetWord_means hi s) ?_ ((SamePlace.refl v 1).later ..)
    simp [hw]
  · intro i f a g s u v v1 x hi hw hr ho hf
    refine .of_seq hr (msetRegWord_means hi s) ?_ ((SamePlace.of_fetch hf).later ..)
    simp [hw, ho, hf, arg, poisonOf]
  · intro d s u v hw hr ho hroom
    refine .of_seq hr rfl ?_ ((SamePlace.refl v 1).landExt ..)
    simp [hw, ho, hroom]
  · intro s u v hr
    refine ⟨fun hm hk hl => ?_, fun h => ?_⟩
    · refine .of_seq hr rfl ?_ (.refl v 1)
      simp [hm, hk, hl]
    · refine exec_wait hr rfl ?_
      rcases h with h | h | h
      · simp [Option.isSome_iff_ne_none.mp h]
      · simp [h]
      · simp [Nat.not_le.mpr h]

/-- Settles O21: each accumulator word with its base read, by its poison and its image's place; the rows of `macc.st` and the registers of `macc.cvt`
enter one after another (`Unit.foldl_later`). -/
theorem accumulatorWordsIssue : Obligations.AccumulatorWordsIssue := by
  refine ⟨?_, ?_, ?_, ?_⟩
  · intro c s u v hw hr
    refine .of_seq hr rfl ?_ (((SamePlace.refl v 1).later ..).landsBy _)
    simp [hw]
  · intro c a s u v v1 x hw hr ho hf
    refine ⟨fun hp => ?_, fun hp hbad => ?_, fun hp hal hin hbanks => ?_⟩
    · refine .of_seq hr rfl ?_ (((SamePlace.of_fetch hf).later ..).landsBy _)
      simp [hw, ho, hf, arg, poisonOf, hp]
    · refine .of_body hr rfl ?_
      simp [hw, ho, hf, arg, poisonOf, hp, accOk_eq_false hbad]
    · refine .of_seq hr rfl ?_ ((((SamePlace.of_fetch hf).reserve _).later ..).landsBy _)
      simp [hw, ho, hf, arg, poisonOf, hp, accOk_eq_true hal hin, hbanks]
  · intro c a s u v v1 x hw hr ho hf
    refine ⟨fun hp => ?_, fun hp hbad => ?_, fun hp hal hin hwin => ?_, fun hp hal hin hwin hbanks => ?_⟩
    · refine .of_seq hr rfl ?_ (((SamePlace.of_fetch hf).raise ..).landsBy _)
      simp [hw, ho, hf, poisonOf, hp]
    · refine .of_body hr rfl ?_
      simp [hw, ho, hf, arg, poisonOf, hp, accOk_eq_false hbad]
    · refine .of_seq hr rfl ?_ (((SamePlace.of_fetch hf).raise ..).landsBy _)
      simp [hw, ho, hf, arg, poisonOf, hp, accOk_eq_true hal hin, hwin]
    · obtain ⟨rows, seq, hrows, hmap⟩ := Unit.foldl_later (fun r : List W32 × Nat => s.now v + r.2 * v.divisor 1 + 1) 0
        (fun r => Eff.store 1 v1.seq (cellsAt (x.bits.toNat + 256 * r.2) (r.1.flatMap fun e => leBytes 4 e.toNat)))
        (pieces 64 64 (v.window c.toNat).el).zipIdx (v1.reserve (rowUse 1 (s.now v) (v.divisor 1) x.bits.toNat))
      refine ⟨seq, rows, .of_seq hr rfl ?_ ((((SamePlace.of_fetch hf).reserve _).withPend rows seq).landsBy _), hmap⟩
      simp only [State.unit?_setUnit_self, State.now_setUnit, State.setUnit_setUnit, hw, ho, hf, arg, poisonOf, List.getD_cons_zero, List.any_cons,
        List.any_nil, hp, accOk_eq_true hal hin, hwin, hbanks, Bool.or_false, Bool.not_true, Bool.false_eq_true, if_false, hrows]
      rfl
  · intro c a d t st r s u v v1 x hw hr ho hf
    obtain ⟨regs, n, flags, seq, henter, hmap, hflags⟩ := v1.cvtEnters (v.window c.toNat) x d.toNat t.toNat (st == 1) (Rnd.ofBits r)
      (s.now v + 20 * v.divisor 1 - 1)
    refine ⟨seq, regs, flags, .of_seq hr rfl ?_ ((((SamePlace.of_fetch hf).withPend regs n).withPend flags seq).landsBy _), hflags, hmap⟩
    simp only [State.unit?_setUnit_self, State.now_setUnit, State.setUnit_setUnit, hw, ho, hf, arg, poisonOf, List.getD_cons_zero, List.any_cons, List.any_nil,
      Bool.or_false, Bool.not_true, Bool.false_eq_true, if_false]
    exact congrArg (fun w : Machine.Unit => Act.go (s.setUnit u (w.landsBy (s.now v + 20 * v.divisor 1 - 1 + 1))) .seq) henter
end

