-- ==== Sys2Proof/Proofs/Resumes.lean ====
section
/-! PROOFS. K-steps that start, and stopped units that run on (O36, O42). -/

namespace Sys2Proof.Machine

/-! ### A multiply without a divisor -/

/-- A multiply of one k-step whose divisor is 0, which no word issues (`Unit.divisor` is at least 1). -/
def undividedMult : Mult := { releasingMult with n := 1, d := 0, rel := false, relBase := none }

/-- An entry of a skein that has landed. -/
def landedEntry : SkEntry :=
  { data := [], side := [], sv := false, poison := false, landed := true, order := 0, chan := 0, tid := 0, entry := 0, refill := false }

/-- Unit 0 in cycle 0 of its region, that multiply running with its entries there. -/
def undividedState : State :=
  { State.reset with
    units := [(0, { State.reset.freshUnit 0 (fetchKernel 0) 0 0 [] with
      run := .running, mult := some undividedMult, ska := [landedEntry], skb := [landedEntry] })]
    regions := [fetchRegion] }

/-! ### A level that ends as its walker goes on -/

/-- A level of two passes whose first has run and which a request drains at its second. -/
def drainingLevel : Level :=
  { word := 0, trip := 2, stages := 1, ii := 1, len := 1, last := 1, from_ := 0, reg := 0, pass := 0, started := true, began := 0, after := 0, first := 0
    drain := some 1 }

/-- A stop whose record is complete, and whose ACTION of 1 has been taken. -/
def resumingStop : Stop :=
  { cycle := 0, cls := .p, eng := 0, chan := 0, trigger := 0, tid := 0, beat := 0, addr := 0, origin := 0, jobNs := 0, wrote := true, recNs := some (1, 1)
    complete := true, image := [], blocks := [], rsc := 0, busy := false, nA := 0, nB := 0, action := some (1, 0, 1) }

/-- Unit 0 stopped so, its walker 0 behind the last word of that level's pass. -/
def drainingUnit : Unit :=
  { (State.reset.freshUnit 0 (fetchKernel 0) 0 0 []).setWk 0 fun w => { w with idx := 2, inner := some drainingLevel } with
    run := .stopped, stop := some resumingStop }

def drainingState : State := { State.reset with units := [(0, drainingUnit)], regions := [fetchRegion], kernels := [fetchKernel 0] }

/-- The walker settles its level as it goes on (`Unit.goOn`), and the drain stops it again (R114). -/
theorem drainingState_stopsAgain :
    ((outcomeState drainingState (exec (.actionResume 0) drainingState)).unit? 0).map (fun un => (un.wk 0).stopped) = some true := by
  rfl

theorem drainingUnit_settled (k : Nat) : (drainingUnit.wk k).settled := by
  have hnone : (drainingUnit.wk k).inflight = [] := by
    rcases k with _ | _ | _ | _ | k <;> rfl
  intro p hp
  rw [hnone] at hp
  cases hp

end Sys2Proof.Machine

open Sys2Proof Sys2Proof.Machine

/-- Refutes O36: its first clause puts the end of a k-step at 32 divisors after its start, less one cycle, which is no cycle in `undividedState`, where a
multiply of divisor 0 starts its k-step in cycle 0. No hypothesis of that clause says that the multiply has a divisor. -/
theorem not_kStepsRun : ¬ Obligations.KStepsRun := by
  rintro ⟨hstart, -, -⟩
  obtain ⟨_, _, -, -, -, -, -, -, -, k, -, -, -, -, -, -, -, -, hend, -⟩ :=
    hstart undividedState 0 _ undividedMult rfl rfl rfl (by decide) (by decide) rfl rfl rfl rfl
  exact absurd hend (Nat.succ_ne_zero k.endAt)

/-- Refutes O42: its clause for a write of 1 to ACTION, that every walker of the unit runs on, fails in `drainingState`, where walker 0 stands behind a
pass of a level that drains, which no hypothesis of that clause rules out: the level drains as the walker goes on, and stops it again. -/
theorem not_recordsAndActions : ¬ Obligations.RecordsAndActions := by
  rintro ⟨-, -, -, -, -, hresume, -⟩
  obtain ⟨t, un', ht, hu, -, -, -, -, -, -, -, hwalkers⟩ :=
    hresume drainingState 0 drainingUnit resumingStop rfl rfl rfl rfl rfl rfl drainingUnit_settled
  obtain ⟨-, hgoes, -⟩ := hwalkers 0 (by decide)
  have hstops := drainingState_stopsAgain
  rw [ht, show outcomeState drainingState (Host.Outcome.next t) = t from rfl, hu, Option.map_some, hgoes] at hstops
  exact absurd hstops (by decide)
end

