-- ==== Sys2Proof/Proofs/Commands.lean ====
section
/-! PROOFS. What every copy word's issue needs: the checks of a command, and its entry into its channel (R176, R177). -/

namespace Sys2Proof.Machine

/-! ### Walks and queues (R236, R242) -/

/-- From `s` to `t` only table walks have been sent, and requests have entered the queues of their memory channels. -/
def State.Queued (s t : State) : Prop := ∃ walks queues, t = { s with walks, queues }

theorem State.Queued.refl (s : State) : s.Queued s := ⟨_, _, rfl⟩

theorem State.Queued.trans {r s t : State} (h : r.Queued s) (g : s.Queued t) : r.Queued t := by
  obtain ⟨_, _, rfl⟩ := h
  obtain ⟨w, q, rfl⟩ := g
  exact ⟨w, q, rfl⟩

theorem State.Queued.foldl {α : Type} {f : State → α → State} (hf : ∀ (s : State) a, s.Queued (f s a)) (l : List α) (s : State) : s.Queued (l.foldl f s) := by
  induction l generalizing s with
  | nil => exact .refl s
  | cons a l ih => exact (hf s a).trans (ih _)

/-- The same for a fold that carries an answer beside the state. -/
theorem State.Queued.foldl_snd {α β : Type} {f : β × State → α → β × State} (hf : ∀ (acc : β × State) a, acc.2.Queued (f acc a).2) (l : List α) (acc : β × State) :
    acc.2.Queued (l.foldl f acc).2 := by
  induction l generalizing acc with
  | nil => exact .refl acc.2
  | cons a l ih => exact (hf acc a).trans (ih _)

theorem State.queueUp_queued (s : State) (k limit : Nat) (each t : Frac) : s.Queued (s.queueUp k limit each t).2 := ⟨_, _, rfl⟩

theorem State.queueBlocks_queued (s : State) (pa n : Nat) (t : Frac) : s.Queued (s.queueBlocks pa n t).2 := by
  refine State.Queued.foldl_snd (fun acc i => ?_) _ (false, s)
  exact ⟨_, _, rfl⟩

theorem State.queuePiece_queued (s : State) (u : Nat) (q : Piece) (t : Frac) : s.Queued (s.queuePiece u q t).2 := by
  have hblocks : s.Queued (if q.space = .dram then s.queueBlocks q.addr q.n t else (false, s)).2 := by
    split
    · exact s.queueBlocks_queued ..
    · exact .refl s
  refine hblocks.trans ?_
  unfold State.queuePiece
  generalize (if q.space = .dram then s.queueBlocks q.addr q.n t else (false, s)) = e
  dsimp only
  split
  · exact State.queueUp_queued ..
  · exact .refl _

theorem State.sendWalk_queued (s : State) (u : Nat) (un : Unit) (va t : Nat) (resident : Bool) (reads : List Nat) :
    s.Queued (s.sendWalk u un va t resident reads) :=
  (State.Queued.foldl (fun s a => s.queuePiece_queued u ⟨.dram, a, 16, 64⟩ s.time) reads s).trans ⟨_, _, rfl⟩

/-- Walks and queues stand beside the units. -/
theorem State.Queued.setUnit {s t : State} {u : Nat} {v : Unit} (h : (s.setUnit u v).Queued t) :
    ∃ walks queues, ∀ w, t.setUnit u w = { s with walks, queues }.setUnit u w := by
  obtain ⟨walks, queues, rfl⟩ := h
  exact ⟨walks, queues, fun w => by simp [State.setUnit]⟩

/-! ### What reading operands leaves -/

theorem fetch_chans {k : Nat} {v v1 : Unit} {fs : List Nat} {vs : List Val} (h : fetch k v fs = .ok (vs, v1)) : v1.chans = v.chans := by
  obtain ⟨qs, rfl⟩ := fetch_unit h; rfl

theorem fetch_now {k : Nat} {v v1 : Unit} {fs : List Nat} {vs : List Val} (s : State) (h : fetch k v fs = .ok (vs, v1)) : s.now v1 = s.now v := by
  rw [State.now, fetch_region h]; rfl

/-! ### Commands (R176, R177) -/

/-- `y` is command `x` as it issues (R176, R182, R185): its ordering, its translation and its beats are settled, and nothing else of it. -/
def Cmd.IssuedAs (x y : Cmd) (acq rel : Bool) (scope : Nat) : Prop :=
  y = { x with
    acq, rel, scope, from_ := y.from_, cover := y.cover, xlAt := y.xlAt, pages := y.pages, xlFault := y.xlFault, late := y.late, beats := y.beats
    compAt := y.compAt }

theorem State.withPages_op (s : State) (u : Nat) (un : Unit) (x : Cmd) : (s.withPages u un x).op = x.op := by
  unfold State.withPages; split <;> rfl

/-- Only a fill has side records that may fail to start at a group (R241). -/
theorem Cmd.groupsOk_of_noFill {x : Cmd} (ha : x.op ≠ .cfillA) (hb : x.op ≠ .cfillB) : x.groupsOk = true := by
  unfold Cmd.groupsOk
  split
  · exact absurd ‹_› ha
  · exact absurd ‹_› hb
  · rfl

theorem State.withPages_groupsOk {s : State} {u : Nat} {un : Unit} {x : Cmd} (ha : x.op ≠ .cfillA) (hb : x.op ≠ .cfillB) :
    (s.withPages u un x).groupsOk = true :=
  Cmd.groupsOk_of_noFill (by rwa [State.withPages_op]) (by rwa [State.withPages_op])

/-- A command's translation sends walks, and settles the fields of R182 (R242). -/
theorem State.startXlate_spec (s : State) (u : Nat) (un : Unit) (x : Cmd) :
    s.Queued (s.startXlate u un x).1 ∧ ∃ xlAt pages xlFault late from_, (s.startXlate u un x).2 = { x with xlAt, pages, xlFault, late, from_ } := by
  unfold State.startXlate
  split
  · exact ⟨.foldl (fun s w => s.sendWalk_queued ..) _ s, _, _, _, _, _, rfl⟩
  · exact ⟨.refl s, _, _, _, _, _, rfl⟩

section
variable {s : State} {u scope : Nat} {un : Unit} {x : Cmd} {acq rel poison : Bool}

theorem issueCmd_fault (h : x.valuesOk u = false ∨ x.spanOk = false ∨ (s.withPages u un x).groupsOk = false) :
    issueCmd s u un x acq rel scope poison = .fault .access 0 := by
  unfold issueCmd
  rcases h with h | h | h <;> simp [h]

theorem issueCmd_poison (hv : x.valuesOk u = true) (hs : x.spanOk = true) (hg : (s.withPages u un x).groupsOk = true) :
    issueCmd s u un x acq rel scope true =
      .go (s.setUnit u ((un.addCmd { x with poison := true, compAt := some x.t }).raise 3 (x.t + 1) flagPS)) .seq := by
  simp [issueCmd, hv, hs, hg]

theorem issueCmd_clean (hv : x.valuesOk u = true) (hs : x.spanOk = true) (hg : (s.withPages u un x).groupsOk = true) :
    ∃ t y, s.Queued t ∧ x.IssuedAs y acq rel scope ∧
      issueCmd s u un x acq rel scope false = .go (t.setUnit u (((un.acquireAt y).addCmd y).joinCovers y)) .seq := by
  obtain ⟨hq, xlAt, pages, xlFault, late, from_, hx⟩ := s.startXlate_spec u un (x.ordered un acq rel scope)
  refine ⟨_, _, hq, ?_, by simp only [issueCmd, hv, hs, hg]; rfl⟩
  rw [hx]
  split <;> rfl

end

/-! ### A command in its channel (R177) -/

theorem Unit.ch_setCh (v : Unit) (c j : Nat) (f : Chan → Chan) : (v.setCh c f).ch j = if j = c ∧ c < v.chans.length then f (v.ch c) else v.ch j := by
  simp only [Unit.ch, Unit.setCh, modify_getD]

theorem Unit.ch_congr {v w : Unit} (h : w.chans = v.chans) (c : Nat) : w.ch c = v.ch c := by unfold Unit.ch; rw [h]

theorem Unit.landExt_chans (v : Unit) (k d due : Nat) (x : Val) : (v.landExt k d due x).chans = v.chans := by
  unfold Unit.landExt; split <;> rfl

theorem Unit.raise_chans (v : Unit) (k due : Nat) (f : W64) : (v.raise k due f).chans = v.chans := by
  unfold Unit.raise; split <;> rfl

theorem Unit.raise_flagPS (v : Unit) (k due : Nat) : v.raise k due flagPS = v.later due 4 (.flags k flagPS) := if_neg (by decide)

section
variable {v w : Unit} {c : Nat} {x : Cmd} (hl : c < v.chans.length) (hc : x.chan = c) (ht : x.tid = (v.ch c).tid)
include hl hc ht

/-- A command that is added to its channel, the results `ps` entering with it. -/
theorem Entered.of_addCmd {chans : List Chan} {pend : List Pend} {seq : Nat} {effs : List (Nat × Nat × Eff)} (ps : List Pend)
    (he : ps.map (fun p => (p.due, p.rank, p.eff)) = effs) (hch : w.chans = (v.addCmd x).chans) (hp : w.pend = v.pend ++ ps)
    (hs : w.seq = v.seq + ps.length) (hw : w = { (if x.poison ∨ x.op = .cmark then v else v.joinCovers x) with chans, pend, seq }) :
    Entered v w c x effs := by
  subst he
  have hwch : ∀ j, w.ch j = (v.addCmd x).ch j := fun j => by unfold Unit.ch; rw [hch]
  refine ⟨hc, ht, ?_, fun j hj => ?_, ⟨ps, hp, rfl⟩, by rw [hs, List.length_map], _, _, _, hw⟩
  · rw [hwch, Unit.addCmd, Unit.ch_setCh, hc, if_pos ⟨rfl, hl⟩]
  · rw [hwch, Unit.addCmd, Unit.ch_setCh, hc, if_neg fun h => hj h.1]

/-- One that moves nothing, or a mark, enters alone (R176, R195). -/
theorem Entered.alone (hx : x.poison = true ∨ x.op = .cmark) : Entered v (v.addCmd x) c x [] :=
  .of_addCmd hl hc ht [] rfl rfl (List.append_nil _).symm rfl (by rw [if_pos hx]; rfl)

/-- One that moves nothing, or a mark, with PS (R176). -/
theorem Entered.poisoned (hx : x.poison = true ∨ x.op = .cmark) (t : Nat) : Entered v ((v.addCmd x).raise 3 (t + 1) flagPS) c x (poisonEff t) := by
  rw [Unit.raise_flagPS]
  exact .of_addCmd hl hc ht [_] rfl rfl rfl rfl (by rw [if_pos hx]; rfl)

/-- A clean command, with its acquire (R185); a boundary of its own cycle covers it (R118). -/
theorem Entered.clean (hp : x.poison = false) (ho : x.op ≠ .cmark) :
    Entered v (((v.acquireAt x).addCmd x).joinCovers x) c x (acquireEff v x.t x.acq x.scope) := by
  have hif : ¬(x.poison = true ∨ x.op = .cmark) := by simp [hp, ho]
  by_cases ha : x.acq = true
  · rw [acquireEff, Unit.acquireAt, if_pos ha, if_pos ha]
    exact .of_addCmd hl hc ht [_] rfl rfl rfl rfl (by rw [if_neg hif]; rfl)
  · rw [acquireEff, Unit.acquireAt, if_neg ha, if_neg ha]
    exact .of_addCmd hl hc ht [] rfl rfl (List.append_nil _).symm rfl (by rw [if_neg hif]; rfl)

end

theorem Entered.walkers {v w : Unit} {c : Nat} {x : Cmd} {effs : List (Nat × Nat × Eff)} (h : Entered v w c x effs) : w.walkers = v.walkers := by
  obtain ⟨_, _, _, rfl⟩ := h.rest
  dsimp only
  split <;> rfl

/-! ### A copy word (R176, R177) -/

theorem copyBody_go {c : Nat} {srcs : List Nat} {g : State → Unit → List Val → Act} {s : State} {u k : Nat} {v v1 : Unit} {vs : List Val}
    (hp : ownPort 3 srcs = false) (hf : v.chFull c = false) (h : fetch 3 v srcs = .ok (vs, v1)) :
    copyBody true c srcs g (s.setUnit u v) u k = g (s.setUnit u v) v1 vs := by
  simp [copyBody, hp, hf, h]

section
variable {f : WordInfo} {body : State → Nat → Nat → Act} {i : Instr} {s s1 : State} {u c scope : Nat} {v w : Unit} {x : Cmd} {acq rel poison : Bool}
  (hr : Ready f s u 3 v) (he : exec i s = .next (runWord f body s))
include hr he

/-- A word whose body enters a command into unit `w`, which the operands' read has left its walkers. -/
theorem IssuesIn.of_entered {v2 : Unit} {effs : List (Nat × Nat × Eff)} (hb : body (s.setUnit u v) u 3 = .go (s1.setUnit u v2) .seq)
    (hp : SamePlace v w 3) (h : Entered w v2 c x effs) : IssuesIn f .seq i s s1 u 3 (s.now v) v2 := by
  have hp2 := hp.withWalkers h.walkers
  exact .of_body hr he hb hp2.count hp2.idx (.inl (hp2.stopped.trans hr.stopped)) nofun

variable (hb : body (s.setUnit u v) u 3 = issueCmd (s1.setUnit u v) u w x acq rel scope poison)
include hb

/-- A command that breaks a limit is `ACCESS` (R176). -/
theorem Faults.of_issueCmd (h : x.valuesOk u = false ∨ x.spanOk = false ∨ ((s1.setUnit u v).withPages u w x).groupsOk = false) :
    Faults i s u 3 v .access 0 :=
  .of_body hr he (hb.trans (issueCmd_fault h))

variable (hp : SamePlace v w 3) (hl : c < w.chans.length) (hc : x.chan = c) (ht : x.tid = (w.ch c).tid) (hv : x.valuesOk u = true)
  (hs : x.spanOk = true) (hg : ((s1.setUnit u v).withPages u w x).groupsOk = true)
include hp hl hc ht hv hs hg

/-- A poisoned command that keeps its limits enters, and moves nothing (R176). -/
theorem IssuesIn.poisoned (hpoison : poison = true) : ∃ v2, IssuesIn f .seq i s s1 u 3 (s.now v) v2 ∧
    Entered w v2 c { x with poison := true, compAt := some x.t } (poisonEff x.t) := by
  subst hpoison
  have hent := Entered.poisoned (x := { x with poison := true, compAt := some x.t }) hl hc ht (.inl rfl) x.t
  refine ⟨_, .of_entered hr he ?_ hp hent, hent⟩
  rw [hb, issueCmd_poison hv hs hg, State.setUnit_setUnit]

/-- A clean command that keeps its limits enters with its ordering; its walks are sent (R176, R182, R185). -/
theorem IssuesIn.clean (hx : x.poison = false) (ho : x.op ≠ .cmark) (hpoison : poison = false) :
    ∃ y v2 walks queues, IssuesIn f .seq i s { s1 with walks, queues } u 3 (s.now v) v2 ∧ Entered w v2 c y (acquireEff w x.t acq scope) ∧
      x.IssuedAs y acq rel scope := by
  subst hpoison
  obtain ⟨t, y, hq, hy, hgo⟩ := issueCmd_clean (acq := acq) (rel := rel) (scope := scope) hv hs hg
  obtain ⟨walks, queues, ht2⟩ := hq.setUnit
  have hent : Entered w (((w.acquireAt y).addCmd y).joinCovers y) c y (acquireEff w x.t acq scope) := by
    rw [hy]
    exact .clean hl hc ht hx ho
  refine ⟨y, _, walks, queues, .of_entered hr he ?_ hp hent, hent, hy⟩
  rw [hb, hgo, ht2]

end

end Sys2Proof.Machine
end

