-- ==== Sys2Proof/Proofs/CopyWords.lean ====
section
/-! PROOFS. Copy words as they issue (O22, O23, O24). -/

namespace Sys2Proof.Machine

/-! ### Moves, gathers and scatters (R186, R193) -/

/-- The command of a word that moves data: a gather or a scatter has its index list (R193). -/
def Unit.moveCmd (v : Unit) (op : CopyOp) (c t : Nat) (d a b : W64) : Cmd :=
  let x := newCmd v op c t d a b
  if op = .cmov then x else { x with index := v.indexList x.t x.idx x.count }

/-- Command `x` has an index list, which is in error (R234). -/
def Unit.listBad (v : Unit) (x : Cmd) : Bool := x.op != .cmov && v.badAt x.idx (4 * x.count)

/-- What a word that moves data does once its operands are read. -/
def moveAct (op : CopyOp) (c : Nat) (acq rel : Bool) (scope u : Nat) (s : State) (v : Unit) (vs : List Val) : Act :=
  let x := newCmd v op c (s.now v) (arg vs 0).bits (arg vs 1).bits (arg vs 2).bits
  issueCmd s u (if v.listBad x && !poisonOf vs then v.later (x.t + 1) 1 (.probe x.idx (4 * x.count)) else v)
    (v.moveCmd op c (s.now v) (arg vs 0).bits (arg vs 1).bits (arg vs 2).bits) acq rel scope (poisonOf vs || v.listBad x)

theorem moveAct_cmov (c : Nat) (acq rel : Bool) (scope u : Nat) :
    moveAct .cmov c acq rel scope u = fun s v vs =>
      issueCmd s u v (newCmd v .cmov c (s.now v) (arg vs 0).bits (arg vs 1).bits (arg vs 2).bits) acq rel scope (poisonOf vs) := by
  funext s v vs
  simp [moveAct, Unit.moveCmd, Unit.listBad, newCmd]

/-- A gather or a scatter, whose list is read whether or not the read raises an error (R193, R234). -/
theorem moveAct_gather {op : CopyOp} (ho : op ≠ .cmov) (c : Nat) (acq rel : Bool) (scope u : Nat) :
    moveAct op c acq rel scope u = fun s v vs =>
      let x := newCmd v op c (s.now v) (arg vs 0).bits (arg vs 1).bits (arg vs 2).bits
      let bad := v.badAt x.idx (4 * x.count)
      let w := if bad && !poisonOf vs then v.later (x.t + 1) 1 (.probe x.idx (4 * x.count)) else v
      issueCmd s u w { x with index := w.indexList x.t x.idx x.count } acq rel scope (poisonOf vs || bad) := by
  funext s v vs
  have hcmd : ∀ t d a b, v.moveCmd op c t d a b = { newCmd v op c t d a b with
      index := v.indexList t (newCmd v op c t d a b).idx (newCmd v op c t d a b).count } := fun t d a b => if_neg ho
  have hbad : ∀ t d a b, v.listBad (newCmd v op c t d a b) = v.badAt (newCmd v op c t d a b).idx (4 * (newCmd v op c t d a b).count) := by
    intro t d a b
    simp [Unit.listBad, newCmd, ho]
  have hlist : ∀ (b : Bool) due e, (if b then v.later due 1 e else v).indexList = v.indexList := by
    intro b due e
    split <;> rfl
  simp only [moveAct, hcmd, hbad, hlist]
  rfl

theorem moveWord_means {i : Instr} {op : CopyOp} {h : BitVec 2} {srcs : List (BitVec 5)} {q l : BitVec 1} {st : BitVec 4}
    (hi : moveWord i = some (op, h, srcs, q, l, st)) (s : State) :
    exec i s = .next (runWord (cpyWord (some h.toNat)) (fun s u k =>
      copyBody (wellFormed i) h.toNat (srcs.map (·.toNat)) (moveAct op h.toNat (q == 1) (l == 1) st.toNat u) s u k) s) := by
  unfold moveWord at hi
  split at hi <;> cases hi
  case h_1 => simp only [moveAct_cmov]; rfl
  case h_2 => simp only [moveAct_gather (show CopyOp.cgat ≠ .cmov by decide)]; rfl
  case h_3 => simp only [moveAct_gather (show CopyOp.csct ≠ .cmov by decide)]; rfl

theorem moveWord_op {i : Instr} {op : CopyOp} {h : BitVec 2} {srcs : List (BitVec 5)} {q l : BitVec 1} {st : BitVec 4}
    (hi : moveWord i = some (op, h, srcs, q, l, st)) : op ≠ .cfillA ∧ op ≠ .cfillB ∧ op ≠ .cmark := by
  unfold moveWord at hi
  split at hi <;> cases hi <;> decide

theorem poisonOf_pair (a b : Val) : poisonOf [a, b] = (a.poison || b.poison) := by simp [poisonOf]

theorem poisonOf_triple (d a b : Val) : poisonOf [d, a, b] = (d.poison || a.poison || b.poison) := by simp [poisonOf, Bool.or_assoc]

/-- A word that moves data issues the command of its operands. -/
theorem moveWord_body {i : Instr} {op : CopyOp} {h : BitVec 2} {srcs : List (BitVec 5)} {q l : BitVec 1} {st : BitVec 4} {s : State} {u : Nat}
    {v v1 : Unit} {d a b : Val} {x x' : Cmd} (hi : moveWord i = some (op, h, srcs, q, l, st)) (hw : wellFormed i = true)
    (hp : ownPort 3 (srcs.map (·.toNat)) = false) (hf : v.chFull h.toNat = false) (hv : fetch 3 v (srcs.map (·.toNat)) = .ok ([d, a, b], v1))
    (hx : x = newCmd v1 op h.toNat (s.now v) d.bits a.bits b.bits)
    (hx' : x' = if op = .cmov then x else { x with index := v1.indexList x.t x.idx x.count }) :
    ∃ body, exec i s = .next (runWord (cpyWord (some h.toNat)) body s) ∧ body (s.setUnit u v) u 3 = issueCmd (s.setUnit u v) u
      (if v1.listBad x && !(d.poison || a.poison || b.poison) then v1.later (s.now v + 1) 1 (.probe x.idx (4 * x.count)) else v1) x' (q == 1) (l == 1)
      st.toNat (d.poison || a.poison || b.poison || v1.listBad x) := by
  refine ⟨_, moveWord_means hi s, ?_⟩
  have hnow : (s.setUnit u v).now v1 = s.now v := fetch_now s hv
  rw [hw, copyBody_go hp hf hv, ← poisonOf_triple]
  subst hx hx'
  simp only [moveAct, hnow]
  rfl

/-- Beside its index list the command is a new one. -/
theorem indexed_eq (x : Cmd) (op : CopyOp) (l : List Nat) : ∃ index, (if op = .cmov then x else { x with index := l }) = { x with index } := by
  split
  · exact ⟨x.index, rfl⟩
  · exact ⟨l, rfl⟩

/-! ### Fills (R188) -/

theorem fillWord_means {i : Instr} {isB : Bool} {h : BitVec 2} {f : BitVec 1} {a b : BitVec 5} {q l : BitVec 1} {st : BitVec 4}
    (hi : fillWord i = some (isB, h, f, a, b, q, l, st)) (s : State) :
    exec i s = fillOp (if isB then .cfillB else .cfillA) (wellFormed i) h f a b q l st s := by
  unfold fillWord at hi
  split at hi <;> cases hi <;> rfl

/-- A fill issues the command of its operands, with the pattern of its channel where it selects it (R191). -/
theorem fillWord_body {i : Instr} {isB : Bool} {h : BitVec 2} {f : BitVec 1} {fa fb : BitVec 5} {q l : BitVec 1} {st : BitVec 4} {s : State} {u : Nat}
    {v v1 : Unit} {a b : Val} {x : Cmd} (hi : fillWord i = some (isB, h, f, fa, fb, q, l, st)) (hw : wellFormed i = true)
    (hp : ownPort 3 [fa.toNat, fb.toNat] = false) (hf : v.chFull h.toNat = false) (hv : fetch 3 v [fa.toNat, fb.toNat] = .ok ([a, b], v1))
    (hx : x = { newCmd v1 (if isB then .cfillB else .cfillA) h.toNat (s.now v) 0 a.bits b.bits with
      pattern := if f = 1 then some (v1.ch h.toNat).pattern else none }) :
    ∃ body, exec i s = .next (runWord (cpyWord (some h.toNat)) body s) ∧
      body (s.setUnit u v) u 3 = issueCmd (s.setUnit u v) u v1 x (q == 1) (l == 1) st.toNat (a.poison || b.poison) := by
  refine ⟨_, fillWord_means hi s, ?_⟩
  have hnow : (s.setUnit u v).now v1 = s.now v := fetch_now s hv
  rw [hw, copyBody_go hp hf hv, ← poisonOf_pair, hx, ← hnow]
  rfl

/-! ### Atomics (R194, R195) -/

theorem atomicWord_means {i : Instr} {op : Nat} {h : BitVec 2} {d a b : BitVec 5} {q l : BitVec 1} {st : BitVec 4}
    (hi : atomicWord i = some (op, h, d, a, b, q, l, st)) (s : State) : exec i s = atomOp op (wellFormed i) h d a b q l st s := by
  unfold atomicWord at hi
  split at hi <;> cases hi <;> rfl

/-- What a `catom` does once its operands are read, `x` being its command but for the place of its result. -/
def atomAct (d : Nat) (acq rel : Bool) (scope u : Nat) (s : State) (v : Unit) (x : Cmd) (poison : Bool) : Act :=
  if !v.room 3 d then .miss (outQueue 3 d)
  else if !x.valuesOk u || !x.spanOk then .fault .access 0
  else if poison then
    let due := x.t + v.atomLat x.a.toNat - 1
    .go ({ s with free := s.free + 1 }.setUnit u (((v.landExt 3 d due ⟨Config.freeWord s.free, true⟩).raise 3 due flagPS).addCmd
      { x with poison := true, compAt := some due })) .seq
  else
    let w := if isPort d then v.qReserve (outQueue 3 d) else v
    issueCmd s u w { x with dest := if isPort d then some (.inr (outQueue 3 d)) else some (.inl (physReg (w.wk 3).wp d)) } acq rel scope false

/-- An atomic issues the command of its operands. -/
theorem atomicWord_body {i : Instr} {op : Nat} {h : BitVec 2} {d fa fb : BitVec 5} {q l : BitVec 1} {st : BitVec 4} {s : State} {u : Nat}
    {v v1 : Unit} {c a b : Val} {x : Cmd} (hi : atomicWord i = some (op, h, d, fa, fb, q, l, st)) (hw : wellFormed i = true)
    (hp : ownPort 3 [d.toNat, fa.toNat, fb.toNat] = false) (hf : v.chFull h.toNat = false)
    (hv : if op = 12 then fetch 3 v [d.toNat, fa.toNat, fb.toNat] = .ok ([c, a, b], v1)
      else fetch 3 v [fa.toNat, fb.toNat] = .ok ([a, b], v1) ∧ c = ⟨0, false⟩)
    (hx : x = newCmd v1 (.catom op) h.toNat (s.now v) c.bits a.bits b.bits) :
    ∃ body, exec i s = .next (runWord (cpyWord (some h.toNat)) body s) ∧
      body (s.setUnit u v) u 3 = atomAct d.toNat (q == 1) (l == 1) st.toNat u (s.setUnit u v) v1 x (c.poison || a.poison || b.poison) := by
  refine ⟨_, atomicWord_means hi s, ?_⟩
  obtain ⟨hpd, hpa, hpb⟩ : ownPort 3 [d.toNat] = false ∧ ownPort 3 [fa.toNat] = false ∧ ownPort 3 [fb.toNat] = false := by
    simpa [ownPort] using hp
  subst hx
  rw [hw, hpd]
  by_cases hop : op = 12
  · subst hop
    rw [if_pos rfl] at hv
    have hnow : (s.setUnit u v).now v1 = s.now v := fetch_now s hv
    refine (copyBody_go hp hf hv).trans ?_
    rw [← hnow, ← poisonOf_triple]
    rfl
  · rw [if_neg hop] at hv
    obtain ⟨hv, rfl⟩ := hv
    have hnow : (s.setUnit u v).now v1 = s.now v := fetch_now s hv
    have hports : ownPort 3 [fa.toNat, fb.toNat] = false := by simpa [ownPort] using And.intro hpa hpb
    rw [if_neg hop]
    refine (copyBody_go hports hf hv).trans ?_
    simp only [if_neg hop]
    rw [← hnow, Bool.false_or, ← poisonOf_pair]
    rfl

section
variable {d scope u : Nat} {acq rel poison : Bool} {s : State} {v : Unit} {x : Cmd} (hroom : v.room 3 d = true)
include hroom

theorem atomAct_fault (h : x.valuesOk u = false ∨ x.spanOk = false) : atomAct d acq rel scope u s v x poison = .fault .access 0 := by
  rcases h with h | h <;> simp [atomAct, hroom, h]

variable (hv : x.valuesOk u = true) (hs : x.spanOk = true)
include hv hs

theorem atomAct_poisoned : atomAct d acq rel scope u s v x true = .go ({ s with free := s.free + 1 }.setUnit u
    (((v.landExt 3 d (x.t + v.atomLat x.a.toNat - 1) ⟨Config.freeWord s.free, true⟩).raise 3 (x.t + v.atomLat x.a.toNat - 1) flagPS).addCmd
      { x with poison := true, compAt := some (x.t + v.atomLat x.a.toNat - 1) })) .seq := by
  simp [atomAct, hroom, hv, hs]

theorem atomAct_clean {w : Unit} (hw : w = if isPort d then v.qReserve (outQueue 3 d) else v) : atomAct d acq rel scope u s v x false =
    issueCmd s u w { x with dest := if isPort d then some (.inr (outQueue 3 d)) else some (.inl (physReg (w.wk 3).wp d)) } acq rel scope false := by
  subst hw
  simp [atomAct, hroom, hv, hs]

end

/-! ### Invalidation (R196, R243) -/

/-- The entries of the translation cache that overlap `n` bytes at `va`. -/
def CacheEntry.overlaps (e : CacheEntry) (va n : Nat) : Bool := decide (0 < n) && decide (e.page.va < va + n) && decide (va < e.page.va + e.page.size)

theorem CacheEntry.overlaps_iff {e : CacheEntry} {va n : Nat} :
    e.overlaps va n = true ↔ 0 < n ∧ e.page.va < va + n ∧ va < e.page.va + e.page.size := by
  simp [CacheEntry.overlaps, and_assoc]

/-- Removing the entries that overlap a range sends walks for the resident ones. -/
theorem State.invalidate_eq {s : State} {u : Nat} {un : Unit} (hu : s.unit? u = some un) (va n t : Nat) :
    (s.setUnit u { un with cache := un.cache.filter fun e => !e.overlaps va n }).Queued (s.invalidate u va n t) := by
  unfold State.invalidate
  simp only [hu]
  exact State.Queued.foldl (fun s e => s.sendWalk_queued ..) _ _

/-- A `cinv` with its operands read. -/
theorem cinv_body {a b : BitVec 5} {s : State} {u : Nat} {v v1 : Unit} {x n : Val} (hw : wellFormed (.cinv a b) = true)
    (hp : ownPort 3 [a.toNat, b.toNat] = false) (hf : fetch 3 v [a.toNat, b.toNat] = .ok ([x, n], v1)) :
    ∃ body, exec (.cinv a b) s = .next (runWord (cpyWord none) body s) ∧ body (s.setUnit u v) u 3 =
      if x.bits.toNat / 2 ^ 48 ≠ 2 ^ 15 then .fault .access 0
      else if x.poison || n.poison then .go (s.setUnit u (v1.raise 3 (s.now v) flagPS)) .seq
      else .go ((s.setUnit u v1).invalidate u (x.bits.toNat % 2 ^ 48) n.bits.toNat (s.now v)) .seq := by
  refine ⟨_, rfl, ?_⟩
  simp only [State.unit?_setUnit_self, hw, hp, hf, State.setUnit_setUnit, State.now_setUnit, ← poisonOf_pair]
  rfl

/-! ### Marks and crossings (R197-R199) -/

/-- A `cmark` with its operand read: the mark enters behind the PS of a poisoned one (R197). -/
theorem cmark_body {h : BitVec 2} {a : BitVec 5} {s : State} {u : Nat} {v v1 : Unit} {x : Val} (hw : wellFormed (.cmark h a) = true)
    (hp : ownPort 3 [a.toNat] = false) (hc : v.chFull h.toNat = false) (hf : fetch 3 v [a.toNat] = .ok ([x], v1)) :
    ∃ body, exec (.cmark h a) s = .next (runWord (cpyWord (some h.toNat)) body s) ∧ body (s.setUnit u v) u 3 =
      .go (s.setUnit u ((if x.poison then v1.raise 3 (s.now v + 1) flagPS else v1).addCmd
        { newCmd v1 .cmark h.toNat (s.now v) 0 x.bits 0 with poison := x.poison })) .seq := by
  refine ⟨_, rfl, ?_⟩
  have hnow : (s.setUnit u v).now v1 = s.now v := fetch_now s hf
  have hpoison : poisonOf [x] = x.poison := by simp [poisonOf]
  rw [hw, copyBody_go hp hc hf]
  simp only [hpoison, hnow, State.setUnit_setUnit]
  rfl

/-- The command of a `cxrd` or `cxwr` of crossing `n`, the next sample of which is `k` (R198, R199). -/
def crossCmd (v : Unit) (op : CopyOp) (c t n k z : Nat) (d : W64) : Cmd := { newCmd v op c t d 0 0 with cross := n, sample := k, z }

/-- A `cxrd` by the crossing's consumer, with its operand read (R199). -/
theorem cxrd_body {h : BitVec 2} {d : BitVec 5} {n : BitVec 4} {s : State} {u : Nat} {v v1 : Unit} {x : Val} {xr : Crossing}
    (hw : wellFormed (.cxrd h d n) = true) (hp : ownPort 3 [d.toNat] = false) (hc : v.chFull h.toNat = false)
    (hf : fetch 3 v [d.toNat] = .ok ([x], v1)) (hx : find s.crossings (16 * dieOf u + n.toNat) = some xr) (harmed : xr.armed = true)
    (hcons : xr.cons = u) (hk : xr.consK = v.kernel) :
    ∃ body, exec (.cxrd h d n) s = .next (runWord (cpyWord (some h.toNat)) body s) ∧ body (s.setUnit u v) u 3 =
      issueCmd ({ s with crossings := put s.crossings (16 * dieOf u + n.toNat) { xr with rdN := xr.rdN + 1 } }.setUnit u v) u v1
        (crossCmd v1 .cxrd h.toNat (s.now v) (16 * dieOf u + n.toNat) xr.rdN xr.z x.bits) false false 0 x.poison := by
  refine ⟨_, rfl, ?_⟩
  have hnow : (s.setUnit u v).now v1 = s.now v := fetch_now s hf
  have hpoison : poisonOf [x] = x.poison := by simp [poisonOf]
  have hto : xr.to_ v1.kernel u = true := by
    obtain ⟨qs, rfl⟩ := fetch_unit hf
    simp [Crossing.to_, hcons, hk]
  rw [hw, copyBody_go hp hc hf]
  simp only [crossNo, State.setUnit_crossings, hx, harmed, hto, hpoison, hnow]
  rfl

/-- A `cxwr` by the crossing's producer, with its operand read: a poisoned one enters its sample at once (R198). -/
theorem cxwr_body {h : BitVec 2} {d : BitVec 5} {n : BitVec 4} {s : State} {u : Nat} {v v1 : Unit} {x : Val} {xr : Crossing} {cmd : Cmd}
    (hw : wellFormed (.cxwr h d n) = true) (hp : ownPort 3 [d.toNat] = false) (hc : v.chFull h.toNat = false)
    (hf : fetch 3 v [d.toNat] = .ok ([x], v1)) (hx : find s.crossings (16 * dieOf u + n.toNat) = some xr) (harmed : xr.armed = true)
    (hprod : xr.prod = u) (hk : xr.prodK = v.kernel)
    (hcmd : cmd = crossCmd v1 .cxwr h.toNat (s.now v) (16 * dieOf u + n.toNat) xr.wrN xr.z x.bits) (hv : cmd.valuesOk u = true) :
    ∃ body, exec (.cxwr h d n) s = .next (runWord (cpyWord (some h.toNat)) body s) ∧ body (s.setUnit u v) u 3 =
      if x.poison then
        .go ({ s with crossings := put s.crossings (16 * dieOf u + n.toNat) { xr with
          wrN := xr.wrN + 1, inbox := xr.inbox ++ [(xr.wrN, s.now v + 1 + v1.lat.sd, List.replicate xr.z 0, true)] } }.setUnit u
            ((v1.addCmd { cmd with poison := true }).raise 3 (s.now v + 1) flagPS)) .seq
      else
        issueCmd ({ s with crossings := put s.crossings (16 * dieOf u + n.toNat) { xr with wrN := xr.wrN + 1 } }.setUnit u v) u v1 cmd false false 0
          false := by
  refine ⟨_, rfl, ?_⟩
  have hnow : (s.setUnit u v).now v1 = s.now v := fetch_now s hf
  have hpoison : poisonOf [x] = x.poison := by simp [poisonOf]
  have hfrom : xr.from_ v1.kernel u = true := by
    obtain ⟨qs, rfl⟩ := fetch_unit hf
    simp [Crossing.from_, hprod, hk]
  subst hcmd
  rw [hw, copyBody_go hp hc hf]
  simp only [crossNo, State.setUnit_crossings, hx, harmed, hfrom, hpoison, hnow]
  refine (if_neg (show ¬(!Cmd.valuesOk _ u) = true by rw [Bool.not_eq_true, Bool.not_eq_false']; exact hv)).trans ?_
  cases x.poison with
  | false => rfl
  | true =>
    refine congrArg (Act.go · .seq) ?_
    simp only [State.setUnit, put_put]
    rfl

end Sys2Proof.Machine

open Sys2Proof Sys2Proof.Machine

/-- Settles O22: the body of each word is `issueCmd` of its command, which faults, enters a poisoned command, or enters a clean one. -/
theorem copyWordsIssue : Obligations.CopyWordsIssue := by
  refine ⟨?_, ?_⟩
  · intro i op h srcs q l st s u v v1 d a b x hi hw hr hl hp hf hfetch hx x' hx'
    obtain ⟨hA, hB, hM⟩ := moveWord_op hi
    obtain ⟨body, he, hb⟩ := moveWord_body (u := u) hi hw hp hf hfetch hx hx'
    obtain ⟨index, hnew⟩ := indexed_eq x op (v1.indexList x.t x.idx x.count)
    rw [hnew] at hx'
    rw [hx] at hx'
    have hsame : SamePlace v v1 3 := .of_fetch hfetch
    have hlen : h.toNat < v1.chans.length := by rw [fetch_chans hfetch, hl]; exact h.isLt
    have hop : x'.op = op := by rw [hx']; rfl
    have hg : ∀ w, ((s.setUnit u v).withPages u w x').groupsOk = true := fun w => State.withPages_groupsOk (hop ▸ hA) (hop ▸ hB)
    refine ⟨fun hbad => ?_, fun hv hs hpoison => ?_, fun hv hs hpoison hgather hbad => ?_, fun hv hs hpoison hgood => ?_⟩
    · exact Faults.of_issueCmd hr he hb (hbad.imp_right .inl)
    · rw [hpoison, Bool.not_true, Bool.and_false, Bool.true_or] at hb
      subst hx'
      obtain ⟨v2, hin, hent⟩ := IssuesIn.poisoned hr he hb hsame hlen rfl rfl hv hs (hg _) rfl
      exact ⟨_, v2, hin, hent, rfl, rfl⟩
    · have hlist : v1.listBad x = true := by rw [Unit.listBad, hbad, hx]; simpa [newCmd] using hgather
      rw [hpoison, hlist] at hb
      subst hx'
      obtain ⟨v2, hin, hent⟩ := IssuesIn.poisoned hr he hb (hsame.later ..) hlen rfl rfl hv hs (hg _) rfl
      exact ⟨_, v2, hin, hent, rfl, rfl⟩
    · have hlist : v1.listBad x = false := by
        rw [Unit.listBad, hx]
        rcases hgood with rfl | hgood
        · rfl
        · rw [hx] at hgood; rw [hgood, Bool.and_false]
      rw [hpoison, hlist] at hb
      subst hx'
      obtain ⟨y, v2, walks, queues, hin, hent, hy⟩ := IssuesIn.clean hr he hb hsame hlen rfl rfl hv hs (hg _) rfl hM rfl
      refine ⟨y, v2, walks, queues, hin, hent, ?_⟩
      rw [hy]
      exact ⟨rfl, rfl, rfl, rfl, rfl, rfl, rfl, rfl, rfl, rfl, rfl⟩
  · intro i isB h f fa fb q l st s u v v1 a b x hi hw hr hl hp hf hfetch hx
    obtain ⟨body, he, hb⟩ := fillWord_body (u := u) hi hw hp hf hfetch hx
    have hsame : SamePlace v v1 3 := .of_fetch hfetch
    have hlen : h.toNat < v1.chans.length := by rw [fetch_chans hfetch, hl]; exact h.isLt
    have hM : x.op ≠ .cmark := by rw [hx]; cases isB <;> nofun
    refine ⟨fun hbad => Faults.of_issueCmd hr he hb hbad, fun hv hs hg hpoison => ?_, fun hv hs hg hpoison => ?_⟩
    · subst hx
      obtain ⟨v2, hin, hent⟩ := IssuesIn.poisoned hr he hb hsame hlen rfl rfl hv hs hg hpoison
      exact ⟨_, v2, hin, hent, rfl, rfl, rfl⟩
    · subst hx
      obtain ⟨y, v2, walks, queues, hin, hent, hy⟩ := IssuesIn.clean hr he hb hsame hlen rfl rfl hv hs hg rfl hM hpoison
      refine ⟨y, v2, walks, queues, hin, hent, ?_⟩
      rw [hy]
      exact ⟨rfl, rfl, rfl, rfl, rfl, rfl, rfl, rfl, rfl, rfl⟩

/-- Settles O23: a poisoned atomic lands its result in its own cycle; any other is `issueCmd` of its command. -/
theorem atomicWordsIssue : Obligations.AtomicWordsIssue := by
  intro i op h d fa fb q l st s u v v1 c a b x hi hw hr hl hp hf hfetch hx hroom
  obtain ⟨body, he, hb⟩ := atomicWord_body (u := u) hi hw hp hf hfetch hx
  obtain ⟨fs, vs, hread⟩ : ∃ fs vs, fetch 3 v fs = .ok (vs, v1) := by
    split at hfetch
    · exact ⟨_, _, hfetch⟩
    · exact ⟨_, _, hfetch.1⟩
  have hsame : SamePlace v v1 3 := .of_fetch hread
  have hlen : h.toNat < v1.chans.length := by rw [fetch_chans hread, hl]; exact h.isLt
  refine ⟨fun hbad => .of_body hr he (hb.trans (atomAct_fault hroom hbad)), fun hv hs hpoison => ?_, fun hv hs hpoison => ?_⟩
  · rw [hpoison, atomAct_poisoned hroom hv hs] at hb
    subst hx
    have hchans : ∀ due z, ((v1.landExt 3 d.toNat due z).raise 3 due flagPS).chans = v1.chans := fun due z => by
      rw [Unit.raise_chans, Unit.landExt_chans]
    have hent := Entered.alone (v := (v1.landExt 3 d.toNat (s.now v + v1.atomLat a.bits.toNat - 1) ⟨Config.freeWord s.free, true⟩).raise 3
        (s.now v + v1.atomLat a.bits.toNat - 1) flagPS)
      (x := { newCmd v1 (.catom op) h.toNat (s.now v) c.bits a.bits b.bits with
        poison := true, compAt := some (s.now v + v1.atomLat a.bits.toNat - 1) })
      (by rw [hchans]; exact hlen) rfl (by rw [Unit.ch_congr (hchans _ _)]; rfl) (.inl rfl)
    refine ⟨_, _, Config.freeWord s.free, .of_entered hr he (hb.trans ?_) ((hsame.landExt ..).raise ..) hent, hent, rfl, rfl⟩
    simp [State.setUnit, newCmd]
  · obtain ⟨w, hreserve⟩ : ∃ w, w = if isPort d.toNat then v1.qReserve (outQueue 3 d.toNat) else v1 := ⟨_, rfl⟩
    have hkept : w.chans = v1.chans ∧ w.lat = v1.lat ∧ w.walkers = v1.walkers := by
      rw [hreserve]; split <;> exact ⟨rfl, rfl, rfl⟩
    obtain ⟨hchans, hlat, hwalkers⟩ := hkept
    have hwk : w.wk 3 = v.wk 3 := by rw [← fetch_wk hread]; unfold Unit.wk; rw [hwalkers]
    rw [hpoison, atomAct_clean hroom hv hs hreserve, hwk] at hb
    rw [← hreserve]
    subst hx
    obtain ⟨y, v2, walks, queues, hin, hent, hy⟩ := IssuesIn.clean hr he hb (hsame.withWalkers hwalkers) (by rw [hchans]; exact hlen) rfl
      (by rw [Unit.ch_congr hchans]; rfl) hv hs (State.withPages_groupsOk nofun nofun) rfl nofun rfl
    have heff : acquireEff w (s.now v) (q == 1) st.toNat = acquireEff v1 (s.now v) (decide (q = 1)) st.toNat := by
      unfold acquireEff; rw [hlat]; rfl
    refine ⟨y, v2, walks, queues, hin, heff ▸ hent, ?_⟩
    rw [hy]
    refine ⟨rfl, rfl, rfl, rfl, rfl, rfl, rfl, rfl, rfl, rfl, ?_⟩
    dsimp only
    split <;> rfl

/-- Settles O24: `cbfx` and `cinv` by their checks, and the words that enter a command by the body of each. -/
theorem otherCopyWordsIssue : Obligations.OtherCopyWordsIssue := by
  refine ⟨?_, ?_, ?_, ?_⟩
  · intro h a s u v v1 x hw hr hp hf
    refine ⟨fun hbad => .of_body hr rfl ?_, fun hok hpoison => .of_seq hr rfl ?_ ((SamePlace.of_fetch hf).raise ..), fun hok hpoison =>
      .of_seq hr rfl ?_ ((SamePlace.of_fetch hf).withWalkers rfl)⟩
    · simp [hw, hp, hf, arg, hbad]
    · simp [hw, hp, hf, arg, poisonOf, hok, hpoison]
    · simp [hw, hp, hf, arg, poisonOf, hok, hpoison]
  · intro a b s u v v1 x n hw hr hp hf
    obtain ⟨body, he, hb⟩ := cinv_body (u := u) (s := s) hw hp hf
    refine ⟨fun hbad => .of_body hr he (hb.trans (if_pos hbad)), fun hok hpoison => ?_, fun hok hpoison => ?_⟩
    · rw [if_neg (not_not_intro hok), hpoison] at hb
      exact .of_seq hr he hb ((SamePlace.of_fetch hf).raise ..)
    · obtain ⟨walks, queues, hq⟩ := State.invalidate_eq (State.unit?_setUnit_self s u v1) (x.bits.toNat % 2 ^ 48) n.bits.toNat (s.now v)
      rw [if_neg (not_not_intro hok), hpoison, hq, State.setUnit_setUnit] at hb
      have hcache : v1.cache = v.cache := by obtain ⟨qs, rfl⟩ := fetch_unit hf; rfl
      have hplace := (SamePlace.of_fetch (j := 3) hf).withWalkers (w' := { v1 with
        cache := v1.cache.filter fun e => !e.overlaps (x.bits.toNat % 2 ^ 48) n.bits.toNat }) rfl
      refine ⟨walks, queues, _, .of_body hr he hb hplace.count hplace.idx (.inl (hplace.stopped.trans hr.stopped)) nofun, fun e h => ?_, fun e h => ?_⟩
      · rw [hcache] at h
        exact (List.mem_filter.mp h).1
      · rw [hcache, List.mem_filter, ← CacheEntry.overlaps_iff]
        simp [h]
  · intro h a s u v v1 x hw hr hl hp hc hf
    have hlen : h.toNat < v1.chans.length := by rw [fetch_chans hf, hl]; exact h.isLt
    obtain ⟨body, he, hb⟩ := cmark_body (u := u) (s := s) hw hp hc hf
    cases hx : x.poison with
    | false =>
      rw [hx] at hb
      have hent := Entered.alone (v := v1) (x := { newCmd v1 .cmark h.toNat (s.now v) 0 x.bits 0 with poison := false }) hlen rfl rfl (.inr rfl)
      exact ⟨_, _, .of_entered hr he hb (.of_fetch hf) hent, hent, rfl, rfl, rfl⟩
    | true =>
      rw [hx, if_pos rfl, Unit.raise_flagPS] at hb
      have hent := Entered.poisoned (v := v1) (x := { newCmd v1 .cmark h.toNat (s.now v) 0 x.bits 0 with poison := true }) hlen rfl rfl (.inr rfl) (s.now v)
      rw [Unit.raise_flagPS] at hent
      exact ⟨_, _, .of_entered hr he hb (.of_fetch hf) hent, hent, rfl, rfl, rfl⟩
  · intro h d n s u v v1 x xr hr hl hp hc hf hx harmed
    have hsame : SamePlace v v1 3 := .of_fetch hf
    have hlen : h.toNat < v1.chans.length := by rw [fetch_chans hf, hl]; exact h.isLt
    refine ⟨fun hw hcons hk hpoison hv hs => ?_, fun hw hprod hk hpoison hv => ?_, fun hw hcons hk hpoison hv hs => ?_,
      fun hw hprod hk hpoison hv hs => ?_⟩
    · obtain ⟨body, he, hb⟩ := cxrd_body hw hp hc hf hx harmed hcons hk
      obtain ⟨v2, hin, hent⟩ := IssuesIn.poisoned hr he hb hsame hlen rfl rfl hv hs (State.withPages_groupsOk nofun nofun) hpoison
      exact ⟨_, v2, hin, hent, rfl, rfl, rfl⟩
    · obtain ⟨body, he, hb⟩ := cxwr_body hw hp hc hf hx harmed hprod hk rfl hv
      rw [if_pos hpoison] at hb
      have hent := Entered.poisoned (x := { crossCmd v1 .cxwr h.toNat (s.now v) (16 * dieOf u + n.toNat) xr.wrN xr.z x.bits with poison := true })
        hlen rfl rfl (.inl rfl) (s.now v)
      exact ⟨_, _, .of_entered hr he hb hsame hent, hent, rfl, rfl, rfl⟩
    · obtain ⟨body, he, hb⟩ := cxrd_body hw hp hc hf hx harmed hcons hk
      obtain ⟨y, v2, walks, queues, hin, hent, hy⟩ := IssuesIn.clean hr he hb hsame hlen rfl rfl hv hs (State.withPages_groupsOk nofun nofun) rfl nofun
        hpoison
      refine ⟨y, v2, walks, queues, hin, hent, ?_⟩
      rw [hy]
      exact ⟨rfl, rfl, rfl, rfl, rfl⟩
    · obtain ⟨body, he, hb⟩ := cxwr_body hw hp hc hf hx harmed hprod hk rfl hv
      rw [if_neg (by simp [hpoison])] at hb
      obtain ⟨y, v2, walks, queues, hin, hent, hy⟩ := IssuesIn.clean hr he hb hsame hlen rfl rfl hv hs (State.withPages_groupsOk nofun nofun) rfl nofun rfl
      refine ⟨y, v2, walks, queues, hin, hent, ?_⟩
      rw [hy]
      exact ⟨rfl, rfl, rfl, rfl, rfl⟩
end

