-- ==== Sys2Proof/Proofs/Translations.lean ====
section
/-! PROOFS. Translations and table walks as they end (O37). -/

namespace Sys2Proof.Machine

/-! ### The walk of the tables (R238, R240) -/

/-- The tables are read in device memory, through the package's route table. -/
theorem walkTables_congr {s t : State} (hd : t.dram = s.dram) (hb : t.boot = s.boot) (va level table : Nat) :
    walkTables t va level table = walkTables s va level table := by
  have hnat : ∀ a, t.dramNat a 16 = s.dramNat a 16 := fun a => by unfold State.dramNat; rw [hd]
  induction level generalizing table with
  | zero => unfold walkTables; simp only [hnat, hb]
  | succ n ih => unfold walkTables; simp only [hnat, hb, ih]

theorem State.walk_congr {s t : State} (hd : t.dram = s.dram) (hb : t.boot = s.boot) (hv : t.vfs = s.vfs) (part va : Nat) :
    t.walk part va = s.walk part va := by
  unfold State.walk
  rw [hv]
  split
  · exact walkTables_congr hd hb va 3 _
  · rfl

/-- What the tables say does not depend on the walks that are under way. -/
theorem State.walk_walks (s : State) (walks : List (Nat × Walk)) (part va : Nat) : { s with walks }.walk part va = s.walk part va :=
  State.walk_congr rfl rfl rfl part va

/-! ### The translation cache (R242) -/

/-- A page that finds room, and no resident entry of its own that it may not replace, enters the cache; the entries of other pages stay. -/
theorem Unit.fillCache_room {un : Unit} {page : Page} {resident : Bool} (ready : Nat) (hroom : un.cache.length < 512)
    (hres : resident = false → ∀ e ∈ un.cache, e.page.va = page.va → e.page.size = page.size → e.resident = false) :
    un.fillCache page resident ready = { un with cache := (un.fillCache page resident ready).cache, seq := un.seq + 1 } ∧
    (∃ e ∈ (un.fillCache page resident ready).cache, e.page = page ∧ e.resident = resident ∧ e.ready = ready) ∧
    ∀ e ∈ un.cache, (e.page.va ≠ page.va ∨ e.page.size ≠ page.size) → e ∈ (un.fillCache page resident ready).cache := by
  have hkeep : (!resident && un.cache.any fun x => (x.page.va == page.va && x.page.size == page.size) && x.resident) = false := by
    cases resident with
    | true => rfl
    | false =>
      rw [Bool.not_false, Bool.true_and, List.any_eq_false]
      intro e he
      have := hres rfl e he
      simp only [Bool.and_eq_true, beq_iff_eq]
      rintro ⟨⟨hva, hsize⟩, hr⟩
      rw [this hva hsize] at hr
      cases hr
  have hlen : (un.cache.filter fun e => !(e.page.va == page.va && e.page.size == page.size)).length < 512 :=
    Nat.lt_of_le_of_lt (List.length_filter_le _ _) hroom
  have hfill : un.fillCache page resident ready = { un with
      cache := (un.cache.filter fun e => !(e.page.va == page.va && e.page.size == page.size)) ++ [⟨page, resident, ready, un.seq⟩], seq := un.seq + 1 } := by
    unfold Unit.fillCache
    simp only [hkeep, if_pos hlen, Bool.false_eq_true, if_false]
  rw [hfill]
  refine ⟨rfl, ⟨_, List.mem_append_right _ List.mem_cons_self, rfl, rfl, rfl⟩, fun e he hne => List.mem_append_left _ (List.mem_filter.mpr ⟨he, ?_⟩)⟩
  simpa [imp_iff_not_or] using hne

/-! ### Walks that end (R242, R243) -/

/-- The walks of cluster `c` that have ended. -/
def State.walksDue (s : State) (c : Nat) : List (Nat × Walk) :=
  s.walks.filter fun w => w.1 == c && (match s.unit? w.2.unit with | some un => decide (w.2.ends ≤ s.now un) | none => true)

/-- The end of one walk: what it finds enters the cache of its unit. -/
def State.endWalk (s : State) (w : Walk) : State :=
  match s.unit? w.unit with
  | none => s
  | some un =>
    match (s.walk un.part w.va).2 with
    | some page => s.setUnit w.unit (un.fillCache page w.resident (w.ends + 1))
    | none => s

theorem tableWalkComplete_eq (s : State) (c : Nat) : exec (.tableWalkComplete c) s =
    .next ((s.walksDue c).foldl (fun s w => s.endWalk w.2) { s with walks := s.walks.filter fun w => !(s.walksDue c).contains w }) := rfl

theorem State.endWalk_page {s : State} {w : Walk} {un : Unit} {page : Page} (hu : s.unit? w.unit = some un)
    (hp : (s.walk un.part w.va).2 = some page) : s.endWalk w = s.setUnit w.unit (un.fillCache page w.resident (w.ends + 1)) := by
  unfold State.endWalk
  simp only [hu, hp]

theorem residentRewalk_eq {s : State} {u : Nat} {w : Nat × Walk} {un : Unit} {page : Page} (hu : s.unit? u = some un)
    (hw : (s.walks.find? fun w => w.2.unit == u && w.2.resident && decide (w.2.ends ≤ s.now un)) = some w)
    (hp : (s.walk un.part w.2.va).2 = some page) : exec (.residentRewalk u) s =
      .next ({ s with walks := s.walks.filter fun v => v != w }.setUnit u (un.fillCache page true (w.2.ends + 1))) := by
  have hexec : exec (.residentRewalk u) s = execResidentRewalk u s := rfl
  have hpage : (State.walk { s with walks := s.walks.filter fun v => v != w } un.part w.2.va).2 = some page := by
    rw [State.walk_walks, hp]
  rw [hexec, execResidentRewalk]
  simp only [hu, hw, hpage]
  rw [State.modUnit_of_some _ (show State.unit? { s with walks := s.walks.filter fun v => v != w } u = some un from hu)]

/-! ### The steps of other translations (R213, R218) -/

theorem State.trigXlate_none {s : State} {u : Nat} {un : Unit} (h : ∀ g ∈ un.trigs, g.xlAt ≠ some (s.now un)) : s.trigXlate u un = s := by
  have hdue : (un.trigs.zipIdx.filter fun t => t.1.xlAt == some (s.now un)) = [] := by
    rw [List.filter_eq_nil_iff]
    intro t ht
    simpa using h t.1 (List.fst_mem_of_mem_zipIdx ht)
  unfold State.trigXlate
  simp only [hdue, List.foldl_nil]

theorem State.ctxXlate_none {s : State} {u : Nat} {un : Unit} (h : un.ctx = none) : s.ctxXlate u un = s := by
  unfold State.ctxXlate
  simp only [h]

/-- `TRANSLATION_STEP` where the command's translation alone ends (R182). -/
theorem translationStep_alone {s : State} {u c : Nat} {un v : Unit} (hu : s.unit? u = some un) (hcmd : s.cmdXlate u c un = s.setUnit u v)
    (hother : c ≠ 0 ∨ v.ctx = none ∧ ∀ g ∈ v.trigs, g.xlAt ≠ some (s.now v)) : exec (.translationStep u c) s = .next (s.setUnit u v) := by
  have hexec : exec (.translationStep u c) s = execTranslationStep u c s := rfl
  rw [hexec, execTranslationStep]
  simp only [hu, hcmd]
  rcases hother with hc | ⟨hctx, htrig⟩
  · rw [if_pos hc]
  · have htrigs : (s.setUnit u v).trigXlate u v = s.setUnit u v := State.trigXlate_none htrig
    simp only [State.unit?_setUnit_self, htrigs, State.ctxXlate_none hctx, ite_self]

end Sys2Proof.Machine

open Sys2Proof Sys2Proof.Machine

/-- Settles O37: the step of a command's translation, and the fills of the caches by walks that end. -/
theorem translationsEnd : Obligations.TranslationsEnd := by
  refine ⟨?_, ?_, ?_⟩
  · intro s u c un x hu hx hother
    have hexec : exec (.translationStep u c) s = execTranslationStep u c s := rfl
    refine ⟨fun hok => ?_, fun cause a hfault hc => ?_⟩
    · refine translationStep_alone hu ?_ hother
      unfold State.cmdXlate
      simp only [hx, hok]
    · rw [hexec, execTranslationStep]
      simp only [hu, if_pos hc, State.cmdXlate, hx, hfault]
  · intro s c w un page hu hdue hpage hroom hres
    have hdue' : s.walksDue c = [(c, w)] := hdue
    have hwalks : (s.walks.filter fun v => !([(c, w)].contains v)) = s.walks.filter fun v => v != (c, w) :=
      List.filter_congr fun v _ => by rw [List.contains_cons, List.contains_nil, Bool.or_false]; rfl
    obtain ⟨hunit, hentry, hothers⟩ := un.fillCache_room (w.ends + 1) hroom hres
    refine ⟨_, un.fillCache page w.resident (w.ends + 1), ?_, rfl, hunit, hentry, hothers⟩
    rw [tableWalkComplete_eq, hdue', hwalks, List.foldl_cons, List.foldl_nil]
    exact congrArg _ (State.endWalk_page hu (by rw [State.walk_walks, hpage]))
  · intro s u w un page hu hw hpage hroom
    obtain ⟨hunit, hentry, -⟩ := un.fillCache_room (page := page) (resident := true) (w.2.ends + 1) hroom nofun
    exact ⟨_, residentRewalk_eq hu hw hpage, hunit, hentry⟩
end

