-- ==== Sys2Proof/Proofs/Beats.lean ====
section
/-! PROOFS. Beats of the copy engine as they issue, read and write (O38, O39). -/

namespace Sys2Proof.Machine

/-! ### What a beat's issue changes beyond its unit (R236, R316) -/

/-- From `s` to `t` only free values have been drawn, requests have entered queues, and flits wait at the ports. -/
def State.Draws (s t : State) : Prop := ∃ free walks queues txq, t = { s with free, walks, queues, txq }

theorem State.Draws.refl (s : State) : s.Draws s := ⟨_, _, _, _, rfl⟩

theorem State.Draws.trans {r s t : State} (h : r.Draws s) (g : s.Draws t) : r.Draws t := by
  obtain ⟨_, _, _, _, rfl⟩ := h
  obtain ⟨f, w, q, x, rfl⟩ := g
  exact ⟨f, w, q, x, rfl⟩

theorem State.Draws.foldl {α : Type} {f : State → α → State} (hf : ∀ (s : State) a, s.Draws (f s a)) (l : List α) (s : State) : s.Draws (l.foldl f s) := by
  induction l generalizing s with
  | nil => exact .refl s
  | cons a l ih => exact (hf s a).trans (ih _)

theorem State.Queued.draws {s t : State} (h : s.Queued t) : s.Draws t := by
  obtain ⟨w, q, rfl⟩ := h
  exact ⟨s.free, w, q, s.txq, rfl⟩

theorem State.queueBeat_queued (s : State) (u : Nat) (p : Plan) (t : Frac) : s.Queued (s.queueBeat u p t).2 := by
  refine State.Queued.foldl_snd (fun acc q => ?_) p.touched (false, s)
  exact acc.2.queuePiece_queued u q t

theorem State.request_draws (s : State) (u : Nat) (un : Unit) (type chan tid pkg pa n : Nat) (operand : W64) (data : List Byte) :
    s.Draws (s.request u un type chan tid pkg pa n operand data) := ⟨s.free, s.walks, s.queues, _, rfl⟩

theorem State.requestReads_draws (s : State) (u : Nat) (un : Unit) (x : Cmd) (l : List Piece) :
    s.Draws (l.foldl (fun s q => match q.space with | .remote pkg => s.request u un 1 x.chan x.tid pkg q.addr q.n 0 [] | _ => s) s) := by
  refine .foldl (fun s q => ?_) l s
  split
  · exact s.request_draws ..
  · exact .refl s

theorem State.requestAtomic_draws (s : State) (u : Nat) (un : Unit) (x : Cmd) (k : Sink) (operand : W64) (data : List Byte) :
    s.Draws (match k with
      | .atomic q => (match q.space with | .remote pkg => s.request u un 3 x.chan x.tid pkg q.addr q.n operand data | _ => s)
      | _ => s) := by
  split
  · split
    · exact s.request_draws ..
    · exact .refl s
  · exact .refl s

/-- Noting a covered write on a channel changes no beat, no byte and no walker. -/
theorem Unit.noteCovered_beats (un : Unit) (c t : Nat) (covered : Option Nat) (k : Nat) (f : Chan → Chan) :
    ((match covered with | some at_ => un.noteCovered c t at_ | none => un).setCh k f).beats = un.beats := by cases covered <;> rfl

theorem Unit.noteCovered_store (un : Unit) (c t : Nat) (covered : Option Nat) (k : Nat) (f : Chan → Chan) :
    ((match covered with | some at_ => un.noteCovered c t at_ | none => un).setCh k f).store = un.store := by cases covered <;> rfl

theorem Unit.noteCovered_walkers (un : Unit) (c t : Nat) (covered : Option Nat) (k : Nat) (f : Chan → Chan) :
    ((match covered with | some at_ => un.noteCovered c t at_ | none => un).setCh k f).walkers = un.walkers := by cases covered <;> rfl

/-- A beat that issues stands behind the unit's others. -/
theorem State.issueBeat_spec (s : State) (u : Nat) (un : Unit) (x : Cmd) (p : Plan) :
    ∃ s' un' b, s.Draws s' ∧ (s'.setUnit u un').Draws (s.issueBeat u un x p) ∧ un'.beats = un.beats ++ [b] ∧ un'.store = un.store ∧
      un'.walkers = un.walkers ∧ b.chan = x.chan ∧ b.tid = x.tid ∧ b.k = x.next ∧ b.u = s.now un ∧ b.plan = p ∧
      b.readAt = un.readyAt u (s.now un) p ∧ b.got = false ∧ b.performed = false := by
  unfold State.issueBeat
  dsimp only
  generalize hq : State.queueBeat _ u p _ = e
  have h1 : s.Draws e.2 := by
    rw [← hq]
    exact State.Draws.trans ⟨_, s.walks, s.queues, s.txq, rfl⟩ (State.queueBeat_queued ..).draws
  have h2 : s.Draws (if e.1 = true then (Config.congested e.2.free, { e.2 with free := e.2.free + 1 }) else (false, e.2)).2 := by
    split
    · exact h1.trans ⟨_, e.2.walks, e.2.queues, e.2.txq, rfl⟩
    · exact h1
  exact ⟨_, _, _, h2, (State.requestAtomic_draws ..).trans (State.requestReads_draws ..), Unit.noteCovered_beats ..,
    Unit.noteCovered_store .., Unit.noteCovered_walkers .., rfl, rfl, rfl, rfl, rfl, rfl, rfl, rfl⟩

/-- What a draw leaves: every unit, and every memory. -/
theorem State.Draws.frame {s t : State} (h : s.Draws t) :
    (∀ j, t.unit? j = s.unit? j) ∧ t.dram = s.dram ∧ t.clusters = s.clusters ∧ t.dies = s.dies ∧ t.host = s.host := by
  obtain ⟨_, _, _, _, rfl⟩ := h
  exact ⟨fun _ => rfl, rfl, rfl, rfl, rfl⟩

/-- A command that is no fill issues its next beat as soon as nothing holds it and its paths and bank ports are free (R179). -/
theorem State.tryBeat_issued {s : State} {u c : Nat} {un : Unit} {x : Cmd} (hu : s.unit? u = some un) (hx : (un.ch c).current = some x)
    (hfrom : x.from_ ≤ s.now un) (hxl : x.xlFault = none) (hheld : (un.ch c).held (s.now un) x = false) (hsteps : (s.region un.region).steps = 0)
    (ha : x.op ≠ .cfillA) (hb : x.op ≠ .cfillB) (hfits : un.fits (s.now un) (x.plan u x.next) = true)
    (hbanks : un.banksFree ((x.plan u x.next).banks (s.now un) (un.readyAt u (s.now un) (x.plan u x.next))) = true) :
    s.tryBeat u c = .issued (s.issueBeat u un x (x.plan u x.next)) := by
  have hfill : (x.op == .cfillA || x.op == .cfillB) = false := by simp [ha, hb]
  simp [State.tryBeat, hu, hx, hfrom, hxl, hheld, hsteps, hfill, hfits, hbanks]

/-- A channel whose one beat issues and whose next cannot. -/
theorem State.channelBeats_one {s t : State} {u c : Nat} (n : Nat) (h : s.tryBeat u c = .issued t) (hstop : t.tryBeat u c = .stop) :
    State.channelBeats u c (n + 2) s = (t, false) := by
  simp [State.channelBeats, h, hstop]

/-- `COPY_BEAT_ISSUE` of a unit that runs, in an issue cycle of its engine (R179). -/
theorem execCopyBeatIssue_live {s t : State} {u c : Nat} {un : Unit} (hu : s.unit? u = some un) (hctx : un.ctx = none) (hrun : un.run = .running)
    (hopen : (s.region un.region).openCyc = true) (hissue : isIssue (un.divisor 3) (s.now un) = true) (hstage : s.stage ≠ stageFault)
    (hbeats : State.channelBeats u c 64 s = (t, false)) : execCopyBeatIssue u c s = .next t := by
  simp [execCopyBeatIssue, State.live, hu, hctx, hrun, hopen, hissue, hstage, hbeats]

/-- What the issue of a beat makes of the whole state: the beat stands behind the unit's others, and no byte and no other unit changes. -/
theorem State.issueBeat_frame (s : State) (u : Nat) (un : Unit) (x : Cmd) (p : Plan) :
    ∃ un' b, (s.issueBeat u un x p).unit? u = some un' ∧ un'.beats = un.beats ++ [b] ∧ b.chan = x.chan ∧ b.tid = x.tid ∧
      b.k = x.next ∧ b.u = s.now un ∧ b.plan = p ∧ b.readAt = un.readyAt u (s.now un) p ∧ b.got = false ∧ b.performed = false ∧
      (∀ j, j ≠ u → (s.issueBeat u un x p).unit? j = s.unit? j) ∧ un'.store = un.store ∧ (∀ k, un'.wk k = un.wk k) ∧
      (s.issueBeat u un x p).dram = s.dram ∧ (s.issueBeat u un x p).clusters = s.clusters ∧ (s.issueBeat u un x p).dies = s.dies ∧
      (s.issueBeat u un x p).host = s.host := by
  obtain ⟨s', un', b, hs, ht, hbeats, hstore, hwalkers, hchan, htid, hk, hu, hplan, hread, hgot, hperf⟩ := s.issueBeat_spec u un x p
  obtain ⟨hunits, hdram, hclusters, hdies, hhost⟩ := ht.frame
  obtain ⟨hunits', hdram', hclusters', hdies', hhost'⟩ := hs.frame
  refine ⟨un', b, by rw [hunits, State.unit?_setUnit_self], hbeats, hchan, htid, hk, hu, hplan, hread, hgot, hperf, fun j hj => ?_, hstore,
    fun k => ?_, hdram.trans hdram', hclusters.trans hclusters', hdies.trans hdies', hhost.trans hhost'⟩
  · rw [hunits, State.unit?_setUnit, if_neg hj, hunits']
  · unfold Unit.wk
    rw [hwalkers]

end Sys2Proof.Machine

open Sys2Proof Sys2Proof.Machine

/-- Settles O38: the channel's one beat of the cycle issues, by what the issue of a beat leaves. -/
theorem beatsIssue : Obligations.BeatsIssue := by
  intro s u c un x p hu _ hrun hstage hopen hissue hctx hx hchan hfrom hxl hheld hsteps ha hb hp hfits hbanks hone
  subst hp
  have hissued := State.tryBeat_issued hu hx hfrom hxl hheld hsteps ha hb hfits hbanks
  obtain ⟨un', b, hun, hbeats, hbchan, hrest⟩ := s.issueBeat_frame u un x (x.plan u x.next)
  exact ⟨_, un', b, execCopyBeatIssue_live hu hctx hrun hopen hissue hstage (State.channelBeats_one 62 hissued (hone _ hissued)), hun, hbeats,
    hbchan.trans hchan, hrest⟩
end

