-- ==== Sys2Proof/Proofs/BeatMoves.lean ====
section
/-! PROOFS. The bytes that copy beats take and write (O39). -/

namespace Sys2Proof.Machine

/-! ### A write among the writes of a store (R90, R181) -/

theorem WriteRec.over_cons (w : WriteRec) (c : WCell) (cs : List WCell) (a : Nat) (b : Byte) :
    { w with cells := c :: cs }.over a b = { w with cells := cs }.over a (if c.addr = a then (b &&& ~~~c.mask) ||| (c.val &&& c.mask) else b) := rfl

/-- A write leaves the bytes beside its own. -/
theorem WriteRec.over_outside (w : WriteRec) {x a : Nat} {bs : List Byte} (h : a < x ∨ x + bs.length ≤ a) (b : Byte) :
    { w with cells := cellsAt x bs }.over a b = b := by
  induction bs generalizing x with
  | nil => rfl
  | cons c bs ih =>
    have hlen : (c :: bs).length = bs.length + 1 := rfl
    have hne : (cell x c).addr ≠ a := show x ≠ a by omega
    rw [cellsAt, WriteRec.over_cons, if_neg hne]
    exact ih (by omega)

/-- A whole-byte cell leaves its own byte. -/
theorem cell_over (a : Nat) (b c : Byte) : (b &&& ~~~(cell a c).mask) ||| ((cell a c).val &&& (cell a c).mask) = c := by
  have hmask : (0xFF : Byte) = BitVec.allOnes 8 := by decide
  simp only [cell, hmask, BitVec.not_allOnes, BitVec.and_zero, BitVec.zero_or, BitVec.and_allOnes]

/-- A write of whole bytes leaves its own. -/
theorem WriteRec.over_inside (w : WriteRec) {x j : Nat} {bs : List Byte} (h : j < bs.length) (b : Byte) :
    { w with cells := cellsAt x bs }.over (x + j) b = bs.getD j 0 := by
  induction bs generalizing x j b with
  | nil => exact absurd h (Nat.not_lt_zero j)
  | cons c bs ih =>
    rw [cellsAt, WriteRec.over_cons]
    cases j with
    | zero =>
      rw [if_pos (show (cell x c).addr = x + 0 from rfl), cell_over]
      exact WriteRec.over_outside w (.inl (Nat.lt_succ_self x)) c
    | succ j => rw [show x + (j + 1) = x + 1 + j by omega]; exact ih (Nat.lt_of_succ_lt_succ h) _

/-- A write that stands anywhere in a log leaves the bytes that it does not write. -/
theorem Store.perform_readBy {w : WriteRec} {a : Nat} (hw : ∀ b, w.over a b = b) (st : Store) (sees : WriteRec → Bool) :
    (st.perform w).readBy sees a = st.readBy sees a := by
  unfold Store.readBy Store.perform
  generalize st.base.read a = b
  induction st.log generalizing b with
  | nil => simp [insertWrite, hw]
  | cons v vs ih =>
    unfold insertWrite
    split
    · exact ih _
    · simp [hw]

/-- Behind the writes of earlier cycles a write goes last. -/
theorem insertWrite_last {w : WriteRec} {l : List WriteRec} (h : ∀ v ∈ l, v.at_ < w.at_) : insertWrite w l = l ++ [w] := by
  induction l with
  | nil => rfl
  | cons v vs ih =>
    have hv : v.before w = true := by simp [WriteRec.before, h v List.mem_cons_self]
    rw [insertWrite, if_pos (by rw [hv, Bool.or_true]), ih fun z hz => h z (List.mem_cons_of_mem v hz), List.cons_append]

/-- What a write that goes last leaves is what every later read finds. -/
theorem Store.perform_read {w : WriteRec} {st : Store} (h : ∀ v ∈ st.log, v.at_ < w.at_) (a : Nat) :
    (st.perform w).read a = w.over a (st.read a) := by
  simp only [Store.read, Store.readBy, Store.perform, insertWrite_last h, List.foldl_append, if_true, List.foldl_cons, List.foldl_nil]

/-! ### Holds (R297, R330) -/

theorem mem_put {α : Type} {l : List (Nat × α)} {k : Nat} {v : α} {e : Nat × α} (h : e ∈ put l k v) : e = (k, v) ∨ e ∈ l := by
  induction l with
  | nil => exact .inl (List.mem_singleton.mp h)
  | cons d l ih =>
    obtain ⟨j, w⟩ := d
    unfold put at h
    split at h
    · exact List.mem_cons.mp h
    split at h
    · exact (List.mem_cons.mp h).imp_right (List.mem_cons_of_mem _)
    · rcases List.mem_cons.mp h with h | h
      · exact .inr (h ▸ List.mem_cons_self)
      · exact (ih h).imp_right (List.mem_cons_of_mem _)

/-- A unit whose channels are those of the unit that it replaces. -/
theorem State.holdsOwned.setUnit {s : State} {u : Nat} {un v : Unit} (h : s.holdsOwned) (hu : s.unit? u = some un) (hv : v.chans = un.chans) :
    (s.setUnit u v).holdsOwned := by
  intro e he
  rcases mem_put he with rfl | he
  · rw [show ((u, v) : Nat × Unit).2.chans = un.chans from hv]
    exact h _ (mem_of_find hu)
  · exact h e he

/-- Where every owner is kept and every hold has one, the holds stay. -/
theorem State.keepHolds_all {s : State} {keep : Nat × Nat × Nat → Bool} (h : s.holdsOwned) (hk : ∀ w, keep w = true) : s.keepHolds keep = s := by
  have hfilter : ∀ l : List (Nat × Nat × Nat), l.filter keep = l := fun l => List.filter_eq_self.mpr fun w _ => hk w
  unfold State.keepHolds
  refine congrArg (fun units => { s with units }) ((List.map_congr_left fun e he => ?_).trans (List.map_id _))
  refine congrArg (fun chans => (e.1, { e.2 with chans })) ((List.map_congr_left fun ch hch => ?_).trans (List.map_id _))
  refine congrArg (fun hold => { ch with hold }) ?_
  cases hh : ch.hold with
  | none => rfl
  | some o => simp [hfilter, h e he ch hch o hh]

/-! ### The beats of one unit -/

theorem Unit.setBeat_congr {un : Unit} {o : Nat} {f g : Beat → Beat} (h : ∀ b ∈ un.beats, b.order = o → f b = g b) : un.setBeat o f = un.setBeat o g := by
  refine congrArg (fun beats => { un with beats }) (List.map_congr_left fun b hb => ?_)
  by_cases ho : b.order = o
  · rw [if_pos ho, if_pos ho, h b hb ho]
  · rw [if_neg ho, if_neg ho]

/-- `COPY_READ_DATA_READY` with one beat due, no word in error and no crossing to sample (R180). -/
theorem execCopyReadDataReady_one {s : State} {u : Nat} {un : Unit} {b : Beat} (hu : s.unit? u = some un) (hue : s.ueDue u un = none)
    (hs : un.samplingDue (s.now un) = [])
    (hb : (un.beats.filter fun b => b.plain && !b.got && !b.late && !b.unanswered && decide (b.readAt ≤ s.now un)) = [b]) :
    execCopyReadDataReady u s = .next (s.readBeat u b.order) := by
  simp only [execCopyReadDataReady, hu, hue, hs, hb, List.foldl_cons, List.foldl_nil]

/-- Bytes of the width that the plan writes go through as they are. -/
theorem shapeBytes_raw {x : Option Cmd} {p : Plan} {bs : List Byte} (hp : p.shape = .raw) (hn : bs.length = p.n) : shapeBytes x p bs = bs := by
  simp [shapeBytes, hp, ← hn]

/-- A beat that reads one clean piece of the unit store. -/
theorem State.readBeat_unit {s : State} {u : Nat} {un : Unit} {b : Beat} {q : Piece} (hu : s.unit? u = some un)
    (hfind : (un.beats.find? fun z => z.order == b.order) = some b) (hreads : b.plan.reads = [q]) (hspace : q.space = .unit)
    (hshape : b.plan.shape = .raw) (hn : q.n = b.plan.n) (hbad : un.badAt q.addr q.n = false) (hue : b.ue = false) :
    s.readBeat u b.order = s.setUnit u (un.setBeat b.order fun z =>
      { z with got := true, ue := false, data := (List.range q.n).map fun i => un.store.readBy (fun w => decide (w.at_ + 2 ≤ b.u)) (q.addr + i) }) := by
  have hclean : s.beatBad un b = false := by simp [State.beatBad, hreads, hspace, hbad]
  have hpiece : s.readPiece u un b q = ((List.range q.n).map fun i => un.store.readBy (seesCopy b.u) (q.addr + i), s) := by
    simp [State.readPiece, hspace]
  have hdata : shapeBytes (un.cmdOf b) b.plan ((List.range q.n).map fun i => un.store.readBy (seesCopy b.u) (q.addr + i)) =
      (List.range q.n).map fun i => un.store.readBy (seesCopy b.u) (q.addr + i) := shapeBytes_raw hshape (by simp [hn])
  simp [State.readBeat, hu, hfind, hclean, hue, hreads, hspace, hbad, hpiece, hdata, State.modUnit_of_some _ hu]
  rfl

/-- `LATE_DATA_POISON` with one beat due (R183). -/
theorem execLateDataPoison_one {s : State} {u : Nat} {un : Unit} {b : Beat} (hu : s.unit? u = some un)
    (hb : (un.beats.filter fun b => b.plain && !b.got && (b.late || b.unanswered) && decide (b.readAt ≤ s.now un)) = [b]) :
    execLateDataPoison u s = .next ({ s with free := s.free + 1 }.setUnit u (un.setBeat b.order fun z =>
      { z with got := true, late := true, data := List.replicate z.plan.n 0, lateAt := some (z.readAt + 1 + Config.choice s.free) })) := by
  have hfree : { s with free := s.free + 1 }.unit? u = some un := hu
  simp only [execLateDataPoison, hu, hb, List.foldl_cons, List.foldl_nil, State.modUnit_of_some _ hfree]

/-- The data of a beat comes by the end of this cycle. -/
def Beat.arrives (now : Nat) (b : Beat) : Bool := match b.lateAt with | some c => decide (c ≤ now) | none => false

/-- The unit's late data that comes by the end of cycle `now` is counted, and its beats leave where they are done. -/
def Unit.arrivals (un : Unit) (now : Nat) : List Beat :=
  (un.beats.map fun b => if b.arrives now then { b with lateAt := none } else b).filter fun b =>
    !(b.performed && b.lateAt.isNone && decide (b.doneAt ≤ now))

theorem execLateDataArrival_eq {s : State} {u : Nat} {un : Unit} (hu : s.unit? u = some un) :
    execLateDataArrival u s = .next (s.setUnit u { un with
      late := un.late + BitVec.ofNat 64 (un.beats.countP (Beat.arrives (s.now un))), beats := un.arrivals (s.now un) }) := by
  unfold execLateDataArrival
  rw [State.modUnit_of_some _ hu, List.countP_eq_length_filter]
  rfl

/-- Data that is still to come comes later. -/
theorem Unit.mem_arrivals {un : Unit} {now c : Nat} {b : Beat} (hb : b ∈ un.arrivals now) (hc : b.lateAt = some c) : now < c := by
  obtain ⟨z, _, hz⟩ := List.mem_map.mp (List.mem_of_mem_filter hb)
  by_cases ha : z.arrives now = true
  · rw [if_pos ha] at hz
    rw [← hz] at hc
    exact absurd hc (by simp)
  · rw [if_neg ha] at hz
    subst hz
    simpa [Beat.arrives, hc] using ha

/-! ### The write of a beat (R180, R181, R183) -/

theorem State.strikeBeat_unwatched (s : State) (u : Nat) (un : Unit) {b : Beat} (t : Frac) (h : b.watch = []) : s.strikeBeat u un b t = s := by
  unfold State.strikeBeat
  rw [h]
  split <;> rfl

section
variable {s : State} {u : Nat} {un : Unit} {b : Beat} {q : Piece} (hu : s.unit? u = some un) (hsink : b.plan.sink = .mem q) (hspace : q.space = .unit)
  (hwatch : b.watch = [])
include hu hsink hspace hwatch

/-- A beat whose data is good writes it into the unit store. -/
theorem State.writeBeat_clean (hlate : b.late = false) (hue : b.ue = false) :
    ∃ w beats badWords, { w with cells := cellsAt q.addr b.data } = w ∧ w.at_ = s.now un ∧
      s.writeBeat u b = s.setUnit u { un with beats, badWords, store := un.store.perform w } := by
  have hclean : b.spoiled = false := by simp [Beat.spoiled, hlate, hue]
  unfold State.writeBeat
  simp only [hu, hsink, hspace, hclean, State.strikeBeat_unwatched s u _ _ hwatch, Bool.false_eq_true, if_false, Option.getD_some]
  exact ⟨_, _, _, rfl, rfl, rfl⟩

/-- A beat whose data was late or in error raises PS and writes nothing. -/
theorem State.writeBeat_spoiled (h : b.late = true ∨ b.ue = true) (ho : s.holdsOwned) :
    ∃ beats, s.writeBeat u b = s.setUnit u { un.later (s.now un) 4 (.flags 3 flagPS) with beats } := by
  have hspoiled : b.spoiled = true := by simpa [Beat.spoiled] using h
  unfold State.writeBeat
  simp only [hu, hsink, hspace, hspoiled, if_true, Option.getD_some, Unit.raise_flagPS, hwatch, List.contains_nil, Bool.not_false, Bool.true_or]
  exact ⟨_, State.keepHolds_all (ho.setUnit hu rfl) fun _ => rfl⟩

end

/-- `COPY_WRITE_PERFORM` with one write due (R180): entries land, and beats that are done leave. -/
theorem execCopyWritePerform_one {s : State} {u : Nat} {un v : Unit} {b : Beat} (hu : s.unit? u = some un) (hdue : un.writesDue (s.now un) = [b])
    (hw : s.writeBeat u b = s.setUnit u v) :
    ∃ beats ska skb, execCopyWritePerform u s = .next (s.setUnit u { v with beats, ska, skb }) := by
  simp only [execCopyWritePerform, hu, hdue, List.foldl_cons, List.foldl_nil, hw, State.modUnit_setUnit]
  exact ⟨_, _, _, rfl⟩

end Sys2Proof.Machine

open Sys2Proof Sys2Proof.Machine

/-- Settles O39, event by event: the read by the one beat that has the order, the write by its place in the store's log. -/
theorem beatsMoveBytes : Obligations.BeatsMoveBytes := by
  refine ⟨?read, ?write, ?offcore, ?late, ?arrival⟩
  case read =>
    intro s u un b q hu hue hsampling hb huniq hreads hspace hshape hn hbad hclean
    have hmem : b ∈ un.beats := List.mem_of_mem_filter (hb ▸ List.mem_singleton_self b)
    have hfind : (un.beats.find? fun z => z.order == b.order) = some b :=
      find?_eq_some_of_unique hmem (beq_self_eq_true _) fun z hz ho => huniq z hz (by simpa using ho)
    calc exec (.copyReadDataReady u) s = .next (s.readBeat u b.order) := execCopyReadDataReady_one hu hue hsampling hb
      _ = _ := by
        rw [State.readBeat_unit hu hfind hreads hspace hshape hn hbad hclean]
        exact congrArg (fun v => Host.Outcome.next (s.setUnit u v)) (Unit.setBeat_congr fun z hz ho => by rw [huniq z hz ho])
  case write =>
    intro s u un b q hu hdue hsink hspace hwatch
    constructor
    · intro hlate hue
      obtain ⟨w, beats, badWords, hcells, hat, hwrite⟩ := State.writeBeat_clean hu hsink hspace hwatch hlate hue
      obtain ⟨beats', ska, skb, hexec⟩ := execCopyWritePerform_one hu hdue hwrite
      refine ⟨_, hexec, rfl, fun sees x hx => ?_, fun hlog j hj => ?_⟩
      · exact Store.perform_readBy (fun c => hcells ▸ w.over_outside hx c) un.store sees
      · calc (un.store.perform w).read (q.addr + j) = w.over (q.addr + j) (un.store.read (q.addr + j)) := Store.perform_read (hat ▸ hlog) _
          _ = b.data.getD j 0 := hcells ▸ w.over_inside hj _
    · intro h howned
      obtain ⟨beats, hwrite⟩ := State.writeBeat_spoiled hu hsink hspace hwatch h howned
      obtain ⟨beats', ska, skb, hexec⟩ := execCopyWritePerform_one hu hdue hwrite
      exact ⟨_, hexec, rfl⟩
  case offcore =>
    intro s u un hu
    exact congrArg Host.Outcome.next (State.modUnit_of_some _ hu)
  case late =>
    intro s u un b hu hb huniq
    refine ⟨b.readAt + 1 + Config.choice s.free, by omega, (execLateDataPoison_one hu hb).trans ?_⟩
    exact congrArg (fun v => Host.Outcome.next (State.setUnit _ u v)) (Unit.setBeat_congr fun z hz ho => by rw [huniq z hz ho])
  case arrival =>
    intro s u un hu
    exact ⟨un.arrivals (s.now un), execLateDataArrival_eq hu, fun b hb c hc => Unit.mem_arrivals hb hc⟩
end

