-- ==== Sys2Proof/Proofs/Flits.lean ====
section
/-! PROOFS. An answer of another package while a context load waits for its record (O54). -/

namespace Sys2Proof.Machine

/-- An answer reaches the context load of its unit as well (R218), on channel 0. -/
theorem State.answered_ctx {s t : State} {fl : Flit} {un un' : Unit} {c : Ctx} (hs : s.unit? fl.unit.toNat = some un) (hctx : un.ctx = some c)
    (hload : c.load = true) (hchan : fl.chan = 0) (ht : s.answered fl = t.setUnit fl.unit.toNat un') :
    un'.ctx = some { c with resp := put c.resp fl.pa (if fl.bad then [] else fl.data) } := by
  have hun : (s.answered fl).unit? fl.unit.toNat = some un' := by rw [ht, State.unit?_setUnit_self]
  rw [State.answered, State.modUnit_of_some _ hs, State.unit?_setUnit_self] at hun
  rw [← Option.some.inj hun]
  simp [hctx, hload, hchan]

/-- Eight bytes of package 2, and the atomic beat that waits for what they held. -/
def remotePiece : Piece := ⟨.remote 2, 0x50000, 8, 0⟩

def waitingBeat : Beat :=
  { chan := 0, tid := 0, k := 0, u := 97, plan := ⟨[], .atomic remotePiece, .raw, 8, []⟩, readAt := 98, late := false, got := false, data := [], writeAt := 99
    performAt := 99, performed := false, doneAt := 99, order := 0, flags := 0, resp := [], lateAt := none, ue := false, snap := Snapshot.zero, watch := [] }

/-- A context load that has read nothing yet. -/
def loadingCtx : Ctx :=
  { load := true, t := 0, va := 0, xlAt := none, xlFault := none, pages := [], checkAt := none, endAt := 199, first := 18, lo := 1, seed := 0, image := [], bad := []
    resp := [], ue := false }

/-- Unit 0 frozen in that load, with that beat still in its engine. -/
def loadingUnit : Unit := { State.reset.freshUnit 0 (fetchKernel 0) 0 0 [] with run := .frozen, beats := [waitingBeat], ctx := some loadingCtx }

/-- A booted package of number 1 whose port 0 is up. -/
def loadingState : State :=
  { State.reset with
    units := [(0, loadingUnit)], regions := [fetchRegion], kernels := [fetchKernel 0], boot := ⟨5, false, [], 1, [], 900, 100, 1200⟩
    ports := ⟨8, 0, 0, 0, 0, 0, 1, 0, 0, 0⟩ :: State.reset.ports.tail }

/-- Package 2 answers the beat. -/
def atomicAnswer : Flit :=
  { type := 5, vc := 2, dpkg := 1, spkg := 2, hops := 1, unit := 0, chan := 0, part := 0, xid := 0, lseq := 0, param := 8, payload := leBytes 8 0x50000 }

theorem loadingState_accepts : Accepts 5 loadingState 0 atomicAnswer := ⟨rfl, by decide, rfl, rfl, rfl⟩

/-- The port takes the answer, which is for this package, and the unit receives it. -/
theorem loadingState_answered :
    exec (.atomicResponse 0 atomicAnswer) loadingState = .next ((loadingState.counted 0).answered atomicAnswer) := rfl

end Sys2Proof.Machine

open Sys2Proof Sys2Proof.Machine

/-- Refutes O54: its clause for the answer of another package, that the unit keeps all but its beats, fails in `loadingState`, where the unit's context
load also takes an answer that comes on channel 0 (R218). No hypothesis of that clause says that the unit loads no context. -/
theorem not_flitsAct : ¬ Obligations.FlitsAct := by
  rintro ⟨-, -, -, hanswer, -⟩
  obtain ⟨un', hexec, hframe, -⟩ := hanswer loadingState 0 5 atomicAnswer _ loadingUnit waitingBeat remotePiece (.inr ⟨rfl, rfl⟩) loadingState_accepts rfl
    (List.mem_singleton_self _) rfl rfl rfl (.inr rfl) rfl (by decide)
  have hkept : un'.ctx = some loadingCtx := by rw [hframe]; rfl
  have htaken := State.answered_ctx (s := loadingState.counted 0) (c := loadingCtx) rfl rfl rfl rfl (Host.Outcome.next.inj (loadingState_answered.symm.trans hexec))
  rw [hkept] at htaken
  exact absurd (congrArg Ctx.resp (Option.some.inj htaken)) (by decide)
end

