-- ==== Sys2Proof/Proofs/SystemWords.lean ====
section
/-! PROOFS. The system registers, traps and returns, and the words that control their unit (O25, O26, O27). -/

namespace Sys2Proof.Machine

/-! ### System words (R203) -/

/-- The body of a system word, which finds its unit in the state. -/
def sysBody (body : State → Nat → Unit → Act) (s : State) (u _k : Nat) : Act :=
  match s.unit? u with
  | none => .wait 3 none
  | some un => body s u un

theorem sysOp_eq (body : State → Nat → Unit → Act) (s : State) : sysOp body s = .next (runWord sysWord (sysBody body) s) := rfl

@[simp] theorem sysBody_setUnit (body : State → Nat → Unit → Act) (s : State) (u k : Nat) (v : Unit) :
    sysBody body (s.setUnit u v) u k = body (s.setUnit u v) u v := by
  simp [sysBody]

section
variable {body : State → Nat → Unit → Act} {i : Instr} {s : State} {u : Nat} {v : Unit} (h : Ready sysWord s u 0 v) (he : exec i s = sysOp body s)
include h he

/-- A system word that skips nothing. -/
theorem Issues.of_sys {v1 : Unit} (hb : body (s.setUnit u v) u v = .go (s.setUnit u v1) .seq) (hp : SamePlace v v1 0) :
    Issues sysWord .seq i s u 0 v v1 :=
  .of_seq h (he.trans (sysOp_eq body s)) ((sysBody_setUnit ..).trans hb) hp

/-- A system word that also changes the state beyond its unit. -/
theorem IssuesIn.of_sys {s1 : State} {v1 : Unit} (hb : body (s.setUnit u v) u v = .go (s1.setUnit u v1) .seq) (hp : SamePlace v v1 0) :
    IssuesIn sysWord .seq i s s1 u 0 (s.now v) v1 :=
  .of_seq h (he.trans (sysOp_eq body s)) ((sysBody_setUnit ..).trans hb) hp

/-- A system word that transfers. -/
theorem Issues.of_sys_jump {v1 : Unit} {t a : Nat} (hb : body (s.setUnit u v) u v = .go (s.setUnit u v1) (.jump t a)) (hp : SamePlace v v1 0) :
    Issues sysWord (.jump t a) i s u 0 v v1 :=
  .of_jump h (he.trans (sysOp_eq body s)) ((sysBody_setUnit ..).trans hb) hp

theorem Faults.of_sys {c : Cause} {info : Nat} (hb : body (s.setUnit u v) u v = .fault c info) : Faults i s u 0 v c info :=
  .of_body h (he.trans (sysOp_eq body s)) ((sysBody_setUnit ..).trans hb)

theorem exec_sys_wait {cls : Nat} {flag : Option Nat} (hb : body (s.setUnit u v) u v = .wait cls flag) :
    exec i s = .next ((s.setUnit u v).close u 0 cls flag) :=
  exec_wait h (he.trans (sysOp_eq body s)) ((sysBody_setUnit ..).trans hb)

end

/-- A result for a register or a queue moves no walker. -/
theorem SamePlace.landReg {v w : Unit} {j : Nat} (h : SamePlace v w j) (k d now lat : Nat) (x : Val) : SamePlace v (w.landReg k d now lat x) j := by
  unfold Unit.landReg; split
  · exact (h.withWalkers (w' := w.qReserve (outQueue k d)) rfl).enter ..
  · exact h.enter ..

/-- The generators once the one of source `g` is marked (R211, R270). -/
def State.hintedGens (s : State) (g : Nat) : List (Nat × Gen) := s.gens.map fun e => if e.1 = g then (e.1, { e.2 with hinted := true }) else e

/-- A mark changes nothing of a generator but the mark. -/
theorem State.hintedGens_marks (s : State) (g : Nat) :
    (s.hintedGens g).map (fun e => (e.1, { e.2 with hinted := false })) = s.gens.map fun e => (e.1, { e.2 with hinted := false }) := by
  unfold State.hintedGens
  rw [List.map_map]
  refine List.map_congr_left fun e _ => ?_
  by_cases h : e.1 = g <;> simp [h]

@[simp] theorem arg_singleton (x : Val) : arg [x] 0 = x := rfl

@[simp] theorem poisonOf_singleton (x : Val) : poisonOf [x] = x.poison := by simp [poisonOf]

end Sys2Proof.Machine

open Sys2Proof Sys2Proof.Machine

/-- Settles O25: the bodies of `csrr` and `csrw`, by the register and by the value. -/
theorem systemRegisterWordsIssue : Obligations.SystemRegisterWordsIssue := by
  refine ⟨?_, ?_⟩
  · intro d r s u v hr ho
    refine ⟨fun hl => ?_, fun hl hp => ?_, fun hl hp hf hm => ?_⟩
    · refine .of_sys hr rfl ?_
      simp [wellFormed, hl]
    · refine .of_sys hr rfl ?_ ((SamePlace.refl v 0).later ..)
      simp [wellFormed, hl, ho, hp]
    · refine .of_sys hr rfl ?_ ((SamePlace.refl v 0).landReg ..)
      simp [wellFormed, hl, ho, hp, hf, hm]
  · intro a r s u v v1 x hr ho hf hw
    refine ⟨fun hc => ?_, fun hc hs => ?_⟩
    · refine .of_sys hr rfl ?_
      simp [hc]
    · have hspill : (decide (r.toNat < 0x40) && (r.toNat % 16 == 4 || r.toNat % 16 == 5) && (v.wk (r.toNat / 16)).spilln != 0) = false := by
        by_contra h
        simp only [Bool.not_eq_false, Bool.and_eq_true, decide_eq_true_eq, Bool.or_eq_true, beq_iff_eq, bne_iff_ne] at h
        exact h.2 (hs h.1.1 h.1.2)
      refine ⟨fun hp => ?_, fun hp hk => ?_, fun hp hk => ?_⟩
      · refine .of_sys hr rfl ?_ ((SamePlace.of_fetch hf).raise ..)
        simp only [hw, hc, ho, hf, arg_singleton, hspill, hp, Bool.not_true, Bool.or_self, Bool.false_eq_true, if_false,
          if_true, State.setUnit_setUnit, State.now_setUnit]
      · refine .of_sys hr rfl ?_
        simp only [hw, hc, ho, hf, arg_singleton, hspill, hp, hk, Bool.not_true, Bool.not_false, Bool.or_self, Bool.false_eq_true, if_false, if_true]
      · refine .of_sys hr rfl ?_ ((SamePlace.of_fetch hf).later ..)
        simp only [hw, hc, ho, hf, arg_singleton, hspill, hp, hk, Bool.not_true, Bool.or_self, Bool.false_eq_true, if_false,
          State.setUnit_setUnit, State.now_setUnit]

/-- Settles O26: the bodies of `trap` and `eret`. -/
theorem trapAndReturn : Obligations.TrapAndReturn := by
  refine ⟨?_, ?_⟩
  · intro c s u v hr
    refine ⟨fun hi => ?_, fun hi hv => ?_, fun hi hv ht => ?_⟩
    · refine .of_sys hr rfl ?_
      simp only [hi, if_true]
    · refine .of_sys hr rfl ?_
      have hno : (!v.tvec.getLsbD 63 || v.tstat.getLsbD 16) = true := by
        rcases hv with hv | ht
        · rw [hv]; rfl
        · rw [ht]; exact Bool.or_true _
      simp only [hi, hno, Option.isSome_none, Bool.false_eq_true, if_false, if_true]
    · refine .of_sys_jump hr rfl ?_ ((SamePlace.refl v 0).later ..)
      simp only [hi, hv, ht, Option.isSome_none, Bool.not_true, Bool.or_self, Bool.false_eq_true, if_false, State.setUnit_setUnit, State.now_setUnit]
  · intro s u v hr
    refine ⟨fun h => ?_, fun ht hi hlt => ?_⟩
    · refine .of_sys hr rfl ?_
      have hno : (!v.tstat.getLsbD 16 || (v.wk 0).inner.isSome || decide (65536 ≤ (v.wk 0).epc.toNat % 2 ^ 17)) = true := by
        simpa only [Bool.or_eq_true, Bool.not_eq_true', decide_eq_true_eq, or_assoc] using h
      simp only [hno, if_true]
    · refine .of_sys_jump hr rfl ?_ ((SamePlace.refl v 0).later ..)
      simp only [ht, hi, Nat.not_le.mpr hlt, Option.isSome_none, Bool.not_true, Bool.or_self, decide_false, Bool.false_eq_true, if_false,
        State.setUnit_setUnit, State.now_setUnit]

/-- A request has reached the unit before cycle `now` (R215). -/
theorem requested_before_iff (r : Option Nat) (now : Nat) :
    (match r with | some c => decide (c < now) | none => false) = true ↔ ∃ c, r = some c ∧ c < now := by
  cases r <;> simp

/-- Settles O27: the bodies of the four words, each by its condition. -/
theorem unitControlWordsIssue : Obligations.UnitControlWordsIssue := by
  refine ⟨?_, ?_, ?_, ?_⟩
  · intro e n s u v hw hr
    refine .of_sys hr rfl ?_ (.of_walkers 0 rfl)
    simp [hw]
  · intro k s u v hw hr
    by_cases h0 : k = 0
    · subst h0
      refine ⟨s.gens, .of_sys hr rfl ?_ (.refl v 0), rfl, fun _ => rfl⟩
      simp only [hw, Bool.not_true, Bool.false_eq_true, if_false, if_true]
    · refine ⟨s.hintedGens (s.region v.region).src, .of_sys hr rfl ?_ (.refl v 0), s.hintedGens_marks _, fun h => absurd h h0⟩
      simp only [hw, h0, Bool.not_true, Bool.false_eq_true, if_false]
      rfl
  · intro s u v hr
    refine ⟨?_, fun hno => ?_⟩
    · rintro ⟨c, hc, hlt⟩ hin
      refine .of_sys hr rfl ?_ (.of_walkers 0 rfl)
      have hall : (v.walkers.all fun w => w.inner.isNone) = true := List.all_eq_true.mpr fun w hw => by rw [hin w hw]; rfl
      simp only [State.now_setUnit, hc, hlt, decide_true, hall, Bool.and_self, if_true, State.setUnit_setUnit]
    · refine .of_sys hr rfl ?_ (.refl v 0)
      refine if_neg fun h => ?_
      obtain ⟨hasked, hall⟩ := (Bool.and_eq_true _ _).mp h
      rcases hno with hle | ⟨w, hw, hin⟩
      · obtain ⟨c, hc, hlt⟩ := (requested_before_iff ..).mp hasked
        exact Nat.not_le.mpr hlt (hle c hc)
      · have := List.all_eq_true.mp hall w hw
        simp [Option.isNone_iff_eq_none.mp this] at hin
  · intro s u v hr
    refine ⟨fun hi => ?_, fun hi hq => ?_, fun hi hq => ?_⟩
    · refine .of_sys hr rfl ?_
      simp only [hi, if_true]
    · refine .of_sys hr rfl ?_ (.of_walkers 0 rfl)
      simp only [hi, hq, Option.isSome_none, Bool.false_eq_true, if_false, if_true, State.setUnit_setUnit, State.now_setUnit]
    · refine exec_sys_wait hr rfl ?_
      simp only [hi, hq, Option.isSome_none, Bool.false_eq_true, if_false, State.now_setUnit]
end

