-- ==== Sys2Proof/Proofs/Triggers.lean ====
section
/-! PROOFS. Trigger windows, and the match that a stop names (O45). -/

namespace Sys2Proof.Machine

/-! ### The match that a stop names (R330) -/

/-- The order in which a stop prefers the matches of a cycle (R330). -/
def Hit.rank (h : Hit) : Nat :=
  match h.cls with
  | .p => 0
  | .i => 1 + 2 ^ 40 * h.chan + h.beat
  | .u => if h.atom then 2 ^ 61 else 2 ^ 60 + 2 ^ 40 * h.chan + h.beat

/-- Only a match of class P has rank 0. -/
theorem Hit.rank_eq_zero {h : Hit} : h.rank = 0 ↔ h.cls = .p := by
  unfold Hit.rank
  cases h.cls with
  | p => simp
  | i => simp
  | u => simp only [reduceCtorEq, iff_false]; split <;> omega

/-- The first of two matches in that order; of equal ones the earlier. -/
def Hit.first (m x : Hit) : Hit := if x.rank < m.rank then x else m

theorem Hit.first_rank (m x : Hit) : (m.first x).rank ≤ m.rank ∧ (m.first x).rank ≤ x.rank := by
  unfold Hit.first; split <;> omega

/-- The fold over a list of matches finds one of least rank. -/
theorem Hit.foldl_first (l : List Hit) (h : Hit) : l.foldl Hit.first h ∈ h :: l ∧ ∀ x ∈ h :: l, (l.foldl Hit.first h).rank ≤ x.rank := by
  induction l generalizing h with
  | nil => simp
  | cons y l ih =>
    obtain ⟨hmem, hle⟩ := ih (h.first y)
    obtain ⟨hh, hy⟩ := h.first_rank y
    have hhead := hle _ List.mem_cons_self
    refine ⟨?_, ?_⟩
    · rcases List.mem_cons.mp hmem with he | hin
      · rw [List.foldl_cons, he, Hit.first]; split <;> simp
      · exact List.mem_cons_of_mem _ (List.mem_cons_of_mem _ hin)
    · intro x hx
      rcases List.mem_cons.mp hx with rfl | hx
      · exact hhead.trans hh
      · rcases List.mem_cons.mp hx with rfl | hx
        · exact hhead.trans hy
        · exact hle x (List.mem_cons_of_mem _ hx)

theorem Trigger.named_cons {g : Trigger} {served : Hit → Bool} {h : Hit} {hs : List Hit} (hf : g.struck.filter served = h :: hs) :
    g.named served = some (hs.foldl Hit.first h) := by
  unfold Trigger.named; rw [hf]; rfl

/-- Where a match can be served, the stop names one, and one of class P first. -/
theorem Trigger.exists_named {g : Trigger} {served : Hit → Bool} (h : ∃ x ∈ g.struck, served x = true) :
    ∃ m, g.named served = some m ∧ m ∈ g.struck ∧ served m = true ∧ ∀ x ∈ g.struck, served x = true → x.cls = .p → m.cls = .p := by
  obtain ⟨x, hx, hs⟩ := h
  cases hf : g.struck.filter served with
  | nil => exact absurd hs (by simpa using List.filter_eq_nil_iff.mp hf x hx)
  | cons y ys =>
    obtain ⟨hmem, hle⟩ := Hit.foldl_first ys y
    rw [← hf] at hmem hle
    obtain ⟨hin, hserved⟩ := List.mem_filter.mp hmem
    refine ⟨_, Trigger.named_cons hf, hin, hserved, fun z hz hzs hp => ?_⟩
    have := hle z (List.mem_filter.mpr ⟨hz, hzs⟩)
    rw [Hit.rank_eq_zero.mpr hp] at this
    exact Hit.rank_eq_zero.mp (Nat.le_zero.mp this)

/-! ### Opening a window (R214) -/

/-- A trigger whose opening stops its unit: fired, and disarmed. -/
def Trigger.spent (g : Trigger) (now : Nat) : Trigger :=
  { g with fired := true, openAt := now, seenS := false, armed := false, isOpen := false, struck := [] }

/-- The unit with trigger `n` replaced. -/
def Unit.setTrig (un : Unit) (n : Nat) (g : Trigger) : Unit := { un with trigs := un.trigs.set n g }

theorem Unit.setTrig_self {un : Unit} {n : Nat} {g : Trigger} (h : un.trigs[n]? = some g) : un.setTrig n g = un := by
  obtain ⟨hn, rfl⟩ := List.getElem?_eq_some_iff.mp h
  unfold Unit.setTrig; rw [List.set_getElem_self]

/-- The stop that a match names (R298, R330). -/
def State.watchStop (s : State) (u n : Nat) (addr : W64) (h : Hit) : State :=
  match h.cls with
  | .p => s.takeFault u .watch .p h.chan n ⟨0, 0, n, 0, 0, addr + BitVec.ofNat 64 h.i, 0⟩
  | .i => s.takeFault u .watch .i 3 n ⟨3, h.chan, n, h.tid, h.beat, addr + BitVec.ofNat 64 h.i, 0⟩
  | .u => s.takeFault u .watch .u 0 n ⟨4, h.chan, n, h.tid, h.beat, addr + BitVec.ofNat 64 h.i, h.origin⟩

section
variable {s : State} {u n : Nat} {un : Unit} {g : Trigger}

theorem State.openWindow_records (h : g.act ≠ 1) : s.openWindow u n un g =
    s.setUnit u (un.setTrig n { g with fired := true, isOpen := true, openAt := s.now un, seenS := false }) := if_pos h

theorem State.openWindow_stopsNext (h : g.act = 1) (hk : g.kind = 2 ∨ g.kind = 5) : s.openWindow u n un g =
    s.setUnit u (un.setTrig n { g.spent (s.now un) with stopDue := some (s.now un + 1) }) :=
  (if_neg (not_not.mpr h)).trans (if_pos hk)

theorem State.openWindow_breaks (h : g.act = 1) (hk : g.kind = 1 ∨ g.kind = 3) : s.openWindow u n un g =
    (s.setUnit u (un.setTrig n (g.spent (s.now un)))).takeFault u .bkpt .u 0 n { Detail.walker with trigger := n } := by
  unfold State.openWindow
  rcases hk with hk | hk <;> rw [hk] <;> exact if_neg (not_not.mpr h)

theorem State.openWindow_watch {m : Hit} (h : g.act = 1) (hk : g.kind = 4) (hm : g.named ((s.region un.region).serves (s.now un)) = some m) :
    s.openWindow u n un g = (s.setUnit u (un.setTrig n (g.spent (s.now un)))).watchStop u n g.addr m := by
  unfold State.openWindow
  simp only [h, hk, ne_eq, not_true_eq_false, if_false, State.region_setUnit, hm]
  rfl

/-- A trigger whose START holds opens its window, at one or the other end of the cycle. -/
theorem Trigger.opens_of_seen {now : Nat} (ha : g.armed = true) (ho : g.isOpen = false) (hs : g.seenS = true) (hf : g.from_ ≤ now) :
    (g.opens now true || g.opens now false) = true := by
  unfold Trigger.opens
  simp only [ha, ho, hs, hf, decide_true, Bool.not_false, Bool.and_self, Bool.true_and]
  cases g.act == 1 && g.kind != 2 && g.kind != 5 <;> rfl

theorem triggerWindowOpen_opens (hu : s.unit? u = some un) (hg : un.trigs[n]? = some g) (hd : g.stopDue ≠ some (s.now un))
    (h : (g.opens (s.now un) true || g.opens (s.now un) false) = true) : exec (.triggerWindowOpen u n) s = .next (s.openWindow u n un g) := by
  have hn : ¬ g.stopsNow (s.now un) = true := by simpa [Trigger.stopsNow] using hd
  show execTriggerWindowOpen u n s = _
  unfold execTriggerWindowOpen
  simp only [hu, hg, if_neg hn, h, if_true]

theorem triggerWindowOpen_stops (hu : s.unit? u = some un) (hg : un.trigs[n]? = some g) (hd : g.stopDue = some (s.now un)) :
    exec (.triggerWindowOpen u n) s = .next ((s.setUnit u (un.setTrig n { g with stopDue := none })).takeFault u .bkpt .u 0 n
      { Detail.walker with trigger := n }) := by
  have hn : g.stopsNow (s.now un) = true := by simp [Trigger.stopsNow, hd]
  show execTriggerWindowOpen u n s = _
  unfold execTriggerWindowOpen
  simp only [hu, hg, if_pos hn]
  rfl

theorem watchReport_opens (hu : s.unit? u = some un) (hg : un.trigs[n]? = some g) (hk : g.kind = 4)
    (h : (g.opens (s.now un) true || g.opens (s.now un) false) = true) : exec (.watchReport u n) s = .next (s.openWindow u n un g) := by
  show execWatchReport u n s = _
  unfold execWatchReport
  simp only [hu, hg, h, hk, beq_self_eq_true, Bool.and_self, if_true]

end

/-! ### Closing a window (R214, R301) -/

theorem nat_bne (a b : Nat) : (a != b) = decide (a ≠ b) := by
  rw [bne, decide_not]; rfl

/-- A trace buffer with room keeps what it holds (R301). -/
theorem Unit.addTrace_room {un : Unit} (h : un.trace.length ≤ 255) (t : Trace) :
    un.addTrace t = { un with trace := un.trace ++ [t], traceN := un.traceN + 1 } := by
  unfold Unit.addTrace
  rw [Nat.sub_eq_zero_of_le h, List.drop_zero]

theorem triggerWindowClose_closes {s : State} {u n : Nat} {un : Unit} {g : Trigger} (hu : s.unit? u = some un) (hg : un.trigs[n]? = some g)
    (h : g.closes = true) : exec (.triggerWindowClose u n) s = .next (s.setUnit u
      ((un.addTrace ⟨2, n, 0, 0, g.openAt, s.now un⟩).setTrig n
        { g with isOpen := false, seenS := false, seenP := false, armed := decide (g.act ≠ 0) })) := by
  show execTriggerWindowClose u n s = _
  unfold execTriggerWindowClose
  simp only [hu, hg, h, if_true, nat_bne]
  rfl

/-! ### Reports of other packages (R298) -/

/-- A flit that a port takes for this package has its row's effect. -/
theorem flitRow_accepted {type p : Nat} {fl : Flit} {s : State} (h : Accepts type s p fl) (hlow : type < 12) (f : State → State) :
    flitRow type p fl s f = .next (f (s.counted p)) := by
  have hr : s.receive type p fl = .inr (s.counted p) := by
    unfold State.receive
    rw [if_neg (by simp [h.booted, h.up, h.typ, h.order])]
    simp only [h.typ, Nat.not_le.mpr hlow, if_false]
    exact if_pos h.here
  unfold flitRow; rw [hr]

/-- The match that a report's flit tells (R298). -/
def reportedHit (fl : Flit) (t : Frac) : Hit :=
  ⟨t.num, t.den, .u, fl.chan.toNat, fl.xid.toNat, fl.nat 8 8, fl.nat 4 1 % 16, BitVec.ofNat 32 (fl.nat 0 4), fl.nat 5 1 == 1⟩

/-- A trigger takes the report that names its arming. -/
def Trigger.report (fl : Flit) (t : Frac) (g : Trigger) : Trigger :=
  if g.armed && g.serial == fl.nat 16 8 then { g with struck := g.struck ++ [reportedHit fl t] } else g

theorem Trigger.report_other {fl : Flit} {t : Frac} {g : Trigger} (h : g.armed = false ∨ g.serial ≠ fl.nat 16 8) : g.report fl t = g := by
  refine if_neg fun hc => ?_
  simp only [Bool.and_eq_true, beq_iff_eq] at hc
  rcases h with h | h
  · simp [hc.1] at h
  · exact h hc.2

theorem Trigger.report_named {fl : Flit} {t : Frac} {g : Trigger} (ha : g.armed = true) (hs : g.serial = fl.nat 16 8) :
    g.report fl t = { g with struck := g.struck ++ [reportedHit fl t] } := if_pos (by simp [ha, hs])

theorem watchReportFlit_eq {p : Nat} {fl : Flit} {s : State} {un : Unit} {g : Trigger} (h : Accepts 10 s p fl)
    (hu : s.unit? (fl.param.toNat / 16 % 256) = some un) (hg : un.trigs[fl.param.toNat % 16]? = some g) :
    exec (.watchReportFlit p fl) s =
      .next ((s.counted p).setUnit (fl.param.toNat / 16 % 256) (un.setTrig (fl.param.toNat % 16) (g.report fl s.time))) := by
  show execWatchReportFlit p fl s = _
  unfold execWatchReportFlit
  rw [flitRow_accepted h (by decide), State.modUnit_of_some _ (show (s.counted p).unit? _ = some un from hu), modify_eq_set hg]
  rfl

end Sys2Proof.Machine

open Sys2Proof Sys2Proof.Machine

/-- Settles O45: a window that opens is `State.openWindow`, by ACT and KIND; the match that a stop names has the least rank. -/
theorem triggersOpenAndClose : Obligations.TriggersOpenAndClose := by
  refine ⟨?_, ?_, ?_, ?_⟩
  · intro s u n un g hu hg hd ha ho hs hf
    have hopens := Trigger.opens_of_seen ha ho hs hf
    have hexec := triggerWindowOpen_opens hu hg hd hopens
    refine ⟨fun h1 => ?_, fun h1 hk => ?_, fun h1 hk => ?_, fun h1 hk hm => ?_, fun h1 hk => ?_⟩
    · rw [hexec, State.openWindow_records h1]; rfl
    · exact ⟨g.spent (s.now un), rfl, rfl, rfl, by rw [hexec, State.openWindow_breaks h1 hk]; rfl⟩
    · exact ⟨{ g.spent (s.now un) with stopDue := some (s.now un + 1) }, rfl, rfl, rfl, rfl, rfl,
        by rw [hexec, State.openWindow_stopsNext h1 hk]; rfl⟩
    · obtain ⟨m, hm, hin, hserves, hp⟩ := Trigger.exists_named hm
      refine ⟨g.spent (s.now un), m, rfl, rfl, rfl, hin, hserves, hp, fun i hi => ?_⟩
      have hi : exec i s = .next ((s.setUnit u (un.setTrig n (g.spent (s.now un)))).watchStop u n g.addr m) := by
        rw [← State.openWindow_watch h1 hk hm]
        rcases hi with rfl | rfl
        · exact hexec
        · exact watchReport_opens hu hg hk hopens
      unfold State.watchStop at hi
      refine ⟨fun hc => ?_, fun hc => ?_, fun hc => ?_⟩ <;> rw [hc] at hi <;> exact hi
    · rw [watchReport_opens hu hg hk hopens, State.openWindow_records h1]; rfl
  · intro s u n un g hu hg hd
    exact triggerWindowOpen_stops hu hg hd
  · intro s u n un g hu hg ha ho hs hl
    have hexec := triggerWindowClose_closes hu hg (by simp [Trigger.closes, ha, ho, hs])
    rw [Unit.addTrace_room hl] at hexec
    exact ⟨_, hexec, rfl, rfl, rfl, rfl⟩
  · intro s p fl un g hacc hu hg
    have hexec := watchReportFlit_eq hacc hu hg
    refine ⟨fun hno => ⟨_, hexec, ?_⟩, fun ha hser => ⟨reportedHit fl s.time, rfl, rfl, Nat.mod_lt _ (by decide), ?_⟩⟩
    · rw [Trigger.report_other hno, Unit.setTrig_self hg, State.unit?_setUnit_self]
    · rw [hexec, Trigger.report_named ha hser]; rfl
end

