-- ==== Sys2Proof/Proofs/Trig.lean ====
section
/-! PROOFS. The word `trig`, and the holds that end with an arming (O29). -/

namespace Sys2Proof.Machine

/-! ### Holds of channels (R297) -/

theorem put_map {α : Type} (f : α → α) (l : List (Nat × α)) (k : Nat) (v : α) :
    (put l k v).map (fun e => (e.1, f e.2)) = put (l.map fun e => (e.1, f e.2)) k (f v) := by
  induction l with
  | nil => rfl
  | cons e l ih =>
    simp only [put, List.map_cons]
    split
    · rfl
    · split
      · rfl
      · rw [List.map_cons, ih]

/-- A unit whose channels keep the holds that `keep` accepts. -/
def Unit.keepHolds (un : Unit) (keep : Nat × Nat × Nat → Bool) : Unit :=
  let f := fun (h : Hold) => let o := h.owners.filter keep; if o.isEmpty then none else some { h with owners := o }
  { un with chans := un.chans.map fun ch => { ch with hold := ch.hold.bind f } }

theorem State.keepHolds_units (s : State) (keep : Nat × Nat × Nat → Bool) :
    s.keepHolds keep = { s with units := s.units.map fun e => (e.1, e.2.keepHolds keep) } := rfl

theorem State.unit?_keepHolds (s : State) (keep : Nat × Nat × Nat → Bool) (v : Nat) :
    (s.keepHolds keep).unit? v = (s.unit? v).map (Unit.keepHolds · keep) :=
  find_map (Unit.keepHolds · keep) s.units v

theorem State.keepHolds_setUnit (s : State) (u : Nat) (un : Unit) (keep : Nat × Nat × Nat → Bool) :
    (s.setUnit u un).keepHolds keep = (s.keepHolds keep).setUnit u (un.keepHolds keep) := by
  simp only [State.keepHolds_units, State.setUnit, put_map (Unit.keepHolds · keep)]

/-- Issue looks at no channel. -/
theorem Passed.withChans {f : WordInfo} {n : Next} {now k : Nat} {v w : Unit} (h : Passed f n now k v w) (c : List Chan) :
    Passed f n now k { v with chans := c } { w with chans := c } :=
  ⟨congrArg (fun un : Unit => { un with chans := c }) h.rest, h.trigs, h.vfree, h.mfree, h.others, h.alike, h.slot, h.since, h.matched, h.counts,
    h.place, h.seq⟩

/-- A system word that issues and ends holds as it does. -/
theorem exec_sys_holds {body : State → Nat → Unit → Act} {i : Instr} {s s1 : State} {u : Nat} {v v1 : Unit} {keep : Nat × Nat × Nat → Bool}
    (h : Ready sysWord s u 0 v) (he : exec i s = sysOp body s)
    (hb : body (s.setUnit u v) u v = .go ((s1.setUnit u v1).keepHolds keep) .seq) (hp : SamePlace v v1 0) :
    ∃ un', Passed sysWord .seq (s.now v) 0 v1 un' ∧ exec i s = .next ((s1.setUnit u un').keepHolds keep) := by
  rw [State.keepHolds_setUnit] at hb
  obtain ⟨w, hexec, hpass⟩ := IssuesIn.of_sys h he hb (hp.withWalkers rfl)
  have hw : w = { w with chans := v1.chans }.keepHolds keep := by
    conv_lhs => rw [hpass.rest]
    conv_rhs => rw [hpass.rest]
    rfl
  refine ⟨{ w with chans := v1.chans }, hpass.withChans v1.chans, ?_⟩
  rw [hexec, State.keepHolds_setUnit, ← hw]

/-! ### Arming (R213) -/

/-- Word `i` of a trigger descriptor at `p` of the unit store, as a `trig` issued in cycle `now` reads it. -/
def Unit.trigWord (v : Unit) (now p i : Nat) : W64 :=
  BitVec.ofNat 64 (leNat ((List.range 8).map fun b => (v.storeNow now).readBy (seesLoad now) (p + 8 * i + b)))

/-- The trigger that a descriptor of four words gives in cycle `now`, its watched range not yet placed. -/
def Trigger.ofWords (start stop addr mode : W64) (now openAt serial : Nat) : Trigger :=
  { armed := start.toNat % 16 != 0, isOpen := false, fired := false, start, stop, addr, mode, from_ := now + 1, openAt, xlAt := none
    pa := none, xlFault := none, seenS := false, seenP := false, stopDue := none, struck := [], serial }

/-- The trigger with its watched range placed: in a scratchpad at once, in device memory by a translation of Lx cycles (R213; log 114). -/
def State.placeTrig (s : State) (u : Nat) (un : Unit) (g : Trigger) (now : Nat) : Trigger :=
  match copyPlace u g.addr.toNat with
  | some (.pad sp _ off) => { g with pa := some (sp, off) }
  | some (.dva va) =>
    if !g.armed then g
    else
      let due := now + un.lat.lx
      match (s.look u un va now).page with
      | none => { g with xlAt := some due, xlFault := some .xlate, from_ := due + 1 }
      | some q =>
        let sp : Space := if q.space = 0 then .dram else if q.space = 1 then .remote q.pkg else .host
        { g with xlAt := some due, xlFault := if q.part = un.part then none else some .access, pa := some (sp, q.pa + (va - q.va)), from_ := due + 1 }
  | none => g

section
variable (s : State) (u : Nat) (un : Unit) (g : Trigger) (now : Nat)

/-- Placing the watched range changes its place and its times alone. -/
theorem State.placeTrig_frame : ∃ xlAt pa xlFault from_, s.placeTrig u un g now = { g with xlAt, pa, xlFault, from_ } := by
  unfold State.placeTrig
  split
  · exact ⟨_, _, _, _, rfl⟩
  · split
    · exact ⟨_, _, _, _, rfl⟩
    · dsimp only; split <;> exact ⟨_, _, _, _, rfl⟩
  · exact ⟨_, _, _, _, rfl⟩

/-- A device virtual range is translated first. -/
theorem State.placeTrig_translated {va : Nat} (h : copyPlace u g.addr.toNat = some (.dva va)) (ha : g.armed = true) :
    (s.placeTrig u un g now).xlAt = some (now + un.lat.lx) ∧ (s.placeTrig u un g now).from_ = now + un.lat.lx + 1 := by
  unfold State.placeTrig
  simp only [h, ha, Bool.not_true, Bool.false_eq_true, if_false]
  cases (s.look u un va now).page <;> exact ⟨rfl, rfl⟩

/-- Any other range, and that of a trigger that is not armed, is not. -/
theorem State.placeTrig_untranslated (h : (∀ va, copyPlace u g.addr.toNat ≠ some (.dva va)) ∨ g.armed = false) :
    (s.placeTrig u un g now).xlAt = g.xlAt ∧ (s.placeTrig u un g now).from_ = g.from_ := by
  unfold State.placeTrig
  split
  · exact ⟨rfl, rfl⟩
  · next va hva =>
    rcases h with h | h
    · exact absurd hva (h va)
    · simp [h]
  · exact ⟨rfl, rfl⟩

/-- The fields of a described trigger that the placing leaves. -/
theorem State.placeTrig_same : (s.placeTrig u un g now).armed = g.armed ∧ (s.placeTrig u un g now).isOpen = g.isOpen ∧
    (s.placeTrig u un g now).fired = g.fired ∧ (s.placeTrig u un g now).start = g.start ∧ (s.placeTrig u un g now).stop = g.stop ∧
    (s.placeTrig u un g now).addr = g.addr ∧ (s.placeTrig u un g now).mode = g.mode := by
  obtain ⟨xlAt, pa, xlFault, from_, h⟩ := s.placeTrig_frame u un g now
  rw [h]; exact ⟨rfl, rfl, rfl, rfl, rfl, rfl, rfl⟩

end

/-- The trigger that the descriptor at `p` gives a `trig` of trigger `n` (R213, R330). -/
def State.describedTrig (s : State) (v : Unit) (n p : Nat) : Trigger :=
  Trigger.ofWords (v.trigWord (s.now v) p 0) (v.trigWord (s.now v) p 1) (v.trigWord (s.now v) p 2) (v.trigWord (s.now v) p 3) (s.now v)
    (((v.trigs[n]?).map Trigger.openAt).getD 0) (s.free + 1)

theorem State.describedTrig_armed (s : State) (v : Unit) (n p : Nat) :
    (s.describedTrig v n p).armed = decide ((v.trigWord (s.now v) p 0).toNat % 16 ≠ 0) := by
  unfold State.describedTrig Trigger.ofWords
  dsimp only
  rw [nat_bne]

/-- The state after an arming has taken its number (R330). -/
def State.nextFree (s : State) : State := { s with free := s.free + 1 }

@[simp] theorem State.nextFree_setUnit (s : State) (u : Nat) (v : Unit) : (s.setUnit u v).nextFree = s.nextFree.setUnit u v := rfl

/-- The unit with its bank port taken and trigger `n` as `g`. -/
def Unit.armTrig (v1 : Unit) (now p n : Nat) (g : Trigger) : Unit := (v1.reserve [(now + 1, 0, p / 64)]).setTrig n g

theorem SamePlace.armTrig {v w : Unit} {j : Nat} (h : SamePlace v w j) (now p n : Nat) (g : Trigger) : SamePlace v (w.armTrig now p n g) j :=
  (h.reserve [(now + 1, 0, p / 64)]).withWalkers rfl

/-- The body of `trig` once its operand is read. -/
def trigAct (n : BitVec 4) (s : State) (u : Nat) (v v1 : Unit) (p : Nat) : Act :=
  if p % 32 ≠ 0 ∨ Config.unitStoreBytes ≤ p then .fault .access 0
  else if !v1.banksFree [(s.now v + 1, 0, p / 64)] then .wait 2 none
  else if v.badAt p 32 then .go (s.setUnit u ((v1.reserve [(s.now v + 1, 0, p / 64)]).later (s.now v + 1) 1 (.probe p 32))) .seq
  else
    let start := v.trigWord (s.now v) p 0
    let stop := v.trigWord (s.now v) p 1
    let addr := v.trigWord (s.now v) p 2
    let mode := v.trigWord (s.now v) p 3
    if !condOk start || !condOk stop || mode.toNat / 2 ^ 21 ≠ 0 || mode.extractLsb' 19 2 == 3 then .fault .illegal 0
    else if !trigAddrOk u addr.toNat then .fault .access 0
    else
      .go ((s.nextFree.setUnit u (v1.armTrig (s.now v) p n.toNat
        (s.nextFree.placeTrig u v (s.describedTrig v n.toNat p) (s.now v)))).keepHolds fun w => w.1 != u || w.2.1 != n.toNat) .seq

/-- The body of `trig`. -/
def trigBody (a : BitVec 5) (n : BitVec 4) (s : State) (u : Nat) (v : Unit) : Act :=
  if ownPort 0 [a.toNat] then .fault .illegal 0
  else
    match fetch 0 v [a.toNat] with
    | .error q => .miss q
    | .ok (vs, v1) =>
      if poisonOf vs then .go (s.setUnit u (v1.raise 0 (s.now v) flagPS)) .seq else trigAct n s u v v1 (arg vs 0).bits.toNat

theorem execTrig_eq (a : BitVec 5) (n : BitVec 4) (s : State) : exec (.trig a n) s = sysOp (trigBody a n) s := rfl

section
variable {a : BitVec 5} {n : BitVec 4} {s : State} {u : Nat} {v v1 : Unit} {x : Val}

theorem trigBody_poison (ho : ownPort 0 [a.toNat] = false) (hf : fetch 0 v [a.toNat] = .ok ([x], v1)) (hp : x.poison = true) :
    trigBody a n (s.setUnit u v) u v = .go (s.setUnit u (v1.raise 0 (s.now v) flagPS)) .seq := by
  simp [trigBody, ho, hf, hp]

theorem trigBody_clean (ho : ownPort 0 [a.toNat] = false) (hf : fetch 0 v [a.toNat] = .ok ([x], v1)) (hp : x.poison = false) :
    trigBody a n s u v = trigAct n s u v v1 x.bits.toNat := by
  simp [trigBody, ho, hf, hp]

variable {p : Nat}

/-- A descriptor out of place. -/
theorem trigAct_outside (h : p % 32 ≠ 0 ∨ Config.unitStoreBytes ≤ p) : trigAct n s u v v1 p = .fault .access 0 := if_pos h

variable (hin : ¬ (p % 32 ≠ 0 ∨ Config.unitStoreBytes ≤ p)) (hbank : v1.banksFree [(s.now v + 1, 0, p / 64)] = true)
include hin hbank

/-- A descriptor that holds an uncorrectable error. -/
theorem trigAct_bad (hbad : v.badAt p 32 = true) :
    trigAct n s u v v1 p = .go (s.setUnit u ((v1.reserve [(s.now v + 1, 0, p / 64)]).later (s.now v + 1) 1 (.probe p 32))) .seq := by
  unfold trigAct
  simp only [hin, hbank, hbad, Bool.not_true, Bool.false_eq_true, if_false, if_true]

variable (hbad : v.badAt p 32 = false) (hstart : condOk (v.trigWord (s.now v) p 0) = true) (hstop : condOk (v.trigWord (s.now v) p 1) = true)
  (hmode : (v.trigWord (s.now v) p 3).toNat < 2 ^ 21) (hact : (v.trigWord (s.now v) p 3).toNat / 2 ^ 19 % 4 ≠ 3)
include hbad hstart hstop hmode hact

theorem trigAct_legal : trigAct n s u v v1 p =
    if !trigAddrOk u (v.trigWord (s.now v) p 2).toNat then .fault .access 0
    else
      .go ((s.nextFree.setUnit u (v1.armTrig (s.now v) p n.toNat
        (s.nextFree.placeTrig u v (s.describedTrig v n.toNat p) (s.now v)))).keepHolds fun w => w.1 != u || w.2.1 != n.toNat) .seq := by
  have hnext : ((v.trigWord (s.now v) p 3).extractLsb' 19 2 == 3) = false := by
    rw [beq_eq_false_iff_ne]
    intro h
    have := congrArg BitVec.toNat h
    rw [BitVec.extractLsb'_toNat, Nat.shiftRight_eq_div_pow] at this
    exact hact this
  unfold trigAct
  simp only [hin, hbank, hbad, hstart, hstop, Nat.div_eq_of_lt hmode, hnext, Bool.not_true, Bool.or_self, ne_eq, not_true_eq_false, decide_false,
    Bool.false_eq_true, if_false]

end

end Sys2Proof.Machine

open Sys2Proof Sys2Proof.Machine

/-- Settles O29: the body of `trig`, by its operand and its descriptor. -/
theorem trigIssues : Obligations.TrigIssues := by
  intro a n s u v v1 x start stop addr mode hr ho hf _
  have hv1 : v1.trigs = v.trigs := by obtain ⟨qs, rfl⟩ := fetch_unit hf; rfl
  refine ⟨fun hp => ?_, fun hp hout => ?_, fun hp hal hlt hbank hwords hbad hstart hstop hmode hact => ?_, fun hp hal hlt hbank hbad => ?_⟩
  · exact .of_sys hr (execTrig_eq ..) (trigBody_poison ho hf hp) ((SamePlace.of_fetch hf).raise ..)
  · exact .of_sys hr (execTrig_eq ..) ((trigBody_clean ho hf hp).trans (trigAct_outside hout))
  · obtain ⟨rfl, rfl, rfl, rfl⟩ : start = v.trigWord (s.now v) x.bits.toNat 0 ∧ stop = v.trigWord (s.now v) x.bits.toNat 1 ∧
        addr = v.trigWord (s.now v) x.bits.toNat 2 ∧ mode = v.trigWord (s.now v) x.bits.toNat 3 := by
      have : [start, stop, addr, mode] = (List.range 4).map (v.trigWord (s.now v) x.bits.toNat) := hwords
      simpa only [List.range, List.range.loop, List.map_cons, List.map_nil, List.cons.injEq, and_true] using this
    have hbody := (trigBody_clean (a := a) (n := n) (s := s.setUnit u v) (u := u) ho hf hp).trans
      (trigAct_legal (by omega) hbank hbad hstart hstop hmode hact)
    refine ⟨fun hno => ?_, fun hok => ?_⟩
    · refine .of_sys hr (execTrig_eq ..) ?_
      rw [hbody]
      simp only [State.now_setUnit, hno, Bool.not_false, if_true]
    · simp only [State.now_setUnit, hok, Bool.not_true, Bool.false_eq_true, if_false, State.nextFree_setUnit, State.setUnit_setUnit] at hbody
      obtain ⟨un', hpass, hexec⟩ := exec_sys_holds hr (execTrig_eq ..) hbody ((SamePlace.of_fetch hf).armTrig ..)
      have harmed := (s.setUnit u v).describedTrig_armed v n.toNat x.bits.toNat
      obtain ⟨h1, h2, h3, h4, h5, h6, h7⟩ := (s.nextFree.setUnit u v).placeTrig_same u v
        ((s.setUnit u v).describedTrig v n.toNat x.bits.toNat) (s.now v)
      refine ⟨_, un', h1.trans harmed, h2, h3, h4, h5, h6, h7, fun va hva h0 => ?_, fun h => ?_, ?_, hexec⟩
      · exact (s.nextFree.setUnit u v).placeTrig_translated u v _ _ hva (harmed.trans (decide_eq_true h0))
      · exact (s.nextFree.setUnit u v).placeTrig_untranslated u v _ _ (h.imp_right fun h0 => harmed.trans (decide_eq_false (not_not.mpr h0)))
      · rw [← hv1]; exact hpass
  · refine .of_sys hr (execTrig_eq ..) ?_ (((SamePlace.of_fetch hf).reserve _).later ..)
    rw [trigBody_clean ho hf hp, trigAct_bad (s := s.setUnit u v) (by omega) hbank hbad, State.setUnit_setUnit]; rfl
end

