-- ==== Sys2Proof/Proofs/Stops.lean ====
section
/-! PROOFS. What a freeze, a thaw and a stop leave of a unit and of its walkers (R274, R279). -/

namespace Sys2Proof.Machine

/-! ### Changing a walker twice -/

theorem Unit.setWk_setWk (v : Unit) (k : Nat) (f g : Walker → Walker) : (v.setWk k f).setWk k g = v.setWk k (g ∘ f) := by
  simp only [Unit.setWk, modify_modify]

theorem modify_comm {α : Type} (l : List α) (k j : Nat) {f g : α → α} (h : ∀ a, f (g a) = g (f a)) :
    modify (modify l k f) j g = modify (modify l j g) k f := by
  refine List.ext_getElem? fun i => ?_
  simp only [modify_getElem?]
  by_cases hj : i = j
  · by_cases hk : i = k
    · simp only [if_pos hj, if_pos hk, Option.map_map]
      exact congrArg (Option.map · l[i]?) (funext fun a => (h a).symm)
    · simp only [if_pos hj, if_neg hk]
  · simp only [if_neg hj]

theorem Unit.setWk_comm (v : Unit) (k j : Nat) {f g : Walker → Walker} (h : ∀ w, f (g w) = g (f w)) :
    (v.setWk k f).setWk j g = (v.setWk j g).setWk k f := by
  simp only [Unit.setWk, modify_comm v.walkers k j h]

/-! ### Results in flight -/

/-- From `v` to `w` nothing has changed but what the walkers have in flight. -/
structure Unit.SameButFlight (v w : Unit) : Prop where
  rest  : ∃ ws, w = { v with walkers := ws }
  count : w.walkers.length = v.walkers.length
  wk    : ∀ j, ∃ l, w.wk j = { v.wk j with inflight := l }

theorem Unit.SameButFlight.refl (v : Unit) : v.SameButFlight v := ⟨⟨_, rfl⟩, rfl, fun _ => ⟨_, rfl⟩⟩

theorem Unit.SameButFlight.trans {a b c : Unit} (h : a.SameButFlight b) (g : b.SameButFlight c) : a.SameButFlight c := by
  obtain ⟨⟨ws, rfl⟩, hc, hw⟩ := h
  obtain ⟨⟨xs, rfl⟩, gc, gw⟩ := g
  refine ⟨⟨xs, rfl⟩, gc.trans hc, fun j => ?_⟩
  obtain ⟨l, hl⟩ := hw j
  obtain ⟨m, hm⟩ := gw j
  exact ⟨m, by rw [hm, hl]⟩

theorem Unit.SameButFlight.setWk (v : Unit) (k : Nat) (f : Walker → List Pend) : v.SameButFlight (v.setWk k fun w => { w with inflight := f w }) := by
  refine ⟨⟨_, rfl⟩, Unit.setWk_count .., fun j => ?_⟩
  rw [Unit.wk_setWk]
  split
  · rename_i hj; rw [hj.1]; exact ⟨_, rfl⟩
  · exact ⟨_, rfl⟩

theorem Unit.SameButFlight.foldl {f : Unit → Nat → Unit} (hf : ∀ (v : Unit) k, v.SameButFlight (f v k)) (l : List Nat) (v : Unit) :
    v.SameButFlight (l.foldl f v) := by
  induction l generalizing v with
  | nil => exact .refl v
  | cons k l ih => exact (hf v k).trans (ih _)

/-- A freeze keeps what is in flight as values, and changes nothing else. -/
theorem Unit.freeze_same (v : Unit) (c : Nat) (own : Bool) : v.SameButFlight (v.freeze c own) :=
  Unit.SameButFlight.foldl (fun v k => Unit.SameButFlight.setWk v k _) _ v

/-- A thaw of a walker that has nothing to land first gives its results new cycles. -/
theorem Unit.thawWalker_settled {v : Unit} {k : Nat} (h : (v.wk k).settled) (r : Nat) :
    ∃ l, v.thawWalker k r = v.setWk k fun w => { w with inflight := l } := by
  unfold Unit.thawWalker
  dsimp only
  have hnone : (v.wk k).inflight.filter (fun p => p.eff.isControl && p.due == 0 && nextIssue (v.divisor k) r == r &&
      !(match p.eff with | .push q _ ext => ext && v.qOver q | _ => false)) = [] := by
    refine List.filter_eq_nil_iff.mpr fun p hp hc => ?_
    simp only [Bool.and_eq_true, beq_iff_eq] at hc
    exact h p hp hc.1.1.1 hc.1.1.2
  exact ⟨_, congrArg (List.foldl Unit.landFrozen _) hnone⟩

theorem Unit.foldl_thawWalker {ks : List Nat} (hn : ks.Nodup) {v : Unit} (h : ∀ k ∈ ks, (v.wk k).settled) (r : Nat) :
    v.SameButFlight (ks.foldl (fun v k => v.thawWalker k r) v) := by
  induction ks generalizing v with
  | nil => exact .refl v
  | cons k ks ih =>
    obtain ⟨l, hl⟩ := Unit.thawWalker_settled (h k List.mem_cons_self) r
    obtain ⟨hk, hn⟩ := List.nodup_cons.mp hn
    rw [List.foldl_cons, hl]
    refine (Unit.SameButFlight.setWk v k fun _ => l).trans (ih hn fun j hj => ?_)
    rw [Unit.wk_setWk_ne _ _ fun he : j = k => hk (he ▸ hj)]
    exact h j (List.mem_cons_of_mem _ hj)

/-- A thaw of settled walkers changes nothing but what is in flight (R279). -/
theorem Unit.thaw_same {v : Unit} (h : ∀ j, (v.wk j).settled) (r : Nat) : v.SameButFlight (v.thaw r) :=
  Unit.foldl_thawWalker List.nodup_range (fun k _ => h k) r

/-! ### The stop of a running unit (R274-R276) -/

theorem State.tell_units (s : State) (ty pkg param unit : Nat) (bs : List Byte) : (s.tell ty pkg param unit bs).units = s.units := rfl

theorem State.tellJob_units (s : State) (ty job unit : Nat) (bs : List Byte) : (s.tellJob ty job unit bs).units = s.units :=
  foldl_units (fun s _ => s.tell_units ..) _ s

theorem State.startWave_units (s : State) (job pkg u : Nat) (t0 : Frac) (cause : W64) (lag : Nat → Option Nat) :
    (s.startWave job pkg u t0 cause lag).units = s.units := by
  unfold State.startWave; split <;> rfl

theorem State.sendWave_units (s : State) (job u : Nat) (t0 : Frac) (cause : W64) : (s.sendWave job u t0 cause).units = s.units :=
  (foldl_units (fun s _ => s.tellJob_units ..) _ _).trans (s.startWave_units ..)

theorem State.spread_units (s : State) (u : Nat) (c : Cause) : (s.spread u c).units = s.units := by
  unfold State.spread
  split
  · rfl
  · dsimp only
    split <;> split
    · exact s.sendWave_units ..
    · rfl
    · exact s.sendWave_units ..
    · rfl

theorem State.countStop_units (s : State) (un : Unit) (cls : FaultClass) : (s.countStop un cls).units = s.units := by
  unfold State.countStop; dsimp only
  split
  · split <;> rfl
  · rfl

/-- What a stop of one unit leaves of the others. -/
theorem State.stopOne_other (s : State) {u v : Nat} (hv : v ≠ u) (c : Cause) (cls : FaultClass) (wk info : Nat) (d : Detail) (own : Bool) :
    (s.stopOne u c cls wk info d own).unit? v = s.unit? v := by
  have hset : ∀ x : Unit, (s.setUnit u x).unit? v = s.unit? v := fun x => by rw [State.unit?_setUnit, if_neg hv]
  unfold State.stopOne
  split
  · rfl
  · dsimp only
    split
    · split
      · split
        · exact hset _
        · split
          · exact hset _
          · rfl
      · rfl
    · split
      · exact hset _
      · rfl

/-- A unit that a fault has stopped: `CAUSE` records it, and registers, places and the store stay (R274-R276). -/
structure Unit.StoppedFrom (un un' : Unit) (cause : W64) : Prop where
  run   : un'.run = .stopped
  cause : un'.cause = cause
  store : un'.store = un.store
  x     : ∀ j, (un'.wk j).x = (un.wk j).x
  idx   : ∀ j, (un'.wk j).idx = (un.wk j).idx

/-- Walkers that have noted their `EPC` are the same but for it. -/
theorem Unit.wk_noteEpc {v w : Unit} {f : Walker → W64} (h : w.walkers = v.walkers.map fun x => { x with epc := f x }) (j : Nat) :
    ∃ e, w.wk j = { v.wk j with epc := e } := by
  unfold Unit.wk
  rw [h, List.getD_eq_getElem?_getD, List.getD_eq_getElem?_getD, List.getElem?_map]
  cases v.walkers[j]? with
  | none => exact ⟨Walker.zero.epc, rfl⟩
  | some x => exact ⟨f x, rfl⟩

theorem State.stopOne_running {s : State} {u : Nat} {un : Unit} (hu : s.unit? u = some un) (hr : un.run = .running) (hs : un.stop = none)
    (c : Cause) (cls : FaultClass) (wk info : Nat) (d : Detail) (own : Bool) : ∃ un', (s.stopOne u c cls wk info d own).unit? u = some un' ∧
      un.StoppedFrom un' (causeImage c (if cls = .u then 0 else wk) (if cls = .u then 0 else 2 ^ wk) info) := by
  unfold State.stopOne
  simp only [hu, hs, hr, true_or, if_true, reduceCtorEq, if_false]
  obtain ⟨⟨ws, hws⟩, -, hw⟩ := un.freeze_same (s.now un) (c == .bkpt && cls == .p)
  have hwk : ∀ w : Unit, w.walkers = (un.freeze (s.now un) (c == .bkpt && cls == .p)).walkers.map (fun x => { x with epc := BitVec.ofNat 64 x.idx }) →
      ∀ j, (w.wk j).x = (un.wk j).x ∧ (w.wk j).idx = (un.wk j).idx := fun w h j => by
    obtain ⟨l, hl⟩ := hw j
    obtain ⟨e, he⟩ := Unit.wk_noteEpc h j
    rw [he, hl]; exact ⟨rfl, rfl⟩
  exact ⟨_, State.unit?_setUnit_self .., rfl, rfl, by rw [hws], fun j => (hwk _ rfl j).1, fun j => (hwk _ rfl j).2⟩

/-- A fault stops a running unit. -/
theorem State.takeFault_running {s : State} {u : Nat} {un : Unit} (hu : s.unit? u = some un) (hr : un.run = .running) (hs : un.stop = none)
    (c : Cause) (cls : FaultClass) (wk info : Nat) (d : Detail) : ∃ un', (s.takeFault u c cls wk info d).unit? u = some un' ∧
      un.StoppedFrom un' (causeImage c (if cls = .u then 0 else wk) (if cls = .u then 0 else 2 ^ wk) info) := by
  have hu' : (s.countStop un cls).unit? u = some un := by unfold State.unit?; rw [s.countStop_units]; exact hu
  obtain ⟨un', h', hstop⟩ := State.stopOne_running hu' hr hs c cls wk info d true
  refine ⟨un', ?_, hstop⟩
  have hspread : ∀ t : State, (t.spread u c).unit? u = t.unit? u := fun t => by unfold State.unit?; rw [t.spread_units]
  unfold State.takeFault
  simp only [hu, hr, reduceCtorEq, false_and, if_false]
  rw [hspread]
  split
  · exact (State.stopOne_other _ (partner_ne u).symm ..).trans h'
  · exact h'

end Sys2Proof.Machine
end

