-- ==== Sys2Proof/Proofs/ContextWords.lean ====
section
/-! PROOFS. The words that save and load a context: what the record sees of the unit, and what their cycle leaves (O30). -/

namespace Sys2Proof.Machine

/-! ### The record does not show that its unit is frozen (R220, R222) -/

/-- The unit in another state of running, with another context, and its `sw` in another slot. -/
def Unit.poised (v : Unit) (run : Run) (ctx : Option Ctx) (slot : Slot) : Unit :=
  { v with run, ctx }.setWk 0 fun w => { w with slot }

section
variable (v : Unit) (run : Run) (ctx : Option Ctx) (slot : Slot)

theorem Unit.poised_setWk (k : Nat) {f : Walker → Walker} (h : ∀ w sl, f { w with slot := sl } = { f w with slot := sl }) :
    (v.poised run ctx slot).setWk k f = (v.setWk k f).poised run ctx slot :=
  Unit.setWk_comm { v with run, ctx } 0 k fun w => (h w slot).symm

theorem Unit.poised_wk (k : Nat) : ∃ sl, (v.poised run ctx slot).wk k = { v.wk k with slot := sl } := by
  unfold Unit.poised
  rw [Unit.wk_setWk]
  split
  · rename_i hk; rw [hk.1]; exact ⟨slot, rfl⟩
  · exact ⟨(v.wk k).slot, rfl⟩

/-- A change of a walker's registers and return indices is made alike. -/
theorem Unit.poised_setRegs (k : Nat) (g : List Val → List Val) (r : List Nat → List Nat) :
    (v.poised run ctx slot).setWk k (fun w => { w with x := g w.x, ras := r w.ras }) =
      (v.setWk k fun w => { w with x := g w.x, ras := r w.ras }).poised run ctx slot :=
  v.poised_setWk run ctx slot k (f := fun w => { w with x := g w.x, ras := r w.ras }) fun _ _ => rfl

theorem Unit.poised_landRefill (wk win a cut : Nat) :
    (v.poised run ctx slot).landRefill wk win a cut = (v.landRefill wk win a cut).poised run ctx slot := by
  have hs : (v.poised run ctx slot).store = v.store := rfl
  have hb : (v.poised run ctx slot).badWords = v.badWords := rfl
  have hx : (v.poised run ctx slot).refilled win a cut = v.refilled win a cut := by
    funext x; simp only [Unit.refilled, Unit.loadBytes, Unit.badAt, hs, hb]
  have hl : (v.poised run ctx slot).loadBytes cut (a + 128) 8 = v.loadBytes cut (a + 128) 8 := by simp only [Unit.loadBytes, hs]
  rw [Unit.landRefill_eq, Unit.landRefill_eq, hx, hl]
  exact v.poised_setRegs run ctx slot wk (v.refilled win a cut) (fun l => l.set win (leNat (v.loadBytes cut (a + 128) 8)))

theorem Unit.poised_pend (l : List Pend) : { v.poised run ctx slot with pend := l } = ({ v with pend := l } : Unit).poised run ctx slot := rfl

/-- Landing one refill that is in flight (R104). -/
def Unit.refillBy (v : Unit) (p : Pend) : Unit :=
  match p.eff with
  | .refill wk win a cut => { v.landRefill wk win a cut with pend := v.pend.filter fun q => q.seq != p.seq }
  | _ => v

theorem Unit.landRefills_eq : v.landRefills = v.pend.foldl Unit.refillBy v := rfl

theorem Unit.poised_refillBy (p : Pend) : (v.poised run ctx slot).refillBy p = (v.refillBy p).poised run ctx slot := by
  unfold Unit.refillBy
  split
  · rw [Unit.poised_landRefill, Unit.poised_pend]; rfl
  · rfl

theorem Unit.poised_landRefills : (v.poised run ctx slot).landRefills = v.landRefills.poised run ctx slot := by
  rw [Unit.landRefills_eq, Unit.landRefills_eq]
  exact List.foldl_hom (fun x : Unit => x.poised run ctx slot) fun x p => x.poised_refillBy run ctx slot p

theorem Mem.setWalker_poised (m : Mem) (a k : Nat) : m.setWalker a (v.poised run ctx slot) k = m.setWalker a v k := by
  obtain ⟨sl, h⟩ := v.poised_wk run ctx slot k
  unfold Mem.setWalker Mem.setWkRegs
  rw [h]; rfl

theorem State.record_poised (s : State) (u kind seq : Nat) (cut : Nat × Nat) :
    s.record u (v.poised run ctx slot) kind seq cut = s.record u v kind seq cut := by
  unfold State.record
  simp only [Unit.poised_landRefills, Mem.setWalker_poised]
  rfl

end

/-! ### The word's body -/

/-- The unit that a context word freezes in cycle `now`: its results in flight are kept (R219, R223). -/
def Unit.frozenAt (v : Unit) (now : Nat) : Unit := (v.noteSystem now).freeze now true

theorem Unit.frozenAt_same (v : Unit) (now : Nat) : ∃ ts, { v with trigs := ts }.SameButFlight (v.frozenAt now) :=
  ⟨_, (v.noteSystem now).freeze_same now true⟩

/-- The body of `ctxs` and `ctxl`. -/
def ctxBody (load : Bool) (a : BitVec 5) (s : State) (u : Nat) (un : Unit) : Act :=
  let now := s.now un
  if ownPort 0 [a.toNat] then .fault .illegal 0
  else if !un.quiescent now then .wait 1 (some 0x32)
  else if un.walkers.any fun w => w.inner.isSome then .fault .illegal 0
  else
    match fetch 0 un [a.toNat] with
    | .error q => .miss q
    | .ok (vs, un') =>
      let p := (arg vs 0).bits.toNat
      if poisonOf vs then .go (s.setUnit u (un'.raise 0 now flagPS)) .seq
      else if p / 2 ^ 48 ≠ 2 ^ 15 ∨ p % 65536 ≠ 0 then .fault .access 0
      else
        let va := p % 2 ^ 48
        let (pages, fault) := s.ctxPages u un va now (!load)
        let lo := un.ctxLat u pages
        let start := now + un.lat.lx
        let (check, fin) := if load then un.loadEnd start lo else (0, un.saveEnd start lo)
        let un' := un'.frozenAt now
        let r := s.region un.region
        let c : Ctx :=
          { load, t := now, va, xlAt := some start, xlFault := fault, pages, checkAt := if load then some check else none, endAt := fin
            first := nextIssue (un.divisor 3) (if load then check else start), lo, seed := s.free
            image := if load then [] else s.record u (un'.setWk 0 fun w => w.cross now w.idx sysWord) 0 0 (r.rcc, r.rscReg), bad := [], resp := [], ue := false }
        .stand ({ s with free := s.free + Config.ctxBlocks }.setUnit u { un' with run := .frozen, ctx := some c }) 0 (some 0x32)

/-- A walker whose word has issued in this cycle holds the others (R218). -/
def Walker.quieted (w : Walker) : Walker :=
  match w.slot with
  | .done 0 none => { w with slot := .done 0 (some 0x32) }
  | _ => w

theorem ctxOp_eq (load : Bool) (a : BitVec 5) (s : State) :
    ctxOp load a s = .next ((runWord sysWord (sysBody (ctxBody load a)) s).modUnit s.focus.1 fun un => un.setWk 0 Walker.quieted) := rfl

section
variable {f : WordInfo} {body : State → Nat → Nat → Act} {s t : State} {u k : Nat} {v : Unit} (h : Ready f s u k v)
include h

theorem Ready.runWord_wait {cls : Nat} {flag : Option Nat} (hb : body (s.setUnit u v) u k = .wait cls flag) :
    runWord f body s = (s.setUnit u v).close u k cls flag := by
  obtain ⟨un, hs, rfl⟩ := h
  rw [runWord_ready hs, hb]

theorem Ready.runWord_stand {cls : Nat} {flag : Option Nat} (hb : body (s.setUnit u v) u k = .stand t cls flag) :
    runWord f body s = t.close u k cls flag := by
  obtain ⟨un, hs, rfl⟩ := h
  rw [runWord_ready hs, hb]

theorem Ready.runWord_fault {c : Cause} {info : Nat} (hb : body (s.setUnit u v) u k = .fault c info) :
    runWord f body s = (s.setUnit u v).takeFault u c .p k info Detail.walker := by
  obtain ⟨un, hs, rfl⟩ := h
  rw [runWord_ready hs, hb]

theorem Ready.focus : s.focus = (u, k) := by
  obtain ⟨un, hs, rfl⟩ := h
  exact hs.focus

end

theorem Unit.setWk_self {v : Unit} {k : Nat} {f : Walker → Walker} (h : f (v.wk k) = v.wk k) : v.setWk k f = v := by
  rw [v.setWk_congr (g := id) k h]
  have : modify v.walkers k id = v.walkers := List.ext_getElem? fun j => by rw [modify_getElem?]; split <;> simp
  unfold Unit.setWk; rw [this]

theorem Walker.quieted_issued {w : Walker} (h : w.slot = .done 0 none) : w.quieted = { w with slot := .done 0 (some 0x32) } := by
  unfold Walker.quieted; rw [h]; rfl

theorem Walker.quieted_other {w : Walker} (h : w.slot ≠ .done 0 none) : w.quieted = w := by
  unfold Walker.quieted; split
  · exact absurd ‹_› h
  · rfl

theorem Walker.quieted_eq (w : Walker) : ∃ slot, w.quieted = { w with slot } := by
  unfold Walker.quieted; split <;> exact ⟨_, rfl⟩

/-- A walker whose slot has ended otherwise than by an issue is left. -/
theorem Unit.setWk_quieted {v : Unit} {k : Nat} {f : Walker → Walker} (h : ∀ w, (f w).slot ≠ .done 0 none) :
    (v.setWk k f).setWk k Walker.quieted = v.setWk k f := by
  rw [Unit.setWk_setWk]
  exact congrArg (v.setWk k) (funext fun w => Walker.quieted_other (h w))

/-- Ending a slot changes no register and no place. -/
theorem Unit.setWk_quieted_frame (v : Unit) (k j : Nat) :
    ((v.setWk k Walker.quieted).wk j).x = (v.wk j).x ∧ ((v.setWk k Walker.quieted).wk j).idx = (v.wk j).idx := by
  rw [Unit.wk_setWk]
  split
  · rename_i hj
    obtain ⟨slot, h⟩ := (v.wk k).quieted_eq
    rw [hj.1, h]; exact ⟨rfl, rfl⟩
  · exact ⟨rfl, rfl⟩

section
variable {load : Bool} {i : Instr} {a : BitVec 5} {s t : State} {u : Nat} {v : Unit}
  (hi : i = if load then .ctxl a else .ctxs a) (hr : Ready sysWord s u 0 v)
include hi hr

theorem exec_ctx (ht : runWord sysWord (sysBody (ctxBody load a)) s = t) :
    exec i s = .next (t.modUnit u fun un => un.setWk 0 Walker.quieted) := by
  have he : exec i s = ctxOp load a s := by cases load <;> rw [hi] <;> rfl
  rw [he, ctxOp_eq, ht, hr.focus]

/-- A context word that waits, or stands in a state of its own. -/
theorem exec_ctx_close {w : Unit} {cls : Nat} {flag : Option Nat} (hf : ¬ (cls = 0 ∧ flag = none))
    (ht : runWord sysWord (sysBody (ctxBody load a)) s = (t.setUnit u w).close u 0 cls flag) :
    exec i s = .next ((t.setUnit u w).close u 0 cls flag) := by
  rw [exec_ctx hi hr ht]
  simp only [State.close, State.modUnit_setUnit]
  rw [Unit.setWk_quieted]
  intro w h
  simp only [Slot.done.injEq] at h
  exact hf h

end

section
variable {load : Bool} {a : BitVec 5} {s : State} {u : Nat} {v v1 : Unit} {x : Val} (ho : ownPort 0 [a.toNat] = false)
include ho

theorem ctxBody_busy (hq : v.quiescent (s.now v) = false) : ctxBody load a s u v = .wait 1 (some 0x32) := by
  unfold ctxBody
  simp only [ho, hq, Bool.false_eq_true, if_false, Bool.not_false, if_true]

variable (hq : v.quiescent (s.now v) = true) (hin : ∀ w ∈ v.walkers, w.inner = none) (hf : fetch 0 v [a.toNat] = .ok ([x], v1))
include hq hin hf

theorem ctxBody_poison (hp : x.poison = true) : ctxBody load a s u v = .go (s.setUnit u (v1.raise 0 (s.now v) flagPS)) .seq := by
  have hany : (v.walkers.any fun w => w.inner.isSome) = false := List.any_eq_false.mpr fun w hw => by simp [hin w hw]
  unfold ctxBody
  simp only [ho, hq, hany, hf, poisonOf_singleton, hp, Bool.not_true, Bool.false_eq_true, if_false, if_true]

theorem ctxBody_access (hp : x.poison = false) (hva : x.bits.toNat / 2 ^ 48 ≠ 2 ^ 15 ∨ x.bits.toNat % 65536 ≠ 0) :
    ctxBody load a s u v = .fault .access 0 := by
  have hany : (v.walkers.any fun w => w.inner.isSome) = false := List.any_eq_false.mpr fun w hw => by simp [hin w hw]
  unfold ctxBody
  simp only [ho, hq, hany, hf, poisonOf_singleton, arg_singleton, hp, hva, Bool.not_true, Bool.false_eq_true, if_false, if_true]

/-- The context word of a quiescent unit, at a proper address, freezes the unit and starts the transfer. -/
theorem ctxBody_stands (hp : x.poison = false) (hspace : x.bits.toNat / 2 ^ 48 = 2 ^ 15) (hblock : x.bits.toNat % 65536 = 0) :
    ∃ c : Ctx, ctxBody load a (s.setUnit u v) u v = .stand ({ s with free := s.free + Config.ctxBlocks }.setUnit u
        { v1.frozenAt (s.now v) with run := .frozen, ctx := some c }) 0 (some 0x32) ∧
      c.load = load ∧ c.t = s.now v ∧ c.va = x.bits.toNat % 2 ^ 48 ∧
      (load = false → c.image = s.record u ((v1.frozenAt (s.now v)).setWk 0 fun w => w.cross (s.now v) w.idx sysWord) 0 0
        ((s.region v.region).rcc, (s.region v.region).rscReg)) := by
  have hany : (v.walkers.any fun w => w.inner.isSome) = false := List.any_eq_false.mpr fun w hw => by simp [hin w hw]
  unfold ctxBody
  simp only [State.now_setUnit, ho, hq, hany, hf, poisonOf_singleton, arg_singleton, hp, hspace, hblock, Bool.not_true, Bool.false_eq_true, if_false, ne_eq,
    not_true_eq_false, or_self]
  generalize (s.setUnit u v).ctxPages u v _ _ _ = r
  obtain ⟨pages, fault⟩ := r
  generalize (if load = true then v.loadEnd _ _ else (0, v.saveEnd _ _)) = e
  obtain ⟨check, fin⟩ := e
  exact ⟨_, congrArg (fun t => Act.stand t 0 (some 0x32)) (State.setUnit_setUnit { s with free := s.free + Config.ctxBlocks } u v _), rfl, rfl, rfl,
    fun h => by rw [h]; rfl⟩

end

/-- The walkers of a unit that a context word has frozen. -/
theorem Unit.frozenAt_frame (v : Unit) (now : Nat) : (v.frozenAt now).store = v.store ∧ (v.frozenAt now).walkers.length = v.walkers.length ∧
    ∀ j, ((v.frozenAt now).wk j).x = (v.wk j).x ∧ ((v.frozenAt now).wk j).idx = (v.wk j).idx := by
  obtain ⟨ts, ⟨ws, hrest⟩, hcount, hwk⟩ := v.frozenAt_same now
  refine ⟨by rw [hrest], hcount, fun j => ?_⟩
  obtain ⟨l, hl⟩ := hwk j
  rw [hl]; exact ⟨rfl, rfl⟩

end Sys2Proof.Machine

open Sys2Proof Sys2Proof.Machine

/-- Settles O30: the body of the two words, and the record, which does not see what the word has made of its unit. -/
theorem contextWordsFreeze : Obligations.ContextWordsFreeze := by
  intro load i a s u v v1 x hi hr ho hf
  refine ⟨fun hq => ?_, fun hq hin => ⟨fun hp => ?_, fun hp hva hrun hstop => ?_, fun hp hspace hblock => ?_⟩⟩
  · exact exec_ctx_close hi hr (by simp) (hr.runWord_wait ((sysBody_setUnit ..).trans (ctxBody_busy ho hq)))
  · have hplace := (SamePlace.of_fetch (j := 0) hf).raise 0 (s.now v) flagPS
    obtain ⟨un', ht, hpass⟩ := runWord_passed (s1 := s) (n := .seq) hr
      (((sysBody_setUnit ..).trans (ctxBody_poison ho hq hin hf hp)).trans (by rw [State.setUnit_setUnit]; rfl))
      hplace.count hplace.idx (.inl (hplace.stopped.trans hr.stopped)) nofun
    refine ⟨un', hpass, ?_⟩
    rw [exec_ctx hi hr ht, State.modUnit_setUnit,
      Unit.setWk_congr un' 0 (g := fun w => { w with slot := .done 0 (some 0x32) }) (Walker.quieted_issued hpass.slot)]
  · have ht := hr.runWord_fault ((sysBody_setUnit ..).trans (ctxBody_access (load := load) ho hq hin hf hp hva))
    obtain ⟨w, hw, hstopped⟩ := State.takeFault_running (State.unit?_setUnit_self s u v) hrun hstop .access .p 0 0 Detail.walker
    refine ⟨_, w.setWk 0 Walker.quieted, exec_ctx hi hr ht, by rw [State.unit?_modUnit, if_pos rfl, hw]; rfl, hstopped.run, hstopped.cause,
      hstopped.store, fun j => ?_⟩
    obtain ⟨hx, hidx⟩ := w.setWk_quieted_frame 0 j
    exact ⟨hx.trans (hstopped.x j), hidx.trans (hstopped.idx j)⟩
  · obtain ⟨c, hbody, hload, hct, hva, himage⟩ := ctxBody_stands (load := load) (s := s) (u := u) ho hq hin hf hp hspace hblock
    have hexec := exec_ctx_close hi hr (by simp) (hr.runWord_stand ((sysBody_setUnit ..).trans hbody))
    rw [State.close, State.modUnit_setUnit] at hexec
    obtain ⟨hstore, hcount, hwk⟩ := v1.frozenAt_frame (s.now v)
    have hwalk : 0 < (v1.frozenAt (s.now v)).walkers.length := by rw [hcount, (SamePlace.of_fetch (j := 0) hf).count]; exact hr.walker
    have hv1 : v1.store = v.store ∧ ∀ j, v1.wk j = v.wk j := by obtain ⟨qs, rfl⟩ := fetch_unit hf; exact ⟨rfl, fun _ => rfl⟩
    refine ⟨_, (v1.frozenAt (s.now v)).poised .frozen (some c) (.done 0 (some 0x32)), c, hexec, State.unit?_setUnit_self .., rfl, rfl, hload, hct, hva,
      ?_, hstore.trans hv1.1, fun j => ?_, fun j hj => ?_, rfl, fun hl => ?_⟩
    · exact congrArg Walker.slot (Unit.wk_setWk_self { v1.frozenAt (s.now v) with run := .frozen, ctx := some c } _ hwalk)
    · obtain ⟨sl, hsl⟩ := (v1.frozenAt (s.now v)).poised_wk .frozen (some c) (.done 0 (some 0x32)) j
      rw [hsl, ← hv1.2 j]; exact hwk j
    · rw [State.unit?_setUnit, if_neg hj]; rfl
    · rw [himage hl, Unit.poised_setWk _ _ _ _ _ fun _ _ => rfl, State.record_poised]
end

