-- ==== Sys2Proof/Proofs/RecordBlocks.lean ====
section
/-! PROOFS. The blocks of a context record as they are written and read (R217, R220, R221). -/

namespace Sys2Proof.Machine

/-! ### What memory's own steps leave alone -/

/-- From `s` to `t` the units, the kernels and the regions stand as they were. -/
structure State.Aside (s t : State) : Prop where
  units   : t.units = s.units
  kernels : t.kernels = s.kernels
  regions : t.regions = s.regions

theorem State.Aside.refl (s : State) : s.Aside s := ⟨rfl, rfl, rfl⟩

theorem State.Aside.trans {r s t : State} (h : r.Aside s) (g : s.Aside t) : r.Aside t :=
  ⟨g.units.trans h.units, g.kernels.trans h.kernels, g.regions.trans h.regions⟩

theorem State.Aside.foldl {α : Type} {f : State → α → State} (hf : ∀ (s : State) a, s.Aside (f s a)) (l : List α) (s : State) : s.Aside (l.foldl f s) := by
  induction l generalizing s with
  | nil => exact .refl s
  | cons a l ih => exact (hf s a).trans (ih _)

theorem State.Aside.unit? {s t : State} (h : s.Aside t) (v : Nat) : t.unit? v = s.unit? v := by unfold State.unit?; rw [h.units]

theorem State.Aside.region {s t : State} (h : s.Aside t) (i : Nat) : t.region i = s.region i := by unfold State.region; rw [h.regions]

theorem State.setStore_aside (s : State) (sp : Space) (st : Store) : s.Aside (s.setStore sp st) := by
  unfold State.setStore; split <;> exact ⟨rfl, rfl, rfl⟩

/-- From `s` to `t` only jobs, free values and timers have changed. -/
def State.Notes (s t : State) : Prop := ∃ jobs free timers, t = { s with jobs, free, timers }

theorem State.Notes.trans {r s t : State} (h : r.Notes s) (g : s.Notes t) : r.Notes t := by
  obtain ⟨_, _, _, rfl⟩ := h
  obtain ⟨j, f, l, rfl⟩ := g
  exact ⟨j, f, l, rfl⟩

theorem State.Notes.foldl {α : Type} {f : State → α → State} (hf : ∀ (s : State) a, s.Notes (f s a)) (l : List α) (s : State) : s.Notes (l.foldl f s) := by
  induction l generalizing s with
  | nil => exact ⟨_, _, _, rfl⟩
  | cons a l ih => exact (hf s a).trans (ih _)

/-- A watched word that a write touches is noted (R262). -/
theorem State.watchWrite_notes (s : State) (w : WriteRec) : s.Notes (s.watchWrite w) := by
  refine State.Notes.foldl (fun s e => ?_) s.watched s
  obtain ⟨a, x⟩ := e
  split
  · cases x <;> exact ⟨_, _, _, rfl⟩
  · exact ⟨_, _, _, rfl⟩

theorem State.Notes.aside {s t : State} (h : s.Notes t) : s.Aside t := by obtain ⟨_, _, _, rfl⟩ := h; exact ⟨rfl, rfl, rfl⟩

theorem State.Notes.dram {s t : State} (h : s.Notes t) : t.dram = s.dram := by obtain ⟨_, _, _, rfl⟩ := h; rfl

/-- The write recorded in its store (R248). -/
def State.stored (s : State) (pad : Bool) (p : Piece) (w : WriteRec) : State :=
  let s := s.mend p.space p.addr p.n
  { s.setStore p.space (if pad then (s.storeOf p.space).perform w else (s.storeOf p.space).append w) with nextId := s.nextId + 1 }

/-- Its effect on watched words (R262). -/
def State.noted (s : State) (p : Piece) (w : WriteRec) : State := if p.space = .dram then s.watchWrite w else s

/-- Its effect on a checkpoint image, which is whole no more (R321). -/
def State.marred (s : State) (p : Piece) : State :=
  match (if p.space = .host then s.inImage p.addr else none) with
  | some k => { s with images := s.images.map fun (e : Nat × Image) => if e.1 = k then (k, { e.2 with whole := false }) else e }
  | none => s

/-- Its effect on the key of its block (R245). -/
def State.keyed (s : State) (p : Piece) : State :=
  if p.space = .dram ∧ p.part < 64 then
    { s with sealed := (p.addr / 64, p.part, s.keyOf p.part) :: s.sealed.filter fun e => e.1 != p.addr / 64 }
  else s

/-- The four effects of a performed write, in their order; what another key's bytes leave of the block comes before the bytes written. -/
theorem State.performWrite_eq (s : State) (pad : Bool) (p : Piece) (w : WriteRec) : ∃ (id : Nat) (pre : List WCell), s.performWrite pad p w =
    (((s.stored pad p { w with id, cells := pre ++ w.cells }).noted p { w with id, cells := pre ++ w.cells }).marred p).keyed p := ⟨_, _, rfl⟩

theorem State.noted_notes (s : State) (p : Piece) (w : WriteRec) : s.Notes (s.noted p w) := by
  unfold State.noted; split
  · exact s.watchWrite_notes w
  · exact ⟨_, _, _, rfl⟩

theorem State.marred_frame (s : State) (p : Piece) : s.Aside (s.marred p) ∧ (s.marred p).dram = s.dram := by
  unfold State.marred; split <;> exact ⟨⟨rfl, rfl, rfl⟩, rfl⟩

theorem State.keyed_frame (s : State) (p : Piece) : s.Aside (s.keyed p) ∧ (s.keyed p).dram = s.dram := by
  unfold State.keyed; split <;> exact ⟨⟨rfl, rfl, rfl⟩, rfl⟩

theorem State.stored_aside (s : State) (pad : Bool) (p : Piece) (w : WriteRec) : s.Aside (s.stored pad p w) := by
  obtain ⟨hu, hk, hr⟩ := (s.mend p.space p.addr p.n).setStore_aside p.space
    (if pad then ((s.mend p.space p.addr p.n).storeOf p.space).perform w else ((s.mend p.space p.addr p.n).storeOf p.space).append w)
  exact ⟨hu, hk, hr⟩

theorem State.performWrite_aside (s : State) (pad : Bool) (p : Piece) (w : WriteRec) : s.Aside (s.performWrite pad p w) := by
  obtain ⟨id, pre, h⟩ := s.performWrite_eq pad p w
  rw [h]
  exact (((s.stored_aside ..).trans (State.noted_notes ..).aside).trans (State.marred_frame ..).1).trans (State.keyed_frame ..).1

/-- An off-core write to device memory stands in its log. -/
theorem State.performWrite_dram (s : State) {p : Piece} (hp : p.space = .dram) (w : WriteRec) :
    ∃ (id : Nat) (pre : List WCell), (s.performWrite false p w).dram = s.dram.append { w with id, cells := pre ++ w.cells } := by
  obtain ⟨id, pre, h⟩ := s.performWrite_eq false p w
  refine ⟨id, pre, ?_⟩
  rw [h, (State.keyed_frame ..).2, (State.marred_frame ..).2, (State.noted_notes ..).dram, State.stored, hp]
  rfl

/-! ### A write at the end of the coherence order (R248) -/

/-- Of a unit's beats the write of the newest goes last. -/
theorem insertCoherent_last {w : WriteRec} {l : List WriteRec} (hc : w.cells ≠ []) (h : ∀ v ∈ l, v.who.same w.who = true → v.key ≤ w.key) :
    insertCoherent w l = l ++ [w] := by
  induction l with
  | nil => rfl
  | cons v vs ih =>
    have hbehind : ∀ a, v.behind w.who w.key a = false := fun a => by
      rw [WriteRec.behind, Bool.and_eq_false_iff, Bool.and_eq_false_iff]
      by_cases hs : v.who.same w.who = true
      · exact .inl (.inr (decide_eq_false (Nat.not_lt.mpr (h v List.mem_cons_self hs))))
      · exact .inl (.inl (Bool.eq_false_iff.mpr hs))
    have hany : (w.cells.any fun c => v.behind w.who w.key c.addr) = false := List.any_eq_false.mpr fun c _ => by simp [hbehind]
    have hall : (w.cells.all fun c => v.behind w.who w.key c.addr) = false := by
      obtain ⟨c, cs, hcs⟩ := List.exists_cons_of_ne_nil hc
      rw [hcs, List.all_cons, hbehind, Bool.false_and]
    simp only [insertCoherent, hany, hall, Bool.false_eq_true, if_false, List.cons_append,
      ih fun z hz => h z (List.mem_cons_of_mem v hz)]

theorem Store.append_read {w : WriteRec} {st : Store} (h : insertCoherent w st.log = st.log ++ [w]) (a : Nat) :
    (st.append w).read a = w.over a (st.read a) := by
  simp only [Store.read, Store.readBy, Store.append, h, List.foldl_append, if_true, List.foldl_cons, List.foldl_nil]

theorem WriteRec.over_append (w : WriteRec) (cs ds : List WCell) (a : Nat) (b : Byte) :
    { w with cells := cs ++ ds }.over a b = { w with cells := ds }.over a ({ w with cells := cs }.over a b) := List.foldl_append ..

/-- The newest write of whole bytes to device memory leaves its own there. -/
theorem State.performWrite_read {s : State} {p : Piece} (hp : p.space = .dram) {w : WriteRec} {x : Nat} {bs : List Byte} (hw : w.cells = cellsAt x bs)
    (h : ∀ v ∈ s.dram.log, v.who.same w.who = true → v.key ≤ w.key) {j : Nat} (hj : j < bs.length) :
    (s.performWrite false p w).dram.read (x + j) = bs.getD j 0 := by
  obtain ⟨id, pre, hdram⟩ := s.performWrite_dram hp w
  have hcells : pre ++ w.cells ≠ [] := by
    rw [hw]
    cases bs with
    | nil => exact absurd hj (Nat.not_lt_zero j)
    | cons b bs => exact List.append_ne_nil_of_right_ne_nil _ (List.cons_ne_nil _ _)
  have hlast := insertCoherent_last (w := { w with id, cells := pre ++ w.cells }) hcells h
  rw [hdram, Store.append_read hlast]
  refine (WriteRec.over_append { w with id } pre w.cells _ _).trans ?_
  rw [hw]
  exact WriteRec.over_inside { w with id } hj _

/-! ### The blocks that a save writes (R217, R220) -/

theorem State.writeBlocks_aside (s : State) (u : Nat) (c : Ctx) (blocks : List Nat) (image : Mem) : s.Aside (s.writeBlocks u c blocks image) := by
  unfold State.writeBlocks
  split
  · exact .refl s
  · exact State.Aside.foldl (fun s b => s.performWrite_aside ..) blocks s

/-- A block that its unit writes as its newest write stands in memory. -/
theorem State.writeBlocks_holds {s : State} {u : Nat} {un : Unit} (hu : s.unit? u = some un) {c : Ctx} {b : Nat} (image : Mem)
    (hspace : (c.piece (64 * b) 64).space = .dram) (hnew : s.newest u un) : (s.writeBlocks u c [b] image).holdsBlock c b image := by
  intro j hj
  have hlen : j < (image.bytes (64 * b) 64).length := by simpa [Mem.bytes] using hj
  unfold State.writeBlocks
  rw [hu]
  refine (State.performWrite_read (s := s) hspace (bs := image.bytes (64 * b) 64) ?_ ?_ hlen).trans ?_
  · rfl
  · exact hnew
  · simp [Mem.bytes, hj]

end Sys2Proof.Machine
end

