-- ==== Sys2Proof/Proofs/Restarts.lean ====
section
/-! PROOFS. A unit that runs on after a context save or load (R219, R221). -/

namespace Sys2Proof.Machine

/-! ### Registers under a change of place -/

/-- From `v` to `w` the registers of every walker and its window stand as they were. -/
def Unit.SameRegs (v w : Unit) : Prop := ∀ j, (w.wk j).x = (v.wk j).x ∧ (w.wk j).wp = (v.wk j).wp

theorem Unit.SameRegs.reg {v w : Unit} (h : v.SameRegs w) (k i : Nat) : (w.wk k).reg i = (v.wk k).reg i := by
  unfold Walker.reg; rw [(h k).1, (h k).2]

theorem Unit.SameRegs.refl (v : Unit) : v.SameRegs v := fun _ => ⟨rfl, rfl⟩

theorem Unit.SameRegs.trans {a b c : Unit} (h : a.SameRegs b) (g : b.SameRegs c) : a.SameRegs c :=
  fun j => ⟨(g j).1.trans (h j).1, (g j).2.trans (h j).2⟩

theorem Unit.SameRegs.setWk {v : Unit} {k : Nat} {f : Walker → Walker} (h : (f (v.wk k)).x = (v.wk k).x ∧ (f (v.wk k)).wp = (v.wk k).wp) :
    v.SameRegs (v.setWk k f) := by
  intro j
  rw [Unit.wk_setWk]
  split
  · rename_i hj; rw [hj.1]; exact h
  · exact ⟨rfl, rfl⟩

theorem Unit.SameButFlight.regs {v w : Unit} (h : v.SameButFlight w) : v.SameRegs w := by
  intro j
  obtain ⟨l, hl⟩ := h.wk j
  rw [hl]; exact ⟨rfl, rfl⟩

/-! ### The restart (R219) -/

theorem Unit.beginCycle_regs (v : Unit) (now : Nat) : v.SameRegs (v.beginCycle now) := by
  intro j
  unfold Unit.wk Unit.beginCycle
  simp only [List.getD_eq_getElem?_getD, List.getElem?_map, List.getElem?_zipIdx]
  cases v.walkers[j]? with
  | none => exact ⟨rfl, rfl⟩
  | some w => simp only [Option.map_some, Option.getD_some]; split <;> exact ⟨rfl, rfl⟩

/-- A unit that runs on from a frozen one, with its registers. -/
structure Unit.RunsOn (v w : Unit) : Prop where
  rest : ∃ ws, w = { v with run := .running, ctx := none, walkers := ws }
  regs : v.SameRegs w

/-- A thaw of settled walkers begins a cycle. -/
theorem Unit.thaw_runsOn {v : Unit} (h : ∀ j, (v.wk j).settled) (now : Nat) :
    v.RunsOn ((Unit.thaw { v with run := .running, ctx := none } now).beginCycle now) := by
  obtain ⟨hrest, hregs⟩ : (∃ ws, Unit.thaw { v with run := .running, ctx := none } now = { v with run := .running, ctx := none, walkers := ws }) ∧
      v.SameRegs (Unit.thaw { v with run := .running, ctx := none } now) :=
    have hsame := Unit.thaw_same (v := { v with run := .running, ctx := none }) h now
    ⟨hsame.rest, hsame.regs⟩
  generalize Unit.thaw { v with run := .running, ctx := none } now = w at hrest hregs
  obtain ⟨ws, rfl⟩ := hrest
  exact ⟨⟨_, rfl⟩, hregs.trans (Unit.beginCycle_regs _ now)⟩

/-- After a load the walkers go on where the record says. -/
theorem Unit.restart_runsOn {v : Unit} (h : ∀ j, (v.wk j).settled) (now : Nat) : v.RunsOn (v.restart now false) := Unit.thaw_runsOn h now

/-- After a save `sw` goes on past its word. -/
theorem Unit.restart_stepped {v : Unit} (h : ∀ j, (v.wk j).settled) (now : Nat) : v.RunsOn (v.restart now true) := by
  have hcross : ∀ w : Walker, ({ w.cross now w.idx sysWord with since := none } : Walker).Alike w := fun w =>
    Walker.Alike.trans (by constructor <;> rfl) (w.cross_alike now w.idx sysWord)
  have hset : ∀ j, ((v.setWk 0 fun w => { w.cross now w.idx sysWord with since := none }).wk j).settled := by
    intro j
    rw [Unit.wk_setWk]
    split
    · unfold Walker.settled; rw [(hcross _).inflight]; exact h 0
    · exact h j
  obtain ⟨⟨ws, hws⟩, hregs⟩ := Unit.thaw_runsOn hset now
  exact ⟨⟨ws, hws⟩, (Unit.SameRegs.setWk ⟨(hcross _).x, (hcross _).wp⟩).trans hregs⟩

/-! ### What a load makes of its unit (R221) -/

/-- From `v` to `w` only places, steer histories and tags have changed. -/
structure Unit.Replaces (v w : Unit) : Prop where
  rest : ∃ ws steers, w = { v with walkers := ws, steers }
  regs : v.SameRegs w

theorem Unit.Replaces.trans {a b c : Unit} (h : a.Replaces b) (g : b.Replaces c) : a.Replaces c := by
  obtain ⟨⟨ws, st, rfl⟩, hr⟩ := h
  obtain ⟨⟨xs, su, rfl⟩, gr⟩ := g
  exact ⟨⟨xs, su, rfl⟩, hr.trans gr⟩

theorem Unit.goOn_replaces (v : Unit) (k : Nat) : v.Replaces (v.goOn k) := by
  have h := (v.wk k).wrap_alike
  exact ⟨⟨_, _, rfl⟩, Unit.SameRegs.setWk (f := fun _ => (v.wk k).wrap.1) ⟨h.x, h.wp⟩⟩

theorem Unit.reopen_replaces (v : Unit) (k : Nat) (l : Level) : v.Replaces (v.reopen k l) :=
  ⟨⟨_, _, rfl⟩, Unit.SameRegs.setWk (v := v) ⟨rfl, rfl⟩⟩

/-- The levels that the record's walkers stand in go on, or open again. -/
def Unit.reopened (v : Unit) : Unit :=
  (List.range 4).foldl (fun v k => match (v.wk k).inner with | some l => if l.started then v.goOn k else v.reopen k l | none => v) v

theorem Unit.reopened_replaces (v : Unit) : v.Replaces v.reopened := by
  unfold Unit.reopened
  generalize List.range 4 = l
  induction l generalizing v with
  | nil => exact ⟨⟨_, _, rfl⟩, .refl v⟩
  | cons k l ih =>
    rw [List.foldl_cons]
    refine Unit.Replaces.trans ?_ (ih _)
    split
    · split
      · exact v.goOn_replaces k
      · exact v.reopen_replaces k _
    · exact ⟨⟨_, _, rfl⟩, .refl v⟩

/-- A load, before the levels that its walkers stand in go on. -/
theorem Img.load_eq (m : Img) (un : Unit) (kind : Nat) : ∃ (v : Unit) (istore : List W32), m.load un kind = v.reopened ∧
    v.walkers = ((List.range 4).map fun k => m.walker (0x100 + 0x1000 * k) k (un.wk k) istore (un.seq + 100 * k)) ∧
    v.cause = BitVec.ofNat 64 (m.get 0x5300 8) ∧ v.late = un.late ∧ v.trigs = un.trigs := ⟨_, _, rfl, rfl, rfl, rfl, rfl⟩

/-- A register below the window of a record without bad blocks holds the value and the poison recorded (R223). -/
theorem Img.walker_reg {m : Img} (hm : m.bad = []) (a k : Nat) (old : Walker) (istore : List W32) (seq : Nat) {i : Nat} (h0 : 0 < i) (hi : i < 16) :
    (m.walker a k old istore seq).reg i = ⟨BitVec.ofNat 64 (m.get (a + 0x400 + 8 * i) 8), m.bit (a + 0x480) (128 + i)⟩ := by
  have hdirty : ∀ b n, m.dirty b n = false := fun b n => by rw [Img.dirty, hm]; rfl
  have hx : (m.walker a k old istore seq).x[i]? = some ⟨BitVec.ofNat 64 (m.get (a + (0x400 + 8 * i)) 8),
      m.ps (a + 0x480) (128 + i) || m.dirty (a + (0x400 + 8 * i)) 8⟩ := by
    refine (List.getElem?_append_left (by simpa using hi)).trans ?_
    rw [List.getElem?_map, List.getElem?_range hi]
    rfl
  rw [Walker.reg, if_neg (Nat.ne_of_gt h0), physReg, if_pos hi, List.getD_eq_getElem?_getD, hx, Option.getD_some, Img.ps, hdirty, hdirty,
    Bool.or_false, Bool.or_false, Nat.add_assoc]

/-- What a load of a record without bad blocks makes of its unit: identity, `LATE` and the triggers stay. -/
theorem Img.load_frame {m : Img} (hm : m.bad = []) (un : Unit) (kind : Nat) : (m.load un kind).late = un.late ∧ (m.load un kind).trigs = un.trigs ∧
    (m.load un kind).cause = BitVec.ofNat 64 (m.get 0x5300 8) ∧ ∀ k i, k < 4 → 0 < i → i < 16 → ((m.load un kind).wk k).reg i =
      ⟨BitVec.ofNat 64 (m.get (0x100 + 0x1000 * k + 0x400 + 8 * i) 8), m.bit (0x100 + 0x1000 * k + 0x480) (128 + i)⟩ := by
  obtain ⟨v, istore, hload, hwalkers, hcause, hlate, htrigs⟩ := m.load_eq un kind
  obtain ⟨⟨ws, st, hrest⟩, hregs⟩ := v.reopened_replaces
  rw [hload]
  refine ⟨by rw [hrest]; exact hlate, by rw [hrest]; exact htrigs, by rw [hrest]; exact hcause, fun k i hk h0 hi => ?_⟩
  have hwk : v.wk k = m.walker (0x100 + 0x1000 * k) k (un.wk k) istore (un.seq + 100 * k) := by
    rw [Unit.wk, hwalkers, List.getD_eq_getElem?_getD, List.getElem?_map, List.getElem?_range hk]; rfl
  rw [Unit.SameRegs.reg hregs, hwk, Img.walker_reg hm _ _ _ _ _ h0 hi]

end Sys2Proof.Machine
end

