-- ==== Sys2Proof/Proofs/ContextEnds.lean ====
section
/-! PROOFS. The events that end a context save or load (O41). -/

namespace Sys2Proof.Machine

/-! ### The blocks of a save (R217, R220) -/

theorem State.holdsBlock.of_dram {s t : State} (hd : t.dram = s.dram) {c : Ctx} {b : Nat} {image : Mem} (h : s.holdsBlock c b image) :
    t.holdsBlock c b image := fun j hj => by rw [hd]; exact h j hj

/-- The beats of a save draw free values, and enter queues and ports. -/
theorem State.issueBlocks_draws (s : State) (u : Nat) (c : Ctx) (blocks : List Nat) (image : Mem) (t : Frac) :
    s.Draws (s.issueBlocks u c blocks (some image) t) := by
  refine State.Draws.foldl (fun s k => ?_) blocks s
  split
  · exact .refl s
  · refine (s.queuePiece_queued u (c.piece (64 * k) 64) t).draws.trans ?_
    simp only [Option.isNone_some, Bool.and_false, Bool.false_and, Bool.false_eq_true, if_false]
    have hfree : ∀ s : State, s.Draws { s with free := s.free + 1 } := fun s => ⟨_, _, _, _, rfl⟩
    split
    · exact (hfree _).trans (State.request_draws ..)
    · exact hfree _

section
variable {s : State} {u : Nat} {un : Unit} {c : Ctx} (hu : s.unit? u = some un) (hrun : un.run = .frozen) (hxl : c.xlAt = none)
include hu hrun hxl

/-- The block of a save whose write falls in this cycle stands in memory. -/
theorem State.landBlocks_save (hload : c.load = false) (hcheck : c.checkAt = none) {k : Nat} (hk : c.writesAt 1 (un.divisor 3) (s.now un) = [k]) :
    s.landBlocks u un c = (s.writeBlocks u c [k] c.image).setUnit u { un with ctx := some { c with ue := c.ue || s.strikes un c k } } := by
  have hpre : (un.run == Run.preempted) = false := by rw [hrun]; rfl
  have hgoes : ¬ (c.xlAt.isSome = true ∨ c.checkAt.isSome = true) := by simp [hxl, hcheck]
  have hsave : ¬ c.load = true := by simp [hload]
  unfold State.landBlocks
  simp only [hgoes, hsave, hpre, hk, Bool.false_eq_true, if_false, List.isEmpty_cons, List.any_cons, List.any_nil, Bool.or_false]
  exact State.modUnit_of_some _ (((s.writeBlocks_aside ..).unit? u).trans hu)

variable (hctx : un.ctx = some c)
include hctx

/-- A cycle of a save in which a block's write falls. -/
theorem execCopyBeatIssue_save (hload : c.load = false) (hstage : s.stage ≠ stageFault) (hcheck : c.checkAt = none) {k : Nat}
    (hk : c.writesAt 1 (un.divisor 3) (s.now un) = [k]) : ∃ t, execCopyBeatIssue u 0 s = .next t ∧
      ((s.writeBlocks u c [k] c.image).setUnit u { un with ctx := some { c with ue := c.ue || s.strikes un c k } }).Draws t := by
  have hsave : ¬ c.load = true := by simp [hload]
  have hframe : True ∧ s.stage ≠ stageFault ∧ (un.run = .frozen ∨ un.run = .preempted) := ⟨trivial, hstage, .inl hrun⟩
  have hexec : execCopyBeatIssue u 0 s = .next (s.blockBeats u un c) := by
    unfold execCopyBeatIssue
    simp only [hu, hctx, Option.isSome_some, if_true, if_pos hframe]
  refine ⟨_, hexec, ?_⟩
  unfold State.blockBeats
  rw [State.landBlocks_save hu hrun hxl hload hcheck hk]
  simp only [if_neg hsave]
  exact State.issueBlocks_draws ..

/-- The end of a save (R220). -/
theorem execCtxsComplete_saved (hload : c.load = false) (hend : c.endAt ≤ s.now un) (hue : c.ue = false) (hstrikes : s.strikes un c 0 = false) :
    execCtxsComplete u s = .next ((s.writeBlocks u c [0] c.image).setUnit u (un.restart (s.now un) true)) := by
  unfold execCtxsComplete
  simp only [hu, hctx, hrun, hxl, hload, hue, hstrikes, Nat.not_lt.mpr hend, ne_eq, not_true_eq_false, Option.isSome_none, Bool.false_eq_true, or_self, if_false]
  exact congrArg Host.Outcome.next (State.modUnit_of_some _ (((s.writeBlocks_aside ..).unit? u).trans hu))

/-- The check of a load's header (R221). -/
theorem execCtxlComplete_header (hload : c.load = true) {a : Nat} (hcheck : c.checkAt = some a) (ha : a ≤ s.now un) :
    execCtxlComplete u s = .next (if headerOk (s.readBlocks u un c [0]).1 then
      (s.readBlocks u un c [0]).2.modUnit u fun w =>
        { w with ctx := some { c with checkAt := none, image := (s.readBlocks u un c [0]).1.bytes, bad := (s.readBlocks u un c [0]).1.bad } }
      else (s.readBlocks u un c [0]).2.takeFault u .access .p 0 0 ⟨0, 0, 0, 0, 0, BitVec.ofNat 64 (2 ^ 63 + c.va), 0⟩) := by
  have hgoes : ¬ ((!c.load) = true ∨ un.run ≠ .frozen ∨ c.xlAt.isSome = true) := by simp [hload, hrun, hxl]
  unfold execCtxlComplete
  simp only [hu, hctx, if_neg hgoes, hcheck, Nat.not_lt.mpr ha, if_false]

/-- The end of a load of a KIND 0 record whose blocks all came (R221). -/
theorem execCtxlComplete_loaded (hload : c.load = true) (hcheck : c.checkAt = none) (hend : c.endAt ≤ s.now un) (hbad : c.bad = [])
    (hkind : (⟨c.image, []⟩ : Img).get 6 1 = 0) : execCtxlComplete u s =
      .next (s.setUnit u ({ (⟨c.image, []⟩ : Img).load un 0 with ctxn := un.ctxn + 1 }.restart (s.now un) false)) := by
  unfold execCtxlComplete
  simp only [hu, hctx, hrun, hxl, hload, hcheck, hbad, hkind, Nat.not_lt.mpr hend, ne_eq, not_true_eq_false, Option.isSome_none, Bool.not_true,
    Bool.false_eq_true, or_self, if_false, Nat.zero_ne_one, List.isEmpty_nil, if_true, State.modUnit_of_some _ hu, State.modUnit_setUnit]

end

/-! ### What a load reads (R221) -/

/-- From `s` to `t` unit `u` has only seen more writes. -/
def State.Sees (s : State) (u : Nat) (t : State) : Prop := ∀ un, s.unit? u = some un → ∃ seen, t.unit? u = some { un with seen }

theorem State.Sees.of_units {s t : State} {u : Nat} (h : t.units = s.units) : s.Sees u t :=
  fun un hu => ⟨un.seen, by unfold State.unit? at hu ⊢; rw [h]; exact hu⟩

theorem State.Sees.trans {r s t : State} {u : Nat} (h : r.Sees u s) (g : s.Sees u t) : r.Sees u t := by
  intro un hu
  obtain ⟨seen, hs⟩ := h un hu
  obtain ⟨seen', ht⟩ := g { un with seen } hs
  exact ⟨seen', ht⟩

theorem State.noise_units (s : State) (n : Nat) : (s.noise n).2.units = s.units := by
  induction n generalizing s with
  | zero => rfl
  | succ n ih => exact ih s.fresh.2

theorem State.visible_units (s : State) (me : Agent) (b : Beat) (fixed : WriteRec → Option Bool) (log : List WriteRec) (a n : Nat) (seen : List Nat) :
    (s.visible me b fixed log a n seen).2.units = s.units := by
  suffices ∀ (f : List Nat × State → WriteRec → List Nat × State) (_ : ∀ acc w, (f acc w).2.units = acc.2.units) (l : List WriteRec)
      (acc : List Nat × State), (l.foldl f acc).2.units = acc.2.units from this _ (fun acc w => by
    split
    · rfl
    · split <;> rfl) (log.filter fun w => w.touches a n) ([], s)
  intro f hf l acc
  induction l generalizing acc with
  | nil => rfl
  | cons w l ih => exact (ih _).trans (hf acc w)

theorem State.readPiece_sees (s : State) (u : Nat) (un : Unit) (b : Beat) (p : Piece) : s.Sees u (s.readPiece u un b p).2 := by
  have hseen : ∀ (t : State) (pin : Nat) (l : List Nat), t.units = s.units →
      s.Sees u (State.modUnit { t with pin } u fun un => { un with seen := l ++ un.seen }) := by
    intro t pin l ht un hu
    refine ⟨l ++ un.seen, ?_⟩
    rw [State.unit?_modUnit, if_pos rfl, show ({ t with pin } : State).unit? u = s.unit? u by unfold State.unit?; rw [ht], hu]
    rfl
  have hnoise : ∀ (q : Prop) [Decidable q] (n : Nat) (bs : List Byte) (t : State), (if q then t.noise n else (bs, t)).2.units = t.units := by
    intro q _ n bs t
    split
    · exact t.noise_units n
    · rfl
  unfold State.readPiece
  split
  · exact .of_units rfl
  · exact .of_units rfl
  · dsimp only
    exact (hseen _ _ _ (State.visible_units ..)).trans (.of_units (hnoise ..))

theorem State.readBlocks_sees (s : State) (u : Nat) (un : Unit) (c : Ctx) (blocks : List Nat) : s.Sees u (s.readBlocks u un c blocks).2 := by
  suffices ∀ (f : Img × State → Nat → Img × State) (_ : ∀ (acc : Img × State) b, acc.2.Sees u (f acc b).2) (acc : Img × State),
      acc.2.Sees u (blocks.foldl f acc).2 from this _ (fun acc b => by
    dsimp only
    split
    · exact .of_units rfl
    · exact acc.2.readPiece_sees u un _ _) (⟨[], []⟩, s)
  intro f hf acc
  induction blocks generalizing acc with
  | nil => exact .of_units rfl
  | cons b l ih => exact (hf acc b).trans (ih _)

end Sys2Proof.Machine
end

