-- ==== Sys2Proof/Proofs/BindOff.lean ====
section
/-! PROOFS. A unit is taken off its kernel (R217, R264), and the statement of O41. -/

namespace Sys2Proof.Machine

/-! ### What a bind-off leaves of the machine -/

theorem find_drop {α : Type} (t : List (Nat × α)) (k j : Nat) : find (drop t k) j = if j = k then none else find t j := by
  induction t with
  | nil => split <;> rfl
  | cons e t ih =>
    obtain ⟨i, a⟩ := e
    unfold drop at ih ⊢
    rw [List.filter_cons]
    by_cases hi : i = k
    · subst hi
      simp only [bne_self_eq_false, Bool.false_eq_true, if_false, ih, find]
      split
      · rfl
      · rename_i hj; rw [if_neg (Ne.symm hj)]
    · have hne : (i != k) = true := by simpa using hi
      simp only [hne, if_true, find, ih]
      split
      · rename_i hj; rw [if_neg (hj ▸ hi)]
      · rfl

theorem State.writePa_aside (s : State) (who : Agent) (part pa : Nat) (bs : List Byte) : s.Aside (s.writePa who part pa bs) := by
  refine State.Aside.foldl (fun s b => ?_) _ s
  obtain ⟨w, q, h⟩ := s.queueBlocks_queued (max pa (64 * b)) (min (pa + bs.length) (64 * b + 64) - max pa (64 * b)) s.time
  refine State.Aside.trans ⟨?_, ?_, ?_⟩ (State.performWrite_aside ..)
  all_goals rw [State.enqueue, h]

theorem State.writeVa_aside (s : State) (part va n v : Nat) : s.Aside (s.writeVa part va n v) := by
  unfold State.writeVa
  split
  · split
    · exact s.writePa_aside ..
    · exact .refl s
  · exact .refl s

/-- Releasing crossings writes their counts to memory, and disarms them (R261). -/
theorem State.releaseCrossings_aside (s : State) (k u : Nat) : s.Aside (s.releaseCrossings k u) := by
  refine State.Aside.foldl (fun s e => ?_) _ s
  dsimp only
  split
  · obtain ⟨hu, hk, hr⟩ := (s.writeVa_aside e.2.part (e.2.desc + 40) 8 e.2.drops).trans (State.writeVa_aside _ e.2.part (e.2.desc + 48) 8 e.2.repeats)
    exact ⟨hu, hk, hr⟩
  · exact .refl s

theorem State.unwatch_aside (s : State) (w : Watched) : s.Aside (s.unwatch w) := by
  unfold State.unwatch State.unwatchIf
  split <;> exact ⟨rfl, rfl, rfl⟩

/-- The scheduler's look at its grants starts timers (R266, R271). -/
theorem State.regrant_aside (s : State) : s.Aside s.regrant := by
  have hsoon : ∀ (s : State) (ns : Nat) (i : Instr), s.Aside (s.soon ns i) := fun _ _ _ => ⟨rfl, rfl, rfl⟩
  have hregions : s.Aside ((List.range s.regions.length).foldl (fun s i =>
      if (s.region i).still == .shed && !(s.region i).shed then s.soon 1000 (.regionReadmit i) else s) s) :=
    State.Aside.foldl (fun s i => by
      split
      · exact hsoon ..
      · exact .refl s) _ s
  unfold State.regrant
  dsimp only
  split
  · exact hregions.trans (hsoon ..)
  · exact hregions

/-- Drawing a place keeps the kernels and the periods of regions. -/
theorem State.placeAt_frame (s : State) (i : Nat) (t : Frac) (lo : Nat) :
    (s.placeAt i t lo).2.kernels = s.kernels ∧ ∀ j, ((s.placeAt i t lo).2.region j).period = (s.region j).period := by
  unfold State.placeAt
  dsimp only
  split
  · exact ⟨rfl, fun _ => rfl⟩
  · refine ⟨rfl, fun j => ?_⟩
    rw [State.region_setRegion]
    split
    · rename_i hj; rw [hj.1]; rfl
    · rfl

theorem State.publish_frame (s : State) (u bar scope : Nat) (cv : Cover) (t : Frac) :
    (s.publish u bar scope cv t).kernels = s.kernels ∧ ∀ un, (s.publish u bar scope cv t).patternTime un = s.patternTime un := by
  unfold State.publish
  split
  · exact ⟨rfl, fun _ => rfl⟩
  · exact ⟨(s.placeAt_frame ..).1, fun un => congrArg (Frac.scale · (un.lsc 7)) ((s.placeAt_frame ..).2 un.region)⟩

/-! ### Taking a unit off (R264) -/

/-- The kernel without unit `u`. -/
def Kernel.without (ker : Kernel) (u : Nat) : Kernel := { ker with live := ker.live.filter (· != u) }

/-- The kernel as its last unit leaves it: its retire's release begins, or its saved units wait for others. -/
def Kernel.left (ker : Kernel) (rel : Frac) : Kernel :=
  if ker.live.isEmpty ∧ ker.state = .running ∧ !ker.parked.isEmpty then { ker with state := .preempted }
  else if ker.live.isEmpty ∧ ker.state = .running then { ker with state := .retiring, relAt := some rel }
  else ker

/-- The state with unit `u` gone from it and from its kernel's list. -/
def State.offKernel (s : State) (u : Nat) (un : Unit) : State :=
  let s := s.releaseCrossings un.kernel u
  (({ s with units := drop s.units u, walks := s.walks.filter fun (w : Nat × Walk) => w.2.unit != u }.keepHolds fun w => w.1 != u).unwatch
    (.action u)).setKernel un.kernel fun k => k.without u

theorem State.offKernel_unit? (s : State) (u : Nat) (un : Unit) (v : Nat) :
    (s.offKernel u un).unit? v = if v = u then none else (s.unit? v).map (Unit.keepHolds · fun w => w.1 != u) := by
  have hreleased := (s.releaseCrossings_aside un.kernel u).unit?
  unfold State.offKernel
  dsimp only
  generalize s.releaseCrossings un.kernel u = t at hreleased
  refine ((State.unwatch_aside _ (.action u)).unit? v).trans ((State.unit?_keepHolds ..).trans ?_)
  refine (congrArg (Option.map _) (find_drop t.units u v)).trans ?_
  split
  · rfl
  · exact congrArg (Option.map _) (hreleased v)

theorem State.offKernel_kernel {s : State} {un : Unit} {ker : Kernel} (hk : s.kernels[un.kernel]? = some ker) (u : Nat) :
    (s.offKernel u un).kernels[un.kernel]? = some (ker.without u) := by
  have hreleased := (s.releaseCrossings_aside un.kernel u).kernels
  unfold State.offKernel State.setKernel
  dsimp only
  rw [modify_getElem?, if_pos rfl, (State.unwatch_aside ..).kernels]
  exact congrArg (Option.map _) ((congrArg (fun l : List Kernel => l[un.kernel]?) hreleased).trans hk)

theorem State.setKernel_kernel {s : State} {k : Nat} {ker : Kernel} (hk : s.kernels[k]? = some ker) (f : Kernel → Kernel) :
    (s.setKernel k f).kernels[k]? = some (f ker) := by
  rw [State.setKernel, modify_getElem?, if_pos rfl, hk]; rfl

theorem State.timer_unlock_frame (s : State) (k : Nat) (t : Frac) (i : Instr) :
    ((s.unlock k).timer t i).kernels = s.kernels ∧ ∀ v, ((s.unlock k).timer t i).unit? v = s.unit? v := ⟨rfl, fun _ => rfl⟩

/-- Unloading a unit: what its kernel becomes, and that of the other units only holds that it owned are lost. -/
theorem State.unload_spec {s : State} {un : Unit} {ker : Kernel} (hk : s.kernels[un.kernel]? = some ker) (u : Nat) (t : Frac) :
    (s.unload u un t).kernels[un.kernel]? = some ((ker.without u).left (t.add (s.patternTime un))) ∧
      ∀ v, (s.unload u un t).unit? v = if v = u then none else (s.unit? v).map (Unit.keepHolds · fun w => w.1 != u) := by
  have hrel : (s.releaseCrossings un.kernel u).patternTime un = s.patternTime un := by
    unfold State.patternTime; rw [(s.releaseCrossings_aside ..).region]
  have hoff := State.offKernel_kernel hk u
  have hunit := s.offKernel_unit? u un
  have heq : s.unload u un t = match (s.offKernel u un).kernels[un.kernel]? with
      | some k =>
        if k.live.isEmpty ∧ k.state = .running ∧ !k.parked.isEmpty then (s.offKernel u un).setKernel un.kernel fun k => { k with state := .preempted }
        else if k.live.isEmpty ∧ k.state = .running then
          (((s.offKernel u un).setKernel un.kernel fun k => { k with state := .retiring, relAt := some (t.add (s.patternTime un)) }).unlock un.kernel).timer
            (t.add (s.patternTime un)) (.nodeRetire un.kernel)
        else s.offKernel u un
      | none => s.offKernel u un := by rw [← hrel]; rfl
  rw [heq, hoff]
  unfold Kernel.left
  dsimp only
  split
  · exact ⟨State.setKernel_kernel hoff _, hunit⟩
  · split
    · obtain ⟨hkernels, hunits⟩ := ((s.offKernel u un).setKernel un.kernel fun k =>
        { k with state := .retiring, relAt := some (t.add (s.patternTime un)) }).timer_unlock_frame un.kernel (t.add (s.patternTime un)) (.nodeRetire un.kernel)
      exact ⟨hkernels ▸ State.setKernel_kernel hoff _, fun v => (hunits v).trans (hunit v)⟩
    · exact ⟨hoff, hunit⟩

/-- What is said of a unit up to places is said of its holds too. -/
theorem Unit.unplaced_keepHolds_moved (un : Unit) (m : Snapshot → Nat) (keep : Nat × Nat × Nat → Bool) :
    ((un.moved m).keepHolds keep).unplaced = (un.keepHolds keep).unplaced := by
  simp [Unit.unplaced, Unit.moved, Unit.keepHolds, Function.comp_def]

/-- The bind-off of a unit whose halt has completed (R217, R264). -/
theorem execBindOff_halted {s : State} {u c : Nat} {un : Unit} (hu : s.unit? u = some un) (hhalt : un.haltAt = some c) (hc : c ≤ s.now un) :
    execBindOff u s = .next ((((s.publish u 0 7 (un.coverNow (s.now un)) ((s.region un.region).cycleTime (s.now un))).unload u un
      ((s.region un.region).cycleTime (s.now un)))).regrant) := by
  unfold execBindOff
  simp only [hu, hhalt, hc, decide_true, if_true]

/-- What the kernel without a unit becomes as that unit leaves it. -/
theorem Kernel.left_spec (ker : Kernel) (rel : Frac) : (ker.left rel).live = ker.live ∧
    (ker.live = [] → ker.state = .running → ker.parked = [] → (ker.left rel).state = .retiring ∧ (ker.left rel).relAt = some rel) ∧
    (ker.live = [] → ker.state = .running → ker.parked ≠ [] → (ker.left rel).state = .preempted) ∧ (ker.live ≠ [] → (ker.left rel).state = ker.state) := by
  unfold Kernel.left
  refine ⟨?_, fun hl hs hp => ?_, fun hl hs hp => ?_, fun hl => ?_⟩
  · split
    · rfl
    · split <;> rfl
  · simp [hl, hs, hp]
  · simp [hl, hs, hp]
  · simp [hl]

end Sys2Proof.Machine

open Sys2Proof Sys2Proof.Machine

/-- Settles O41, event by event: blocks by the write that each makes, restarts by what they leave of the unit, and the bind-off. -/
theorem contextsAndBindOff : Obligations.ContextsAndBindOff := by
  refine ⟨?saveEnds, ?block, ?header, ?loadEnds, ?bindOff⟩
  case saveEnds =>
    intro s u un c hu hctx hload hrun hend hxl hue hstrikes hsettled
    obtain ⟨⟨ws, hrest⟩, hregs⟩ := Unit.restart_stepped hsettled (s.now un)
    refine ⟨_, un.restart (s.now un) true, execCtxsComplete_saved hu hrun hxl hctx hload hend hue hstrikes, State.unit?_setUnit_self .., ?_, ?_, ?_,
      fun j => (hregs j).1, fun v hv => ?_, rfl, fun hspace hnew => (State.writeBlocks_holds hu c.image hspace hnew).of_dram rfl⟩
    · rw [hrest]
    · rw [hrest]
    · rw [hrest]
    · rw [State.unit?_setUnit, if_neg hv, (s.writeBlocks_aside ..).unit?]
  case block =>
    intro s u k un c hu hctx hload hrun hstage hxl hcheck hk hspace hnew
    obtain ⟨t, hexec, hdraws⟩ := execCopyBeatIssue_save hu hrun hxl hctx hload hstage hcheck hk
    obtain ⟨hunit, hdram, -⟩ := hdraws.frame
    exact ⟨t, hexec, (State.writeBlocks_holds hu c.image hspace hnew).of_dram hdram, (hunit u).trans (State.unit?_setUnit_self ..)⟩
  case header =>
    intro s u a un c hu hctx hload hrun hxl hcheck ha
    have hexec := execCtxlComplete_header hu hrun hxl hctx hload hcheck ha
    refine ⟨fun hok => ?_, fun hbad => ?_⟩
    · obtain ⟨seen, hseen⟩ := s.readBlocks_sees u un c [0] un hu
      rw [if_pos hok, State.modUnit_of_some _ hseen] at hexec
      exact ⟨_, _, hexec, State.unit?_setUnit_self .., hrun, rfl, rfl, rfl⟩
    · rw [if_neg (by rw [hbad]; nofun)] at hexec
      exact hexec
  case loadEnds =>
    intro s u un c m hu hctx hload hrun hxl hcheck hend hbad hm hkind hsettled
    subst hm
    obtain ⟨hlate, htrigs, hcause, hreg⟩ := Img.load_frame (m := ⟨c.image, []⟩) rfl un 0
    have hexec := execCtxlComplete_loaded hu hrun hxl hctx hload hcheck hend hbad hkind
    generalize Img.load ⟨c.image, []⟩ un 0 = w at hexec hsettled hlate htrigs hcause hreg
    obtain ⟨⟨ws, hrest⟩, hregs⟩ := Unit.restart_runsOn (v := { w with ctxn := un.ctxn + 1 }) hsettled (s.now un)
    refine ⟨_, _, hexec, State.unit?_setUnit_self .., ?_, ?_, ?_, ?_, ?_, ?_, fun k i hk h0 hi => (hregs.reg k i).trans (hreg k i hk h0 hi)⟩
    · rw [hrest]
    · rw [hrest]
    · rw [hrest]
    · rw [hrest]; exact hlate
    · rw [hrest]; exact htrigs
    · rw [hrest]; exact hcause
  case bindOff =>
    intro s u c un ker hu hhalt hc hk
    have hreplaced := s.publish_replaced u 0 7 (un.coverNow (s.now un)) ((s.region un.region).cycleTime (s.now un))
    obtain ⟨hkernels, hpattern⟩ := s.publish_frame u 0 7 (un.coverNow (s.now un)) ((s.region un.region).cycleTime (s.now un))
    obtain ⟨hker, hunit⟩ := State.unload_spec (un := un) (hkernels ▸ hk) u ((s.region un.region).cycleTime (s.now un))
    have hregrant := State.regrant_aside ((s.publish u 0 7 (un.coverNow (s.now un)) ((s.region un.region).cycleTime (s.now un))).unload u un
      ((s.region un.region).cycleTime (s.now un)))
    rw [hpattern] at hker
    obtain ⟨hlive, hretire, hparked, hkept⟩ := (ker.without u).left_spec (((s.region un.region).cycleTime (s.now un)).add (s.patternTime un))
    refine ⟨_, _, execBindOff_halted hu hhalt hc, ?_, fun v hv => ?_, by rw [hregrant.kernels]; exact hker, hlive, ?_, ?_, ?_⟩
    · rw [hregrant.unit?, hunit, if_pos rfl]
    · obtain ⟨m, hm⟩ := hreplaced.units
      rw [hregrant.unit?, hunit, if_neg (by simpa using hv), hm, State.unit?_keepHolds, Option.map_map, Option.map_map, Option.map_map]
      exact congrArg (Option.map · (s.unit? v)) (funext fun w => w.unplaced_keepHolds_moved ..)
    · rw [hlive]; exact hretire
    · rw [hlive]; exact hparked
    · rw [hlive]; exact hkept
end

