-- ==== Sys2Proof/Proofs/Power.lean ====
section
/-! PROOFS. The package controller's interval, rack caps and scrub errors (O50). -/

namespace Sys2Proof.Machine

/-! ### The step of a generator (R272) -/

/-- From `s` to `t` only regions, timers and generators have changed, and of each generator only the pace of its samples. -/
structure State.Paced (s t : State) : Prop where
  rest : ∃ regions timers gens, t = { s with regions, timers, gens }
  gens : ∀ k g, find s.gens k = some g → ∃ n base baseN, find t.gens k = some { g with s := n, base, baseN }

theorem State.Paced.of_regions_timers {s : State} (regions : List Region) (timers : List (Frac × Due)) : s.Paced { s with regions, timers } :=
  ⟨⟨_, _, _, rfl⟩, fun _ g h => ⟨g.s, g.base, g.baseN, h⟩⟩

theorem State.Paced.refl (s : State) : s.Paced s := .of_regions_timers s.regions s.timers

theorem State.Paced.trans {r s t : State} (h : r.Paced s) (g : s.Paced t) : r.Paced t := by
  obtain ⟨⟨_, _, _, rfl⟩, hgens⟩ := h
  obtain ⟨⟨re, ti, ge, rfl⟩, ggens⟩ := g
  refine ⟨⟨re, ti, ge, rfl⟩, fun k x hx => ?_⟩
  obtain ⟨_, _, _, hn⟩ := hgens k x hx
  obtain ⟨n, base, baseN, hm⟩ := ggens k _ hn
  exact ⟨n, base, baseN, hm⟩

theorem State.Paced.foldl {α : Type} {f : State → α → State} (hf : ∀ (s : State) a, s.Paced (f s a)) (l : List α) (s : State) : s.Paced (l.foldl f s) := by
  induction l generalizing s with
  | nil => exact .refl s
  | cons a l ih => exact (hf s a).trans (ih _)

/-- Planning a thaw (R257) changes regions and timers only. -/
theorem State.planSynthetic_eq (s : State) (i : Nat) : ∃ regions timers, s.planSynthetic i = { s with regions, timers } := by
  unfold State.planSynthetic
  dsimp only
  split
  · exact ⟨_, _, rfl⟩
  · exact ⟨_, _, rfl⟩

theorem foldl_regions_timers {α : Type} {f : State → α → State} (hf : ∀ (s : State) a, ∃ regions timers, f s a = { s with regions, timers })
    (l : List α) (s : State) : ∃ regions timers, l.foldl f s = { s with regions, timers } := by
  induction l generalizing s with
  | nil => exact ⟨_, _, rfl⟩
  | cons a l ih =>
    obtain ⟨r, t, h⟩ := hf s a
    obtain ⟨r', t', h'⟩ := ih (f s a)
    exact ⟨r', t', by rw [List.foldl_cons, h', h]⟩

/-- A generator that stands at another step than `n` runs at step `n` from now on. -/
theorem State.setStep_of_ne {s : State} {k n : Nat} {g : Gen} (hg : find s.gens k = some g) (hn : g.s ≠ n) :
    ∃ regions timers, s.setStep k n = { s with regions, timers, gens := put s.gens k (g.rate n s.time) } := by
  unfold State.setStep
  rw [hg]
  dsimp only
  rw [if_neg hn]
  refine foldl_regions_timers (fun s i => ?_) ..
  split
  · exact s.planSynthetic_eq i
  · exact ⟨_, _, rfl⟩

theorem State.setStep_of_eq {s : State} {k n : Nat} {g : Gen} (hg : find s.gens k = some g) (hn : g.s = n) : s.setStep k n = s := by
  unfold State.setStep
  rw [hg]
  exact if_pos hn

theorem State.setStep_of_none {s : State} {k : Nat} (n : Nat) (hg : find s.gens k = none) : s.setStep k n = s := by
  unfold State.setStep
  rw [hg]

theorem State.setStep_self {s : State} {k : Nat} {g : Gen} (n : Nat) (hg : find s.gens k = some g) :
    ∃ base baseN, find (s.setStep k n).gens k = some { g with s := n, base, baseN } := by
  by_cases hn : g.s = n
  · exact ⟨g.base, g.baseN, by rw [State.setStep_of_eq hg hn, hg, ← hn]⟩
  · obtain ⟨_, _, h⟩ := State.setStep_of_ne hg hn
    exact ⟨_, _, by rw [h]; exact find_put_self ..⟩

theorem State.setStep_ne (s : State) {k j : Nat} (n : Nat) (hj : j ≠ k) : find (s.setStep k n).gens j = find s.gens j := by
  cases hg : find s.gens k with
  | none => rw [State.setStep_of_none n hg]
  | some g =>
    by_cases hn : g.s = n
    · rw [State.setStep_of_eq hg hn]
    · obtain ⟨_, _, h⟩ := State.setStep_of_ne hg hn
      rw [h]
      exact find_put_ne _ _ hj

theorem State.setStep_paced (s : State) (k n : Nat) : s.Paced (s.setStep k n) := by
  cases hg : find s.gens k with
  | none => rw [State.setStep_of_none n hg]; exact .refl s
  | some g =>
    refine ⟨?_, fun j x hx => ?_⟩
    · by_cases hn : g.s = n
      · exact ⟨_, _, _, State.setStep_of_eq hg hn⟩
      · obtain ⟨_, _, h⟩ := State.setStep_of_ne hg hn
        exact ⟨_, _, _, h⟩
    · by_cases hj : j = k
      · subst hj; exact ⟨n, State.setStep_self n hx⟩
      · exact ⟨x.s, x.base, x.baseN, by rw [s.setStep_ne n hj, hx]⟩

/-! ### A step for every generator (R270) -/

/-- Every generator listed in `l` takes the step that `f` gives it. -/
def State.setSteps (s : State) (f : Gen → Nat) (l : List (Nat × Gen)) : State := l.foldl (fun s e => s.setStep e.1 (f e.2)) s

theorem State.setSteps_paced (s : State) (f : Gen → Nat) (l : List (Nat × Gen)) : s.Paced (s.setSteps f l) :=
  .foldl (fun s (e : Nat × Gen) => s.setStep_paced e.1 (f e.2)) l s

theorem State.setSteps_notMem {f : Gen → Nat} {l : List (Nat × Gen)} {k : Nat} (hk : k ∉ l.map (·.1)) (s : State) :
    find (s.setSteps f l).gens k = find s.gens k := by
  induction l generalizing s with
  | nil => rfl
  | cons e l ih =>
    rw [List.map_cons, List.mem_cons, not_or] at hk
    exact (ih hk.2 _).trans (s.setStep_ne _ hk.1)

/-- A generator that is listed once takes its own step. -/
theorem State.setSteps_mem {f : Gen → Nat} {l : List (Nat × Gen)} (hl : (l.map (·.1)).Nodup) {k : Nat} {x : Gen} (hx : (k, x) ∈ l) {s : State} {g : Gen}
    (hg : find s.gens k = some g) : ∃ base baseN, find (s.setSteps f l).gens k = some { g with s := f x, base, baseN } := by
  induction l generalizing s with
  | nil => cases hx
  | cons e l ih =>
    rw [List.map_cons, List.nodup_cons] at hl
    obtain ⟨he, hl⟩ := hl
    rcases List.mem_cons.mp hx with rfl | hx
    · obtain ⟨b, bn, h⟩ := State.setStep_self (f x) hg
      exact ⟨b, bn, (State.setSteps_notMem he _).trans h⟩
    · have hne : k ≠ e.1 := fun h => he (h ▸ List.mem_map_of_mem hx)
      exact ih hl hx ((s.setStep_ne _ hne).trans hg)

theorem State.setSteps_gens {s : State} {f : Gen → Nat} (hkeys : (s.gens.map (·.1)).Nodup) {k : Nat} {g : Gen} (hg : find s.gens k = some g) :
    ∃ base baseN, find (s.setSteps f s.gens).gens k = some { g with s := f g, base, baseN } := State.setSteps_mem hkeys (mem_of_find hg) hg

/-- Shedding a region (R271) leaves the generators as slowing them has set them. -/
theorem State.slow_eq (s : State) (d : Nat) :
    ∃ regions, s.slow d = { s.setSteps (fun g => max 128 (g.s - d)) s.gens with regions } := by
  unfold State.slow
  split
  · split
    · exact ⟨_, rfl⟩
    · exact ⟨_, rfl⟩
  · exact ⟨_, rfl⟩

theorem State.slow_paced (s : State) (d : Nat) : s.Paced (s.slow d) := by
  obtain ⟨_, h⟩ := s.slow_eq d
  rw [h]
  exact (s.setSteps_paced _ _).trans (.of_regions_timers _ _)

theorem State.slow_gens {s : State} (hkeys : (s.gens.map (·.1)).Nodup) (d : Nat) {k : Nat} {g : Gen} (hg : find s.gens k = some g) :
    ∃ base baseN, find (s.slow d).gens k = some { g with s := max 128 (g.s - d), base, baseN } := by
  obtain ⟨_, h⟩ := s.slow_eq d
  rw [h]
  exact State.setSteps_gens (f := fun g => max 128 (g.s - d)) hkeys hg

/-! ### The control interval (R270) -/

/-- The step to which a generator rises where all three measurements leave room. -/
def Gen.raised (g : Gen) : Nat := min g.smax (min (if g.hinted then 256 else 256 + g.boost) (g.s + 8))

/-- What the controller makes of the generators at a core current of `ma`, a hotspot of `mc` and a power of `mw` under cap `cap`. -/
def State.regulate (s : State) (ma mc mw cap : Nat) : State :=
  if 1000 * s.boot.curLimit < ma then s.slow 32
  else if 1000 * s.boot.thermal < mc ∨ 1000 * cap < mw then s.slow 8
  else if ma ≤ 950 * s.boot.curLimit ∧ mc ≤ 950 * s.boot.thermal ∧ mw ≤ 950 * cap then s.setSteps Gen.raised s.gens
  else s.gens.foldl (fun s e => if e.2.s < 256 then s.setStep e.1 (min 256 (e.2.s + 8)) else s) s

/-- The hints of the interval are taken back. -/
def Gen.unhinted (g : Gen) : Gen := { g with hinted := false }

/-- The state in which the controller acts: the cap is applied and the next interval planned. -/
def State.measured (s : State) (x : Frac) : State :=
  State.nextInterval { s with power := { s.power with applied := s.powerCap } } (x.add (Frac.ofNat 50000))

theorem execPowerControlInterval_due {s : State} {x : Frac} (hnext : s.power.next = some x) (hdue : s.time.lt x = false) (ma mc mw : Nat) :
    exec (.powerControlInterval ma mc mw) s =
      .next { (s.measured x).regulate ma mc mw s.powerCap with
        gens := ((s.measured x).regulate ma mc mw s.powerCap).gens.map fun e => (e.1, e.2.unhinted) } := by
  show execPowerControlInterval ma mc mw s = _
  unfold execPowerControlInterval State.regulate
  rw [hnext]
  simp only [hdue, decide_eq_true_eq, Bool.or_eq_true, Bool.and_eq_true, and_assoc]
  rfl

theorem State.regulate_paced (s : State) (ma mc mw cap : Nat) : s.Paced (s.regulate ma mc mw cap) := by
  unfold State.regulate
  split
  · exact s.slow_paced 32
  · split
    · exact s.slow_paced 8
    · split
      · exact s.setSteps_paced ..
      · refine .foldl (fun s e => ?_) s.gens s
        split
        · exact s.setStep_paced ..
        · exact .refl s

theorem State.regulate_overcurrent {s : State} {ma : Nat} (h : 1000 * s.boot.curLimit < ma) (mc mw cap : Nat) : s.regulate ma mc mw cap = s.slow 32 :=
  if_pos h

theorem State.regulate_excess {s : State} {ma mc mw cap : Nat} (hcur : ma ≤ 1000 * s.boot.curLimit)
    (h : 1000 * s.boot.thermal < mc ∨ 1000 * cap < mw) : s.regulate ma mc mw cap = s.slow 8 :=
  (if_neg (Nat.not_lt.mpr hcur)).trans (if_pos h)

theorem State.regulate_room {s : State} {ma mc mw cap : Nat} (hcur : ma ≤ 950 * s.boot.curLimit) (hheat : mc ≤ 950 * s.boot.thermal)
    (hpower : mw ≤ 950 * cap) : s.regulate ma mc mw cap = s.setSteps Gen.raised s.gens :=
  (if_neg (by omega)).trans ((if_neg (by omega)).trans (if_pos ⟨hcur, hheat, hpower⟩))

/-- What an interval leaves of a generator, case by case of R270, beside its pace. -/
theorem State.regulate_gens {s : State} (hkeys : (s.gens.map (·.1)).Nodup) (ma mc mw cap : Nat) {k : Nat} {g : Gen} (hg : find s.gens k = some g) :
    ∃ n base baseN, find (s.regulate ma mc mw cap).gens k = some { g with s := n, base, baseN } ∧
      (1000 * s.boot.curLimit < ma → n = max 128 (g.s - 32)) ∧
      (ma ≤ 1000 * s.boot.curLimit → 1000 * s.boot.thermal < mc ∨ 1000 * cap < mw → n = max 128 (g.s - 8)) ∧
      (ma ≤ 950 * s.boot.curLimit → mc ≤ 950 * s.boot.thermal → mw ≤ 950 * cap → n = g.raised) := by
  obtain ⟨n, base, baseN, hfind⟩ := (s.regulate_paced ma mc mw cap).gens k g hg
  have hstep : ∀ {m : Nat}, (∃ b bn, find (s.regulate ma mc mw cap).gens k = some { g with s := m, base := b, baseN := bn }) → n = m := by
    rintro m ⟨b, bn, h⟩
    exact congrArg Gen.s (Option.some.inj (hfind.symm.trans h))
  refine ⟨n, base, baseN, hfind, fun hcur => hstep ?_, fun hcur hex => hstep ?_, fun hcur hheat hpower => hstep ?_⟩
  · rw [State.regulate_overcurrent hcur]; exact State.slow_gens hkeys 32 hg
  · rw [State.regulate_excess hcur hex]; exact State.slow_gens hkeys 8 hg
  · rw [State.regulate_room hcur hheat hpower]; exact State.setSteps_gens hkeys hg

/-! ### Rack caps (R273) -/

/-- A cap whose SEQ is ahead of the last accepted, by less than half the circle, or the first one, applies until its lease ends. -/
theorem execCapmsg_accepted {s : State} {q : BitVec 32} (hseq : ∀ old, s.power.seq = some old → 1 ≤ (q - old).toNat ∧ (q - old).toNat < 2 ^ 31) (p l : BitVec 32)
    {x : Frac} (hx : x = s.time.add (Frac.ofNat (1000000 * (if l = 0 then 2000 else l.toNat)))) : exec (.capmsg q p l) s =
      .next { s with power := { s.power with seq := some q, cap := p.toNat, leaseTo := some x }, timers := s.timers ++ [(x, .lease)] } := by
  show execCapmsg q p l s = _
  subst hx
  unfold execCapmsg
  cases hs : s.power.seq with
  | none => rfl
  | some old =>
    have hok : (decide (1 ≤ (q - old).toNat) && decide ((q - old).toNat < 2 ^ 31)) = true := by simpa using hseq old hs
    dsimp only
    rw [hok]
    rfl

theorem execCapmsg_refused {s : State} {q old : BitVec 32} (hseq : s.power.seq = some old) (h : q = old ∨ 2 ^ 31 ≤ (q - old).toNat) (p l : BitVec 32) :
    exec (.capmsg q p l) s = .next s := by
  have hbad : (decide (1 ≤ (q - old).toNat) && decide ((q - old).toNat < 2 ^ 31)) = false := by
    rw [Bool.and_eq_false_iff, decide_eq_false_iff_not, decide_eq_false_iff_not]
    rcases h with rfl | h
    · exact .inl (by simp)
    · exact .inr (Nat.not_lt.mpr h)
  show execCapmsg q p l s = _
  unfold execCapmsg
  rw [hseq]
  dsimp only
  rw [hbad]
  rfl

theorem execCapLeaseExpiry_due {s : State} {x : Frac} (hx : s.power.leaseTo = some x) (hdue : x.le s.time = true) :
    exec .capLeaseExpiry s = .next { s with power := { s.power with leaseTo := none } } := by
  show execCapLeaseExpiry s = _
  unfold execCapLeaseExpiry
  rw [hx]
  exact congrArg Host.Outcome.next (if_pos hdue)

/-! ### Scrub errors (R237) -/

/-- The block is bad from now on, beside those that were. -/
theorem execPatrolScrubError_eq (s : State) (d a : Nat) :
    ∃ bad, exec (.patrolScrubError d a) s = .next { s.countUe d with bad } ∧ (2, (2 ^ 38 * d + a) / 64 * 64) ∈ bad ∧ ∀ k ∈ s.bad, k ∈ bad := by
  by_cases h : (2, (2 ^ 38 * d + a) / 64 * 64) ∈ s.bad
  · exact ⟨s.bad, congrArg Host.Outcome.next (if_pos (List.contains_iff_mem.mpr h)), h, fun _ hk => hk⟩
  · exact ⟨s.bad ++ [(2, (2 ^ 38 * d + a) / 64 * 64)], congrArg Host.Outcome.next (if_neg (mt List.contains_iff_mem.mp h)), by simp,
      fun _ hk => List.mem_append_left _ hk⟩

end Sys2Proof.Machine

open Sys2Proof Sys2Proof.Machine

/-- Settles O50, clause by clause: the interval by what it makes of each generator, caps by their sequence numbers, the lease's end, and scrub errors. -/
theorem powerAndHealth : Obligations.PowerAndHealth := by
  refine ⟨?interval, ?accepted, ?refused, ?lease, ?scrub⟩
  case interval =>
    intro s ma mc mw k g x hnext hdue hkeys hg
    have hnodup : ((s.measured x).gens.map (·.1)).Nodup := hkeys.imp Nat.ne_of_lt
    obtain ⟨n, base, baseN, hfind, hcur, hexcess, hroom⟩ := State.regulate_gens hnodup ma mc mw s.powerCap hg
    obtain ⟨_, _, _, hrest⟩ := ((s.measured x).regulate_paced ma mc mw s.powerCap).rest
    refine ⟨_, Gen.unhinted { g with s := n, base, baseN }, execPowerControlInterval_due hnext hdue ma mc mw, ?_, rfl, rfl, rfl, hcur, hexcess, hroom, ?_, ?_⟩
    · exact (find_map Gen.unhinted ..).trans (congrArg (Option.map Gen.unhinted) hfind)
    · rw [hrest]; rfl
    · rw [hrest]; rfl
  case accepted =>
    intro s q p l hseq
    exact ⟨_, _, execCapmsg_accepted hseq p l rfl, rfl, rfl⟩
  case refused => exact fun s q p l old hseq h => execCapmsg_refused hseq h p l
  case lease => exact fun s x hx hdue => execCapLeaseExpiry_due hx hdue
  case scrub =>
    intro s d a _
    obtain ⟨bad, hexec, hnew, hkept⟩ := execPatrolScrubError_eq s d a
    refine ⟨_, hexec, ?_, rfl, hnew, hkept⟩
    exact (modify_getElem? ..).trans (if_pos rfl)
end

