-- ==== Sys2Proof/Proofs/Attest.lean ====
section
/-! PROOFS. Boot, and the SPDM responders (O55). -/

namespace Sys2Proof.Machine

/-! ### Boot (R319) -/

theorem State.foldl_tell {α : Type} (ty param unit : α → Nat) (pkg : α → Nat) (bs : State → List Byte) (l : List α) (s : State) :
    ∃ txq, l.foldl (fun s a => s.tell (ty a) (pkg a) (param a) (unit a) (bs s)) s = { s with txq } := by
  induction l generalizing s with
  | nil => exact ⟨s.txq, rfl⟩
  | cons a l ih => exact ih (s.tell (ty a) (pkg a) (param a) (unit a) (bs s))

/-- The time goes to the other packages as flits that wait at the ports, and again at a timer. -/
theorem State.tellTime_eq (s : State) : ∃ free txq timers, s.tellTime = { s with free, txq, timers } := by
  unfold State.tellTime
  split
  · exact ⟨_, _, _, rfl⟩
  · obtain ⟨txq, h⟩ := State.foldl_tell (fun _ => 11) (fun _ => 0) (fun _ => 0) id (fun s => leBytes 8 s.time.floor) s.fabric s
    exact ⟨s.free + 1, txq, _, by rw [show s.fabric.foldl (fun s k => s.tell 11 k 0 0 (leBytes 8 s.time.floor)) s = _ from h]; rfl⟩

/-- The package as `im` configures it, before its first control interval is planned and its time is told. -/
def State.configured (s : State) (im : BootImage) : State :=
  { s.clearMemory with boot := ⟨5, false, im.digests.take 4, im.pkgNo.toNat, im.routes, min 1800 im.currentLimit, im.thermalLimit, im.floorCap⟩ }

section
variable {s : State} (h0 : s.boot.step = 0) (hf : s.boot.failed = false)
include h0 hf

theorem execBoot_passed {im : BootImage} (hl : im.loaderOk = true) (hw : im.firmwareOk = true) (ht : im.tablesOk = true) (hc : im.configOk = true) :
    ∃ power free txq timers, exec (.boot im) s = .next { s.configured im with power, free, txq, timers } := by
  obtain ⟨free, txq, timers, h⟩ := ((s.configured im).nextInterval ((s.configured im).time.add (Frac.ofNat 50000))).tellTime_eq
  have hexec : exec (.boot im) s = .next ((s.configured im).nextInterval ((s.configured im).time.add (Frac.ofNat 50000))).tellTime := by
    show execBoot im s = _
    unfold execBoot
    rw [h0, hf, hl, hw, ht, hc]
    rfl
  exact ⟨_, free, txq, timers, hexec.trans (congrArg Host.Outcome.next h)⟩

/-- At the first check that fails boot stops, with memory cleared or not. -/
theorem execBoot_failed {im : BootImage} (h : im.loaderOk = false ∨ im.firmwareOk = false ∨ im.tablesOk = false ∨ im.configOk = false) :
    ∃ step k v, step < 5 ∧ (v = s ∨ v = s.clearMemory) ∧ exec (.boot im) s = .next (v.bootFails step im k) := by
  have hstart : ¬(s.boot.step ≠ 0 ∨ s.boot.failed = true) := by simp [h0, hf]
  have hexec : exec (.boot im) s = execBoot im s := rfl
  rw [hexec, execBoot, if_neg hstart]
  cases hl : im.loaderOk
  · exact ⟨0, 0, s, by decide, .inl rfl, rfl⟩
  cases hw : im.firmwareOk
  · exact ⟨1, 1, s, by decide, .inl rfl, rfl⟩
  cases ht : im.tablesOk
  · exact ⟨2, 2, s.clearMemory, by decide, .inr rfl, rfl⟩
  cases hc : im.configOk
  · exact ⟨3, 3, s.clearMemory, by decide, .inr rfl, rfl⟩
  · rw [hl, hw, ht, hc] at h
    exact absurd h (by decide)

end

/-! ### Requests (R320) -/

@[simp] theorem State.spdmOf_setSpdm (s : State) (f : Nat) (g : Spdm → Spdm) : (s.setSpdm f g).spdmOf f = g (s.spdmOf f) := by
  simp [State.spdmOf, State.setSpdm]

@[simp] theorem State.spdmOf_respond (s : State) (f code : Nat) (bs : List Byte) (j : Nat) : (s.respond f code bs).spdmOf j = s.spdmOf j := rfl

/-- A request in or after its stage is served. -/
theorem spdmRow_served {s : State} {f need : Nat} (hr : s.responds f = true) (hs : need ≤ (s.spdmOf f).stage) (g : State → State) :
    spdmRow f need s g = .next (g s) := by
  unfold spdmRow
  rw [hr, if_neg (Nat.not_lt.mpr hs)]
  rfl

/-- What a served request does: the connection of `f` goes over by `g`, and the responder answers with `code` and `bs`, which other bytes follow. -/
def State.answersSpdm (s : State) (i : Instr) (f : Nat) (g : Spdm → Spdm) (code : Nat) (bs : List Byte) : Prop :=
  ∃ t rest, exec i s = .next t ∧ t.spdmOf f = g (s.spdmOf f) ∧ t.out = s.out ++ [.spdm f code (bs ++ rest)]

/-- What the connection is to satisfy after the answer, it does where `g` makes it so. -/
theorem State.answersSpdm.conn {s : State} {i : Instr} {f : Nat} {g : Spdm → Spdm} {code : Nat} {bs : List Byte} (h : s.answersSpdm i f g code bs) {P : Spdm → Prop}
    (hP : P (g (s.spdmOf f))) : ∃ t rest, exec i s = .next t ∧ P (t.spdmOf f) ∧ t.out = s.out ++ [.spdm f code (bs ++ rest)] := by
  obtain ⟨t, rest, hexec, hconn, hout⟩ := h
  exact ⟨t, rest, hexec, hconn ▸ hP, hout⟩

theorem State.answersSpdm.answer {s : State} {i : Instr} {f : Nat} {g : Spdm → Spdm} {code : Nat} {bs : List Byte} (h : s.answersSpdm i f g code bs) :
    ∃ t rest, exec i s = .next t ∧ t.out = s.out ++ [.spdm f code (bs ++ rest)] := by
  obtain ⟨t, rest, hexec, -, hout⟩ := h
  exact ⟨t, rest, hexec, hout⟩

section
variable {s : State} {f : Nat} (hr : s.responds f = true)
include hr

/-- A request that changes the connection. -/
theorem State.answersSpdm_of_set {need : Nat} (hs : need ≤ (s.spdmOf f).stage) {i : Instr} {r : Result} (he : exec i s = r) {body : State → State}
    (hrow : r = spdmRow f need s body) {g : Spdm → Spdm} {code : Nat} {bs : List Byte} (hb : body s = (s.setSpdm f g).respond f code bs) :
    s.answersSpdm i f g code bs := by
  refine ⟨_, _, ?_, (State.spdmOf_respond ..).trans (s.spdmOf_setSpdm f g), rfl⟩
  rw [he, hrow, spdmRow_served hr hs, hb]

/-- A request that leaves the connection as it is. -/
theorem State.answersSpdm_of_respond {need : Nat} (hs : need ≤ (s.spdmOf f).stage) {i : Instr} {r : Result} (he : exec i s = r) {body : State → State}
    (hrow : r = spdmRow f need s body) {code : Nat} {bs : List Byte} (hb : body s = s.respond f code bs) : s.answersSpdm i f id code bs := by
  refine ⟨_, _, ?_, State.spdmOf_respond .., rfl⟩
  rw [he, hrow, spdmRow_served hr hs, hb]

theorem execGetVersion_answers : s.answersSpdm (.getVersion f) f (fun _ => ⟨1, []⟩) 0x04 [0x13] :=
  State.answersSpdm_of_set hr (Nat.zero_le _) (r := execGetVersion f s) rfl rfl rfl

theorem execGetCapabilities_answers (hs : 1 ≤ (s.spdmOf f).stage) :
    s.answersSpdm (.getCapabilities f) f (fun x => { x with stage := max x.stage 2 }) 0x61 [] :=
  State.answersSpdm_of_set hr hs (r := execGetCapabilities f s) rfl rfl rfl

theorem execNegotiateAlgorithms_answers (hs : 2 ≤ (s.spdmOf f).stage) :
    s.answersSpdm (.negotiateAlgorithms f 0) f (fun x => { x with stage := 3 }) 0x63 [] :=
  State.answersSpdm_of_set hr hs (r := execNegotiateAlgorithms f 0 s) rfl rfl rfl

variable (hs : 3 ≤ (s.spdmOf f).stage)
include hs

theorem execGetDigests_answers : s.answersSpdm (.getDigests f) f id 0x01 [] :=
  State.answersSpdm_of_respond hr hs (r := execGetDigests f s) rfl rfl rfl

theorem execGetCertificate_answers (sl : Nat) : s.answersSpdm (.getCertificate f sl) f id 0x02 [BitVec.ofNat 8 sl] :=
  State.answersSpdm_of_respond hr hs (r := execGetCertificate f sl s) rfl rfl rfl

theorem execChallenge_answers (no : BitVec 256) : s.answersSpdm (.challenge f no) f id 0x03 (leBytes 32 no.toNat) :=
  State.answersSpdm_of_respond hr hs (r := execChallenge f no s) rfl rfl rfl

theorem execGetMeasurements_answers {ix : Nat} {m : List Byte} (hm : s.measurement f ix = some m) :
    s.answersSpdm (.getMeasurements f ix) f id 0x60 m :=
  State.answersSpdm_of_respond hr hs (r := execGetMeasurements f ix s) rfl rfl (by rw [hm])

/-! Sessions, which open, are set up, change their keys and end. -/

theorem execKeyExchange_answers (sid : Nat) :
    s.answersSpdm (.keyExchange f sid false) f (fun x => { x with sessions := put x.sessions sid (false, 0) }) 0x64 [] :=
  State.answersSpdm_of_set hr hs (r := execKeyExchange f sid false s) rfl rfl rfl

theorem execFinish_answers {sid n : Nat} (hopen : find (s.spdmOf f).sessions sid = some (false, n)) :
    s.answersSpdm (.finish f sid) f (fun x => { x with sessions := put x.sessions sid (true, n) }) 0x65 [] :=
  State.answersSpdm_of_set hr hs (r := execFinish f sid s) rfl rfl (by rw [hopen])

variable {sid n : Nat} (hset : find (s.spdmOf f).sessions sid = some (true, n))
include hset

theorem execEndSession_answers : s.answersSpdm (.endSession f sid) f (fun x => { x with sessions := drop x.sessions sid }) 0x6C [] :=
  State.answersSpdm_of_set hr hs (r := execEndSession f sid s) rfl rfl (by rw [hset])

theorem execKeyUpdate_answers :
    s.answersSpdm (.keyUpdate (.spdm f sid)) f (fun x => { x with sessions := put x.sessions sid (true, n + 1) }) 0x69 [] :=
  State.answersSpdm_of_set hr hs (r := execKeyUpdate (.spdm f sid) s) rfl (by rw [execKeyUpdate]) (by rw [hset])

end

/-! ### Keys (R245, R320) -/

/-- An established session of a function's responder lets a key in. -/
theorem State.keySession_of_established {s : State} {f sid n : Nat} (hf : f < 128) (hr : s.responds f = true)
    (hset : find (s.spdmOf f).sessions sid = some (true, n)) : s.keySession f = true := by
  rw [State.keySession, if_pos hf, hr, Bool.true_and]
  exact List.any_eq_true.mpr ⟨_, mem_of_find hset, rfl⟩

/-- A partition's key, once set, goes to the packages named. -/
theorem State.tellKey_setVf (s : State) (part : Nat) (key : BitVec 512) (pkgs : List Nat) :
    (s.setVf part fun x => { x with key := some key }).tellKey part pkgs =
      { s.setVf part fun x => { x with key := some key } with out := s.out ++ pkgs.map fun p => Out.key p part key } := by
  have hkey : (s.setVf part fun x => { x with key := some key }).keyOf part = some key :=
    congrArg (Option.bind · Vf.key) (find_put_self ..)
  rw [State.tellKey, hkey]
  rfl

theorem execSetKey_locked {s : State} {f part : Nat} (hf : f < 128) (hsess : s.keySession f = true) (hp : part < 64) (ht : (s.vf part).tdi = 1)
    (key : BitVec 512) : ∃ ps : List Nat, exec (.setKey f part key) s =
      .next { s.setVf part fun x => { x with key := some key } with out := s.out ++ ps.map fun p => Out.key p part key } := by
  have hlets : ¬(64 ≤ part ∨ (!s.keySession f) = true ∨ (s.vf part).tdi ≠ 1) := by simp [hsess, ht, hp]
  exact ⟨_, congrArg Host.Outcome.next ((if_neg hlets).trans ((if_pos hf).trans (s.tellKey_setVf part key _)))⟩

theorem execSetKey_refused {s : State} {part : Nat} (ht : (s.vf part).tdi ≠ 1) (f : Nat) (key : BitVec 512) : exec (.setKey f part key) s = .next s :=
  congrArg Host.Outcome.next (if_pos (.inr (.inr ht)))

end Sys2Proof.Machine

open Sys2Proof Sys2Proof.Machine

/-- Settles O55: boot by its checks, each request by what it answers and leaves of the connection, and keys by the state of the TDI. -/
theorem bootAndAttest : Obligations.BootAndAttest := by
  refine ⟨?boot, ?requests, ?keyUpdate, ?setKey⟩
  case boot =>
    intro s im h0 hf
    by_cases hok : im.loaderOk = true ∧ im.firmwareOk = true ∧ im.tablesOk = true ∧ im.configOk = true
    · obtain ⟨hl, hw, ht, hc⟩ := hok
      obtain ⟨_, _, _, _, hexec⟩ := execBoot_passed h0 hf hl hw ht hc
      refine ⟨_, hexec, rfl, fun _ _ _ _ => ⟨rfl, rfl, rfl, rfl, rfl, fun _ => rfl, rfl⟩, fun hbad => ?_⟩
      rw [hl, hw, ht, hc] at hbad
      exact absurd hbad (by decide)
    · have hbad : im.loaderOk = false ∨ im.firmwareOk = false ∨ im.tablesOk = false ∨ im.configOk = false := by
        simpa only [not_and_or, Bool.not_eq_true] using hok
      obtain ⟨step, k, v, hstep, hv, hexec⟩ := execBoot_failed h0 hf hbad
      refine ⟨_, hexec, ?_, fun hl hw ht hc => absurd ⟨hl, hw, ht, hc⟩ hok, fun _ => ⟨rfl, hstep, beq_false_of_ne (Nat.ne_of_lt hstep)⟩⟩
      rcases hv with rfl | rfl <;> rfl
  case requests =>
    intro s f hr
    refine ⟨execGetVersion_answers hr, fun hs => ?capabilities, fun hs => ?algorithms, fun hs => ⟨(execGetDigests_answers hr hs).answer,
      fun sl => (execGetCertificate_answers hr hs sl).answer, fun no => (execChallenge_answers hr hs no).answer,
      fun ix m hm => (execGetMeasurements_answers hr hs hm).answer, fun sid => ?opens, fun sid n hopen => ?setUp, fun sid n hset => ?ends⟩⟩
    case capabilities => exact (execGetCapabilities_answers hr hs).conn (P := fun x => 2 ≤ x.stage) (Nat.le_max_right ..)
    case algorithms => exact (execNegotiateAlgorithms_answers hr hs).conn (P := fun x => x.stage = 3) rfl
    case opens => exact (execKeyExchange_answers hr hs sid).conn (P := fun x => find x.sessions sid = some (false, 0)) (find_put_self ..)
    case setUp => exact (execFinish_answers hr hs hopen).conn (P := fun x => find x.sessions sid = some (true, n)) (find_put_self ..)
    case ends => exact (execEndSession_answers hr hs hset).conn (P := fun x => find x.sessions sid = none) ((find_drop ..).trans (if_pos rfl))
  case keyUpdate =>
    intro s f sid n hr hset hs
    exact (execKeyUpdate_answers hr hs hset).conn (P := fun x => find x.sessions sid = some (true, n + 1)) (find_put_self ..)
  case setKey =>
    intro s f part sid n key hf hr hp hset
    exact ⟨fun ht => execSetKey_locked hf (State.keySession_of_established hf hr hset) hp ht key, fun ht => execSetKey_refused ht f key⟩
end

