-- ==== Sys2Proof/Proofs/NodeSteps.lean ====
section
/-! PROOFS. Pattern nodes that run and choose their successors (O47). -/

namespace Sys2Proof.Machine

/-! ### What the scheduler reads (R238, R240, R245) -/

/-- From `s` to `t` device memory reads as it did, by its tables and its keys. -/
structure State.ReadsAlike (s t : State) : Prop where
  dram      : t.dram = s.dram
  boot      : t.boot = s.boot
  vfs       : t.vfs = s.vfs
  sealed    : t.sealed = s.sealed
  scrambled : t.scrambled = s.scrambled

theorem State.ReadsAlike.locate {s t : State} (h : s.ReadsAlike t) (part va : Nat) : t.locate part va = s.locate part va := by
  unfold State.locate
  rw [State.walk_congr h.dram h.boot h.vfs]

theorem State.ReadsAlike.decipher {s t : State} (h : s.ReadsAlike t) (sp : Space) (part a : Nat) (bs : List Byte) :
    t.decipher sp part a bs = s.decipher sp part a bs := by
  unfold State.decipher State.foreignKey State.noiseAt State.keyOf
  rw [h.dram, h.vfs, h.sealed, h.scrambled]

theorem State.ReadsAlike.readVa {s t : State} (h : s.ReadsAlike t) (part va n : Nat) : t.readVa part va n = s.readVa part va n := by
  unfold State.readVa
  simp only [h.locate, h.decipher, h.dram]

/-- A node's read takes its place in the queues and is noted with its node (R236, R262). -/
theorem State.nodeReads_alike (s : State) (region addr part va : Nat) : s.ReadsAlike (s.nodeReads region addr part va) := by
  unfold State.nodeReads
  split
  · rename_i pa _
    obtain ⟨_, _, hq⟩ := s.queueBlocks_queued pa 8 s.time
    rw [State.enqueue, hq]
    exact ⟨rfl, rfl, rfl, rfl, rfl⟩
  · exact ⟨rfl, rfl, rfl, rfl, rfl⟩

/-! ### A node that runs (R263) -/

theorem nodeKey_mod {addr : Nat} (h : addr < 2 ^ 48) (region : Nat) : nodeKey region addr % 2 ^ 48 = addr := by
  unfold nodeKey; omega

theorem nodeKey_div {addr : Nat} (h : addr < 2 ^ 48) (region : Nat) : nodeKey region addr / 2 ^ 48 = region := by
  unfold nodeKey; omega

/-- The ready node at `addr` of a region can be read and may run: its job is not halted (R263, R290). -/
structure State.Runnable (s : State) (region addr : Nat) (nd : Node) (x : NodeInfo) (b : Rcb) : Prop where
  low    : addr < 2 ^ 48
  active : (s.nodes.find? fun n => n.addr == addr && n.region == region) = some nd
  ready  : nd.state = .ready
  goes   : s.jobHalted region = false
  info   : s.nodeInfo region addr = some x
  rcb    : s.regionRcb region = some b

section
variable {s : State} {region addr : Nat} {nd : Node} {x : NodeInfo} {b : Rcb} (h : s.Runnable region addr nd x b)
include h

theorem State.Runnable.addr_eq : nd.addr = addr := by
  have hmatch := List.find?_some h.active
  simp only [Bool.and_eq_true, beq_iff_eq] at hmatch
  exact hmatch.1

theorem State.Runnable.nodeStep {st : NState → Bool} (hst : st .ready = true) (f : Nat → Node → NodeInfo → Nat → State) :
    s.nodeStep (nodeKey region addr) st f = f region nd x b.part := by
  unfold State.nodeStep
  simp only [nodeKey_mod h.low, nodeKey_div h.low, h.active, h.ready, hst, h.goes, h.info, h.rcb, Bool.not_true, Bool.or_false, Bool.false_eq_true,
    if_false]

theorem State.Runnable.execJoin {c : Nat} {a : Acq}
    (hc : ((s.joins.find? fun e => e.1 == nodeKey region addr).map (·.2)).getD (0, Acq.zero) = (c, a)) :
    execJoin (nodeKey region addr) s = .next (if c + 1 = x.get 2 2 then
        (State.modNode { s with joins := s.joins.filter fun e => e.1 != nodeKey region addr } region addr fun n =>
          { n with acq := a.merge nd.acq }).nodeDone region addr [x.next0, x.next1]
      else State.nodeDone { s with
        joins := (nodeKey region addr, c + 1, a.merge nd.acq) :: s.joins.filter fun e => e.1 != nodeKey region addr } region addr []) := by
  unfold Machine.execJoin
  rw [h.nodeStep rfl]
  cases harrived : s.joins.find? fun e => e.1 == nodeKey region addr with
  | none =>
    rw [harrived] at hc
    cases hc
    simp only [h.addr_eq]
  | some e =>
    obtain ⟨k, e⟩ := e
    rw [harrived] at hc
    obtain rfl : e = (c, a) := hc
    simp only [h.addr_eq]

variable {w : Nat} (hw : s.readVa b.part (x.get 32 8) 8 = some w)
include hw

theorem State.Runnable.execCond : execCond (nodeKey region addr) s = .next ((s.nodeReads region addr b.part (x.get 32 8)).nodeDone region addr
    [if w &&& x.get 40 8 = x.get 48 8 then x.next0 else x.next1]) := by
  unfold Machine.execCond
  rw [h.nodeStep rfl]
  simp only [hw, h.addr_eq]

/-- A LOOP counts on below its limit, and else starts anew and goes on behind it. -/
theorem State.Runnable.execLoopNode {iter : Nat} {sl : State} (hiter : iter = if s.loops.contains (nodeKey region addr) then x.get 40 8 else 0)
    (hsl : sl = { s.nodeReads region addr b.part (x.get 32 8) with
      loops := if s.loops.contains (nodeKey region addr) then s.loops else nodeKey region addr :: s.loops }) :
    execLoopNode (nodeKey region addr) s = .next (if iter < w then (sl.writeVa b.part (addr + 40) 8 (iter + 1)).nodeDone region addr [x.next0]
      else (sl.writeVa b.part (addr + 40) 8 0).nodeDone region addr [x.next1]) := by
  unfold Machine.execLoopNode
  rw [h.nodeStep rfl, hiter, hsl]
  simp only [hw, h.addr_eq]

theorem State.Runnable.execSwitch_beyond (hbig : x.get 48 1 < w) :
    execSwitch (nodeKey region addr) s = .next ((s.nodeReads region addr b.part (x.get 32 8)).nodeDone region addr [x.next0]) := by
  unfold Machine.execSwitch
  rw [h.nodeStep rfl]
  simp only [hw, h.addr_eq, if_neg (Nat.not_le.mpr hbig)]

/-- Within its table a SWITCH takes the entry of its word. -/
theorem State.Runnable.execSwitch_within {e : Nat} (hle : w ≤ x.get 48 1) (he : s.readVa b.part (x.get 40 8 + 8 * w) 8 = some e) :
    execSwitch (nodeKey region addr) s = .next (((s.nodeReads region addr b.part (x.get 32 8)).nodeReads region addr b.part
      (x.get 40 8 + 8 * w)).nodeDone region addr [e]) := by
  unfold Machine.execSwitch
  rw [h.nodeStep rfl]
  simp only [hw, h.addr_eq, if_pos hle, (s.nodeReads_alike ..).readVa, he]

variable {p : Page × Nat} (hp : s.locate b.part (x.get 32 8) = some p) (hfirst : s.tableWaiters = [])
include hp hfirst

theorem State.Runnable.execWatchNode_changed (hne : w ≠ x.get 40 8) : execWatchNode (nodeKey region addr) s =
    .next (((s.nodeReads region addr b.part (x.get 32 8)).unwatch (.node addr region)).nodeDone region addr [x.next0, x.next1]) := by
  unfold Machine.execWatchNode State.evalWatch
  rw [hfirst, List.foldl_nil, h.nodeStep rfl]
  simp only [hp, hw, h.addr_eq, if_pos hne]

theorem State.Runnable.execWatchNode_waits (heq : w = x.get 40 8) (hfree : s.tableFree (p.2 / 2 ^ 38) ≠ 0) :
    execWatchNode (nodeKey region addr) s = .next ((s.watch p.2 (.node addr region)).setNode region addr .waiting) := by
  have hready : nd.state ≠ .waiting := by rw [h.ready]; decide
  unfold Machine.execWatchNode State.evalWatch
  rw [hfirst, List.foldl_nil, h.nodeStep rfl]
  simp only [hp, hw, h.addr_eq, ne_eq, heq, not_true_eq_false, if_neg hready, if_neg hfree, if_false]

end

end Sys2Proof.Machine

open Sys2Proof Sys2Proof.Machine

/-- Settles O47, type by type, by what the step of a node that can be read comes to. -/
theorem nodesChoose : Obligations.NodesChoose := by
  intro s region addr nd x b hlow hactive hready hgoes hinfo hrcb
  have h : s.Runnable region addr nd x b := ⟨hlow, hactive, hready, hgoes, hinfo, hrcb⟩
  refine ⟨fun w sr hw hsr => ?word, fun c a hc => ?join⟩
  case word =>
    subst hsr
    refine ⟨h.execCond hw, fun iter sl hiter hsl => ⟨fun hlt => ?_, fun hge => ?_⟩, h.execSwitch_beyond hw, fun e hle he => h.execSwitch_within hw hle he,
      fun p hp hfirst hne => h.execWatchNode_changed hw hp hfirst hne, fun p hp hfirst heq hfree => h.execWatchNode_waits hw hp hfirst heq hfree⟩
    · exact (h.execLoopNode hw hiter hsl).trans (by rw [if_pos hlt])
    · exact (h.execLoopNode hw hiter hsl).trans (by rw [if_neg (Nat.not_lt.mpr hge)])
  case join =>
    exact ⟨fun heq => (h.execJoin hc).trans (by rw [if_pos heq]), fun hne => (h.execJoin hc).trans (by rw [if_neg hne])⟩
end

