-- ==== Sys2Proof/Proofs/Retires.lean ====
section
/-! PROOFS. A kernel that retires while its own node is none of the active ones (O46). -/

namespace Sys2Proof.Machine

/-- A node made ready twice in one step. -/
theorem State.makeReady_twice (s : State) (region : Nat) (acq : Acq) (a : Nat) : s.makeReady region acq [a, a] =
    State.ready1 region s.order acq 2 a (State.ready1 region s.order acq 2 a { s with order := s.order + 1 }) := by
  unfold State.makeReady
  rw [List.mergeSort_of_pairwise (by simp)]
  rfl

/-! ### A node that is both successors of itself -/

/-- The device virtual address of a COND node. -/
def condVa : Nat := 2 ^ 30 + 0x20000

/-- An RCB of job 0 at 2^30 whose own fields are all 0. -/
def plainRcb : Rcb := (RawRcb.mk 0).take 0 (2 ^ 30) 0 none

/-- A kernel that retires: both its successors are the node at `condVa`, which is also the node that it was cast on from. -/
def selfNextKernel : Kernel := { fetchKernel 0 with state := .retiring, units := [], live := [], node := condVa, next0 := condVa, next1 := condVa }

/-- That kernel in a package without active nodes. Tables at 0x10000 map the page of 1 GiB at 2^30 to physical address 0, and the bytes of the node there
make it a COND whose other fields are 0. -/
def selfNextState : State :=
  { State.reset with
    regions := [fetchRegion], rcbs := [plainRcb], kernels := [selfNextKernel]
    dram := ⟨[(0x10000, 1), (0x10002, 1), (0x10010, 0x0F), (0x20000, 2)], []⟩, vfs := [(0, { Vf.zero with ptroot := 0x10000 })] }

theorem selfNextState_readable : (selfNextState.nodeInfo 0 condVa).isSome := by decide +kernel

/-- The first successor makes the node active, the second queues it, and the retire then runs it again (R263). -/
theorem selfNextState_keepsNode :
    ((outcomeState selfNextState (exec (.nodeRetire 0) selfNextState)).nodes.any fun n => n.addr == condVa && n.region == 0) = true := by
  have hexec : outcomeState selfNextState (exec (.nodeRetire 0) selfNextState) =
    ((((selfNextState.publishWho ⟨0, 0, 0, 0, 0, 0, 0⟩ (selfNextState.retireCovers 0) 7 selfNextState.time).setKernel 0 fun q =>
      { q with state := .retired }).nodeDone 0 condVa [condVa, condVa]).regrant) := rfl
  rw [hexec]
  unfold State.nodeDone
  rw [State.makeReady_twice]
  decide +kernel

end Sys2Proof.Machine

open Sys2Proof Sys2Proof.Machine

/-- Refutes O46: the last clause of the retire, that the node of a kernel whose run ends without another queued is active no more, fails in
`selfNextState`, where no node is active and the kernel's node is both its successors. The clause's hypothesis speaks of the active nodes alone and holds
of none; the first arrival makes the node active and the second is queued for it, so that it runs again. -/
theorem not_patternsAdvance : ¬ Obligations.PatternsAdvance := by
  rintro ⟨-, -, -, -, -, -, hretire⟩
  obtain ⟨t, ker', ht, -, -, -, hnext⟩ := hretire selfNextState 0 selfNextKernel rfl rfl
  have hreadable : ∀ a, a = selfNextKernel.next0 ∨ a = selfNextKernel.next1 → a = 0 ∨ (selfNextState.nodeInfo selfNextKernel.region a).isSome := by
    rintro a (rfl | rfl) <;> exact .inr selfNextState_readable
  obtain ⟨-, -, hgone⟩ := hnext hreadable
  have hkeeps := selfNextState_keepsNode
  rw [ht, show outcomeState selfNextState (Host.Outcome.next t) = t from rfl] at hkeeps
  obtain ⟨n, hn, hmatch⟩ := List.any_eq_true.mp hkeeps
  simp only [Bool.and_eq_true, beq_iff_eq] at hmatch
  exact hgone (by nofun) n hn hmatch
end

