-- ==== Sys2Proof/Proofs/Served.lean ====
section
/-! PROOFS. What the scheduler's own steps and the writes of memory leave of regions, of nodes and of job slots (O44, O48). -/

namespace Sys2Proof.Machine

/-! ### Job slots (R254) -/

/-- From `s` to `t` each job slot keeps everything but the number of its arm. -/
def State.KeepsJobs (s t : State) : Prop := ∀ j x, find s.jobs j = some x → ∃ a, find t.jobs j = some { x with armId := a }

theorem State.KeepsJobs.of_eq {s t : State} (h : t.jobs = s.jobs) : s.KeepsJobs t := fun _ x hx => ⟨x.armId, h ▸ hx⟩

theorem State.KeepsJobs.trans {r s t : State} (h : r.KeepsJobs s) (g : s.KeepsJobs t) : r.KeepsJobs t := fun j x hx => by
  obtain ⟨_, hs⟩ := h j x hx
  obtain ⟨a, ht⟩ := g j _ hs
  exact ⟨a, ht⟩

/-- A change of some slots' numbers is found as such. -/
theorem find_renumbered {g : Nat × Job → Nat × Job} (hg : ∀ e, g e = e ∨ ∃ id, g e = (e.1, { e.2 with armId := id })) {l : List (Nat × Job)} {j : Nat}
    {x : Job} (h : find l j = some x) : ∃ a, find (l.map g) j = some { x with armId := a } := by
  induction l with
  | nil => cases h
  | cons e l ih =>
    rw [find] at h
    split at h
    · rename_i hj
      cases h
      rcases hg e with he | ⟨id, he⟩ <;> rw [List.map_cons, he, find, if_pos hj] <;> exact ⟨_, rfl⟩
    · rename_i hj
      obtain ⟨a, ha⟩ := ih h
      refine ⟨a, ?_⟩
      rcases hg e with he | ⟨id, he⟩ <;> rw [List.map_cons, he, find, if_neg hj, ha]

/-! ### Regions, nodes and job slots (R248, R262) -/

/-- From `s` to `t` regions and nodes stand as they were, and so do job slots but for the numbers of their arms. -/
structure State.Steady (s t : State) : Prop where
  regions : t.regions = s.regions
  nodes   : t.nodes = s.nodes
  jobs    : s.KeepsJobs t

theorem State.Steady.of_eq {s t : State} (hr : t.regions = s.regions) (hn : t.nodes = s.nodes) (hj : t.jobs = s.jobs) : s.Steady t := ⟨hr, hn, .of_eq hj⟩

theorem State.Steady.refl (s : State) : s.Steady s := .of_eq rfl rfl rfl

theorem State.Steady.trans {r s t : State} (h : r.Steady s) (g : s.Steady t) : r.Steady t :=
  ⟨g.regions.trans h.regions, g.nodes.trans h.nodes, h.jobs.trans g.jobs⟩

theorem State.Steady.foldl {α : Type} {f : State → α → State} (hf : ∀ (s : State) a, s.Steady (f s a)) (l : List α) (s : State) : s.Steady (l.foldl f s) := by
  induction l generalizing s with
  | nil => exact .refl s
  | cons a l ih => exact (hf s a).trans (ih _)

theorem State.Steady.region {s t : State} (h : s.Steady t) (i : Nat) : t.region i = s.region i := by unfold State.region; rw [h.regions]

theorem State.setUnit_steady (s : State) (u : Nat) (un : Unit) : s.Steady (s.setUnit u un) := .of_eq rfl rfl rfl

theorem State.modUnit_steady (s : State) (u : Nat) (f : Unit → Unit) : s.Steady (s.modUnit u f) := by
  unfold State.modUnit
  split
  · exact s.setUnit_steady u _
  · exact .refl s

theorem State.keepHolds_steady (s : State) (keep : Nat × Nat × Nat → Bool) : s.Steady (s.keepHolds keep) := .of_eq rfl rfl rfl

theorem State.enqueue_steady (s : State) (pa n : Nat) : s.Steady (s.enqueue pa n) := by
  obtain ⟨_, _, h⟩ := s.queueBlocks_queued pa n s.time
  rw [State.enqueue, h]
  exact .of_eq rfl rfl rfl

/-- The note of a write that a watched word gets numbers the arm that it makes (R254). -/
theorem State.watchWrite_steady (s : State) (w : WriteRec) : s.Steady (s.watchWrite w) := by
  refine State.Steady.foldl (fun s e => ?_) s.watched s
  obtain ⟨a, x⟩ := e
  split
  · cases x with
    | arm j =>
      refine ⟨rfl, rfl, fun k y hy => find_renumbered (fun e => ?_) hy⟩
      dsimp only
      generalize (if leNat _ = 1 then w.id + 1 else 0) = id
      split
      · rename_i hc
        simp only [Bool.and_eq_true, beq_iff_eq] at hc
        exact .inr ⟨_, by rw [hc.1.1]⟩
      · exact .inl rfl
    | node _ _ => exact .of_eq rfl rfl rfl
    | status _ => exact .of_eq rfl rfl rfl
    | refused _ => exact .of_eq rfl rfl rfl
    | action _ => exact .of_eq rfl rfl rfl
  · exact .refl s

theorem State.performWrite_steady (s : State) (pad : Bool) (p : Piece) (w : WriteRec) : s.Steady (s.performWrite pad p w) := by
  obtain ⟨id, pre, h⟩ := s.performWrite_eq pad p w
  have hstored : ∀ w, s.Steady (s.stored pad p w) := fun w => by
    unfold State.stored State.setStore
    cases p.space <;> exact .of_eq rfl rfl rfl
  have hnoted : ∀ (s : State) w, s.Steady (s.noted p w) := fun s w => by
    unfold State.noted
    split
    · exact s.watchWrite_steady w
    · exact .refl s
  have hmarred : ∀ s : State, s.Steady (s.marred p) := fun s => by
    unfold State.marred; split <;> exact .of_eq rfl rfl rfl
  have hkeyed : ∀ s : State, s.Steady (s.keyed p) := fun s => by
    unfold State.keyed; split <;> exact .of_eq rfl rfl rfl
  rw [h]
  exact (((hstored _).trans (hnoted _ _)).trans (hmarred _)).trans (hkeyed _)

theorem State.writePa_steady (s : State) (who : Agent) (part pa : Nat) (bs : List Byte) : s.Steady (s.writePa who part pa bs) :=
  State.Steady.foldl (fun s _ => (s.enqueue_steady ..).trans (State.performWrite_steady ..)) _ s

theorem State.writeVa_steady (s : State) (part va n v : Nat) : s.Steady (s.writeVa part va n v) := by
  unfold State.writeVa
  split
  · split
    · exact s.writePa_steady ..
    · exact .refl s
  · exact .refl s

theorem State.postStatus_steady (s : State) (i : Nat) : s.Steady (s.postStatus i) := by
  unfold State.postStatus
  split
  · exact (s.writeVa_steady ..).trans (State.writeVa_steady ..)
  · exact .refl s

theorem State.postStatus_aside (s : State) (i : Nat) : s.Aside (s.postStatus i) := by
  unfold State.postStatus
  split
  · exact (s.writeVa_aside ..).trans (State.writeVa_aside ..)
  · exact .refl s

theorem State.soon_steady (s : State) (ns : Nat) (i : Instr) : s.Steady (s.soon ns i) := .of_eq rfl rfl rfl

/-- The scheduler's look at its grants starts timers (R266, R271). -/
theorem State.regrant_steady (s : State) : s.Steady s.regrant := by
  have hregions : s.Steady ((List.range s.regions.length).foldl (fun s i =>
      if (s.region i).still == .shed && !(s.region i).shed then s.soon 1000 (.regionReadmit i) else s) s) :=
    State.Steady.foldl (fun s i => by
      split
      · exact s.soon_steady ..
      · exact .refl s) _ s
  unfold State.regrant
  dsimp only
  split
  · exact hregions.trans (State.soon_steady ..)
  · exact hregions

/-! ### STATUS of a region (R252) -/

theorem State.setStatus_region (s : State) (i j : Nat) (f : Region → Region) :
    (s.setStatus i f).region j = if j = i ∧ i < s.regions.length then f (s.region i) else s.region j := by
  unfold State.setStatus
  rw [(State.postStatus_steady ..).region, State.region_setRegion]

theorem State.setStatus_self {s : State} {i : Nat} (hi : i < s.regions.length) (f : Region → Region) : (s.setStatus i f).region i = f (s.region i) := by
  rw [State.setStatus_region, if_pos ⟨rfl, hi⟩]

theorem State.setStatus_units (s : State) (i : Nat) (f : Region → Region) : (s.setStatus i f).units = s.units :=
  (State.postStatus_aside ..).units

theorem State.setStatus_count (s : State) (i : Nat) (f : Region → Region) : (s.setStatus i f).regions.length = s.regions.length := by
  unfold State.setStatus
  rw [(State.postStatus_steady ..).regions]
  exact modify_length ..

theorem State.setStatus_jobs (s : State) (i : Nat) (f : Region → Region) : s.KeepsJobs (s.setStatus i f) :=
  .trans (s := s.setRegion i f) (.of_eq rfl) (State.postStatus_steady _ i).jobs

theorem State.setStatus_nodes (s : State) (i : Nat) (f : Region → Region) : (s.setStatus i f).nodes = s.nodes := (State.postStatus_steady ..).nodes

/-! ### Nodes that become ready (R263) -/

/-- From `s` to `t` the scheduler has made nodes ready: units stand as they were, and so do regions but for PERR, and job slots but for the numbers of their
arms. -/
structure State.Served (s t : State) : Prop where
  units   : t.units = s.units
  regions : ∀ i, ∃ perr, t.region i = { s.region i with perr }
  count   : t.regions.length = s.regions.length
  jobs    : s.KeepsJobs t

theorem State.Served.of_eq {s t : State} (hu : t.units = s.units) (hr : t.regions = s.regions) (hj : t.jobs = s.jobs) : s.Served t :=
  ⟨hu, fun i => ⟨(s.region i).perr, by unfold State.region; rw [hr]⟩, by rw [hr], .of_eq hj⟩

theorem State.Served.refl (s : State) : s.Served s := .of_eq rfl rfl rfl

theorem State.Served.trans {r s t : State} (h : r.Served s) (g : s.Served t) : r.Served t :=
  ⟨g.units.trans h.units, fun i => by
    obtain ⟨_, hs⟩ := h.regions i
    obtain ⟨p, ht⟩ := g.regions i
    exact ⟨p, by rw [ht, hs]⟩, g.count.trans h.count, h.jobs.trans g.jobs⟩

theorem State.Served.withNodes {s t : State} (h : s.Served t) (nodes : List Node) : s.Served { t with nodes } := ⟨h.units, h.regions, h.count, h.jobs⟩

theorem State.Served.foldl {α : Type} {f : State → α → State} (hf : ∀ (s : State) a, s.Served (f s a)) (l : List α) (s : State) : s.Served (l.foldl f s) := by
  induction l generalizing s with
  | nil => exact .refl s
  | cons a l ih => exact (hf s a).trans (ih _)

theorem State.enqueue_served (s : State) (pa n : Nat) : s.Served (s.enqueue pa n) := by
  obtain ⟨_, _, h⟩ := s.queueBlocks_queued pa n s.time
  rw [State.enqueue, h]
  exact .of_eq rfl rfl rfl

theorem State.queueVa_served (s : State) (part va n : Nat) : s.Served (s.queueVa part va n) := by
  unfold State.queueVa
  split
  · exact s.enqueue_served ..
  · exact .refl s

theorem State.evaluate_served (s : State) (region addr : Nat) (x : NodeInfo) (order : Nat) : s.Served (s.evaluate region addr x order) := by
  unfold State.evaluate
  split <;> exact .of_eq rfl rfl rfl

theorem State.pattern_served (s : State) (i : Nat) : s.Served (s.setStatus i fun r => { r with perr := true }) :=
  ⟨s.setStatus_units .., fun j => by
    rw [State.setStatus_region]
    split
    · rename_i hj; exact ⟨true, by rw [hj.1]⟩
    · exact ⟨_, rfl⟩, s.setStatus_count .., s.setStatus_jobs i _⟩

theorem State.ready1_served (region order : Nat) (acq : Acq) (fuel addr : Nat) (s : State) : s.Served (State.ready1 region order acq fuel addr s) := by
  induction fuel generalizing addr s with
  | zero => exact .refl s
  | succ fuel ih =>
    unfold State.ready1
    split
    · exact .refl s
    · split
      · exact .of_eq rfl rfl rfl
      · split
        · exact ((s.queueVa_served ..).withNodes _).trans (State.evaluate_served ..)
        · exact (s.pattern_served region).trans (ih _ _)

theorem State.makeReady_served (s : State) (region : Nat) (acq : Acq) (addrs : List Nat) : s.Served (s.makeReady region acq addrs) := by
  refine State.Served.trans ?_ (State.Served.foldl (fun s a => State.ready1_served ..) _ _)
  exact .of_eq rfl rfl rfl

theorem State.callHandler_served (s : State) (region rcb : Nat) : s.Served (s.callHandler region rcb) := s.makeReady_served ..

end Sys2Proof.Machine
end

