-- ==== Sys2Proof/Proofs/Gauges.lean ====
section
/-! PROOFS. Gauges: source samples, missed ones, and the changes of a gauge's state (O48). -/

namespace Sys2Proof.Machine

/-! ### Changes of other regions -/

/-- From `s` to `t` only timers and regions other than `j` have changed. -/
structure State.Apart (s t : State) (j : Nat) : Prop where
  rest : ∃ regions timers, t = { s with regions, timers }
  same : t.region j = s.region j
  count : t.regions.length = s.regions.length

theorem State.Apart.refl (s : State) (j : Nat) : s.Apart s j := ⟨⟨_, _, rfl⟩, rfl, rfl⟩

theorem State.Apart.trans {r s t : State} {j : Nat} (h : r.Apart s j) (g : s.Apart t j) : r.Apart t j := by
  obtain ⟨⟨_, _, rfl⟩, hsame, hcount⟩ := h
  obtain ⟨⟨re, ti, rfl⟩, gsame, gcount⟩ := g
  exact ⟨⟨re, ti, rfl⟩, gsame.trans hsame, gcount.trans hcount⟩

theorem State.setRegion_apart (s : State) {i j : Nat} (h : j ≠ i) (f : Region → Region) : s.Apart (s.setRegion i f) j :=
  ⟨⟨_, _, rfl⟩, by rw [State.region_setRegion, if_neg fun hc => h hc.1], modify_length ..⟩

theorem State.timer_apart (s : State) (j : Nat) (t : Frac) (i : Instr) : s.Apart (s.timer t i) j := ⟨⟨_, _, rfl⟩, rfl, rfl⟩

theorem State.planThaw_apart (s : State) {i j : Nat} (h : j ≠ i) (t8 : Frac) : s.Apart (s.planThaw i t8) j :=
  ((s.setRegion_apart h _).trans (State.setRegion_apart _ h _)).trans (State.timer_apart ..)

theorem State.judge_apart (s : State) {i j : Nat} (h : j ≠ i) (t : Frac) : s.Apart (s.judge i t) j := by
  have hif : ∀ (c : Prop) [Decidable c] (e : Instr), s.Apart (if c then s.timer s.time e else s) j := fun c _ e => by
    split
    · exact s.timer_apart ..
    · exact .refl s j
  unfold State.judge
  dsimp only
  split
  · exact hif ..
  · exact hif ..
  · exact hif ..
  · exact hif ..
  · split
    · exact s.planThaw_apart h t
    · exact .refl s j
  · exact .refl s j

/-! ### A sample of the source (R257) -/

/-- The region on source `k` takes sample `n`, and its gauge judges it. -/
def State.sampleOf (k n : Nat) (t : Frac) (s : State) (i : Nat) : State :=
  if s.sourceKey (s.region i) ≠ k ∨ (s.region i).gauge = .off ∨ (s.region i).gauge = .refused ∨ (s.region i).far ∨ ((s.region i).halted ∧ s.elastic.contains k) then s
  else (s.setRegion i fun r => r.sample n t).judge i t

theorem State.sampleOf_apart (k n : Nat) (t : Frac) (s : State) {i j : Nat} (h : j ≠ i) : s.Apart (s.sampleOf k n t i) j := by
  unfold State.sampleOf
  split
  · exact .refl s j
  · exact (s.setRegion_apart h _).trans (State.judge_apart _ h t)

theorem State.foldl_sampleOf_apart (k n : Nat) (t : Frac) {l : List Nat} {j : Nat} (h : j ∉ l) (s : State) : s.Apart (l.foldl (State.sampleOf k n t) s) j := by
  induction l generalizing s with
  | nil => exact .refl s j
  | cons i l ih =>
    obtain ⟨hi, hl⟩ := not_or.mp fun hc => h (List.mem_cons.mpr hc)
    exact (s.sampleOf_apart k n t hi).trans (ih hl _)

/-- A sample later than the region's latest gives its number and its instant. -/
theorem Region.sample_later {r : Region} {n : Nat} (hs : r.stamps ≠ []) (hn : r.srcN < n) (t : Frac) : (r.sample n t).srcN = n ∧ (r.sample n t).lastInst = t ∧
    (r.sample n t).missed = 0 ∧ (r.sample n t).rcc = r.rcc ∧ (r.sample n t).rsc = r.rsc ∧ (r.sample n t).gauge = r.gauge := by
  unfold Region.sample
  dsimp only
  rw [if_neg (by simpa using hs), if_neg (Nat.not_le.mpr hn)]
  exact ⟨rfl, rfl, rfl, rfl, rfl, rfl⟩

theorem State.judge_locked {s : State} {i : Nat} (h : (s.region i).gauge = .locked) (t : Frac) :
    s.judge i t = if 1024 ≤ (s.region i).drift then s.timer s.time (.gaugeClamp i) else s := by
  unfold State.judge
  simp only [h]

/-- A locked region keeps what the sample makes of it: its gauge at most asks for a clamp. -/
theorem State.sampleOf_locked {s : State} {k n i : Nat} (t : Frac) (hi : i < s.regions.length) (hk : s.sourceKey (s.region i) = k) (hg : (s.region i).gauge = .locked)
    (hfar : (s.region i).far = false) (hhalt : (s.region i).halted = false) (hkeep : ((s.region i).sample n t).gauge = .locked) :
    (s.sampleOf k n t i).region i = (s.region i).sample n t ∧ ∃ regions timers, s.sampleOf k n t i = { s with regions, timers } := by
  have hregion : (s.setRegion i fun r => r.sample n t).region i = (s.region i).sample n t := by rw [State.region_setRegion, if_pos ⟨rfl, hi⟩]
  unfold State.sampleOf
  rw [if_neg (by simp [hk, hg, hfar, hhalt])]
  rw [State.judge_locked (by rw [hregion, hkeep])]
  split <;> exact ⟨hregion, _, _, rfl⟩

theorem State.transmitAt_eq (s : State) (k n : Nat) (t : Frac) : ∃ timers sources, s.transmitAt k n t = { s with timers, sources } := by
  unfold State.transmitAt
  split
  · dsimp only
    split <;> exact ⟨_, _, rfl⟩
  · exact ⟨_, _, rfl⟩

/-- A sample that no other announcement moves reaches each region on its source once. -/
theorem execSourceSample_locked {s : State} {k n i : Nat} (hi : i < s.regions.length) (hk : s.sourceKey (s.region i) = k) (hg : (s.region i).gauge = .locked)
    (hfar : (s.region i).far = false) (hhalt : (s.region i).halted = false) (hkeep : ((s.region i).sample n s.time).gauge = .locked)
    (hnone : (s.samples.find? fun e => e.1 == k && e.2.1 == n) = none) :
    ∃ t, execSourceSample k n s = .next t ∧ t.region i = (s.region i).sample n s.time ∧ t.units = s.units := by
  obtain ⟨l, m, hrange⟩ := List.append_of_mem (List.mem_range.mpr hi)
  have hnodup := List.nodup_range (n := s.regions.length)
  rw [hrange, List.nodup_append, List.nodup_cons] at hnodup
  obtain ⟨-, ⟨him, -⟩, hdisjoint⟩ := hnodup
  have hil : i ∉ l := fun h => hdisjoint i h i List.mem_cons_self rfl
  obtain ⟨timers, sources, htransmit⟩ := State.transmitAt_eq { s with samples := s.samples.filter fun e => !(e.1 == k && e.2.1 == n) } k n s.time
  have hexec : execSourceSample k n s = .next ((List.range s.regions.length).foldl (State.sampleOf k n s.time)
      { s with samples := s.samples.filter fun e => !(e.1 == k && e.2.1 == n), timers, sources }) := by
    unfold execSourceSample State.takeSample
    dsimp only
    rw [hnone, Option.map_none, Option.getD_none, htransmit]
    rfl
  rw [hrange, List.foldl_append, List.foldl_cons] at hexec
  obtain ⟨⟨re, ti, hbefore⟩, hsame, hcount⟩ := State.foldl_sampleOf_apart k n s.time hil
    { s with samples := s.samples.filter fun e => !(e.1 == k && e.2.1 == n), timers, sources }
  rw [hbefore] at hexec hsame hcount
  generalize hs' : ({ s with samples := s.samples.filter fun e => !(e.1 == k && e.2.1 == n), regions := re, timers := ti, sources } : State) = s'
    at hexec hsame hcount
  replace hsame : s'.region i = s.region i := hsame
  have hunits : s'.units = s.units := by rw [← hs']
  have hkey : s'.sourceKey (s.region i) = k := by rw [← hs']; exact hk
  obtain ⟨htakes, re', ti', heq⟩ := State.sampleOf_locked (s := s') (n := n) (i := i) (k := k) s.time (hcount ▸ hi) (by rw [hsame, hkey]) (by rw [hsame, hg])
    (by rw [hsame, hfar]) (by rw [hsame, hhalt]) (by rw [hsame, hkeep])
  obtain ⟨⟨re'', ti'', hafter⟩, hlast, -⟩ := State.foldl_sampleOf_apart k n s.time him (s'.sampleOf k n s.time i)
  refine ⟨_, hexec, by rw [hlast, htakes, hsame], ?_⟩
  rw [hafter, heq]
  exact hunits

/-! ### A missed sample (R257) -/

/-- The region as a missed sample, number `j` since its lock, leaves it. -/
def Region.miss (j : Nat) (r : Region) : Region :=
  { r with
    missed := r.missed + 1, good := 0, onTime := if r.gauge = .acquire then 0 else r.onTime
    stamps := if r.gauge = .acquire then [] else stamp (j, r.instOf (j : Nat)) r.stamps }

/-- It is counted, and may ask for holdover. -/
theorem execSampleMissed_due {s : State} {i : Nat} {t0 : Frac} (hm : (s.region i).missAt = some t0) (ht : s.time.lt t0 = false) (hhalt : (s.region i).halted = false) :
    ∃ j timers, execSampleMissed i s = .next { s.setRegion i (Region.miss j) with timers } := by
  unfold execSampleMissed
  simp only [hm, ht, hhalt, Bool.false_eq_true, or_self, if_false]
  split <;> exact ⟨_, _, rfl⟩

/-! ### The pattern of a region starts, and may be over at once (R253) -/

/-- A region whose pattern has ended. -/
def Region.ended (r : Region) : Region :=
  { r with gauge := .off, still := .idle, reserved := [], haltAt := none, stopAt := none, freezeAt := none, shedding := false }

theorem State.jobCheck_steady (s : State) (i : Nat) : s.Steady (s.jobCheck i) := by
  unfold State.jobCheck
  dsimp only
  split
  · exact .of_eq rfl rfl rfl
  · exact .refl s

theorem State.regionEnds_spec {s : State} {i : Nat} (hi : i < s.regions.length) :
    (s.regionEnds i).region i = (s.region i).ended ∧ (s.regionEnds i).nodes = s.nodes := by
  have hends : (s.setStatus i Region.ended).Steady (s.regionEnds i) := by
    refine State.Steady.trans (s := if (s.region i).reserved.isEmpty then s.setStatus i Region.ended else (s.setStatus i Region.ended).regrant) ?_
      (State.jobCheck_steady ..)
    split
    · exact .refl _
    · exact State.regrant_steady _
  exact ⟨by rw [hends.region, State.setStatus_self hi], hends.nodes.trans (s.setStatus_nodes ..)⟩

/-- A region's end is looked for once none of its nodes is active. -/
theorem State.endCheck_cases (s : State) (i : Nat) : s.endCheck i = s ∨ (∀ n ∈ s.nodes, n.region ≠ i) ∧ s.endCheck i = s.regionEnds i := by
  unfold State.endCheck
  dsimp only
  split
  · exact .inl rfl
  · rename_i hnone
    obtain ⟨-, hnone⟩ := not_or.mp fun h => hnone (or_assoc.mp h)
    exact .inr ⟨fun n hn hr => hnone (List.any_eq_true.mpr ⟨n, hn, beq_iff_eq.mpr hr⟩), rfl⟩

/-- A region whose pattern starts keeps its clock: its gauge only goes off where no node is active. -/
theorem State.startPattern_region {s : State} {i : Nat} (hi : i < s.regions.length) : ∃ perr, (s.startPattern i).region i = { s.region i with perr } ∨
    (s.startPattern i).region i = { s.region i with perr }.ended ∧ ∀ n ∈ (s.startPattern i).nodes, n.region ≠ i := by
  have hmade := s.makeReady_served i Acq.zero [((s.regionRcb i).map (·.pattern)).getD 0]
  have heq : s.startPattern i = (s.makeReady i Acq.zero [((s.regionRcb i).map (·.pattern)).getD 0]).endCheck i := rfl
  generalize s.makeReady i Acq.zero [((s.regionRcb i).map (·.pattern)).getD 0] = t at hmade heq
  obtain ⟨perr, hregion⟩ := hmade.regions i
  refine ⟨perr, ?_⟩
  rw [heq]
  rcases t.endCheck_cases i with hsame | ⟨hnone, hends⟩
  · exact .inl (by rw [hsame, hregion])
  · obtain ⟨hended, hnodes⟩ := State.regionEnds_spec (s := t) (hmade.count ▸ hi)
    rw [hends, hended, hregion, hnodes]
    exact .inr ⟨rfl, hnone⟩

/-! ### Lock (R256, R257) -/

/-- The region as a lock at clock `f0` leaves it, cycle 0 to begin at `t`, the instant of source sample `base`. -/
def Region.lockedAt (f0 conv t per srcPer : Frac) (base : Nat) (r : Region) : Region :=
  { r with
    gauge := .locked, still := .no, f0 := f0.norm, conv := conv.norm, anchor := t, anchorCyc := 0, period := per, fresh := true, rcc := 0, rsc := 0
    base := base, baseInst := t, srcPeriod := srcPer, measured := srcPer, missed := 0, drift := 0, steady := 0, good := 0, stamps := [(0, t)] }

theorem State.lock_region {s : State} {i : Nat} (hi : i < s.regions.length) (f0 conv t per srcPer : Frac) (base : Nat) :
    ∃ perr, (s.lock i f0 conv t per srcPer base).region i = { (s.region i).lockedAt f0 conv t per srcPer base with perr } ∨
      (s.lock i f0 conv t per srcPer base).region i = { (s.region i).lockedAt f0 conv t per srcPer base with perr }.ended ∧
        ∀ n ∈ (s.lock i f0 conv t per srcPer base).nodes, n.region ≠ i := by
  have hstarts := State.startPattern_region (s := s.setStatus i (Region.lockedAt f0 conv t per srcPer base)) (i := i) ((s.setStatus_count ..).symm ▸ hi)
  rw [State.setStatus_self hi] at hstarts
  exact hstarts

/-- A live source that has been on time locks its region, in a clock's range. -/
theorem execGaugeLock_live {s : State} {i : Nat} (hg : (s.region i).gauge = .acquire) (hsrc : isSynthetic (s.region i).src = false) (hn : 64 ≤ (s.region i).onTime)
    (hok : clockOk ((Frac.ofNat (s.region i).p).div ((s.region i).srcPeriod.scale (s.region i).q)) = true) :
    execGaugeLock i s = .next (s.lock i ((Frac.ofNat (s.region i).p).div ((s.region i).srcPeriod.scale (s.region i).q))
      ((Frac.ofNat (s.region i).p).div ((s.region i).srcPeriod.scale (s.region i).q)) (s.instAhead (s.region i) ((s.region i).srcN + 1)) (s.region i).sourced
      (s.region i).srcPeriod ((s.region i).srcN + 1)) := by
  unfold execGaugeLock
  simp only [hg, hsrc, hok, Nat.not_lt.mpr hn, ne_eq, not_true_eq_false, Bool.not_true, Bool.false_eq_true, if_false]

/-! ### Clamp, holdover and relock (R257) -/

section
variable {s : State} {i : Nat}

theorem execGaugeClamp_drifted (hg : (s.region i).gauge = .locked) (hd : 1024 ≤ (s.region i).drift) :
    execGaugeClamp i s = .next (s.setStatus i fun r => { r.repace ((Frac.div ⟨1, 1⟩ (s.region i).f0).mul
      (if (s.region i).srcPeriod.lt (s.region i).nominal then ⟨10000, 10002⟩ else ⟨10000, 9998⟩)) with gauge := .clamped, steady := 0, slew := false }) := by
  unfold execGaugeClamp
  simp only [hg, Nat.not_lt.mpr hd, ne_eq, not_true_eq_false, or_self, if_false]
  split <;> rfl

theorem execGaugeUnclamp_steady (hg : (s.region i).gauge = .clamped) (hd : 1024 ≤ (s.region i).steady) :
    execGaugeUnclamp i s = .next (s.setStatus i fun r => { r with gauge := .locked, drift := 0, slew := true }) := by
  unfold execGaugeUnclamp
  simp only [hg, Nat.not_lt.mpr hd, ne_eq, not_true_eq_false, or_self, if_false]

theorem execHoldoverEntry_missed (hg : (s.region i).gauge = .locked ∨ (s.region i).gauge = .clamped) (hm : s.missOf i ≤ (s.region i).missed) :
    execHoldoverEntry i s = .next (s.setStatus i fun r => { r with gauge := .holdover, holdRsc := r.rsc, good := 0 }) :=
  congrArg Host.Outcome.next (if_pos ⟨hg, hm⟩)

theorem execHoldoverRelock_good (hg : (s.region i).gauge = .holdover) (hn : 8 ≤ (s.region i).good) :
    execHoldoverRelock i s = .next (s.setStatus i fun r => { r.resync with gauge := .locked, drift := 0, slew := true }) := by
  unfold execHoldoverRelock
  simp only [hg, Nat.not_lt.mpr hn, ne_eq, not_true_eq_false, or_self, if_false]

end

/-! ### Holdover's end (R257, R258) -/

/-- What a freeze request of cycle `b` makes of a unit of the region. -/
def Unit.bidden (b : Nat) (un : Unit) : Unit := if un.run == .running || un.run == .frozen then un.stopPoint b else un

theorem Unit.stopPoint_run (un : Unit) (b : Nat) : (un.stopPoint b).run = un.run := by
  unfold Unit.stopPoint; split <;> rfl

theorem Unit.stopPoint_stopPoint (un : Unit) (b : Nat) : (un.stopPoint b).stopPoint b = un.stopPoint b := by
  have hp0 : ∃ c, (un.stopPoint b).p0 = some c := by
    unfold Unit.stopPoint
    split
    · exact ⟨_, by assumption⟩
    · exact ⟨_, rfl⟩
  obtain ⟨c, hc⟩ := hp0
  generalize un.stopPoint b = v at hc
  unfold Unit.stopPoint
  rw [hc]

theorem Unit.bidden_bidden (b : Nat) (un : Unit) : (un.bidden b).bidden b = un.bidden b := by
  unfold Unit.bidden
  by_cases h : (un.run == .running || un.run == .frozen) = true
  · rw [if_pos h, un.stopPoint_run, if_pos h, un.stopPoint_stopPoint]
  · rw [if_neg h, if_neg h]

/-- A walker that runs no loop stops. -/
theorem Unit.bidden_running {un : Unit} (hr : un.run = .running) (hp : un.p0 = none) (b : Nat) :
    (un.bidden b).p0 = some b ∧ ∀ w ∈ (un.bidden b).walkers, w.inner = none → w.stopped = true := by
  unfold Unit.bidden Unit.stopPoint
  rw [hr, hp]
  refine ⟨rfl, fun w hw hinner => ?_⟩
  obtain ⟨v, -, rfl⟩ := List.mem_map.mp hw
  split at hinner
  · rename_i hv; rw [if_pos hv]
  · rename_i hv; exact absurd (by rw [hinner]; rfl) hv

theorem State.foldl_modUnit_steady (f : Unit → Unit) (l : List Nat) (s : State) : s.Steady (l.foldl (fun s u => s.modUnit u f) s) :=
  State.Steady.foldl (fun s u => s.modUnit_steady u f) l s

/-- A change that comes to the same when it is made twice is made once of each unit of a list. -/
theorem State.foldl_modUnit_unit? {f : Unit → Unit} (hf : ∀ v, f (f v) = f v) {l : List Nat} {u : Nat} {un : Unit} {s : State} :
    (s.unit? u = some (f un) → (l.foldl (fun s u => s.modUnit u f) s).unit? u = some (f un)) ∧
    (s.unit? u = some un → u ∈ l → (l.foldl (fun s u => s.modUnit u f) s).unit? u = some (f un)) := by
  induction l generalizing s with
  | nil => exact ⟨id, nofun⟩
  | cons v l ih =>
    obtain ⟨hdone, htodo⟩ := @ih (s.modUnit v f)
    refine ⟨fun h => hdone ?_, fun h hu => ?_⟩
    · rw [State.unit?_modUnit]
      split
      · rename_i huv; rw [← huv, h, Option.map_some, hf]
      · exact h
    · by_cases huv : u = v
      · exact hdone (by rw [State.unit?_modUnit, if_pos huv, ← huv, h]; rfl)
      · exact htodo (by rw [State.unit?_modUnit, if_neg huv, h]) (List.mem_of_ne_of_mem huv hu)

theorem State.mem_unitsOf {s : State} {u i : Nat} {un : Unit} (hu : s.unit? u = some un) (hr : un.region = i) : u ∈ s.unitsOf i :=
  List.mem_map.mpr ⟨(u, un), List.mem_filter.mpr ⟨mem_of_find hu, beq_iff_eq.mpr hr⟩, rfl⟩

/-- The region drains from its current cycle on, and so do its units. -/
theorem State.freezeRequest_spec {s : State} {i : Nat} (hi : i < s.regions.length) :
    (s.freezeRequest i).region i = { s.region i with gauge := .draining, freezeAt := some (s.region i).rcc, good := 0 } ∧
    ∀ u un, s.unit? u = some un → un.region = i → (s.freezeRequest i).unit? u = some (un.bidden (s.region i).rcc) := by
  have heq : s.freezeRequest i = ((s.setStatus i fun r => { r with gauge := .draining, freezeAt := some (s.region i).rcc, good := 0 }).unitsOf i).foldl
      (fun t u => t.modUnit u (Unit.bidden (s.region i).rcc)) (s.setStatus i fun r => { r with gauge := .draining, freezeAt := some (s.region i).rcc, good := 0 }) := by
    unfold State.freezeRequest Unit.bidden
    rfl
  have hregion := State.setStatus_self hi fun r => { r with gauge := .draining, freezeAt := some (s.region i).rcc, good := 0 }
  have hunits := s.setStatus_units i fun r => { r with gauge := .draining, freezeAt := some (s.region i).rcc, good := 0 }
  rw [heq]
  generalize s.setStatus i _ = t at hregion hunits
  refine ⟨((State.foldl_modUnit_steady ..).region i).trans hregion, fun u un hu hr => ?_⟩
  have ht : t.unit? u = some un := by unfold State.unit?; rw [hunits]; exact hu
  exact (State.foldl_modUnit_unit? (Unit.bidden_bidden _)).2 ht (State.mem_unitsOf ht hr)

theorem execHoldoverExpiry_due {s : State} {i : Nat} (hg : (s.region i).gauge = .holdover) (ho : (s.region i).openCyc = true)
    (hb : (s.region i).rcc % (s.region i).p = 0) (hrun : (s.region i).holdRsc + s.holdOf i ≤ (s.region i).rsc) :
    execHoldoverExpiry i s = .next (s.freezeRequest i) := congrArg Host.Outcome.next (if_pos ⟨hg, ho, hb, hrun⟩)

end Sys2Proof.Machine

open Sys2Proof Sys2Proof.Machine

/-- Settles O48, event by event: each is its equation, and what that leaves of the region. -/
theorem gaugesFollowTheirSources : Obligations.GaugesFollowTheirSources := by
  refine ⟨?sample, ?missed, ?lock, fun s i hi => ⟨?clamp, ?unclamp, ?holdover, ?relock, ?expiry⟩⟩
  case sample =>
    intro s k n i hi hk hg hstamps hfar hhalt hn hnone
    obtain ⟨hsrcN, hinst, hmissed, hrcc, hrsc, hgauge⟩ := Region.sample_later hstamps hn s.time
    obtain ⟨t, ht, hregion, hunits⟩ := execSourceSample_locked hi hk hg hfar hhalt (hgauge.trans hg) hnone
    refine ⟨t, ht, ?_⟩
    rw [hregion]
    exact ⟨hsrcN, hinst, hmissed, hrcc, hrsc, hgauge.trans hg, hunits⟩
  case missed =>
    intro s i t0 hi hmiss ht hhalt
    obtain ⟨j, timers, hexec⟩ := execSampleMissed_due hmiss ht hhalt
    have hregion : ∀ k, ({ s.setRegion i (Region.miss j) with timers } : State).region k = if k = i then (s.region i).miss j else s.region k := fun k =>
      (State.region_setRegion ..).trans (by simp only [hi, and_true])
    refine ⟨_, hexec, ?_⟩
    simp only [hregion, if_true]
    exact ⟨rfl, rfl, rfl, rfl, fun k hk => if_neg hk⟩
  case lock =>
    intro s i hi hg hsrc hn hok
    have hexec := execGaugeLock_live hg hsrc hn hok
    obtain ⟨perr, hregion | ⟨hregion, hnone⟩⟩ := State.lock_region hi ((Frac.ofNat (s.region i).p).div ((s.region i).srcPeriod.scale (s.region i).q))
      ((Frac.ofNat (s.region i).p).div ((s.region i).srcPeriod.scale (s.region i).q)) (s.instAhead (s.region i) ((s.region i).srcN + 1)) (s.region i).sourced
      (s.region i).srcPeriod ((s.region i).srcN + 1)
    · refine ⟨_, hexec, ?_⟩
      rw [hregion]
      exact ⟨rfl, rfl, rfl, rfl, rfl, rfl, .inl rfl⟩
    · refine ⟨_, hexec, ?_⟩
      rw [hregion]
      exact ⟨rfl, rfl, rfl, rfl, rfl, rfl, .inr ⟨rfl, hnone⟩⟩
  case clamp =>
    intro hg hd
    refine ⟨_, execGaugeClamp_drifted hg hd, ?_⟩
    rw [State.setStatus_self hi]
    exact ⟨rfl, rfl, rfl, rfl⟩
  case unclamp =>
    intro hg hd
    refine ⟨_, execGaugeUnclamp_steady hg hd, ?_⟩
    rw [State.setStatus_self hi]
    exact ⟨rfl, rfl, rfl, rfl⟩
  case holdover =>
    intro hg hm
    refine ⟨_, execHoldoverEntry_missed hg hm, ?_⟩
    rw [State.setStatus_self hi]
    exact ⟨rfl, rfl, rfl⟩
  case relock =>
    intro hg hn
    refine ⟨_, execHoldoverRelock_good hg hn, ?_⟩
    rw [State.setStatus_self hi]
    exact ⟨rfl, rfl, rfl⟩
  case expiry =>
    intro hg ho hb hrun
    obtain ⟨hregion, hunits⟩ := State.freezeRequest_spec hi
    refine ⟨_, execHoldoverExpiry_due hg ho hb hrun, by rw [hregion], by rw [hregion], fun u un hu hr hrunning hp => ?_⟩
    exact ⟨_, hunits u un hu hr, Unit.bidden_running hrunning hp _⟩
end

