-- ==== Sys2Proof/Proofs/HaltWrites.lean ====
section
/-! PROOFS. What the writes that a halt still performs, and the ports that it freezes, leave of regions, of nodes and of job slots (R290, R292, O44). -/

namespace Sys2Proof.Machine

theorem State.Steady.foldl_snd {α β : Type} {f : β × State → α → β × State} (hf : ∀ (acc : β × State) a, acc.2.Steady (f acc a).2) (l : List α) (acc : β × State) :
    acc.2.Steady (l.foldl f acc).2 := by
  induction l generalizing acc with
  | nil => exact .refl _
  | cons a l ih => exact (hf acc a).trans (ih _)

theorem State.choose_steady (s : State) (n : Nat) : s.Steady (s.choose n).2 := .of_eq rfl rfl rfl

theorem State.countUe_steady (s : State) (d : Nat) : s.Steady (s.countUe d) := .of_eq rfl rfl rfl

theorem State.Draws.steady {s t : State} (h : s.Draws t) : s.Steady t := by
  obtain ⟨_, _, _, _, rfl⟩ := h
  exact .of_eq rfl rfl rfl

/-! ### The read of a beat (R180, R248) -/

theorem State.noise_steady (s : State) (n : Nat) : s.Steady (s.noise n).2 := by
  induction n generalizing s with
  | zero => exact .refl s
  | succ n ih => exact .trans (s := s.fresh.2) (.of_eq rfl rfl rfl) (ih _)

theorem State.visible_steady (s : State) (me : Agent) (b : Beat) (fixed : WriteRec → Option Bool) (log : List WriteRec) (a n : Nat) (seen : List Nat) :
    s.Steady (s.visible me b fixed log a n seen).2 := by
  refine State.Steady.foldl_snd (fun acc w => ?_) _ ([], s)
  split
  · exact .refl _
  · split
    · exact .refl _
    · exact .refl _
    · exact acc.2.choose_steady 2

theorem State.readPiece_steady (s : State) (u : Nat) (un : Unit) (b : Beat) (p : Piece) : s.Steady (s.readPiece u un b p).2 := by
  unfold State.readPiece
  split
  · exact .refl s
  · exact .refl s
  · have hseen : ∀ (t : State) (pin : Nat) (f : Unit → Unit), t.Steady (({ t with pin } : State).modUnit u f) := fun t pin f =>
      .trans (s := { t with pin }) (.of_eq rfl rfl rfl) (State.modUnit_steady ..)
    have hnoise : ∀ (q : Prop) [Decidable q] (n : Nat) (bs : List Byte) (t : State), t.Steady (if q then t.noise n else (bs, t)).2 := fun q _ n bs t => by
      split
      · exact t.noise_steady n
      · exact .refl t
    exact ((s.visible_steady ..).trans (hseen ..)).trans (hnoise ..)

theorem State.readBeat_steady (s : State) (u o : Nat) : s.Steady (s.readBeat u o) := by
  unfold State.readBeat
  split
  · exact .refl s
  split
  · exact .refl s
  refine State.Steady.trans ?_ (State.modUnit_steady ..)
  refine State.Steady.trans ?_ (State.Steady.foldl_snd (fun acc p => ?_) _ _)
  · dsimp only
    split
    · exact s.countUe_steady _
    · exact .refl s
  · split
    · exact State.readPiece_steady ..
    · exact .refl _

/-! ### The write of a beat (R180, R297) -/

theorem State.strikeBeat_steady (s : State) (u : Nat) (un : Unit) (b : Beat) (t : Frac) : s.Steady (s.strikeBeat u un b t) := by
  unfold State.strikeBeat
  split
  · exact .refl s
  refine State.Steady.foldl (fun s w => ?_) _ s
  split
  · split
    · exact .refl s
    · exact s.setUnit_steady ..
  · exact .refl s

theorem State.writeBeat_steady (s : State) (u : Nat) (b : Beat) : s.Steady (s.writeBeat u b) := by
  unfold State.writeBeat
  split
  · exact .refl s
  dsimp only
  split
  · generalize hstruck : (if b.spoiled = true then s else s.strikeBeat u _ b _) = t
    have ht : s.Steady t := by
      rw [← hstruck]
      split
      · exact .refl s
      · exact s.strikeBeat_steady ..
    refine ht.trans ?_
    split
    · exact (t.setUnit_steady ..).trans (State.keepHolds_steady ..)
    split
    · exact t.setUnit_steady ..
    · exact (t.setUnit_steady ..).trans (State.request_draws ..).steady
    · exact (t.setUnit_steady ..).trans (State.performWrite_steady ..)
  · exact s.setUnit_steady ..
  · generalize hset : s.setUnit u _ = t
    have ht : s.Steady t := hset ▸ s.setUnit_steady ..
    have hinbox : ∀ (last : Bool) c (f : Crossing → Crossing),
        t.Steady (if last then match find t.crossings c with | some x => { t with crossings := put t.crossings c (f x) } | none => t else t) := by
      intro last c f
      split
      · split
        · exact .of_eq rfl rfl rfl
        · exact .refl t
      · exact .refl t
    exact ht.trans (hinbox ..)
  · exact .refl s

/-! ### Atomics (R195) -/

theorem State.reportAtomic_steady (s : State) (sp : Space) (a n bit : Nat) (origin : W32) (src : Nat × Nat × Nat) :
    s.Steady (s.reportAtomic sp a n bit origin src) :=
  State.Steady.foldl (fun s _ => (s.choose_steady 101).trans (State.modUnit_steady ..)) _ s

theorem State.performAtomic_steady (s : State) (u : Nat) (b : Beat) : s.Steady (s.performAtomic u b) := by
  unfold State.performAtomic
  split
  · dsimp only
    split
    · exact .refl s
    split
    · exact s.setUnit_steady ..
    · exact s.setUnit_steady ..
    split
    · exact (s.countUe_steady _).trans (State.setUnit_steady ..)
    split
    · exact ((s.modUnit_steady ..).trans (State.performWrite_steady ..)).trans (State.reportAtomic_steady ..)
    · exact s.modUnit_steady ..
  · exact .refl s

/-! ### What a halt settles (R290, R292) -/

theorem State.settleWrites_steady (s : State) (u : Nat) : s.Steady (s.settleWrites u) := by
  unfold State.settleWrites
  split
  · exact .refl s
  refine State.Steady.foldl (fun s b => ?_) _ s
  split
  · exact s.performAtomic_steady ..
  · have hread : s.Steady (if b.got then s else s.readBeat u b.order) := by
      split
      · exact .refl s
      · exact s.readBeat_steady ..
    refine hread.trans ?_
    generalize (if b.got then s else s.readBeat u b.order) = t
    dsimp only
    split
    · exact t.writeBeat_steady ..
    · exact .refl t

theorem State.creditOf_steady (s : State) (f : Nat) (d : List W64) (k : Nat) : s.Steady (s.creditOf f d k).2 := by
  unfold State.creditOf
  dsimp only
  split
  · exact .refl s
  · exact .refl s
  · exact s.choose_steady _

theorem State.freezeCredit_steady (s : State) (k : Nat) : s.Steady (s.freezeCredit k) := by
  unfold State.freezeCredit
  split
  · split
    · exact .refl s
    · exact (s.creditOf_steady ..).trans (.of_eq rfl rfl rfl)
  · exact .refl s

end Sys2Proof.Machine
end

