-- ==== Sys2Proof/Proofs/Halts.lean ====
section
/-! PROOFS. Halt waves, single-step and resume (O44). -/

namespace Sys2Proof.Machine

/-! ### Job slots -/

theorem State.setJob_of_find {s : State} {j : Nat} {x : Job} (h : find s.jobs j = some x) (f : Job → Job) : s.setJob j f = { s with jobs := put s.jobs j (f x) } := by
  unfold State.setJob; rw [h]

theorem State.find_setJob {s : State} {j : Nat} {x : Job} (h : find s.jobs j = some x) (f : Job → Job) : find (s.setJob j f).jobs j = some (f x) := by
  rw [State.setJob_of_find h]; exact find_put_self ..

theorem State.setJob_regions (s : State) (j : Nat) (f : Job → Job) : (s.setJob j f).regions = s.regions := by
  unfold State.setJob; split <;> rfl

theorem State.setJob_region (s : State) (j i : Nat) (f : Job → Job) : (s.setJob j f).region i = s.region i := by
  unfold State.region; rw [State.setJob_regions]

theorem State.tellJob_steady (s : State) (ty job unit : Nat) (bs : List Byte) : s.Steady (s.tellJob ty job unit bs) :=
  State.Steady.foldl (f := fun s p => s.tell ty p job unit bs) (fun _ _ => .of_eq rfl rfl rfl) _ s

/-- Flits to other packages wait; no timer starts, and no job slot changes. -/
theorem State.tellJob_timers_jobs (s : State) (ty job unit : Nat) (bs : List Byte) :
    (s.tellJob ty job unit bs).timers = s.timers ∧ (s.tellJob ty job unit bs).jobs = s.jobs := by
  unfold State.tellJob
  induction s.jobPackages job generalizing s with
  | nil => exact ⟨rfl, rfl⟩
  | cons p l ih => exact ih _

/-! ### The end of a halt wave (R289, R290) -/

/-- The halt of a region: it stands still, whatever asked for it. -/
def Region.halt (r : Region) : Region := { r with halted := true, haltAt := none, steps := 0, haltN := if r.halted then r.haltN else r.srcN }

/-- The job of a region that has halted is halted, but that it may be on its way to resume. -/
def Job.halt (j : Job) : Job := { j with jstate := if j.jstate = 4 then 4 else 2 }

theorem execHaltWaveArrival_due {s : State} {i : Nat} (h : (s.region i).haltDue = true) : ∃ t, (s.setRegion i Region.halt).Steady t ∧
    execHaltWaveArrival i s = .next (if t.allHalted (s.region i).job then t.setJob (s.region i).job Job.halt else t) := by
  refine ⟨_, ((s.setRegion i Region.halt).freezeCredit_steady (s.region i).src).trans (State.Steady.foldl (fun s u => s.settleWrites_steady u)
    ((s.setRegion i Region.halt).unitsOf i) _), ?_⟩
  unfold execHaltWaveArrival
  dsimp only
  rw [if_neg (by simp [h])]
  rfl

theorem State.allHalted_of_regions {s : State} {job : Nat} (h : ∀ k, k < s.regions.length → (s.region k).job = job → (s.region k).halted = true) :
    s.allHalted job = true := by
  refine List.all_eq_true.mpr fun r hr => ?_
  obtain ⟨k, hk, rfl⟩ := List.mem_iff_getElem.mp hr
  have hget : s.region k = s.regions[k] := by unfold State.region; exact List.getD_eq_getElem _ _ hk
  have hhalt := h k hk
  rw [hget] at hhalt
  by_cases hj : s.regions[k].job = job
  · simp [hhalt hj]
  · simp [hj]

theorem execHaltWaveArrival_halts {s : State} {i : Nat} (hi : i < s.regions.length) (hd : (s.region i).haltDue = true) :
    ∃ t, execHaltWaveArrival i s = .next t ∧ t.region i = (s.region i).halt ∧ (∀ j, j ≠ i → t.region j = s.region j) ∧
      ∀ x, find s.jobs (s.region i).job = some x → x.jstate ≠ 4 →
        (∀ k, k ≠ i → k < s.regions.length → (s.region k).job = (s.region i).job → (s.region k).halted = true) →
        ∃ a, find t.jobs (s.region i).job = some { x with jstate := 2, armId := a } := by
  obtain ⟨t, ht, hexec⟩ := execHaltWaveArrival_due hd
  have hregion : ∀ j, t.region j = if j = i then (s.region i).halt else s.region j := fun j => by
    rw [ht.region, State.region_setRegion]; simp [hi]
  have hsame : ∀ j, (if t.allHalted (s.region i).job then t.setJob (s.region i).job Job.halt else t).region j = t.region j := fun j => by
    split
    · exact t.setJob_region ..
    · rfl
  refine ⟨_, hexec, (hsame i).trans ((hregion i).trans (if_pos rfl)), fun j hj => (hsame j).trans ((hregion j).trans (if_neg hj)), fun x hx h4 hothers => ?_⟩
  have hall : t.allHalted (s.region i).job = true := State.allHalted_of_regions fun k hk hkj => by
    rw [ht.regions] at hk
    replace hk : k < s.regions.length := by simpa [State.setRegion] using hk
    rw [hregion] at hkj ⊢
    split
    · rfl
    · rename_i hki
      rw [if_neg hki] at hkj
      exact hothers k hki hk hkj
  obtain ⟨a, ha⟩ := ht.jobs _ x hx
  refine ⟨a, ?_⟩
  rw [if_pos hall, State.find_setJob ha, Job.halt, if_neg h4]

/-! ### Single-step (R294) -/

/-- The next cycle begins at `t`; on a synthetic source it has the generator's present rate. -/
theorem State.startClock_eq (s : State) (i : Nat) (t : Frac) : ∃ f, s.startClock i t = s.setRegion i f ∧
    ∃ period srcPeriod stamps, f (s.region i) = { s.region i with anchor := t, anchorCyc := (s.region i).next, period, srcPeriod, stamps } ∧
      ∀ g, isSynthetic (s.region i).src = true → find s.gens (s.region i).src = some g →
        period = (g.period.scale (s.region i).q).div (Frac.ofNat (s.region i).p) := by
  unfold State.startClock
  dsimp only
  split
  · rename_i hnone
    refine ⟨_, rfl, _, _, _, rfl, fun g hsyn hg => ?_⟩
    rw [if_pos hsyn, hg] at hnone
    cases hnone
  · rename_i g hsome
    refine ⟨_, rfl, _, _, _, rfl, fun g' hsyn hg => ?_⟩
    rw [if_pos hsyn, hg] at hsome
    cases hsome
    rfl

theorem State.setRegion_setRegion (s : State) (i : Nat) (f g : Region → Region) : (s.setRegion i f).setRegion i g = s.setRegion i (g ∘ f) := by
  unfold State.setRegion; rw [modify_modify]

/-- The first region of the job whose RCB stands at `va` is the one that steps. -/
theorem State.findIdx?_focus {s : State} {job va i : Nat} {b : Rcb} (hi : i < s.regions.length) (hb : s.rcbs[(s.region i).rcb]? = some b) (hj : (s.region i).job = job)
    (hva : b.va = va) (hfirst : ∀ k, k < i → (s.region k).job = job → ∀ c, s.rcbs[(s.region k).rcb]? = some c → c.va ≠ va) :
    (s.regions.findIdx? fun r => r.job == job && ((s.rcbs[r.rcb]?).map (·.va)) == some va) = some i := by
  have hget : ∀ k (hk : k < s.regions.length), s.regions[k] = s.region k := fun k hk => (List.getD_eq_getElem s.regions Region.zero hk).symm
  refine List.findIdx?_eq_some_iff_getElem.mpr ⟨hi, ?_, fun k hk => ?_⟩
  · rw [hget i hi]; simp [hj, hb, hva]
  · rw [hget k (hk.trans hi)]
    cases hc : s.rcbs[(s.region k).rcb]? with
    | none => simp
    | some c =>
      by_cases hkj : (s.region k).job = job
      · simpa [hkj] using hfirst k hk hkj c hc
      · simp [hkj]

theorem State.stepRegion_focus {s : State} {job va i : Nat} (hfocus : (s.regions.findIdx? fun r => r.job == job && ((s.rcbs[r.rcb]?).map (·.va)) == some va) = some i)
    (hh : (s.region i).halted = true) (hr : { s.region i with halted := false }.runs = true) : s.stepRegion job va =
    ((s.startClock i s.time).setRegion i fun r => { r with steps := r.next + 1 }).setJob job fun j => { j with jstate := 3 } := by
  unfold State.stepRegion
  rw [hfocus]
  exact if_neg (by simp [hh, hr])

/-- A step's one cycle begins now, at the generator's present rate. -/
theorem State.stepRegion_steps {s : State} {job va i : Nat} {x : Job} (hi : i < s.regions.length) (hx : find s.jobs job = some x)
    (hfocus : (s.regions.findIdx? fun r => r.job == job && ((s.rcbs[r.rcb]?).map (·.va)) == some va) = some i)
    (hh : (s.region i).halted = true) (hr : { s.region i with halted := false }.runs = true) :
    (∃ period srcPeriod stamps, (s.stepRegion job va).region i =
        { s.region i with anchor := s.time, anchorCyc := (s.region i).next, period, srcPeriod, stamps, steps := (s.region i).next + 1 } ∧
      ∀ g, isSynthetic (s.region i).src = true → find s.gens (s.region i).src = some g →
        period = (g.period.scale (s.region i).q).div (Frac.ofNat (s.region i).p)) ∧
    (∀ k, k ≠ i → (s.stepRegion job va).region k = s.region k) ∧ find (s.stepRegion job va).jobs job = some { x with jstate := 3 } := by
  obtain ⟨f, hf, period, srcPeriod, stamps, hclock, hrate⟩ := s.startClock_eq i s.time
  rw [State.stepRegion_focus hfocus hh hr, hf, State.setRegion_setRegion]
  refine ⟨⟨period, srcPeriod, stamps, ?_, hrate⟩, fun k hk => ?_, State.find_setJob (s := s.setRegion i _) hx _⟩
  · rw [State.setJob_region, State.region_setRegion, if_pos ⟨rfl, hi⟩, Function.comp_apply, hclock]; rfl
  · rw [State.setJob_region, State.region_setRegion, if_neg fun h => hk h.1]

theorem execJobStep_halted {s : State} {j : Nat} {x : Job} (hx : find s.jobs j = some x) (h2 : x.jstate = 2) :
    execJobStep j s = .next ((s.stepRegion j x.jfocus.toNat).tellJob 9 j 0 (leBytes 8 x.jfocus.toNat)) := by
  unfold execJobStep
  simp only [hx]
  rw [if_neg (not_not_intro h2)]

/-! ### Resume (R295) -/

theorem Frac.lt_eq_not_le (a b : Frac) : a.lt b = !b.le a := by
  unfold Frac.lt Frac.le
  rw [← decide_not]
  exact decide_eq_decide.mpr Nat.not_le.symm

section
variable {s : State} {j : Nat} {x : Job}

theorem execJobResume_ahead (hx : find s.jobs j = some x) (h2 : x.jstate = 2)
    (h : (s.time.add (Frac.ofNat (150 + 450 * s.jobHops j))).le (Frac.ofNat x.jtres.toNat) = true) :
    execJobResume j s = .next ((s.resumeJob j (Frac.ofNat x.jtres.toNat)).tellJob 8 j 0 (leBytes 8 x.jtres.toNat)) := by
  unfold execJobResume
  simp only [hx]
  rw [if_neg (by rw [Frac.lt_eq_not_le, h]; simp [h2])]

theorem execJobResume_early (hx : find s.jobs j = some x)
    (h : (s.time.add (Frac.ofNat (150 + 450 * s.jobHops j))).le (Frac.ofNat x.jtres.toNat) = false) : execJobResume j s = .next s := by
  unfold execJobResume
  simp only [hx]
  rw [if_pos (.inr (by rw [Frac.lt_eq_not_le, h]; rfl))]

theorem State.resumeJob_of_find (hx : find s.jobs j = some x) (tr : Frac) : find (s.resumeJob j tr).jobs j = some { x with jstate := 4, resumeAt := some tr } ∧
    (s.resumeJob j tr).timers = s.timers ++ [(tr, .event (.resumeAtTr j))] ∧ (s.resumeJob j tr).regions = s.regions := by
  unfold State.resumeJob State.timer
  rw [State.setJob_of_find hx]
  exact ⟨find_put_self .., rfl, rfl⟩

end

end Sys2Proof.Machine
end

