-- ==== Sys2Proof/Proofs/Resumes.lean ====
section
/-! PROOFS. The end of a halt: at TR every region of the job runs again (R295, O44). -/

namespace Sys2Proof.Machine

/-! ### What starts no halt -/

/-- From `s` to `t` no region has halted, and each job slot keeps everything but the number of its arm. -/
structure State.NoHalt (s t : State) : Prop where
  runs : ∀ i, (s.region i).halted = false → (t.region i).halted = false
  jobs : s.KeepsJobs t

theorem State.NoHalt.of_eq {s t : State} (hr : t.regions = s.regions) (hj : t.jobs = s.jobs) : s.NoHalt t :=
  ⟨fun i h => by unfold State.region at h ⊢; rw [hr]; exact h, .of_eq hj⟩

theorem State.NoHalt.refl (s : State) : s.NoHalt s := .of_eq rfl rfl

theorem State.NoHalt.trans {r s t : State} (h : r.NoHalt s) (g : s.NoHalt t) : r.NoHalt t := ⟨fun i hi => g.runs i (h.runs i hi), h.jobs.trans g.jobs⟩

theorem State.NoHalt.foldl {α : Type} {f : State → α → State} (hf : ∀ (s : State) a, s.NoHalt (f s a)) (l : List α) (s : State) : s.NoHalt (l.foldl f s) := by
  induction l generalizing s with
  | nil => exact .refl s
  | cons a l ih => exact (hf s a).trans (ih _)

theorem State.Steady.noHalt {s t : State} (h : s.Steady t) : s.NoHalt t := ⟨fun i hi => by rw [h.region]; exact hi, h.jobs⟩

theorem State.Served.noHalt {s t : State} (h : s.Served t) : s.NoHalt t :=
  ⟨fun i hi => by obtain ⟨_, hp⟩ := h.regions i; rw [hp]; exact hi, h.jobs⟩

theorem State.timer_noHalt (s : State) (t : Frac) (i : Instr) : s.NoHalt (s.timer t i) := .of_eq rfl rfl

theorem State.setRegion_noHalt (s : State) (i : Nat) {f : Region → Region} (hf : (s.region i).halted = false → (f (s.region i)).halted = false) :
    s.NoHalt (s.setRegion i f) := by
  refine ⟨fun j hj => ?_, .of_eq rfl⟩
  rw [State.region_setRegion]
  split
  · rename_i h; exact hf (h.1 ▸ hj)
  · exact hj

/-! ### The restart of a region (R295) -/

theorem State.startClock_noHalt (s : State) (i : Nat) (t : Frac) : s.NoHalt (s.startClock i t) := by
  obtain ⟨f, hf, _, _, _, hclock, -⟩ := s.startClock_eq i t
  rw [hf]
  exact s.setRegion_noHalt i fun h => by rw [hclock]; exact h

theorem State.planThaw_noHalt (s : State) (i : Nat) (t8 : Frac) : s.NoHalt (s.planThaw i t8) :=
  ((s.setRegion_noHalt i (f := Region.resync) id).trans (State.setRegion_noHalt _ i id)).trans (State.timer_noHalt ..)

theorem State.planSynthetic_noHalt (s : State) (i : Nat) : s.NoHalt (s.planSynthetic i) := by
  unfold State.planSynthetic
  dsimp only
  split
  · exact .refl s
  · exact (s.setRegion_noHalt i (by exact id)).trans (State.timer_noHalt ..)

theorem State.allowThaw_noHalt (s : State) (i : Nat) (w : Frac) : s.NoHalt (s.allowThaw i w) := by
  have hset : s.NoHalt (s.setRegion i fun r => { r with thawFrom := some (w.add (Frac.ofNat 2000)), good := 0 }) := s.setRegion_noHalt i id
  unfold State.allowThaw
  dsimp only
  split
  · exact hset.trans (State.planSynthetic_noHalt ..)
  · exact hset

/-- The region no longer stands halted, and what follows in its restart halts none. -/
theorem State.restartRegion_restarts (s : State) (i : Nat) (tr : Frac) :
    ∃ t, s.NoHalt t ∧ (t.region i).halted = false ∧ t.NoHalt (s.restartRegion i tr) := by
  unfold State.restartRegion
  dsimp only
  generalize hset : s.setRegion i _ = t
  have hregion : ∀ j, (t.region j).halted = if j = i then false else (s.region j).halted := fun j => by
    rw [← hset, State.region_setRegion]
    by_cases hj : j = i
    · subst hj
      rw [if_pos rfl]
      split
      · exact (apply_ite Region.halted _ _ _).trans (ite_self _)
      · rename_i hj
        have hlen : s.regions.length ≤ j := by simpa using hj
        unfold State.region
        rw [List.getD_eq_default _ _ hlen]
        rfl
    · rw [if_neg fun h => hj h.1, if_neg hj]
  have ht : s.NoHalt t := ⟨fun j hj => by rw [hregion]; split <;> [rfl; exact hj], .of_eq (by rw [← hset]; rfl)⟩
  refine ⟨t, ht, by rw [hregion, if_pos rfl], ?_⟩
  generalize hclock : (if (t.region i).runs = true then _ else t) = c
  have hc : t.NoHalt c := by
    rw [← hclock]
    split
    · exact (t.startClock_noHalt i tr).trans (State.setRegion_noHalt _ i id)
    · exact .refl t
  refine hc.trans ?_
  split
  · exact c.planThaw_noHalt ..
  · split
    · split
      · exact c.planSynthetic_noHalt i
      · exact .refl c
    · exact .refl c

theorem State.restartRegion_noHalt (s : State) (i : Nat) (tr : Frac) : s.NoHalt (s.restartRegion i tr) := by
  obtain ⟨_, h, -, g⟩ := s.restartRegion_restarts i tr
  exact h.trans g

theorem State.restartRegion_self (s : State) (i : Nat) (tr : Frac) : ((s.restartRegion i tr).region i).halted = false := by
  obtain ⟨_, -, h, g⟩ := s.restartRegion_restarts i tr
  exact g.runs i h

theorem State.foldl_restartRegion_runs {l : List Nat} {i : Nat} (hi : i ∈ l) (tr : Frac) (s : State) :
    ((l.foldl (fun s i => s.restartRegion i tr) s).region i).halted = false := by
  induction l generalizing s with
  | nil => cases hi
  | cons k l ih =>
    rcases List.mem_cons.mp hi with rfl | hl
    · exact (State.NoHalt.foldl (fun s k => s.restartRegion_noHalt k tr) l (s.restartRegion i tr)).runs i (s.restartRegion_self i tr)
    · exact ih hl _

/-! ### What the job's units do (R280, R295) -/

theorem State.writeBlocks_noHalt (s : State) (u : Nat) (c : Ctx) (blocks : List Nat) (image : Mem) : s.NoHalt (s.writeBlocks u c blocks image) := by
  unfold State.writeBlocks
  split
  · exact .refl s
  · exact State.NoHalt.foldl (fun s b => (s.performWrite_steady ..).noHalt) blocks s

theorem State.writeRecordBlocks_noHalt (s : State) (u : Nat) (ks : List Nat) : s.NoHalt (s.writeRecordBlocks u ks) := by
  unfold State.writeRecordBlocks
  split
  · exact .refl s
  split
  · exact (s.setUnit_steady ..).noHalt.trans (State.writeBlocks_noHalt ..)
  · exact .refl s

theorem State.finishRecord_noHalt (s : State) (u : Nat) : s.NoHalt (s.finishRecord u) := by
  have hwatch : ∀ (s : State) (sp : Space) pa w, s.NoHalt (if sp = .dram then s.watch pa w else s) := fun s sp pa w => by
    unfold State.watch
    split
    · split <;> exact .of_eq rfl rfl
    · exact .refl s
  unfold State.finishRecord
  split
  · exact .refl s
  split
  · split
    · exact .refl s
    · exact ((((s.writeRecordBlocks_noHalt ..).trans (State.modUnit_steady ..).noHalt).trans (State.writeBlocks_noHalt ..)).trans (hwatch ..)).trans
        (State.callHandler_served ..).noHalt
  · exact .refl s

theorem State.resumeAt_noHalt (s : State) (u r : Nat) : s.NoHalt (s.resumeAt u r) := by
  unfold State.resumeAt
  split
  · split
    · exact ((s.finishRecord_noHalt u).trans (State.modUnit_steady ..).noHalt).trans (State.keepHolds_steady ..).noHalt
    · exact .refl s
  · exact .refl s

theorem execActionAbort_noHalt (u : Nat) (s : State) : s.NoHalt (outcomeState s (execActionAbort u s)) := by
  unfold execActionAbort outcomeState
  dsimp only
  split
  · split
    · refine State.NoHalt.foldl (fun s v => ?_) (s.domain u) s
      split
      · split
        · exact ((s.setUnit_steady ..).trans (State.keepHolds_steady ..)).noHalt.trans (State.timer_noHalt ..)
        · exact .refl s
      · exact .refl s
    · exact .refl s
  · exact .refl s

/-- What a unit of a job that resumes does: it runs on, or is aborted, or its region's thaw is planned. -/
def State.resumeUnit (tr : Frac) (s : State) (u : Nat) : State :=
  match s.unit? u with
  | some un =>
    if un.resumesWithJob then
      if (s.region un.region).still = .policy then
        ((s.domain u).foldl (fun s v => s.modUnit v fun un =>
          { un with stop := un.stop.map fun st => { st with action := some (1, tr.num, tr.den) } }) s).allowThaw un.region tr
      else (s.domain u).foldl (fun s v => s.resumeAt v (s.region un.region).next) s
    else
      match un.stop.bind (·.action) with
      | some (2, _, _) => outcomeState s (execActionAbort u s)
      | _ => s
  | none => s

theorem State.resumeUnit_noHalt (tr : Frac) (s : State) (u : Nat) : s.NoHalt (s.resumeUnit tr u) := by
  unfold State.resumeUnit
  split
  · split
    · split
      · exact (State.NoHalt.foldl (fun s v => (s.modUnit_steady v _).noHalt) _ s).trans (State.allowThaw_noHalt ..)
      · exact State.NoHalt.foldl (fun s v => s.resumeAt_noHalt ..) _ s
    · split
      · exact execActionAbort_noHalt u s
      · exact .refl s
  · exact .refl s

/-! ### The resume of the job (R293, R295) -/

/-- A job that has resumed: the fields of its first cause are clear. -/
def Job.resumed (j : Job) : Job := { j with jstate := 0, jcause := 0, jorig := 0, jtstop := 0, first := none, resumeAt := none }

/-- The regions of a job. -/
def State.regionsOf (s : State) (job : Nat) : List Nat := (List.range s.regions.length).filter fun i => (s.region i).job == job

/-- The units of some regions. -/
def State.unitsIn (s : State) (mine : List Nat) : List Nat := (s.units.filter fun e => mine.contains e.2.region).map (·.1)

/-- The CREDIT of the regions' sources moves again (R292). -/
def State.thawCredit (s : State) (mine : List Nat) : State :=
  { s with sources := s.sources.map fun (e : Nat × Source) => if mine.any fun i => (s.region i).src == e.1 then (e.1, { e.2 with credit := none }) else e }

/-- The waiting nodes of the regions are evaluated again (R290). -/
def State.rewatch (s : State) (mine : List Nat) : State :=
  (s.nodes.filter fun (n : Node) => mine.contains n.region && n.state == .waiting).foldl (fun s n => s.soon 1000 (.watchNode (nodeKey n.region n.addr))) s

theorem State.thawCredit_noHalt (s : State) (mine : List Nat) : s.NoHalt (s.thawCredit mine) := .of_eq rfl rfl

theorem State.rewatch_steady (s : State) (mine : List Nat) : s.Steady (s.rewatch mine) := State.Steady.foldl (fun s _ => s.soon_steady ..) _ s

section
variable {s : State} {j : Nat} {x : Job}

theorem execResumeAtTr_eq (hx : find s.jobs j = some x) (h4 : x.jstate = 4) : execResumeAtTr j s =
    let mine := s.regionsOf j
    let tr := x.resumeAt.getD s.time
    let c := (mine.foldl (fun s i => s.restartRegion i tr) s).thawCredit mine
    .next ((((c.unitsIn mine).foldl (State.resumeUnit tr) c).setJob j Job.resumed).rewatch mine).regrant := by
  unfold execResumeAtTr
  simp only [hx]
  rw [if_neg (not_not_intro h4)]
  rfl

theorem execResumeAtTr_resumes (hx : find s.jobs j = some x) (h4 : x.jstate = 4) :
    ∃ t, execResumeAtTr j s = .next t ∧ (∃ a, find t.jobs j = some { x.resumed with armId := a }) ∧
      ∀ i, i < s.regions.length → (s.region i).job = j → (t.region i).halted = false := by
  generalize htr : x.resumeAt.getD s.time = tr
  have hexec := execResumeAtTr_eq hx h4
  dsimp only at hexec
  rw [htr] at hexec
  obtain ⟨b, hb⟩ : ∃ b, (s.regionsOf j).foldl (fun s i => s.restartRegion i tr) s = b := ⟨_, rfl⟩
  have hs : s.NoHalt b := hb ▸ State.NoHalt.foldl (fun s i => s.restartRegion_noHalt i tr) _ s
  rw [hb] at hexec
  have hunits : b.NoHalt (((b.thawCredit (s.regionsOf j)).unitsIn (s.regionsOf j)).foldl (State.resumeUnit tr) (b.thawCredit (s.regionsOf j))) :=
    (b.thawCredit_noHalt _).trans (State.NoHalt.foldl (State.resumeUnit_noHalt tr) _ _)
  generalize List.foldl (State.resumeUnit tr) _ _ = d at hunits hexec
  obtain ⟨a, ha⟩ := (hs.trans hunits).jobs j x hx
  have hrest := ((d.setJob j Job.resumed).rewatch_steady (s.regionsOf j)).trans (State.regrant_steady _)
  refine ⟨_, hexec, ?_, fun i hi hj => ?_⟩
  · obtain ⟨a', ha'⟩ := hrest.jobs j _ (State.find_setJob ha Job.resumed)
    exact ⟨a', ha'⟩
  · have hmem : i ∈ s.regionsOf j := List.mem_filter.mpr ⟨List.mem_range.mpr hi, beq_iff_eq.mpr hj⟩
    have hrun : (b.region i).halted = false := hb ▸ State.foldl_restartRegion_runs hmem tr s
    rw [hrest.region, State.setJob_region]
    exact hunits.runs i hrun

end

end Sys2Proof.Machine
end

