-- ==== Sys2Proof/Proofs/Waves.lean ====
section
/-! PROOFS. Halt waves, steps and resumes of another package, and the obligation (R289, R294, R295, O44). -/

namespace Sys2Proof.Machine

/-! ### The start of a wave (R289) -/

theorem Frac.le_of_not_le {a b : Frac} (h : a.le b = false) : b.le a = true := by
  unfold Frac.le at h ⊢
  exact decide_eq_true (Nat.le_of_lt (Nat.not_le.mp (of_decide_eq_false h)))

theorem Frac.le_refl (a : Frac) : a.le a = true := decide_eq_true (Nat.le_refl _)

/-- The instant by which a region halts, after one more wave has asked it to halt by `lim`. -/
def Region.haltBy (r : Region) (lim : Frac) : Frac := match r.haltAt with | some l => if l.le lim then l else lim | none => lim

theorem Region.haltBy_le (r : Region) (lim : Frac) : (r.haltBy lim).le lim = true ∧ ∀ l, r.haltAt = some l → (r.haltBy lim).le l = true := by
  unfold Region.haltBy
  cases r.haltAt with
  | none => exact ⟨lim.le_refl, fun _ h => by cases h⟩
  | some l =>
    dsimp only
    split
    · rename_i hl
      exact ⟨hl, fun _ h => by cases h; exact l.le_refl⟩
    · rename_i hl
      exact ⟨lim.le_refl, fun _ h => by cases h; exact Frac.le_of_not_le (by simpa using hl)⟩

/-- The region as a wave that gives it `lag` leaves it. -/
def Region.waved (r : Region) (job : Nat) (t0 : Frac) (lag : Option Nat) : Region :=
  match lag with
  | some h => if r.job = job ∧ !r.halted then { r with haltAt := some (r.haltBy (t0.add (Frac.ofNat (150 + 450 * h)))) } else r
  | none => r

section
variable {s : State} {job : Nat} {x : Job} (hx : find s.jobs job = some x) (pkg u : Nat) (t0 : Frac) (cause : W64) (lag : Nat → Option Nat)
include hx

theorem State.startWave_region (i : Nat) : (s.startWave job pkg u t0 cause lag).region i =
    if i < s.regions.length then (s.region i).waved job t0 (lag i) else s.region i := by
  have hmap : (s.startWave job pkg u t0 cause lag).regions = s.regions.zipIdx.map fun e => e.1.waved job t0 (lag e.2) := by
    unfold State.startWave
    rw [hx]
    rfl
  unfold State.region
  rw [hmap]
  split
  · rename_i hi
    rw [List.getD_eq_getElem _ _ (by simpa using hi), List.getD_eq_getElem _ _ hi]
    simp
  · rename_i hi
    rw [List.getD_eq_default _ _ (by simpa using hi), List.getD_eq_default _ _ (by simpa using hi)]

/-- The job is on its way to its halt, and a first wave names its cause. -/
theorem State.startWave_job : ∃ x', find (s.startWave job pkg u t0 cause lag).jobs job = some x' ∧ x'.jstate ≠ 0 ∧ (x.first = none → x'.jcause = cause) := by
  have hstate : (if x.jstate = 0 then 1 else x.jstate) ≠ 0 := by
    split
    · decide
    · assumption
  unfold State.startWave
  rw [hx]
  refine ⟨_, find_put_self .., fun h0 => hstate (by simpa only [apply_ite Job.jstate, ite_self] using h0), fun hfirst => ?_⟩
  simp only [hfirst, if_true]

end

/-! ### Control flits of another package (R289, R294, R295) -/

section
variable {s : State} {p : Nat} {fl : Flit} {x : Job}

/-- The regions whose RCB the flit names have H from it; no other region has. -/
theorem execHaltWave_accepted (h : Accepts 7 s p fl) (hx : find s.jobs fl.param.toNat = some x) : ∃ t, execHaltWave p fl s = .next t ∧
    (∀ i, t.region i = if i < s.regions.length then (s.region i).waved fl.param.toNat (Frac.norm ⟨fl.nat 0 8, max 1 (fl.nat 8 8)⟩)
      (if ((s.regionRcb i).map (·.va)) = some (fl.nat 24 8) then some (fl.nat 32 8) else none) else s.region i) ∧
    ∃ x', find t.jobs fl.param.toNat = some x' ∧ x'.jstate ≠ 0 ∧ (x.first = none → x'.jcause = BitVec.ofNat 64 (fl.nat 16 8)) :=
  ⟨_, flitRow_accepted h (by decide) _, fun i => State.startWave_region (s := s.counted p) hx .., State.startWave_job (s := s.counted p) hx ..⟩

theorem execResume_accepted (h : Accepts 8 s p fl) (hx : find s.jobs fl.param.toNat = some x) (hs : x.jstate = 1 ∨ x.jstate = 2) :
    execResume p fl s = .next ((s.counted p).resumeJob fl.param.toNat (Frac.ofNat (fl.nat 0 8))) := by
  have hcounted : find (s.counted p).jobs fl.param.toNat = some x := hx
  unfold execResume
  rw [flitRow_accepted h (by decide)]
  simp only [hcounted, if_pos hs]

theorem execStep_accepted (h : Accepts 9 s p fl) (hx : find s.jobs fl.param.toNat = some x) (hs : x.jstate = 2) :
    execStep p fl s = .next ((s.counted p).stepRegion fl.param.toNat (fl.nat 0 8)) := by
  have hcounted : find (s.counted p).jobs fl.param.toNat = some x := hx
  unfold execStep
  rw [flitRow_accepted h (by decide)]
  simp only [hcounted, if_pos hs]

end

end Sys2Proof.Machine

open Sys2Proof Sys2Proof.Machine

/-- Settles O44: what a halt still performs leaves regions and job slots as they are, so that the halted region and the others' states decide whether the
job is halted; nothing that a resume does after a region's restart halts it again. -/
theorem haltsStepAndResume : Obligations.HaltsStepAndResume := by
  refine ⟨fun s i hi hdue => ?_, fun s j i x b hx h2 hb hi hj hva hh hr hfirst => ?_, fun s j x hx h2 => ⟨fun hle => ?_, fun hle => execJobResume_early hx hle⟩,
    fun s j x hx h4 => ?_, fun s p fl hacc x hx => ?_, fun s p fl hacc x hx hs => execResume_accepted hacc hx hs,
    fun s p fl hacc x hx h2 => execStep_accepted hacc hx h2⟩
  · obtain ⟨t, hexec, hself, hothers, hjob⟩ := execHaltWaveArrival_halts hi hdue
    exact ⟨t, hexec, by rw [hself]; rfl, by rw [hself]; rfl, by rw [hself]; rfl, hothers, hjob⟩
  · obtain ⟨⟨period, srcPeriod, stamps, hself, hrate⟩, hothers, hjob⟩ := State.stepRegion_steps hi hx (State.findIdx?_focus hi hb hj hva hfirst) hh hr
    have htell := (s.stepRegion j x.jfocus.toNat).tellJob_steady 9 j 0 (leBytes 8 x.jfocus.toNat)
    have hregion := (htell.region i).trans hself
    refine ⟨_, execJobStep_halted hx h2, by rw [hregion], by rw [hregion], by rw [hregion], by rw [hregion]; exact hh, by rw [hregion],
      fun g hsyn hg => by rw [hregion]; exact hrate g hsyn hg, fun k hk => (htell.region k).trans (hothers k hk), ?_⟩
    rw [(State.tellJob_timers_jobs ..).2]
    exact hjob
  · obtain ⟨hjob, htimers, hregions⟩ := State.resumeJob_of_find hx (Frac.ofNat x.jtres.toNat)
    obtain ⟨ttimers, tjobs⟩ := (s.resumeJob j (Frac.ofNat x.jtres.toNat)).tellJob_timers_jobs 8 j 0 (leBytes 8 x.jtres.toNat)
    exact ⟨_, execJobResume_ahead hx h2 hle, by rw [tjobs]; exact hjob, ttimers.trans htimers, (State.tellJob_steady ..).regions.trans hregions⟩
  · obtain ⟨t, hexec, ⟨a, hjob⟩, hrun⟩ := execResumeAtTr_resumes hx h4
    exact ⟨t, _, hexec, hjob, rfl, rfl, rfl, rfl, rfl, rfl, hrun⟩
  · obtain ⟨t, hexec, hregion, hjob⟩ := execHaltWave_accepted hacc hx
    refine ⟨t, hexec, fun i hi hj hrun hva => ?_, fun i hva => ?_, hjob⟩
    · obtain ⟨hlim, hearlier⟩ := (s.region i).haltBy_le ((Frac.norm ⟨fl.nat 0 8, max 1 (fl.nat 8 8)⟩).add (Frac.ofNat (150 + 450 * fl.nat 32 8)))
      refine ⟨_, ?_, hlim, hearlier⟩
      rw [hregion, if_pos hi, if_pos hva, Region.waved]
      exact congrArg Region.haltAt (if_pos ⟨hj, by rw [hrun]; rfl⟩)
    · rw [hregion, if_neg hva]
      exact ite_self _
end
